-- ==== Sys2Proof/Word.lean ====
section
/-! DEFINITION. The machine's word types, the operand names an instruction word can hold (type codes of R81,
rounding codes of R85, address spaces of R109, comparison codes of R174 and R212), and plain helpers on them. -/

namespace Sys2Proof

/-- One byte (R144: a location is one byte). -/
abbrev Byte := BitVec 8
/-- One 32-bit word: an instruction word, a lane register, an s register. -/
abbrev Word := BitVec 32
/-- A 64-bit value: a literal, a c register, a register pair. -/
abbrev Dword := BitVec 64

/-- The type codes of R81, in code order. -/
inductive Ty where
  | b32 | b64 | i8 | i16 | i32 | i64 | n8 | n16 | n32 | n64 | f16 | bf16 | f32 | f64 | hx2 | bx2
  deriving DecidableEq, Repr, Inhabited

/-- The rounding codes of R85; codes 6 and 7 are reserved and have no constructor. -/
inductive Rnd where
  | none | rn | rz | rd | ru | rna
  deriving DecidableEq, Repr, Inhabited

/-- The address spaces of R109, in the code order of R175. -/
inductive Space where
  | l | c | p | g
  deriving DecidableEq, Repr, Inhabited

/-- COUNT of R175: one element, `.x2`, `.x4`; code 3 is reserved. -/
inductive Count where
  | x1 | x2 | x4
  deriving DecidableEq, Repr, Inhabited

/-- VAR of an `ATOM` (R175): none, `.acq`, `.rel`; code 3 is reserved. -/
inductive Var where
  | none | acq | rel
  deriving DecidableEq, Repr, Inhabited

/-- The atomic operations of R175 and R248, in code order. -/
inductive AOp where
  | add | min | max | and | or | xor | exch | cas
  deriving DecidableEq, Repr, Inhabited

/-- The comparison codes of `SETP` (R174), in code order; codes 8 to 15 are reserved. -/
inductive Cmp where
  | eq | ne | lt | le | gt | ge | num | nan
  deriving DecidableEq, Repr, Inhabited

/-- The shuffle modes of R210, and of `OSHFW` (R311), in code order. -/
inductive ShMode where
  | idx | up | dn | xor
  deriving DecidableEq, Repr, Inhabited

/-- The operations of `REDUX` (R237), in code order. -/
inductive RedOp where
  | add | min | max | and | or | xor | amax
  deriving DecidableEq, Repr, Inhabited

/-- Width in bits of a type's value in memory and in registers (R79, R82, R83). -/
def Ty.bits : Ty → Nat
  | .i8 | .n8 => 8
  | .i16 | .n16 | .f16 | .bf16 => 16
  | .b64 | .i64 | .n64 | .f64 => 64
  | .b32 | .i32 | .n32 | .f32 | .hx2 | .bx2 => 32

/-- Width in bytes of a type. -/
def Ty.bytes (t : Ty) : Nat := t.bits / 8

/-- A type whose value takes a register pair (R80). -/
def Ty.is64 (t : Ty) : Bool := t.bits == 64

/-- The two's-complement integer types (R79). -/
def Ty.isSigned : Ty → Bool
  | .i8 | .i16 | .i32 | .i64 => true
  | _ => false

/-- The natural integer types (R79). -/
def Ty.isNatural : Ty → Bool
  | .n8 | .n16 | .n32 | .n64 => true
  | _ => false

/-- The scalar floating-point types (R82). -/
def Ty.isFloat : Ty → Bool
  | .f16 | .bf16 | .f32 | .f64 => true
  | _ => false

/-- Number of elements that COUNT names. -/
def Count.num : Count → Nat
  | .x1 => 1 | .x2 => 2 | .x4 => 4

end Sys2Proof
end

