-- ==== Sys2Proof/Syntax.lean ====
section
/-! DEFINITION. Instructions and events: one constructor of `Instr` per row of spec/opcode_table.json. The operand
bundles hold the fields that the instruction's layout assigns (R167 to R178); every other bit of the words is zero. -/

namespace Sys2Proof

/-- Fields of word 0 common to every X form (R169): stall count, yield, guard p0 to p15, negation. -/
structure Hdr where
  stall : BitVec 3
  yld   : Bool
  pred  : BitVec 4
  neg   : Bool
  deriving DecidableEq, Repr, Inhabited

/-- The same fields of a B form (R167): its guard names p0 to p7. -/
structure HdrB where
  stall : BitVec 3
  yld   : Bool
  pred  : BitVec 3
  neg   : Bool
  deriving DecidableEq, Repr, Inhabited

/-- The default layout of the arithmetic groups (R173), with the operand fields, EXT32 and the literal of R170. -/
structure Alu where
  ty  : Ty
  rnd : Rnd
  sat : Bool
  as  : Bool
  bs  : Bool
  bi  : Bool
  opx : Bool
  d   : BitVec 8
  a   : BitVec 8
  b   : BitVec 8
  c   : BitVec 8
  ext : Word
  lit : Option Dword
  deriving DecidableEq, Repr, Inhabited

/-- `SETP` (R174): its MOD12 holds a type, a comparison and AS, BS, BI. -/
structure Setp where
  ty  : Ty
  cmp : Cmp
  as  : Bool
  bs  : Bool
  bi  : Bool
  d   : BitVec 8
  a   : BitVec 8
  b   : BitVec 8
  ext : Word
  lit : Option Dword
  deriving DecidableEq, Repr, Inhabited

/-- `SHFL.*` (R174). -/
structure Shfl where
  ty  : Ty
  bi  : Bool
  leg : Bool
  d   : BitVec 8
  a   : BitVec 8
  b   : BitVec 8
  ext : Word
  deriving DecidableEq, Repr, Inhabited

/-- A load, store or hint of the memory group (R175): `r` is the destination (field D) or the data (field C). -/
structure Mem where
  space : Space
  ty    : Ty
  count : Count
  sb    : Bool
  ix    : Bool
  r     : BitVec 8
  a     : BitVec 8
  b     : BitVec 8
  off   : Word
  deriving DecidableEq, Repr, Inhabited

/-- `ATOM` and `RED` (R175, R248): the offset is EXT32[31:8]. -/
structure Atm where
  space : Space
  ty    : Ty
  sb    : Bool
  ix    : Bool
  var   : Var
  op    : AOp
  d     : BitVec 8
  a     : BitVec 8
  b     : BitVec 8
  c     : BitVec 8
  off   : BitVec 24
  deriving DecidableEq, Repr, Inhabited

/-- `ACP` (R253). -/
structure Acp where
  space : Space
  ty    : Ty
  count : Count
  sb    : Bool
  tag   : BitVec 2
  out   : Bool
  d     : BitVec 8
  a     : BitVec 8
  c     : BitVec 8
  off   : Word
  deriving DecidableEq, Repr, Inhabited

/-- The byte-count barrier instructions (R176): an object address and a value register. -/
structure Barb where
  space : Space
  sb    : Bool
  a     : BitVec 8
  b     : BitVec 8
  off   : Word
  deriving DecidableEq, Repr, Inhabited

/-- `TX.LD`, `TX.ST` (R273, R280): counted layout with object BOBJ. -/
structure Tx where
  ty   : Ty
  mc   : Bool
  d    : BitVec 8
  a    : BitVec 8
  b    : BitVec 8
  c    : BitVec 8
  bobj : BitVec 16
  deriving DecidableEq, Repr, Inhabited

/-- `MX.STRM` (R291). -/
structure Strm where
  alg : BitVec 3
  lst : Bool
  acc : Bool
  d   : BitVec 8
  a   : BitVec 8
  b   : BitVec 8
  c   : BitVec 8
  m1  : BitVec 10
  deriving DecidableEq, Repr, Inhabited

/-- A serial number the model gives a request, parcel, launch or context (an index, never a word of the machine). -/
abbrev Id := Nat

/-- Every row of spec/opcode_table.json: the instructions of both streams, then the events of the machine. -/
inductive Instr where
  -- control group, R190 to R203
  | nop (h : Hdr)
  | nopShort (h : HdrB)
  | bra (h : Hdr) (k : BitVec 12) (off : Word)
  | braShort (h : HdrB) (off : BitVec 16)
  | brl (h : Hdr) (k : BitVec 12) (off : Word)
  | brlShort (h : HdrB) (off : BitVec 16)
  | brx (h : Hdr) (k : BitVec 12) (a : BitVec 8) (sreg : Bool)
  | brz (h : Hdr) (k : BitVec 12) (a : BitVec 8) (off : Word)
  | brnz (h : Hdr) (k : BitVec 12) (a : BitVec 8) (off : Word)
  | call (h : Hdr) (k : BitVec 12) (off : Word)
  | callShort (h : HdrB) (off : BitVec 16)
  | join (h : Hdr) (k : BitVec 12)
  | joinShort (h : HdrB) (k : BitVec 12)
  | pop (h : Hdr)
  | popShort (h : HdrB)
  | ret (h : Hdr)
  | retShort (h : HdrB)
  | rett (h : Hdr)
  | rettShort (h : HdrB)
  | exit (h : Hdr)
  | exitShort (h : HdrB)
  | yield (h : Hdr)
  | yieldShort (h : HdrB)
  | monwait (h : Hdr) (d a : BitVec 8)
  | setp (h : Hdr) (o : Setp)
  | plop (h : Hdr) (d a b c : BitVec 8) (table : BitVec 8)
  | psel (h : Hdr) (leg : Bool) (d a b : BitVec 8)
  | voteAnd (h : Hdr) (leg : Bool) (d a : BitVec 8)
  | voteOr (h : Hdr) (leg : Bool) (d a : BitVec 8)
  | voteEq (h : Hdr) (leg : Bool) (d a : BitVec 8)
  | voteMask (h : Hdr) (leg : Bool) (d a : BitVec 8)
  | shflIdx (h : Hdr) (o : Shfl)
  | shflUp (h : Hdr) (o : Shfl)
  | shflDn (h : Hdr) (o : Shfl)
  | shflXor (h : Hdr) (o : Shfl)
  | ltos (h : Hdr) (d a : BitVec 8)
  | stol (h : Hdr) (d a b : BitVec 8)
  -- scalar group, R212, R213
  | sadd (h : Hdr) (o : Alu)
  | ssub (h : Hdr) (o : Alu)
  | smul (h : Hdr) (o : Alu)
  | sand (h : Hdr) (o : Alu)
  | sor (h : Hdr) (o : Alu)
  | sxor (h : Hdr) (o : Alu)
  | sshl (h : Hdr) (o : Alu)
  | sshr (h : Hdr) (o : Alu)
  | ssra (h : Hdr) (o : Alu)
  | smov (h : Hdr) (o : Alu)
  | smovShort (h : HdrB) (d a : BitVec 7)
  | smovi (h : Hdr) (o : Alu)
  | smoviLit (h : HdrB) (wide : Bool) (d : BitVec 7) (lit : Dword)
  | scmp (h : Hdr) (o : Alu)
  -- vector arithmetic, R215 to R239
  | iadd (h : Hdr) (o : Alu)
  | iaddLit (h : HdrB) (d a : BitVec 7) (lit : Dword)
  | isub (h : Hdr) (o : Alu)
  | imul (h : Hdr) (o : Alu)
  | imulh (h : Hdr) (o : Alu)
  | imulq (h : Hdr) (o : Alu)
  | imad (h : Hdr) (o : Alu)
  | imin (h : Hdr) (o : Alu)
  | imax (h : Hdr) (o : Alu)
  | iabs (h : Hdr) (o : Alu)
  | iabsShort (h : HdrB) (d a : BitVec 7)
  | ineg (h : Hdr) (o : Alu)
  | inegShort (h : HdrB) (d a : BitVec 7)
  | and (h : Hdr) (o : Alu)
  | or (h : Hdr) (o : Alu)
  | xor (h : Hdr) (o : Alu)
  | not (h : Hdr) (o : Alu)
  | notShort (h : HdrB) (d a : BitVec 7)
  | shl (h : Hdr) (o : Alu)
  | shr (h : Hdr) (o : Alu)
  | sra (h : Hdr) (o : Alu)
  | bfx (h : Hdr) (o : Alu)
  | bfi (h : Hdr) (o : Alu)
  | popc (h : Hdr) (o : Alu)
  | popcShort (h : HdrB) (d a : BitVec 7)
  | clz (h : Hdr) (o : Alu)
  | clzShort (h : HdrB) (d a : BitVec 7)
  | sel (h : Hdr) (o : Alu)
  | mov (h : Hdr) (o : Alu)
  | movShort (h : HdrB) (d a : BitVec 7)
  | movi (h : Hdr) (o : Alu)
  | moviLit (h : HdrB) (wide : Bool) (d : BitVec 7) (lit : Dword)
  | clamp (h : Hdr) (o : Alu)
  | dp4 (h : Hdr) (o : Alu)
  | dp2 (h : Hdr) (o : Alu)
  | rshr (h : Hdr) (o : Alu)
  | fadd (h : Hdr) (o : Alu)
  | fsub (h : Hdr) (o : Alu)
  | fmul (h : Hdr) (o : Alu)
  | ffma (h : Hdr) (o : Alu)
  | fmin (h : Hdr) (o : Alu)
  | fmax (h : Hdr) (o : Alu)
  | fabs (h : Hdr) (o : Alu)
  | fabsShort (h : HdrB) (d a : BitVec 7)
  | fneg (h : Hdr) (o : Alu)
  | fnegShort (h : HdrB) (d a : BitVec 7)
  | frcp (h : Hdr) (o : Alu)
  | frsq (h : Hdr) (o : Alu)
  | fsqrt (h : Hdr) (o : Alu)
  | fexp2 (h : Hdr) (o : Alu)
  | flog2 (h : Hdr) (o : Alu)
  | fsin (h : Hdr) (o : Alu)
  | fcos (h : Hdr) (o : Alu)
  | cvt (h : Hdr) (o : Alu)
  | pack (h : Hdr) (o : Alu)
  | unpk (h : Hdr) (o : Alu)
  | qscale (h : Hdr) (o : Alu)
  | qcvt (h : Hdr) (o : Alu)
  | bpt (h : Hdr) (o : Alu)
  | redux (h : Hdr) (o : Alu)
  | algMul (h : Hdr) (o : Alu)
  | algConj (h : Hdr) (o : Alu)
  | algNorm (h : Hdr) (o : Alu)
  -- memory group, R240 to R257
  | ld (h : Hdr) (o : Mem)
  | ldShort (h : HdrB) (space : Space) (d a : BitVec 7)
  | st (h : Hdr) (o : Mem)
  | stShort (h : HdrB) (space : Space) (d a : BitVec 7)
  | ldAcq (h : Hdr) (o : Mem)
  | stRel (h : Hdr) (o : Mem)
  | atom (h : Hdr) (o : Atm)
  | red (h : Hdr) (o : Atm)
  | pfh (h : Hdr) (o : Mem)
  | pfw (h : Hdr) (o : Mem)
  | acp (h : Hdr) (o : Acp)
  | acwait (h : Hdr) (tag : BitVec 2) (n : BitVec 6)
  | fenceAcq (h : Hdr)
  | fenceRel (h : Hdr)
  | fenceAr (h : Hdr)
  -- synchronisation group, R258 to R265
  | barSync (h : Hdr) (n : BitVec 6)
  | barArrive (h : Hdr) (n : BitVec 6)
  | barWait (h : Hdr) (n : BitVec 6)
  | barJoin (h : Hdr) (n : BitVec 6)
  | barLeave (h : Hdr) (n : BitVec 6)
  | barInitb (h : Hdr) (o : Barb)
  | barArriveb (h : Hdr) (o : Barb)
  | barWaitb (h : Hdr) (o : Barb)
  | qpush (h : Hdr) (q : BitVec 6) (a : BitVec 8)
  | qpop (h : Hdr) (q : BitVec 6) (d : BitVec 8)
  | flagSet (h : Hdr) (f : BitVec 6)
  | flagClr (h : Hdr) (f : BitVec 6)
  | flagWait (h : Hdr) (f : BitVec 6)
  -- engine group, R273 to R294
  | cld (h : Hdr) (ty : Ty) (acq : Bool) (d a : BitVec 8) (off : Word)
  | cst (h : Hdr) (ty : Ty) (rel : Bool) (a c : BitVec 8) (off : Word)
  | cbr (h : Hdr) (cmp : BitVec 3) (ty : Ty) (a b : BitVec 8) (off : Word)
  | wfi (h : Hdr)
  | shpSet (h : Hdr) (d a : BitVec 8) (field : BitVec 3)
  | txLd (h : Hdr) (o : Tx)
  | txLdq (h : Hdr) (o : Tx) (planes : BitVec 4)
  | txSt (h : Hdr) (o : Tx)
  | txStPeer (h : Hdr) (o : Tx)
  | txFence (h : Hdr)
  | mxLds (h : Hdr) (withMeta : Bool) (a b c : BitVec 8)
  | mxSwap (h : Hdr) (c : BitVec 8)
  | mxStrm (h : Hdr) (o : Strm)
  | mxDrn (h : Hdr) (o : Tx)
  | mxZero (h : Hdr) (d c : BitVec 8)
  | mxWait (h : Hdr) (c : BitVec 8)
  | algLdt (h : Hdr) (d a : BitVec 8)
  -- system group, R297 to R312
  | trap (h : Hdr) (code : Word)
  | brk (h : Hdr) (code : Word)
  | srd (h : Hdr) (reg : BitVec 12) (sdest : Bool) (d : BitVec 8)
  | srdShort (h : HdrB) (d a : BitVec 7)
  | swr (h : Hdr) (reg : BitVec 12) (a : BitVec 8)
  | safept (h : Hdr) (k : BitVec 12)
  | safeptShort (h : HdrB) (k : BitVec 12)
  | xfer (h : Hdr) (v : BitVec 3)
  | progress (h : Hdr) (a : BitVec 8)
  | odot4 (h : Hdr) (nat : Bool) (d a b c : BitVec 8)
  | omma8 (h : Hdr) (na nb : Bool) (d a b : BitVec 8)
  | oldx (h : Hdr) (n1 : BitVec 3) (d a : BitVec 8) (off : Word)
  | oshfw (h : Hdr) (mode : ShMode) (d a b : BitVec 8)
  -- words that are no instruction (R181), fetches and the firmware debug function
  | unassignedOpcode (ws : List Word)
  | instructionFetch (core slot entry : Nat)
  | debugResume (core slot entry : Nat)
  | debugFunctionWrite (core : Nat) (comparator : Nat) (ctx : Id) (version : BitVec 3) (pc : Word) (dbgctl : Word)
      (watch : Option (Nat × Nat))
  | registerWrite (page : Nat) (offset : Nat) (value : Dword)
  -- events of the issue slots, chapters 03 and 08
  | stallCountExpiry (core slot entry : Nat)
  | stackSpill (core slot entry : Nat)
  | stackFill (core slot entry : Nat)
  | monwaitTimeout (core slot entry : Nat)
  | noMonitorExpiry (core slot entry : Nat)
  | wfiTimeout (cluster : Nat)
  | runaheadEntry (core slot entry : Nat)
  | runaheadRestore (core slot entry : Nat)
  -- events of the memory system, chapters 05 and 06
  | loadDataReturn (req : Id)
  | writePerform (req : Id)
  | releaseComplete (core slot entry : Nat)
  | atomicPerform (req : Id)
  | translationWalk (req : Id)
  | faultReport (n : Id)
  | faultRecordPost (ctx : Id)
  | replay (ctx : Id) (page : Nat)
  | refuse (ctx : Id) (page : Nat)
  | leaseViolation (ctx : Id) (page : Nat)
  | acpComplete (core slot team : Nat) (tag : BitVec 2)
  -- events of the engines, chapter 11
  | engineArrival (cluster : Nat) (eseq : Word) (core unit : Nat)
  | engineCommandFinish (cluster : Nat) (eseq : Word)
  -- events of the front end and the distributor, chapter 21
  | hostDoorbell (offset : Nat) (bytes : Nat) (value : Dword)
  | queueWakeMap
  | queueUnmap (slot : Nat)
  | nopPacket (qid : Nat)
  | launch (qid : Nat)
  | signal (qid : Nat)
  | wait (qid : Nat)
  | waitReread (qid : Nat)
  | fetchFence (qid : Nat)
  | transferReq (qid : Nat)
  | transferReqComplete (qid : Nat) (pkt : Nat)
  | algebraLoad (qid : Nat)
  | algebraLoadCluster (qid : Nat) (cluster : Nat)
  | parcelAdmit (lid : Id)
  | launchComplete (lid : Id)
  | pairCompare (lid : Id) (parcel : Nat)
  -- events of pre-emption and the ports, chapter 22
  | parcelSwitchOut (pid : Id)
  | parkThresholdExpiry (core slot entry : Nat)
  | drainTimeout (pid : Id)
  | parcelSave (pid : Id)
  | savedArrival (pid : Id) (n : Nat)
  | parcelRestore (pid : Id) (core : Nat)
  | peerScratchWrite (port : Nat) (ctx parcel off : Nat) (data : List Byte) (bobj : BitVec 16)
  | peerAccess (port : Nat) (ctx : Id) (va : Nat) (write : Option (List Byte)) (aop : Option (AOp × Ty))
  | hostAccess (va : Nat) (len : Nat) (write : Option (List Byte))
  | linkFlitRetry (port : Nat) (count : Nat)
  | farTimeout (req : Id)
  | portDown (port : Nat)
  | retrainStart (unit : Nat)
  | retrainEnd (unit : Nat) (ok : Bool)
  | saveDeadlineExpiry (pid : Id)
  | basinEvict (line : Nat)
  -- events of the module, chapter 24
  | scrubBlock (part frame half errors : Nat)
  | powerSample (watts : Nat)
  | thermalEvent (celsius : Nat)
  | reset (root : Bool) (flash image : BitVec 2)
  | hbmWipeComplete
  -- mailbox messages, chapter 23: each acts on the request pending on its page
  | hello
  | ctxCreate
  | ctxDestroy
  | ctxStop
  | grant
  | map
  | deny
  | queueMap
  | queueResume
  | reserve
  | load
  | unload
  | keySet
  | keyClear
  | attest
  | attestChain
  | debugNonce
  | debugUnlock
  | lifecycle
  | fwStage
  | telemetry
  | powerLimitSet
  | aperture
  | logRead
  | uncorrectableFabricError
  deriving DecidableEq, Repr, Inhabited

end Sys2Proof
end

