-- ==== Sys2Proof/WellFormed.lean ====
section
/-! DEFINITION. Which terms of `Instr` stand for an encodable instruction: the checks of R171 to R181 that need
neither the stream nor the state. The checks that do (the stream of R180, `.regs` of R172, NBAR of R64, the algebra
slot of R238) are made by the meanings, in the place R183 gives them. -/

namespace Sys2Proof

/-- An operand field that names an s register (R171). -/
def sReg (r : BitVec 8) : Bool := decide (r.toNat < 64)
/-- An operand field that names a c register (R171). -/
def cReg (r : BitVec 8) : Bool := decide (r.toNat < 32)
/-- An operand field that names a p register (R171). -/
def pReg (r : BitVec 8) : Bool := decide (r.toNat < 16)
/-- An operand field that names an h or an a register (R171). -/
def hReg (r : BitVec 8) : Bool := decide (r.toNat < 8)
/-- The first register of a pair is even (R80, R171). -/
def evenReg (r : BitVec 8) : Bool := decide (r.toNat % 2 = 0)
/-- An s or v operand, a pair when wide (R171, R215). -/
def opndOk (s wide : Bool) (r : BitVec 8) : Bool := (!s || sReg r) && (!wide || evenReg r)
/-- No guard written (R199): p0, not negated. -/
def Hdr.bare (h : Hdr) : Bool := decide (h.pred = 0) && !h.neg
/-- No guard written, short form (R199). -/
def HdrB.bare (h : HdrB) : Bool := decide (h.pred = 0) && !h.neg

/-- What an arithmetic instruction's table entry accepts (R173, R215, R216). -/
structure Shape where
  types  : List Ty
  rnds   : List Rnd := [.none]
  sat    : Bool := false
  opx    : Bool := false
  /-- A may name an s register. -/
  aS     : Bool := true
  /-- The instruction takes a B operand. -/
  hasB   : Bool := true
  /-- B may be an immediate. -/
  immB   : Bool := true
  /-- 0: no C operand; 1: one 32-bit register; 2: a register of the type. -/
  hasC   : Nat := 0
  /-- EXT32 has a meaning of its own (R173), checked beside. -/
  ownExt : Bool := false
  /-- Destination of a 64-bit type is a pair. -/
  wideD  : Bool := true
  /-- Operands of a 64-bit type are pairs. -/
  wideA  : Bool := true
  /-- A `.f16` or `.bf16` immediate is EXT32[15:0] (R215). -/
  halfImm : Bool := true

/-- The default-layout checks of R170, R173, R181, R215 and R216 against an entry's shape. -/
def Alu.ok (o : Alu) (sh : Shape) : Bool :=
  sh.types.contains o.ty && sh.rnds.contains o.rnd && (sh.sat || !o.sat) && (sh.opx || !o.opx) &&
  (sh.aS || !o.as) && opndOk o.as (o.ty.is64 && sh.wideA) o.a && (!(o.ty.is64 && sh.wideD) || evenReg o.d) &&
  !(o.bs && o.bi) && (sh.immB || !o.bi) &&
  (if sh.hasB && !o.bi then opndOk o.bs (o.ty.is64 && sh.wideA) o.b else decide (o.b = 0)) &&
  (sh.hasB || !o.bs) && (sh.hasB || !o.bi) &&
  (match sh.hasC with
   | 0 => decide (o.c = 0)
   | 1 => true
   | _ => !o.ty.is64 || evenReg o.c) &&
  (sh.ownExt || o.bi || decide (o.ext = 0)) &&
  (!(o.bi && sh.halfImm && (o.ty == .f16 || o.ty == .bf16)) || decide (o.ext.toNat < 65536)) &&
  (o.lit.isNone || (o.bi && o.ty.is64 && decide (o.ext = 0)))

/-- A scalar-group instruction (R212): every operand an s or c register. The stream narrows the types and the
register range at issue. -/
def Alu.scalarOk (o : Alu) (types : List Ty) (rnds : List Rnd) (sat hasB : Bool) : Bool :=
  types.contains o.ty && rnds.contains o.rnd && (sat || !o.sat) && !o.as && !o.bs && !o.opx &&
  sReg o.d && sReg o.a && sReg o.b && (hasB || !o.bi) && (!(o.bi || !hasB) || decide (o.b = 0)) && decide (o.c = 0) &&
  (o.bi || decide (o.ext = 0)) && (o.lit.isNone || (o.bi && o.ty.is64 && decide (o.ext = 0)))

/-- `MOVI` and `SMOVI` (R170, R173): the immediate is the only source, with BI = 0. -/
def Alu.movOk (o : Alu) : Bool :=
  (o.ty == .b32 || o.ty == .b64) && o.rnd == .none && !o.sat && !o.as && !o.bs && !o.bi && !o.opx &&
  decide (o.a = 0) && decide (o.b = 0) && decide (o.c = 0) &&
  (o.lit.isNone || (o.ty.is64 && decide (o.ext = 0)))

def intTypes : List Ty := [.i32, .n32, .i64, .n64]
def rawTypes : List Ty := [.b32, .b64]
def floatTypes : List Ty := [.f16, .bf16, .f32, .f64, .hx2, .bx2]
def rnds4 : List Rnd := [.none, .rn, .rz, .rd, .ru]
def rnds5 : List Rnd := [.none, .rn, .rz, .rd, .ru, .rna]
/-- The types of `LD`, `ST`, `CLD` and `CST` (R243, R274). -/
def memTypes : List Ty := [.b32, .b64, .i8, .i16, .i32, .i64, .n8, .n16, .n32, .n64]

/-- The field of EXT32 `p` and `l` of `BFX` and `BFI` (R224). -/
def bfOk (o : Alu) : Bool :=
  let p := o.ext.toNat % 256
  let l := o.ext.toNat / 256 % 256
  decide (o.ext.toNat < 65536) && decide (1 ≤ l) && decide (p + l ≤ o.ty.bits)

/-- The integer types `.i8` to `.n64` of R232. -/
def Ty.isInt (t : Ty) : Bool := t.isSigned || t.isNatural

/-- A float type is wider than another only when it holds every value of the other (R232). -/
def Ty.widerFloat (t u : Ty) : Bool :=
  (t == .f64 && (u == .f32 || u == .f16 || u == .bf16)) || (t == .f32 && (u == .f16 || u == .bf16))

/-- The pairs of `CVT` with their roundings and `.sat` (R232). -/
def cvtOk (d s : Ty) (rnd : Rnd) (sat : Bool) : Bool :=
  if d.isInt && s.isInt then rnd == .none
  else if sat then false
  else if d.isFloat && s.isInt then true
  else if d.isInt && s.isFloat then true
  else if d.isFloat && s.isFloat then (if d.widerFloat s then rnd == .none else true)
  else (d == .bx2 && s == .hx2) || (d == .hx2 && s == .bx2)

/-- `SETP` (R174, R205). -/
def Setp.ok (o : Setp) : Bool :=
  [Ty.b32, .i32, .n32, .i64, .n64, .f16, .bf16, .f32, .f64].contains o.ty &&
  (o.ty != .b32 || o.cmp == .eq || o.cmp == .ne) &&
  (o.ty.isFloat || !(o.cmp == .num || o.cmp == .nan)) &&
  pReg o.d && opndOk o.as o.ty.is64 o.a && !(o.bs && o.bi) &&
  (if o.bi then decide (o.b = 0) else opndOk o.bs o.ty.is64 o.b && decide (o.ext = 0)) &&
  (!(o.ty == .f16 || o.ty == .bf16) || decide (o.ext.toNat < 65536)) &&
  (o.lit.isNone || (o.bi && o.ty.is64 && decide (o.ext = 0)))

/-- `SHFL` (R210). -/
def Shfl.ok (o : Shfl) : Bool :=
  (o.ty == .b32 || (o.ty == .b64 && evenReg o.d && evenReg o.a)) &&
  (if o.bi then decide (o.b = 0) else decide (o.ext = 0))

/-- The address fields of the memory group (R240). -/
def addrOk (space : Space) (sb ix : Bool) (a b : BitVec 8) (freeB : Bool) : Bool :=
  (!ix || sb) && (!sb || sReg a) && (space != .g || evenReg a) && (freeB || ix || decide (b = 0))

/-- A load, store or hint (R243, R246, R252). -/
def Mem.ok (o : Mem) (spaces : List Space) : Bool :=
  spaces.contains o.space && memTypes.contains o.ty && addrOk o.space o.sb o.ix o.a o.b false &&
  (!o.ty.is64 || evenReg o.r)

/-- `PFH` and `PFW` (R252). -/
def Mem.hintOk (o : Mem) : Bool :=
  o.space == .g && o.ty == .b32 && o.count == .x1 && decide (o.r = 0) && addrOk o.space o.sb o.ix o.a o.b false

/-- The types that an atomic operation accepts (R248). -/
def AOp.types : AOp → List Ty
  | .add => [.i32, .n32, .i64, .n64, .f32, .bx2, .hx2]
  | .min | .max => [.i32, .n32, .i64, .n64, .f32]
  | .and | .or | .xor | .exch | .cas => [.b32, .b64]

/-- `ATOM` (R240, R248). -/
def Atm.ok (o : Atm) : Bool :=
  o.op.types.contains o.ty && (o.space == .g || o.var == .none) &&
  addrOk o.space o.sb o.ix o.a o.b (o.op == .cas) && (o.op != .cas || !o.ix) &&
  (!o.ty.is64 || (evenReg o.d && evenReg o.b && evenReg o.c))

/-- `RED` (R175, R248). -/
def Atm.redOk (o : Atm) : Bool :=
  o.op.types.contains o.ty && o.var == .none && decide (o.d = 0) && o.op != .exch && o.op != .cas &&
  addrOk o.space o.sb o.ix o.a o.b false && (!o.ty.is64 || (evenReg o.b && evenReg o.c))

/-- `ACP` (R240, R253). -/
def Acp.ok (o : Acp) : Bool :=
  (o.space == .p || o.space == .g) && (o.ty == .b32 || o.ty == .b64) && addrOk o.space o.sb false o.a 0 false

/-- The byte-count barrier instructions (R176, R261). -/
def Barb.ok (o : Barb) : Bool :=
  (o.space == .l || o.space == .c) && (!o.sb || sReg o.a) && sReg o.b

/-- The engine commands of R280 with a counted layout. -/
def Tx.ok (o : Tx) (types : List Ty) (mc useB aOk : Bool) : Bool :=
  types.contains o.ty && (mc || !o.mc) && cReg o.d && aOk && cReg o.c &&
  (if useB then cReg o.b else decide (o.b = 0))

/-- Registers `d` to `d + n − 1` and a pair at `a` do not meet (R311). -/
def apart (d : BitVec 8) (n : Nat) (a : BitVec 8) : Bool :=
  decide (a.toNat + 1 < d.toNat ∨ d.toNat + n ≤ a.toNat)

/-- The events of the table: rows that no instruction word encodes. -/
def Instr.isEvent : Instr → Bool
  | .stallCountExpiry .. | .stackSpill .. | .stackFill .. | .monwaitTimeout .. | .noMonitorExpiry ..
  | .wfiTimeout .. | .runaheadEntry .. | .runaheadRestore .. | .loadDataReturn .. | .writePerform ..
  | .releaseComplete .. | .atomicPerform .. | .translationWalk .. | .faultReport .. | .faultRecordPost ..
  | .replay .. | .refuse .. | .leaseViolation .. | .acpComplete .. | .engineArrival ..
  | .engineCommandFinish .. | .hostDoorbell .. | .queueWakeMap | .queueUnmap .. | .nopPacket .. | .launch ..
  | .signal .. | .wait .. | .waitReread .. | .fetchFence .. | .transferReq .. | .transferReqComplete ..
  | .algebraLoad .. | .algebraLoadCluster .. | .parcelAdmit .. | .launchComplete .. | .pairCompare ..
  | .parcelSwitchOut .. | .parkThresholdExpiry .. | .drainTimeout .. | .parcelSave .. | .savedArrival ..
  | .parcelRestore .. | .peerScratchWrite .. | .peerAccess .. | .hostAccess .. | .linkFlitRetry ..
  | .farTimeout .. | .portDown .. | .retrainStart .. | .retrainEnd .. | .saveDeadlineExpiry ..
  | .basinEvict .. | .scrubBlock .. | .powerSample .. | .thermalEvent .. | .reset .. | .hbmWipeComplete
  | .registerWrite .. | .hello | .ctxCreate | .ctxDestroy | .ctxStop | .grant | .map | .deny | .queueMap
  | .queueResume | .reserve | .load | .unload | .keySet | .keyClear | .attest | .attestChain | .debugNonce
  | .debugUnlock | .lifecycle | .fwStage | .telemetry | .powerLimitSet | .aperture | .logRead
  | .instructionFetch .. | .uncorrectableFabricError | .debugResume .. | .debugFunctionWrite .. => true
  | _ => false

/-- The static encoding checks of R181, instruction by instruction; events hold no words and are well formed. -/
def Instr.wf : Instr → Bool
  | .nop _ | .nopShort _ | .exit _ | .exitShort _ | .yield _ | .yieldShort _ => true
  | .bra _ _ _ | .braShort _ _ | .brl _ _ _ | .brlShort _ _ | .call _ _ _ | .callShort _ _ => true
  | .brx _ _ a s => !s || sReg a
  | .brz _ _ a _ | .brnz _ _ a _ => sReg a
  | .join h k | .safept h k => h.bare && decide (k ≠ 0)
  | .joinShort h k | .safeptShort h k => h.bare && decide (k ≠ 0)
  | .pop h | .ret h | .rett h => h.bare
  | .popShort h | .retShort h | .rettShort h => h.bare
  | .monwait _ d a => pReg d && sReg a && evenReg a
  | .setp _ o => o.ok
  | .plop _ d a b c _ => pReg d && pReg a && pReg b && pReg c
  | .psel _ _ d a b => pReg d && pReg a && sReg b
  | .voteAnd _ _ d a | .voteOr _ _ d a | .voteEq _ _ d a => pReg d && pReg a
  | .voteMask _ leg d a => (!leg || evenReg d) && pReg a
  | .shflIdx _ o | .shflUp _ o | .shflDn _ o | .shflXor _ o => o.ok
  | .ltos _ d _ => sReg d
  | .stol _ _ a b => sReg a && sReg b
  | .sadd _ o | .ssub _ o => o.scalarOk intTypes [.none] true true
  | .smul _ o => o.scalarOk intTypes [.none] false true
  | .sand _ o | .sor _ o | .sxor _ o | .sshl _ o | .sshr _ o | .ssra _ o => o.scalarOk rawTypes [.none] false true
  | .smov _ o => o.scalarOk rawTypes [.none] false false
  | .smovShort _ d a => decide (d.toNat < 64) && decide (a.toNat < 64)
  | .smovi _ o => sReg o.d && o.movOk
  | .smoviLit _ wide d lit => decide (d.toNat < 64) && (wide || decide (lit.toNat < 2 ^ 32))
  | .scmp _ o => o.scalarOk (rawTypes ++ intTypes) rnds5 false true &&
      (!(o.ty == .b32 || o.ty == .b64) || o.rnd == .none || o.rnd == .rn)
  | .iadd _ o | .isub _ o | .imul _ o => o.ok { types := intTypes, sat := true }
  | .iaddLit _ d a _ => decide (d.toNat % 2 = 0) && decide (a.toNat % 2 = 0)
  | .imulh _ o => o.ok { types := [.i32, .n32] }
  | .imulq _ o => o.ok { types := [.i32] }
  | .imad _ o => o.ok { types := intTypes, sat := true, hasC := 2 }
  | .imin _ o | .imax _ o => o.ok { types := intTypes }
  | .iabs _ o | .ineg _ o => o.ok { types := [.i32, .i64], sat := true, hasB := false }
  | .iabsShort _ _ _ | .inegShort _ _ _ | .notShort _ _ _ | .popcShort _ _ _ | .clzShort _ _ _
  | .movShort _ _ _ | .fabsShort _ _ _ | .fnegShort _ _ _ => true
  | .and _ o | .or _ o | .xor _ o | .shl _ o | .shr _ o | .sra _ o => o.ok { types := rawTypes }
  | .not _ o => o.ok { types := rawTypes, hasB := false }
  | .bfx _ o => o.ok { types := intTypes, hasB := false, ownExt := true } && bfOk o && o.lit.isNone
  | .bfi _ o => o.ok { types := rawTypes, immB := false, ownExt := true } && bfOk o
  | .popc _ o | .clz _ o => o.ok { types := rawTypes, hasB := false, wideD := false }
  | .sel _ o => o.ok { types := rawTypes, hasC := 1 }
  | .mov _ o => o.ok { types := rawTypes, hasB := false }
  | .movi _ o => o.movOk && (!o.ty.is64 || evenReg o.d)
  | .moviLit _ wide d lit => if wide then decide (d.toNat % 2 = 0) else decide (lit.toNat < 2 ^ 32)
  | .clamp _ o => o.ok { types := [.i32, .n32, .f32], hasC := 2 }
  | .dp4 _ o => o.ok { types := [.i8, .n8], sat := true, opx := true }
  | .dp2 _ o => if o.ty == .bx2 then o.ok { types := [.bx2], rnds := rnds4 }
      else o.ok { types := [.i16, .n16], sat := true }
  | .rshr _ o => o.ok { types := [.i32, .n32] }
  | .fadd _ o | .fsub _ o | .fmul _ o => o.ok { types := floatTypes, rnds := rnds4, sat := true }
  | .ffma _ o => o.ok { types := floatTypes, rnds := rnds4, sat := true, hasC := 2 }
  | .fmin _ o | .fmax _ o => o.ok { types := floatTypes }
  | .fabs _ o | .fneg _ o => o.ok { types := floatTypes, hasB := false }
  | .frcp _ o | .frsq _ o | .fexp2 _ o | .flog2 _ o | .fsin _ o | .fcos _ o =>
      o.ok { types := [.f16, .bf16, .f32], hasB := false }
  | .fsqrt _ o => o.ok { types := [.f16, .bf16, .f32, .f64], rnds := rnds4, hasB := false }
  | .cvt _ o =>
      let src := o.ext.toNat
      o.ok { types := [.i8, .i16, .i32, .i64, .n8, .n16, .n32, .n64, .f16, .bf16, .f32, .f64, .hx2, .bx2],
             rnds := rnds5, sat := true, hasB := false, ownExt := true, wideA := false } && o.lit.isNone &&
      decide (src < 16) &&
      (match [Ty.b32, .b64, .i8, .i16, .i32, .i64, .n8, .n16, .n32, .n64, .f16, .bf16, .f32, .f64, .hx2, .bx2][src]? with
       | some t => cvtOk o.ty t o.rnd o.sat && (!t.is64 || evenReg o.a)
       | none => false)
  | .pack _ o => o.ok { types := [.bx2, .hx2], rnds := rnds5 }
  | .unpk _ o => o.ok { types := [.bx2, .hx2], hasB := false } && evenReg o.d
  | .qscale _ o => o.ok { types := [.f32, .bf16], hasB := false }
  | .qcvt _ o => o.ok { types := [.f32, .bf16], rnds := rnds5, halfImm := false }
  | .bpt _ o => o.ok { types := [.b32], hasB := false }
  | .redux _ o =>
      o.ok { types := [.b32, .i32, .n32, .f32], rnds := rnds4, opx := true, hasB := false, ownExt := true } &&
      o.lit.isNone && decide (o.ext.toNat < 7) &&
      (match o.ext.toNat with
       | 0 => (o.ty == .i32 || o.ty == .n32) && o.rnd == .none || o.ty == .f32
       | 1 | 2 => (o.ty == .i32 || o.ty == .n32 || o.ty == .f32) && o.rnd == .none
       | 3 | 4 | 5 => o.ty == .b32 && o.rnd == .none
       | _ => o.ty == .f32 && o.rnd == .none)
  | .algMul _ o => o.ok { types := [.f32, .bf16], rnds := rnds4, aS := false, immB := false, ownExt := true } &&
      decide (o.ext.toNat < 8)
  | .algConj _ o => o.ok { types := [.f32, .bf16], aS := false, hasB := false, ownExt := true } &&
      decide (o.ext.toNat < 8)
  | .algNorm _ o => o.ok { types := [.f32, .bf16], rnds := rnds4, aS := false, hasB := false, ownExt := true } &&
      decide (o.ext.toNat < 8)
  | .ld _ o | .st _ o => o.ok [.l, .c, .p, .g]
  | .ldShort _ sp _ a | .stShort _ sp _ a => sp != .g || decide (a.toNat % 2 = 0)
  | .ldAcq _ o | .stRel _ o => o.ok [.g]
  | .atom _ o => o.ok
  | .red _ o => o.redOk
  | .pfh _ o | .pfw _ o => o.hintOk
  | .acp _ o => o.ok
  | .acwait _ _ _ | .fenceAcq _ | .fenceRel _ | .fenceAr _ => true
  | .barSync _ n | .barArrive _ n | .barWait _ n | .barJoin _ n | .barLeave _ n => decide (n.toNat < 32)
  | .barInitb _ o | .barArriveb _ o | .barWaitb _ o => o.ok
  | .qpush _ q a => decide (q.toNat < 16) && sReg a
  | .qpop _ q d => decide (q.toNat < 16) && sReg d
  | .flagSet _ _ | .flagClr _ _ | .flagWait _ _ => true
  | .cld _ ty _ d a _ => memTypes.contains ty && cReg d && cReg a
  | .cst _ ty _ a c _ => memTypes.contains ty && cReg a && cReg c
  | .cbr _ cmp ty a b _ => (ty == .i64 || ty == .n64 || ty == .b64) && decide (cmp.toNat < 6) &&
      (ty != .b64 || decide (cmp.toNat < 2)) && cReg a && cReg b
  | .wfi _ => true
  | .shpSet _ d a f => hReg d && cReg a && decide (f ≠ 7)
  | .txLd _ o => o.ok [.b32, .bf16, .f32] true false (hReg o.a)
  | .txLdq _ o p => o.ok [.b32] true true (hReg o.a) && decide (2 ≤ p.toNat) && decide (p.toNat ≤ 8)
  | .txSt _ o => o.ok [.b32, .bf16, .f32] false false (hReg o.a)
  | .txStPeer _ o => o.ok [.b32] false true (hReg o.a)
  | .txFence _ => true
  | .mxLds _ _ a b c => cReg a && cReg b && cReg c
  | .mxSwap _ c | .mxWait _ c => cReg c
  | .mxStrm _ o => cReg o.d && cReg o.a && cReg o.b && cReg o.c
  | .mxDrn _ o => o.ok [.bf16, .f32] false true (cReg o.a)
  | .mxZero _ d c => cReg d && cReg c
  | .algLdt _ d a => hReg d && decide (d ≠ 0) && cReg a
  | .trap _ _ | .brk _ _ => true
  | .srd _ _ s d => !s || sReg d
  | .srdShort _ _ _ => true
  | .swr _ _ a => sReg a
  | .xfer h _ => h.bare
  | .progress h a => h.bare && sReg a
  | .odot4 _ _ _ _ _ _ => true
  | .omma8 _ _ _ d a b => evenReg a && evenReg b && apart d 8 a && apart d 8 b
  | .oldx _ n d a _ => evenReg a && apart d (n.toNat + 1) a
  | .oshfw _ _ _ _ _ => true
  | .unassignedOpcode ws => match ws with
      | [] => false
      | w :: r => decide ((w :: r).length =
          (match w.toNat % 4 with | 0 => 1 | 1 => 3 | 2 => 3 | _ => 5))
  | i => i.isEvent

end Sys2Proof
end

