-- ==== Sys2Proof/Decode.lean ====
section
/-! DEFINITION. Encodings (R164 to R181): the two word formats, the decoder from words and from bytes, total and
rejecting by name, and the encoder, both written from the spec's encoding tables. A decoded term is accepted only
when encoding it gives the same words back, which refuses every non-zero reserved bit. -/

namespace Sys2Proof

/-- The fields of an X form (R169): word 0, word 1, EXT32 and the literal of R170. -/
structure XForm where
  op9 : BitVec 9
  h   : Hdr
  mod : BitVec 12
  d   : BitVec 8
  a   : BitVec 8
  b   : BitVec 8
  c   : BitVec 8
  ext : Word
  lit : Option Dword
  deriving DecidableEq, Repr

/-- The fields of a B form (R167, R168): `imm` is bits [31:16], that is F2, A and D. -/
structure BForm where
  maj : BitVec 6
  h   : HdrB
  imm : BitVec 16
  lit : Option Dword
  deriving DecidableEq, Repr

/-- The two formats (R164). -/
inductive Form where
  | x (f : XForm)
  | b (f : BForm)
  deriving DecidableEq, Repr

/-! ### Words and forms -/

/-- Field of `n` bits at bit `lo` of `w`. -/
def fld (w lo n : Nat) : Nat := w / 2 ^ lo % 2 ^ n

/-- The literal's two words, low word first (R164, R170). -/
def litWords : Option Dword → List Word
  | none => []
  | some l => [BitVec.ofNat 32 l.toNat, BitVec.ofNat 32 (l.toNat / 2 ^ 32)]

/-- Word 0 of an X form (R169); LEN is 1, or 3 with a literal. -/
def XForm.word0 (f : XForm) : Nat :=
  (if f.lit.isSome then 3 else 1) + 4 * f.h.stall.toNat + 32 * f.h.yld.toNat + 64 * f.op9.toNat +
  32768 * f.h.pred.toNat + 524288 * f.h.neg.toNat + 1048576 * f.mod.toNat

/-- Word 1 of an X form (R169). -/
def XForm.word1 (f : XForm) : Nat :=
  f.d.toNat + 256 * f.a.toNat + 65536 * f.b.toNat + 16777216 * f.c.toNat

/-- The word of a B form (R167); LEN is 0, or 2 with a literal. -/
def BForm.word0 (f : BForm) : Nat :=
  (if f.lit.isSome then 2 else 0) + 4 * f.h.stall.toNat + 32 * f.h.yld.toNat + 64 * f.maj.toNat +
  4096 * f.h.pred.toNat + 32768 * f.h.neg.toNat + 65536 * f.imm.toNat

/-- The words of a form, lowest address first (R164). -/
def Form.words : Form → List Word
  | .x f => [BitVec.ofNat 32 f.word0, BitVec.ofNat 32 f.word1, f.ext] ++ litWords f.lit
  | .b f => [BitVec.ofNat 32 f.word0] ++ litWords f.lit

/-- Fields of an X form's first two words. -/
def xOf (w0 w1 : Nat) (ext : Word) (lit : Option Dword) : XForm :=
  { op9 := BitVec.ofNat 9 (w0 / 64)
    h := { stall := BitVec.ofNat 3 (w0 / 4), yld := decide (w0 / 32 % 2 = 1),
           pred := BitVec.ofNat 4 (w0 / 32768), neg := decide (w0 / 524288 % 2 = 1) }
    mod := BitVec.ofNat 12 (w0 / 1048576)
    d := BitVec.ofNat 8 w1, a := BitVec.ofNat 8 (w1 / 256), b := BitVec.ofNat 8 (w1 / 65536),
    c := BitVec.ofNat 8 (w1 / 16777216), ext := ext, lit := lit }

/-- Fields of a B form's word. -/
def bOf (w0 : Nat) (lit : Option Dword) : BForm :=
  { maj := BitVec.ofNat 6 (w0 / 64)
    h := { stall := BitVec.ofNat 3 (w0 / 4), yld := decide (w0 / 32 % 2 = 1),
           pred := BitVec.ofNat 3 (w0 / 4096), neg := decide (w0 / 32768 % 2 = 1) }
    imm := BitVec.ofNat 16 (w0 / 65536), lit := lit }

/-- The literal of two words, low word first (R170). -/
def litOf (lo hi : Word) : Dword := BitVec.ofNat 64 (lo.toNat + 2 ^ 32 * hi.toNat)

/-- Number of words that LEN, bits [1:0] of the first word, fixes (R164). -/
def wordCount (w : Word) : Nat :=
  match w.toNat % 4 with
  | 0 => 1
  | 1 => 3
  | 2 => 3
  | _ => 5

/-- The form of an instruction's words; `none` when their number is not the one LEN fixes. -/
def formOf : List Word → Option Form
  | [w0] => if w0.toNat % 4 = 0 then some (.b (bOf w0.toNat none)) else none
  | [w0, w1, w2] =>
      if w0.toNat % 4 = 1 then some (.x (xOf w0.toNat w1.toNat w2 none))
      else if w0.toNat % 4 = 2 then some (.b (bOf w0.toNat (some (litOf w1 w2)))) else none
  | [w0, w1, w2, w3, w4] =>
      if w0.toNat % 4 = 3 then some (.x (xOf w0.toNat w1.toNat w2 (some (litOf w3 w4)))) else none
  | _ => none

/-! ### Codes -/

def Ty.code : Ty → Nat
  | .b32 => 0 | .b64 => 1 | .i8 => 2 | .i16 => 3 | .i32 => 4 | .i64 => 5 | .n8 => 6 | .n16 => 7
  | .n32 => 8 | .n64 => 9 | .f16 => 10 | .bf16 => 11 | .f32 => 12 | .f64 => 13 | .hx2 => 14 | .bx2 => 15

/-- R81. -/
def Ty.ofCode (n : Nat) : Ty :=
  match n with
  | 0 => .b32 | 1 => .b64 | 2 => .i8 | 3 => .i16 | 4 => .i32 | 5 => .i64 | 6 => .n8 | 7 => .n16
  | 8 => .n32 | 9 => .n64 | 10 => .f16 | 11 => .bf16 | 12 => .f32 | 13 => .f64 | 14 => .hx2 | _ => .bx2

def Rnd.code : Rnd → Nat
  | .none => 0 | .rn => 1 | .rz => 2 | .rd => 3 | .ru => 4 | .rna => 5

/-- R85: codes 6 and 7 are reserved. -/
def Rnd.ofCode (n : Nat) : Option Rnd :=
  match n with
  | 0 => some .none | 1 => some .rn | 2 => some .rz | 3 => some .rd | 4 => some .ru | 5 => some .rna | _ => none

def Space.code : Space → Nat
  | .l => 0 | .c => 1 | .p => 2 | .g => 3

/-- R175. -/
def Space.ofCode (n : Nat) : Space :=
  match n with
  | 0 => .l | 1 => .c | 2 => .p | _ => .g

def Count.code : Count → Nat
  | .x1 => 0 | .x2 => 1 | .x4 => 2

/-- R175: code 3 is reserved. -/
def Count.ofCode (n : Nat) : Option Count :=
  match n with
  | 0 => some .x1 | 1 => some .x2 | 2 => some .x4 | _ => none

def Var.code : Var → Nat
  | .none => 0 | .acq => 1 | .rel => 2

/-- R175: code 3 is reserved. -/
def Var.ofCode (n : Nat) : Option Var :=
  match n with
  | 0 => some .none | 1 => some .acq | 2 => some .rel | _ => none

def AOp.code : AOp → Nat
  | .add => 0 | .min => 1 | .max => 2 | .and => 3 | .or => 4 | .xor => 5 | .exch => 6 | .cas => 7

/-- R175. -/
def AOp.ofCode (n : Nat) : AOp :=
  match n with
  | 0 => .add | 1 => .min | 2 => .max | 3 => .and | 4 => .or | 5 => .xor | 6 => .exch | _ => .cas

def Cmp.code : Cmp → Nat
  | .eq => 0 | .ne => 1 | .lt => 2 | .le => 3 | .gt => 4 | .ge => 5 | .num => 6 | .nan => 7

/-- R174: codes 8 to 15 are reserved. -/
def Cmp.ofCode (n : Nat) : Option Cmp :=
  match n with
  | 0 => some .eq | 1 => some .ne | 2 => some .lt | 3 => some .le | 4 => some .gt | 5 => some .ge
  | 6 => some .num | 7 => some .nan | _ => none

def ShMode.code : ShMode → Nat
  | .idx => 0 | .up => 1 | .dn => 2 | .xor => 3

def ShMode.ofCode (n : Nat) : ShMode :=
  match n with
  | 0 => .idx | 1 => .up | 2 => .dn | _ => .xor

/-! ### Bundles as fields -/

/-- An X form with nothing but its opcode, header and MOD12. -/
def xf (op : Nat) (h : Hdr) (mod : Nat) (d a b c : BitVec 8) (ext : Word) (lit : Option Dword) : XForm :=
  { op9 := BitVec.ofNat 9 op, h := h, mod := BitVec.ofNat 12 mod, d := d, a := a, b := b, c := c, ext := ext, lit := lit }

/-- The default MOD12 (R173). -/
def Alu.x (op : Nat) (h : Hdr) (o : Alu) : XForm :=
  xf op h (o.ty.code + 16 * o.rnd.code + 128 * o.sat.toNat + 256 * o.as.toNat + 512 * o.bs.toNat +
    1024 * o.bi.toNat + 2048 * o.opx.toNat) o.d o.a o.b o.c o.ext o.lit

def bit (m i : Nat) : Bool := decide (m / 2 ^ i % 2 = 1)

def XForm.alu (f : XForm) : Option Alu :=
  let m := f.mod.toNat
  (Rnd.ofCode (m / 16 % 8)).map fun r =>
    { ty := Ty.ofCode (m % 16), rnd := r, sat := bit m 7, as := bit m 8, bs := bit m 9, bi := bit m 10,
      opx := bit m 11, d := f.d, a := f.a, b := f.b, c := f.c, ext := f.ext, lit := f.lit }

/-- `SETP` (R174). -/
def Setp.x (h : Hdr) (o : Setp) : XForm :=
  xf 0x00C h (o.ty.code + 16 * o.cmp.code + 256 * o.as.toNat + 512 * o.bs.toNat + 1024 * o.bi.toNat)
    o.d o.a o.b 0 o.ext o.lit

def XForm.setp (f : XForm) : Option Setp :=
  let m := f.mod.toNat
  (Cmp.ofCode (m / 16 % 16)).map fun c =>
    { ty := Ty.ofCode (m % 16), cmp := c, as := bit m 8, bs := bit m 9, bi := bit m 10,
      d := f.d, a := f.a, b := f.b, ext := f.ext, lit := f.lit }

/-- `SHFL` (R174). -/
def Shfl.x (op : Nat) (h : Hdr) (o : Shfl) : XForm :=
  xf op h (o.ty.code + 1024 * o.bi.toNat + 2048 * o.leg.toNat) o.d o.a o.b 0 o.ext none

def XForm.shfl (f : XForm) : Shfl :=
  let m := f.mod.toNat
  { ty := Ty.ofCode (m % 16), bi := bit m 10, leg := bit m 11, d := f.d, a := f.a, b := f.b, ext := f.ext }

/-- The memory group's MOD12 (R175). -/
def memMod (sp : Space) (ty : Ty) (n : Count) (sb ix : Bool) (var : Nat) : Nat :=
  sp.code + 4 * ty.code + 64 * n.code + 256 * sb.toNat + 512 * ix.toNat + 1024 * var

/-- A load: field D is the destination. -/
def Mem.xd (op : Nat) (h : Hdr) (o : Mem) : XForm :=
  xf op h (memMod o.space o.ty o.count o.sb o.ix 0) o.r o.a o.b 0 o.off none

/-- A store: field C is the data. -/
def Mem.xc (op : Nat) (h : Hdr) (o : Mem) : XForm :=
  xf op h (memMod o.space o.ty o.count o.sb o.ix 0) 0 o.a o.b o.r o.off none

def XForm.mem (f : XForm) (r : BitVec 8) : Option Mem :=
  let m := f.mod.toNat
  (Count.ofCode (m / 64 % 4)).map fun n =>
    { space := Space.ofCode (m % 4), ty := Ty.ofCode (m / 4 % 16), count := n, sb := bit m 8, ix := bit m 9,
      r := r, a := f.a, b := f.b, off := f.ext }

/-- `ATOM` and `RED` (R175): EXT32 is the operation and the offset. -/
def Atm.x (op : Nat) (h : Hdr) (o : Atm) : XForm :=
  xf op h (memMod o.space o.ty .x1 o.sb o.ix o.var.code) o.d o.a o.b o.c
    (BitVec.ofNat 32 (o.op.code + 256 * o.off.toNat)) none

def XForm.atm (f : XForm) : Option Atm :=
  let m := f.mod.toNat
  (Var.ofCode (m / 1024 % 4)).map fun v =>
    { space := Space.ofCode (m % 4), ty := Ty.ofCode (m / 4 % 16), sb := bit m 8, ix := bit m 9, var := v,
      op := AOp.ofCode (f.ext.toNat % 8), d := f.d, a := f.a, b := f.b, c := f.c,
      off := BitVec.ofNat 24 (f.ext.toNat / 256) }

/-- `ACP` (R253): B[0] is the direction. -/
def Acp.x (h : Hdr) (o : Acp) : XForm :=
  xf 0x108 h (memMod o.space o.ty o.count o.sb false o.tag.toNat) o.d o.a (BitVec.ofNat 8 o.out.toNat) o.c o.off none

def XForm.acp (f : XForm) : Option Acp :=
  let m := f.mod.toNat
  (Count.ofCode (m / 64 % 4)).map fun n =>
    { space := Space.ofCode (m % 4), ty := Ty.ofCode (m / 4 % 16), count := n, sb := bit m 8,
      tag := BitVec.ofNat 2 (m / 1024), out := bit f.b.toNat 0, d := f.d, a := f.a, c := f.c, off := f.ext }

/-- The byte-count barriers (R176): SPACE in [7:6], SB in [8]. -/
def Barb.x (op : Nat) (h : Hdr) (o : Barb) : XForm :=
  xf op h (64 * o.space.code + 256 * o.sb.toNat) 0 o.a o.b 0 o.off none

def XForm.barb (f : XForm) : Barb :=
  let m := f.mod.toNat
  { space := Space.ofCode (m / 64 % 4), sb := bit m 8, a := f.a, b := f.b, off := f.ext }

/-- The counted layout (R280): p in [3:0], BOBJ in [19:4]; TYPE in MOD12[9:6], MCAST in [10], OPX in [11]. -/
def Tx.x (op : Nat) (h : Hdr) (o : Tx) (opx : Bool) (p : Nat) : XForm :=
  xf op h (64 * o.ty.code + 1024 * o.mc.toNat + 2048 * opx.toNat) o.d o.a o.b o.c
    (BitVec.ofNat 32 (p + 16 * o.bobj.toNat)) none

def XForm.tx (f : XForm) : Tx :=
  let m := f.mod.toNat
  { ty := Ty.ofCode (m / 64 % 16), mc := bit m 10, d := f.d, a := f.a, b := f.b, c := f.c,
    bobj := BitVec.ofNat 16 (f.ext.toNat / 16) }

/-- `MX.STRM` (R291). -/
def Strm.x (h : Hdr) (o : Strm) : XForm :=
  xf 0x192 h (o.alg.toNat + 8 * o.lst.toNat + 16 * o.acc.toNat) o.d o.a o.b o.c (BitVec.ofNat 32 o.m1.toNat) none

def XForm.strm (f : XForm) : Strm :=
  let m := f.mod.toNat
  { alg := BitVec.ofNat 3 m, lst := bit m 3, acc := bit m 4, d := f.d, a := f.a, b := f.b, c := f.c,
    m1 := BitVec.ofNat 10 f.ext.toNat }

/-- A B form with two register fields and F2 (R167). -/
def bf (maj : Nat) (h : HdrB) (d a : BitVec 7) (f2 : Nat) (lit : Option Dword) : BForm :=
  { maj := BitVec.ofNat 6 maj, h := h, imm := BitVec.ofNat 16 (d.toNat + 128 * a.toNat + 16384 * f2), lit := lit }

/-- A B form with one 16-bit field (R168). -/
def bi16 (maj : Nat) (h : HdrB) (imm : BitVec 16) : BForm :=
  { maj := BitVec.ofNat 6 maj, h := h, imm := imm, lit := none }

def BForm.d (f : BForm) : BitVec 7 := BitVec.ofNat 7 f.imm.toNat
def BForm.a (f : BForm) : BitVec 7 := BitVec.ofNat 7 (f.imm.toNat / 128)
def BForm.f2 (f : BForm) : Nat := f.imm.toNat / 16384 % 4

/-! ### The opcode maps -/

/-- The form of an instruction: the OP9 map of R180 and the MAJ6 map of R179. Events and rejected words have none. -/
def Instr.form : Instr → Option Form
  | .nop h => some (.x (xf 0x000 h 0 0 0 0 0 0 none))
  | .bra h k off => some (.x (xf 0x001 h k.toNat 0 0 0 0 off none))
  | .brl h k off => some (.x (xf 0x002 h k.toNat 0 0 0 0 off none))
  | .brx h k a s => some (.x (xf 0x003 h k.toNat 0 a (BitVec.ofNat 8 s.toNat) 0 0 none))
  | .brz h k a off => some (.x (xf 0x004 h k.toNat 0 a 0 0 off none))
  | .brnz h k a off => some (.x (xf 0x005 h k.toNat 0 a 0 0 off none))
  | .join h k => some (.x (xf 0x006 h k.toNat 0 0 0 0 0 none))
  | .call h k off => some (.x (xf 0x007 h k.toNat 0 0 0 0 off none))
  | .pop h => some (.x (xf 0x008 h 0 0 0 0 0 0 none))
  | .ret h => some (.x (xf 0x008 h 1 0 0 0 0 0 none))
  | .rett h => some (.x (xf 0x008 h 2 0 0 0 0 0 none))
  | .exit h => some (.x (xf 0x009 h 0 0 0 0 0 0 none))
  | .yield h => some (.x (xf 0x00A h 0 0 0 0 0 0 none))
  | .monwait h d a => some (.x (xf 0x00B h 0 d a 0 0 0 none))
  | .setp h o => some (.x (o.x h))
  | .plop h d a b c t => some (.x (xf 0x00D h 0 d a b c (BitVec.ofNat 32 t.toNat) none))
  | .psel h leg d a b => some (.x (xf 0x00E h (2048 * leg.toNat) d a b 0 0 none))
  | .voteAnd h leg d a => some (.x (xf 0x010 h (0 + 2048 * leg.toNat) d a 0 0 0 none))
  | .voteOr h leg d a => some (.x (xf 0x010 h (1 + 2048 * leg.toNat) d a 0 0 0 none))
  | .voteEq h leg d a => some (.x (xf 0x010 h (2 + 2048 * leg.toNat) d a 0 0 0 none))
  | .voteMask h leg d a => some (.x (xf 0x010 h (3 + 2048 * leg.toNat) d a 0 0 0 none))
  | .shflIdx h o => some (.x (o.x 0x014 h))
  | .shflUp h o => some (.x (o.x 0x015 h))
  | .shflDn h o => some (.x (o.x 0x016 h))
  | .shflXor h o => some (.x (o.x 0x017 h))
  | .ltos h d a => some (.x (xf 0x018 h 0 d a 0 0 0 none))
  | .stol h d a b => some (.x (xf 0x019 h 0 d a b 0 0 none))
  | .sadd h o => some (.x (o.x 0x040 h))
  | .ssub h o => some (.x (o.x 0x041 h))
  | .smul h o => some (.x (o.x 0x042 h))
  | .sand h o => some (.x (o.x 0x043 h))
  | .sor h o => some (.x (o.x 0x044 h))
  | .sxor h o => some (.x (o.x 0x045 h))
  | .sshl h o => some (.x (o.x 0x046 h))
  | .sshr h o => some (.x (o.x 0x047 h))
  | .ssra h o => some (.x (o.x 0x048 h))
  | .smov h o => some (.x (o.x 0x049 h))
  | .smovi h o => some (.x (o.x 0x04A h))
  | .scmp h o => some (.x (o.x 0x04B h))
  | .iadd h o => some (.x (o.x 0x080 h))
  | .isub h o => some (.x (o.x 0x081 h))
  | .imul h o => some (.x (o.x 0x082 h))
  | .imulh h o => some (.x (o.x 0x083 h))
  | .imulq h o => some (.x (o.x 0x084 h))
  | .imad h o => some (.x (o.x 0x085 h))
  | .imin h o => some (.x (o.x 0x086 h))
  | .imax h o => some (.x (o.x 0x087 h))
  | .iabs h o => some (.x (o.x 0x088 h))
  | .ineg h o => some (.x (o.x 0x089 h))
  | .and h o => some (.x (o.x 0x08A h))
  | .or h o => some (.x (o.x 0x08B h))
  | .xor h o => some (.x (o.x 0x08C h))
  | .not h o => some (.x (o.x 0x08D h))
  | .shl h o => some (.x (o.x 0x08E h))
  | .shr h o => some (.x (o.x 0x08F h))
  | .sra h o => some (.x (o.x 0x090 h))
  | .bfx h o => some (.x (o.x 0x091 h))
  | .bfi h o => some (.x (o.x 0x092 h))
  | .popc h o => some (.x (o.x 0x093 h))
  | .clz h o => some (.x (o.x 0x094 h))
  | .sel h o => some (.x (o.x 0x095 h))
  | .mov h o => some (.x (o.x 0x096 h))
  | .movi h o => some (.x (o.x 0x097 h))
  | .dp4 h o => some (.x (o.x 0x098 h))
  | .dp2 h o => some (.x (o.x 0x099 h))
  | .rshr h o => some (.x (o.x 0x09A h))
  | .clamp h o => some (.x (o.x 0x09B h))
  | .fadd h o => some (.x (o.x 0x0C0 h))
  | .fsub h o => some (.x (o.x 0x0C1 h))
  | .fmul h o => some (.x (o.x 0x0C2 h))
  | .ffma h o => some (.x (o.x 0x0C3 h))
  | .fmin h o => some (.x (o.x 0x0C4 h))
  | .fmax h o => some (.x (o.x 0x0C5 h))
  | .fabs h o => some (.x (o.x 0x0C6 h))
  | .fneg h o => some (.x (o.x 0x0C7 h))
  | .frcp h o => some (.x (o.x 0x0C8 h))
  | .frsq h o => some (.x (o.x 0x0C9 h))
  | .fsqrt h o => some (.x (o.x 0x0CA h))
  | .fexp2 h o => some (.x (o.x 0x0CB h))
  | .flog2 h o => some (.x (o.x 0x0CC h))
  | .fsin h o => some (.x (o.x 0x0CD h))
  | .fcos h o => some (.x (o.x 0x0CE h))
  | .cvt h o => some (.x (o.x 0x0D0 h))
  | .pack h o => some (.x (o.x 0x0D1 h))
  | .unpk h o => some (.x (o.x 0x0D2 h))
  | .qscale h o => some (.x (o.x 0x0D3 h))
  | .qcvt h o => some (.x (o.x 0x0D4 h))
  | .bpt h o => some (.x (o.x 0x0D5 h))
  | .redux h o => some (.x (o.x 0x0D6 h))
  | .algMul h o => some (.x (o.x 0x0D8 h))
  | .algConj h o => some (.x (o.x 0x0D9 h))
  | .algNorm h o => some (.x (o.x 0x0DA h))
  | .ld h o => some (.x (o.xd 0x100 h))
  | .st h o => some (.x (o.xc 0x101 h))
  | .ldAcq h o => some (.x (o.xd 0x102 h))
  | .stRel h o => some (.x (o.xc 0x103 h))
  | .atom h o => some (.x (o.x 0x104 h))
  | .red h o => some (.x (o.x 0x105 h))
  | .pfh h o => some (.x (o.xd 0x106 h))
  | .pfw h o => some (.x (o.xd 0x107 h))
  | .acp h o => some (.x (o.x h))
  | .acwait h tag n => some (.x (xf 0x109 h (1024 * tag.toNat) 0 0 0 0 (BitVec.ofNat 32 n.toNat) none))
  | .fenceAcq h => some (.x (xf 0x10A h 0 0 0 0 0 0 none))
  | .fenceRel h => some (.x (xf 0x10B h 0 0 0 0 0 0 none))
  | .fenceAr h => some (.x (xf 0x10C h 0 0 0 0 0 0 none))
  | .barSync h n => some (.x (xf 0x140 h n.toNat 0 0 0 0 0 none))
  | .barArrive h n => some (.x (xf 0x141 h n.toNat 0 0 0 0 0 none))
  | .barWait h n => some (.x (xf 0x142 h n.toNat 0 0 0 0 0 none))
  | .barJoin h n => some (.x (xf 0x143 h n.toNat 0 0 0 0 0 none))
  | .barLeave h n => some (.x (xf 0x144 h n.toNat 0 0 0 0 0 none))
  | .barInitb h o => some (.x (o.x 0x145 h))
  | .barArriveb h o => some (.x (o.x 0x146 h))
  | .barWaitb h o => some (.x (o.x 0x147 h))
  | .qpush h q a => some (.x (xf 0x148 h q.toNat 0 a 0 0 0 none))
  | .qpop h q d => some (.x (xf 0x149 h q.toNat d 0 0 0 0 none))
  | .flagSet h f => some (.x (xf 0x14A h f.toNat 0 0 0 0 0 none))
  | .flagClr h f => some (.x (xf 0x14B h f.toNat 0 0 0 0 0 none))
  | .flagWait h f => some (.x (xf 0x14C h f.toNat 0 0 0 0 0 none))
  | .cld h ty acq d a off => some (.x (xf 0x180 h (64 * ty.code + 2048 * acq.toNat) d a 0 0 off none))
  | .cst h ty rel a c off => some (.x (xf 0x181 h (64 * ty.code + 2048 * rel.toNat) 0 a 0 c off none))
  | .cbr h cmp ty a b off => some (.x (xf 0x182 h (cmp.toNat + 64 * ty.code) 0 a b 0 off none))
  | .wfi h => some (.x (xf 0x183 h 0 0 0 0 0 0 none))
  | .shpSet h d a f => some (.x (xf 0x184 h 0 d a 0 0 (BitVec.ofNat 32 f.toNat) none))
  | .txLd h o => some (.x (o.x 0x188 h false 0))
  | .txLdq h o p => some (.x (o.x 0x189 h false p.toNat))
  | .txSt h o => some (.x (o.x 0x18A h false 0))
  | .txStPeer h o => some (.x (o.x 0x18A h true 0))
  | .txFence h => some (.x (xf 0x18B h 0 0 0 0 0 0 none))
  | .mxLds h m a b c => some (.x (xf 0x190 h (32 * m.toNat) 0 a b c 0 none))
  | .mxSwap h c => some (.x (xf 0x191 h 0 0 0 0 c 0 none))
  | .mxStrm h o => some (.x (o.x h))
  | .mxDrn h o => some (.x (o.x 0x193 h false 0))
  | .mxZero h d c => some (.x (xf 0x194 h 0 d 0 0 c 0 none))
  | .mxWait h c => some (.x (xf 0x195 h 0 0 0 0 c 0 none))
  | .algLdt h d a => some (.x (xf 0x198 h 0 d a 0 0 0 none))
  | .trap h code => some (.x (xf 0x1C0 h 0 0 0 0 0 code none))
  | .brk h code => some (.x (xf 0x1C1 h 0 0 0 0 0 code none))
  | .srd h reg s d => some (.x (xf 0x1C2 h reg.toNat d 0 (BitVec.ofNat 8 s.toNat) 0 0 none))
  | .swr h reg a => some (.x (xf 0x1C3 h reg.toNat 0 a 0 0 0 none))
  | .safept h k => some (.x (xf 0x1C4 h k.toNat 0 0 0 0 0 none))
  | .xfer h v => some (.x (xf 0x1C5 h v.toNat 0 0 0 0 0 none))
  | .progress h a => some (.x (xf 0x1C6 h 0 0 a 0 0 0 none))
  | .odot4 h nat d a b c => some (.x (xf 0x1F0 h nat.toNat d a b c 0 none))
  | .omma8 h na nb d a b => some (.x (xf 0x1F1 h (na.toNat + 2 * nb.toNat) d a b 0 0 none))
  | .oldx h n1 d a off => some (.x (xf 0x1F2 h n1.toNat d a 0 0 off none))
  | .oshfw h m d a b => some (.x (xf 0x1F3 h m.code d a b 0 0 none))
  | .nopShort h => some (.b (bi16 0x01 h 0))
  | .braShort h off => some (.b (bi16 0x02 h off))
  | .brlShort h off => some (.b (bi16 0x03 h off))
  | .callShort h off => some (.b (bi16 0x04 h off))
  | .popShort h => some (.b (bf 0x05 h 0 0 0 none))
  | .retShort h => some (.b (bf 0x05 h 0 0 1 none))
  | .rettShort h => some (.b (bf 0x05 h 0 0 2 none))
  | .exitShort h => some (.b (bi16 0x06 h 0))
  | .yieldShort h => some (.b (bi16 0x07 h 0))
  | .joinShort h k => some (.b (bi16 0x08 h (BitVec.ofNat 16 k.toNat)))
  | .safeptShort h k => some (.b (bi16 0x09 h (BitVec.ofNat 16 k.toNat)))
  | .movShort h d a => some (.b (bf 0x0A h d a 0 none))
  | .notShort h d a => some (.b (bf 0x0B h d a 0 none))
  | .inegShort h d a => some (.b (bf 0x0C h d a 0 none))
  | .iabsShort h d a => some (.b (bf 0x0D h d a 0 none))
  | .fnegShort h d a => some (.b (bf 0x0E h d a 0 none))
  | .fabsShort h d a => some (.b (bf 0x0F h d a 0 none))
  | .popcShort h d a => some (.b (bf 0x10 h d a 0 none))
  | .clzShort h d a => some (.b (bf 0x11 h d a 0 none))
  | .smovShort h d a => some (.b (bf 0x12 h d a 0 none))
  | .srdShort h d a => some (.b (bf 0x13 h d a 0 none))
  | .ldShort h sp d a => some (.b (bf 0x14 h d a sp.code none))
  | .stShort h sp d a => some (.b (bf 0x15 h d a sp.code none))
  | .moviLit h w d lit => some (.b (bf 0x16 h d 0 w.toNat (some lit)))
  | .smoviLit h w d lit => some (.b (bf 0x17 h d 0 w.toNat (some lit)))
  | .iaddLit h d a lit => some (.b (bf 0x18 h d a 0 (some lit)))
  | _ => none

/-- The control group of an X form, OP9 0x000 to 0x03F. -/
def XForm.control (f : XForm) : Option Instr :=
  match f.op9.toNat with
  | 0x000 => some (.nop f.h)
  | 0x001 => some (.bra f.h f.mod f.ext)
  | 0x002 => some (.brl f.h f.mod f.ext)
  | 0x003 => some (.brx f.h f.mod f.a (bit f.b.toNat 0))
  | 0x004 => some (.brz f.h f.mod f.a f.ext)
  | 0x005 => some (.brnz f.h f.mod f.a f.ext)
  | 0x006 => some (.join f.h f.mod)
  | 0x007 => some (.call f.h f.mod f.ext)
  | 0x008 => match f.mod.toNat with
      | 0 => some (.pop f.h)
      | 1 => some (.ret f.h)
      | 2 => some (.rett f.h)
      | _ => none
  | 0x009 => some (.exit f.h)
  | 0x00A => some (.yield f.h)
  | 0x00B => some (.monwait f.h f.d f.a)
  | 0x00C => f.setp.map (.setp f.h)
  | 0x00D => some (.plop f.h f.d f.a f.b f.c (BitVec.ofNat 8 f.ext.toNat))
  | 0x00E => some (.psel f.h (bit f.mod.toNat 11) f.d f.a f.b)
  | 0x010 => match f.mod.toNat % 4 with
      | 0 => some (.voteAnd f.h (bit f.mod.toNat 11) f.d f.a)
      | 1 => some (.voteOr f.h (bit f.mod.toNat 11) f.d f.a)
      | 2 => some (.voteEq f.h (bit f.mod.toNat 11) f.d f.a)
      | _ => some (.voteMask f.h (bit f.mod.toNat 11) f.d f.a)
  | 0x014 => some (.shflIdx f.h f.shfl)
  | 0x015 => some (.shflUp f.h f.shfl)
  | 0x016 => some (.shflDn f.h f.shfl)
  | 0x017 => some (.shflXor f.h f.shfl)
  | 0x018 => some (.ltos f.h f.d f.a)
  | 0x019 => some (.stol f.h f.d f.a f.b)
  | _ => none

/-- The scalar group, OP9 0x040 to 0x07F. -/
def XForm.scalar (f : XForm) : Option Instr :=
  match f.op9.toNat with
  | 0x040 => f.alu.map (.sadd f.h)
  | 0x041 => f.alu.map (.ssub f.h)
  | 0x042 => f.alu.map (.smul f.h)
  | 0x043 => f.alu.map (.sand f.h)
  | 0x044 => f.alu.map (.sor f.h)
  | 0x045 => f.alu.map (.sxor f.h)
  | 0x046 => f.alu.map (.sshl f.h)
  | 0x047 => f.alu.map (.sshr f.h)
  | 0x048 => f.alu.map (.ssra f.h)
  | 0x049 => f.alu.map (.smov f.h)
  | 0x04A => f.alu.map (.smovi f.h)
  | 0x04B => f.alu.map (.scmp f.h)
  | _ => none

/-- The integer and bit instructions, OP9 0x080 to 0x0BF. -/
def XForm.integer (f : XForm) : Option Instr :=
  match f.op9.toNat with
  | 0x080 => f.alu.map (.iadd f.h)
  | 0x081 => f.alu.map (.isub f.h)
  | 0x082 => f.alu.map (.imul f.h)
  | 0x083 => f.alu.map (.imulh f.h)
  | 0x084 => f.alu.map (.imulq f.h)
  | 0x085 => f.alu.map (.imad f.h)
  | 0x086 => f.alu.map (.imin f.h)
  | 0x087 => f.alu.map (.imax f.h)
  | 0x088 => f.alu.map (.iabs f.h)
  | 0x089 => f.alu.map (.ineg f.h)
  | 0x08A => f.alu.map (.and f.h)
  | 0x08B => f.alu.map (.or f.h)
  | 0x08C => f.alu.map (.xor f.h)
  | 0x08D => f.alu.map (.not f.h)
  | 0x08E => f.alu.map (.shl f.h)
  | 0x08F => f.alu.map (.shr f.h)
  | 0x090 => f.alu.map (.sra f.h)
  | 0x091 => f.alu.map (.bfx f.h)
  | 0x092 => f.alu.map (.bfi f.h)
  | 0x093 => f.alu.map (.popc f.h)
  | 0x094 => f.alu.map (.clz f.h)
  | 0x095 => f.alu.map (.sel f.h)
  | 0x096 => f.alu.map (.mov f.h)
  | 0x097 => f.alu.map (.movi f.h)
  | 0x098 => f.alu.map (.dp4 f.h)
  | 0x099 => f.alu.map (.dp2 f.h)
  | 0x09A => f.alu.map (.rshr f.h)
  | 0x09B => f.alu.map (.clamp f.h)
  | _ => none

/-- The floating-point, conversion, reduction and algebra instructions, OP9 0x0C0 to 0x0FF. -/
def XForm.float (f : XForm) : Option Instr :=
  match f.op9.toNat with
  | 0x0C0 => f.alu.map (.fadd f.h)
  | 0x0C1 => f.alu.map (.fsub f.h)
  | 0x0C2 => f.alu.map (.fmul f.h)
  | 0x0C3 => f.alu.map (.ffma f.h)
  | 0x0C4 => f.alu.map (.fmin f.h)
  | 0x0C5 => f.alu.map (.fmax f.h)
  | 0x0C6 => f.alu.map (.fabs f.h)
  | 0x0C7 => f.alu.map (.fneg f.h)
  | 0x0C8 => f.alu.map (.frcp f.h)
  | 0x0C9 => f.alu.map (.frsq f.h)
  | 0x0CA => f.alu.map (.fsqrt f.h)
  | 0x0CB => f.alu.map (.fexp2 f.h)
  | 0x0CC => f.alu.map (.flog2 f.h)
  | 0x0CD => f.alu.map (.fsin f.h)
  | 0x0CE => f.alu.map (.fcos f.h)
  | 0x0D0 => f.alu.map (.cvt f.h)
  | 0x0D1 => f.alu.map (.pack f.h)
  | 0x0D2 => f.alu.map (.unpk f.h)
  | 0x0D3 => f.alu.map (.qscale f.h)
  | 0x0D4 => f.alu.map (.qcvt f.h)
  | 0x0D5 => f.alu.map (.bpt f.h)
  | 0x0D6 => f.alu.map (.redux f.h)
  | 0x0D8 => f.alu.map (.algMul f.h)
  | 0x0D9 => f.alu.map (.algConj f.h)
  | 0x0DA => f.alu.map (.algNorm f.h)
  | _ => none

/-- The memory group, OP9 0x100 to 0x13F. -/
def XForm.memory (f : XForm) : Option Instr :=
  match f.op9.toNat with
  | 0x100 => (f.mem f.d).map (.ld f.h)
  | 0x101 => (f.mem f.c).map (.st f.h)
  | 0x102 => (f.mem f.d).map (.ldAcq f.h)
  | 0x103 => (f.mem f.c).map (.stRel f.h)
  | 0x104 => f.atm.map (.atom f.h)
  | 0x105 => f.atm.map (.red f.h)
  | 0x106 => (f.mem f.d).map (.pfh f.h)
  | 0x107 => (f.mem f.d).map (.pfw f.h)
  | 0x108 => f.acp.map (.acp f.h)
  | 0x109 => some (.acwait f.h (BitVec.ofNat 2 (f.mod.toNat / 1024)) (BitVec.ofNat 6 f.ext.toNat))
  | 0x10A => some (.fenceAcq f.h)
  | 0x10B => some (.fenceRel f.h)
  | 0x10C => some (.fenceAr f.h)
  | _ => none

/-- The synchronisation group, OP9 0x140 to 0x17F. -/
def XForm.synch (f : XForm) : Option Instr :=
  let obj : BitVec 6 := BitVec.ofNat 6 f.mod.toNat
  match f.op9.toNat with
  | 0x140 => some (.barSync f.h obj)
  | 0x141 => some (.barArrive f.h obj)
  | 0x142 => some (.barWait f.h obj)
  | 0x143 => some (.barJoin f.h obj)
  | 0x144 => some (.barLeave f.h obj)
  | 0x145 => some (.barInitb f.h f.barb)
  | 0x146 => some (.barArriveb f.h f.barb)
  | 0x147 => some (.barWaitb f.h f.barb)
  | 0x148 => some (.qpush f.h obj f.a)
  | 0x149 => some (.qpop f.h obj f.d)
  | 0x14A => some (.flagSet f.h obj)
  | 0x14B => some (.flagClr f.h obj)
  | 0x14C => some (.flagWait f.h obj)
  | _ => none

/-- The engine group, OP9 0x180 to 0x1BF. -/
def XForm.engine (f : XForm) : Option Instr :=
  let ty := Ty.ofCode (f.mod.toNat / 64 % 16)
  match f.op9.toNat with
  | 0x180 => some (.cld f.h ty (bit f.mod.toNat 11) f.d f.a f.ext)
  | 0x181 => some (.cst f.h ty (bit f.mod.toNat 11) f.a f.c f.ext)
  | 0x182 => some (.cbr f.h (BitVec.ofNat 3 f.mod.toNat) ty f.a f.b f.ext)
  | 0x183 => some (.wfi f.h)
  | 0x184 => some (.shpSet f.h f.d f.a (BitVec.ofNat 3 f.ext.toNat))
  | 0x188 => some (.txLd f.h f.tx)
  | 0x189 => some (.txLdq f.h f.tx (BitVec.ofNat 4 f.ext.toNat))
  | 0x18A => if bit f.mod.toNat 11 then some (.txStPeer f.h f.tx) else some (.txSt f.h f.tx)
  | 0x18B => some (.txFence f.h)
  | 0x190 => some (.mxLds f.h (bit f.mod.toNat 5) f.a f.b f.c)
  | 0x191 => some (.mxSwap f.h f.c)
  | 0x192 => some (.mxStrm f.h f.strm)
  | 0x193 => some (.mxDrn f.h f.tx)
  | 0x194 => some (.mxZero f.h f.d f.c)
  | 0x195 => some (.mxWait f.h f.c)
  | 0x198 => some (.algLdt f.h f.d f.a)
  | _ => none

/-- The system group, OP9 0x1C0 to 0x1FF. -/
def XForm.system (f : XForm) : Option Instr :=
  match f.op9.toNat with
  | 0x1C0 => some (.trap f.h f.ext)
  | 0x1C1 => some (.brk f.h f.ext)
  | 0x1C2 => some (.srd f.h f.mod (bit f.b.toNat 0) f.d)
  | 0x1C3 => some (.swr f.h f.mod f.a)
  | 0x1C4 => some (.safept f.h f.mod)
  | 0x1C5 => some (.xfer f.h (BitVec.ofNat 3 f.mod.toNat))
  | 0x1C6 => some (.progress f.h f.a)
  | 0x1F0 => some (.odot4 f.h (bit f.mod.toNat 0) f.d f.a f.b f.c)
  | 0x1F1 => some (.omma8 f.h (bit f.mod.toNat 0) (bit f.mod.toNat 1) f.d f.a f.b)
  | 0x1F2 => some (.oldx f.h (BitVec.ofNat 3 f.mod.toNat) f.d f.a f.ext)
  | 0x1F3 => some (.oshfw f.h (ShMode.ofCode (f.mod.toNat % 4)) f.d f.a f.b)
  | _ => none

/-- The OP9 map (R180): the top three bits select the group. -/
def XForm.instr (f : XForm) : Option Instr :=
  match f.op9.toNat / 64 with
  | 0 => f.control
  | 1 => f.scalar
  | 2 => f.integer
  | 3 => f.float
  | 4 => f.memory
  | 5 => f.synch
  | 6 => f.engine
  | _ => f.system

/-- The MAJ6 map of the forms without a literal (R179). -/
def BForm.short (f : BForm) : Option Instr :=
  match f.maj.toNat with
  | 0x01 => some (.nopShort f.h)
  | 0x02 => some (.braShort f.h f.imm)
  | 0x03 => some (.brlShort f.h f.imm)
  | 0x04 => some (.callShort f.h f.imm)
  | 0x05 => match f.f2 with
      | 0 => some (.popShort f.h)
      | 1 => some (.retShort f.h)
      | 2 => some (.rettShort f.h)
      | _ => none
  | 0x06 => some (.exitShort f.h)
  | 0x07 => some (.yieldShort f.h)
  | 0x08 => some (.joinShort f.h (BitVec.ofNat 12 f.imm.toNat))
  | 0x09 => some (.safeptShort f.h (BitVec.ofNat 12 f.imm.toNat))
  | 0x0A => some (.movShort f.h f.d f.a)
  | 0x0B => some (.notShort f.h f.d f.a)
  | 0x0C => some (.inegShort f.h f.d f.a)
  | 0x0D => some (.iabsShort f.h f.d f.a)
  | 0x0E => some (.fnegShort f.h f.d f.a)
  | 0x0F => some (.fabsShort f.h f.d f.a)
  | 0x10 => some (.popcShort f.h f.d f.a)
  | 0x11 => some (.clzShort f.h f.d f.a)
  | 0x12 => some (.smovShort f.h f.d f.a)
  | 0x13 => some (.srdShort f.h f.d f.a)
  | 0x14 => some (.ldShort f.h (Space.ofCode f.f2) f.d f.a)
  | 0x15 => some (.stShort f.h (Space.ofCode f.f2) f.d f.a)
  | _ => none

/-- The MAJ6 map of the forms marked L (R179): they exist only with a literal. -/
def BForm.literal (f : BForm) (lit : Dword) : Option Instr :=
  match f.maj.toNat with
  | 0x16 => some (.moviLit f.h (decide (f.f2 = 1)) f.d lit)
  | 0x17 => some (.smoviLit f.h (decide (f.f2 = 1)) f.d lit)
  | 0x18 => some (.iaddLit f.h f.d f.a lit)
  | _ => none

/-- The candidate that a form's opcode selects. -/
def Form.instr : Form → Option Instr
  | .x f => f.instr
  | .b f => match f.lit with
      | none => f.short
      | some l => f.literal l

/-! ### Decoding and encoding -/

/-- Why the decoder refuses words (R181). -/
inductive Reject where
  /-- The number of words is not the one LEN fixes. -/
  | length
  /-- An unassigned MAJ6 or OP9 value, or a reserved code. -/
  | unassigned
  /-- A non-zero reserved bit, or a literal that the form does not take. -/
  | reservedBits
  /-- A type, rounding, register class or operand that the entry does not accept. -/
  | operands
  deriving DecidableEq, Repr

/-- What the decoder answers. -/
inductive Decoded where
  | ok (i : Instr)
  | reject (why : Reject)
  deriving DecidableEq, Repr

/-- The instruction that a word list stands for, or the reason why it is none (R164 to R181). -/
def decode (ws : List Word) : Decoded :=
  match formOf ws with
  | none => .reject .length
  | some f =>
    match f.instr with
    | none => .reject .unassigned
    | some i =>
      if i.form = some f then (if i.wf then .ok i else .reject .operands) else .reject .reservedBits

/-- The words of an instruction, lowest address first; events have none. -/
def encode : Instr → List Word
  | .unassignedOpcode ws => ws
  | i => match i.form with
    | some f => f.words
    | none => []

/-- A 32-bit word from four bytes, lowest address first (R4). -/
def wordOfBytes (b0 b1 b2 b3 : Byte) : Word :=
  BitVec.ofNat 32 (b0.toNat + 256 * b1.toNat + 65536 * b2.toNat + 16777216 * b3.toNat)

/-- The four bytes of a word, lowest address first (R4). -/
def bytesOfWord (w : Word) : List Byte :=
  [BitVec.ofNat 8 w.toNat, BitVec.ofNat 8 (w.toNat / 256), BitVec.ofNat 8 (w.toNat / 65536),
   BitVec.ofNat 8 (w.toNat / 16777216)]

/-- Words of a byte list, four bytes each; bytes short of a word are dropped. -/
def wordsOfBytes : List Byte → List Word
  | b0 :: b1 :: b2 :: b3 :: r => wordOfBytes b0 b1 b2 b3 :: wordsOfBytes r
  | _ => []

/-- The instruction that begins a byte list, and the bytes behind it: LEN of the first word says how many words it
takes (R164). -/
def decodeBytes (bs : List Byte) : Decoded × List Byte :=
  match wordsOfBytes (bs.take 4) with
  | [w] => (decode (wordsOfBytes (bs.take (4 * wordCount w))), bs.drop (4 * wordCount w))
  | _ => (.reject .length, [])

/-- Word number `i` of an instruction whose bits are `w`. -/
def tableWord (w i : Nat) : Word := BitVec.ofNat 32 (w / 2 ^ (32 * i))

/-- The words of an instruction whose bits are `w`, the table giving it `nbits` bits; every bit above is zero. -/
def tableWords (nbits w : Nat) : List Word :=
  let v := w % 2 ^ nbits
  (List.range (wordCount (tableWord v 0))).map (tableWord v)

/-- The bytes of that instruction as the hardware stores them (R4, R164). -/
def tableBytes (nbits w : Nat) : List Byte := (tableWords nbits w).flatMap bytesOfWord

/-- The instruction that the decoder reads from an instruction whose bits are `w`, numbered as the opcode table
numbers them. -/
def decodeTableWord (nbits w : Nat) : Option Instr :=
  match (decodeBytes (tableBytes nbits w)).1 with
  | .ok i => some i
  | .reject _ => none

end Sys2Proof
end

