-- ==== Sys2Proof/Config.lean ====
section
/-! DEFINITION. What the spec leaves open, as constants without a body: the order in which the device's units move,
values the spec gives no rule for, and the cryptographic functions it names by their standards. -/

namespace Sys2Proof

/-- Who moves in a step: an issue slot or a control core issues, a core's or a control core's clock passes a cycle,
or one event of the opcode table comes about. -/
inductive Turn where
  | issue (core slot : Nat)
  | control (cluster : Nat)
  | clock (core : Nat)
  | clockControl (cluster : Nat)
  | event (i : Instr)
  deriving DecidableEq, Repr, Inhabited

/-- Which unit moves after each step: nothing constrains it, so every interleaving of the device's units and every
input from outside is covered (log entry 1). -/
opaque Config.schedule : Nat → Turn

/-- A 64-bit value that the spec leaves open, fresh at every use of the counter (log entry 2). -/
opaque Config.freeBits : Nat → BitVec 64

/-- A choice between two outcomes that the spec both permits, fresh at every use (log entry 2). -/
opaque Config.freeBool : Nat → Bool

/-- The result of a special function within the bound of R230 (log entry 7): the function's OP9, the type and the
operand's bits; equal operands give equal results. -/
opaque Config.special : Nat → Ty → BitVec 64 → BitVec 64

/-- Bit errors that a read of a stored block meets (R142): the block and the state's counter (log entry 9). -/
opaque Config.bitErrors : Nat → Nat → Nat

/-- SHA-256 of a byte list (R398), by its standard (log entry 8). -/
opaque Config.sha256 : List Byte → BitVec 256

/-- ECDSA P-256 verification of a signature under a public key over a digest (R398), by its standard (log entry 8). -/
opaque Config.ecdsaVerify : List Byte → List Byte → BitVec 256 → Bool

/-- ECDSA P-256 signature with the provisioned attestation key over a digest (R401; log entry 8). -/
opaque Config.ecdsaSign : BitVec 256 → BitVec 512

/-- The x coordinate of the ECDH secret of a public key and the device's key-agreement key (R400; log entry 8). -/
opaque Config.ecdh : List Byte → List Byte

/-- AES key unwrap of RFC 3394 (R400): `none` when it fails (log entry 8). -/
opaque Config.aesUnwrap : BitVec 256 → List Byte → Option (BitVec 512)

/-- Core cycles that a row's pass loses at the scratchpad's banks where other requesters want them (R112; log entry 24): the step and the
row. -/
opaque Config.bankWait : Nat → Nat → Nat

/-- What the host writes to its own memory beside a step, at a bus address (R163; log entry 81). -/
opaque Config.hostWrite : Nat → Option (Nat × List Byte)

/-- Entries of a port's bounce ring (R388; log entry 49). -/
opaque Config.bounceCap : Nat

/-- The fuses (R397): the 128-bit device identifier. -/
opaque Config.devid : BitVec 128
/-- The fuses (R397): three root-key hashes. -/
opaque Config.rootHash : Nat → BitVec 256
/-- The fuses (R397): the revocation bit of each root hash. -/
opaque Config.rootRevoked : Nat → Bool
/-- The fuses (R397): the fused security version. -/
opaque Config.svn : BitVec 64
/-- The fuses (R397): the debug-key hash. -/
opaque Config.debugHash : BitVec 256
/-- The fuses (R397): the debug-disable fuse. -/
opaque Config.debugDisabled : Bool
/-- Copies A and B of stage 1 in flash, and copies A and B of the firmware image as the drives first hold them (R397; log entry 84). -/
opaque Config.flash : Nat → List Byte
opaque Config.nvme : Nat → List Byte
/-- The attestation key's certificate chain in DER (R401). -/
opaque Config.chain : List Byte
/-- The highest call version that the firmware serves of each major version, latest minor first (R396). -/
opaque Config.callVersions : List (BitVec 16)

end Sys2Proof
end

