-- ==== Sys2Proof/Machine/State.lean ====
section
/-! DEFINITION. The machine's state as plain data: everything the spec gives the device, unit by unit, and the state
right after reset. Sparse arrays are lists of (key, value) pairs in one canonical form: keys rising, no entry equal to
what an unlisted key reads as (the operations are in Machine/Ops.lean). -/

namespace Sys2Proof.Machine

/-- A sparse array: keys strictly rising, no value equal to the array's default. -/
abbrev Store (α : Type) := List (Nat × α)

/-- Why a step can stop with a fault. No meaning of this model raises one: every behaviour of the table has an effect
in the spec. Kept for a later repair; stopping where the device goes on would be safe. -/
inductive Fault where
  /-- Raised by `step` when the event of the turn is no event of the table (`Instr.isEvent` is false): the schedule
  named a move that the device has not. Safe: nothing is claimed of the state after it. -/
  | noSuchEvent
  deriving DecidableEq, Repr

/-- Why an instruction is refused. -/
inductive Refusal where
  /-- Raised only by an arm of `exec` that has no meaning yet. Safe: the machine stops. -/
  | notModelled (mnemonic : String)
  deriving DecidableEq, Repr

/-! ### Teams and issue slots (chapter 03) -/

/-- Register classes of the footprint, the scoreboard and the latency records. -/
inductive RCls where
  | v | s | p | h
  deriving DecidableEq, Repr, Inhabited

/-- A convergence-stack entry (R59). `words` are the lane words of a JOIN's accumulated mask or a DEFER's mask: AUX
for a team of width 32, else the lane-word record at `recAt`. `spill` is the entry's place in the stack area once it
has been spilled (R58). -/
structure StkEntry where
  kind  : BitVec 4
  k     : BitVec 12 := 0
  split : BitVec 16 := 0
  pc    : Word := 0
  aux   : Word := 0
  words : List Word := []
  recAt : Option Nat := none
  place : Option Nat := none
  spill : Bool := false
  /-- A TRAP entry pushed by a BREAK that holds the siblings: the serial number of the hold (R305). -/
  holds : Option Nat := none
  /-- Bytes of a TRAP entry's frame, and its USTEP field as last written by the core (R302). -/
  len : Nat := 0
  us : BitVec 8 := 0
  /-- A TRAP entry whose resume PC a hardware PC comparator set (R303). -/
  byCmp : Bool := false
  deriving DecidableEq, Repr, Inhabited

/-- What a sleeping sub-team waits for (R57, R61, R341). -/
inductive Wait where
  /-- A named barrier of the parcel (R259, R260). -/
  | bar (n : Nat)
  /-- A monitor on a sector, status to p[d], asleep since a cycle (R203). -/
  | mon (sector : Nat) (d : Nat) (since : Nat)
  /-- No monitor free (R70). -/
  | noMon (d : Nat) (since : Nat)
  /-- Woken from `MONWAIT`: the status write is due on restore or wake (R204). -/
  | monLost (d : Nat)
  /-- `QPUSH` on a full queue, with its ticket (R264). -/
  | qpush (q : Nat) (v : Dword) (ticket : Nat)
  /-- `QPOP` on an empty queue, with its ticket (R72, R264). -/
  | qpop (q : Nat) (d : Nat) (ticket : Nat)
  /-- `FLAG.WAIT` (R265). -/
  | flag (f : Nat)
  /-- `BAR.WAITB`: byte address of the object in a core's scratchpad, and the phase named (R263). -/
  | phase (core addr : Nat) (phase : Word)
  /-- `ACWAIT t, n` (R256). -/
  | copies (tag : Nat) (n : Nat)
  /-- A release: the write it performs when it completes (R151, R201). -/
  | release (w : List Nat) (acq : Bool) (leave : Option (List Word))
  /-- An acquire's own reads and earlier loads, after which the L1 is invalidated (R150). -/
  | acquire (reqs : List Nat)
  /-- Own writes under way: a release's write or a trap frame's (R151, R302). -/
  | writes (reqs : List Nat)
  /-- A pop waits for a fill of its entry (R200). -/
  | fill
  deriving DecidableEq, Repr, Inhabited

/-- State of a split-table entry (chapter 03, R61). -/
inductive EState where
  | ready
  | stalled (till : Nat)
  | asleep (w : Wait)
  | atJoin
  | parked
  | runahead
  | restore
  /-- Selected with an instruction whose transfer waits for registers (R323). -/
  | xfer
  deriving DecidableEq, Repr, Inhabited

/-- What a fetch at the PC has brought (R165). -/
inductive Fetched where
  | words (ws : List Word)
  /-- The fetch check failed: WINDOW, with the words read before it. -/
  | refused
  deriving DecidableEq, Repr, Inhabited

/-- A run-ahead episode (R73 to R76): what it restores, the checkpoint buffer, the invalid marks. -/
structure RunAhead where
  pc    : Word
  v     : Store Word
  p     : Store (BitVec 16)
  saved : List (RCls × Nat × Nat)
  bad   : List (RCls × Nat × Nat)
  count : Nat
  block : List Nat
  deriving DecidableEq, Repr, Inhabited

/-- A split-table entry (chapter 03). `mask` holds the lane words; the row mask is where they are not zero (R49). -/
structure Entry where
  team    : Nat := 0
  pc      : Word := 0
  version : BitVec 3 := 0
  mask    : List Word := []
  st      : EState := .ready
  stamp   : Nat := 0
  since   : Nat := 0
  stack   : List StkEntry := []
  segs    : List Nat := []
  pend    : Option (BitVec 3) := none
  /-- The TRANSFER_REQ packets (queue, index) that made it pending (R327, R328). -/
  preqs   : List (Nat × Nat) := []
  safept  : BitVec 12 := 0
  ustep   : BitVec 8 := 0
  arrived : Bool := false
  /-- The holds of breaking siblings that are not yet released (R305). -/
  held    : List Nat := []
  brkSkip : Bool := false
  debug   : Bool := false
  yielded : Bool := false
  npc     : Word := 0
  till    : Nat := 0
  /-- The active lanes of the instruction that sleeps (R203, R302). -/
  act     : List Word := []
  ibuf    : Option Fetched := none
  ra      : Option RunAhead := none
  /-- The missing-page count of a parked sub-team as a save has recorded it (R130, R384). -/
  missing : Nat := 0
  deriving DecidableEq, Repr, Inhabited

/-- A fixed-latency result not yet available (R185, R189), of one lane of a v or p register, of an s or c register (lane 0), or of
one field of a shape register (register 16·h + field): the cycle it becomes available, the value a reader sees before, the
producer's PC and the sub-team that issued it. The records of one lane stand in the order in which their results appear. -/
structure Late where
  cls   : RCls
  reg   : Nat
  lane  : Nat
  avail : Nat
  old   : Dword
  pc    : Word
  ent   : Nat := 0
  deriving DecidableEq, Repr, Inhabited

/-- A pending bit of a variable-latency result of the pipe (R186, R187): a lane register in a row, until a cycle. -/
structure Busy where
  reg  : Nat
  row  : Nat
  till : Nat
  deriving DecidableEq, Repr, Inhabited

/-- A deferred-fault or poison mark on a lane of a register (R132, R136). -/
structure Mark where
  cls   : RCls
  reg   : Nat
  lane  : Nat
  cause : BitVec 8
  va    : Dword
  pc    : Word
  deriving DecidableEq, Repr, Inhabited

/-- A 32-byte fault record of R133, of R257 or of R272, as its fields. -/
structure FRec where
  cause   : BitVec 8 := 0
  state   : BitVec 8 := 0
  part    : Nat := 0
  park    : Nat := 0
  bytes   : Word := 0
  va      : Nat := 0
  row     : Nat := 0
  version : BitVec 3 := 0
  pc      : Word := 0
  lanes   : Word := 0
  team    : Nat := 0
  /-- Engine records (R272): core-in-cluster, OP9, sequence number, bytes lost. -/
  engine  : Bool := false
  core    : Nat := 0
  op9     : Nat := 0
  eseq    : Word := 0
  lost    : Nat := 0
  deriving DecidableEq, Repr, Inhabited

/-- One lane block of an `ACP` (R253, R322): lane, the scratchpad byte in the allocation of each of its bytes, other address,
valid bytes, completion, and the version whose layout its bytes are placed in. -/
structure LaneBlk where
  lane : Nat
  offs : List Nat
  addr : Nat
  c    : Nat
  done : Bool
  version : BitVec 3
  deriving DecidableEq, Repr, Inhabited

/-- The descriptor of an `ACP` (R255, R322). `counted` when its completion has lowered the tag counter; `covered` when an
`ACWAIT` has retired it. -/
structure Copy where
  id      : Nat
  tag     : Nat
  out     : Bool
  space   : Space
  size    : Nat
  pc      : Word
  blks    : List LaneBlk
  counted : Bool := false
  failed  : Option FRec := none
  deriving DecidableEq, Repr, Inhabited

/-- A resident team (R45, R47, R192): its lane registers are keyed lane × 256 + register, p registers by lane. -/
structure Team where
  pid      : Nat := 0
  index    : Nat := 0
  w        : Nat := 0
  v        : Store Word := []
  s        : Store Word := []
  p        : Store (BitVec 16) := []
  fpctl    : Word := 0
  mode     : Word := 0
  tvec     : Word := 0
  stkbase  : Dword := 0
  stklim   : Dword := 0
  report   : Option (BitVec 16) := none
  splitCtr : BitVec 16 := 0
  late     : List Late := []
  /-- Results of the special functions, `QSCALE` and `REDUX` that the scoreboard still covers (R187). -/
  busy     : List Busy := []
  marks    : List Mark := []
  copies   : List Copy := []
  locked   : Bool := false
  ended    : Bool := false
  deriving DecidableEq, Repr, Inhabited

/-- An issue slot (R14, R51): split table, resident teams, the cycle its pipe is free, the leaf that each cycle of the
pass under way counts (R342), and the counter tree of R341. -/
structure Slot where
  entries : Store Entry := []
  teams   : Store Team := []
  free    : Nat := 0
  leaves  : List Nat := []
  ctr     : Store (BitVec 48) := []
  deriving DecidableEq, Repr, Inhabited

/-! ### Matrix engine, algebra slots (chapters 04 and 11) -/

/-- A plane of a matrix engine (R287): element (r, c) at key 64·r + c; metadata nibble (g, n) at key 64·g + n. -/
structure Plane where
  el      : Store (BitVec 16) := []
  hasMeta : Bool := false
  nib     : Store (BitVec 4) := []
  deriving DecidableEq, Repr, Inhabited

/-- A matrix engine (R287): accumulator (row, column) at key 64·row + column. -/
structure Mx where
  active : Plane := {}
  shadow : Plane := {}
  acc    : Store Word := []
  deriving DecidableEq, Repr, Inhabited

/-- An algebra slot's table (R99): the entry codes 8·i + j of 5 bits. -/
structure Algebra where
  name : Dword := 0
  k    : Nat := 1
  conj : BitVec 8 := 0
  tab  : Store (BitVec 5) := [(0, 0b01000)]
  deriving DecidableEq, Repr, Inhabited

/-- A shape register (R278). -/
structure ShapeReg where
  base  : Dword := 0
  e0m   : BitVec 16 := 0
  e1m   : BitVec 16 := 0
  e2m   : BitVec 16 := 0
  s0    : Dword := 0
  s1    : Dword := 0
  s2    : Dword := 0
  esz   : BitVec 2 := 0
  pitch : BitVec 20 := 0
  deriving DecidableEq, Repr, Inhabited

/-- An engine command (R280 to R293) with its operands as read at issue (R267). -/
inductive EngOp where
  | ld (sh : ShapeReg) (ty : Ty) (o : Nat) (bobj : Option Nat)
  | ldq (sh : ShapeReg) (scale : Dword) (planes : Nat) (o : Nat) (bobj : Option Nat)
  | st (sh : ShapeReg) (ty : Ty) (o : Nat) (bobj : Option Nat)
  | stPeer (sh : ShapeReg) (peer parcel off : Nat) (o : Nat) (bobj peerObj : Option Nat)
  | lds (withMeta : Bool) (image pitch : Nat)
  | swap
  | strm (alg : Algebra) (left acc : Bool) (row0 src pitch m : Nat)
  | drn (ty : Ty) (row0 n dst pitch : Nat) (bobj : Option Nat)
  | zero (row0 n : Nat)
  deriving DecidableEq, Repr, Inhabited

/-- An issued engine command: sequence number, mask, the launch it works for, the parcels it named, units done by (core,
unit), values read and not yet written everywhere, bytes lost and the first failure (R268, R272). -/
structure Cmd where
  lid      : Nat
  eseq     : Word
  pc       : Word
  op9      : Nat
  cores    : List Nat
  parcels  : List (Nat × Nat)
  op       : EngOp
  done     : List (Nat × Nat) := []
  vals     : Store (List Byte) := []
  lost     : Nat := 0
  failed   : Option FRec := none
  /-- The version of the control stream's code at issue (R378). -/
  version  : BitVec 3 := 0
  /-- Units that wait for an absent page, and those for which a page has been refused since, with the page and the cause (R272). -/
  waits    : List (Nat × Nat) := []
  denied   : List (Nat × Nat × BitVec 8) := []
  finished : Bool := false
  deriving DecidableEq, Repr, Inhabited

/-- What a control stream waits for. -/
inductive CWait where
  | wfi (since : Nat)
  | fence (mask : Option (List Nat)) (leave : Bool)
  | qpush (q : Nat) (v : Dword) (ticket : Nat)
  | qpop (q : Nat) (d : Nat) (ticket : Nat)
  | flag (f : Nat)
  | phase (core addr : Nat) (phase : Word)
  | release (w : List Nat) (acq : Bool) (leave : Bool)
  | writes (reqs : List Nat)
  | acquire (reqs : List Nat)
  deriving DecidableEq, Repr, Inhabited

/-- State of a control core. -/
inductive CState where
  | off
  | ready
  | stalled (till : Nat)
  | asleep (w : CWait)
  deriving DecidableEq, Repr, Inhabited

/-- A cluster's control core with its control-stream run, queues and flags (R71, R72, R266, R313). -/
structure Control where
  lid     : Nat := 0
  version : BitVec 3 := 0
  pc      : Word := 0
  c       : Store Dword := []
  h       : Store ShapeReg := []
  ret     : List Word := []
  eseq    : Word := 0
  tvec    : Word := 0
  tpc     : Word := 0
  handler : Bool := false
  mode    : Word := 0
  stkbase : Dword := 0
  stklim  : Dword := 0
  st      : CState := .off
  cycle   : Nat := 0
  free    : Nat := 0
  ibuf    : Option Fetched := none
  icache  : Store (List Byte) := []
  dcache  : Store (List Byte) := []
  late    : List Late := []
  marks   : List Mark := []
  /-- Writes of shape registers not yet available (R267): register, cycle, the value before. -/
  hLate   : List (Nat × Nat × ShapeReg) := []
  /-- Issued commands that are unfinished, or finished with a failure not yet delivered (R272). -/
  cmds    : List Cmd := []
  /-- The absent page that `ALG.LDT` waits for, and the cause of its refusal once decided (R286). -/
  ldt     : Option (Nat × Option (BitVec 8)) := none
  queues  : Store (List Dword) := []
  flags   : BitVec 64 := 0
  npc     : Word := 0
  till    : Nat := 0
  deriving DecidableEq, Repr, Inhabited

/-! ### Cores (chapters 01, 05, 12) -/

/-- A hardware PC comparator (R304). -/
structure PcCmp where
  ctx     : Nat
  version : BitVec 3
  pc      : Word
  deriving DecidableEq, Repr, Inhabited

/-- A core: its slots, clock, scratchpad bytes, L1 and instruction-cache sectors, monitor table, matrix engine,
comparators, watch ranges and `%dbgctl`. -/
structure Core where
  slots    : Store Slot := []
  cycle    : Nat := 0
  scratch  : Store Byte := []
  l1       : Store (List Byte) := []
  icache   : Store (List Byte) := []
  monitors : List (Nat × Nat) := []
  mx       : Mx := {}
  cmps     : Store PcCmp := []
  watch    : List (Nat × Nat) := []
  dbgctl   : Word := 0
  dropped  : Nat := 0
  /-- One more than the last slot that has changed a barrier in this core cycle (R66). -/
  barNext  : Nat := 0
  deriving DecidableEq, Repr, Inhabited

/-! ### Memory system (chapters 05 and 06) -/

/-- Who issued a request: a resident team, a control stream, a team of a parcel that is switched out (by team index), work that
has ended (R376, R420), or an engine command whose write is parked (R283); its request's owners are the units it writes for. -/
inductive Src where
  | team (core slot team : Nat)
  | control (cluster : Nat)
  | away (pid team : Nat)
  | gone
  | engine (cluster lid : Nat) (eseq : Word)
  deriving DecidableEq, Repr, Inhabited

/-- Where a request goes (R144, R146): a partition, a partition's Pond, or a core's bank atomic unit (R115). -/
inductive Tgt where
  | part (n : Nat)
  | pond (n : Nat)
  | bank (core : Nat)
  deriving DecidableEq, Repr, Inhabited

/-- Where a load's data goes: first register, type, count, and each lane with its address. -/
structure Dest where
  cls  : RCls := .v
  reg  : Nat
  ty   : Ty
  n    : Nat
  lanes : List (Nat × Nat)
  deriving DecidableEq, Repr, Inhabited

/-- What a request does at its point of coherence. -/
inductive ReqKind where
  | load (d : Dest) (acq : Bool)
  | store (bs : List (Nat × Byte))
  /-- Merged atomics, word by word (R158): of each word its address and its lanes with operand C and, for `cas`, operand B; the first
  is next, between its beats when `beat` is 1 (R159), with the old word then in `vals`. -/
  | atomic (op : AOp) (ty : Ty) (ws : List (Nat × List (Nat × Dword × Dword))) (ret : Option Nat) (beat : Nat) (vals : List (Nat × Dword))
  | copyIn (copy : Nat) (blks : List (Nat × Nat × Nat))
  | copyOut (copy : Nat) (blks : List (Nat × Nat × Nat))
  /-- Data of an inbound copy on its way from its partition to the scratchpad: lane and valid bytes of each block (R254). -/
  | arrive (copy : Nat) (blks : List (Nat × List Byte))
  | barb (op : Nat) (v : Word)
  | hint (fill : Bool)
  | doorbell (v : Dword)
  deriving DecidableEq, Repr, Inhabited

/-- Progress of a request: held until its release's wait ends (R151), sent, parked for an absent page (R130, R131), or refused
and parked (R132). -/
inductive ReqSt where
  | held
  | sent
  | parked (park : Nat)
  | refused (cause : BitVec 8) (park : Nat)
  deriving DecidableEq, Repr, Inhabited

/-- A request of a core or control core, in issue order (R146): the entries for which it is an earlier access. `age` orders writes by
their issue (R134); `got` holds bytes already read, by address, where its words are read one by one (R145). -/
structure Req where
  id     : Nat
  kind   : ReqKind
  src    : Src
  port   : Nat
  owners : List Nat
  ctx    : Nat
  lid    : Nat
  tgt    : Tgt
  va     : Nat
  pc     : Word
  version : BitVec 3
  row    : Nat
  gteam  : Nat
  lanes  : Word
  st     : ReqSt := .sent
  long   : Bool := false
  noFill : Bool := false
  age    : Nat := 0
  got    : List (Nat × Byte) := []
  deriving DecidableEq, Repr, Inhabited

/-- A Basin line (R139): the block's bytes, the bytes written since it was taken into the slice, whether the other bytes have been read
from memory, dirty, bad until every byte is written (R404), elision allowed (R141) and the tenant key generation that encrypts it. -/
structure Line where
  bytes : List Byte
  dirty : Bool
  bad   : Bool
  fresh : List Bool
  elide : Bool
  key   : Nat
  filled : Bool := true
  deriving DecidableEq, Repr, Inhabited

/-- An elision entry of a frame slot (R140). -/
structure Elision where
  c0   : BitVec 2 := 1
  c1   : BitVec 2 := 1
  fill : Word := 0
  deriving DecidableEq, Repr, Inhabited

/-- A page-absence report waiting for the memory function (R377), with the launches that met it and the PC, team number and version
of each one's first access (R376). -/
structure Report where
  id    : Nat
  ctx   : Nat
  page  : Nat
  cls   : Nat
  win   : Nat
  part  : Nat
  pc    : Word
  team  : Nat
  version : BitVec 3
  write : Bool
  lids  : List (Nat × Word × Nat × BitVec 3)
  posted : Bool := false
  /-- The cause of a refusal that the memory function has decided (R379). -/
  deny  : Option (BitVec 8) := none
  /-- REPLAY has been sent for the page (R379, R419). -/
  replay : Bool := false
  deriving DecidableEq, Repr, Inhabited

/-! ### Contexts, code objects, launches (chapters 13, 14, 21, 22) -/

/-- A window (R126), sizes in 64 KiB units. -/
structure Window where
  base : Nat := 0
  size : Nat := 0
  r : Bool := false
  w : Bool := false
  x : Bool := false
  a : Bool := false
  wonly : Bool := false
  cls : Nat := 0
  v : Bool := false
  deriving DecidableEq, Repr, Inhabited

/-- A context descriptor (R373). -/
structure CtxDesc where
  ctxid  : Nat := 0
  pond   : Nat := 0
  policy : Bool := false
  pooln  : Nat := 0
  pool   : Nat := 0
  root   : Nat := 0
  windows : Nat := 0
  fq     : Nat := 0
  fqlog2 : Nat := 0
  savef  : Nat := 0
  saven  : Nat := 0
  dbell  : Nat := 0
  savedl : Nat := 0
  parkt  : Nat := 0
  farto  : Nat := 0
  deriving DecidableEq, Repr, Inhabited

/-- A frame-description slot (R317) and a map entry (R318). -/
structure SlotDesc where
  slot : Nat
  ty   : Nat
  u    : Bool
  live : Bool
  deriving DecidableEq, Repr, Inhabited

structure MapEnt where
  slot  : Nat
  kind  : Nat
  reg   : Nat
  arg   : Nat
  value : Dword
  deriving DecidableEq, Repr, Inhabited

/-- A recipe step (R320). -/
structure Step5 where
  op    : Nat
  src   : Bool
  slot  : Nat
  const : Word
  deriving DecidableEq, Repr, Inhabited

/-- A map (R318): its PC field, whether the point is a JOIN, its entries and recipes. -/
structure MapV where
  k       : Nat
  version : Nat
  isJoin  : Bool
  pc      : Word
  ents    : List MapEnt
  recipes : List (List Step5)
  deriving DecidableEq, Repr, Inhabited

structure FrameDesc where
  k     : Nat
  slots : List SlotDesc
  deriving DecidableEq, Repr, Inhabited

/-- A relocation table (R321). -/
structure Reloc where
  from_ : Nat
  into  : Nat
  ents  : List (Nat × Nat × Nat)
  deriving DecidableEq, Repr, Inhabited

/-- One version of a kernel (R331): present, registers, scratchpad bytes, code sections placed at (address, length). -/
structure Vers where
  present : Bool := false
  regs    : Nat := 0
  scratch : Nat := 0
  team    : Nat × Nat := (0, 0)
  control : Option (Nat × Nat) := none
  deriving DecidableEq, Repr, Inhabited

/-- The values of a default launch record (R332) or of bits [178:64] of a LAUNCH packet (R361). -/
structure Grid where
  x : Nat := 1
  y : Nat := 1
  z : Nat := 1
  order : Nat := 0
  swz   : Nat := 1
  start : Nat := 0
  runahead : Bool := false
  chk   : Bool := false
  idemp : Bool := false
  pair  : Bool := false
  ldnf  : Bool := false
  lrnd  : Bool := false
  lw    : Bool := false
  deriving DecidableEq, Repr, Inhabited

/-- A loaded kernel (R331). -/
structure Kernel where
  kid   : Nat
  ctx   : Nat
  obj   : Nat
  name  : List Byte
  w     : Nat
  teams : Nat
  tarn  : Nat
  nbar  : Nat
  wins  : List (Nat × Window)
  vers  : List Vers
  grid  : Grid
  frames : List FrameDesc
  maps  : List MapV
  relocs : List Reloc
  deriving DecidableEq, Repr, Inhabited

/-- A symbol of a loaded object: name, strong, address when defined (R336). -/
structure Sym where
  name   : List Byte
  strong : Bool
  addr   : Option Nat
  deriving DecidableEq, Repr, Inhabited

/-- A loaded object (R334, R421): its three windows, symbols, and relocated words (address, symbol name, addend). -/
structure Obj where
  handle : Nat
  ctx    : Nat
  wins   : List Nat
  kids   : List Nat
  syms   : List Sym
  relocs : List (Nat × List Byte × Nat)
  deriving DecidableEq, Repr, Inhabited

/-- A fault-queue record (R378). -/
structure FqRec where
  kind : Nat
  win  : Nat := 0
  ctx  : Nat := 0
  va   : Dword := 0
  pc   : Word := 0
  team : Dword := 0
  version : BitVec 3 := 0
  part : Nat := 0
  cause : BitVec 8 := 0
  ocause : BitVec 8 := 0
  seq  : Word := 0
  /-- The launch whose lease check a LEASEMISS record waits for (R375): firmware's own, not part of the record. -/
  lid  : Nat := 0
  deriving DecidableEq, Repr, Inhabited

/-- A context (R373): descriptor, windows, granted frames, pool tables in use, leases by unit, fault queue, algebra sets
keyed cluster × 8 + slot, and whether the driver stopped it (R390). -/
structure Ctx where
  desc     : CtxDesc := {}
  /-- The windows of the descriptor, and all windows with those of the loaded objects (R334, R373). -/
  own      : Store Window := []
  wins     : Store Window := []
  granted  : List Nat := []
  tables   : List Nat := []
  leases   : Store Nat := []
  drvPin   : List Nat := []
  fqW      : Nat := 0
  fqSeq    : Word := 0
  fqHeld   : List FqRec := []
  fqOpen   : List FqRec := []
  alg      : Store Algebra := []
  stopped  : Bool := false
  /-- The second in which the last FARTIMEOUT record was posted (R380). -/
  farSec   : Option Nat := none
  /-- The traffic class that firmware has assigned (R387). -/
  traffic  : Nat := 3
  deriving DecidableEq, Repr, Inhabited

/-- Progress of a launch. -/
inductive LState where
  | leasing
  | admitting
  | complete
  | refused
  deriving DecidableEq, Repr, Inhabited

/-- A launch (R361, R362). -/
structure Launch where
  lid    : Nat := 0
  ctx    : Nat := 0
  qid    : Nat := 0
  pkt    : Nat := 0
  kid    : Nat := 0
  grid   : Grid := {}
  args   : Dword := 0
  sigaddr : Dword := 0
  sigval : Dword := 0
  sigadd : Bool := false
  stack  : Dword := 0
  tvec   : Word := 0
  stksz  : Nat := 0
  cor    : Bool := false
  cls    : Nat := 0
  version : BitVec 3 := 0
  next   : Nat := 0
  st     : LState := .leasing
  leased : List Nat := []
  /-- Stopped as a whole, with the error code of its queue (R376, R420). -/
  ended  : Option Nat := none
  /-- A parcel of it ended without `EXIT` (R420). -/
  bad    : Bool := false
  sigs   : List (Nat × Bool × Dword) := []
  /-- Units of LEASED windows that its lease check found without a leaf (R375). -/
  missing : List Nat := []
  deriving DecidableEq, Repr, Inhabited

/-- What a parcel is doing. -/
inductive PState where
  | resident
  | draining (since : Nat)
  | saving (frozen : Bool) (since : Nat)
  | saved
  | flushed
  | ended
  deriving DecidableEq, Repr, Inhabited

/-- A named barrier (R64): expected and arrival sets over the core's teams, bit 32·slot + position. -/
structure Bar where
  phys     : Nat := 0
  expected : BitVec 128 := 0
  arrived  : BitVec 128 := 0
  deriving DecidableEq, Repr, Inhabited

/-- A team as a save image holds it (R384): its registers and split entries. -/
structure SavedTeam where
  team    : Team
  entries : List Entry
  deriving DecidableEq, Repr, Inhabited

/-- An arrival-log entry (R384, R386): a barrier arrival of bytes at an offset, or the completion of a copy. -/
inductive LogEnt where
  | barrier (off bytes : Nat)
  | tag (team copy : Nat)
  deriving DecidableEq, Repr, Inhabited

/-- A save image (R384): its contents, and the place of its bytes in the save area. -/
structure Image where
  teams  : List SavedTeam := []
  bars   : List (BitVec 32 × BitVec 32) := []
  scratch : Store Byte := []
  tarn   : Store Byte := []
  mx     : Option Mx := none
  log    : List LogEnt := []
  core   : Nat := 0
  control : Option Control := none
  /-- Slots a1 to a7 of the control stream's cluster (R385). -/
  algs   : Store Algebra := []
  /-- The parcel that names its group (R385). -/
  group  : Nat := 0
  /-- Its first byte in the save area, from the area's start, and the bytes set aside for it (R374, R384). -/
  place  : Nat := 0
  room   : Nat := 0
  deriving DecidableEq, Repr, Inhabited

/-- A parcel (R46, R52): coordinates, core, allocation, barriers, signature of a paired run (R372). -/
structure Parcel where
  pid    : Nat := 0
  lid    : Nat := 0
  seq    : Nat := 0
  index  : Nat := 0
  x      : Nat := 0
  y      : Nat := 0
  z      : Nat := 0
  core   : Nat := 0
  base   : Nat := 0
  scrSize : Nat := 0
  tarn   : Nat := 0
  teams  : Nat := 1
  bars   : List Bar := []
  shadow : Bool := false
  sig    : Dword := 0
  st     : PState := .resident
  image  : Option Image := none
  version : BitVec 3 := 0
  busy   : Bool := false
  /-- Pending state that a parcel to be restarted keeps (R327, R382). -/
  pend   : Option (BitVec 3) := none
  preqs  : List (Nat × Nat) := []
  /-- The core on which room was made for it while it is switched out (R78). -/
  room   : Option Nat := none
  deriving DecidableEq, Repr, Inhabited

/-- Where a queue stands (R368). -/
inductive QState where
  | unmapped
  | unmapping
  | resident (slot : Nat)
  deriving DecidableEq, Repr, Inhabited

/-- A packet that has started and not completed (R361, R364). `lid` is the launch of a LAUNCH or TRANSFER_REQ, and for an
ALGEBRA_LOAD the serial number of its start. `count` counts the sub-teams that a TRANSFER_REQ
made pending and that ended without transferring (R328). -/
structure Pkt where
  index : Nat
  ty    : Nat
  lid   : Nat := 0
  addr  : Dword := 0
  value : Dword := 0
  op    : Nat := 0
  count : Nat := 0
  clusters : List Nat := []
  alg   : Algebra := {}
  slot  : Nat := 0
  since : Nat := 0
  deriving DecidableEq, Repr, Inhabited

/-- A mapped queue (R358). -/
structure Queue where
  qid   : Nat := 0
  ctx   : Nat := 0
  desc  : Dword := 0
  base  : Dword := 0
  n     : Nat := 4
  cls   : Nat := 0
  err   : BitVec 8 := 0
  wptr  : Nat := 0
  rptr  : Nat := 0
  st    : QState := .unmapped
  live  : List Pkt := []
  /-- Contents read before their packets start, by index (R365). -/
  early : Store (List Byte) := []
  /-- Absent pages that the front end waits for on the queue's behalf (R361). -/
  waits : List Nat := []
  idle  : Nat := 0
  /-- Packets beyond RPTR that have started, where RPTR names a WAIT whose word could not be read again (R361). -/
  begun : List Nat := []
  /-- PENDWAKE of the descriptor (R358, R368). -/
  pendwake : Bool := false
  deriving DecidableEq, Repr, Inhabited

/-! ### Wellhouse, ports, module (chapters 22 to 24) -/

/-- Lifecycle states, by code (R399). -/
inductive Life where
  | manufacture | provisioned | deployed | debug | retired
  deriving DecidableEq, Repr, Inhabited

/-- An error-log entry (R407). -/
structure LogRec where
  cls   : Nat
  unit  : Nat
  index : Nat := 0
  count : Word := 0
  addr  : Dword := 0
  ctx   : Nat := 0
  seq   : Word := 0
  wcyc  : Dword := 0
  /-- The scrub pass of a CE entry, or the second of a CAP entry: entries of one are merged (R407, R411). -/
  span  : Nat := 0
  deriving DecidableEq, Repr, Inhabited

/-- A mailbox page (R393): request and response areas as bytes from 0x400 and 0x800; `taken` is the outstanding request as its function
reads it, where the driver has written REQ since, and `reading` says that the function has read it (R394). -/
structure Mbox where
  reqseq : Dword := 0
  rspseq : Dword := 0
  irq    : Bool := false
  req    : Store Byte := []
  rsp    : Store Byte := []
  taken  : Option (Store Byte) := none
  reading : Bool := false
  ignored : Nat := 0
  deriving DecidableEq, Repr, Inhabited

/-- A tenant key slot (R400): the context it is bound to, the unwrapped key pair, and its generation. -/
structure KeySlot where
  ctx : Nat
  key : BitVec 512
  gen : Nat
  deriving DecidableEq, Repr, Inhabited

/-- An entry of a port translation table (R388). -/
structure Ptt where
  ctx    : Nat
  parcel : Nat
  core   : Nat
  absent : Bool
  pid    : Nat
  deriving DecidableEq, Repr, Inhabited

/-- What leaves over a port with data (R284, R387, R388): the data of a completion, a write to a peer's memory, or a write to a peer
parcel's scratchpad with its context, global parcel number, `.l` offset and byte-count object. -/
inductive Sent where
  | data (va : Nat) (bs : List Byte)
  | store (peer far : Nat) (bs : List Byte)
  | scratch (peer ctx parcel off : Nat) (bs : List Byte) (obj : Option Nat)
  deriving DecidableEq, Repr, Inhabited

/-- A write in a port's bounce ring (R388): the parcel, the `.l` offset, the data and the object. -/
structure Bounce where
  pid : Nat
  off : Nat
  bs  : List Byte
  obj : Option Nat
  deriving DecidableEq, Repr, Inhabited

/-- An external port (R387, R410, R415). -/
structure Port where
  up      : Bool := true
  training : Bool := false
  tries   : Nat := 0
  retries : BitVec 48 := 0
  trains  : BitVec 48 := 0
  sent    : BitVec 48 := 0
  recvd   : BitVec 48 := 0
  ptt     : List Ptt := []
  out     : List Sent := []
  /-- Acknowledgements sent back: 0 performed, else the cause of the refusal (R387, R388). -/
  acks    : List (BitVec 8) := []
  /-- The bounce ring, and the traffic classes whose credit it withholds (R387, R388). -/
  ring    : List Bounce := []
  withheld : List Nat := []
  deriving DecidableEq, Repr, Inhabited

/-- A partition's counters (R414) and its watch filter (R69): (context, sector) pairs. -/
structure Partn where
  ce      : BitVec 48 := 0
  uce     : BitVec 48 := 0
  scrubs  : BitVec 48 := 0
  hits    : BitVec 48 := 0
  misses  : BitVec 48 := 0
  parks   : BitVec 48 := 0
  elided  : BitVec 48 := 0
  watch   : List (Nat × Nat) := []
  tlb     : Store Dword := []
  rtags   : Store Nat := []
  /-- The fault-park entries' records, by park index, readable by firmware until the entry is next taken (R131, R133). -/
  recs    : Store FRec := []
  training : Bool := false
  /-- Number of the scrub pass under way (R404). -/
  pass    : Nat := 0
  deriving DecidableEq, Repr, Inhabited

/-- The Wellhouse (R392 to R403). -/
structure Wellhouse where
  life     : Life := .deployed
  callver  : Option (BitVec 16) := none
  /-- CALLMAX of the firmware image that was booted (R397); none before the boot and in recovery. -/
  callmax  : Option (BitVec 16) := none
  nonce    : Option (BitVec 256) := none
  unlocks  : Word := 0
  mr       : Store (BitVec 256) := []
  keys     : Store KeySlot := []
  keyGen   : Nat := 0
  mbox     : Store Mbox := []
  recovery : Bool := false
  wiped    : Bool := false
  log      : List LogRec := []
  logSeq   : Word := 0
  /-- The fault function's cycle counter as last read (R344, R407). -/
  cycle    : Dword := 0
  retired  : List Nat := []
  reserve  : Option Nat := none
  aperture : Nat := 0
  limit    : Nat := 2100
  power    : Nat := 0
  /-- Power samples taken, one every 100 µs: the module's measure of time (R411; log entry 76). -/
  samples  : Nat := 0
  clock    : Nat := 1750
  junction : Nat := 0
  stopped  : Bool := false
  /-- What FW_STAGE has written of each image copy of the firmware namespace, and the copy that the firmware was booted from (R395, R397). -/
  copies   : Store (Store Byte) := []
  active   : Nat := 0
  /-- The firmware runs, or recovery does, and cores 1 to 7 are released (R397). -/
  booted   : Bool := true
  peers    : Store Nat := []
  dumps    : Nat := 0
  badBells : Nat := 0
  /-- Attempts of the retraining under way of each HBM stack, and stacks whose retraining waits for a save (R391, R410). -/
  tries    : Store Nat := []
  trainReq : List Nat := []
  deriving DecidableEq, Repr, Inhabited

/-- Who issues in this step. -/
inductive Cur where
  | none
  | team (core slot entry : Nat)
  | control (cluster : Nat)
  deriving DecidableEq, Repr, Inhabited

/-- The whole device. -/
structure State where
  cores    : Store Core
  ctls     : Store Control
  reqs     : List Req
  parts    : Store Partn
  basin    : Store Line
  dram     : Store Byte
  elision  : Store Elision
  blockKey : Store Nat
  badBlk   : Store Bool
  pond     : Store Byte
  farMem   : Store Byte
  hostMem  : Store Byte
  reports  : List Report
  ctxs     : Store Ctx
  kernels  : Store Kernel
  objs     : Store Obj
  launches : Store Launch
  parcels  : Store Parcel
  queues   : Store Queue
  hwslots  : Store Nat
  wake     : List Nat
  rr       : Store Nat
  scan     : Nat
  hwAlg    : Store (List Nat)
  ports    : Store Port
  wh       : Wellhouse
  msix     : List Nat
  /-- The next serial number that the model gives (not the spec's). -/
  ids      : Nat
  /-- Counter of the values the spec leaves open (the model's own; log entry 2). -/
  fresh    : Nat
  /-- Number of steps taken, read by `Config.schedule` (the model's own; log entry 1). -/
  tick     : Nat
  /-- Who moves in the next step (the model's own; log entry 1). -/
  turn     : Turn
  /-- Who issues in the present step (the model's own; log entry 1). -/
  cur      : Cur
  deriving DecidableEq, Repr, Inhabited

/-- The machine right after reset (R11 to R19, R149, R266, R397, R399, R411): no context, no work, every memory wiped, the
lifecycle DEPLOYED (log entry 4); the boot has not run. The first move is that of an idle core's clock (log entry 1). -/
def State.reset : State :=
  { cores := [], ctls := [], reqs := [], parts := [], basin := [], dram := [], elision := [], blockKey := [],
    badBlk := [], pond := [], farMem := [], hostMem := [], reports := [], ctxs := [], kernels := [], objs := [],
    launches := [], parcels := [], queues := [], hwslots := [], wake := [], rr := [], scan := 0, hwAlg := [],
    ports := [], wh := { booted := false }, msix := [], ids := 1, fresh := 0, tick := 0, turn := .clock 0, cur := .none }

end Sys2Proof.Machine
end

