-- ==== Sys2Proof/Machine/Store.lean ====
section
/-! DEFINITION. Sparse arrays, lanes and masks, and the accessors of the state's units. -/

namespace Sys2Proof.Machine

/-! ### Sparse arrays -/

/-- The value listed at a key; the search ends at the first greater key. -/
def Store.look {α : Type} : Store α → Nat → Option α
  | [], _ => none
  | (a, v) :: r, k => if k < a then none else if a = k then some v else Store.look r k

/-- The value at a key, `d` where none is listed. -/
def Store.get {α : Type} (d : α) (m : Store α) (k : Nat) : α := (Store.look m k).getD d

/-- The array without an entry at a key. -/
def Store.erase {α : Type} : Store α → Nat → Store α
  | [], _ => []
  | (a, w) :: r, k =>
      if a < k then (a, w) :: Store.erase r k
      else if a = k then r.dropWhile (fun x => x.1 ≤ k)
      else (a, w) :: r

/-- The array with a value at a key, whatever the value. -/
def Store.put {α : Type} : Store α → Nat → α → Store α
  | [], k, v => [(k, v)]
  | (a, w) :: r, k, v =>
      if a < k then (a, w) :: Store.put r k v
      else if a = k then (k, v) :: r
      else (k, v) :: (a, w) :: r

/-- The array with a value at a key, in canonical form for the default `d`. -/
def Store.set {α : Type} [DecidableEq α] (d : α) (m : Store α) (k : Nat) (v : α) : Store α :=
  if v = d then m.erase k else m.put k v

/-- Keys strictly rising. -/
def Store.rising {α : Type} : Store α → Bool
  | [] => true
  | [_] => true
  | (a, _) :: (b, w) :: r => decide (a < b) && Store.rising ((b, w) :: r)

/-- The canonical form: keys strictly rising, no entry equal to the default. -/
def Store.wf {α : Type} [DecidableEq α] (d : α) (m : Store α) : Bool :=
  m.rising && m.all (fun x => decide (x.2 ≠ d))

/-- A byte memory: an address that is not listed reads 0 (log entry 6). -/
abbrev Memory := Store Byte

/-- The canonical form of a byte memory. -/
def Memory.wf (m : Memory) : Bool := Store.wf 0 m

/-- Several values written one after another. -/
def Store.setAll {α : Type} [DecidableEq α] (d : α) (m : Store α) (xs : List (Nat × α)) : Store α :=
  xs.foldl (fun m x => m.set d x.1 x.2) m

/-- Bytes `a` to `a + n − 1` of a byte memory that reads 0 where nothing is listed (R399; log entry 6). -/
def readBytes (m : Store Byte) (a n : Nat) : List Byte := (List.range n).map fun i => m.get 0 (a + i)

/-- The memory with bytes written from `a` upward. -/
def writeBytes (m : Store Byte) (a : Nat) (bs : List Byte) : Store Byte :=
  m.setAll 0 (bs.zipIdx.map fun x => (a + x.2, x.1))

/-- A byte list as a number, lowest address first (R4). -/
def natOfBytes : List Byte → Nat
  | [] => 0
  | b :: r => b.toNat + 256 * natOfBytes r

/-- A number's `n` bytes, lowest address first (R4). -/
def bytesOfNat (n v : Nat) : List Byte := (List.range n).map fun i => BitVec.ofNat 8 (v / 256 ^ i)

/-! ### Lanes and masks (R45, R49) -/

/-- Whether lane `l` is in a mask. -/
def inMask (m : List Word) (l : Nat) : Bool := (m.getD (l / 32) 0).getLsbD (l % 32)

/-- The lanes of a mask in ascending order. -/
def lanesOf (m : List Word) : List Nat := (List.range (32 * m.length)).filter (inMask m)

/-- The lane word of row `r` that a set of lanes gives. -/
def laneWord (r : Nat) (f : Nat → Bool) : Word :=
  BitVec.ofNat 32 ((List.range 32).foldl (fun w b => if f (32 * r + b) then w + 2 ^ b else w) 0)

/-- A mask of `n` rows from a set of lanes. -/
def maskOf (n : Nat) (f : Nat → Bool) : List Word := (List.range n).map fun r => laneWord r f

/-- The mask of a list of lanes. -/
def maskOfLanes (n : Nat) (ls : List Nat) : List Word := maskOf n (fun l => ls.contains l)

/-- The non-empty rows of a mask, ascending (R49, R50). -/
def rowsOf (m : List Word) : List Nat := (List.range m.length).filter fun r => decide (m.getD r 0 ≠ 0)

/-- The row mask (R49). -/
def rowMask (m : List Word) : Word :=
  BitVec.ofNat 32 ((rowsOf m).foldl (fun w r => w + 2 ^ r) 0)

def maskOr (a b : List Word) : List Word := a.zipWith (· ||| ·) b
def maskAndNot (a b : List Word) : List Word := a.zipWith (fun x y => x &&& ~~~y) b
def maskEmpty (m : List Word) : Bool := m.all (fun w => decide (w = 0))

/-! ### Units of the state -/

def State.core (s : State) (c : Nat) : Core := s.cores.get {} c
def State.setCore (s : State) (c : Nat) (k : Core) : State := { s with cores := s.cores.put c k }
def State.slot (s : State) (c sl : Nat) : Slot := (s.core c).slots.get {} sl
def State.setSlot (s : State) (c sl : Nat) (x : Slot) : State :=
  s.setCore c { s.core c with slots := (s.core c).slots.put sl x }
def State.entry? (s : State) (c sl e : Nat) : Option Entry := (s.slot c sl).entries.look e
def State.entry (s : State) (c sl e : Nat) : Entry := (s.slot c sl).entries.get {} e
def State.setEntry (s : State) (c sl e : Nat) (x : Entry) : State :=
  s.setSlot c sl { s.slot c sl with entries := (s.slot c sl).entries.put e x }
def State.delEntry (s : State) (c sl e : Nat) : State :=
  s.setSlot c sl { s.slot c sl with entries := (s.slot c sl).entries.erase e }
def State.team (s : State) (c sl t : Nat) : Team := (s.slot c sl).teams.get {} t
def State.setTeam (s : State) (c sl t : Nat) (x : Team) : State :=
  s.setSlot c sl { s.slot c sl with teams := (s.slot c sl).teams.put t x }
def State.ctl (s : State) (cl : Nat) : Control := s.ctls.get {} cl
def State.setCtl (s : State) (cl : Nat) (x : Control) : State := { s with ctls := s.ctls.put cl x }
def State.parcel (s : State) (p : Nat) : Parcel := s.parcels.get {} p
def State.setParcel (s : State) (p : Nat) (x : Parcel) : State := { s with parcels := s.parcels.put p x }
def State.launchOf (s : State) (l : Nat) : Launch := s.launches.get {} l
def State.setLaunch (s : State) (l : Nat) (x : Launch) : State := { s with launches := s.launches.put l x }
def State.ctxOf (s : State) (c : Nat) : Ctx := s.ctxs.get {} c
def State.setCtx (s : State) (c : Nat) (x : Ctx) : State := { s with ctxs := s.ctxs.put c x }
def State.part (s : State) (n : Nat) : Partn := s.parts.get {} n
def State.setPart (s : State) (n : Nat) (x : Partn) : State := { s with parts := s.parts.put n x }
def State.port (s : State) (n : Nat) : Port := s.ports.get {} n
def State.setPort (s : State) (n : Nat) (x : Port) : State := { s with ports := s.ports.put n x }
def State.queue (s : State) (q : Nat) : Queue := s.queues.get {} q
def State.setQueue (s : State) (q : Nat) (x : Queue) : State := { s with queues := s.queues.put q x }

/-- A kernel that is not loaded. -/
def Kernel.none : Kernel :=
  { kid := 0, ctx := 0, obj := 0, name := [], w := 0, teams := 1, tarn := 0, nbar := 0, wins := [], vers := [],
    grid := {}, frames := [], maps := [], relocs := [] }

def State.kernel (s : State) (k : Nat) : Kernel := s.kernels.get Kernel.none k
def Kernel.version (k : Kernel) (v : BitVec 3) : Vers := k.vers.getD v.toNat {}

/-- The largest register count, and the largest scratchpad, of a kernel's versions (R51, R52). -/
def Kernel.maxRegs (k : Kernel) : Nat := k.vers.foldl (fun n v => if v.present then max n v.regs else n) 0
def Kernel.maxScratch (k : Kernel) : Nat := k.vers.foldl (fun n v => if v.present then max n v.scratch else n) 0
/-- Whether the kernel has a control stream in a version (R331). -/
def Kernel.hasControl (k : Kernel) : Bool := k.vers.any fun v => v.present && v.control.isSome

/-- The cluster of a core (R12). -/
def clusterOf (core : Nat) : Nat := core / 16

/-- A fresh serial number. -/
def State.newId (s : State) : Nat × State := (s.ids, { s with ids := s.ids + 1 })

/-- A free 64-bit value (log entry 2). -/
def State.free64 (s : State) : BitVec 64 × State := (Config.freeBits s.fresh, { s with fresh := s.fresh + 1 })

/-- A free choice (log entry 2). -/
def State.freeBool (s : State) : Bool × State := (Config.freeBool s.fresh, { s with fresh := s.fresh + 1 })

/-- Free bytes (log entry 2). -/
def State.freeBytes (s : State) (n : Nat) : List Byte × State :=
  ((List.range n).map fun i => (Config.freeBits (s.fresh + i)).setWidth 8, { s with fresh := s.fresh + n })

/-- The parcels of a core that hold its resources: resident, draining or being saved. -/
def Parcel.onCore (p : Parcel) : Bool :=
  match p.st with
  | .resident | .draining _ | .saving .. => true
  | _ => false

/-- Whether an unfinished engine command names a parcel (R270). -/
def State.engineBusy (s : State) (pid : Nat) : Bool :=
  s.ctls.any fun c => c.2.cmds.any fun m => !m.finished && m.parcels.any fun x => x.2 == pid

/-- The parcels that hold scratchpad of a core: those on it, and ended ones that an engine command still names. -/
def State.holders (s : State) (core : Nat) : List Parcel :=
  (s.parcels.filter fun x => x.2.core == core && (x.2.onCore || (x.2.st == .ended && x.2.image.isNone && s.engineBusy x.1))).map Prod.snd

/-- `%pmask`: the cores of a cluster that hold parcels of a launch (R71, R270). -/
def State.pmask (s : State) (cl lid : Nat) : List Nat :=
  (List.range 16).filter fun i => s.parcels.any fun x => x.2.lid == lid && x.2.core == 16 * cl + i && x.2.onCore

/-- The parcel of a launch on a core. -/
def State.parcelOn (s : State) (core lid : Nat) : Option Parcel :=
  (s.parcels.find? fun x => x.2.lid == lid && x.2.core == core && x.2.onCore).map Prod.snd

/-- The number of teams in a slot, and of its entries of a team (R53). -/
def Slot.entriesOf (x : Slot) (t : Nat) : List Nat := (x.entries.filter fun e => e.2.team == t).map Prod.fst

/-- The global team number (R48). -/
def State.gteam (s : State) (t : Team) : Nat :=
  let p := s.parcel t.pid
  p.index * (s.kernel (s.launchOf p.lid).kid).teams + t.index

end Sys2Proof.Machine
end

