-- ==== Sys2Proof/Machine/Phys.lean ====
section
/-! DEFINITION. The memory system: routing (R122), frames (R123), the Basin over DRAM with elision and keys (R139 to R142),
page tables (R118 to R121, R374), windows (R126, R127), Pond and scratchpad places (R110, R114, R116). -/

namespace Sys2Proof.Machine

/-! ### The error log (R406, R407) -/

/-- An entry of the error log (R407): the newest 4,096 are held. Its WCYC is the count of the fault function's own cycles, which have gone
on by a free number since the last entry (log entry 2). -/
def State.logEvent (s : State) (r : LogRec) : State :=
  let (t, s1) := s.free64
  let w := s1.wh
  let now := w.cycle + (t.setWidth 40).setWidth 64
  { s1 with wh := { w with log := (w.log ++ [{ r with seq := w.logSeq, wcyc := now }]).drop (w.log.length - 4095),
                           logSeq := w.logSeq + 1, cycle := now },
            msix := s1.msix ++ [9] }

/-- Messages that a port has sent and received (R414). -/
def State.countPort (s : State) (port sent recvd : Nat) : State :=
  let p := s.port port
  s.setPort port { p with sent := p.sent + BitVec.ofNat 48 sent, recvd := p.recvd + BitVec.ofNat 48 recvd }

/-- What FATAL does: every context stops without saving, a crash dump is written to a drive, and the device waits for a reset (R408). -/
def State.fatalStop (s0 : State) : State :=
  let s := s0.countPort 18 1 0
  { s with
    cores := s.cores.map fun c => (c.1, { c.2 with slots := c.2.slots.map fun x => (x.1, { x.2 with entries := [], teams := [] }), monitors := [] })
    ctls := s.ctls.map fun c => (c.1, { c.2 with st := .off, cmds := [] })
    reqs := [], reports := [], parcels := []
    ctxs := s.ctxs.map fun c => (c.1, { c.2 with stopped := true })
    wh := { s.wh with stopped := true, dumps := s.wh.dumps + 1 } }

/-- FATAL logged, and the module stopped (R408). -/
def State.fatal (s : State) (unit index : Nat) : State := (s.logEvent { cls := 10, unit := unit, index := index }).fatalStop

/-- A frame is retired (R406). -/
def State.retire (s : State) (frame : Nat) : State :=
  if s.wh.retired.contains frame then s else { s with wh := { s.wh with retired := s.wh.retired ++ [frame] } }

/-- A read or scrub meets an uncorrectable block: counted and logged as one event, its frame retired (R142, R404, R406, R407). -/
def State.logUce (s : State) (part frame half : Nat) : State :=
  let s1 := s.setPart part { s.part part with uce := (s.part part).uce + 1 }
  (s1.logEvent { cls := 2, unit := 0, index := part, count := 1,
                 addr := BitVec.ofNat 64 (frame * 1024 + half * 512) }).retire frame

/-! ### Routing and placement -/

/-- Bits `[hi:lo]` of a number. -/
def bitsOf (x hi lo : Nat) : Nat := x / 2 ^ lo % 2 ^ (hi + 1 - lo)

/-- The term G of the routing hash (R122). -/
def hashG (va : Nat) : Nat :=
  bitsOf va 20 15 ^^^ bitsOf va 26 21 ^^^ bitsOf va 32 27 ^^^ bitsOf va 38 33 ^^^ bitsOf va 44 39 ^^^
  bitsOf va 50 45 ^^^ bitsOf va 51 51

/-- The partition that a global address goes to (R122). -/
def partOf (va : Nat) : Nat := bitsOf va 14 9 ^^^ hashG va

/-- The byte of a frame's slot in its partition (R123). -/
def slotOff (va : Nat) : Nat := bitsOf va 15 15 * 512 + bitsOf va 8 0

/-- The place of Pond byte `o` (R116): its partition, and the byte of the carved region. -/
def pondPart (o : Nat) : Nat := o / 512 % 64
def pondOff (o : Nat) : Nat := o / 32768 * 512 + o % 512

/-- Key of a context's Pond byte. -/
def pondKey (ctx o : Nat) : Nat := ctx * 2 ^ 28 + o

/-- Scratchpad size of a core in bytes (R110). -/
def scratchSize : Nat := 786432

/-- Bank of a scratchpad byte (R110). -/
def bankOf (a : Nat) : Nat := a / 4 % 96

/-! ### Leaves -/

/-- A leaf as its 64 KiB part: the entry word with FRAME moved to the part's frame (R119, R120). -/
abbrev Leaf := Dword

def Leaf.v (l : Leaf) : Bool := l.getLsbD 0
def Leaf.r (l : Leaf) : Bool := l.getLsbD 1
def Leaf.w (l : Leaf) : Bool := l.getLsbD 2
def Leaf.x (l : Leaf) : Bool := l.getLsbD 3
def Leaf.a (l : Leaf) : Bool := l.getLsbD 4
def Leaf.far (l : Leaf) : Bool := l.getLsbD 5
def Leaf.l (l : Leaf) : Bool := l.getLsbD 6
def Leaf.pin (l : Leaf) : Bool := l.getLsbD 7
def Leaf.e (l : Leaf) : Bool := l.getLsbD 8
def Leaf.key (l : Leaf) : Nat := bitsOf l.toNat 15 9
def Leaf.frame (l : Leaf) : Nat := bitsOf l.toNat 47 16
/-- Far target, peer and far frame (R120). -/
def Leaf.target (l : Leaf) : Nat := bitsOf l.toNat 47 45
def Leaf.peer (l : Leaf) : Nat := bitsOf l.toNat 44 41
def Leaf.farFrame (l : Leaf) : Nat := bitsOf l.toNat 40 16

/-- The entry with its frame moved on by `j` parts (R120). -/
def Leaf.part (l : Leaf) (j : Nat) : Leaf := BitVec.ofNat 64 (l.toNat + j * 65536)

/-! ### Blocks: Basin over DRAM -/

/-- Number of a 512-byte block: of an HBM frame slot, or of a far frame (R120). -/
def blockNo (part : Nat) (l : Leaf) (half : Nat) : Nat :=
  if l.far then 2 ^ 60 + ((part * 2 ^ 32 + bitsOf l.toNat 47 16) * 128 + half)
  else (part * 2 ^ 23 + l.frame) * 2 + half

/-- DRAM byte `off` of a frame's slot in a partition (R123). -/
def dramKey (part frame off : Nat) : Nat := part * 2 ^ 33 + frame * 1024 + off

/-- Frames of a page-table pool or a save area: their elision codes are always 00 (R374). -/
def State.rawFrame (s : State) (f : Nat) : Bool :=
  s.ctxs.any fun x =>
    let d := x.2.desc
    (d.pool ≤ f && f < d.pool + d.pooln) || (d.savef ≤ f && f < d.savef + d.saven)

/-- Whether some of `n` frames from one on belong to a page-table pool or save area. -/
def State.rawMeets (s : State) (f n : Nat) : Bool :=
  s.ctxs.any fun x =>
    let d := x.2.desc
    (decide (d.pool < f + n) && decide (f < d.pool + d.pooln)) || (decide (d.savef < f + n) && decide (f < d.savef + d.saven))

/-- The elision entry of a frame slot; unlisted slots hold 01 in both codes, as a wipe leaves them (R141, R399). -/
def State.elisionOf (s : State) (part frame : Nat) : Elision :=
  if s.rawFrame frame then { c0 := 0, c1 := 0, fill := 0 }
  else s.elision.get {} (part * 2 ^ 23 + frame)

/-- The entry with one half's code changed. -/
def Elision.setCode (e : Elision) (half : Nat) (c : BitVec 2) : Elision := if half = 0 then { e with c0 := c } else { e with c1 := c }

/-- Code of one half of a slot. -/
def Elision.code (e : Elision) (half : Nat) : BitVec 2 := if half = 0 then e.c0 else e.c1

/-- The key generation of a leaf's KEY (R139, R400): 0 for none. -/
def State.keyGenOf (s : State) (l : Leaf) : Nat :=
  if l.key = 0 then 0 else match s.wh.keys.look l.key with
    | some k => k.gen
    | none => 0

/-- A read that DRAM does not serve, counted (R140, R414). -/
def State.countElided (s : State) (part : Nat) : State :=
  s.setPart part { s.part part with elided := (s.part part).elided + 1 }

/-- The parts of a block's number: its partition, its frame, which of the frame's blocks there, and for a far frame its target. -/
def blkFar (blk : Nat) : Bool := decide (2 ^ 60 ≤ blk)
def blkPart (blk : Nat) : Nat := if blkFar blk then (blk - 2 ^ 60) / 128 / 2 ^ 32 else blk / 2 / 2 ^ 23
def blkFrame (blk : Nat) : Nat := if blkFar blk then (blk - 2 ^ 60) / 128 % 2 ^ 25 else blk / 2 % 2 ^ 23
def blkHalf (blk : Nat) : Nat := if blkFar blk then (blk - 2 ^ 60) % 128 else blk % 2
def blkTarget (blk : Nat) : Nat := (blk - 2 ^ 60) / 128 % 2 ^ 32 / 2 ^ 29

/-- The port that an expander or the host is reached through (R415). -/
def blkPort (blk : Nat) : Nat := if blkTarget blk = 2 then 20 else 16 + blkTarget blk

/-- The 512 bytes of a block outside the Basin as a key generation reads them, and whether they are bad (R140, R142). A block stored
under another key generation reads as free bytes (R139; log entry 2). -/
def State.loadBlock (s : State) (blk key : Nat) : List Byte × Bool × State :=
  let part := blkPart blk
  let half := blkHalf blk
  if blkFar blk then
    let base := blkFrame blk * 65536 + half * 512
    ((List.range 512).map fun i =>
      if blkTarget blk = 2 then s.hostMem.get 0 (base + i) else s.farMem.get 0 (blkTarget blk * 2 ^ 41 + base + i), false,
     s.countPort (blkPort blk) 1 1)
  else
    let frame := blkFrame blk
    let e := s.elisionOf part frame
    match (e.code half).toNat with
    | 1 => (List.replicate 512 0, false, s.countElided part)
    | 2 => ((List.range 512).map fun i => BitVec.ofNat 8 (e.fill.toNat / 256 ^ (i % 4)), false, s.countElided part)
    | 3 => (List.replicate 512 0, true, s)
    | _ =>
      let n := Config.bitErrors blk s.fresh
      let bad := s.badBlk.get false blk || decide (24 < n)
      let s0 := { s with fresh := s.fresh + 1 }
      let s1 := if bad then s0.logUce part frame half
        else if n = 0 then s0 else s0.setPart part { s0.part part with ce := (s0.part part).ce + 1 }
      if s.blockKey.get 0 blk = key then
        ((List.range 512).map fun i => s.dram.get 0 (dramKey part frame (half * 512 + i)), bad, s1)
      else
        let (bs, s2) := s1.freeBytes 512
        (bs, bad, s2)

/-- A line whose unwritten bytes have been read from memory (R139): it is bad where the block is. One written completely in the slice needs
no read. -/
def State.fillLine (s : State) (blk : Nat) (x : Line) : Line × State :=
  if x.filled || x.fresh.all id then (x, s)
  else
    let (bs, bad, s1) := s.loadBlock blk x.key
    ({ x with bytes := (x.fresh.zip (x.bytes.zip bs)).map fun y => if y.1 then y.2.1 else y.2.2
              bad := bad, filled := true }, s1)

/-- A block leaves the Basin (R139 to R141): a dirty one is written back, after a read of memory unless every byte of it was written in the
slice, and elided where its page allows. To host memory go the bytes that were written, so that none that the host has written meanwhile
is lost (log entry 81). -/
def State.evict (s0 : State) (blk : Nat) : State :=
  match s0.basin.look blk with
  | none => s0
  | some x0 =>
    if !x0.dirty then { s0 with basin := s0.basin.erase blk }
    else
      let (x, s) := if x0.fresh.all id then (x0, s0) else s0.fillLine blk x0
      let s1 := { s with basin := s.basin.erase blk }
      let half := blkHalf blk
      if blkFar blk then
        let base := blkFrame blk * 65536 + half * 512
        let s2 : State := if blkTarget blk = 2 then
            { s1 with hostMem := s1.hostMem.setAll 0 ((x.bytes.zipIdx.filter fun y => x.fresh.getD y.2 false).map fun y => (base + y.2, y.1)) }
          else { s1 with farMem := writeBytes s1.farMem (blkTarget blk * 2 ^ 41 + base) x.bytes }
        s2.countPort (blkPort blk) 1 0
      else
        let slot := blk / 2
        let part := blkPart blk
        let frame := blkFrame blk
        let e := s.elisionOf part frame
        let word : Word := BitVec.ofNat 32 (natOfBytes (x.bytes.take 4))
        let allZero := x.bytes.all (fun b => decide (b = 0))
        let allFill := (x.bytes.zipIdx.all fun y => decide (y.1 = BitVec.ofNat 8 (word.toNat / 256 ^ (y.2 % 4))))
        let other := e.code (1 - half)
        if x.elide && !x.bad && !s.rawFrame frame && allZero then
          { s1 with elision := s1.elision.set {} slot (e.setCode half 1) }
        else if x.elide && !x.bad && !s.rawFrame frame && allFill && !(other == 2 && e.fill != word) then
          { s1 with elision := s1.elision.set {} slot { (e.setCode half 2) with fill := word } }
        else
          { s1 with
              elision := if s.rawFrame frame then s1.elision else s1.elision.set {} slot (e.setCode half 0)
              dram := writeBytes s1.dram (dramKey part frame (half * 512)) x.bytes
              badBlk := s1.badBlk.set false blk x.bad
              blockKey := s1.blockKey.set 0 blk x.key }

/-- Whether a dirty line has to stay while the port or the stack that it is written back to cannot take it (R137, R410). -/
def State.lineStuck (s : State) (blk : Nat) (x : Line) : Bool :=
  x.dirty && (if blkFar blk then decide (blkTarget blk ≤ 1) && (!(s.port (16 + blkTarget blk)).up || (s.port (16 + blkTarget blk)).training)
    else (s.part (blkPart blk)).training)

/-- The sets of a Basin slice (R16, R116, R139): 4 MiB less the carvings of the contexts that exist, in 512-byte lines, 16 ways. -/
def State.basinSets (s : State) : Nat := 512 - 128 * s.ctxs.foldl (fun n x => n + x.2.desc.pond) 0

/-- The lines of the set that a block falls into: of its slice, with the same frame-slot index (log entry 11). -/
def State.setMates (s : State) (blk : Nat) : Store Line :=
  s.basin.filter fun y => blkPart y.1 == blkPart blk && blkFrame y.1 % s.basinSets == blkFrame blk % s.basinSets

/-- The lines of a block's set that can be written back now. -/
def State.freeMates (s : State) (blk : Nat) : Store Line := (s.setMates blk).filter fun y => !s.lineStuck y.1 y.2

/-- Whether a block that is not in the Basin finds its set full of lines that have to stay (R137, R410): its access is held. -/
def State.noWay (s : State) (blk : Nat) : Bool :=
  (s.basin.look blk).isNone && decide (16 ≤ (s.setMates blk).length) && (s.freeMates blk).isEmpty

/-- A full set gives up a line, freely chosen among those that can be written back (R139; log entry 11). -/
def State.makeWay (s : State) (blk : Nat) : State :=
  let free := s.freeMates blk
  if (s.setMates blk).length < 16 || free.isEmpty then s
  else
    let (b, s1) := s.free64
    s1.evict (free.map Prod.fst |>.getD (b.toNat % free.length) blk)

/-- Sets that have become smaller give up the lines beyond their ways, as the carving of a context changes the slices (R116). -/
def State.trimBasin (s : State) : State :=
  (s.basin.map Prod.fst).foldl (fun s b => if 16 < (s.setMates b).length then s.makeWay b else s) s

/-- Whether a block's bytes are in the Basin. -/
def State.lineHit (s : State) (blk : Nat) : Bool :=
  match s.basin.look blk with
  | some x => x.filled || x.fresh.all id
  | none => false

/-- The line of a block in its slice, a new one without bytes where it was not there, and whether it was there, counted (R139, R414). It is
encrypted under the key and elided by the E of the leaf that first reached it (log entry 77). -/
def State.takeLine (s : State) (part : Nat) (l : Leaf) (half : Nat) : Line × State :=
  let blk := blockNo part l half
  match s.basin.look blk with
  | some x => (x, s.setPart part { s.part part with hits := (s.part part).hits + 1 })
  | none =>
    let x : Line := { bytes := List.replicate 512 0, dirty := false, bad := false, fresh := List.replicate 512 false, elide := l.e,
                      key := s.keyGenOf l, filled := false }
    let s1 := s.makeWay blk
    (x, s1.setPart part { s1.part part with misses := (s1.part part).misses + 1 })

/-- Which block of its frame slot an address lies in: one of two for HBM (R123), one of the page's 128 for a far frame. -/
def halfOf (l : Leaf) (va : Nat) : Nat := if l.far then bitsOf va 15 9 else bitsOf va 15 15

/-- The port of a peer's memory (R387). -/
def State.peerPort (s : State) (l : Leaf) : Nat := (s.wh.peers.look l.peer).getD l.peer

/-- `n` bytes at a global address within one block, through the Basin of the routed partition (R123, R139): the bytes,
whether they are poison (R142), and the state. A peer's memory is read afresh each time (R387; log entry 21). -/
def State.readG (s : State) (l : Leaf) (va n : Nat) : List Byte × Bool × State :=
  let part := partOf va
  let o := va % 512
  if l.far && l.target == 3 then
    let (bs, s1) := s.freeBytes n
    (bs, false, s1.countPort (s1.peerPort l) 1 1)
  else
    let (x, s1) := s.takeLine part l (halfOf l va)
    let (y, s2) := s1.fillLine (blockNo part l (halfOf l va)) x
    ((List.range n).map fun i => y.bytes.getD (o + i) 0, y.bad, { s2 with basin := s2.basin.put (blockNo part l (halfOf l va)) y })

/-- A write to a block whose code is not 00: the block is built from the code's bytes, and its code becomes 00 (R140). -/
def State.unelide (s : State) (part : Nat) (l : Leaf) (half : Nat) (x : Line) : Line × State :=
  let e := s.elisionOf part l.frame
  if l.far || e.code half = 0 then (x, s)
  else
    let (y, s1) := s.fillLine (blockNo part l half) x
    (y, { s1 with elision := s1.elision.set {} (part * 2 ^ 23 + l.frame) (e.setCode half 0) })

/-- Bytes written at a global address within one block (R139): a bad block stays bad until all of it is written (R404). -/
def State.writeG (s : State) (l : Leaf) (va : Nat) (bs : List (Nat × Byte)) : State :=
  let part := partOf va
  if l.far && l.target == 3 then
    -- a write to a peer's memory leaves over its port (R387)
    let p := s.port (s.peerPort l)
    s.setPort (s.peerPort l) { p with out := p.out ++ bs.map (fun x => .store l.peer (l.farFrame * 65536 + va % 65536 + x.1) [x.2]),
                                      sent := p.sent + 1 }
  else
    let (x, s1) := s.takeLine part l (halfOf l va)
    let (y, s2) := s1.unelide part l (halfOf l va) x
    let o := va % 512
    let bytes := bs.foldl (fun b z => b.set (o + z.1) z.2) y.bytes
    let fresh := bs.foldl (fun b z => b.set (o + z.1) true) y.fresh
    { s2 with basin := s2.basin.put (blockNo part l (halfOf l va))
                { y with bytes := bytes, fresh := fresh, bad := y.bad && !(fresh.all id), dirty := true } }

/-! ### Far frames and retraining (R120, R137, R387, R410, R415) -/

/-- The port a far frame is reached through. -/
def State.farPort (s : State) (l : Leaf) : Option Nat :=
  if !l.far then none
  else match l.target with
    | 0 => some 16
    | 1 => some 17
    | 3 => some (s.peerPort l)
    | _ => none

/-- The port is down: loads complete with poison, writes are refused with LINKDOWN (R137). -/
def State.linkDown (s : State) (l : Leaf) : Bool :=
  match s.farPort l with
  | some p => !(s.port p).up
  | none => false

/-- The access waits for a retraining (R410), or for a line of its set that cannot be written back yet: Basin hits go on. -/
def State.retraining (s : State) (l : Leaf) (va : Nat) : Bool :=
  let blk := blockNo (partOf va) l (halfOf l va)
  !s.lineHit blk && ((match s.farPort l with
    | some p => (s.port p).up && (s.port p).training
    | none => !l.far && (s.part (partOf va)).training) || (!(l.far && l.target == 3) && s.noWay blk))

/-! ### Page tables -/

/-- The pseudo-leaf of a page-table pool frame: no key, no elision (R374). -/
def poolLeaf (frame : Nat) : Leaf := BitVec.ofNat 64 (1 + 2 + 4 + frame * 65536)

/-- `n` entries from pool byte `o` of a context on, within one block (R374), at the point of coherence: `none` while the stack of the block
retrains (R410). An uncorrectable block of the pool is an error in firmware state: FATAL (R373, R408). -/
def State.readEntries (s : State) (d : CtxDesc) (o n : Nat) : Option (List Dword) × State :=
  let l := poolLeaf (d.pool + o / 65536)
  if s.retraining l o then (none, s)
  else
    let (bs, bad, s1) := s.readG l o (8 * n)
    if bad then (none, s1.fatal 0 (partOf o))
    else (some ((List.range n).map fun i => BitVec.ofNat 64 (natOfBytes ((bs.drop (8 * i)).take 8))), s1)

/-- One entry at pool byte `o` of a context. -/
def State.readPool (s : State) (d : CtxDesc) (o : Nat) : Option Dword × State :=
  let (r, s1) := s.readEntries d o 1
  (r.map fun es => es.headD 0, s1)

def State.writePool (s : State) (d : CtxDesc) (o : Nat) (v : Dword) : State :=
  let l := poolLeaf (d.pool + o / 65536)
  s.writeG l o ((bytesOfNat 8 v.toNat).zipIdx.map fun x => (x.2, x.1))

/-- What a walk finds (R121, R377). -/
inductive Walk where
  | leaf (l : Leaf)
  | absent
  | malformed
  /-- A page-table read does not come back (R408, R410). -/
  | wait
  deriving DecidableEq, Repr

/-- Whether a KEY slot is free or bound to another context (R121, R400). -/
def State.keyBad (s : State) (ctx key : Nat) : Bool :=
  key != 0 && (match s.wh.keys.look key with
    | some k => k.ctx != ctx
    | none => true)

/-- The limits of R121 on a leaf at a level. -/
def State.leafBad (s : State) (ctx level : Nat) (l : Leaf) : Bool :=
  if l.far then
    decide (4 ≤ l.target) || l.key != 0
  else
    decide (2 ^ 23 ≤ l.frame) || (level == 1 && l.frame % 512 != 0) || (level == 2 && l.frame % 2 ^ 18 != 0) ||
    s.keyBad ctx l.key

/-- The index of a level's entry in an address (R118). -/
def levelIndex (va level : Nat) : Nat := va / 2 ^ (16 + 9 * level) % 512

/-- A walk from a table downward (R118 to R121): `fuel` is the level. -/
def State.walkFrom (s : State) (ctx va : Nat) : Nat → Nat → Walk × State
  | level, table =>
    let d := (s.ctxOf ctx).desc
    if 16 * d.pooln ≤ table then (.malformed, s)
    else
      match s.readPool d (table * 4096 + 8 * levelIndex va level) with
      | (none, s1) => (.wait, s1)
      | (some w, s1) =>
        let e : Leaf := w
        if !e.v then (.absent, s1)
        else match level with
        | 0 => if s1.leafBad ctx 0 e then (.malformed, s1) else (.leaf e, s1)
        | n + 1 =>
          if e.l then
            if n + 1 = 3 || s1.leafBad ctx (n + 1) e then (.malformed, s1)
            else (.leaf (e.part (va / 65536 % 2 ^ (9 * (n + 1)))), s1)
          else s1.walkFrom ctx va n e.frame

/-- A whole walk of a context's tables. -/
def State.walk (s : State) (ctx va : Nat) : Walk × State :=
  s.walkFrom ctx va 3 (s.ctxOf ctx).desc.root

/-- Key of a translation in a partition's cache. -/
def tlbKey (ctx va : Nat) : Nat := ctx * 2 ^ 36 + va / 65536

/-- The reverse-tag check of a translation fill (R125): whether the frame is already held under another page here. Pool,
save-area and far frames carry no tag (R374). -/
def State.synonym (s : State) (l : Leaf) (va : Nat) : Bool :=
  !l.far && !s.rawFrame l.frame &&
  (match (s.part (partOf va)).rtags.look l.frame with
   | some vpn => vpn != va / 65536
   | none => false)

/-- The partition's cache and reverse tag after a fill (R125). -/
def State.fillTlb (s : State) (ctx va : Nat) (l : Leaf) : State :=
  let n := partOf va
  let p := s.part n
  s.setPart n { p with
    tlb := p.tlb.put (tlbKey ctx va) l
    rtags := if l.far || s.rawFrame l.frame then p.rtags else p.rtags.put l.frame (va / 65536) }

/-! ### Windows (R126, R127) -/

/-- What an access needs of its window. -/
inductive Right where
  | r | w | plainW | rwa | x
  deriving DecidableEq, Repr

def Window.grants (w : Window) : Right → Bool
  | .r => w.r
  | .w => w.w && !w.wonly
  | .plainW => w.w
  | .rwa => w.r && w.w && w.a
  | .x => w.x && !w.wonly

/-- The lines of host memory read anew at their next use, the bytes written in them apart: what the host has written before its doorbell
is seen after it (R163; log entry 81). -/
def State.seeHost (s : State) : State :=
  { s with basin := s.basin.map fun y => if blkFar y.1 && blkTarget y.1 == 2 then (y.1, { y.2 with filled := false }) else y }

/-- The host writes its own memory (R163; log entry 81): a byte that a Basin line holds as written by the device takes the host's value; of its
other bytes the line sees the new ones at once or, freely chosen, later. -/
def State.hostStore (s : State) (a : Nat) (bs : List Byte) : State :=
  let (now, s1) := s.freeBool
  let new (base i : Nat) : Option Byte := if a ≤ base + i then bs[base + i - a]? else none
  let line (y : Nat × Line) : Nat × Line :=
    let base := blkFrame y.1 * 65536 + blkHalf y.1 * 512
    if blkFar y.1 && blkTarget y.1 == 2 && decide (base < a + bs.length) && decide (a < base + 512) then
      (y.1, { y.2 with bytes := (y.2.bytes.zip y.2.fresh).zipIdx.map fun z => if z.1.2 then (new base z.2).getD z.1.1 else z.1.1
                       filled := y.2.filled && !now })
    else y
  { s1 with hostMem := writeBytes s1.hostMem a bs, basin := s1.basin.map line }

/-- The page's own rights (R119, R132). -/
def Leaf.grants (l : Leaf) : Right → Bool
  | .r => l.r
  | .w | .plainW => l.w
  | .rwa => l.r && l.w && l.a
  | .x => l.x

/-- The index and descriptor of the window that holds bytes `va` to `va + n − 1`, whatever its rights. -/
def State.windowAt (s : State) (ctx va n : Nat) : Option (Nat × Window) :=
  (s.ctxOf ctx).wins.find? fun x =>
    x.2.v && decide (x.2.base * 65536 ≤ va) && decide (va + n ≤ (x.2.base + x.2.size) * 65536)

/-- The check of R127 on one lane's bytes: bits [63:52] zero and one window that grants the right. -/
def State.windowOk (s : State) (ctx va n : Nat) (k : Right) : Bool :=
  decide (va < 2 ^ 52) && decide (va + n ≤ 2 ^ 52) &&
  (match s.windowAt ctx va n with
   | some x => x.2.grants k
   | none => false)

/-- The class of the window at an address: 0 LEASED, 1 ELASTIC, 2 FAR (R128). -/
def State.classAt (s : State) (ctx va : Nat) : Nat :=
  match s.windowAt ctx va 1 with
  | some x => x.2.cls
  | none => 0

/-! ### Records and translations made at once (R121, R125, R378) -/

/-- A record joins the context's fault queue in order; FAULT_RECORD_POST writes it to the ring (R378). -/
def State.postRecord (s : State) (ctx : Nat) (r : FqRec) : State :=
  let x := s.ctxOf ctx
  let r' := { r with seq := x.fqSeq, ctx := ctx }
  s.setCtx ctx { x with
    fqSeq := x.fqSeq + 1
    fqHeld := x.fqHeld ++ [r']
    fqOpen := if r.kind = 1 || r.kind = 2 || r.kind = 3 then x.fqOpen ++ [r'] else x.fqOpen }

/-- The work that an access belongs to, as a record names it (R378): all zero for the host, a peer and the front end. -/
structure Met where
  pc      : Word := 0
  team    : Nat := 0
  version : BitVec 3 := 0
  deriving DecidableEq, Repr, Inhabited

/-- The memory function's record of a refused access: MALFORMED names the page, SYNONYM the sector. -/
def State.postBadPage (s : State) (ctx va kind : Nat) (who : Met) : State :=
  let win := match s.windowAt ctx va 1 with | some w => w.1 | none => 0
  s.postRecord ctx { kind := kind, win := win, va := BitVec.ofNat 64 (if kind = 7 then va / 65536 * 65536 else va / 32 * 32),
                     pc := who.pc, team := BitVec.ofNat 64 who.team, version := who.version, part := partOf va }

/-- A translation made at once: for fetches, the front end, firmware and the host port. -/
inductive Xlat where
  | ok (l : Leaf)
  | absent
  | malformed
  | synonym
  /-- A page-table read does not come back (R408, R410). -/
  | wait
  deriving DecidableEq, Repr

/-- A translation, by a walk where the partition has none (R121): a malformed entry and a synonym are recorded (R378). -/
def State.translate (s : State) (ctx va : Nat) (who : Met := {}) : Xlat × State :=
  match (s.part (partOf va)).tlb.look (tlbKey ctx va) with
  | some l => (.ok l, s)
  | none =>
    match s.walk ctx va with
    | (.absent, s1) => (.absent, s1)
    | (.malformed, s1) => (.malformed, s1.postBadPage ctx va 7 who)
    | (.wait, s1) => (.wait, s1)
    | (.leaf l, s1) => if s1.synonym l va then (.synonym, s1.postBadPage ctx va 8 who) else (.ok l, s1.fillTlb ctx va l)

/-- The cause of a malformed entry's refusal (R121, R132). -/
def State.malformedCause (s : State) (ctx va : Nat) : BitVec 8 := if s.classAt ctx va = 0 then 0x08 else 0x03

/-- Whether a page grants a right to an access of a context (R132); far memory is reached only through FAR windows (R135; log entry 78), and no
program reaches a frame of a page-table pool or save area (R373; log entry 85). -/
def State.grants (s : State) (ctx va : Nat) (l : Leaf) (k : Right) : Bool :=
  l.grants k && (if l.far then s.classAt ctx va == 2 else !s.rawFrame l.frame)

/-! ### Scratchpad and Tarn places -/

/-- The size of a core's Tarn region of a launch (R114). -/
def State.tarnSize (s : State) (core lid : Nat) : Nat :=
  s.parcels.foldl (fun n x => if x.2.core == core && x.2.lid == lid && x.2.onCore then max n x.2.tarn else n) 0

def State.readScr (s : State) (core a n : Nat) : List Byte := readBytes (s.core core).scratch a n
def State.writeScr (s : State) (core a : Nat) (bs : List Byte) : State :=
  s.setCore core { s.core core with scratch := writeBytes (s.core core).scratch a bs }

/-! ### L1 sectors (R138, R149) -/

/-- Key of a 32-byte sector in an L1 or a control core's data cache: context and sector of the address. -/
def sectorKey (ctx va : Nat) : Nat := ctx * 2 ^ 47 + va / 32

/-- The 32 bytes of a sector with bytes written into it. -/
def patchSector (x : List Byte) (off : Nat) (bs : List (Nat × Byte)) : List Byte :=
  bs.foldl (fun b y => b.set (off + y.1) y.2) x

end Sys2Proof.Machine
end

