-- ==== Sys2Proof/Machine/Ops.lean ====
section
/-! DEFINITION. Shared operations: requests and their order (R144, R146), waking, the Basin's watch filter (R69, R204),
named barriers (R65), ends of teams and parcels (R56, R65, R420), taking a trap (R302) and returning from one (R303), in
the team stream and in the control stream (R313). -/

namespace Sys2Proof.Machine

/-! ### Time and readiness (R50, R61, R62) -/

/-- The greatest ready stamp of a slot (R62). -/
def Slot.maxStamp (x : Slot) : Nat := x.entries.foldl (fun n e => max n e.2.stamp) 0

/-- An entry becomes ready now (R61); a yield moves its stamp when it is next fully ready (R62). -/
def State.makeReady (s : State) (c sl e : Nat) : State :=
  let now := (s.core c).cycle
  s.setEntry c sl e { s.entry c sl e with st := .ready, since := now, stamp := now }

/-- A run-ahead episode ends: the entry waits at the restore rank (R75, R76). -/
def State.endRunAhead (s : State) (c sl e : Nat) : State :=
  match (s.entry c sl e).st with
  | .runahead => s.setEntry c sl e { s.entry c sl e with st := .restore, ibuf := none }
  | _ => s

/-- Every run-ahead episode of a slot ends (R75). -/
def State.endRunAheads (s : State) (c sl : Nat) : State :=
  ((s.slot c sl).entries.map Prod.fst).foldl (fun s e => s.endRunAhead c sl e) s

/-- A sleeping entry's instruction completes: it goes on at its next PC, when its stall count has elapsed (R50). -/
def State.wakeEnt (s : State) (c sl e : Nat) : State :=
  let x := s.entry c sl e
  let s1 := s.setEntry c sl e { x with pc := x.npc, ibuf := none, ustep := 0 }
  if x.till ≤ (s.core c).cycle then s1.makeReady c sl e
  else s1.setEntry c sl e { x with pc := x.npc, ibuf := none, ustep := 0, st := .stalled x.till }

/-- A sleeping entry issues its instruction again. -/
def State.rewake (s : State) (c sl e : Nat) : State := s.makeReady c sl e

/-- Every place (core, slot, entry) of the split tables. -/
def State.places (s : State) : List (Nat × Nat × Nat) :=
  s.cores.flatMap fun c => c.2.slots.flatMap fun x => x.2.entries.map fun e => (c.1, x.1, e.1)

/-- The places of a core. -/
def State.placesOn (s : State) (c : Nat) : List (Nat × Nat × Nat) :=
  (s.core c).slots.flatMap fun x => x.2.entries.map fun e => (c, x.1, e.1)

/-- The control core's stream goes on at its next PC. -/
def State.wakeCtl (s : State) (cl : Nat) : State :=
  let x := s.ctl cl
  s.setCtl cl { x with pc := x.npc, ibuf := none,
                       st := if x.till ≤ x.cycle then .ready else .stalled x.till }

/-! ### L1 and data caches (R149, R150) -/

/-- The whole L1 of a core, or data cache of a control core (ports 256 upward), invalidated; fills in flight are not
installed (R149). -/
def State.invalidate (s : State) (port : Nat) : State :=
  let s1 := { s with reqs := s.reqs.map fun (r : Req) => if r.port = port then { r with noFill := true } else r }
  if port < 256 then s1.setCore port { s1.core port with l1 := [] }
  else s1.setCtl (port - 256) { s1.ctl (port - 256) with dcache := [] }

def State.cache (s : State) (port : Nat) : Store (List Byte) :=
  if port < 256 then (s.core port).l1 else (s.ctl (port - 256)).dcache

def State.setCache (s : State) (port : Nat) (m : Store (List Byte)) : State :=
  if port < 256 then s.setCore port { s.core port with l1 := m }
  else s.setCtl (port - 256) { s.ctl (port - 256) with dcache := m }

/-- An L1 with room for a sector (R16, R138): 128-byte lines of four sectors, 128 sets of 8 ways; a full set gives up the line that
`choice` names (log entry 11). -/
def l1Room (choice : Nat) (m : Store (List Byte)) (key : Nat) : Store (List Byte) :=
  let ways := ((m.filter fun y => y.1 / 4 % 128 == key / 4 % 128).map fun y => y.1 / 4).dedup
  if ways.contains (key / 4) || decide (ways.length < 8) then m
  else m.filter fun y => y.1 / 4 != ways.getD (choice % ways.length) 0

/-- Any other cache with room for a sector: `cap` sectors in all (R16; log entry 11). -/
def cacheRoom (cap choice : Nat) (m : Store (List Byte)) (key : Nat) : Store (List Byte) :=
  if (Store.look m key).isSome || decide (m.length < cap) then m else m.erase ((m.map Prod.fst).getD (choice % m.length) 0)

/-- A sector put into the L1 of a core, or the data cache of a control core: 128 KiB and 32 KiB (R16). -/
def State.putSector (s : State) (port key : Nat) (bs : List Byte) : State :=
  let (b, s1) := s.free64
  let m := s1.cache port
  s1.setCache port ((if port < 256 then l1Room b.toNat m key else cacheRoom 1024 b.toNat m key).put key bs)

/-- A write goes through: a present sector is updated, none is allocated (R149). -/
def State.cacheStore (s : State) (port ctx va : Nat) (bs : List (Nat × Byte)) : State :=
  match (s.cache port).look (sectorKey ctx va) with
  | some x => s.setCache port ((s.cache port).put (sectorKey ctx va) (patchSector x 0 bs))
  | none => s

/-- An atomic invalidates its sector (R149). -/
def State.cacheDrop (s : State) (port ctx va : Nat) : State :=
  s.setCache port ((s.cache port).erase (sectorKey ctx va))

/-! ### Requests (R144, R146) -/

def ReqKind.isWrite : ReqKind → Bool
  | .store _ | .atomic .. | .copyOut .. | .doorbell _ => true
  | _ => false

def ReqKind.isLoad : ReqKind → Bool
  | .load .. => true
  | .atomic _ _ _ ret _ _ => ret.isSome
  | _ => false

def ReqKind.isHint : ReqKind → Bool
  | .hint _ => true
  | _ => false

/-- A request to the global space. -/
def Req.global (r : Req) : Bool := match r.tgt with | .part _ => true | _ => false

/-- A request to the global space or to Pond. -/
def Req.shared (r : Req) : Bool := match r.tgt with | .part _ | .pond _ => true | .bank _ => false

/-- A new request at the end of the issue order. -/
def State.addReq (s : State) (r : Req) : Nat × State :=
  (s.ids, { s with ids := s.ids + 1, reqs := s.reqs ++ [{ r with id := s.ids, age := s.ids }] })

def State.req? (s : State) (id : Nat) : Option Req := s.reqs.find? fun r => r.id == id
def State.dropReq (s : State) (id : Nat) : State := { s with reqs := s.reqs.filter fun r => r.id != id }
def State.setReq (s : State) (r : Req) : State := { s with reqs := s.reqs.map fun x => if x.id == r.id then r else x }

/-- Whether the issue order binds a request (R146): a hint is ordered by nothing (R252), nor is the way of data back to a core. -/
def Req.ordered (r : Req) : Bool := match r.kind with
  | .hint _ | .arrive .. => false
  | _ => true

/-- Whether a request is still on its way, and so keeps later ones of its core and target behind it (R146). -/
def Req.moving (r : Req) : Bool := r.st == .sent && r.ordered

/-- Whether two requests go to one place: a partition, whose Pond it is too (R116, R146), or a core's banks (R160). -/
def Tgt.meets : Tgt → Tgt → Bool
  | .part n, .part m | .part n, .pond m | .pond n, .part m | .pond n, .pond m => n == m
  | .bank c, .bank d => c == d
  | _, _ => false

/-- Whether a request is first in the issue order among those of its core to its place (R146, R160); a hint is ordered by nothing
(R252), nor is data that comes back. -/
def State.firstInOrder (s : State) (r : Req) : Bool :=
  !r.ordered || !(s.reqs.takeWhile (fun x => x.id != r.id)).any fun x => x.port == r.port && x.tgt.meets r.tgt && x.moving

/-- A team's unacknowledged writes to `.g` and `.p` (R134, R151, R161): performed ones are gone from the list, and a write that a release
still holds has not been issued. -/
def State.teamWrites (s : State) (src : Src) : List Req :=
  s.reqs.filter fun r => decide (r.src = src) && r.kind.isWrite && r.shared &&
    (match r.st with | .refused .. | .held => false | _ => true)

/-- A request in its place among older and younger ones. -/
def insertAge (r : Req) : List Req → List Req
  | [] => [r]
  | q :: qs => if q.age ≤ r.age then q :: insertAge r qs else r :: q :: qs

/-- A team's refused writes, oldest first (R134). -/
def State.teamRefused (s : State) (src : Src) : List Req :=
  (s.reqs.filter fun r => decide (r.src = src) && r.kind.isWrite && (match r.st with | .refused .. => true | _ => false)).foldl
    (fun l r => insertAge r l) []

/-- The outstanding loads that an entry counts as earlier (R150, R151). -/
def State.entryLoads (s : State) (src : Src) (e : Nat) : List Req :=
  s.reqs.filter fun r => decide (r.src = src) && r.kind.isLoad && r.st != .held && r.owners.contains e

/-- A split: the new entry counts the parent's loads as earlier (R143). -/
def State.shareOwners (s : State) (src : Src) (e n : Nat) : State :=
  { s with reqs := s.reqs.map fun r => if decide (r.src = src) && r.owners.contains e then { r with owners := n :: r.owners } else r }

/-- A fusion: the staying entry counts a freed sibling's loads as earlier (R143). -/
def State.moveOwners (s : State) (src : Src) (e n : Nat) : State :=
  { s with reqs := s.reqs.map fun r =>
      if decide (r.src = src) && r.owners.contains e then { r with owners := n :: r.owners.filter (· != e) } else r }

/-- The entries of a source that sleep on requests of their own: those all of whose requests are gone are woken, an
acquire invalidating the cache first (R150). -/
def State.notify (s : State) (src : Src) : State :=
  let alive (l : List Nat) (s : State) : Bool :=
    s.reqs.any fun r => l.contains r.id && (match r.st with | .refused .. => false | _ => true)
  match src with
  | .team c sl t =>
    ((s.slot c sl).entriesOf t).foldl (fun s e =>
      match (s.entry c sl e).st with
      | .asleep (.writes l) => if alive l s then s else s.wakeEnt c sl e
      | .asleep (.acquire l) => if alive l s then s else (s.invalidate c).wakeEnt c sl e
      | _ => s) s
  | .control cl =>
    match (s.ctl cl).st with
    | .asleep (.writes l) => if alive l s then s else s.wakeCtl cl
    | .asleep (.acquire l) => if alive l s then s else (s.invalidate (256 + cl)).wakeCtl cl
    | _ => s
  | _ => s

/-- The bytes that an outbound copy's lane blocks read, by destination address, the higher-numbered lane's where two lanes write one
byte (R254); a switched-out parcel's copies read its image (R386). -/
def State.copyBytes (s : State) (src : Src) (copy : Nat) (blks : List (Nat × Nat × Nat)) : List (Nat × Byte) :=
  let take (copies : List Copy) (byte : Nat → Byte) : List (Nat × Byte) :=
    match copies.find? fun k => k.id == copy with
    | none => []
    | some k => blks.foldl (fun (m : Store Byte) b =>
        match k.blks.find? fun y => y.lane == b.1 with
        | none => m
        | some y => ((y.offs.drop (b.2.1 - y.addr)).take b.2.2).zipIdx.foldl (fun (m : Store Byte) o => Store.put m (b.2.1 + o.2) (byte o.1)) m) []
  match src with
  | .team c sl t =>
    let x := s.team c sl t
    take x.copies fun o => (s.core c).scratch.get 0 ((s.parcel x.pid).base + o)
  | .away pid i =>
    (match (s.parcel pid).image with
     | none => []
     | some im => (match im.teams.find? fun y => y.team.index == i with
        | none => []
        | some y => take y.team.copies fun o => im.scratch.get 0 o))
  | _ => []

/-- Requests of a source that ends: writes already issued go on (R376, R420), an outbound copy with the bytes its scratchpad then
holds; loads, arrivals and refused writes end with it (R131; log entry 36). -/
def State.orphan (s : State) (src : Src) : State :=
  { s with reqs := s.reqs.filterMap fun (r : Req) =>
      if r.src ≠ src then some r
      else match r.st, r.kind with
        | .refused .., _ | .held, _ => none
        | _, .store _ | _, .doorbell _ => some { r with src := .gone }
        | _, .barb op _ => if op = 2 then none else some { r with src := .gone }
        | _, .atomic op ty ls _ b v => some { r with src := .gone, kind := .atomic op ty ls none b v }
        | _, .copyOut k blks => some { r with src := .gone, kind := .store ((s.copyBytes src k blks).map fun b => (b.1 - r.va, b.2)) }
        | _, _ => none }

/-! ### Marks (R132, R136) -/

/-- Whether a latency record is of a lane of a register. -/
def Late.of (r : Late) (cls : RCls) (reg lane : Nat) : Bool := r.cls == cls && r.reg == reg && r.lane == lane

/-- A mark on a lane of a team's register. -/
def State.addMark (s : State) (src : Src) (m : Mark) : State :=
  match src with
  | .team c sl t =>
    let x := s.team c sl t
    s.setTeam c sl t { x with marks := x.marks ++ [m], late := x.late.filter fun r => !r.of m.cls m.reg m.lane }
  | .control cl =>
    let x := s.ctl cl
    s.setCtl cl { x with marks := x.marks ++ [m], late := x.late.filter fun r => !r.of .s m.reg 0 }
  | _ => s

/-- Marks on the destination lanes of a load (R132). -/
def State.markDest (s : State) (src : Src) (d : Dest) (cause : BitVec 8) (pc : Word) : State :=
  let regs := (if d.ty.is64 && d.cls == .v then 2 else 1) * d.n
  d.lanes.foldl (fun s l =>
    (List.range regs).foldl (fun s j =>
      s.addMark src { cls := d.cls, reg := d.reg + j, lane := l.1, cause := cause, va := BitVec.ofNat 64 l.2, pc := pc }) s) s

/-- A load's element extended as its type says (R80): to 32 bits in a lane register, to 64 in a c register (R274). -/
def extend (ty : Ty) (n v : Nat) : Nat :=
  if ty.isSigned && decide (2 ^ (ty.bits - 1) ≤ v % 2 ^ ty.bits) && decide (ty.bits < n) then
    v % 2 ^ ty.bits + 2 ^ n - 2 ^ ty.bits
  else v % 2 ^ ty.bits

/-- Data that arrives for a checkpointed register is what the restore then gives it (R74, R76). -/
def State.patchCheckpoint (s : State) (c sl t : Nat) (ws : List (Nat × Word)) : State :=
  ((s.slot c sl).entriesOf t).foldl (fun s e =>
    let x := s.entry c sl e
    match x.ra with
    | none => s
    | some ra =>
      let v := ws.foldl (fun (m : Store Word) w => if (Store.look m w.1).isSome then Store.put m w.1 w.2 else m) ra.v
      s.setEntry c sl e { x with ra := some { ra with v := v } }) s

/-- A lane's loaded bytes written into its destination registers (R80, R244); their marks and the latency records of earlier writes
go. -/
def State.writeDest (s : State) (src : Src) (d : Dest) (lane : Nat) (bs : List Byte) : State :=
  match src with
  | .team c sl t =>
    let x := s.team c sl t
    let step := if d.ty.is64 then 2 else 1
    let ws := (List.range d.n).flatMap fun j =>
      let el := natOfBytes ((bs.drop (j * d.ty.bytes)).take d.ty.bytes)
      let key := lane * 256 + d.reg + step * j
      if d.ty.is64 then [(key, BitVec.ofNat 32 el), (key + 1, BitVec.ofNat 32 (el / 2 ^ 32))]
      else [(key, BitVec.ofNat 32 (extend d.ty 32 el))]
    (s.patchCheckpoint c sl t ws).setTeam c sl t { x with
      v := x.v.setAll 0 ws
      late := x.late.filter fun r => !(r.cls == .v && r.lane == lane && decide (d.reg ≤ r.reg) && decide (r.reg < d.reg + step * d.n))
      marks := x.marks.filter fun m => !(m.cls == .v && m.lane == lane && decide (d.reg ≤ m.reg) && decide (m.reg < d.reg + step * d.n)) }
  | .control cl =>
    let x := s.ctl cl
    let el := natOfBytes (bs.take d.ty.bytes)
    s.setCtl cl { x with
      c := if d.reg = 0 then x.c else x.c.set 0 d.reg (BitVec.ofNat 64 (extend d.ty 64 el))
      late := x.late.filter fun r => !r.of .s d.reg 0
      marks := x.marks.filter fun m => m.reg != d.reg }
  | _ => s

/-! ### The watch filter and monitors (R69, R204) -/

/-- Wakes the sub-teams of a core asleep on a monitored sector, with a status (R203): status 1 is an acquire. The status is
written in the lanes that were active at the `MONWAIT`; p0 keeps one (R171). -/
def State.wakeMonitor (s : State) (c sl e : Nat) (d : Nat) (one : Bool) : State :=
  let x := s.entry c sl e
  let t := s.team c sl x.team
  let p := if d = 0 then t.p else (lanesOf x.act).foldl (fun (m : Store (BitVec 16)) l =>
    let w := m.get 0 l
    m.set 0 l (if one then w ||| BitVec.ofNat 16 (2 ^ d) else w &&& ~~~(BitVec.ofNat 16 (2 ^ d)))) t.p
  let s1 := s.setTeam c sl x.team { t with p := p, late := t.late.filter fun r => !(r.cls == .p && r.reg == d && inMask x.act r.lane) }
  let s2 := if one then s1.invalidate c else s1
  s2.wakeEnt c sl e

/-- A (context, sector) pair leaves the watch filter when no core has a monitor on it any more: the filter holds sectors with armed monitors
(R69). -/
def State.disarm (s : State) (m : Nat × Nat) : State :=
  let n := partOf (32 * m.2)
  if s.cores.any fun c => c.2.monitors.contains m then s
  else s.setPart n { s.part n with watch := (s.part n).watch.filter (· != m) }

/-- Removes a core's monitor entry when no sub-team sleeps on it any more, and what then watches nothing from the filter (R69). -/
def State.trimMonitors (s : State) (c : Nat) : State :=
  let used (m : Nat × Nat) : Bool := (s.placesOn c).any fun p =>
    match (s.entry p.1 p.2.1 p.2.2).st with
    | .asleep (.mon sec _ _) =>
        let t := s.team p.1 p.2.1 (s.entry p.1 p.2.1 p.2.2).team
        decide ((s.launchOf (s.parcel t.pid).lid).ctx = m.1) && sec == m.2
    | _ => false
  let gone := (s.core c).monitors.filter fun m => !used m
  gone.foldl State.disarm (s.setCore c { s.core c with monitors := (s.core c).monitors.filter used })

/-- Wakes every sub-team of the device asleep on a sector of a context, with a status. -/
def State.wakeSector (s : State) (ctx sec : Nat) (one : Bool) : State :=
  s.places.foldl (fun s p =>
    match (s.entry p.1 p.2.1 p.2.2).st with
    | .asleep (.mon sec' d _) =>
        let t := s.team p.1 p.2.1 (s.entry p.1 p.2.1 p.2.2).team
        if (s.launchOf (s.parcel t.pid).lid).ctx = ctx && sec' = sec then
          (s.wakeMonitor p.1 p.2.1 p.2.2 d one).trimMonitors p.1
        else s
    | _ => s) s

/-- A write to a sector performed at the Basin (R204): every watched (context, sector) pair that names the same bytes
fires and leaves the filter. -/
def State.sectorWritten (s : State) (ctx va : Nat) (l : Leaf) : State :=
  let n := partOf va
  let p := s.part n
  let hit (m : Nat × Nat) : Bool := m.2 == va / 32 &&
    (m.1 == ctx || (match p.tlb.look (tlbKey m.1 va) with | some l' => Leaf.frame l' == l.frame && Leaf.far l' == l.far | none => false))
  let s1 := s.setPart n { p with watch := p.watch.filter fun m => !hit m }
  (p.watch.filter hit).foldl (fun s m => s.wakeSector m.1 m.2 true) s1

/-- A write performed at the point of coherence of a global address, with the monitors it fires (R144, R204). -/
def State.performWrite (s : State) (ctx va : Nat) (l : Leaf) (bs : List (Nat × Byte)) : State :=
  (s.writeG l va bs).sectorWritten ctx va l

/-! ### Named barriers (R64 to R66) -/

/-- The bit of a team in a barrier's sets: 32·slot + position (R64). -/
def teamBit (sl t : Nat) : BitVec 128 := BitVec.ofNat 128 (2 ^ (32 * sl + t))

def Bar.complete (b : Bar) : Bool := decide (b.expected ≠ 0) && decide (b.expected &&& ~~~b.arrived = 0)

/-- Completes barrier `n` of a parcel when its arrival set contains its expected set (R65): the sleepers wake, the arrival
set clears. -/
def State.checkBar (s : State) (pid n : Nat) : State :=
  let p := s.parcel pid
  match p.bars[n]? with
  | none => s
  | some b =>
    if b.complete then
      let s1 := s.setParcel pid { p with bars := p.bars.set n { b with arrived := 0 } }
      (s1.placesOn p.core).foldl (fun s q =>
        let x := s.entry q.1 q.2.1 q.2.2
        if (s.team q.1 q.2.1 x.team).pid = pid then
          match x.st with
          | .asleep (.bar n') => if n' = n then s.wakeEnt q.1 q.2.1 q.2.2 else s
          | _ => s
        else s) s1
    else s

/-- A change of a barrier's sets, and the completion it can bring (R65). -/
def State.updateBar (s : State) (pid n : Nat) (f : Bar → Bar) : State :=
  let p := s.parcel pid
  match p.bars[n]? with
  | none => s
  | some b => (s.setParcel pid { p with bars := p.bars.set n (f b) }).checkBar pid n

/-! ### Byte-count barriers (R263) -/

/-- Wakes the sleepers of `BAR.WAITB` on an object of a core that a write of `n` bytes touched, where its PHASE now differs from
the phase they name (R263). -/
def State.phaseCheck (s : State) (core a n : Nat) : State :=
  let hit (c addr : Nat) : Bool := c == core && decide (addr < a + n) && decide (a < addr + 16)
  let now (addr : Nat) : Word := BitVec.ofNat 32 (natOfBytes (s.readScr core (addr + 8) 4))
  let s1 := s.places.foldl (fun s p =>
    match (s.entry p.1 p.2.1 p.2.2).st with
    | .asleep (.phase c addr ph) => if hit c addr && now addr != ph then s.wakeEnt p.1 p.2.1 p.2.2 else s
    | _ => s) s
  s1.ctls.foldl (fun s c =>
    match c.2.st with
    | .asleep (.phase co addr ph) => if hit co addr && now addr != ph then s.wakeCtl c.1 else s
    | _ => s) s1

/-- Bytes written into a core's scratchpad, with the sleepers they wake. -/
def State.storeScr (s : State) (core a : Nat) (bs : List Byte) : State :=
  (s.writeScr core a bs).phaseCheck core a bs.length

/-! ### Stopping work (R376, R420) -/

/-- A sub-team ends: where it was pending it counts as ended without transferring (R328). -/
def State.endPending (s : State) (x : Entry) : State :=
  x.preqs.foldl (fun s r => match s.queues.look r.1 with
    | some q => s.setQueue r.1 { q with live := q.live.map fun (p : Pkt) => if p.index = r.2 then { p with count := p.count + 1 } else p }
    | none => s) s

/-- Removes a parcel's teams and entries from its core as for a flush: writes already issued go on (R376, R420). -/
def State.clearTeams (s : State) (pid : Nat) : State :=
  let c := (s.parcel pid).core
  let k := s.core c
  let slots := k.slots.map fun x =>
    let mine (t : Nat) : Bool := (x.2.teams.get {} t).pid == pid && (x.2.teams.look t).isSome
    (x.1, { x.2 with entries := x.2.entries.filter (fun e => !mine e.2.team), teams := x.2.teams.filter (fun t => t.2.pid != pid) })
  let gone : List Src := k.slots.flatMap fun x => (x.2.teams.filter fun t => t.2.pid == pid).map fun t => Src.team c x.1 t.1
  let s0 := gone.foldl State.orphan s
  let s1 := s0.setCore c { s0.core c with slots := slots }
  s1.trimMonitors c

/-- A control stream asleep in `WFI` wakes on an event (R277). -/
def State.wfiEvent (s : State) (cl : Nat) : State :=
  match (s.ctl cl).st with
  | .asleep (.wfi _) => s.wakeCtl cl
  | _ => s

/-- The translation tables of the Torash Link ports changed (R388). -/
def State.mapPtt (s : State) (f : List Ptt → List Ptt) : State :=
  (List.range 16).foldl (fun s i => s.setPort i { s.port i with ptt := f (s.port i).ptt }) s

/-- The bounce rings without a parcel's writes, and with credit again (R388). -/
def State.dropBounce (s : State) (pid : Nat) : State :=
  (List.range 16).foldl (fun s i =>
    let p := s.port i
    if p.ring.any fun w => w.pid == pid then s.setPort i { p with ring := p.ring.filter fun w => w.pid != pid, withheld := [] } else s) s

/-- A parcel ends (R201, R420): its place on the core is free, a PAIR signature is kept, `%pmask` changes (R270). -/
def State.endParcel (s : State) (pid : Nat) : State :=
  let p := s.parcel pid
  let here := (s.core p.core).slots.flatMap fun x => (x.2.entries.filter fun e =>
    match x.2.teams.look e.2.team with | some t => t.pid == pid | none => false).map Prod.snd
  let away := match p.image with | some im => im.teams.flatMap SavedTeam.entries | none => []
  -- of a flushed parcel, each of its teams starts pending (R327, R382)
  let due : List Entry := if p.st == .flushed then List.replicate p.teams { preqs := p.preqs } else []
  let s0 := ((if p.onCore then here else []) ++ away ++ due).foldl State.endPending s
  let s1 := s0.clearTeams pid
  let s2 := (List.range 33).foldl (fun s i => s.orphan (.away pid i)) s1
  let s3 := s2.setParcel pid { p with st := .ended, bars := [], pend := none, preqs := [], image := p.image.map fun (im : Image) => { im with teams := [], control := none } }
  ((s3.mapPtt fun t => t.filter fun y => y.pid != pid).dropBounce pid).wfiEvent (clusterOf p.core)

/-- Ends a control-stream run (R71, R201): the unfinished commands stay to finish. -/
def State.endControl (s : State) (cl : Nat) : State :=
  let s1 := s.orphan (.control cl)
  s1.setCtl cl { s1.ctl cl with st := .off, ibuf := none, handler := false }

/-- Stops every parcel and control stream of a launch as for a flush (R376, R420). -/
def State.stopLaunch (s : State) (lid why : Nat) : State :=
  let l := s.launchOf lid
  let s1 := s.setLaunch lid { l with ended := some why }
  let s2 := s1.parcels.foldl (fun s x => if x.2.lid = lid && !(x.2.st == .ended) then s.endParcel x.1 else s) s1
  s2.ctls.foldl (fun s x => if x.2.lid = lid && x.2.st != .off then s.endControl x.1 else s) s2

/-! ### The stack area (R58, R59) -/

def StkEntry.isJoin (x : StkEntry) : Bool := x.kind == 0
def StkEntry.isCall (x : StkEntry) : Bool := x.kind == 1
def StkEntry.isTrap (x : StkEntry) : Bool := x.kind == 2
def StkEntry.isDefer (x : StkEntry) : Bool := x.kind == 3

/-- Size of a team's trap frame without deferred-fault records, rounded to the 16-byte alignment of frames (R302). -/
def frameSize (rows nrec : Nat) : Nat := (128 + 4 * rows + 32 * nrec + 15) / 16 * 16

/-- The intervals of the stack area that a convergence stack uses. -/
def StkEntry.spans (rows : Nat) (x : StkEntry) : List (Nat × Nat) :=
  (match x.place with | some o => [(o, 16)] | none => []) ++
  (match x.recAt with | some o => [(o, (4 * rows + 15) / 16 * 16)] | none => []) ++
  (if x.isTrap then [(x.aux.toNat, x.len)] else [])

/-- Every interval that the sub-teams of a team use. -/
def State.spans (s : State) (c sl t : Nat) : List (Nat × Nat) :=
  let rows := 2 ^ (s.team c sl t).w
  ((s.slot c sl).entriesOf t).flatMap fun e => (s.entry c sl e).stack.flatMap (StkEntry.spans rows)

/-- The segments that some sub-team of a team holds or uses. -/
def State.usedSegs (s : State) (c sl t : Nat) : List Nat :=
  ((s.slot c sl).entriesOf t).flatMap (fun e => (s.entry c sl e).segs) ++ (s.spans c sl t).map (fun x => x.1 / 4096)

/-- Number of 4 KiB segments of a team's stack area. -/
def Team.segCount (t : Team) : Nat := (t.stklim.toNat - t.stkbase.toNat) / 4096

/-- Room for `n` bytes in a sub-team's segments, lowest first, or in a new lowest free segment (R58): the offset and the
segments then held. -/
def State.stackRoom (s : State) (c sl e n : Nat) : Option (Nat × List Nat) :=
  let x := s.entry c sl e
  let used := s.spans c sl x.team
  let fits (o : Nat) : Bool := o / 4096 == (o + n - 1) / 4096 && used.all fun u => decide (o + n ≤ u.1) || decide (u.1 + u.2 ≤ o)
  let cands (g : Nat) : List Nat := (4096 * g) :: (used.map fun u => (u.1 + u.2 + 15) / 16 * 16).filter (fun o => o / 4096 == g)
  match (x.segs.flatMap cands).filter fits with
  | o :: _ => some (o, x.segs)
  | [] =>
    match (List.range (s.team c sl x.team).segCount).find? fun g => !(s.usedSegs c sl x.team).contains g with
    | some g => some (4096 * g, x.segs ++ [g])
    | none => none

/-- Pushes an entry onto a sub-team's stack (R58, R59): a lane-word record for a team wider than one row, and a place for
the entry that leaves the top 8. `none` when a segment is needed and none is free. -/
def State.push (s : State) (c sl e : Nat) (x : StkEntry) : Option State :=
  let rows := 2 ^ (s.team c sl (s.entry c sl e).team).w
  let withRec : Option (StkEntry × State) :=
    if (x.isJoin || x.isDefer) && decide (1 < rows) then
      match s.stackRoom c sl e (4 * rows) with
      | some (o, g) => some ({ x with recAt := some o }, s.setEntry c sl e { s.entry c sl e with segs := g })
      | none => none
    else some (x, s)
  match withRec with
  | none => none
  | some (x1, s1) =>
    -- the record is in use before the next place is sought
    let s2 := s1.setEntry c sl e { s1.entry c sl e with stack := x1 :: (s1.entry c sl e).stack }
    match (s2.entry c sl e).stack[8]? with
    | none => some s2
    | some deep =>
      if deep.place.isSome then some s2
      else match s2.stackRoom c sl e 16 with
        | some (o, g) =>
          let y := s2.entry c sl e
          some (s2.setEntry c sl e { y with stack := y.stack.set 8 { deep with place := some o }, segs := g })
        | none => none

/-- The top entry popped: places and segments that nothing uses any more are free again. -/
def State.popTop (s : State) (c sl e : Nat) : State :=
  let x := s.entry c sl e
  let s1 := s.setEntry c sl e { x with stack := x.stack.drop 1 }
  let used := (s1.spans c sl x.team).map fun u => u.1 / 4096
  s1.setEntry c sl e { x with stack := x.stack.drop 1, segs := x.segs.filter fun g => used.contains g }

/-- An entry as its 16 bytes (R59). -/
def StkEntry.bytes (rows : Nat) (x : StkEntry) : List Byte :=
  let aux : Nat := if x.isJoin || x.isDefer then (if rows = 1 then (x.words.headD 0).toNat else x.recAt.getD 0) else x.aux.toNat
  bytesOfNat 16 (x.kind.toNat + 16 * x.k.toNat + 2 ^ 16 * x.split.toNat + 2 ^ 32 * x.pc.toNat +
    2 ^ 64 * (if x.isJoin || x.isDefer then (rowMask x.words).toNat else 0) + 2 ^ 96 * aux)

/-- A convergence-stack entry read back from its 16 bytes and its record (R59); it keeps its place. -/
def StkEntry.ofBytes (rows : Nat) (y : StkEntry) (bs recd : List Byte) : StkEntry :=
  let n := natOfBytes bs
  let kind : BitVec 4 := BitVec.ofNat 4 n
  let aux := bitsOf n 127 96
  let mask := bitsOf n 95 64
  let words : List Word := (List.range rows).map fun r =>
    if mask.testBit r then BitVec.ofNat 32 (if rows = 1 then aux else natOfBytes ((recd.drop (4 * r)).take 4)) else 0
  { y with kind := kind, k := BitVec.ofNat 12 (bitsOf n 15 4), split := BitVec.ofNat 16 (bitsOf n 31 16), pc := BitVec.ofNat 32 (bitsOf n 63 32),
           words := if kind = 0 || kind = 3 then words else [], aux := BitVec.ofNat 32 (if kind = 2 then aux else 0), spill := false }

/-! ### Records and frames as bytes -/

/-- The 32 bytes of a record (R133, R272). -/
def FRec.encode (r : FRec) : List Byte :=
  if r.engine then
    bytesOfNat 32 (r.cause.toNat + 2 ^ 8 * r.core + 2 ^ 16 * r.op9 + 2 ^ 32 * r.eseq.toNat + 2 ^ 64 * r.pc.toNat +
      2 ^ 128 * (r.va / 32 * 32) + 2 ^ 192 * (r.lost % 2 ^ 32))
  else
    bytesOfNat 32 (r.cause.toNat + 2 ^ 8 * r.state.toNat + 2 ^ 16 * r.part + 2 ^ 22 * (r.park % 64) +
      2 ^ 32 * r.bytes.toNat + 2 ^ 64 * (r.va / 32 * 32 % 2 ^ 52) + 2 ^ 116 * r.row + 2 ^ 121 * r.version.toNat +
      2 ^ 128 * r.pc.toNat + 2 ^ 160 * r.lanes.toNat + 2 ^ 192 * (r.team % 2 ^ 64))

/-- What a trap delivers beside the sub-team's own state (R301, R302). -/
structure TrapInfo where
  cause : BitVec 8
  row   : Nat := 0
  lanes : Word := 0
  code  : Word := 0
  va    : Dword := 0
  /-- The resume PC is the next PC (SOFT, BREAK of `BRK`, XFERFAIL). -/
  skip  : Bool := false
  recs  : List FRec := []
  more  : Bool := false
  ustep : BitVec 8 := 0
  byCmp : Bool := false
  /-- YLD of an instruction that has completed with its trap, and after which the sub-team resumes (R62). -/
  yld   : Bool := false
  deriving DecidableEq, Repr, Inhabited

/-- The 128 bytes of a trap frame, its lane words and records (R302). -/
def frameBytes (ti : TrapInfo) (nest : Bool) (pc npc : Word) (mask : List Word) (version : BitVec 3) (words : List Word) :
    List Byte :=
  bytesOfNat 128 (ti.cause.toNat + 2 ^ 8 * words.length + 2 ^ 16 * ti.row + 2 ^ 24 * nest.toNat + 2 ^ 25 * ti.more.toNat +
    2 ^ 32 * pc.toNat + 2 ^ 64 * npc.toNat + 2 ^ 96 * ti.code.toNat + 2 ^ 128 * (rowMask mask).toNat +
    2 ^ 160 * ti.lanes.toNat + 2 ^ 192 * ti.va.toNat + 2 ^ 256 * ti.ustep.toNat + 2 ^ 264 * version.toNat +
    2 ^ 272 * ti.recs.length + 2 ^ 384 * (words.zipIdx.foldl (fun n w => n + w.1.toNat * 2 ^ (32 * w.2)) 0)) ++
  mask.flatMap bytesOfWord ++ ti.recs.flatMap FRec.encode

/-- A byte list cut at 32-byte sectors of the address it is written to. -/
def sectorsOf (va : Nat) (bs : List Byte) : List (Nat × List (Nat × Byte)) :=
  let first := va / 32
  let last := (va + bs.length - 1) / 32
  if bs.isEmpty then [] else
  (List.range (last + 1 - first)).map fun i =>
    let sec := (first + i) * 32
    (sec, ((List.range 32).filterMap fun o =>
      if va ≤ sec + o && sec + o < va + bs.length then some (o, bs.getD (sec + o - va) 0) else none))

/-- Store requests of a source for bytes at a global address (one per sector, R138), as the microcode's own writes; a refused one is
reported with the source's PC, version and team number (R133). -/
def State.sendBytes (s : State) (src : Src) (port ctx lid va : Nat) (pc : Word) (version : BitVec 3) (gteam : Nat) (bs : List Byte) :
    List Nat × State :=
  (sectorsOf va bs).foldl (fun acc x =>
    let (id, s1) := acc.2.addReq
      { id := 0, kind := .store x.2, src := src, port := port, owners := [], ctx := ctx, lid := lid,
        tgt := .part (partOf x.1), va := x.1, pc := pc, version := version, row := 0, gteam := gteam, lanes := 0 }
    (acc.1 ++ [id], s1.cacheStore port ctx x.1 x.2)) ([], s)

/-! ### Taking a trap (R302) -/

/-- Whether a sub-team is in handler state (R298). -/
def Entry.handler (x : Entry) : Bool := x.stack.any StkEntry.isTrap

/-- The siblings of a breaking sub-team are held under a serial number, which its TRAP entry keeps (R305). -/
def State.holdSiblings (s : State) (c sl e id : Nat) : State :=
  let t := (s.entry c sl e).team
  ((s.slot c sl).entriesOf t).foldl (fun s i =>
    let x := s.entry c sl i
    if i = e then s else s.setEntry c sl i { x with held := x.held ++ [id] }) s

/-- The pop of a TRAP entry releases the siblings held for it (R303, R305). -/
def State.releaseHeld (s : State) (c sl e : Nat) (y : StkEntry) : State :=
  match y.holds with
  | none => s
  | some id =>
    ((s.slot c sl).entriesOf (s.entry c sl e).team).foldl (fun s i =>
      let x := s.entry c sl i
      s.setEntry c sl i { x with held := x.held.filter (· != id) }) s

/-- Microcode occupies the slot's pipe for `n` core cycles, behind a pass under way (R61, R341, R342). -/
def State.microcode (s : State) (c sl n : Nat) : State :=
  let x := s.slot c sl
  s.setSlot c sl { x with free := max x.free (s.core c).cycle + n, leaves := x.leaves ++ List.replicate n 0x03 }

/-- A parcel ends without `EXIT` (R420): its record of kind 9, its launch ended with ERR 0x08. -/
def State.unhandled (s : State) (pid : Nat) (cause ocause : BitVec 8) (va : Dword) (pc : Word) (gteam : Nat)
    (version : BitVec 3) : State :=
  let lid := (s.parcel pid).lid
  let l := s.launchOf lid
  let s1 := s.postRecord l.ctx { kind := 9, va := va, pc := pc, team := BitVec.ofNat 64 gteam, version := version,
                                 cause := cause, ocause := ocause }
  (s1.setLaunch lid { s1.launchOf lid with bad := true }).endParcel pid

/-- A sub-team takes a trap (R302): the frame in its stack area, a TRAP entry holding the resume PC, the handler's PC. With no
room or no window the parcel ends with STKOVF, and without a handler once the frame is written (R420). The handler's first
instruction waits for the frame's writes. Every run-ahead episode of the slot ends (R75). -/
def State.takeTrap (s0 : State) (c sl e : Nat) (words : List Word) (npc : Word) (ti : TrapInfo) : State :=
  let s := s0.endRunAheads c sl
  let x := s.entry c sl e
  let t := s.team c sl x.team
  let p := s.parcel t.pid
  let l := s.launchOf p.lid
  let fw := (s.core c).dbgctl.getLsbD 1 && (ti.cause = 0x0A || ti.cause = 0x09)
  let size := frameSize (2 ^ t.w) ti.recs.length
  let nest := x.handler
  match s.stackRoom c sl e size with
  | none => s.unhandled t.pid 0x06 ti.cause 0 x.pc (s.gteam t) x.version
  | some (o, g) =>
    let va := t.stkbase.toNat + o
    let bs := frameBytes ti nest x.pc npc x.mask x.version words
    if !s.windowOk l.ctx va bs.length .r || !s.windowOk l.ctx va bs.length .w then
      s.unhandled t.pid 0x06 ti.cause 0 x.pc (s.gteam t) x.version
    else
      let write (s : State) : List Nat × State := s.sendBytes (.team c sl x.team) c l.ctx p.lid va x.pc x.version (s.gteam t) bs
      let s1 := s.setEntry c sl e { x with segs := g }
      if t.tvec = 0xFFFFFFFF && !fw then
        (write s1).2.unhandled t.pid ti.cause 0 (BitVec.ofNat 64 va) x.pc (s.gteam t) x.version
      else
        let hold := ti.cause = 0x0A && (s.core c).dbgctl.getLsbD 0
        let entry : StkEntry := { kind := 2, pc := if ti.skip then npc else x.pc, aux := BitVec.ofNat 32 o,
                                  len := size, us := ti.ustep, holds := if hold then some s.ids else none, byCmp := ti.byCmp }
        match s1.push c sl e entry with
        | none => s.unhandled t.pid 0x06 ti.cause 0 x.pc (s.gteam t) x.version
        | some s2 =>
          let (ids, s3) := write (if hold then { s2 with ids := s2.ids + 1 } else s2)
          let s4 := s3.microcode c sl (16 + (rowsOf x.mask).length)
          let s5 := s4.setEntry c sl e { s4.entry c sl e with
            pc := t.tvec, npc := t.tvec, ibuf := none, ustep := 0, brkSkip := false, debug := fw, till := (s4.slot c sl).free,
            yielded := (s4.entry c sl e).yielded || ti.yld, st := .asleep (.writes ids) }
          if hold then s5.holdSiblings c sl e s.ids else s5

/-- The frame of a trap whose cause names no lanes: ROW is the lowest non-empty row, LANES its active lanes (R302). -/
def TrapInfo.atRow (ti : TrapInfo) (mask : List Word) (act : List Nat) : TrapInfo :=
  let r := (rowsOf mask).headD 0
  { ti with row := r, lanes := laneWord r (fun l => act.contains l) }

/-! ### Returning from a trap (R200, R303) -/

/-- Pops the top TRAP entry: the sub-team goes on at its PC with the USTEP `us` of its frame, held siblings are released, and a
comparator that set the PC does not fire again at once (R303). -/
def State.returnTrap (s : State) (c sl e : Nat) (top : StkEntry) (us : BitVec 8) : State :=
  let s1 := (s.releaseHeld c sl e top).popTop c sl e
  s1.setEntry c sl e { s1.entry c sl e with pc := top.pc, npc := top.pc, ibuf := none, ustep := us, brkSkip := top.byCmp }

/-! ### Control-stream traps (R313) -/

/-- Ends the launch of a control stream that traps without a handler or in handler state (R313, R420). -/
def State.ctlUnhandled (s : State) (cl : Nat) (cause : BitVec 8) (va : Dword) : State :=
  let x := s.ctl cl
  let l := s.launchOf x.lid
  let s1 := s.postRecord l.ctx { kind := 9, va := va, pc := x.pc, team := BitVec.ofNat 64 x.eseq.toNat,
                                 version := x.version, cause := cause }
  s1.stopLaunch x.lid 8

/-- A control stream takes a trap (R313): the frame at its stack base, the resume PC in `%tpc`, the handler's PC. -/
def State.takeCtlTrap (s : State) (cl : Nat) (words : List Word) (npc : Word) (ti : TrapInfo) : State :=
  let x := s.ctl cl
  let l := s.launchOf x.lid
  let va := x.stkbase.toNat
  let bs := (frameBytes { ti with row := 0, lanes := 0, ustep := 0 } x.handler x.pc npc [] 0 words)
  if !s.windowOk l.ctx va bs.length .r || !s.windowOk l.ctx va bs.length .w then s.ctlUnhandled cl ti.cause 0
  else
    let (ids, s1) := s.sendBytes (.control cl) (256 + cl) l.ctx x.lid va x.pc x.version x.eseq.toNat bs
    if x.handler || x.tvec = 0xFFFFFFFF then s1.ctlUnhandled cl ti.cause x.stkbase
    else
      let y := s1.ctl cl
      s1.setCtl cl { y with
        tpc := if ti.skip then npc else x.pc, pc := x.tvec, npc := x.tvec, handler := true, ibuf := none,
        till := x.cycle + 16, free := x.cycle + 16,
        st := .asleep (.writes ids) }

/-! ### Waits for engine commands (R272, R285, R293) -/

/-- Whether a command copies between memory and scratchpad; the others are matrix commands. -/
def Cmd.isTx (m : Cmd) : Bool :=
  match m.op with
  | .ld .. | .ldq .. | .st .. | .stPeer .. => true
  | _ => false

/-- Whether a wait covers a command: every command of the stream, or the matrix commands to some cores. -/
def Cmd.coveredBy (m : Cmd) (lid : Nat) (mask : Option (List Nat)) : Bool :=
  m.lid == lid && (match mask with
    | none => true
    | some cs => !m.isTx && m.cores.any fun i => cs.contains i)

/-- Whether every command that a wait covers has finished. -/
def State.fenced (s : State) (cl : Nat) (mask : Option (List Nat)) : Bool :=
  let x := s.ctl cl
  x.cmds.all fun m => m.finished || !m.coveredBy x.lid mask

/-- The trap of a wait whose commands have failed: the cause of the oldest, every pending record in sequence order, each delivered
once (R272). -/
def State.fenceTrap (s : State) (cl : Nat) (mask : Option (List Nat)) : Option (TrapInfo × State) :=
  let x := s.ctl cl
  match (x.cmds.filter fun m => m.coveredBy x.lid mask).filterMap Cmd.failed with
  | [] => none
  | r :: _ =>
    let mine (m : Cmd) : Bool := m.lid == x.lid && m.finished && m.failed.isSome
    let all := x.cmds.filter mine
    let take := all.take 64
    some ({ cause := r.cause, recs := take.filterMap Cmd.failed, more := decide (64 < all.length) },
          s.setCtl cl { x with cmds := x.cmds.filter fun m => !(mine m && take.any fun y => y.eseq == m.eseq) })

end Sys2Proof.Machine
end

