-- ==== Sys2Proof/Machine/Operands.lean ====
section
/-! DEFINITION. The operands of an instruction: header, streams (R180), footprint of registers (R171, R215, R240), latency
(R186) and pipe occupancy (R217); the reads and writes of registers at a pass, with the latencies of R185 and R189; the
issue of a team instruction, its checks in the order of R183, and of a control-stream instruction. -/

namespace Sys2Proof.Machine

/-! ### Static properties of an instruction -/

def HdrB.x (h : HdrB) : Hdr := { stall := h.stall, yld := h.yld, pred := h.pred.setWidth 4, neg := h.neg }

/-- Stall count, yield bit and guard of an instruction (R164, R179); those of a word that is none are where its form has them (R302, R340). -/
def hdrOf (i : Instr) : Hdr :=
  match i.form with
  | some (.x f) => f.h
  | some (.b f) => HdrB.x f.h
  | none => match i with
    | .unassignedOpcode ws => (match formOf ws with
        | some (.x f) => f.h
        | some (.b f) => HdrB.x f.h
        | none => default)
    | _ => default

/-- The X form that a short form behaves exactly as (R179). -/
def longOf : Instr → Instr
  | .nopShort h => .nop (HdrB.x h)
  | .braShort h off => .bra (HdrB.x h) 0 (off.signExtend 32)
  | .brlShort h off => .brl (HdrB.x h) 0 (off.signExtend 32)
  | .callShort h off => .call (HdrB.x h) 0 (off.signExtend 32)
  | .joinShort h k => .join (HdrB.x h) k
  | .safeptShort h k => .safept (HdrB.x h) k
  | .popShort h => .pop (HdrB.x h)
  | .retShort h => .ret (HdrB.x h)
  | .rettShort h => .rett (HdrB.x h)
  | .exitShort h => .exit (HdrB.x h)
  | .yieldShort h => .yield (HdrB.x h)
  | .movShort h d a => .mov (HdrB.x h) { (default : Alu) with ty := .b32, d := d.setWidth 8, a := a.setWidth 8 }
  | .notShort h d a => .not (HdrB.x h) { (default : Alu) with ty := .b32, d := d.setWidth 8, a := a.setWidth 8 }
  | .inegShort h d a => .ineg (HdrB.x h) { (default : Alu) with ty := .i32, d := d.setWidth 8, a := a.setWidth 8 }
  | .iabsShort h d a => .iabs (HdrB.x h) { (default : Alu) with ty := .i32, d := d.setWidth 8, a := a.setWidth 8 }
  | .fnegShort h d a => .fneg (HdrB.x h) { (default : Alu) with ty := .f32, d := d.setWidth 8, a := a.setWidth 8 }
  | .fabsShort h d a => .fabs (HdrB.x h) { (default : Alu) with ty := .f32, d := d.setWidth 8, a := a.setWidth 8 }
  | .popcShort h d a => .popc (HdrB.x h) { (default : Alu) with ty := .b32, d := d.setWidth 8, a := a.setWidth 8 }
  | .clzShort h d a => .clz (HdrB.x h) { (default : Alu) with ty := .b32, d := d.setWidth 8, a := a.setWidth 8 }
  | .smovShort h d a => .smov (HdrB.x h) { (default : Alu) with ty := .b32, d := d.setWidth 8, a := a.setWidth 8 }
  | .srdShort h d a => .srd (HdrB.x h) (a.setWidth 12) false (d.setWidth 8)
  | .ldShort h sp d a => .ld (HdrB.x h)
      { space := sp, ty := .b32, count := .x1, sb := false, ix := false, r := d.setWidth 8, a := a.setWidth 8, b := 0, off := 0 }
  | .stShort h sp d a => .st (HdrB.x h)
      { space := sp, ty := .b32, count := .x1, sb := false, ix := false, r := d.setWidth 8, a := a.setWidth 8, b := 0, off := 0 }
  | .moviLit h w d lit => .movi (HdrB.x h)
      { (default : Alu) with ty := if w then .b64 else .b32, d := d.setWidth 8, ext := if w then 0 else lit.setWidth 32,
                             lit := if w then some lit else none }
  | .smoviLit h w d lit => .smovi (HdrB.x h)
      { (default : Alu) with ty := if w then .b64 else .b32, d := d.setWidth 8, ext := if w then 0 else lit.setWidth 32,
                             lit := if w then some lit else none }
  | .iaddLit h d a lit => .iadd (HdrB.x h)
      { (default : Alu) with ty := .i64, bi := true, d := d.setWidth 8, a := a.setWidth 8, lit := some lit }
  | i => i

/-- OP9 of an instruction, of the X form it stands for (R179, R180). -/
def op9Of (i : Instr) : Nat :=
  match (longOf i).form with
  | some (.x f) => f.op9.toNat
  | _ => 0

/-- The streams that an opcode runs in (R180): team, control. -/
def streamsOf (op : Nat) : Bool × Bool :=
  if op = 0x000 || op = 0x001 || op = 0x004 || op = 0x005 || (decide (0x007 ≤ op) && decide (op ≤ 0x009)) then (true, true)
  else if op < 0x040 then (true, false)
  else if op < 0x080 then (true, true)
  else if op < 0x10A then (true, false)
  else if op < 0x140 then (true, true)
  else if op < 0x145 then (true, false)
  else if op < 0x180 then (true, true)
  else if op < 0x1C0 then (false, true)
  else if op < 0x1C4 then (true, true)
  else (true, false)

/-- A use of registers: class, first register, how many, read and written. -/
structure Use where
  cls : RCls
  reg : Nat
  n   : Nat := 1
  rd  : Bool := true
  wr  : Bool := false
  deriving DecidableEq, Repr, Inhabited

def uv (r : BitVec 8) (n : Nat := 1) : Use := { cls := .v, reg := r.toNat, n := n }
def us (r : BitVec 8) (n : Nat := 1) : Use := { cls := .s, reg := r.toNat, n := n }
def up (r : BitVec 8) : Use := { cls := .p, reg := r.toNat }
/-- A shape register with all its field groups, which `SHP.SET` writes one by one (R279). -/
def uh (r : BitVec 8) : Use := { cls := .h, reg := 16 * r.toNat, n := 16 }
def Use.w (u : Use) : Use := { u with rd := false, wr := true }
def Use.rw (u : Use) : Use := { u with wr := true }
def uvs (s : Bool) (r : BitVec 8) (n : Nat := 1) : Use := if s then us r n else uv r n

/-- Operands of the default layout (R215): widths of D, A, B and C in registers. -/
def aluUses (o : Alu) (nd na nb nc : Nat) (rwD : Bool := false) : List Use :=
  [{ cls := .v, reg := o.d.toNat, n := nd, rd := rwD, wr := true }] ++
  (if na = 0 then [] else [uvs o.as o.a na]) ++ (if nb = 0 || o.bi then [] else [uvs o.bs o.b nb]) ++
  (if nc = 0 then [] else [uv o.c nc])

def aluN (o : Alu) : Nat := if o.ty.is64 then 2 else 1

/-- The source type of a `CVT` (R232). -/
def cvtSrc (o : Alu) : Ty := Ty.ofCode (o.ext.toNat % 16)

/-- Registers of a scalar-group operand. -/
def aluSuses (o : Alu) (hasA hasB : Bool) : List Use :=
  [(us o.d).w] ++ (if hasA then [us o.a] else []) ++ (if hasB && !o.bi then [us o.b] else [])

def memRegs (o : Mem) : Nat := (if o.ty.is64 then 2 else 1) * o.count.num
def addrUses (sp : Space) (sb ix : Bool) (a b : BitVec 8) : List Use :=
  [uvs sb a (if sp = .g then 2 else 1)] ++ (if ix then [uv b] else [])

/-- The special registers that are 64 bits wide (R298). -/
def wideSpecial (n : Nat) : Bool := n = 0x008 || n = 0x00E || n = 0x018 || n = 0x01A || n = 0x01B

/-- The register footprint of an instruction; `k` is the component count of its algebra slot (R238) and `ctl` tells the
control stream, where a 64-bit value takes one c register (R171). -/
def usesOf (k : Nat) (ctl : Bool) (i : Instr) : List Use :=
  (let h := hdrOf i
   if h.pred = 0 then [] else [{ cls := .p, reg := h.pred.toNat }]) ++
  match longOf i with
  | .brx _ _ a s => [uvs s a]
  | .brz _ _ a _ | .brnz _ _ a _ => [us a]
  | .monwait _ d a => [(up d).w, us a 2]
  | .setp _ o => [(up o.d).w, uvs o.as o.a (if o.ty.is64 then 2 else 1)] ++
      (if o.bi then [] else [uvs o.bs o.b (if o.ty.is64 then 2 else 1)])
  | .plop _ d a b c _ => [(up d).w, up a, up b, up c]
  | .psel _ _ d a b => [(up d).w, up a, us b]
  | .voteAnd _ _ d a | .voteOr _ _ d a | .voteEq _ _ d a => [(up d).w, up a]
  | .voteMask _ leg d a => [(uv d (if leg then 2 else 1)).w, up a]
  | .shflIdx _ o | .shflUp _ o | .shflDn _ o | .shflXor _ o =>
      let n := if o.ty = .b64 then 2 else 1
      [(uv o.d n).w, uv o.a n] ++ (if o.bi then [] else [uv o.b])
  | .ltos _ d a => [(us d).w, uv a]
  | .stol _ d a b => [(uv d).w, us a, us b]
  | .sadd _ o | .ssub _ o | .smul _ o | .sand _ o | .sor _ o | .sxor _ o | .sshl _ o | .sshr _ o | .ssra _ o
  | .scmp _ o => aluSuses o true true
  | .smov _ o => aluSuses o true false
  | .smovi _ o => aluSuses o false false
  | .iadd _ o | .isub _ o | .imul _ o | .imin _ o | .imax _ o | .and _ o | .or _ o | .xor _ o | .shl _ o | .shr _ o
  | .sra _ o | .fadd _ o | .fsub _ o | .fmul _ o | .fmin _ o | .fmax _ o => aluUses o (aluN o) (aluN o) (aluN o) 0
  | .imulh _ o | .imulq _ o | .rshr _ o | .pack _ o | .qcvt _ o => aluUses o 1 1 1 0
  | .imad _ o | .ffma _ o => aluUses o (aluN o) (aluN o) (aluN o) (aluN o)
  | .clamp _ o => aluUses o 1 1 1 1
  | .iabs _ o | .ineg _ o | .not _ o | .mov _ o | .fabs _ o | .fneg _ o | .fsqrt _ o => aluUses o (aluN o) (aluN o) 0 0
  | .bfx _ o => aluUses o (aluN o) (aluN o) 0 0
  | .bfi _ o => aluUses o (aluN o) (aluN o) (aluN o) 0
  | .popc _ o | .clz _ o => aluUses o 1 (aluN o) 0 0
  | .sel _ o => aluUses o (aluN o) (aluN o) (aluN o) 1
  | .movi _ o => aluUses o (aluN o) 0 0 0
  | .dp4 _ o | .dp2 _ o => aluUses o 1 1 1 0 true
  | .frcp _ o | .frsq _ o | .fexp2 _ o | .flog2 _ o | .fsin _ o | .fcos _ o | .qscale _ o | .bpt _ o | .redux _ o =>
      aluUses o 1 1 0 0
  | .cvt _ o => aluUses o (aluN o) (if (cvtSrc o).is64 then 2 else 1) 0 0
  | .unpk _ o => aluUses o 2 1 0 0
  | .algMul _ o => aluUses o k k k 0
  | .algConj _ o => aluUses o k k 0 0
  | .algNorm _ o => aluUses o 1 k 0 0
  | .ld _ o | .ldAcq _ o => [(uv o.r (memRegs o)).w] ++ addrUses o.space o.sb o.ix o.a o.b
  | .st _ o | .stRel _ o => [uv o.r (memRegs o)] ++ addrUses o.space o.sb o.ix o.a o.b
  | .pfh _ o | .pfw _ o => addrUses o.space o.sb o.ix o.a o.b
  | .atom _ o =>
      let n := if o.ty.is64 then 2 else 1
      [(uv o.d n).w, uv o.c n] ++ (if o.op = .cas then [uv o.b n] else []) ++ addrUses o.space o.sb o.ix o.a o.b
  | .red _ o => [uv o.c (if o.ty.is64 then 2 else 1)] ++ addrUses o.space o.sb o.ix o.a o.b
  | .acp _ o => [uv o.d, uv o.c] ++ addrUses o.space o.sb false o.a 0
  | .barInitb _ o | .barArriveb _ o | .barWaitb _ o => [uvs (ctl || o.sb) o.a, us o.b]
  | .qpush _ _ a => [us a (if ctl then 1 else 2)]
  | .qpop _ _ d => [(us d (if ctl then 1 else 2)).w]
  | .cld _ _ _ d a _ => [(us d).w, us a]
  | .cst _ _ _ a c _ => [us a, us c]
  | .cbr _ _ _ a b _ => [us a, us b]
  | .shpSet _ d a field => [{ cls := .h, reg := 16 * d.toNat + field.toNat, rd := false, wr := true }, us a]
  | .txLd _ o | .txSt _ o => [us o.d, uh o.a, us o.c]
  | .txLdq _ o _ | .txStPeer _ o => [us o.d, uh o.a, us o.b, us o.c]
  | .mxLds _ _ a b c => [us a, us b, us c]
  | .mxSwap _ c | .mxWait _ c => [us c]
  | .mxStrm _ o => [us o.d, us o.a, us o.b, us o.c]
  | .mxDrn _ o => [us o.d, us o.a, us o.b, us o.c]
  | .mxZero _ d c => [us d, us c]
  | .algLdt _ _ a => [us a]
  | .srd _ reg s d =>
      let n := if wideSpecial reg.toNat && !(ctl && s) then 2 else 1
      [(uvs s d n).w]
  | .swr _ reg a => [us a (if wideSpecial reg.toNat && !ctl then 2 else 1)]
  | .progress _ a => [us a]
  | .odot4 _ _ d a b c => [(uv d).w, uv a, uv b, uv c]
  | .omma8 _ _ _ d a b => [(uv d 8).rw, uv a 2, uv b 2]
  | .oldx _ n1 d a _ => [(uv d (n1.toNat + 1)).w, uv a 2]
  | .oshfw _ _ d a b => [(uv d).w, uv a, uv b]
  | _ => []

/-- An `.f64` operand or result (R186, R217). -/
def f64Of (i : Instr) : Bool :=
  match i with
  | .fadd _ o | .fsub _ o | .fmul _ o | .ffma _ o | .fmin _ o | .fmax _ o | .fsqrt _ o => o.ty == .f64
  | .cvt _ o => o.ty == .f64 || (cvtSrc o) == .f64
  | _ => false

/-- The fixed latency of a result (R186); `none` where the scoreboard covers it. -/
def latencyOf (i : Instr) : Option Nat :=
  match longOf i with
  | .sadd .. | .ssub .. | .smul .. | .sand .. | .sor .. | .sxor .. | .sshl .. | .sshr .. | .ssra .. | .smov .. | .smovi ..
  | .scmp .. | .iadd .. | .isub .. | .imin .. | .imax .. | .iabs .. | .ineg .. | .and .. | .or .. | .xor .. | .not ..
  | .shl .. | .shr .. | .sra .. | .bfx .. | .bfi .. | .popc .. | .clz .. | .sel .. | .mov .. | .movi .. | .rshr ..
  | .clamp .. | .fabs .. | .fneg .. | .algConj .. | .setp .. | .plop .. | .psel .. | .srd .. | .shpSet .. => some 2
  | .imul .. | .imulh .. | .imulq .. | .imad .. | .dp4 .. | .dp2 .. | .pack .. | .unpk .. | .qcvt .. | .bpt .. => some 4
  | .fadd _ o => some (if f64Of (.fadd default o) then 8 else 4)
  | .fsub _ o => some (if f64Of (.fsub default o) then 8 else 4)
  | .fmul _ o => some (if f64Of (.fmul default o) then 8 else 4)
  | .ffma _ o => some (if f64Of (.ffma default o) then 8 else 4)
  | .fmin _ o => some (if f64Of (.fmin default o) then 8 else 4)
  | .fmax _ o => some (if f64Of (.fmax default o) then 8 else 4)
  | .cvt _ o => some (if f64Of (.cvt default o) then 8 else 4)
  | .voteAnd .. | .voteOr .. | .voteEq .. | .voteMask .. | .shflIdx .. | .shflUp .. | .shflDn .. | .shflXor .. | .ltos ..
  | .stol .. => some 4
  | .algMul .. | .algNorm .. => some 6
  | .odot4 .. | .omma8 .. | .oshfw .. => some 4
  | _ => none

/-- Core cycles that one pass takes (R217); scratchpad passes add those of R111. -/
def occupancyOf (k : Nat) (i : Instr) : Nat :=
  if f64Of i then 4
  else match i with
    | .imul _ o | .imad _ o => if o.ty.is64 then 4 else 1
    | .iaddLit .. => 1
    | .algMul .. => max 1 k
    | .algNorm .. => max 1 (k / 2)
    | _ => 1

/-! ### Registers at a pass (R185, R189, R192) -/

/-- The value that a reader at cycle `cyc` sees: that before the first result not yet available, else `cur`. -/
def lateRead (late : List Late) (cls : RCls) (reg lane cyc : Nat) (cur : Dword) : Dword :=
  match late.find? fun r => r.of cls reg lane && decide (cyc < r.avail) with
  | some r => r.old
  | none => cur

/-- Whether a write would become available no later than one already under way: the write order of R185 is broken. -/
def Late.clash (n r : Late) : Bool := r.of n.cls n.reg n.lane && decide (n.avail ≤ r.avail)

/-- A write whose result a later-available one replaces: it is seen from its own cycle until that one appears. -/
def lateInsert (n : Late) (val : Dword) : List Late → List Late
  | [] => []
  | r :: rs => if n.clash r then { n with old := r.old } :: { r with old := val } :: rs else r :: lateInsert n val rs

/-- A write of `val` with its record `n`, whose `old` is the register's present value: the records and the value that remains. Where
the write order of R185 is broken, `keep` tells which of the two writers' results that is (log entry 10). -/
def lateWrite (late : List Late) (n : Late) (val : Dword) (keep : Bool) : List Late × Dword :=
  match late.find? n.clash with
  | none => (late ++ [n], val)
  | some r =>
    if keep then (lateInsert n val late, n.old)
    else ((late.filter fun y => !n.clash y) ++ [{ n with old := r.old }], val)

/-- The records of a lane of a register that a result of variable latency replaces (R187, R189). R185 leaves open which result remains where
the second writer's latency is variable; the model keeps that writer's (log entry 10). -/
def lateForget (late : List Late) (cls : RCls) (reg lane : Nat) : List Late := late.filter fun r => !r.of cls reg lane

/-- v[r] of a lane at a cycle. -/
def Team.readV (t : Team) (cyc lane r : Nat) : Word :=
  (lateRead t.late .v r lane cyc ((t.v.get 0 (lane * 256 + r)).setWidth 64)).setWidth 32

/-- s[r] at a cycle; s0 reads zero, as no write of it has an effect (R192). -/
def Team.readS (t : Team) (cyc r : Nat) : Word :=
  (lateRead t.late .s r 0 cyc ((t.s.get 0 r).setWidth 64)).setWidth 32

/-- p[r] of a lane at a cycle; p0 reads one (R171). -/
def Team.readP (t : Team) (cyc lane r : Nat) : Bool :=
  if r = 0 then true
  else (lateRead t.late .p r lane cyc (if (t.p.get 0 lane).getLsbD r then 1 else 0)).getLsbD 0

/-- A pair as 64 bits (R80). -/
def Team.readV2 (t : Team) (cyc lane r : Nat) : Dword :=
  BitVec.ofNat 64 ((t.readV cyc lane r).toNat + 2 ^ 32 * (t.readV cyc lane (r + 1)).toNat)
def Team.readS2 (t : Team) (cyc r : Nat) : Dword :=
  BitVec.ofNat 64 ((t.readS cyc r).toNat + 2 ^ 32 * (t.readS cyc (r + 1)).toNat)

/-- c[r]; c0 reads zero (R266). -/
def Control.readC (x : Control) (r : Nat) : Dword :=
  if r = 0 then 0 else lateRead x.late .s r 0 x.cycle (x.c.get 0 r)

/-- What an instruction writes: lane registers, predicates, s or c registers, and the flags each lane raises. -/
structure Eff where
  v : List (Nat × Nat × Word) := []
  p : List (Nat × Nat × Bool) := []
  s : List (Nat × Dword) := []
  flags : List (Nat × BitVec 6) := []
  /-- Lane registers whose result run-ahead marks invalid: register and lane (R74). -/
  bad : List (Nat × Nat) := []
  deriving Repr, Inhabited

/-! ### The issue of a team instruction -/

/-- Everything an instruction of a team sub-team reads at issue. -/
structure Iss where
  core  : Nat
  slot  : Nat
  entry : Nat
  e     : Entry
  t     : Team
  p     : Parcel
  l     : Launch
  k     : Kernel
  ver   : Vers
  i     : Instr
  h     : Hdr
  npc   : Word
  cyc   : Nat
  /-- Cycle in which each row's pass issues, by row (R50, R217). -/
  pass  : List (Nat × Nat)
  act   : List Nat
  alg   : Nat
  occ   : Nat
  deriving Repr

/-- The width of the team in lanes (R45). -/
def Iss.width (x : Iss) : Nat := 32 * x.e.mask.length
/-- The cycle in which a lane's row has its pass, where the passes are given by row. -/
def passAt (pass : List (Nat × Nat)) (cyc lane : Nat) : Nat := ((pass.find? fun r => r.1 == lane / 32).map Prod.snd).getD cyc
/-- The cycle of a lane's pass. -/
def Iss.at (x : Iss) (lane : Nat) : Nat := passAt x.pass x.cyc lane
/-- The cycle of the first pass, in which the s operands are read (R192): a pass issues in the last cycle that it occupies (R217). -/
def Iss.first (x : Iss) : Nat := (x.pass.head?.map Prod.snd).getD x.cyc
def Iss.rv (x : Iss) (lane r : Nat) : Word := x.t.readV (x.at lane) lane r
def Iss.rv2 (x : Iss) (lane r : Nat) : Dword := x.t.readV2 (x.at lane) lane r
def Iss.rs (x : Iss) (r : Nat) : Word := x.t.readS x.first r
def Iss.rs2 (x : Iss) (r : Nat) : Dword := x.t.readS2 x.first r
def Iss.rp (x : Iss) (lane r : Nat) : Bool := x.t.readP (x.at lane) lane r
def Iss.src (x : Iss) : Src := .team x.core x.slot x.e.team
def Iss.ctx (x : Iss) : Nat := x.l.ctx
def Iss.mode (x : Iss) (b : Nat) : Bool := x.t.mode.getLsbD b

/-- The algebra slot of a context on a cluster (R104); a0 is the reals (R99). -/
def State.algebra (s : State) (ctx cl slot : Nat) : Algebra :=
  if slot = 0 then {} else (s.ctxOf ctx).alg.get {} (cl * 8 + slot)

/-- Component count of the slot an instruction names (R238). -/
def algebraOf (s : State) (ctx cl : Nat) (i : Instr) : Nat :=
  match i with
  | .algMul _ o | .algConj _ o | .algNorm _ o => (s.algebra ctx cl (o.ext.toNat % 8)).k
  | _ => 1

/-- The lanes of a mask whose guard is one in their row's pass (R49, R171). -/
def guardLanes (t : Team) (mask : List Word) (h : Hdr) (cyc : Nat) (pass : List (Nat × Nat)) : List Nat :=
  (lanesOf mask).filter fun lane => t.readP (passAt pass cyc lane) lane h.pred.toNat != h.neg

/-- The issue context of an entry. -/
def State.iss (s : State) (c sl e : Nat) (i : Instr) : Iss :=
  let x := s.entry c sl e
  let t := s.team c sl x.team
  let p := s.parcel t.pid
  let l := s.launchOf p.lid
  let k := s.kernel l.kid
  let h := hdrOf i
  let cyc := (s.core c).cycle
  let kk := algebraOf s l.ctx (clusterOf c) i
  let occ := occupancyOf kk i
  let pass := (rowsOf x.mask).zipIdx.map fun r => (r.1, cyc + occ * (r.2 + 1) - 1)
  { core := c, slot := sl, entry := e, e := x, t := t, p := p, l := l, k := k, ver := k.version x.version, i := i, h := h,
    npc := x.pc + BitVec.ofNat 32 (4 * (encode i).length), cyc := cyc, pass := pass,
    act := guardLanes t x.mask h cyc pass,
    alg := kk, occ := occ }

/-- The passes with the bank cycles of each row before its own end and of the rows before it (R111, R217). -/
def Iss.delay (x : Iss) (bank : List Nat) : Iss :=
  let pass := (rowsOf x.e.mask).zipIdx.map fun r => (r.1, x.cyc + x.occ * (r.2 + 1) - 1 + (bank.take (r.2 + 1)).sum)
  { x with pass := pass, act := guardLanes x.t x.e.mask x.h x.cyc pass }

/-- The bank cycles of each row, and the issue with its passes where those put them (R111, R185): a row's banks are those of the addresses
that its pass would read without a conflict of its own (log entry 24). -/
def Iss.stretched (x : Iss) (bank : Iss → List Nat) : Iss × List Nat :=
  match bank x with
  | [] => (x, [])
  | _ =>
    let bs := (List.range (rowsOf x.e.mask).length).foldl (fun bs k => bs ++ [(bank (x.delay bs)).getD k 0]) []
    (x.delay bs, bs)

/-- The outcome of a team instruction's own work. -/
inductive Act where
  /-- Registers and flags written; the sub-team goes on at the next PC. -/
  | eff (e : Eff)
  /-- As `eff`, over a changed state. -/
  | go (s : State) (e : Eff)
  /-- The instruction traps before any effect. -/
  | trap (t : TrapInfo)
  /-- A trap over a changed state. -/
  | trapIn (s : State) (t : TrapInfo)
  /-- The sub-team goes on at a PC, over a changed state. -/
  | jump (s : State) (pc : Word)
  /-- The state is final: the meaning has set the entry and charged the passes itself. -/
  | done (s : State)
  /-- The sub-team sleeps (its PC stays until it is woken). -/
  | sleep (s : State) (w : Wait)

/-- The named trap of a cause at the lowest row (R302). -/
def Iss.trap (x : Iss) (cause : BitVec 8) : TrapInfo := TrapInfo.atRow { cause := cause } x.e.mask x.act

/-- UNDEF checks of R181 that need the stream or the version: stream (R180), `.regs` (R172). -/
def Iss.undef (x : Iss) : Bool :=
  !(streamsOf (op9Of x.i)).1 || (usesOf x.alg false x.i).any fun u => u.cls == .v && decide (x.ver.regs < u.reg + u.n)

/-- The forerunner instructions, which `%ustep` counts the steps of (R311, R312). -/
def isForerunner (i : Instr) : Bool := decide (0x1F0 ≤ op9Of i) && decide (op9Of i ≤ 0x1F3)

/-- The steps of an expansion that come before the one which takes a register of a use (R311, R312): each destination is its own step's, and
one whose step is done is taken no more; the sources are taken from the first step on. -/
def Iss.stepsBefore (x : Iss) (u : Use) (reg : Nat) : Option Nat :=
  if isForerunner x.i && u.wr then (if reg - u.reg < x.e.ustep.toNat then none else some (reg - u.reg - x.e.ustep.toNat)) else some 0

/-- The first result read or overwritten before it is available (R189): its producer's PC. A second writer that keeps the distance
of R185 but issues before the first result is available overwrites it before then, and traps. A record counts for its whole row: the
instruction of a sibling sub-team, or one whose guard is zero in the recorded lanes, traps too where its mask has lanes of that row (log
entry 10: the model's choice). -/
def Iss.early (x : Iss) : Option Word :=
  if !x.mode 0 then none
  else (x.t.late.find? fun r =>
    (usesOf x.alg false x.i).any fun u => u.cls == r.cls && decide (u.reg ≤ r.reg) && decide (r.reg < u.reg + u.n) &&
      (match r.cls, x.stepsBefore u r.reg with
       | _, none => false
       | .s, _ | .h, _ => decide (x.first < r.avail)
       | _, some j => x.pass.any fun q => q.1 == r.lane / 32 && decide (q.2 + j * (rowsOf x.e.mask).length < r.avail))).map Late.pc

/-- The trap of the first reader of some marked lanes (R132, R136): the first row that holds one, and its lowest marked lane's address. -/
def TrapInfo.ofMarks (hit : List Mark) : Option TrapInfo :=
  match hit with
  | [] => none
  | m :: ms =>
    let row := ms.foldl (fun r y => min r (y.lane / 32)) (m.lane / 32)
    let inRow := hit.filter fun y => y.lane / 32 == row
    let low := inRow.foldl (fun a b => if b.lane < a.lane then b else a) (inRow.headD m)
    some { cause := low.cause, row := row, lanes := laneWord row (fun l => inRow.any fun y => y.lane == l), va := low.va,
           code := if low.cause = 0x0B then 0 else low.pc }

/-- The marks on sources that the active lanes read (R132, R136, R183 row 6), in the first row that holds one. -/
def Iss.marked (x : Iss) : Option TrapInfo :=
  let hit := x.t.marks.filter fun m => m.cls == .v && x.act.contains m.lane &&
    (usesOf x.alg false x.i).any fun u => u.rd && u.cls == .v && decide (u.reg ≤ m.reg) && decide (m.reg < u.reg + u.n)
  TrapInfo.ofMarks hit

/-- The pipe's cycles of an instruction, as leaves of R341: pass by pass, the bank cycles first (R342). -/
def leavesOf (rows : List Nat) (occ : Nat) (bank : List Nat) (last : Nat) : List Nat :=
  rows.zipIdx.flatMap fun r => List.replicate (bank.getD r.2 0) 0x10 ++ List.replicate (occ - 1) 0x11 ++ [last]

/-- Charges the passes and the stall count (R50), and sets where the entry goes on. -/
def Iss.charge (x : Iss) (s : State) (bank : List Nat) (pc : Word) (sleeping : Option Wait) : State :=
  let leaves := leavesOf (rowsOf x.e.mask) x.occ bank 0x01
  let total := max 1 leaves.length
  let till := x.cyc + total + x.h.stall.toNat
  let sx := s.slot x.core x.slot
  let s1 := s.setSlot x.core x.slot { sx with free := x.cyc + total, leaves := leaves }
  let y := s1.entry x.core x.slot x.entry
  s1.setEntry x.core x.slot x.entry
    (match sleeping with
     | some w => { y with npc := pc, till := till, st := .asleep w, act := maskOfLanes x.e.mask.length x.act,
                          yielded := y.yielded || x.h.yld }
     | none => { y with pc := pc, npc := pc, ibuf := none, ustep := 0, till := till, st := .stalled till, brkSkip := false,
                        yielded := y.yielded || x.h.yld })

/-- A register's write, with the latency of the instruction or, where the scoreboard covers it, none (R185, R187): the records and the
value that remains. `fr` numbers the open choice of R185, one for each register and row. -/
def Iss.late (x : Iss) (late : List Late) (cls : RCls) (reg lane at_ fr : Nat) (old val : Dword) (own : Bool) : List Late × Dword :=
  match latencyOf x.i with
  | none => (lateForget late cls reg lane, val)
  | some n => lateWrite late { cls := cls, reg := reg, lane := lane, avail := at_ + n, old := old, pc := x.e.pc, ent := x.entry } val
      (own && Config.freeBool fr)

/-- One lane register written (R185): the array and the latency records after it. -/
def Iss.stepV (x : Iss) (fr : Nat) (a : Store Word × List Late) (w : Nat × Nat × Word) : Store Word × List Late :=
  let key := w.1 * 256 + w.2.1
  let r := x.late a.2 .v w.2.1 w.1 (x.at w.1) (fr + 32 * w.2.1 + w.1 / 32) ((a.1.get 0 key).setWidth 64) (w.2.2.setWidth 64) true
  (a.1.set 0 key (r.2.setWidth 32), r.1)

/-- One predicate written (R185); p0 keeps one (R171). -/
def Iss.stepP (x : Iss) (fr : Nat) (a : Store (BitVec 16) × List Late) (w : Nat × Nat × Bool) : Store (BitVec 16) × List Late :=
  if w.2.1 = 0 then a
  else
    let old := a.1.get 0 w.1
    let one := BitVec.ofNat 16 (2 ^ w.2.1)
    let r := x.late a.2 .p w.2.1 w.1 (x.at w.1) (fr + 8192 + 32 * w.2.1 + w.1 / 32) (if old.getLsbD w.2.1 then 1 else 0)
      (if w.2.2 then 1 else 0) true
    (a.1.set 0 w.1 (if r.2.getLsbD 0 then old ||| one else old &&& ~~~one), r.1)

/-- One uniform register written; s0 keeps zero. Of two sub-teams' results the later issued remains (R192), so the choice of R185 is open only
where every record that the write clashes with is this sub-team's own. The latency of an `LTOS` of several rows counts from its first pass
(log entry 10). -/
def Iss.stepS (x : Iss) (fr : Nat) (a : Store Word × List Late) (w : Nat × Dword) : Store Word × List Late :=
  if w.1 = 0 then a
  else
    let avail := x.first + (latencyOf x.i).getD 0
    let own := a.2.all fun r => !(r.of .s w.1 0 && decide (avail ≤ r.avail)) || r.ent == x.entry
    let r := x.late a.2 .s w.1 0 x.first (fr + 8704 + w.1) ((a.1.get 0 w.1).setWidth 64) ((w.2.setWidth 32).setWidth 64) own
    (a.1.set 0 w.1 (r.2.setWidth 32), r.1)

/-- The pending bits of an effect whose latency is variable, one for each lane register and row; when a result is written is not
given (R186, R187; log entry 73). -/
def Iss.busyOf (x : Iss) (fr : Nat) (f : Eff) : List Busy :=
  if (latencyOf x.i).isSome then []
  else ((f.v.map fun w => (w.2.1, w.1 / 32)).dedup).map fun q =>
    { reg := q.1, row := q.2, till := x.at (32 * q.2) + 1 + (Config.freeBits (fr + 16384 + 32 * q.1 + q.2)).toNat }

/-- The flags that some lane raises (R91). -/
def Eff.union (f : Eff) : BitVec 6 := f.flags.foldl (fun b y => b ||| y.2) 0

/-- Writes an effect's registers with the instruction's latency (R185, R192) and its flags (R91, R218). -/
def Iss.commit (x : Iss) (s : State) (f : Eff) : State :=
  let t0 := s.team x.core x.slot x.e.team
  let late := t0.late.filter fun r => decide (x.cyc < r.avail)
  let rv := f.v.foldl (x.stepV s.fresh) (t0.v, late)
  let rp := f.p.foldl (x.stepP s.fresh) (t0.p, rv.2)
  let rs := f.s.foldl (x.stepS s.fresh) (t0.s, rp.2)
  let marks := t0.marks.filter fun m => !(m.cls == .v && f.v.any fun w => w.1 == m.lane && w.2.1 == m.reg)
  let busy := x.busyOf s.fresh f
  State.setTeam { s with fresh := if late.isEmpty && busy.isEmpty then s.fresh else s.fresh + 32768 } x.core x.slot x.e.team
    { t0 with v := rv.1, p := rp.1, s := rs.1, late := rs.2, fpctl := t0.fpctl ||| f.union.setWidth 32, marks := marks,
              busy := (t0.busy.filter fun b => decide (x.cyc < b.till)) ++ busy }

/-- An enabled floating-point exception (R92): the lanes that raised one, in the first such row. -/
def Iss.fpe (x : Iss) (f : Eff) : Option TrapInfo :=
  let enabled := (x.t.fpctl >>> 8).setWidth 6 &&& 0b011111
  let bad := f.flags.filter fun y => decide (y.2 &&& enabled ≠ 0)
  match bad with
  | [] => none
  | b :: bs =>
    let row := bs.foldl (fun r y => min r (y.1 / 32)) (b.1 / 32)
    some { cause := 0x0E, row := row, lanes := laneWord row (fun l => bad.any fun y => y.1 == l) }

/-- Sets the flags of a trapping instruction (R92). -/
def Iss.setFlags (x : Iss) (s : State) (f : Eff) : State :=
  let t := s.team x.core x.slot x.e.team
  s.setTeam x.core x.slot x.e.team { t with fpctl := t.fpctl ||| f.union.setWidth 32 }

/-- Takes a trap of the issuing instruction; a forerunner instruction's frame keeps the completed steps (R184, R312), and one after which
the sub-team resumes behind it has completed with its YLD (R62). -/
def Iss.take (x : Iss) (s : State) (ti : TrapInfo) : State :=
  let steps := if isForerunner x.i && ti.ustep == 0 then x.e.ustep else ti.ustep
  s.takeTrap x.core x.slot x.entry (encode x.i) x.npc { ti with ustep := steps, yld := ti.skip && x.h.yld }

/-- The end of an issue: what the instruction's own work answered. -/
def Iss.finish (x : Iss) (s : State) (bank : List Nat) : Act → State
  | .eff f => match x.fpe f with
    | some ti => x.take (x.setFlags s f) ti
    | none => x.charge (x.commit s f) bank x.npc none
  | .go s1 f => match x.fpe f with
    | some ti => x.take (x.setFlags s f) ti
    | none => x.charge (x.commit s1 f) bank x.npc none
  | .trap ti => x.take s ti
  | .trapIn s1 ti => x.take s1 ti
  | .done s1 => s1
  | .jump s1 pc => x.charge s1 bank pc none
  | .sleep s1 w => x.charge s1 bank x.npc (some w)

/-- The hints, which no fault of an address traps (R252), and `PROGRESS`, which no check beyond rows 3 and 4 traps (R310). -/
def isHint (i : Instr) : Bool := match i with | .pfh .. | .pfw .. => true | _ => false
def quiet (i : Instr) : Bool := match i with | .progress .. => true | _ => false

/-- The checks of R183 rows 3 to 6 in order: the trap of the first that fails. `bad` are the entry's own UNDEF conditions,
`priv` its privilege check. A uniform instruction without an active lane is checked as well (R340; log entry 75). -/
def Iss.checks (x : Iss) (bad priv : Bool) : Option TrapInfo :=
  if x.undef || bad then some (x.trap 0x01)
  else if priv then some (x.trap 0x02)
  else match (if quiet x.i then none else x.early) with
    | some pc => some { x.trap 0x05 with va := pc.setWidth 64 }
    | none => if isHint x.i then none else x.marked

/-! ### Run-ahead issue (R74, R75; log entry 16) -/

/-- The instructions at which run-ahead ends (R75). -/
def raEnds (i : Instr) : Bool :=
  let op := op9Of i
  (decide (0x006 ≤ op) && decide (op ≤ 0x00B)) || op == 0x018 || (decide (0x040 ≤ op) && decide (op < 0x080)) ||
  (decide (0x102 ≤ op) && decide (op ≤ 0x105)) || (decide (0x108 ≤ op) && decide (op < 0x1C2)) ||
  op == 0x1C0 || op == 0x1C1 || (op == 0x1C2 && (usesOf 1 false i).any fun u => u.cls == .s) ||
  (decide (0x1C3 ≤ op) && decide (op ≤ 0x1C5))

/-- The source position of a shuffle in a group of `g` lanes (R210). -/
def shuffleFrom (mode : ShMode) (g i x : Nat) : Option Nat :=
  match mode with
  | .idx => some (x % g)
  | .up => if i < x then none else some (i - x)
  | .dn => if g ≤ i + x then none else some (i + x)
  | .xor => if g ≤ i ^^^ x then none else some (i ^^^ x)

/-- The legacy width (R88, R300): the smaller of the team's width and 32 or 64. -/
def Iss.legacy (x : Iss) : Nat := min x.width (if x.mode 3 then 64 else 32)

/-- The group size of a cross-lane instruction (R208). -/
def Iss.group (x : Iss) (leg : Bool) : Nat := if leg then x.legacy else x.width

/-- The lanes, with the registers read in each, from which a lane's result is computed (R207 to R210, R237, R311): for all but the
cross-lane instructions the lane itself. -/
def Iss.reads (x : Iss) (l : Nat) : List (Nat × List Use) :=
  let own := usesOf x.alg false x.i
  let peers (g : Nat) (us : List Use) : List (Nat × List Use) := (List.range g).map fun j => (l / g * g + j, us)
  let shuffle (mode : ShMode) (g amt : Nat) (a b : List Use) : List (Nat × List Use) :=
    match shuffleFrom mode g (l % g) amt with
    | some j => [(l, b), (l / g * g + j, a)]
    | none => [(l, a ++ b)]
  let shfl (mode : ShMode) (o : Shfl) : List (Nat × List Use) :=
    shuffle mode (x.group o.leg) (if o.bi then o.ext.toNat else (x.rv l o.b.toNat).toNat) [uv o.a (if o.ty = .b64 then 2 else 1)]
      (if o.bi then [] else [uv o.b])
  match longOf x.i with
  | .psel _ leg _ a b => [(l / x.group leg * x.group leg + (x.rs b.toNat).toNat % x.group leg, [up a])]
  | .voteAnd _ leg _ a | .voteOr _ leg _ a | .voteEq _ leg _ a => peers (x.group leg) [up a]
  | .voteMask _ leg _ a => peers (if leg then x.legacy else 32) [up a]
  | .shflIdx _ o => shfl .idx o
  | .shflUp _ o => shfl .up o
  | .shflDn _ o => shfl .dn o
  | .shflXor _ o => shfl .xor o
  | .oshfw _ mode _ a b => shuffle mode x.legacy (x.rv l b.toNat).toNat [uv a] [uv b]
  | .redux _ o => peers (if o.opx then 32 else x.width) [uvs o.as o.a]
  | .omma8 _ _ _ d a b => (l, [uv d 8, uv a 2]) :: peers 8 [uv b 2]
  | _ => [(l, own)]

/-- Whether a lane's guard is invalid (R74, R75). -/
def Iss.guardBad (x : Iss) (ra : RunAhead) (l : Nat) : Bool := ra.bad.contains (.p, x.h.pred.toNat, l)

/-- Whether one of some registers is invalid in a lane. -/
def RunAhead.badIn (ra : RunAhead) (us : List Use) (l : Nat) : Bool :=
  ra.bad.any fun b => b.2.2 == l && us.any fun u => u.rd && u.cls == b.1 && decide (u.reg ≤ b.2.1) && decide (b.2.1 < u.reg + u.n)

/-- Whether a lane's result is computed from an invalid operand, a guard among them (R74). -/
def Iss.raBad (x : Iss) (ra : RunAhead) (l : Nat) : Bool :=
  x.guardBad ra l || (x.reads l).any fun m => x.guardBad ra m.1 || (x.act.contains m.1 && ra.badIn m.2 m.1)

/-- Whether a branch's condition or target is invalid in a lane (R75). -/
def Iss.raBranch (x : Iss) (ra : RunAhead) : Bool := (lanesOf x.e.mask).any (x.raBad ra)

/-- The lane and predicate registers that an instruction writes; p0 keeps one (R171). -/
def Iss.dests (x : Iss) : List (RCls × Nat) :=
  ((usesOf x.alg false x.i).filter fun u => u.wr && (u.cls == .v || (u.cls == .p && u.reg != 0))).flatMap fun u =>
    (List.range u.n).map fun j => (u.cls, u.reg + j)

/-- An effect in run-ahead: each row-register is copied before it is first overwritten, a result of an invalid operand is
marked invalid, no flag is set (R74). `none` when the checkpoint buffer is full (R75). -/
def Iss.raCommit (x : Iss) (s : State) (ra : RunAhead) (f : Eff) : Option State :=
  let t := s.team x.core x.slot x.e.team
  let wv := f.v.filter fun w => x.act.contains w.1
  let wp := f.p.filter fun w => w.2.1 != 0
  let rows : List (RCls × Nat × Nat) :=
    ((wv.map fun (w : Nat × Nat × Word) => (RCls.v, w.2.1, w.1 / 32)) ++
        (wp.map fun (w : Nat × Nat × Bool) => (RCls.p, w.2.1, w.1 / 32))).dedup
  let new := rows.filter fun r => !ra.saved.contains r
  if decide (64 < ra.saved.length + new.length) then none
  else
    let lanes := lanesOf x.e.mask
    let keepV := (new.filter fun r => r.1 == .v).foldl (fun (m : Store Word) r =>
      (lanes.filter fun l => l / 32 == r.2.2).foldl (fun m l => m.put (l * 256 + r.2.1) (t.v.get 0 (l * 256 + r.2.1))) m) ra.v
    let keepP := (new.filter fun r => r.1 == .p).foldl (fun (m : Store (BitVec 16)) r =>
      (lanes.filter fun l => l / 32 == r.2.2 && (m.look l).isNone).foldl (fun m l => m.put l (t.p.get 0 l)) m) ra.p
    let wrote : List (RCls × Nat × Nat) := (f.v.map fun w => (RCls.v, w.2.1, w.1)) ++ (wp.map fun w => (RCls.p, w.2.1, w.1))
    let doubt : List (RCls × Nat × Nat) := (lanes.filter (x.guardBad ra)).flatMap fun l => x.dests.map fun d => (d.1, d.2, l)
    let nowBad : List (RCls × Nat × Nat) :=
      (wrote.filter fun w => x.raBad ra w.2.2) ++ doubt ++ (f.bad.map fun b => (RCls.v, b.1, b.2))
    let bad := (ra.bad.filter fun b => !wrote.contains b) ++ nowBad
    let v := f.v.foldl (fun (m : Store Word) w => m.set 0 (w.1 * 256 + w.2.1) w.2.2) t.v
    let p := wp.foldl (fun (m : Store (BitVec 16)) w =>
      let one := BitVec.ofNat 16 (2 ^ w.2.1)
      m.set 0 w.1 (if w.2.2 then m.get 0 w.1 ||| one else m.get 0 w.1 &&& ~~~one)) t.p
    let s1 := s.setTeam x.core x.slot x.e.team { t with v := v, p := p }
    let y := s1.entry x.core x.slot x.entry
    some (s1.setEntry x.core x.slot x.entry
      { y with ra := some { ra with v := keepV, p := keepP, saved := ra.saved ++ new, bad := bad } })

/-- The steps that an issue takes: those that are left of an expansion, else one (R312). -/
def Iss.stepCount (x : Iss) : Nat :=
  match x.i with
  | .omma8 .. => 8 - x.e.ustep.toNat
  | .oldx _ n1 _ _ _ => n1.toNat + 1 - x.e.ustep.toNat
  | _ => 1

/-- The passes of a run-ahead instruction are charged, those of every step of an expansion; the entry stays in run-ahead. -/
def Iss.raCharge (x : Iss) (s : State) (pc : Word) : State :=
  let leaves := (List.range x.stepCount).flatMap fun _ => leavesOf (rowsOf x.e.mask) x.occ [] 0x02
  let total := max 1 leaves.length
  let sx := s.slot x.core x.slot
  let s1 := s.setSlot x.core x.slot { sx with free := x.cyc + total, leaves := leaves }
  let y := s1.entry x.core x.slot x.entry
  s1.setEntry x.core x.slot x.entry
    { y with pc := pc, npc := pc, ibuf := none, till := x.cyc + total + x.h.stall.toNat, stamp := x.cyc + total,
             ra := y.ra.map fun r => { r with count := r.count + 1 } }

/-- One instruction issued in run-ahead, or the end of the episode without it (R75). A branch whose valid condition divides the
sub-team ends it too (log entry 16). -/
def Iss.raIssue (x : Iss) (s : State) (ra : RunAhead) (bad priv : Bool) (work : Iss → Act) : State :=
  let stop := s.endRunAhead x.core x.slot x.entry
  let done (s1 : State) (f : Eff) : State :=
    match x.raCommit s1 ra f with
    | some s2 => x.raCharge s2 x.npc
    | none => stop
  if raEnds x.i || decide (511 ≤ ra.count) || (x.checks bad priv).isSome then stop
  else match work x with
    | .eff f => done s f
    | .go s1 f => done s1 f
    | .jump s1 pc => if x.raBranch ra then stop else x.raCharge s1 pc
    | _ => stop

/-- A team instruction at the issue of an entry: its checks in the order of R183, then its own work. -/
def State.issueTeam (s : State) (c sl e : Nat) (i : Instr) (bad priv : Iss → Bool) (bank : Iss → List Nat)
    (work : Iss → Act) : State :=
  let y := s.iss c sl e i
  match y.e.ra with
  | some ra => y.raIssue s ra (bad y) (priv y) work
  | none =>
    let (x, bs) := y.stretched bank
    match x.checks (bad x) (priv x) with
    | some ti => x.take s ti
    | none => x.finish s bs (work x)

/-! ### The issue of a control-stream instruction (R266, R267, R313) -/

/-- Everything a control-stream instruction reads at issue. -/
structure CIss where
  cl  : Nat
  x   : Control
  l   : Launch
  k   : Kernel
  ver : Vers
  i   : Instr
  h   : Hdr
  npc : Word
  deriving Repr

def State.ciss (s : State) (cl : Nat) (i : Instr) : CIss :=
  let x := s.ctl cl
  let l := s.launchOf x.lid
  let k := s.kernel l.kid
  { cl := cl, x := x, l := l, k := k, ver := k.version x.version, i := i, h := hdrOf i,
    npc := x.pc + BitVec.ofNat 32 (4 * (encode i).length) }

def CIss.rc (y : CIss) (r : BitVec 8) : Dword := y.x.readC r.toNat
def CIss.src (y : CIss) : Src := .control y.cl
def CIss.port (y : CIss) : Nat := 256 + y.cl

/-- The outcome of a control-stream instruction's own work. -/
inductive CAct where
  /-- c registers written; the stream goes on at the next PC. -/
  | eff (ws : List (Nat × Dword))
  | go (s : State) (ws : List (Nat × Dword))
  | jump (s : State) (pc : Word)
  | trap (t : TrapInfo)
  | trapIn (s : State) (t : TrapInfo)
  | sleep (s : State) (w : CWait)
  /-- The instruction does not issue: the stream tries again in the next cycle (R267). -/
  | hold (s : State)
  /-- The state is final. -/
  | stop (s : State)

/-- UNDEF checks of the control stream (R171, R180): stream, guard p0, c and not v or p registers. -/
def CIss.undef (y : CIss) : Bool :=
  !(streamsOf (op9Of y.i)).2 || decide (y.h.pred ≠ 0) || y.h.neg ||
  (usesOf 1 true y.i).any fun u => match u.cls with
    | .s => decide (32 < u.reg + u.n)
    | .v | .p => true
    | .h => false

/-- CHK in the control stream (R189, R300). -/
def CIss.early (y : CIss) : Option Word :=
  if !y.x.mode.getLsbD 0 then none
  else (y.x.late.find? fun r => decide (y.x.cycle < r.avail) &&
    (usesOf 1 true y.i).any fun u => u.cls == r.cls && decide (u.reg ≤ r.reg) && decide (r.reg < u.reg + u.n)).map Late.pc

/-- Marks on the c registers read (R132, R274). -/
def CIss.marked (y : CIss) : Option TrapInfo :=
  (y.x.marks.find? fun m => (usesOf 1 true y.i).any fun u => u.rd && u.cls == .s && u.reg == m.reg).map fun (m : Mark) =>
    { cause := m.cause, va := m.va, code := if m.cause = 0x0B then 0 else m.pc }

/-- Charges the pass and the stall count (R50, R267). -/
def CIss.charge (y : CIss) (s : State) (pc : Word) (sleeping : Option CWait) : State :=
  let z := s.ctl y.cl
  let till := y.x.cycle + 1 + y.h.stall.toNat
  s.setCtl y.cl
    (match sleeping with
     | some w => { z with npc := y.npc, till := till, free := y.x.cycle + 1, st := .asleep w }
     | none => { z with pc := pc, npc := pc, ibuf := none, till := till, free := y.x.cycle + 1, st := .stalled till })

/-- One c register written (R185); a write of c0 has no effect (R213). -/
def CIss.step (y : CIss) (fr : Nat) (a : Store Dword × List Late) (w : Nat × Dword) : Store Dword × List Late :=
  if w.1 = 0 then a
  else match latencyOf y.i with
    | none => (a.1.set 0 w.1 w.2, lateForget a.2 .s w.1 0)
    | some n =>
      let r := lateWrite a.2 { cls := .s, reg := w.1, lane := 0, avail := y.x.cycle + n, old := a.1.get 0 w.1, pc := y.x.pc } w.2
        (Config.freeBool (fr + w.1))
      (a.1.set 0 w.1 r.2, r.1)

/-- Writes c registers with the latency of the scalar group (R186, R213). -/
def CIss.commit (y : CIss) (s : State) (ws : List (Nat × Dword)) : State :=
  let z := s.ctl y.cl
  let late := z.late.filter fun r => decide (y.x.cycle < r.avail)
  let r := ws.foldl (y.step s.fresh) (z.c, late)
  State.setCtl { s with fresh := if late.isEmpty || ws.isEmpty then s.fresh else s.fresh + 64 } y.cl
    { z with c := r.1, late := r.2, marks := z.marks.filter fun m => !(ws.any fun w => w.1 == m.reg) }

def CIss.finish (y : CIss) (s : State) : CAct → State
  | .eff ws => y.charge (y.commit s ws) y.npc none
  | .go s1 ws => y.charge (y.commit s1 ws) y.npc none
  | .jump s1 pc => y.charge s1 pc none
  | .trap ti => s.takeCtlTrap y.cl (encode y.i) y.npc ti
  | .trapIn s1 ti => s1.takeCtlTrap y.cl (encode y.i) y.npc ti
  | .sleep s1 w => y.charge s1 y.npc (some w)
  | .hold s1 => s1.setCtl y.cl { s1.ctl y.cl with cycle := (s1.ctl y.cl).cycle + 1 }
  | .stop s1 => s1

/-- The checks of R183 rows 3 to 6 in the control stream. -/
def CIss.checks (y : CIss) (bad priv : Bool) : Option TrapInfo :=
  if y.undef || bad then some { cause := 0x01 }
  else if priv then some { cause := 0x02 }
  else match y.early with
    | some pc => some { cause := 0x05, va := pc.setWidth 64 }
    | none => y.marked

/-- A control-stream instruction at its issue. -/
def State.issueCtl (s : State) (cl : Nat) (i : Instr) (bad priv : CIss → Bool) (work : CIss → CAct) : State :=
  let y := s.ciss cl i
  match y.checks (bad y) (priv y) with
  | some ti => s.takeCtlTrap cl (encode i) y.npc ti
  | none => y.finish s (work y)

/-! ### Meanings by stream -/

abbrev Out := Host.Outcome State Fault Refusal

/-- An instruction of the team stream alone: in a control stream it traps UNDEF (R180); with nobody issuing the state stays. -/
def teamOnly (i : Instr) (s : State) (bad priv : Iss → Bool) (bank : Iss → List Nat) (work : Iss → Act) : Out :=
  match s.cur with
  | .team c sl e => .next (s.issueTeam c sl e i bad priv bank work)
  | .control cl => .next (s.issueCtl cl i (fun _ => true) (fun _ => false) (fun _ => .eff []))
  | .none => .next s

/-- An instruction of the control stream alone: in a team stream it traps UNDEF (R72, R180). -/
def ctlOnly (i : Instr) (s : State) (bad : CIss → Bool) (work : CIss → CAct) : Out :=
  match s.cur with
  | .team c sl e => .next (s.issueTeam c sl e i (fun _ => true) (fun _ => false) (fun _ => []) (fun _ => .eff {}))
  | .control cl => .next (s.issueCtl cl i bad (fun _ => false) work)
  | .none => .next s

/-- An instruction of both streams. -/
def bothStreams (i : Instr) (s : State) (bad priv : Iss → Bool) (work : Iss → Act)
    (cbad cpriv : CIss → Bool) (cwork : CIss → CAct) : Out :=
  match s.cur with
  | .team c sl e => .next (s.issueTeam c sl e i bad priv (fun _ => []) work)
  | .control cl => .next (s.issueCtl cl i cbad cpriv cwork)
  | .none => .next s

/-- No further condition. -/
def never {α : Type} (_ : α) : Bool := false
def noBank {α : Type} (_ : α) : List Nat := []

/-- A vector instruction that only computes (R216, R219). -/
def pureOp (i : Instr) (s : State) (bad : Iss → Bool) (f : Iss → Eff) : Out :=
  teamOnly i s bad never noBank (fun x => .eff (f x))

end Sys2Proof.Machine
end

