-- ==== Sys2Proof/Machine/Num.lean ====
section
/-! DEFINITION. Numbers (chapter 04): floating-point values exactly, rounding with its flags (R85 to R87), special values
(R84, R96), conversions to integers (R89), the special functions of R230 within their error bounds, and integers of a type. -/

namespace Sys2Proof.Machine

/-! ### Flags (R90) -/

abbrev Flags := BitVec 6
def fNone : Flags := 0
def fNV : Flags := 1
def fDZ : Flags := 2
def fOF : Flags := 4
def fUF : Flags := 8
def fNX : Flags := 16
def fSCLO : Flags := 32

/-! ### Integers of a type (R79, R80) -/

/-- The numeric value of `n` low bits read as two's complement or natural. -/
def intOf (signed : Bool) (n w : Nat) : Int :=
  let u := w % 2 ^ n
  if signed && decide (2 ^ (n - 1) ≤ u) then (u : Int) - (2 ^ n : Nat) else (u : Int)

/-- A value's `n` low bits. -/
def bitsOfInt (n : Nat) (x : Int) : Nat := (x % ((2 ^ n : Nat) : Int)).toNat

/-- The least and the greatest value of an integer format (R79). -/
def intMin (signed : Bool) (n : Nat) : Int := if signed then -((2 ^ (n - 1) : Nat) : Int) else 0
def intMax (signed : Bool) (n : Nat) : Int := if signed then ((2 ^ (n - 1) : Nat) : Int) - 1 else ((2 ^ n : Nat) : Int) - 1

/-- `Saturate(x, t)` (R10). -/
def saturate (signed : Bool) (n : Nat) (x : Int) : Int := max (intMin signed n) (min (intMax signed n) x)

/-- An operand's value as a number of an integer type. -/
def valOf (t : Ty) (w : Nat) : Int := intOf t.isSigned t.bits w

/-! ### Floating-point formats (R82) -/

/-- A format: exponent and fraction widths. -/
structure Fmt where
  e : Nat
  f : Nat
  deriving DecidableEq, Repr

def Fmt.f16 : Fmt := ⟨5, 10⟩
def Fmt.bf16 : Fmt := ⟨8, 7⟩
def Fmt.f32 : Fmt := ⟨8, 23⟩
def Fmt.f64 : Fmt := ⟨11, 52⟩

/-- The format of a type, or of the halves of a packed type (R83). -/
def fmtOf : Ty → Fmt
  | .f16 | .hx2 => .f16
  | .bf16 | .bx2 => .bf16
  | .f64 => .f64
  | _ => .f32

def Fmt.bias (m : Fmt) : Nat := 2 ^ (m.e - 1) - 1
def Fmt.width (m : Fmt) : Nat := 1 + m.e + m.f
def Fmt.emin (m : Fmt) : Int := 1 - (m.bias : Int)
/-- The canonical NaN (R82, R84). -/
def Fmt.nan (m : Fmt) : Nat := (2 ^ m.e - 1) * 2 ^ m.f + 2 ^ (m.f - 1)
def Fmt.inf (m : Fmt) (neg : Bool) : Nat := (2 ^ m.e - 1) * 2 ^ m.f + (if neg then 2 ^ (m.e + m.f) else 0)
def Fmt.maxFin (m : Fmt) (neg : Bool) : Nat := (2 ^ m.e - 1) * 2 ^ m.f - 1 + (if neg then 2 ^ (m.e + m.f) else 0)
def Fmt.zero (m : Fmt) (neg : Bool) : Nat := if neg then 2 ^ (m.e + m.f) else 0
/-- Whether LDNF acts on the format (R88): `.f32`, `.f16` and `.hx2`. -/
def Fmt.flushed (m : Fmt) : Bool := m == .f32 || m == .f16

/-- A floating-point value: a NaN, signalling or not, an infinity, or (−1)^neg · m · 2^e. -/
inductive FV where
  | nan (sig : Bool)
  | inf (neg : Bool)
  | fin (neg : Bool) (m : Nat) (e : Int)
  deriving DecidableEq, Repr

/-- The value of a format's bits. -/
def Fmt.dec (k : Fmt) (w : Nat) : FV :=
  let neg := decide (w / 2 ^ (k.e + k.f) % 2 = 1)
  let ex := w / 2 ^ k.f % 2 ^ k.e
  let fr := w % 2 ^ k.f
  if ex = 2 ^ k.e - 1 then (if fr = 0 then .inf neg else .nan (decide (fr < 2 ^ (k.f - 1))))
  else if ex = 0 then .fin neg fr (k.emin - (k.f : Int))
  else .fin neg (fr + 2 ^ k.f) ((ex : Int) - (k.bias : Int) - (k.f : Int))

/-- Bits of a subnormal value. -/
def Fmt.subnormal (k : Fmt) (w : Nat) : Bool := decide (w / 2 ^ k.f % 2 ^ k.e = 0) && decide (w % 2 ^ k.f ≠ 0)

/-- An operand as the operation sees it: a subnormal flushed under LDNF (R88). -/
def Fmt.opnd (k : Fmt) (ldnf : Bool) (w : Nat) : FV :=
  if ldnf && k.flushed && k.subnormal w then .fin (decide (w / 2 ^ (k.e + k.f) % 2 = 1)) 0 0 else k.dec w

/-- An operand's bits after the flush of LDNF (R88). -/
def Fmt.flush (k : Fmt) (ldnf : Bool) (w : Nat) : Nat :=
  if ldnf && k.flushed && k.subnormal w then k.zero (decide (w / 2 ^ (k.e + k.f) % 2 = 1)) else w % 2 ^ k.width

def FV.isNan : FV → Bool | .nan _ => true | _ => false
def FV.isSig : FV → Bool | .nan s => s | _ => false
def FV.neg? : FV → FV
  | .nan s => .nan s | .inf n => .inf (!n) | .fin n m e => .fin (!n) m e

/-! ### Rounding (R85 to R87) -/

/-- Whether the magnitude below a cut rounds up: the cut is at `2^sh`, `odd` tells the kept part odd. -/
def roundsUp (rnd : Rnd) (neg odd : Bool) (rem sh : Nat) : Bool :=
  if rem = 0 then false
  else match rnd with
    | .none | .rn => decide (2 ^ (sh - 1) < rem) || (decide (rem = 2 ^ (sh - 1)) && odd)
    | .rna => decide (2 ^ (sh - 1) ≤ rem)
    | .rz => false
    | .rd => neg
    | .ru => !neg

/-- `m · 2^e` as a multiple of `2^q`, rounded: the multiple and whether rounding changed the value. -/
def roundTo (rnd : Rnd) (neg : Bool) (m : Nat) (e q : Int) : Nat × Bool :=
  if q ≤ e then (m * 2 ^ (e - q).toNat, false)
  else
    let sh := (q - e).toNat
    let n := m / 2 ^ sh
    let rem := m % 2 ^ sh
    (if roundsUp rnd neg (decide (n % 2 = 1)) rem sh then n + 1 else n, decide (rem ≠ 0))

/-- The exponent of a non-zero magnitude's leading bit. -/
def msb (m : Nat) (e : Int) : Int := (Nat.log2 m : Int) + e

/-- An exact finite value rounded once to a format, with its flags (R86, R87): tininess is detected after rounding. -/
def Fmt.round (k : Fmt) (rnd : Rnd) (ldnf neg : Bool) (m : Nat) (e : Int) : Nat × Flags :=
  let s := if neg then 2 ^ (k.e + k.f) else 0
  if m = 0 then (s, 0)
  else
    let q := max (msb m e - (k.f : Int)) (k.emin - (k.f : Int))
    let (n, nx) := roundTo rnd neg m e q
    if n = 0 then (s, fUF ||| fNX)
    else if (k.bias : Int) < msb n q then
      (match rnd with
       | .none | .rn | .rna => k.inf neg
       | .rz => k.maxFin neg
       | .rd => if neg then k.inf true else k.maxFin false
       | .ru => if neg then k.maxFin true else k.inf false, fOF ||| fNX)
    else
      let bits := if n < 2 ^ k.f then n else
        let n' := if n = 2 ^ (k.f + 1) then 2 ^ k.f else n
        ((msb n q + (k.bias : Int)).toNat) * 2 ^ k.f + (n' - 2 ^ k.f)
      let (u, _) := roundTo rnd neg m e (msb m e - (k.f : Int))
      let tiny := decide (msb u (msb m e - (k.f : Int)) < k.emin)
      let fl : Flags := (if nx then fNX else 0) ||| (if tiny && nx then fUF else 0)
      if ldnf && k.flushed && decide (n < 2 ^ k.f) then (s, fUF ||| fNX) else (s + bits, fl)

/-- An exact value: what a sum of terms comes to before its rounding. -/
inductive Ex where
  | nan (nv : Bool)
  | inf (neg : Bool)
  | num (neg : Bool) (m : Nat) (e : Int)
  deriving DecidableEq, Repr

/-- A product of two values: Inf × 0 is an invalid operation (R227). -/
def FV.mul (a b : FV) : FV :=
  match a, b with
  | .nan s, .nan t => .nan (s || t)
  | .nan s, _ => .nan s
  | _, .nan s => .nan s
  | .inf n, .inf k => .inf (n != k)
  | .inf n, .fin k m _ => if m = 0 then .nan true else .inf (n != k)
  | .fin k m _, .inf n => if m = 0 then .nan true else .inf (n != k)
  | .fin n m e, .fin k p f => .fin (n != k) (m * p) (e + f)

/-- The exact sum of terms (R86, R227): a signalling NaN or an invalid product is invalid, so are opposite infinities; the
sign of an exact zero is that of its terms when they agree, else the rounding mode's; an empty sum is +0. -/
def sumEx (rnd : Rnd) (ts : List FV) : Ex :=
  let sig := ts.any FV.isSig
  if ts.any FV.isNan then .nan sig
  else
    let pinf := ts.any fun t => t == .inf false
    let ninf := ts.any fun t => t == .inf true
    if pinf && ninf then .nan true
    else if pinf then .inf false
    else if ninf then .inf true
    else
      let e := ts.foldl (fun (a : Int) t => match t with | .fin _ m f => if m = 0 then a else min a f | _ => a) 4096
      let v := ts.foldl (fun (a : Int) t => match t with
        | .fin n m f => if m = 0 then a else
            (let x : Int := ((m * 2 ^ (f - e).toNat : Nat) : Int)
             if n then a - x else a + x)
        | _ => a) 0
      let allNeg := !ts.isEmpty && ts.all fun t => match t with | .fin n m _ => n && decide (m = 0) | _ => false
      let allPos := ts.all fun t => match t with | .fin n m _ => !n && decide (m = 0) | _ => false
      if v = 0 then .num (if allNeg then true else if allPos then false else rnd == .rd) 0 0
      else .num (decide (v < 0)) v.natAbs e

/-- An exact value rounded to a format with its flags (R84, R86). -/
def Fmt.fin (k : Fmt) (rnd : Rnd) (ldnf : Bool) : Ex → Nat × Flags
  | .nan nv => (k.nan, if nv then fNV else 0)
  | .inf neg => (k.inf neg, 0)
  | .num neg m e => k.round rnd ldnf neg m e

/-- The exact value of one operand. -/
def FV.ex : FV → Ex
  | .nan s => .nan s
  | .inf n => .inf n
  | .fin n m e => .num n m e

/-! ### Comparisons, minimum and maximum (R205, R229) -/

/-- A value as a multiple of `2^e`, `e` at most its own exponent. -/
def FV.scaled (e : Int) : FV → Int
  | .fin n m f => let x : Int := ((m * 2 ^ (f - e).toNat : Nat) : Int); if n then -x else x
  | _ => 0

/-- Less-than of two values that are no NaN; −0 equals +0. -/
def FV.lt (a b : FV) : Bool :=
  match a, b with
  | .inf n, .inf k => n && !k
  | .inf n, _ => n
  | _, .inf k => !k
  | .fin _ _ e, .fin _ _ f => decide (a.scaled (min e f) < b.scaled (min e f))
  | _, _ => false

def FV.isNeg : FV → Bool
  | .inf n => n
  | .fin n _ _ => n
  | .nan _ => false

/-- Order of `FMIN` and `FMAX`: −0 lies below +0 (R229). -/
def FV.below (a b : FV) : Bool := a.lt b || (!b.lt a && a.isNeg && !b.isNeg)

/-- `FMIN` (`hi` false) and `FMAX` of two operands' bits (R229). -/
def Fmt.minmax (k : Fmt) (ldnf hi : Bool) (a b : Nat) : Nat × Flags :=
  let a := k.flush ldnf a
  let b := k.flush ldnf b
  let x := k.dec a
  let y := k.dec b
  let fl : Flags := if x.isSig || y.isSig then fNV else 0
  match x.isNan, y.isNan with
  | true, true => (k.nan, fl)
  | true, false => (b, fl)
  | false, true => (a, fl)
  | false, false => (if (if hi then x.below y else y.below x) then b else a, fl)

/-! ### Rounding to an integer (R89, R232, R235) -/

/-- A finite value rounded to an integer, and whether that changed it. -/
def roundInt (rnd : Rnd) (neg : Bool) (m : Nat) (e : Int) : Int × Bool :=
  let (n, nx) := roundTo rnd neg m e 0
  (if neg then -(n : Int) else (n : Int), nx)

/-! ### Special functions (R230, R231; log entry 7)

An ideal result lies in an interval of fixed-point numbers with `specK` fraction bits. The result is the value that the
device gives (`Config.special`) where it lies within the bound of R230 around the interval, else the ideal one rounded to
nearest. -/

/-- Fraction bits of the fixed-point numbers. -/
def specK : Nat := 512
/-- π with `specK` fraction bits, rounded down. -/
def piK : Nat := 0x3243f6a8885a308d313198a2e03707344a4093822299f31d0082efa98ec4e6c89452821e638d01377be5466cf34e90c6cc0ac29b7c97c50dd3f84d5b5b5470917
/-- The natural logarithm of 2 with `specK` fraction bits, rounded down. -/
def ln2K : Nat := 0xb17217f7d1cf79abc9e3b39803f2f6af40f343267298b62d8a0d175b8baafa2be7b876206debac98559552fb4afa1b10ed2eae35c138214427573b291169b825

/-- Square root of `n` rounded down, by bits from `2^k` downward. -/
def isqrtBits (n : Nat) : Nat → Nat → Nat
  | 0, r => r
  | k + 1, r => let t := r + 2 ^ k; isqrtBits n k (if t * t ≤ n then t else r)

def isqrt (n : Nat) : Nat := isqrtBits n (Nat.log2 n / 2 + 1) 0

/-- A finite value with `specK` fraction bits, rounded down. -/
def fixedK (m : Nat) (e : Int) : Nat :=
  let s := e + specK
  if 0 ≤ s then m * 2 ^ s.toNat else m / 2 ^ (-s).toNat

/-- Taylor terms of `x^n/n!` from term `n` on, all `specK` fixed-point: the sum of `fuel` terms, alternating by pairs when
`alt`; `step` is 1 for the exponential and 2 for sine and cosine. -/
def taylor (x step : Nat) (alt : Bool) : Nat → Nat → Int → Bool → Int
  | 0, _, _, _ => 0
  | fuel + 1, n, term, neg =>
    let next : Int :=
      if step = 1 then term * (x : Int) / (2 ^ specK : Nat) / ((n + 1 : Nat) : Int)
      else term * (x : Int) / (2 ^ specK : Nat) * (x : Int) / (2 ^ specK : Nat) / (((n + 1) * (n + 2) : Nat) : Int)
    (if neg then -term else term) + taylor x step alt fuel (n + step) next (alt && !neg)

/-- `2^(t/2^specK)` for `t` below `2^specK`, `specK` fraction bits. -/
def exp2Frac (t : Nat) : Nat := (taylor (t * ln2K / 2 ^ specK) 1 false 100 0 ((2 ^ specK : Nat) : Int) false).toNat

/-- The series of the inverse hyperbolic tangent: Σ z^(2k+1)/(2k+1). -/
def atanhSeries (z2 : Nat) : Nat → Nat → Nat → Nat
  | 0, _, _ => 0
  | fuel + 1, n, p => p / n + atanhSeries z2 fuel (n + 2) (p * z2 / 2 ^ specK)

/-- `log2(y/2^specK)` for `y` from `2^specK` up to twice that. -/
def log2Frac (y : Nat) : Nat :=
  let one := 2 ^ specK
  let z := (y - one) * one / (y + one)
  2 * atanhSeries (z * z / one) 120 1 z * one / ln2K

/-- Sine (`c` false) or cosine of a fixed-point angle below 2π. -/
def sinFrac (c : Bool) (r : Nat) : Int :=
  if c then taylor r 2 true 60 0 ((2 ^ specK : Nat) : Int) false
  else taylor r 2 true 60 1 (r : Int) false

/-- The ideal value of a special function at a finite operand, fixed-point with `specK` fraction bits, and whether it is a
value that the format can hold without rounding (R231). -/
def specIdeal (op : Nat) (neg : Bool) (m : Nat) (e : Int) : Int × Bool :=
  let one : Nat := 2 ^ specK
  let pow2 := decide (m = 2 ^ Nat.log2 m)
  match op with
  | 0x0C8 => -- FRCP
    let v : Nat := if 0 ≤ e then one / (m * 2 ^ e.toNat) else one * 2 ^ (-e).toNat / m
    (if neg then -(v : Int) else v, pow2)
  | 0x0C9 => -- FRSQ: the root of 1/(m·2^e)
    let sq : Nat := if 0 ≤ e then one * one / (m * 2 ^ e.toNat) else one * one * 2 ^ (-e).toNat / m
    (isqrt sq, pow2 && decide ((msb m e) % 2 = 0))
  | 0x0CB => -- FEXP2
    let x := fixedK m e
    let t : Int := if neg then -(x : Int) else (x : Int)
    let n := t / ((one : Nat) : Int)
    let f := (t % ((one : Nat) : Int)).toNat
    let n := max (-400) (min n 1100)
    let v := exp2Frac f
    (if 0 ≤ n then ((v * 2 ^ n.toNat : Nat) : Int) else ((v / 2 ^ (-n).toNat : Nat) : Int), decide (f = 0))
  | 0x0CC => -- FLOG2
    let b := msb m e
    let y := fixedK m (e - b)
    (b * ((one : Nat) : Int) + (log2Frac y : Nat), pow2)
  | _ => -- FSIN, FCOS
    let x := fixedK m e
    let r := x % (2 * piK)
    let v := sinFrac (op == 0x0CE) r
    (if neg && op == 0x0CD then -v else v, false)

/-- A fixed-point number rounded to a format to nearest. -/
def fixedRound (k : Fmt) (ldnf : Bool) (v : Int) : Nat × Flags :=
  k.round .rn ldnf (decide (v < 0)) v.natAbs (-(specK : Int))

/-- A format value as a fixed-point number. -/
def FV.fixed : FV → Int
  | .fin n m e => let x : Int := (fixedK m e : Nat); if n then -x else x
  | _ => 0

/-- The error bound of R230 around an ideal value, fixed-point. -/
def specBound (op : Nat) (k : Fmt) (ideal : Int) : Nat :=
  let ulp : Nat :=
    let b := if ideal = 0 then k.emin else max (msb ideal.natAbs (-(specK : Int))) k.emin
    fixedK 1 (b - (k.f : Int))
  if k != .f32 then ulp
  else match op with
    | 0x0C8 => ulp
    | 0x0C9 | 0x0CB => 2 * ulp
    | 0x0CC => if decide (((2 ^ specK : Nat) : Int) < ideal) || decide (ideal < -((2 ^ specK : Nat) : Int)) then 2 * ulp else 2 ^ (specK - 22)
    | _ => 2 ^ (specK - 21)

/-- The result of a special function but `FSQRT` on an operand's bits (R230, R231). -/
def special (op : Nat) (ty : Ty) (ldnf : Bool) (w : Nat) : Nat × Flags :=
  let k := fmtOf ty
  let w := k.flush ldnf w
  match k.dec w with
  | .nan s => (k.nan, if s then fNV else 0)
  | .inf neg =>
    (match op with
     | 0x0C8 => (k.zero neg, 0)
     | 0x0C9 => if neg then (k.nan, fNV) else (k.zero false, 0)
     | 0x0CB => if neg then (k.zero false, 0) else (k.inf false, 0)
     | 0x0CC => if neg then (k.nan, fNV) else (k.inf false, 0)
     | _ => (k.nan, fNV))
  | .fin neg m e =>
    if m = 0 then
      (match op with
       | 0x0C8 | 0x0C9 => (k.inf neg, fDZ)
       | 0x0CB => (k.round .rn false false 1 0)
       | 0x0CC => (k.inf true, fDZ)
       | 0x0CD => (k.zero neg, 0)
       | _ => (k.round .rn false false 1 0))
    else if neg && (op = 0x0C9 || op = 0x0CC) then (k.nan, fNV)
    else
      let (v, exact) := specIdeal op neg m e
      let near := fixedRound k ldnf v
      -- the exact results that R230 promises, and results beyond the format's range, are not free
      if (exact && near.2 == 0 && (op = 0x0CB || op = 0x0CC)) || (near.2 &&& fOF) != 0 then near
      else
        let c := (Config.special op ty (BitVec.ofNat 64 w)).toNat % 2 ^ k.width
        let x := k.dec c
        let ok := (match x with | .fin .. => true | _ => false) &&
          decide ((x.fixed - v).natAbs ≤ specBound op k v + 1) && !(ldnf && k.flushed && k.subnormal c)
        if !ok || (exact && near.2 == 0 && c = near.1) then near
        else (c, fNX ||| (if k.subnormal c || decide (c % 2 ^ (k.e + k.f) = 0) then fUF else 0))

/-- `FSQRT`, correctly rounded (R230, R231): the root of `m·2^e` to more bits than the format holds, with a sticky bit. -/
def fsqrt (ty : Ty) (rnd : Rnd) (ldnf : Bool) (w : Nat) : Nat × Flags :=
  let k := fmtOf ty
  let w := k.flush ldnf w
  match k.dec w with
  | .nan s => (k.nan, if s then fNV else 0)
  | .inf neg => if neg then (k.nan, fNV) else (k.inf false, 0)
  | .fin neg m e =>
    if m = 0 then (w, 0)
    else if neg then (k.nan, fNV)
    else
      let up : Nat := if e % 2 = 0 then 128 else 129
      let n := m * 2 ^ up
      let r := isqrt n
      let sticky := if r * r = n then 0 else 1
      k.round rnd ldnf false (2 * r + sticky) ((e - (up : Int)) / 2 - 1)

/-! ### The matrix engine's arithmetic (R93 to R97): binary32, ties to even, no flags, no LDNF -/

/-- `RoundF32(x·y, rn)` of two bfloat16 components as binary32 bits (R93). -/
def mxMul (x y : Nat) : Nat := (Fmt.f32.fin .rn false (((Fmt.bf16.dec x).mul (Fmt.bf16.dec y)).ex)).1
/-- `RoundF32(x + y, rn)` (R95). -/
def mxAdd (x y : Nat) : Nat := (Fmt.f32.fin .rn false (sumEx .rn [Fmt.f32.dec x, Fmt.f32.dec y])).1
/-- An exact negation of binary32 bits; a NaN stays the canonical one (R93, R96). -/
def mxNeg (x : Nat) : Nat := if (Fmt.f32.dec x).isNan then Fmt.f32.nan else x ^^^ 2 ^ 31
/-- One level of the pairwise tree (R95). -/
def mxPairs : List Nat → List Nat
  | a :: b :: r => mxAdd a b :: mxPairs r
  | r => r
/-- The 64 terms summed by the fixed tree (R95). -/
def mxTree (t : List Nat) : Nat := (mxPairs (mxPairs (mxPairs (mxPairs (mxPairs (mxPairs t)))))).headD 0
/-- A drain to `.bf16` (R97). -/
def mxNarrow (x : Nat) : Nat := (Fmt.bf16.fin .rn false ((Fmt.f32.dec x).ex)).1

/-! ### LI8 (R105 to R107) -/

/-- The element reconstructed from a code's top `p` bits and the scale code `c` (R106, R107), as bfloat16 bits. -/
def li8 (p : Nat) (c code : Nat) : Nat :=
  if c = 0 then 0
  else if c = 255 then Fmt.bf16.nan
  else
    let t := intOf true p (code / 2 ^ (8 - p))
    let x := t * ((2 ^ (8 - p) : Nat) : Int) + (if p < 8 then ((2 ^ (7 - p) : Nat) : Int) else 0)
    (Fmt.bf16.round .rn false (decide (x < 0)) x.natAbs ((c : Int) - 127)).1

/-- The scale code that R108 derives, unclamped, from a non-zero finite magnitude `m·2^e`. -/
def qscaleCode (m : Nat) (e : Int) : Int :=
  match (List.range 80).find? fun j => decide (256 * m ≤ 127 * 2 ^ j) with
  | some j => e + (j : Int) - 8 + 127
  | none => 254

end Sys2Proof.Machine
end

