-- ==== Sys2Proof/Machine/Flags.lean ====
section
/-! DEFINITION. Flag computations and operand values of the arithmetic groups: operands of R215, narrow results of R80, the
legacy mode bits of R88, `.sat` of R228, per-half operation of packed types (R83), comparisons of R205. -/

namespace Sys2Proof.Machine

/-! ### Mode bits (R88, R300) -/

def Iss.ldnf (x : Iss) : Bool := x.mode 1
def Iss.lrnd (x : Iss) : Bool := x.mode 2

/-! ### Operands (R170, R215) -/

/-- The immediate of R170: the literal, or EXT32 sign-extended where 64 bits are needed. -/
def immOf (ty : Ty) (ext : Word) (lit : Option Dword) : Nat :=
  if ty.is64 then (match lit with | some l => l.toNat | none => (ext.signExtend 64).toNat) else ext.toNat

/-- A register operand in lane `l`: v or s, one register or a pair. -/
def Iss.opnd (x : Iss) (wide s : Bool) (r : BitVec 8) (l : Nat) : Nat :=
  if s then (if wide then (x.rs2 r.toNat).toNat else (x.rs r.toNat).toNat)
  else (if wide then (x.rv2 l r.toNat).toNat else (x.rv l r.toNat).toNat)

def Iss.opA (x : Iss) (o : Alu) (l : Nat) : Nat := x.opnd o.ty.is64 o.as o.a l
def Iss.opB (x : Iss) (o : Alu) (l : Nat) : Nat :=
  if o.bi then immOf o.ty o.ext o.lit else x.opnd o.ty.is64 o.bs o.b l
def Iss.opC (x : Iss) (o : Alu) (l : Nat) : Nat := x.opnd o.ty.is64 false o.c l

/-- A result in a lane's destination (R80): narrow integers extended, halves zero-extended, 64 bits in a pair. -/
def resV (ty : Ty) (d : BitVec 8) (l v : Nat) : List (Nat × Nat × Word) :=
  if ty.is64 then [(l, d.toNat, BitVec.ofNat 32 v), (l, d.toNat + 1, BitVec.ofNat 32 (v / 2 ^ 32))]
  else [(l, d.toNat, BitVec.ofNat 32 (extend ty 32 v))]

/-- A result in each active lane, with its flags (R91, R216). -/
def Iss.each (x : Iss) (ty : Ty) (d : BitVec 8) (f : Nat → Nat × Flags) : Eff :=
  let rs := x.act.map fun l => (l, f l)
  { v := rs.flatMap fun r => resV ty d r.1 r.2.1
    flags := (rs.filter fun r => r.2.2 != 0).map fun r => (r.1, r.2.2) }

/-- A result without flags in each active lane. -/
def Iss.eachI (x : Iss) (ty : Ty) (d : BitVec 8) (f : Nat → Nat) : Eff := x.each ty d (fun l => (f l, 0))

/-- The exact integer value `v` narrowed to a type (R220). -/
def narrow (ty : Ty) (sat : Bool) (v : Int) : Nat :=
  bitsOfInt ty.bits (if sat then saturate ty.isSigned ty.bits v else v)

/-! ### Shifts and comparisons shared by the scalar and the vector group (R213, R223) -/

/-- `SHL`, `SHR`, `SRA` of width `n`: kinds 0, 1 and 2. -/
def shiftOp (kind n a b : Nat) : Nat :=
  match kind with
  | 0 => if n ≤ b then 0 else a * 2 ^ b % 2 ^ n
  | 1 => if n ≤ b then 0 else a / 2 ^ b
  | _ => let v := intOf true n a
         bitsOfInt n (if n ≤ b then (if v < 0 then -1 else 0) else v / ((2 ^ b : Nat) : Int))

/-- `SCMP`'s and `SETP`'s comparison of two ordered values (R174, R212). -/
def cmpInt (c : Nat) (a b : Int) : Bool :=
  match c with
  | 0 => decide (a = b)
  | 1 => decide (a ≠ b)
  | 2 => decide (a < b)
  | 3 => decide (a ≤ b)
  | 4 => decide (b < a)
  | _ => decide (b ≤ a)

/-- `SETP` of floating-point operands (R205): the outcome and NV. -/
def cmpFloat (c : Cmp) (a b : FV) : Bool × Flags :=
  let un := a.isNan || b.isNan
  let sig := a.isSig || b.isSig
  let ord := match c with | .lt | .le | .gt | .ge => true | _ => false
  let fl : Flags := if sig || (ord && un) then fNV else 0
  let r := match c with
    | .eq => !un && !a.lt b && !b.lt a
    | .ne => un || a.lt b || b.lt a
    | .lt => !un && a.lt b
    | .le => !un && !b.lt a
    | .gt => !un && b.lt a
    | .ge => !un && !a.lt b
    | .num => !un
    | .nan => un
  (r, fl)

/-! ### Floating-point results (R83, R228) -/

/-- `.sat` after rounding (R228). -/
def satFloat (k : Fmt) (w : Nat) : Nat :=
  match k.dec w with
  | .nan _ => 0
  | .inf n => if n then 0 else (k.round .rn false false 1 0).1
  | .fin n m e => if n then 0
    else if (FV.fin false 1 0).lt (.fin n m e) then (k.round .rn false false 1 0).1 else w

/-- An operation on one operand's halves, or on the whole (R83): each element flagged on its own. -/
def perHalf (ty : Ty) (f : Nat → Nat × Flags) : Nat × Flags :=
  match ty with
  | .hx2 | .bx2 =>
    let lo := f 0
    let hi := f 16
    (lo.1 % 65536 + 65536 * (hi.1 % 65536), lo.2 ||| hi.2)
  | _ => f 0

/-- The element of an operand at bit `i`. -/
def elem (ty : Ty) (w i : Nat) : Nat :=
  match ty with
  | .hx2 | .bx2 => w / 2 ^ i % 65536
  | _ => w

/-- A float operation whose exact value is a sum of terms, rounded once, then `.sat` (R227, R228). -/
def sumOp (k : Fmt) (rnd : Rnd) (ldnf sat : Bool) (ts : List FV) : Nat × Flags :=
  let r := k.fin rnd ldnf (sumEx rnd ts)
  (if sat then satFloat k r.1 else r.1, r.2)

/-- A conversion from a floating value to an integer type (R89). -/
def toInt (ty : Ty) (rnd : Rnd) (v : FV) : Nat × Flags :=
  match v with
  | .nan _ => (0, fNV)
  | .inf n => (bitsOfInt ty.bits (if n then intMin ty.isSigned ty.bits else intMax ty.isSigned ty.bits), fNV)
  | .fin n m e =>
    let (i, nx) := roundInt rnd n m e
    let c := saturate ty.isSigned ty.bits i
    (bitsOfInt ty.bits c, if c ≠ i then fNV else if nx then fNX else 0)

/-- A float rounded to an integral value of its own format (R232). -/
def toIntegral (k : Fmt) (rnd : Rnd) (w : Nat) : Nat × Flags :=
  match k.dec w with
  | .nan s => (k.nan, if s then fNV else 0)
  | .inf n => (k.inf n, 0)
  | .fin n m e =>
    let (i, nx) := roundInt rnd n m e
    ((k.round .rn false n i.natAbs 0).1, if nx then fNX else 0)

end Sys2Proof.Machine
end

