-- ==== Sys2Proof/Machine/IntAlu.lean ====
section
/-! DEFINITION. Integer, bit, move and dot-product instructions (R220 to R226). -/

namespace Sys2Proof.Machine

/-- The operands of a B form with D and A (R179). -/
def shortAlu (ty : Ty) (d a : BitVec 7) : Alu :=
  { ty := ty, rnd := .none, sat := false, as := false, bs := false, bi := false, opx := false, d := d.setWidth 8,
    a := a.setWidth 8, b := 0, c := 0, ext := 0, lit := none }

/-- Two operands of an integer type and the exact result (R220). -/
def Iss.int2 (x : Iss) (o : Alu) (f : Int → Int → Int) : Eff :=
  x.eachI o.ty o.d fun l => narrow o.ty o.sat (f (valOf o.ty (x.opA o l)) (valOf o.ty (x.opB o l)))

/-- One operand of an integer type and the exact result (R220). -/
def Iss.int1 (x : Iss) (o : Alu) (f : Int → Int) : Eff :=
  x.eachI o.ty o.d fun l => narrow o.ty o.sat (f (valOf o.ty (x.opA o l)))

/-- Bit operations on two operands (R223). -/
def Iss.bits2 (x : Iss) (o : Alu) (f : Nat → Nat → Nat) : Eff :=
  x.eachI o.ty o.d fun l => f (x.opA o l) (x.opB o l)

/-- Bit operations on one operand. -/
def Iss.bits1 (x : Iss) (o : Alu) (f : Nat → Nat) : Eff := x.eachI o.ty o.d fun l => f (x.opA o l)

/-- A 32-bit count from an operand of the type (R223). -/
def Iss.count (x : Iss) (o : Alu) (f : Nat → Nat) : Eff := x.eachI .n32 o.d fun l => f (x.opA o l)

def popc (n a : Nat) : Nat := ((List.range n).filter fun i => decide (a / 2 ^ i % 2 = 1)).length
def clz (n a : Nat) : Nat := if a = 0 then n else n - 1 - Nat.log2 a

def execIadd (h : Hdr) (o : Alu) (s : State) : Out := pureOp (.iadd h o) s never fun x => x.int2 o (· + ·)
def execIaddLit (h : HdrB) (d a : BitVec 7) (lit : Dword) (s : State) : Out :=
  pureOp (.iaddLit h d a lit) s never fun x => x.int2 { shortAlu .i64 d a with bi := true, lit := some lit } (· + ·)
def execIsub (h : Hdr) (o : Alu) (s : State) : Out := pureOp (.isub h o) s never fun x => x.int2 o (· - ·)
def execImul (h : Hdr) (o : Alu) (s : State) : Out := pureOp (.imul h o) s never fun x => x.int2 o (· * ·)

/-- `IMULH`: bits [31:0] of the floor of the product over 2^32 (R220). -/
def execImulh (h : Hdr) (o : Alu) (s : State) : Out :=
  pureOp (.imulh h o) s never fun x => x.int2 o fun a b => a * b / 4294967296

/-- `IMULQ`: a Q31 product rounded half upward, saturated (R221). -/
def execImulq (h : Hdr) (o : Alu) (s : State) : Out :=
  pureOp (.imulq h o) s never fun x => x.int2 { o with sat := true } fun a b => (a * b + 1073741824) / 2147483648

/-- `IMAD` (R220). -/
def execImad (h : Hdr) (o : Alu) (s : State) : Out :=
  pureOp (.imad h o) s never fun x => x.eachI o.ty o.d fun l =>
    narrow o.ty o.sat (valOf o.ty (x.opA o l) * valOf o.ty (x.opB o l) + valOf o.ty (x.opC o l))

def execImin (h : Hdr) (o : Alu) (s : State) : Out := pureOp (.imin h o) s never fun x => x.int2 o min
def execImax (h : Hdr) (o : Alu) (s : State) : Out := pureOp (.imax h o) s never fun x => x.int2 o max
def execIabs (h : Hdr) (o : Alu) (s : State) : Out := pureOp (.iabs h o) s never fun x => x.int1 o fun a => (a.natAbs : Int)
def execIabsShort (h : HdrB) (d a : BitVec 7) (s : State) : Out :=
  pureOp (.iabsShort h d a) s never fun x => x.int1 (shortAlu .i32 d a) fun v => (v.natAbs : Int)
def execIneg (h : Hdr) (o : Alu) (s : State) : Out := pureOp (.ineg h o) s never fun x => x.int1 o fun a => -a
def execInegShort (h : HdrB) (d a : BitVec 7) (s : State) : Out :=
  pureOp (.inegShort h d a) s never fun x => x.int1 (shortAlu .i32 d a) fun v => -v

/-! ### Bit operations (R223, R224) -/

def execAnd (h : Hdr) (o : Alu) (s : State) : Out := pureOp (.and h o) s never fun x => x.bits2 o (· &&& ·)
def execOr (h : Hdr) (o : Alu) (s : State) : Out := pureOp (.or h o) s never fun x => x.bits2 o (· ||| ·)
def execXor (h : Hdr) (o : Alu) (s : State) : Out := pureOp (.xor h o) s never fun x => x.bits2 o (· ^^^ ·)
def execNot (h : Hdr) (o : Alu) (s : State) : Out :=
  pureOp (.not h o) s never fun x => x.bits1 o fun a => 2 ^ o.ty.bits - 1 - a
def execNotShort (h : HdrB) (d a : BitVec 7) (s : State) : Out :=
  pureOp (.notShort h d a) s never fun x => x.bits1 (shortAlu .b32 d a) fun v => 2 ^ 32 - 1 - v
def execShl (h : Hdr) (o : Alu) (s : State) : Out := pureOp (.shl h o) s never fun x => x.bits2 o (shiftOp 0 o.ty.bits)
def execShr (h : Hdr) (o : Alu) (s : State) : Out := pureOp (.shr h o) s never fun x => x.bits2 o (shiftOp 1 o.ty.bits)
def execSra (h : Hdr) (o : Alu) (s : State) : Out := pureOp (.sra h o) s never fun x => x.bits2 o (shiftOp 2 o.ty.bits)

/-- `BFX`: the field of `l` bits at `p`, sign-extended for the signed types (R224). -/
def execBfx (h : Hdr) (o : Alu) (s : State) : Out :=
  pureOp (.bfx h o) s never fun x =>
    let p := o.ext.toNat % 256
    let l := o.ext.toNat / 256 % 256
    x.bits1 o fun a => bitsOfInt o.ty.bits (intOf o.ty.isSigned l (a / 2 ^ p))

/-- `BFI`: the field of A replaced by the low bits of B (R224). -/
def execBfi (h : Hdr) (o : Alu) (s : State) : Out :=
  pureOp (.bfi h o) s never fun x =>
    let p := o.ext.toNat % 256
    let l := o.ext.toNat / 256 % 256
    x.eachI o.ty o.d fun lane =>
      let a := x.opA o lane
      let b := x.opnd o.ty.is64 o.bs o.b lane
      a % 2 ^ p + (b % 2 ^ l) * 2 ^ p + a / 2 ^ (p + l) * 2 ^ (p + l)

def execPopc (h : Hdr) (o : Alu) (s : State) : Out := pureOp (.popc h o) s never fun x => x.count o (popc o.ty.bits)
def execPopcShort (h : HdrB) (d a : BitVec 7) (s : State) : Out :=
  pureOp (.popcShort h d a) s never fun x => x.count (shortAlu .b32 d a) (popc 32)
def execClz (h : Hdr) (o : Alu) (s : State) : Out := pureOp (.clz h o) s never fun x => x.count o (clz o.ty.bits)
def execClzShort (h : HdrB) (d a : BitVec 7) (s : State) : Out :=
  pureOp (.clzShort h d a) s never fun x => x.count (shortAlu .b32 d a) (clz 32)

/-! ### Select, move, clamp (R225) -/

/-- `SEL`: C is one 32-bit register for every type. -/
def execSel (h : Hdr) (o : Alu) (s : State) : Out :=
  pureOp (.sel h o) s never fun x => x.eachI o.ty o.d fun l =>
    if (x.rv l o.c.toNat).toNat ≠ 0 then x.opA o l else x.opB o l

def execMov (h : Hdr) (o : Alu) (s : State) : Out := pureOp (.mov h o) s never fun x => x.bits1 o id
def execMovShort (h : HdrB) (d a : BitVec 7) (s : State) : Out :=
  pureOp (.movShort h d a) s never fun x => x.bits1 (shortAlu .b32 d a) id
def execMovi (h : Hdr) (o : Alu) (s : State) : Out :=
  pureOp (.movi h o) s never fun x => x.eachI o.ty o.d fun _ => immOf o.ty o.ext o.lit
def execMoviLit (h : HdrB) (wide : Bool) (d : BitVec 7) (lit : Dword) (s : State) : Out :=
  pureOp (.moviLit h wide d lit) s never fun x =>
    x.eachI (if wide then .b64 else .b32) (d.setWidth 8) fun _ => if wide then lit.toNat else lit.toNat % 2 ^ 32

/-- `CLAMP`: min(max(A, B), C); the `.f32` form is that of `FMIN` and `FMAX` and raises NV for a signalling NaN. -/
def execClamp (h : Hdr) (o : Alu) (s : State) : Out :=
  pureOp (.clamp h o) s never fun x =>
    if o.ty = .f32 then
      x.each .f32 o.d fun l =>
        let m := Fmt.f32.minmax x.ldnf true (x.opA o l) (x.opB o l)
        let r := Fmt.f32.minmax x.ldnf false m.1 (x.opC o l)
        (r.1, m.2 ||| r.2)
    else
      x.eachI o.ty o.d fun l =>
        bitsOfInt 32 (min (max (valOf o.ty (x.opA o l)) (valOf o.ty (x.opB o l))) (valOf o.ty (x.opC o l)))

/-- `RSHR`: a right shift rounded half upward; the count is a natural (R222). -/
def execRshr (h : Hdr) (o : Alu) (s : State) : Out :=
  pureOp (.rshr h o) s never fun x => x.eachI o.ty o.d fun l =>
    let a := valOf o.ty (x.opA o l)
    let c := x.opB o l
    bitsOfInt 32 (if c = 0 then a else if 32 ≤ c then 0 else (a + ((2 ^ (c - 1) : Nat) : Int)) / ((2 ^ c : Nat) : Int))

/-! ### Dot products (R226) -/

/-- The integer dot product of `n` elements of `w` bits, added to the accumulator. -/
def dotInt (n w : Nat) (sa sb sat : Bool) (acc a b : Nat) : Nat :=
  let signed := sa || sb
  let x := (List.range n).foldl (fun (t : Int) j =>
    t + intOf sa w (a / 2 ^ (w * j)) * intOf sb w (b / 2 ^ (w * j))) (intOf signed 32 acc)
  bitsOfInt 32 (if sat then saturate signed 32 x else x)

def execDp4 (h : Hdr) (o : Alu) (s : State) : Out :=
  pureOp (.dp4 h o) s never fun x => x.eachI .b32 o.d fun l =>
    let sa := o.ty.isSigned
    dotInt 4 8 sa (sa != o.opx) o.sat (x.rv l o.d.toNat).toNat (x.opnd false o.as o.a l)
      (if o.bi then o.ext.toNat else x.opnd false o.bs o.b l)

/-- `DP2.bx2` (R226): the sum is exact before its one rounding; a NaN in any element read and products of opposite infinities raise NV,
whatever the accumulator holds (log entry 30); LDNF does not act. -/
def dotBx2 (rnd : Rnd) (acc a b : Nat) : Nat × Flags :=
  let e (w i : Nat) : FV := Fmt.bf16.dec (w / 2 ^ i % 65536)
  let lo := (e a 0).mul (e b 0)
  let hi := (e a 16).mul (e b 16)
  let r := sumOp .f32 rnd false false [Fmt.f32.dec acc, lo, hi]
  let nan := (e a 0).isNan || (e b 0).isNan || (e a 16).isNan || (e b 16).isNan
  let opposite := (lo == .inf false && hi == .inf true) || (lo == .inf true && hi == .inf false)
  (r.1, if nan || opposite then r.2 ||| fNV else r.2)

def execDp2 (h : Hdr) (o : Alu) (s : State) : Out :=
  pureOp (.dp2 h o) s never fun x => x.each .b32 o.d fun l =>
    let acc := (x.rv l o.d.toNat).toNat
    let a := x.opnd false o.as o.a l
    let b := if o.bi then o.ext.toNat else x.opnd false o.bs o.b l
    if o.ty = .bx2 then dotBx2 o.rnd acc a b
    else (dotInt 2 16 o.ty.isSigned o.ty.isSigned o.sat acc a b, 0)

end Sys2Proof.Machine
end

