-- ==== Sys2Proof/Machine/Issue.lean ====
section
/-! DEFINITION. Readiness: what an entry's next instruction waits for (R61, R187), and the points at which a transfer waits (R318, R323,
R326). -/

namespace Sys2Proof.Machine

/-- The instruction that fetched words stand for; words that are none issue as an unassigned opcode (R182). -/
def instrOf (ws : List Word) : Instr :=
  match decode ws with
  | .ok i => i
  | .reject _ => .unassignedOpcode ws

/-- Destination registers of a request: class, first register, how many, rows (R187). -/
def Req.dest (r : Req) : Option (RCls × Nat × Nat × List Nat) :=
  match r.kind with
  | .load d _ => some (d.cls, d.reg, (if d.ty.is64 && d.cls == .v then 2 else 1) * d.n, d.lanes.map fun x => x.1 / 32)
  | .atomic _ ty ws (some d) _ _ => some (.v, d, if ty.is64 then 2 else 1, ws.flatMap fun w => w.2.map fun x => x.1 / 32)
  | _ => none

/-- A status or queue result that a sleeping sub-team is still to write (R186, R187). -/
def EState.dest : EState → Option (RCls × Nat × Nat)
  | .asleep (.mon _ d _) | .asleep (.noMon d _) | .asleep (.monLost d) => some (.p, d, 1)
  | .asleep (.qpop _ d _) => some (.s, d, 2)
  | _ => none

/-- Whether a use of an instruction meets pending registers. -/
def usesMeet (us : List Use) (cls : RCls) (reg n : Nat) : Bool :=
  us.any fun u => u.cls == cls && decide (u.reg < reg + n) && decide (reg < u.reg + u.n)

/-- The requests of a team on which an entry's next instruction waits (R187); in run-ahead the blocking load's result is invalid and
no instruction waits for it (R74). -/
def State.pendingReqs (s : State) (c sl e : Nat) (i : Instr) : List Req :=
  let x := s.entry c sl e
  let t := s.team c sl x.team
  let k := algebraOf s (s.launchOf (s.parcel t.pid).lid).ctx (clusterOf c) i
  let us := usesOf k false i
  let rows := rowsOf x.mask
  s.reqs.filter fun r => decide (r.src = .team c sl x.team) &&
    (match x.ra with | some ra => !ra.block.contains r.id | none => true) &&
    (match r.dest with
     | some (cls, reg, n, rs) => usesMeet us cls reg n && (cls != .v || rs.any rows.contains)
     | none => false)

/-- Whether a result of the pipe that the scoreboard covers is still to come for a register that the instruction uses (R187). -/
def State.pendingPipe (s : State) (c sl e : Nat) (i : Instr) : Bool :=
  let x := s.entry c sl e
  let t := s.team c sl x.team
  let us := usesOf (algebraOf s (s.launchOf (s.parcel t.pid).lid).ctx (clusterOf c) i) false i
  t.busy.any fun b => decide ((s.core c).cycle < b.till) && (rowsOf x.mask).contains b.row && usesMeet us .v b.reg 1

/-- Whether a sleeping sibling is still to write a register that the instruction uses. -/
def State.pendingSibling (s : State) (c sl e : Nat) (i : Instr) : Bool :=
  let x := s.entry c sl e
  let us := usesOf (algebraOf s (s.launchOf (s.parcel (s.team c sl x.team).pid).lid).ctx (clusterOf c) i) false i
  let rows := rowsOf x.mask
  ((s.slot c sl).entriesOf x.team).any fun n =>
    let y := s.entry c sl n
    n != e && (match y.st.dest with
      | some (cls, reg, k) => usesMeet us cls reg k && (cls != .p || (rowsOf y.mask).any rows.contains)
      | none => false)

/-- The number of copies of a tag that its counter counts (R255). -/
def Team.tagCount (t : Team) (tag : Nat) : Nat := (t.copies.filter fun k => k.tag == tag && !k.counted).length

/-- The copies under a tag that an `ACWAIT t, n` covers: all but the `n` newest (R256). -/
def Team.coveredBy (t : Team) (tag n : Nat) : List Copy :=
  let ks := t.copies.filter fun k => k.tag == tag
  ks.take (ks.length - n)

/-- Whether a request waits parked for an absent page (R130, R131). -/
def Req.isParked (r : Req) : Bool := match r.st with | .parked _ => true | _ => false

/-- The distinct absent pages that a sub-team waits for (R130, R257): those of the parked loads that it counts as its own or that its next
instruction needs; of one asleep in `ACWAIT`, those of the parked copies that the `ACWAIT` covers. Their number is its missing-page count. -/
def State.missingPages (s : State) (c sl e : Nat) : List Nat :=
  let x := s.entry c sl e
  let due : List Nat := match x.ibuf with | some (.words ws) => (s.pendingReqs c sl e (instrOf ws)).map Req.id | _ => []
  let counts (r : Req) : Bool := match x.st, r.kind with
    | .asleep (.copies tag n), .copyIn k _ | .asleep (.copies tag n), .copyOut k _ =>
      ((s.team c sl x.team).coveredBy tag n).any fun y => y.id == k
    | .asleep (.copies ..), _ => false
    | _, _ => r.kind.isLoad && (r.owners.contains e || due.contains r.id)
  ((s.reqs.filter fun r => decide (r.src = .team c sl x.team) && r.isParked && counts r).map fun r => r.va / 65536).dedup

/-! ### Maps and the points at which a transfer waits (R318, R323, R326) -/

/-- A version's map of a safe point. -/
def Kernel.mapOf (k : Kernel) (v : BitVec 3) (sp : BitVec 12) : Option MapV :=
  k.maps.find? fun m => m.version == v.toNat && m.k == sp.toNat

/-- The PC in version `v` of the point that stands at `pc` in version `u`. -/
def Kernel.translate (k : Kernel) (u v : BitVec 3) (pc : Word) : Option Word :=
  match k.maps.find? fun m => m.version == u.toNat && m.pc == pc with
  | some m => (k.mapOf v (BitVec.ofNat 12 m.k)).map MapV.pc
  | Option.none => Option.none

/-- Whether every CALL and DEFER entry of a stack has a place in version `b` (R323): `u` is the version of the entries at hand. -/
def stackOk (k : Kernel) (b : BitVec 3) : BitVec 3 → List StkEntry → Bool
  | _, [] => true
  | u, y :: r =>
    if y.isJoin then stackOk k b (BitVec.ofNat 3 y.pc.toNat) r
    else (!(y.isCall || y.isDefer) || (k.translate u b y.pc).isSome) && stackOk k b u r

/-- CODE of a failed transfer (R324). -/
def failCode (status slot : Nat) (k : BitVec 12) : Word := BitVec.ofNat 32 (status + 256 * slot + 65536 * k.toNat)

/-- The needed slots of a transfer (R323): live, and placed by the target's map. -/
def neededSlots (ds : List SlotDesc) (mb : MapV) : List SlotDesc :=
  ds.filter fun d => d.live && mb.ents.any fun a => a.slot == d.slot && decide (a.kind ≤ 3)

def State.kernelOf (s : State) (t : Team) : Kernel := s.kernel (s.launchOf (s.parcel t.pid).lid).kid

/-- The slots of a safe point's frame description (R316). -/
def Kernel.slotsAt (k : Kernel) (sp : BitVec 12) : List SlotDesc :=
  match k.frames.find? fun f => f.k == sp.toNat with
  | some f => f.slots
  | Option.none => []

/-- The checks of a transfer to version `b` at safe point `k`, before any effect: the CODE of the first that fails (R323, R324). -/
def State.transferFail (s : State) (c sl e : Nat) (b : BitVec 3) (k : BitVec 12) : Option Word :=
  let x := s.entry c sl e
  let kern := s.kernelOf (s.team c sl x.team)
  if k = 0 then some (failCode 1 0 k)
  else if !(kern.version b).present then some (failCode 2 0 k)
  else match kern.mapOf x.version k, kern.mapOf b k with
    | some ma, some mb =>
      if x.handler then some (failCode 6 0 k)
      else match (neededSlots (kern.slotsAt k) mb).find? fun d => ma.ents.any fun y => y.slot == d.slot && y.kind == 6 with
        | some d => some (failCode 4 d.slot k)
        | none => if stackOk kern b x.version x.stack then none else some (failCode 5 0 k)
    | _, _ => some (failCode 3 0 k)

/-- The nearest JOIN entry below the top with no CALL or TRAP entry between (R56). -/
def joinBelow : List StkEntry → Option StkEntry
  | [] => none
  | y :: r => if y.isJoin then some y else if y.isCall || y.isTrap then none else joinBelow r

/-- The entries of a team under one JOIN entry: parent identity (team, split id) (R54, R55). -/
def State.siblings (s : State) (c sl t : Nat) (id : BitVec 16) : List Nat :=
  ((s.slot c sl).entriesOf t).filter fun n =>
    (s.entry c sl n).stack.any fun y => y.isJoin && y.split == id

/-- The siblings that wait at the join of a split. -/
def State.waiting (s : State) (c sl t : Nat) (id : BitVec 16) : List Nat :=
  (s.siblings c sl t id).filter fun n =>
    let x := s.entry c sl n
    x.st == .atJoin && (match x.stack with | y :: _ => y.isJoin && y.split == id | [] => false)

/-- Whether a split's siblings can fuse: every live one waits at the same `JOIN`, in the same version (R55). -/
def State.fusable (s : State) (c sl t : Nat) (id : BitVec 16) : Bool :=
  match s.siblings c sl t id with
  | [] => false
  | n :: rest =>
    (s.waiting c sl t id).length == rest.length + 1 &&
    rest.all fun i => (s.entry c sl i).version == (s.entry c sl n).version && (s.entry c sl i).npc == (s.entry c sl n).npc

/-- A pending transfer's target, when it is not the entry's own version. -/
def Entry.target (x : Entry) : Option (BitVec 3) :=
  match x.pend with
  | some b => if b = x.version then none else some b
  | none => none

/-- Where a `JOIN k` transfers the sub-team to, if anywhere (R199, R326, R328). -/
def State.joinTarget (s : State) (c sl e : Nat) (k : BitVec 12) : Option (BitVec 3) :=
  let x := s.entry c sl e
  match x.stack with
  | y :: _ =>
    if y.isJoin && y.k == k then
      match (s.waiting c sl x.team y.split) with
      | n :: _ => if (s.entry c sl n).version = x.version then none else some (s.entry c sl n).version
      | [] => x.target
    else x.target
  | [] => x.target

/-- The safe point and target of the transfer that an instruction would make. -/
def State.transferAt (s : State) (c sl e : Nat) (i : Instr) : Option (BitVec 3 × BitVec 12) :=
  let x := s.entry c sl e
  match i with
  | .safept _ k | .safeptShort _ k => x.target.map fun b => (b, k)
  | .join _ k | .joinShort _ k => (s.joinTarget c sl e k).map fun b => (b, k)
  | .xfer _ v => match x.target with
    | some b => some (b, x.safept)
    | none => if v = x.version then none else some (v, x.safept)
  | _ => none

/-- Width in bits of a slot's value (R317). -/
def SlotDesc.bits (d : SlotDesc) : Nat :=
  if d.ty = 16 then 1 else if d.ty = 1 || d.ty = 5 || d.ty = 9 || d.ty = 13 then 64 else 32

/-- Whether a map names a register among those from `reg` on, a pair where the slot's value takes one. -/
def MapV.names (m : MapV) (ds : List SlotDesc) (cls : RCls) (reg n : Nat) : Bool :=
  m.ents.any fun a =>
    let wide := a.kind != 2 && ds.any fun d => d.slot == a.slot && d.bits == 64
    (a.kind == 0 && cls == .v || a.kind == 1 && cls == .s || a.kind == 2 && cls == .p) &&
    decide (a.reg < reg + n) && decide (reg < a.reg + (if wide then 2 else 1))

/-- The pending bits of the pipe that a team's rows hold for some registers (R187). -/
def Team.busyOn (t : Team) (cyc : Nat) (rows : List Nat) (named : Nat → Bool) : Bool :=
  t.busy.any fun b => decide (cyc < b.till) && rows.contains b.row && named b.reg

/-- Whether a pending bit remains in an entry's rows for a register that its map names (R323): the transfer waits for it. -/
def State.mapBusy (s : State) (c sl e : Nat) (rows : List Nat) (k : BitVec 12) : Bool :=
  let x := s.entry c sl e
  let t := s.team c sl x.team
  let kern := s.kernelOf t
  let ds := kern.slotsAt k
  match kern.mapOf x.version k with
  | none => false
  | some m =>
    (s.reqs.any fun r => decide (r.src = .team c sl x.team) && (match r.dest with
      | some (cls, reg, n, rs) => m.names ds cls reg n && (cls != .v || rs.any rows.contains)
      | none => false)) ||
    t.busyOn (s.core c).cycle rows (fun r => m.names ds .v r 1) ||
    ((s.slot c sl).entriesOf x.team).any fun n => n != e && (match (s.entry c sl n).st.dest with
      | some (cls, reg, k) => m.names ds cls reg k && (cls != .p || (rowsOf (s.entry c sl n).mask).any rows.contains)
      | none => false)

/-- Whether one of the first `n` stack entries of a sub-team is spilled in a block that a retraining holds: the microcode that reads it waits
(R58, R325, R410). -/
def State.areaHeld (s : State) (c sl e n : Nat) : Bool :=
  let x := s.entry c sl e
  let t := s.team c sl x.team
  let held (o : Nat) : Bool :=
    match s.translate (s.launchOf (s.parcel t.pid).lid).ctx (t.stkbase.toNat + o) with
    | (.ok l, s1) => s1.retraining l (t.stkbase.toNat + o)
    | (.wait, _) => true
    | _ => false
  (x.stack.take n).any fun y => y.spill && (held (y.place.getD 0) || (match y.recAt with
    | some o => held o || held (o + 4 * 2 ^ t.w - 1)
    | none => false))

/-- Why a ready entry can or cannot be selected (R61, R342). -/
inductive Ready where
  | yes | fetch | dep | parked | tagfull
  /-- It signals, and the team's accesses to other cores' Tarn are still on their way (R160). -/
  | order
  /-- Its instruction can issue, and its transfer then waits for registers (R323), or for spilled entries that a retraining holds (R410). -/
  | xfer
  deriving DecidableEq, Repr

/-- Whether an instruction signals another party of the cluster, so that the team's earlier `.l` and `.c` accesses come before it (R160). -/
def signals (i : Instr) : Bool :=
  match longOf i with
  | .barSync .. | .barArrive .. | .barArriveb .. | .qpush .. | .flagSet .. => true
  | _ => false

/-- Whether `.c` accesses of a source to other cores are on their way. -/
def State.tarnBusy (s : State) (src : Src) : Bool :=
  s.reqs.any fun r => decide (r.src = src) && (match r.tgt with | .bank _ => true | _ => false)

def State.readiness (s : State) (c sl e : Nat) : Ready :=
  let x := s.entry c sl e
  match x.ibuf with
  | none => .fetch
  | some .refused => .yes
  | some (.words ws) =>
    let i := instrOf ws
    let p := s.pendingReqs c sl e i
    if !p.isEmpty then
      (if p.all Req.isParked then .parked else .dep)
    else if s.pendingSibling c sl e i || s.pendingPipe c sl e i then .dep
    else if ((match s.transferAt c sl e i with
      | some (b, k) => (s.transferFail c sl e b k).isNone &&
          (s.mapBusy c sl e (rowsOf x.mask) k || s.areaHeld c sl e ((x.stack.takeWhile fun y => !y.isJoin).length + 1))
      | none => false) : Bool) then .xfer
    else match i with
      | .acp _ o => if (s.team c sl x.team).tagCount o.tag.toNat < 63 then .yes else .tagfull
      | i => if signals i && s.tarnBusy (.team c sl x.team) then .order else .yes

/-- Whether an instruction is one of those that take effect in ascending slot order within a core cycle: the named-barrier instructions and
the end of a team (R65, R66, R259), the queue instructions (R264) and the flag instructions (R265). -/
def slotOrdered (i : Instr) : Bool :=
  match longOf i with
  | .barSync .. | .barArrive .. | .barWait .. | .barJoin .. | .barLeave .. | .exit .. => true
  | .qpush .. | .qpop .. | .flagSet .. | .flagClr .. | .flagWait .. => true
  | _ => false

/-- Whether the parcel of an entry may issue (R382, R383). -/
def Parcel.runs (p : Parcel) : Bool :=
  match p.st with
  | .resident | .draining _ => true
  | _ => false

/-- Whether an entry's blocking loads have arrived (R76). -/
def State.blockGone (s : State) (ra : RunAhead) : Bool := !(s.reqs.any fun r => ra.block.contains r.id)

end Sys2Proof.Machine
end

