-- ==== Sys2Proof/Machine/Transfer.lean ====
section
/-! DEFINITION. Fusion at joins, serialised paths and ends of sub-teams (R55 to R57), and the transfer between code versions with
the instructions at which it is taken (R306 to R309, R314 to R328). -/

namespace Sys2Proof.Machine

/-! ### Reading code and frames -/

/-- Bytes as a core's own accesses see them: the coherent bytes, with the core's queued stores on top (R144, R146); `none`
where no page serves them, or while a retraining holds them (R410). -/
def State.readView (s : State) (port ctx va n : Nat) : Option (List Byte) × State :=
  let get (acc : Option (List Byte) × State) (a : Nat) : Option (List Byte) × State :=
    match acc.1 with
    | none => acc
    | some bs =>
      match acc.2.translate ctx a with
      | (.ok l, s1) =>
        if s1.retraining l a then (none, s1)
        else
          let (x, _, s2) := s1.readG l a 1
          (some (bs ++ x), s2)
      | (_, s1) => (none, s1)
  let (r, s1) := ((List.range n).map (va + ·)).foldl get (some [], s)
  (r.map fun bs => s1.reqs.foldl (fun bs q =>
    match q.kind with
    | .store ws => if q.port = port && q.ctx = ctx then
        bs.zipIdx.map fun b => match ws.find? fun w => q.va + w.1 == va + b.2 with
          | some w => w.2
          | none => b.1
        else bs
    | _ => bs) bs, s1)

/-- The instruction words that a version's team stream holds at a PC, as its code now reads; none where it is not readable. -/
def State.wordsAt (s : State) (port ctx : Nat) (v : Vers) (pc : Nat) : List Word × State :=
  if v.team.2 ≤ pc then ([], s)
  else match s.readView port ctx (v.team.1 + pc) 4 with
    | (none, s1) => ([], s1)
    | (some b, s1) =>
      let len := wordCount (BitVec.ofNat 32 (natOfBytes b))
      match s1.readView port ctx (v.team.1 + pc) (4 * len) with
      | (none, s2) => ([], s2)
      | (some bs, s2) => ((List.range len).map fun i => BitVec.ofNat 32 (natOfBytes ((bs.drop (4 * i)).take 4)), s2)

/-- Away from a forerunner instruction `%ustep` is zero (R312): a value that a `RETT` to another PC has left is cleared before a trap frame or a
save records it. Where the code cannot be read it stays. -/
def State.clearSteps (s : State) (c sl e : Nat) : State :=
  let x := s.entry c sl e
  if x.ustep = 0 then s
  else
    let l := s.launchOf (s.parcel (s.team c sl x.team).pid).lid
    let (ws, s1) := s.wordsAt c l.ctx ((s.kernel l.kid).version x.version) x.pc.toNat
    if ws.isEmpty || isForerunner (instrOf ws) then s1 else s1.setEntry c sl e { s1.entry c sl e with ustep := 0 }

/-- The PC after the `JOIN k` of a version's team stream, looked for word by word from a code section's byte `o` (R338). -/
def State.findJoin (s : State) (port ctx : Nat) (v : Vers) (k : BitVec 12) : Nat → Nat → Option Word × State
  | 0, _ => (none, s)
  | n + 1, o =>
    match s.wordsAt port ctx v o with
    | ([], s1) => (none, s1)
    | (words, s1) =>
      let found := match decode words with
        | .ok (.join _ k') | .ok (.joinShort _ k') => k' == k
        | _ => false
      if found then (some (BitVec.ofNat 32 (o + 4 * words.length)), s1) else s1.findJoin port ctx v k n (o + 4 * words.length)

/-- Length in bytes of the `JOIN` or `SAFEPT` at a PC of a version's team stream (R323): read from the code; free between the
two forms where the code is not readable (log entry 28). -/
def State.pointLength (s : State) (port ctx : Nat) (v : Vers) (pc : Word) : Nat × State :=
  match s.readView port ctx (v.team.1 + pc.toNat) 4 with
  | (some bs, s1) => (4 * wordCount (BitVec.ofNat 32 (natOfBytes bs)), s1)
  | (none, s1) => let (b, s2) := s1.freeBool; (if b then 4 else 12, s2)

/-! ### Spilled entries (R58, R59) -/

/-- A convergence-stack entry as it stands: a spilled one as its bytes in the stack area now are; where they cannot be read, as the
core last held it (log entry 28). -/
def State.loadEntry (s : State) (c sl e : Nat) (y : StkEntry) : StkEntry × State :=
  if !y.spill then (y, s)
  else
    let t := s.team c sl (s.entry c sl e).team
    let ctx := (s.launchOf (s.parcel t.pid).lid).ctx
    let (bs, s1) := s.readView c ctx (t.stkbase.toNat + y.place.getD 0) 16
    let (recd, s2) := match y.recAt with
      | some o => s1.readView c ctx (t.stkbase.toNat + o) (4 * 2 ^ t.w)
      | none => (some [], s1)
    match bs, recd with
    | some b, some r => (y.ofBytes (2 ^ t.w) b r, s2)
    | _, _ => ({ y with spill := false }, s2)

/-- The first `n` entries of a stack with the spilled ones read back, to be changed: each is spilled again in its place afterwards, where
it still lies below the top 8. -/
def State.loadStack (s : State) (c sl e n : Nat) : State :=
  (List.range n).foldl (fun s j =>
    match (s.entry c sl e).stack[j]? with
    | some y =>
      if !y.spill then s
      else
        let (z, s1) := s.loadEntry c sl e y
        let x := s1.entry c sl e
        s1.setEntry c sl e { x with stack := x.stack.set j (if j < 8 then { z with place := none } else z) }
    | none => s) s

/-! ### Join maps (R318, R323) -/

/-- The CALL and DEFER entries above the first JOIN entry of a stack translated from one version to another (R55, R323). -/
def retarget (k : Kernel) (u v : BitVec 3) : List StkEntry → List StkEntry
  | [] => []
  | y :: r =>
    if y.isJoin then y :: r
    else (if y.isCall || y.isDefer then { y with pc := (k.translate u v y.pc).getD y.pc } else y) :: retarget k u v r

/-- How many entries stand above the first JOIN entry of a stack. -/
def aboveJoin (l : List StkEntry) : Nat := (l.takeWhile fun y => !y.isJoin).length

/-- Core cycles of those translations: one for each entry, four more for a spilled one (R325). -/
def retargetCost : List StkEntry → Nat
  | [] => 0
  | y :: r => if y.isJoin then 0 else (if y.isCall || y.isDefer then (if y.spill then 5 else 1) else 0) + retargetCost r

/-! ### Slots (R316 to R320) -/

/-- Byte of a SCRATCH slot in the parcel's allocation (R319). -/
def slotByte (d : SlotDesc) (o width team lane : Nat) : Nat :=
  let w := d.bits / 8
  let w := if w = 8 then 8 else 4
  if d.u then o + w * team else o + w * (width * team + lane)

/-- A slot's value in a lane, from the place its map gives it, recipes apart (R323). -/
def State.readPlain (s : State) (c sl e : Nat) (m : MapV) (ds : List SlotDesc) (n lane : Nat) : Nat :=
  let x := s.entry c sl e
  let t := s.team c sl x.team
  match ds.find? (fun d => d.slot == n), m.ents.find? (fun a => a.slot == n) with
  | some d, some a =>
    let l := if d.u then (lanesOf x.mask).headD 0 else lane
    match a.kind with
    | 0 => if d.bits = 64 then (t.v.get 0 (l * 256 + a.reg)).toNat + 2 ^ 32 * (t.v.get 0 (l * 256 + a.reg + 1)).toNat
           else (t.v.get 0 (l * 256 + a.reg)).toNat
    | 1 => if d.bits = 64 then (t.s.get 0 a.reg).toNat + 2 ^ 32 * (t.s.get 0 (a.reg + 1)).toNat else (t.s.get 0 a.reg).toNat
    | 2 => if a.reg = 0 then 1 else ((t.p.get 0 l).getLsbD a.reg).toNat
    | 3 => natOfBytes (s.readScr c ((s.parcel t.pid).base + slotByte d a.arg (32 * x.mask.length) t.index l) (if d.bits = 64 then 8 else 4))
    | 4 => a.value.toNat % 2 ^ d.bits
    | _ => 0
  | _, _ => 0

/-- One step of a recipe in width `w` bits (R320). -/
def recipeStep (w op x y : Nat) : Nat :=
  (match op with
   | 2 => x + y
   | 3 => x + 2 ^ w - y
   | 4 => x * y
   | 5 => if w ≤ y then 0 else x * 2 ^ y
   | 6 => if w ≤ y then 0 else x / 2 ^ y
   | 7 => x &&& y
   | 8 => x ||| y
   | _ => x) % 2 ^ w

/-- A slot's value in a lane (R323); a recipe computes over the values that the same map places (R320). An operand narrower than the recipe is
extended with zeros (log entry 89: the model's choice). -/
def State.readSlot (s : State) (c sl e : Nat) (m : MapV) (ds : List SlotDesc) (n lane : Nat) : Nat :=
  match ds.find? (fun d => d.slot == n), m.ents.find? (fun a => a.slot == n) with
  | some d, some a =>
    if a.kind = 5 then
      let opnd (st : Step5) : Nat :=
        (if st.src then (st.const.signExtend 64).toNat else s.readPlain c sl e m ds st.slot lane) % 2 ^ d.bits
      match m.recipes.getD a.arg [] with
      | [] => 0
      | first :: rest => (rest.takeWhile fun st => st.op != 0).foldl (fun v st => recipeStep d.bits st.op v (opnd st)) (opnd first)
    else s.readPlain c sl e m ds n lane
  | _, _ => 0

/-- Writes a slot's values into the place its map gives it (R323). -/
def State.writeSlot (s : State) (c sl e : Nat) (m : MapV) (d : SlotDesc) (val : Nat → Nat) : State :=
  let x := s.entry c sl e
  let t := s.team c sl x.team
  let lanes := lanesOf x.mask
  let low := lanes.headD 0
  match m.ents.find? fun a => a.slot == d.slot with
  | none => s
  | some a =>
    match a.kind with
    | 0 =>
      let n := if d.bits = 64 then 2 else 1
      let v := lanes.foldl (fun (v : Store Word) l =>
        let w := val l
        let v := v.set 0 (l * 256 + a.reg) (BitVec.ofNat 32 w)
        if n = 2 then v.set 0 (l * 256 + a.reg + 1) (BitVec.ofNat 32 (w / 2 ^ 32)) else v) t.v
      s.setTeam c sl x.team { t with
        v := v
        marks := t.marks.filter fun k => !(k.cls == .v && lanes.contains k.lane && decide (a.reg ≤ k.reg) && decide (k.reg < a.reg + n))
        late := t.late.filter fun k => !(k.cls == .v && decide (a.reg ≤ k.reg) && decide (k.reg < a.reg + n) && lanes.contains k.lane) }
    | 1 =>
      let w := val low
      let v := if a.reg = 0 then t.s else t.s.set 0 a.reg (BitVec.ofNat 32 w)
      let n := if d.bits = 64 then 2 else 1
      let v := if d.bits = 64 then v.set 0 (a.reg + 1) (BitVec.ofNat 32 (w / 2 ^ 32)) else v
      s.setTeam c sl x.team { t with
        s := v
        late := t.late.filter fun k => !(k.cls == .s && decide (a.reg ≤ k.reg) && decide (k.reg < a.reg + n)) }
    | 2 =>
      if a.reg = 0 then s
      else
        let one := BitVec.ofNat 16 (2 ^ a.reg)
        s.setTeam c sl x.team { t with
          p := lanes.foldl (fun (p : Store (BitVec 16)) l =>
            p.set 0 l (if val l % 2 = 1 then p.get 0 l ||| one else p.get 0 l &&& ~~~one)) t.p
          late := t.late.filter fun k => !(k.cls == .p && k.reg == a.reg && lanes.contains k.lane) }
    | 3 =>
      let n := if d.bits = 64 then 8 else 4
      let base := (s.parcel t.pid).base
      (if d.u then [low] else lanes).foldl (fun s l =>
        s.storeScr c (base + slotByte d a.arg (32 * x.mask.length) t.index l) (bytesOfNat n (val l))) s
    | _ => s

/-! ### Relocation (R321 to R323) -/

/-- A scratchpad byte relocated (R321). -/
def relocByte (ents : List (Nat × Nat × Nat)) (x : Nat) : Nat :=
  match ents.find? fun r => decide (r.1 ≤ x) && decide (x < r.1 + r.2.2) with
  | some r => r.2.1 + x - r.1
  | none => x

/-- `Relocate`: the uncovered lane blocks of the mask's lanes issued in version `a`, and the bytes copied. -/
def State.relocate (s : State) (c sl e : Nat) (a b : BitVec 3) : State × Nat :=
  let x := s.entry c sl e
  let t := s.team c sl x.team
  let base := (s.parcel t.pid).base
  let ents := match (s.kernelOf t).relocs.find? fun r => r.from_ == a.toNat && r.into == b.toNat with
    | some r => r.ents
    | none => []
  let mine (k : LaneBlk) : Bool := inMask x.mask k.lane && k.version == a
  let moved := t.copies.flatMap fun k => if k.out then [] else
    (k.blks.filter fun y => mine y && y.done).flatMap fun y =>
      (y.offs.filter fun o => relocByte ents o != o).map fun o => (o, relocByte ents o)
  let src := moved.map fun m => ((s.core c).scratch.get 0 (base + m.1), base + m.2)
  let s1 := s.setCore c { s.core c with scratch := (s.core c).scratch.setAll 0 (src.map fun y => (y.2, y.1)) }
  let place (y : LaneBlk) : LaneBlk := if mine y then { y with offs := y.offs.map (relocByte ents), version := b } else y
  let copies := t.copies.map fun k => { k with blks := k.blks.map place }
  let s2 := s1.setTeam c sl x.team { s1.team c sl x.team with copies := copies }
  (src.foldl (fun s y => s.phaseCheck c y.2 1) s2, moved.length)

/-! ### Marks (R132) -/

/-- The lane registers that a transfer reads for a slot, as its map places it: register, lane of the mask's low lane or each (R323). -/
def readRegs (mask : List Word) (m : MapV) (ds : List SlotDesc) (n : Nat) : List (Nat × Nat) :=
  let plain (n : Nat) : List (Nat × Nat) :=
    match ds.find? (fun d => d.slot == n), m.ents.find? (fun a => a.slot == n) with
    | some d, some a =>
      if a.kind = 0 then
        (if d.u then (lanesOf mask).take 1 else lanesOf mask).flatMap fun l =>
          if d.bits = 64 then [(a.reg, l), (a.reg + 1, l)] else [(a.reg, l)]
      else []
    | _, _ => []
  match m.ents.find? (fun a => a.slot == n) with
  | some a => if a.kind = 5 then ((m.recipes.getD a.arg []).filter fun st => !st.src).flatMap fun st => plain st.slot else plain n
  | none => []

/-- The mark on a register that a transfer to version `b` at `k` would read, as the trap it takes at the instruction that transfers (R132,
R183; log entry 33). -/
def State.transferMark (s : State) (c sl e : Nat) (b : BitVec 3) (k : BitVec 12) : Option TrapInfo :=
  let x := s.entry c sl e
  let t := s.team c sl x.team
  let kern := s.kernelOf t
  match s.transferFail c sl e b k, kern.mapOf x.version k, kern.mapOf b k with
  | none, some ma, some mb =>
    let ds := kern.slotsAt k
    let regs := (neededSlots ds mb).flatMap fun d => readRegs x.mask ma ds d.slot
    TrapInfo.ofMarks (t.marks.filter fun m => m.cls == .v && regs.contains (m.reg, m.lane))
  | _, _, _ => none

/-- After a fusion no instruction is there to trap: a marked register's mark goes with its value to the register that takes its place
(log entry 33). A mark on a register whose value goes to an s register or the scratchpad, or into a recipe, is dropped (log entry 89: the model's
choice). -/
def State.carryMarks (s : State) (c sl e : Nat) (ma mb : MapV) (ds : List SlotDesc) (marks : List Mark) : State :=
  let x := s.entry c sl e
  let t := s.team c sl x.team
  let moved := (neededSlots ds mb).flatMap fun d =>
    match ma.ents.find? (fun a => a.slot == d.slot), mb.ents.find? (fun a => a.slot == d.slot) with
    | some p, some q =>
      if p.kind = 0 && q.kind = 0 then
        let n := if d.bits = 64 then 2 else 1
        let low := (lanesOf x.mask).headD 0
        (marks.filter fun m => m.cls == .v && decide (p.reg ≤ m.reg) && decide (m.reg < p.reg + n)).flatMap fun m =>
          let at_ (l : Nat) : Mark := { m with reg := q.reg + (m.reg - p.reg), lane := l }
          if d.u then (if m.lane = low then (lanesOf x.mask).map at_ else []) else if inMask x.mask m.lane then [at_ m.lane] else []
      else []
    | _, _ => []
  if moved.isEmpty then s else s.setTeam c sl x.team { t with marks := t.marks ++ moved }

/-! ### The transfer (R323 to R325) -/

/-- What an attempted transfer comes to: a failure's CODE, or the new state and its core cycles. -/
inductive Xfer where
  | fail (code : Word)
  | ok (s : State) (cost : Nat)

/-- A transfer of a sub-team to version `b` at safe point `k` (R323): every check before any effect. `before` resumes at the
point itself (R326), else after it. Of R325's cycle for 32 bytes copied a part of 32 bytes counts whole, and bytes that keep their place are
not copied (log entry 89: the model's choice). -/
def State.transfer (s : State) (c sl e : Nat) (b : BitVec 3) (k : BitVec 12) (before : Bool) : Xfer :=
  let x := s.entry c sl e
  let t := s.team c sl x.team
  let kern := s.kernelOf t
  let a := x.version
  let s0 := s.loadStack c sl e (aboveJoin x.stack)
  match s0.transferFail c sl e b k, kern.mapOf a k, kern.mapOf b k with
  | none, some ma, some mb =>
    let ds := kern.slotsAt k
    let need := neededSlots ds mb
    let vals := need.map fun d => (d, fun l => s0.readSlot c sl e ma ds d.slot l)
    let s1 := (vals.foldl (fun s v => s.writeSlot c sl e mb v.1 v.2) s0).carryMarks c sl e ma mb ds t.marks
    let (s2, copied) := s1.relocate c sl e a b
    let (len, s3) := if before then (0, s2) else
      s2.pointLength c (s.launchOf (s.parcel t.pid).lid).ctx (kern.version b) mb.pc
    let y := s3.entry c sl e
    let pc := mb.pc + BitVec.ofNat 32 len
    let s4 := s3.setEntry c sl e { y with
      version := b, pc := pc, npc := pc, ibuf := none, safept := k,
      stack := retarget kern a b y.stack, pend := if y.pend = some b then none else y.pend,
      preqs := if y.pend = some b then [] else y.preqs }
    .ok s4 (40 + 2 * need.length * (rowsOf x.mask).length + retargetCost x.stack + (copied + 31) / 32)
  | some code, _, _ => .fail code
  | none, _, _ => .fail (failCode 3 0 k)

/-- The entry waits for its stall count until a cycle. -/
def State.stallTo (s : State) (c sl e till : Nat) : State :=
  s.setEntry c sl e { s.entry c sl e with till := till, st := .stalled till }

/-! ### Fusion (R55, R326) -/

/-- Fuses the siblings of a split when every live one waits at the join (R55): the lowest entry stays. A transfer pending for a
member is taken at once after the join, and waits for its registers (R323, R326). -/
def State.tryFuse (s0 : State) (c sl t : Nat) (id : BitVec 16) (till : Nat) : State :=
  let all := s0.siblings c sl t id
  match all with
  | [] => s0
  | n :: rest =>
    if !s0.fusable c sl t id then s0
    else
      let s := s0.loadStack c sl n (1 + aboveJoin ((s0.entry c sl n).stack.drop 1))
      let x := s.entry c sl n
      match x.stack with
      | [] => s0
      | j :: _ =>
        let below := ((s0.entry c sl n).stack.drop 1)
        let mask := all.foldl (fun m i => maskOr m (s.entry c sl i).mask) (if j.words.isEmpty then List.replicate x.mask.length 0 else j.words)
        let pend := all.foldl (fun (p : Option (BitVec 3)) i => match p with | some b => some b | none => (s.entry c sl i).pend) none
        let goal := match pend with | some b => if b = x.version then none else some b | none => none
        let src := Src.team c sl t
        let s1 := rest.foldl (fun s i => (s.moveOwners src i n).delEntry c sl i) s
        let kern := s.kernelOf (s.team c sl t)
        let u := BitVec.ofNat 3 j.pc.toNat
        let diff := decide (u ≠ x.version)
        let preqs := (all.flatMap fun i => (s.entry c sl i).preqs).dedup
        let s2 := (s1.setEntry c sl n { s1.entry c sl n with mask := mask, pend := goal, preqs := if goal.isSome then preqs else [] }).popTop c sl n
        let y := s2.entry c sl n
        let s3 := s2.setEntry c sl n { y with
          stack := if diff then retarget kern u x.version y.stack else y.stack,
          pc := x.npc, npc := x.npc, ibuf := none, st := .ready, ustep := 0 }
        let s4 := if diff then s3.microcode c sl (retargetCost below) else s3
        let done (s : State) : State := s.stallTo c sl n (max till (s.slot c sl).free)
        match goal with
        | some b => (match s4.transfer c sl n b j.k false with
            | .ok s' cost => if s.mapBusy c sl n (rowsOf mask) j.k || s0.areaHeld c sl n (1 + aboveJoin below) then s0 else done (s'.microcode c sl cost)
            | .fail _ => done s4)
        | none => done s4

/-- Every fusion of a team that can now happen: the registers that a pending transfer waited for have been written (R323, R326). -/
def State.fuseAll (s : State) (c sl t : Nat) : State :=
  let ids := ((s.slot c sl).entriesOf t).filterMap fun n =>
    let x := s.entry c sl n
    if x.st == .atJoin then (match x.stack with | j :: _ => some j.split | [] => none) else none
  ids.foldl (fun s id => s.tryFuse c sl t id (s.core c).cycle) s

/-! ### Serialised paths (R56, R57) -/

/-- A DEFER entry's path resumes: its PC, mask and ARRIVED bit (R56, R57, R59). -/
def State.resumeDefer (s0 : State) (c sl e : Nat) (d0 : StkEntry) (till : Nat) : State :=
  let (d, s) := s0.loadEntry c sl e d0
  let s1 := s.popTop c sl e
  let x := s1.entry c sl e
  (s1.setEntry c sl e { x with pc := d.pc, npc := d.pc, ibuf := none, ustep := 0, mask := d.words, arrived := d.k.getLsbD 0 }).stallTo c sl e till

/-- The exchange of a sub-team with the DEFER entry on top (R57): the path that steps back is to resume at `back`. -/
def State.exchange (s0 : State) (c sl e : Nat) (back : Word) (till : Nat) : State :=
  let s := s0.loadStack c sl e 1
  let x := s.entry c sl e
  match x.stack with
  | d :: r =>
    (s.setEntry c sl e { x with
      stack := { d with pc := back, words := x.mask, k := if x.arrived then 1 else 0 } :: r,
      pc := d.pc, npc := d.pc, ibuf := none, ustep := 0, mask := d.words, arrived := d.k.getLsbD 0, yielded := true }).stallTo c sl e till
  | [] => s

/-- Whether a DEFER entry is on top. -/
def Entry.serialised (x : Entry) : Bool :=
  match x.stack with
  | y :: _ => y.isDefer
  | [] => false

/-- Removes a team from the barriers of its parcel (R65). -/
def State.leaveBarriers (s : State) (pid sl t : Nat) : State :=
  (List.range (s.parcel pid).bars.length).foldl (fun s n =>
    s.updateBar pid n fun b => { b with expected := b.expected &&& ~~~(teamBit sl t) }) s

/-- An instance of a paired parcel exits: its signature is kept for the comparison (R372). -/
def State.keepSig (s : State) (pid : Nat) : State :=
  let p := s.parcel pid
  let l := s.launchOf p.lid
  if l.grid.pair then s.setLaunch p.lid { l with sigs := l.sigs ++ [(p.index, p.shadow, p.sig)] } else s

/-- A team ends with its last sub-team; its parcel ends with its last team (R56, R65, R201). -/
def State.endTeam (s : State) (c sl t : Nat) : State :=
  let pid := (s.team c sl t).pid
  let s1 := (s.leaveBarriers pid sl t).orphan (.team c sl t)
  let s2 := s1.setSlot c sl { s1.slot c sl with teams := (s1.slot c sl).teams.erase t }
  if (s2.core c).slots.any fun y => y.2.teams.any fun z => z.2.pid == pid then s2
  else (s2.keepSig pid).endParcel pid

/-- Discards the CALL and TRAP entries above the topmost JOIN or DEFER entry, releasing held siblings (R56). -/
def State.discard (s : State) (c sl e : Nat) : Nat → State
  | 0 => s
  | n + 1 =>
    match (s.entry c sl e).stack with
    | y :: _ => if y.isJoin || y.isDefer then s
        else ((s.releaseHeld c sl e y).popTop c sl e).discard c sl e n
    | [] => s

/-- The PC after `JOIN k` of a version: by its map, or, of a kernel without maps (R338, R417), where the code holds that `JOIN`; free where
neither gives it (log entry 28). -/
def State.afterJoin (s : State) (c ctx : Nat) (kern : Kernel) (ver : BitVec 3) (k : BitVec 12) : Word × State :=
  match kern.mapOf ver k with
  | some m => let (len, s1) := s.pointLength c ctx (kern.version ver) m.pc
              (m.pc + BitVec.ofNat 32 len, s1)
  | none =>
    match s.findJoin c ctx (kern.version ver) k ((kern.version ver).team.2 / 4) 0 with
    | (some pc, s1) => (pc, s1)
    | (none, s1) => let (v, s2) := s1.free64; (v.setWidth 32, s2)

/-- A sub-team whose mask has become empty proceeds (R56); `fuel` is at least its stack's depth. A pending one whose entry is freed counts as
ended without transferring, also where lanes of it wait accumulated in a JOIN entry (R328; log entry 89: the model's choice). -/
def State.proceedEmpty (s0 : State) (c sl e till : Nat) : Nat → State
  | 0 => s0
  | fuel + 1 =>
    let s := s0.loadStack c sl e ((s0.entry c sl e).stack.takeWhile fun y => y.isCall || y.isTrap).length
    let s1 := (s.discard c sl e (s.entry c sl e).stack.length).loadStack c sl e 1
    let x := s1.entry c sl e
    let t := x.team
    match x.stack with
    | [] =>
      let s2 := (s1.endPending x).delEntry c sl e
      if ((s2.slot c sl).entriesOf t).isEmpty then s2.endTeam c sl t else s2
    | j :: below =>
      if j.isDefer then s1.resumeDefer c sl e j till
      else
        let others := (s1.siblings c sl t j.split).filter (· != e)
        if !others.isEmpty then ((s1.endPending x).delEntry c sl e).tryFuse c sl t j.split till
        else
          let acc := if j.words.isEmpty then List.replicate x.mask.length 0 else j.words
          let s2 := s1.popTop c sl e
          if maskEmpty acc then s2.proceedEmpty c sl e till fuel
          else
            let tm := s.team c sl t
            let kern := s.kernelOf tm
            let u := BitVec.ofNat 3 j.pc.toNat
            let (pc, s2') := s2.afterJoin c (s.launchOf (s.parcel tm.pid).lid).ctx kern x.version j.k
            let s3 := if u ≠ x.version then s2'.loadStack c sl e (aboveJoin (s2'.entry c sl e).stack) else s2'
            let y := s3.entry c sl e
            let s4 := s3.setEntry c sl e { y with
              mask := acc, pc := pc, npc := pc, ibuf := none, ustep := 0,
              stack := if u ≠ x.version then retarget kern u x.version y.stack else y.stack }
            let s5 := if u ≠ x.version then s4.microcode c sl (retargetCost below) else s4
            s5.stallTo c sl e (max till (s5.slot c sl).free)

/-- Lanes leave a sub-team for good (R201); the rest goes on at its next PC. -/
def State.leaveLanes (s : State) (c sl e : Nat) (gone : List Word) (till : Nat) : State :=
  let x := s.entry c sl e
  let mask := maskAndNot x.mask gone
  let s1 := s.setEntry c sl e { x with mask := mask, pc := x.npc, ibuf := none, ustep := 0 }
  if maskEmpty mask then s1.proceedEmpty c sl e till (x.stack.length + 1) else s1.stallTo c sl e till

/-! ### JOIN, SAFEPT, XFER (R199, R306 to R309, R326, R328) -/

/-- The cycle from which the issuing entry is eligible again: the passes and the stall count (R50). -/
def Iss.till (x : Iss) : Nat := x.cyc + max 1 ((rowsOf x.e.mask).length * x.occ) + x.h.stall.toNat

/-- The entry goes on at a PC after this issue; `%ustep` and the comparator mark as given. -/
def Iss.goto (x : Iss) (s : State) (pc : Word) : State :=
  let y := s.entry x.core x.slot x.entry
  (s.setEntry x.core x.slot x.entry
    { y with pc := pc, npc := pc, ibuf := none, ustep := 0, brkSkip := false, yielded := y.yielded || x.h.yld }).stallTo x.core x.slot x.entry x.till

/-- An entry whose instruction has YLD set goes behind those then ready when it is next ready (R62). -/
def State.noteYield (s : State) (c sl e : Nat) (yld : Bool) : State :=
  let y := s.entry c sl e
  s.setEntry c sl e { y with yielded := y.yielded || yld, brkSkip := false }

/-- After a transfer, its cost stands in for the stall count (R307, R325). -/
def Iss.afterXfer (x : Iss) (s : State) (cost : Nat) : State :=
  let n := (rowsOf x.e.mask).length
  let s1 := s.setSlot x.core x.slot { s.slot x.core x.slot with free := x.cyc + n, leaves := List.replicate n 0x01 }
  let s2 := (s1.microcode x.core x.slot cost).noteYield x.core x.slot x.entry x.h.yld
  s2.stallTo x.core x.slot x.entry (s2.slot x.core x.slot).free

/-- The passes of the issue on the slot's pipe, for a meaning that sets the entry itself. -/
def Iss.passes (x : Iss) (s : State) : State :=
  let n := (rowsOf x.e.mask).length
  s.setSlot x.core x.slot { s.slot x.core x.slot with free := x.cyc + max 1 n, leaves := List.replicate (max 1 n) 0x01 }

/-- A safe point (R306, R328): a pending transfer is taken where it succeeds; otherwise the sub-team runs on. -/
def Iss.safePoint (x : Iss) (s : State) (k : BitVec 12) : Act :=
  let y := s.entry x.core x.slot x.entry
  let s1 := s.setEntry x.core x.slot x.entry { y with safept := k }
  match y.target with
  | some b =>
    (match s.transferMark x.core x.slot x.entry b k with
     | some ti => .trap ti
     | none => (match s1.transfer x.core x.slot x.entry b k false with
        | .ok s2 cost => .done (x.afterXfer s2 cost)
        | .fail _ => .done (x.passes (x.goto s1 x.npc))))
  | none => .done (x.passes (x.goto s1 x.npc))

/-- The sub-team waits at the join, and fuses when it is the last (R55). -/
def Iss.atJoin (x : Iss) (s : State) (npc : Word) (id : BitVec 16) : State :=
  let y := s.entry x.core x.slot x.entry
  let s1 := s.setEntry x.core x.slot x.entry
    { y with npc := npc, till := x.till, st := .atJoin, brkSkip := false, yielded := y.yielded || x.h.yld }
  s1.tryFuse x.core x.slot x.e.team id x.till

/-- A `JOIN k` with its JOIN entry on top, transferred to version `b` first (R326). The `JOIN` of that version is then executed within the same
issue, without a fetch, a comparator check or a pass of its own (log entry 89: the model's choice). -/
def Iss.joinIn (x : Iss) (s : State) (b : BitVec 3) (k : BitVec 12) (j : StkEntry) : Word ⊕ State :=
  match s.transfer x.core x.slot x.entry b k true with
  | .fail code => .inl code
  | .ok s1 cost =>
    let y := s1.entry x.core x.slot x.entry
    let (len, s2) := s1.pointLength x.core x.ctx (x.k.version b) y.pc
    let s3 := x.atJoin ((x.passes s2).microcode x.core x.slot cost) (y.pc + BitVec.ofNat 32 len) j.split
    .inr s3

/-- The accumulated mask of a JOIN entry, in every copy of it (R56, R60). -/
def State.accumulate (s : State) (c sl t : Nat) (id : BitVec 16) (mask : List Word) : State :=
  ((s.slot c sl).entriesOf t).foldl (fun s0 n =>
    let st := (s0.entry c sl n).stack
    let s := match st.findIdx? fun y => y.isJoin && y.split == id with
      | some j => s0.loadStack c sl n (j + 1)
      | none => s0
    let x := s.entry c sl n
    s.setEntry c sl n { x with stack := x.stack.map fun y =>
      if y.isJoin && y.split == id then
        { y with words := if y.words.isEmpty then mask else maskOr y.words mask } else y }) s

/-- A `JOIN k` that goes on with a deferred path (R56): its mask joins the one accumulated in the JOIN entry, and the path resumes. -/
def Iss.joinDeferred (x : Iss) (s : State) (id : BitVec 16) (till : Nat) : State :=
  let s1 := (s.accumulate x.core x.slot x.e.team id x.e.mask).noteYield x.core x.slot x.entry x.h.yld
  match (s1.entry x.core x.slot x.entry).stack with
  | d :: _ => s1.resumeDefer x.core x.slot x.entry d till
  | [] => s1

/-- `JOIN k` (R55, R56, R199, R326). One that goes on with a deferred path is a safe point too: a pending transfer is taken before it (R199,
R328; log entry 74). -/
def Iss.join (x : Iss) (s0 : State) (k : BitVec 12) : Act :=
  let s := s0.setEntry x.core x.slot x.entry { x.e with safept := k }
  match x.e.stack with
  | [] => x.safePoint s k
  | j :: below =>
    if j.isJoin && j.k == k then
      let wait := s.waiting x.core x.slot x.e.team j.split
      match s.joinTarget x.core x.slot x.entry k with
      | none => .done (x.atJoin (x.passes s) x.npc j.split)
      | some b =>
        match s.transferMark x.core x.slot x.entry b k with
        | some ti => .trap ti
        | none =>
          match x.joinIn s b k j with
          | .inr s1 => .done s1
          | .inl code =>
            if wait.isEmpty then .done (x.atJoin (x.passes s) x.npc j.split)
            else .trapIn s { x.trap 0x0D with code := code }
    else if j.isDefer then
      match joinBelow below with
      | some y =>
        if y.k == k && k != 0 then
          let stay : Act := .done (x.joinDeferred (x.passes s) y.split x.till)
          match x.e.target with
          | none => stay
          | some b =>
            match s.transferMark x.core x.slot x.entry b k with
            | some ti => .trap ti
            | none =>
              match s.transfer x.core x.slot x.entry b k true with
              | .fail _ => stay
              | .ok s1 cost =>
                let s2 := (x.passes s1).microcode x.core x.slot cost
                .done (x.joinDeferred s2 y.split (s2.slot x.core x.slot).free)
        else x.safePoint s k
      | none => x.safePoint s k
    else x.safePoint s k

def execJoin (h : Hdr) (k : BitVec 12) (s : State) : Out :=
  teamOnly (.join h k) s never never noBank fun x => x.join s k

def execJoinShort (h : HdrB) (k : BitVec 12) (s : State) : Out :=
  teamOnly (.joinShort h k) s never never noBank fun x => x.join s k

def execSafept (h : Hdr) (k : BitVec 12) (s : State) : Out :=
  teamOnly (.safept h k) s never never noBank fun x => x.safePoint s k

def execSafeptShort (h : HdrB) (k : BitVec 12) (s : State) : Out :=
  teamOnly (.safeptShort h k) s never never noBank fun x => x.safePoint s k

/-- `XFER v` (R307 to R309): a pending firmware transfer is taken in its place, and its failure traps nothing (R328). -/
def execXfer (h : Hdr) (v : BitVec 3) (s : State) : Out :=
  teamOnly (.xfer h v) s never never noBank fun x =>
    let k := x.e.safept
    match s.transferMark x.core x.slot x.entry (x.e.target.getD v) k with
    | some ti => if x.e.target.isNone && v = x.e.version then .eff {} else .trap ti
    | none =>
      match x.e.target with
      | some b => (match s.transfer x.core x.slot x.entry b k false with
          | .ok s1 cost => .done (x.afterXfer s1 cost)
          | .fail _ => .eff {})
      | none =>
        if v = x.e.version then .eff {}
        else match s.transfer x.core x.slot x.entry v k false with
          | .ok s1 cost => .done (x.afterXfer s1 cost)
          | .fail code => .trap { x.trap 0x0D with code := code, skip := true }

end Sys2Proof.Machine
end

