-- ==== Sys2Proof/Machine/Control.lean ====
section
/-! DEFINITION. Branches, calls, returns and ends, in the team stream and the control stream (R190 to R202). -/

namespace Sys2Proof.Machine

/-! ### Splits (R53, R54, R195, R196) -/

/-- Whether a split of a team can take a split-table entry: from the team's reserve of two, else from the slot's pool (R53). -/
def State.entryFree (s : State) (c sl t : Nat) : Bool :=
  let x := s.slot c sl
  let used (n : Nat) : Nat := (x.entriesOf n).length
  let pool := 64 - 2 * x.teams.length
  let taken := x.teams.foldl (fun n y => n + (used y.1 - 2)) 0
  decide (used t < 2) || decide (taken < pool)

/-- The lowest split-table index not in use. -/
def Slot.freeIndex (x : Slot) : Nat := ((List.range 64).find? fun i => (x.entries.look i).isNone).getD 64

/-- The next split id of a team: values held by live JOIN entries are skipped (R54). -/
def State.splitId (s : State) (c sl t : Nat) : BitVec 16 :=
  let held := ((s.slot c sl).entriesOf t).flatMap fun n => ((s.entry c sl n).stack.filter StkEntry.isJoin).map StkEntry.split
  let ctr := (s.team c sl t).splitCtr
  (((List.range 65536).map fun i => ctr + BitVec.ofNat 16 i).find? fun i => !held.contains i).getD ctr

/-- A further path takes a new entry with a copy of the stack, eligible when the taken path is (R54, R188). -/
def Iss.newPath (x : Iss) (s : State) (pc : Word) (mask : List Word) : State :=
  let n := (s.slot x.core x.slot).freeIndex
  let y := s.entry x.core x.slot x.entry
  (s.setEntry x.core x.slot n { y with
    pc := pc, npc := pc, mask := mask, segs := [], ibuf := none, ustep := 0, arrived := false, yielded := false,
    brkSkip := false, till := x.till, st := .stalled x.till }).shareOwners x.src x.entry n

/-- The paths behind the first: new entries while there are any, the others to be deferred (R195). -/
def Iss.spread (x : Iss) : List (Word × List Word) → State → State × List (Word × List Word)
  | [], s => (s, [])
  | p :: ps, s =>
    if s.entryFree x.core x.slot x.e.team then x.spread ps (x.newPath s p.1 p.2) else (s, p :: ps)

/-- The paths that found no entry, pushed as DEFER entries with the earliest on top (R54, R195). -/
def Iss.defer (x : Iss) (id : BitVec 16) : List (Word × List Word) → State → Option State
  | [], s => some s
  | p :: ps, s =>
    match x.defer id ps s with
    | none => none
    | some s1 => s1.push x.core x.slot x.entry { kind := 3, split := id, pc := p.1, words := p.2 }

/-- A branch whose lanes go to the given paths (R54, R194 to R196): `call` is the return PC that the first path's entry pushes.
`none` when the stack area has no room (R58). -/
def Iss.branchTo (x : Iss) (s : State) (k : BitVec 12) (paths : List (Word × List Nat)) (call : Option Word) : Option State :=
  let pushCall (s : State) : Option State := match call with
    | some r => s.push x.core x.slot x.entry { kind := 1, pc := r }
    | none => some s
  let rows := x.e.mask.length
  match paths with
  | [] => some (x.goto s x.npc)
  | [p] => (pushCall s).map fun s1 => x.goto s1 p.1
  | p :: ps =>
    let id := s.splitId x.core x.slot x.e.team
    let tm := s.team x.core x.slot x.e.team
    let s1 := s.setTeam x.core x.slot x.e.team { tm with splitCtr := id + 1 }
    let joined := if k = 0 then some s1
      else s1.push x.core x.slot x.entry
        { kind := 0, k := k, split := id, pc := x.e.version.setWidth 32, words := List.replicate rows 0 }
    match joined with
    | none => none
    | some s2 =>
      let (s3, late) := x.spread (ps.map fun q => (q.1, maskOfLanes rows q.2)) s2
      match x.defer id late s3 with
      | none => none
      | some s4 =>
        let y := s4.entry x.core x.slot x.entry
        let s5 := s4.setEntry x.core x.slot x.entry { y with mask := maskOfLanes rows p.2 }
        (pushCall s5).map fun s6 => x.goto s6 p.1

/-- The outcome of a branch: a plain jump when one path takes every lane and pushes nothing, else the split or the trap STKOVF. -/
def Iss.branch (x : Iss) (s : State) (k : BitVec 12) (paths : List (Word × List Nat)) (call : Option Word) : Act :=
  match paths, call with
  | [p], none => .jump s p.1
  | _, _ =>
    match x.branchTo s k paths call with
    | some s1 => .done (x.passes s1)
    | none => .trap (x.trap 0x06)

/-- Target of a label form (R193). -/
def Iss.target (x : Iss) (off : Word) : Word := x.e.pc + off * 4

/-- The paths of a branch with one target: the lanes whose guard is one, then the others (R194). -/
def Iss.twoPaths (x : Iss) (pc : Word) : List (Word × List Nat) :=
  let rest := (lanesOf x.e.mask).filter fun l => !x.act.contains l
  if x.act.isEmpty then [(x.npc, rest)]
  else if rest.isEmpty || pc == x.npc then [(pc, x.act)]
  else [(pc, x.act), (x.npc, rest)]

/-- The paths of a `BRX` with per-lane targets: distinct targets by their lowest lane, the next PC last (R195). -/
def Iss.lanePaths (x : Iss) (a : BitVec 8) : List (Word × List Nat) :=
  let goal (l : Nat) : Word := if x.act.contains l then x.rv l a.toNat else x.npc
  let lanes := lanesOf x.e.mask
  let ts := (lanes.map goal).reverse.dedup.reverse
  let order := ts.filter (· != x.npc) ++ (if ts.contains x.npc then [x.npc] else [])
  order.map fun t => (t, lanes.filter fun l => goal l == t)

/-- The trap ALIGN of a computed target (R165, R197): the lanes of the first row that hold one. -/
def Iss.targetAlign (x : Iss) (lanes : List Nat) : TrapInfo :=
  match lanes with
  | [] => x.trap 0x04
  | l :: ls =>
    let row := ls.foldl (fun r y => min r (y / 32)) (l / 32)
    { cause := 0x04, row := row, lanes := laneWord row (fun y => lanes.contains y) }

def execNop (h : Hdr) (s : State) : Out := bothStreams (.nop h) s never never (fun _ => .eff {}) never never (fun _ => .eff [])
def execNopShort (h : HdrB) (s : State) : Out :=
  bothStreams (.nopShort h) s never never (fun _ => .eff {}) never never (fun _ => .eff [])

/-- `BRA`, in the control stream always to the target (R194). -/
def braOp (i : Instr) (k : BitVec 12) (off : Word) (s : State) : Out :=
  bothStreams i s never never (fun x => x.branch s k (x.twoPaths (x.target off)) none)
    never never (fun y => .jump s (y.x.pc + off * 4))

def execBra (h : Hdr) (k : BitVec 12) (off : Word) (s : State) : Out := braOp (.bra h k off) k off s
def execBraShort (h : HdrB) (off : BitVec 16) (s : State) : Out := braOp (.braShort h off) 0 (off.signExtend 32) s

/-- `BRL`: one outcome for the whole sub-team (R194). -/
def brlOp (i : Instr) (off : Word) (s : State) : Out :=
  teamOnly i s never never noBank fun x => .jump s (if x.act.isEmpty then x.npc else x.target off)

def execBrl (h : Hdr) (k : BitVec 12) (off : Word) (s : State) : Out := brlOp (.brl h k off) off s
def execBrlShort (h : HdrB) (off : BitVec 16) (s : State) : Out := brlOp (.brlShort h off) (off.signExtend 32) s

/-- `BRX` (R194, R195, R197). -/
def execBrx (h : Hdr) (k : BitVec 12) (a : BitVec 8) (sreg : Bool) (s : State) : Out :=
  teamOnly (.brx h k a sreg) s never never noBank fun x =>
    if sreg then
      if x.act.isEmpty then .jump s x.npc
      else
        let t := x.rs a.toNat
        if t.toNat % 4 ≠ 0 then .trap (x.trap 0x04) else .jump s t
    else
      let bad := x.act.filter fun l => decide ((x.rv l a.toNat).toNat % 4 ≠ 0)
      if bad.isEmpty then x.branch s k (x.lanePaths a) none else .trap (x.targetAlign bad)

/-- `BRZ` and `BRNZ`, uniform (R191, R194). -/
def brzOp (i : Instr) (zero : Bool) (a : BitVec 8) (off : Word) (s : State) : Out :=
  bothStreams i s never never
    (fun x => .jump s (if x.act.isEmpty then x.npc else if (x.rs a.toNat == 0) == zero then x.target off else x.npc))
    never never (fun y => .jump s (if (y.rc a == 0) == zero then y.x.pc + off * 4 else y.npc))

def execBrz (h : Hdr) (k : BitVec 12) (a : BitVec 8) (off : Word) (s : State) : Out := brzOp (.brz h k a off) true a off s
def execBrnz (h : Hdr) (k : BitVec 12) (a : BitVec 8) (off : Word) (s : State) : Out := brzOp (.brnz h k a off) false a off s

/-- The paths of a `CALL`: the calling lanes' comes first, even where the target is the next PC (R194, R195). -/
def Iss.callPaths (x : Iss) (off : Word) : List (Word × List Nat) :=
  let rest := (lanesOf x.e.mask).filter fun l => !x.act.contains l
  if rest.isEmpty then [(x.target off, x.act)] else [(x.target off, x.act), (x.npc, rest)]

/-- `CALL`: the calling lanes push the next PC (R194, R195); the control stream's return stack holds 32 (R197). -/
def callOp (i : Instr) (k : BitVec 12) (off : Word) (s : State) : Out :=
  bothStreams i s never never
    (fun x => if x.act.isEmpty then .jump s x.npc else
      (match x.branchTo s k (x.callPaths off) (some x.npc) with
       | some s1 => .done (x.passes s1)
       | none => .trap (x.trap 0x06)))
    never never
    (fun y => if 32 ≤ y.x.ret.length then .trap { cause := 0x06 }
      else .jump (s.setCtl y.cl { y.x with ret := y.npc :: y.x.ret }) (y.x.pc + off * 4))

def execCall (h : Hdr) (k : BitVec 12) (off : Word) (s : State) : Out := callOp (.call h k off) k off s
def execCallShort (h : HdrB) (off : BitVec 16) (s : State) : Out := callOp (.callShort h off) 0 (off.signExtend 32) s

/-! ### POP, RET, RETT (R200, R303, R313) -/

/-- The USTEP field of the top trap frame as the core's own loads see it (R302, R303). -/
def Iss.frameStep (x : Iss) (s : State) (top : StkEntry) : BitVec 8 × State :=
  match s.readView x.core x.ctx (x.t.stkbase.toNat + top.aux.toNat + 32) 1 with
  | (some bs, s1) => (bs.headD 0, s1)
  | (none, s1) => (top.us, s1)

/-- A pop of a TRAP entry (R200, R303): the resume PC, the frame's USTEP, held siblings released. -/
def Iss.popTrap (x : Iss) (s : State) (top : StkEntry) : State :=
  let (us, s1) := x.frameStep s top
  (x.goto s1 x.npc).returnTrap x.core x.slot x.entry top us

/-- `POP` and its expected kinds in the team stream: 0 any, 1 CALL, 2 TRAP. -/
def Iss.pop (x : Iss) (s : State) (kind : Nat) : Act :=
  match x.e.stack with
  | [] => .trap (x.trap 0x01)
  | y :: _ =>
    if y.isCall && kind != 2 || y.isTrap && kind != 1 then
      if y.spill then .sleep s .fill
      else if y.isCall then .done (x.passes (x.goto (s.popTop x.core x.slot x.entry) y.pc))
      else .done (x.passes (x.popTrap s y))
    else .trap (x.trap 0x01)

/-- `POP` in the control stream: the return stack, or `%tpc` and the end of handler state (R313). -/
def CIss.pop (y : CIss) (s : State) (kind : Nat) : CAct :=
  if kind = 2 then
    if y.x.handler then .jump (s.setCtl y.cl { y.x with handler := false }) y.x.tpc else .trap { cause := 0x01 }
  else match y.x.ret with
    | r :: rs => .jump (s.setCtl y.cl { y.x with ret := rs }) r
    | [] => .trap { cause := 0x01 }

def popOp (i : Instr) (kind : Nat) (s : State) : Out :=
  bothStreams i s never never (fun x => x.pop s kind) never never (fun y => y.pop s kind)

def execPop (h : Hdr) (s : State) : Out := popOp (.pop h) 0 s
def execPopShort (h : HdrB) (s : State) : Out := popOp (.popShort h) 0 s
def execRet (h : Hdr) (s : State) : Out := popOp (.ret h) 1 s
def execRetShort (h : HdrB) (s : State) : Out := popOp (.retShort h) 1 s
def execRett (h : Hdr) (s : State) : Out := popOp (.rett h) 2 s
def execRettShort (h : HdrB) (s : State) : Out := popOp (.rettShort h) 2 s

/-! ### EXIT and YIELD (R201, R202) -/

/-- Whether a release of a team's sub-team has nothing to wait for: no unacknowledged or refused write of the team, no earlier
load outstanding (R151). -/
def State.released (s : State) (src : Src) (e : Nat) : Bool :=
  (s.teamWrites src).isEmpty && (s.teamRefused src).isEmpty && (s.entryLoads src e).isEmpty

/-- `EXIT`: a release, then the lanes whose guard is one leave for good (R201). -/
def Iss.exit (x : Iss) (s : State) : Act :=
  let gone := maskOfLanes x.e.mask.length x.act
  if s.released x.src x.entry then
    let s1 := x.passes (x.goto s x.npc)
    .done (s1.leaveLanes x.core x.slot x.entry gone x.till)
  else .sleep s (.release [] false (some gone))

/-- `EXIT` of a control stream performs a `TX.FENCE`, then ends its instance after its release (R71, R201, R285). -/
def CIss.exit (y : CIss) (s : State) : CAct :=
  if !s.fenced y.cl none then .sleep s (.fence none true)
  else match s.fenceTrap y.cl none with
    | some (t, s1) => .trapIn s1 t
    | none => if s.released y.src 0 then .stop (s.endControl y.cl) else .sleep s (.release [] false true)

def exitOp (i : Instr) (s : State) : Out :=
  bothStreams i s never never (fun x => x.exit s) never never (fun y => y.exit s)

def execExit (h : Hdr) (s : State) : Out := exitOp (.exit h) s
def execExitShort (h : HdrB) (s : State) : Out := exitOp (.exitShort h) s

/-- `YIELD`: the ready stamp moves (R62); with a DEFER entry on top the paths swap (R57, R202). -/
def yieldOp (i : Instr) (s : State) : Out :=
  teamOnly i s never never noBank fun x =>
    if x.act.isEmpty then .eff {}
    else if x.e.serialised then .done (x.passes (s.exchange x.core x.slot x.entry x.npc x.till))
    else .go (s.setEntry x.core x.slot x.entry { x.e with yielded := true }) {}

def execYield (h : Hdr) (s : State) : Out := yieldOp (.yield h) s
def execYieldShort (h : HdrB) (s : State) : Out := yieldOp (.yieldShort h) s

end Sys2Proof.Machine
end

