-- ==== Sys2Proof/Machine/Lanes.lean ====
section
/-! DEFINITION. Predicates and cross-lane instructions (R205 to R211) and the scalar group (R212, R213). -/

namespace Sys2Proof.Machine

/-- A predicate result in each active lane, with flags (R171: p0 keeps one). -/
def Iss.eachP (x : Iss) (d : BitVec 8) (f : Nat → Bool × Flags) : Eff :=
  let rs := x.act.map fun l => (l, f l)
  { p := rs.map fun r => (r.1, d.toNat, r.2.1)
    flags := (rs.filter fun r => r.2.2 != 0).map fun r => (r.1, r.2.2) }

/-- The code of a comparison. -/
def cmpCode : Cmp → Nat
  | .eq => 0 | .ne => 1 | .lt => 2 | .le => 3 | .gt => 4 | .ge => 5 | .num => 6 | .nan => 7

/-- `SETP` (R205). -/
def execSetp (h : Hdr) (o : Setp) (s : State) : Out :=
  pureOp (.setp h o) s never fun x =>
    let w := o.ty.is64
    x.eachP o.d fun l =>
      let a := x.opnd w o.as o.a l
      let b := if o.bi then immOf o.ty o.ext o.lit else x.opnd w o.bs o.b l
      if o.ty.isFloat then
        let k := fmtOf o.ty
        cmpFloat o.cmp (k.opnd x.ldnf a) (k.opnd x.ldnf b)
      else (cmpInt (cmpCode o.cmp) (valOf o.ty a) (valOf o.ty b), 0)

/-- `PLOP` (R206). -/
def execPlop (h : Hdr) (d a b c : BitVec 8) (table : BitVec 8) (s : State) : Out :=
  pureOp (.plop h d a b c table) s never fun x =>
    x.eachP d fun l =>
      (table.getLsbD ((x.rp l a.toNat).toNat + 2 * (x.rp l b.toNat).toNat + 4 * (x.rp l c.toNat).toNat), 0)

/-- `PSEL` (R207). -/
def execPsel (h : Hdr) (leg : Bool) (d a b : BitVec 8) (s : State) : Out :=
  pureOp (.psel h leg d a b) s never fun x =>
    let g := x.group leg
    x.eachP d fun l =>
      let src := l / g * g + (x.rs b.toNat).toNat % g
      (x.act.contains src && x.rp src a.toNat, 0)

/-- The values of p[A] in the active lanes of a lane's group (R209). -/
def Iss.votes (x : Iss) (leg : Bool) (a : BitVec 8) (l : Nat) : List Bool :=
  (x.act.filter fun m => m / x.group leg == l / x.group leg).map fun m => x.rp m a.toNat

def execVoteAnd (h : Hdr) (leg : Bool) (d a : BitVec 8) (s : State) : Out :=
  pureOp (.voteAnd h leg d a) s never fun x => x.eachP d fun l => ((x.votes leg a l).all id, 0)
def execVoteOr (h : Hdr) (leg : Bool) (d a : BitVec 8) (s : State) : Out :=
  pureOp (.voteOr h leg d a) s never fun x => x.eachP d fun l => ((x.votes leg a l).any id, 0)
def execVoteEq (h : Hdr) (leg : Bool) (d a : BitVec 8) (s : State) : Out :=
  pureOp (.voteEq h leg d a) s never fun x => x.eachP d fun l => ((x.votes leg a l).all id || !(x.votes leg a l).any id, 0)

/-- `VOTE.mask`: the word of the lane's row, or under `.lw` the 64-bit word of its group (R209). -/
def execVoteMask (h : Hdr) (leg : Bool) (d a : BitVec 8) (s : State) : Out :=
  pureOp (.voteMask h leg d a) s never fun x =>
    let g := if leg then x.legacy else 32
    x.eachI (if leg then .b64 else .b32) d fun l =>
      (x.act.filter fun m => m / g == l / g && x.rp m a.toNat).foldl (fun w m => w + 2 ^ (m % g)) 0

/-- `SHFL` in the modes of R210: `amt` is the operand in each lane. -/
def Iss.shuffle (x : Iss) (mode : ShMode) (g : Nat) (ty : Ty) (d a : BitVec 8) (amt : Nat → Nat) : Eff :=
  x.eachI ty d fun l =>
    let b := l / g * g
    let src := match shuffleFrom mode g (l - b) (amt l) with
      | some j => if x.act.contains (b + j) then b + j else l
      | none => l
    x.opnd ty.is64 false a src

def shflOp (i : Instr) (mode : ShMode) (o : Shfl) (s : State) : Out :=
  pureOp i s never fun x =>
    x.shuffle mode (x.group o.leg) o.ty o.d o.a fun l => if o.bi then o.ext.toNat else (x.rv l o.b.toNat).toNat

def execShflIdx (h : Hdr) (o : Shfl) (s : State) : Out := shflOp (.shflIdx h o) .idx o s
def execShflUp (h : Hdr) (o : Shfl) (s : State) : Out := shflOp (.shflUp h o) .up o s
def execShflDn (h : Hdr) (o : Shfl) (s : State) : Out := shflOp (.shflDn h o) .dn o s
def execShflXor (h : Hdr) (o : Shfl) (s : State) : Out := shflOp (.shflXor h o) .xor o s

/-- `LTOS`: the lowest active lane's value (R211). -/
def execLtos (h : Hdr) (d a : BitVec 8) (s : State) : Out :=
  pureOp (.ltos h d a) s never fun x =>
    match x.act with
    | [] => {}
    | l :: _ => { s := [(d.toNat, (x.rv l a.toNat).setWidth 64)] }

/-- `STOL`: one lane's register, where that lane is active (R211). -/
def execStol (h : Hdr) (d a b : BitVec 8) (s : State) : Out :=
  pureOp (.stol h d a b) s never fun x =>
    let l := (x.rs b.toNat).toNat % x.width
    if x.act.contains l then { v := [(l, d.toNat, x.rs a.toNat)] } else {}

/-! ### The scalar group (R191, R212, R213) -/

/-- A scalar instruction: in the team stream over s registers, 32-bit types alone, when some lane is active; in the control
stream over c registers, a 32-bit result extended by its type. -/
def scalarOp (i : Instr) (ty : Ty) (d : BitVec 8) (a b : Option (BitVec 8)) (imm : Nat) (f : Nat → Nat → Nat) (s : State) : Out :=
  bothStreams i s (fun _ => ty.is64) never
    (fun x =>
      let rd (r : Option (BitVec 8)) : Nat := match r with | some r => (x.rs r.toNat).toNat | none => imm % 2 ^ 32
      if x.act.isEmpty then .eff {} else .eff { s := [(d.toNat, BitVec.ofNat 64 (f (rd a) (rd b)))] })
    never never
    (fun y =>
      let rd (r : Option (BitVec 8)) : Nat := match r with | some r => (y.rc r).toNat % 2 ^ ty.bits | none => imm % 2 ^ ty.bits
      .eff [(d.toNat, BitVec.ofNat 64 (extend ty 64 (f (rd a) (rd b))))])

/-- A scalar instruction of the default layout with two operands. -/
def scalar2 (i : Instr) (o : Alu) (f : Nat → Nat → Nat) (s : State) : Out :=
  scalarOp i o.ty o.d (some o.a) (if o.bi then none else some o.b) (immOf o.ty o.ext o.lit) f s

/-- An exact integer result narrowed or saturated (R213). -/
def scalarInt (i : Instr) (o : Alu) (f : Int → Int → Int) (s : State) : Out :=
  scalar2 i o (fun a b => narrow o.ty o.sat (f (valOf o.ty a) (valOf o.ty b))) s

def execSadd (h : Hdr) (o : Alu) (s : State) : Out := scalarInt (.sadd h o) o (· + ·) s
def execSsub (h : Hdr) (o : Alu) (s : State) : Out := scalarInt (.ssub h o) o (· - ·) s
def execSmul (h : Hdr) (o : Alu) (s : State) : Out := scalarInt (.smul h o) o (· * ·) s
def execSand (h : Hdr) (o : Alu) (s : State) : Out := scalar2 (.sand h o) o (· &&& ·) s
def execSor (h : Hdr) (o : Alu) (s : State) : Out := scalar2 (.sor h o) o (· ||| ·) s
def execSxor (h : Hdr) (o : Alu) (s : State) : Out := scalar2 (.sxor h o) o (· ^^^ ·) s
def execSshl (h : Hdr) (o : Alu) (s : State) : Out := scalar2 (.sshl h o) o (shiftOp 0 o.ty.bits) s
def execSshr (h : Hdr) (o : Alu) (s : State) : Out := scalar2 (.sshr h o) o (shiftOp 1 o.ty.bits) s
def execSsra (h : Hdr) (o : Alu) (s : State) : Out := scalar2 (.ssra h o) o (shiftOp 2 o.ty.bits) s
def execSmov (h : Hdr) (o : Alu) (s : State) : Out := scalarOp (.smov h o) o.ty o.d (some o.a) none 0 (fun a _ => a) s
def execSmovShort (h : HdrB) (d a : BitVec 7) (s : State) : Out :=
  scalarOp (.smovShort h d a) .b32 (d.setWidth 8) (some (a.setWidth 8)) none 0 (fun v _ => v) s
def execSmovi (h : Hdr) (o : Alu) (s : State) : Out :=
  scalarOp (.smovi h o) o.ty o.d none none (immOf o.ty o.ext o.lit) (fun a _ => a) s
def execSmoviLit (h : HdrB) (wide : Bool) (d : BitVec 7) (lit : Dword) (s : State) : Out :=
  scalarOp (.smoviLit h wide d lit) (if wide then .b64 else .b32) (d.setWidth 8) none none lit.toNat (fun a _ => a) s

/-- `SCMP`: the comparison that RND codes; `.b32` and `.b64` compare their bits (R212). -/
def execScmp (h : Hdr) (o : Alu) (s : State) : Out :=
  scalar2 (.scmp h o) o (fun a b => (cmpInt o.rnd.code (valOf o.ty a) (valOf o.ty b)).toNat) s

end Sys2Proof.Machine
end

