-- ==== Sys2Proof/Machine/System.lean ====
section
/-! DEFINITION. Special registers, software traps, progress reports, the forerunner instructions without memory, unassigned words,
and the firmware debug function (R182, R184, R297 to R305, R310 to R313). -/

namespace Sys2Proof.Machine

/-! ### Special registers (R298 to R300) -/

/-- The registers of the team stream, of the control stream, and those with a value per lane. -/
def teamSpecial (n : Nat) : Bool := decide (n < 0x01D) && n != 0x00F
def ctlSpecial (n : Nat) : Bool :=
  n == 0x00A || n == 0x00B || n == 0x00E || n == 0x00F || n == 0x010 || (decide (0x017 ≤ n) && decide (n ≤ 0x01C))
def laneSpecial (n : Nat) : Bool := n == 0x000 || n == 0x001

/-- The registers of which a field is writable, in handler state or outside it (R298). -/
def writable (handler ctl : Bool) (n : Nat) : Bool :=
  n == 0x010 || (n == 0x011 && !ctl) || (n == 0x016 && handler && !ctl) || (n == 0x017 && handler) || n == 0x019

/-- The registers that only handler state reaches (R298). -/
def handlerOnly (n : Nat) : Bool := n == 0x017 || n == 0x018

/-- A 16-bit core mask as `%pmask` holds it. -/
def maskBits (cs : List Nat) : Nat := cs.foldl (fun m i => m + 2 ^ i) 0

/-- A special register's value in a lane of the team stream (R47, R48, R298). -/
def Iss.special? (x : Iss) (s : State) (n l : Nat) : Nat × State :=
  let (top, s) := match x.e.stack.find? fun (y : StkEntry) => y.isTrap && decide (0x016 ≤ n ∧ n ≤ 0x018) with
    | some y => let (z, s1) := s.loadEntry x.core x.slot x.entry y; (some z, s1)
    | none => (none, s)
  match n with
  | 0x000 => (l, s)
  | 0x001 => (l / 32, s)
  | 0x002 => (x.t.index, s)
  | 0x003 => (x.width, s)
  | 0x004 => (x.p.index, s)
  | 0x005 => (x.p.x, s)
  | 0x006 => (x.p.y, s)
  | 0x007 => (x.p.z, s)
  | 0x008 => (s.gteam x.t, s)
  | 0x009 => (x.core, s)
  | 0x00A => (clusterOf x.core, s)
  | 0x00B => (maskBits (s.pmask (clusterOf x.core) x.p.lid), s)
  | 0x00C => (x.e.version.toNat, s)
  | 0x00D => (x.e.safept.toNat, s)
  | 0x00E => (x.cyc, s)
  | 0x010 => (x.t.mode.toNat, s)
  | 0x011 => (x.t.fpctl.toNat, s)
  | 0x012 => (x.t.tagCount 0, s)
  | 0x013 => (x.t.tagCount 1, s)
  | 0x014 => (x.t.tagCount 2, s)
  | 0x015 => (x.t.tagCount 3, s)
  | 0x016 => (match top with
      | some t => let (us, s1) := x.frameStep s t; (us.toNat, s1)
      | none => (x.e.ustep.toNat, s))
  | 0x017 => (match top with | some t => t.pc.toNat | none => 0, s)
  | 0x018 => (match top with | some t => x.t.stkbase.toNat + t.aux.toNat | none => 0, s)
  | 0x019 => (x.t.tvec.toNat, s)
  | 0x01A => (x.t.stkbase.toNat, s)
  | 0x01B => (x.t.stklim.toNat, s)
  | 0x01C => ((s.core x.core).dbgctl.toNat % 4, s)
  | _ => (0, s)

/-- A special register's value in the control stream (R298, R300, R313). `%dbgctl` is the core's that the control core has not:
its bits read zero there (log entry 29). -/
def CIss.special (y : CIss) (s : State) (n : Nat) : Nat :=
  match n with
  | 0x00A => y.cl
  | 0x00B => maskBits (s.pmask y.cl y.x.lid)
  | 0x00E => y.x.cycle
  | 0x00F => y.x.eseq.toNat
  | 0x010 => y.x.mode.toNat % 2
  | 0x017 => y.x.tpc.toNat
  | 0x018 => y.x.stkbase.toNat
  | 0x019 => y.x.tvec.toNat
  | 0x01A => y.x.stkbase.toNat
  | 0x01B => y.x.stklim.toNat
  | _ => 0

/-- `SRD` (R298, R299). -/
def srdOp (i : Instr) (n : Nat) (sdest : Bool) (d : BitVec 8) (s : State) : Out :=
  bothStreams i s
    (fun _ => !teamSpecial n || (sdest && laneSpecial n) || (wideSpecial n && decide (d.toNat % 2 = 1)))
    (fun x => handlerOnly n && !x.e.handler)
    (fun x =>
      if x.act.isEmpty then .eff {}
      else
        let (v, s1) := x.special? s n (x.act.headD 0)
        if sdest then
          .go s1 { s := if wideSpecial n then [(d.toNat, BitVec.ofNat 64 (v % 2 ^ 32)), (d.toNat + 1, BitVec.ofNat 64 (v / 2 ^ 32))]
                        else [(d.toNat, BitVec.ofNat 64 v)] }
        else .go s1 (x.eachI (if wideSpecial n then .b64 else .b32) d fun l => if laneSpecial n then (x.special? s n l).1 else v))
    (fun _ => !ctlSpecial n || !sdest)
    (fun y => handlerOnly n && !y.x.handler)
    (fun y => .eff [(d.toNat, BitVec.ofNat 64 (y.special s n))])

def execSrd (h : Hdr) (reg : BitVec 12) (sdest : Bool) (d : BitVec 8) (s : State) : Out :=
  srdOp (.srd h reg sdest d) reg.toNat sdest d s
def execSrdShort (h : HdrB) (d a : BitVec 7) (s : State) : Out :=
  srdOp (.srdShort h d a) a.toNat false (d.setWidth 8) s

/-- The top TRAP entry changed. -/
def mapTopTrap (f : StkEntry → StkEntry) : List StkEntry → List StkEntry
  | [] => []
  | y :: r => if y.isTrap then f y :: r else y :: mapTopTrap f r

/-- A write of a team's special register (R300, R303). -/
def Iss.writeSpecial (x : Iss) (s : State) (n : Nat) (v : Word) : State :=
  let t := s.team x.core x.slot x.e.team
  match n with
  | 0x010 => s.setTeam x.core x.slot x.e.team { t with mode := (t.mode &&& ~~~15) ||| (v &&& 15) }
  | 0x011 => s.setTeam x.core x.slot x.e.team { t with fpctl := v &&& 0x1F3F }
  | 0x019 => s.setTeam x.core x.slot x.e.team { t with tvec := v }
  | 0x017 =>
    let f (y : StkEntry) : StkEntry := { y with pc := v, byCmp := y.byCmp && decide (v = y.pc) }
    let s1 := s.loadStack x.core x.slot x.entry ((x.e.stack.takeWhile fun y => !y.isTrap).length + 1)
    let z := s1.entry x.core x.slot x.entry
    s1.setEntry x.core x.slot x.entry { z with stack := mapTopTrap f z.stack }
  | 0x016 =>
    (match x.e.stack.find? StkEntry.isTrap with
     | some y0 =>
       let (y, s0) := s.loadEntry x.core x.slot x.entry y0
       let s1 := (s0.sendBytes x.src x.core x.ctx x.p.lid (x.t.stkbase.toNat + y.aux.toNat + 32) x.e.pc x.e.version (s.gteam x.t)
         [v.setWidth 8]).2
       s1.setEntry x.core x.slot x.entry { x.e with stack := mapTopTrap (fun y => { y with us := v.setWidth 8 }) x.e.stack }
     | none => s)
  | _ => s

/-- A write of the control stream's special register (R300, R313). -/
def CIss.writeSpecial (y : CIss) (s : State) (n : Nat) (v : Word) : State :=
  let z := s.ctl y.cl
  match n with
  | 0x010 => s.setCtl y.cl { z with mode := v &&& 1 }
  | 0x017 => s.setCtl y.cl { z with tpc := v }
  | 0x019 => s.setCtl y.cl { z with tvec := v }
  | _ => s

/-- Whether a value of `%tvec` or `%tpc` is misaligned (R300). -/
def badTarget (n : Nat) (v : Word) : Bool :=
  (n == 0x017 || (n == 0x019 && v != 0xFFFFFFFF)) && decide (v.toNat % 4 ≠ 0)

/-- `SWR` (R297, R298, R300). The privilege check is made as the encoding check is, also without an active lane (log entry 75). -/
def execSwr (h : Hdr) (reg : BitVec 12) (a : BitVec 8) (s : State) : Out :=
  let n := reg.toNat
  bothStreams (.swr h reg a) s
    (fun _ => !teamSpecial n || (wideSpecial n && decide (a.toNat % 2 = 1)))
    (fun x => !writable x.e.handler false n)
    (fun x =>
      if x.act.isEmpty then .eff {}
      else
        let v := x.rs a.toNat
        if badTarget n v then .trap (x.trap 0x04) else .go (x.writeSpecial s n v) {})
    (fun _ => !ctlSpecial n) (fun y => !writable y.x.handler true n)
    (fun y =>
      let v := (y.rc a).setWidth 32
      if badTarget n v then .trap { cause := 0x04 } else .go (y.writeSpecial s n v) [])

/-! ### Software traps and progress (R304, R310) -/

/-- `TRAP` (cause SOFT) and `BRK` (cause BREAK): the code goes into the frame, the resume PC is the next PC (R301, R304). -/
def softTrap (i : Instr) (cause : BitVec 8) (code : Word) (s : State) : Out :=
  bothStreams i s never never
    (fun x => if x.act.isEmpty then .eff {} else .trap { x.trap cause with code := code, skip := true })
    never never (fun _ => .trap { cause := cause, code := code, skip := true })

def execTrap (h : Hdr) (code : Word) (s : State) : Out := softTrap (.trap h code) 0x00 code s
def execBrk (h : Hdr) (code : Word) (s : State) : Out := softTrap (.brk h code) 0x0A code s

/-- `PROGRESS` (R310); in run-ahead it has no effect. -/
def execProgress (h : Hdr) (a : BitVec 8) (s : State) : Out :=
  teamOnly (.progress h a) s never never noBank fun x =>
    if x.e.ra.isSome then .eff {}
    else .go (s.setTeam x.core x.slot x.e.team { x.t with report := some ((x.rs a.toNat).setWidth 16) }) {}

/-! ### Forerunner instructions (R184, R311, R312) -/

/-- The passes of step `j` of an expansion: each step takes one pass per non-empty row (R312). -/
def Iss.stepPass (x : Iss) (j : Nat) : Iss :=
  let rows := rowsOf x.e.mask
  { x with pass := rows.zipIdx.map fun r => (r.1, x.cyc + j * rows.length + r.2) }

/-- The passes of the steps that an expansion has taken before it traps (R312, R341). -/
def Iss.stepsDone (x : Iss) (s : State) (n : Nat) : State :=
  let total := n * (rowsOf x.e.mask).length
  if total = 0 then s
  else s.setSlot x.core x.slot { s.slot x.core x.slot with free := x.cyc + total, leaves := List.replicate total 0x01 }

/-- The passes of `n` steps on the slot's pipe; the stall count follows the last (R184, R312). -/
def Iss.steps (x : Iss) (s : State) (n : Nat) : State :=
  let total := max 1 (n * (rowsOf x.e.mask).length)
  let s1 := s.setSlot x.core x.slot { s.slot x.core x.slot with free := x.cyc + total, leaves := List.replicate total 0x01 }
  (x.goto s1 x.npc).stallTo x.core x.slot x.entry (x.cyc + total + x.h.stall.toNat)

/-- Begun at or past its last step, an expansion traps UNDEF (R312). -/
def Iss.pastSteps (n : Nat) (x : Iss) : Bool := decide (n ≤ x.e.ustep.toNat)

/-- `ODOT4` (R311). -/
def execOdot4 (h : Hdr) (nat : Bool) (d a b c : BitVec 8) (s : State) : Out :=
  pureOp (.odot4 h nat d a b c) s (Iss.pastSteps 1) fun x => x.eachI .b32 d fun l =>
    dotInt 4 8 (!nat) (!nat) false (x.rv l c.toNat).toNat (x.rv l a.toNat).toNat (x.rv l b.toNat).toNat

/-- `OSHFW`: a shuffle in groups of the legacy width (R311). -/
def execOshfw (h : Hdr) (mode : ShMode) (d a b : BitVec 8) (s : State) : Out :=
  pureOp (.oshfw h mode d a b) s (Iss.pastSteps 1) fun x =>
    x.shuffle mode x.legacy .b32 d a fun l => (x.rv l b.toNat).toNat

/-- Step `j` of `OMMA8`: row `j` of B against each lane's row of A, in aligned groups of eight lanes (R311). -/
def Iss.ommaStep (x : Iss) (na nb : Bool) (d a b : BitVec 8) (j : Nat) : Eff :=
  x.eachI .b32 (d + BitVec.ofNat 8 j) fun l =>
    let ai := (x.rv2 l a.toNat).toNat
    bitsOfInt 32 ((List.range 8).foldl (fun (t : Int) m =>
      let lane := l / 8 * 8 + m
      let bm := if x.act.contains lane then (x.rv2 lane b.toNat).toNat else 0
      t + intOf (!na) 8 (ai / 2 ^ (8 * m)) * intOf (!nb) 8 (bm / 2 ^ (8 * j))) ((x.rv l (d.toNat + j)).toNat : Int))

/-- `OMMA8`: eight steps, from the step that `%ustep` names (R311, R312). -/
def execOmma8 (h : Hdr) (na nb : Bool) (d a b : BitVec 8) (s : State) : Out :=
  teamOnly (.omma8 h na nb d a b) s (Iss.pastSteps 8) never noBank fun x =>
    let first := x.e.ustep.toNat
    let js := (List.range (8 - first)).map (· + first)
    if x.e.ra.isSome then
      .eff (js.foldl (fun (f : Eff) j => { f with v := f.v ++ (x.ommaStep na nb d a b j).v }) {})
    else
      let s1 := js.foldl (fun s j =>
        let y := x.stepPass (j - first)
        y.commit s (y.ommaStep na nb d a b j)) s
      .done (x.steps s1 js.length)

/-! ### Words that are no instruction (R181, R182) -/

/-- A word whose opcode is unassigned, or that breaks a rule of R181: a precise UNDEF trap whose frame holds the words. -/
def execUnassignedOpcode (ws : List Word) (s : State) : Out :=
  bothStreams (.unassignedOpcode ws) s (fun _ => true) never (fun _ => .eff {}) (fun _ => true) never (fun _ => .eff [])

/-! ### The firmware debug function (R302 to R305, R403) -/

/-- The debug function resumes a sub-team held at handler entry, through its TRAP entry (R302, R303). -/
def execDebugResume (core slot entry : Nat) (s : State) : Out :=
  match s.entry? core slot entry with
  | none => .next s
  | some x =>
    match x.stack with
    | y :: _ =>
      if x.debug && x.st == .ready && y.isTrap && s.wh.life == .debug then
        let va := (s.team core slot x.team).stkbase.toNat + y.aux.toNat + 32
        let ctx := (s.launchOf (s.parcel (s.team core slot x.team).pid).lid).ctx
        let (bs, s1) := s.readView core ctx va 1
        let us := match bs with | some b => b.headD 0 | none => y.us
        let s2 := s1.setEntry core slot entry { s1.entry core slot entry with debug := false }
        .next ((s2.returnTrap core slot entry y us).makeReady core slot entry)
      else .next s
    | [] => .next s

/-- The debug function writes `%dbgctl`, programs one of a core's four PC comparators, and its watch range (R298, R304, R346);
it has this right in the lifecycle state DEBUG (R403). -/
def execDebugFunctionWrite (core comparator : Nat) (ctx : Id) (version : BitVec 3) (pc dbgctl : Word)
    (watch : Option (Nat × Nat)) (s : State) : Out :=
  if s.wh.life == .debug && decide (core < 256) && decide (comparator < 4) then
    let k := s.core core
    .next (s.setCore core { k with
      cmps := k.cmps.put comparator { ctx := ctx, version := version, pc := pc }
      dbgctl := dbgctl &&& 3
      watch := match watch with | some w => [w] | none => k.watch })
  else .next s

end Sys2Proof.Machine
end

