-- ==== Sys2Proof/Machine/Mem.lean ====
section
/-! DEFINITION. Addresses of the memory group and their checks (R109, R127, R240, R241), requests by sector, core or partition
(R242), loads, stores, acquires, releases, fences, hints, `MONWAIT` and `OLDX` (R203, R243 to R247, R252, R311). -/

namespace Sys2Proof.Machine

/-! ### Addresses (R240) -/

/-- The fields that name a lane's address. -/
structure AddrF where
  sp  : Space
  sb  : Bool
  ix  : Bool
  a   : Nat
  b   : Nat
  off : Int
  deriving DecidableEq, Repr

def memAddr (o : Mem) : AddrF :=
  { sp := o.space, sb := o.sb, ix := o.ix, a := o.a.toNat, b := o.b.toNat, off := o.off.toInt }
def atmAddr (o : Atm) : AddrF :=
  { sp := o.space, sb := o.sb, ix := o.ix, a := o.a.toNat, b := o.b.toNat, off := o.off.toInt }

/-- The exact address of a lane. -/
def Iss.exact (x : Iss) (f : AddrF) (lane : Nat) : Int :=
  (match f.sb, f.sp with
   | false, .g => ((x.rv2 lane f.a).toNat : Int)
   | false, _ => ((x.rv lane f.a).toNat : Int)
   | true, .g => ((x.rs2 f.a).toNat : Int)
   | true, _ => ((x.rs f.a).toNat : Int)) +
  (if f.ix then (x.rv lane f.b).toInt else 0) + f.off

/-- The address of a lane as a number: 64 bits in `.g`; elsewhere it is used only where it lies in range. -/
def Iss.ea (x : Iss) (f : AddrF) (lane : Nat) : Nat :=
  if f.sp = .g then (x.exact f lane).emod (2 ^ 64) |>.toNat else (x.exact f lane).toNat

/-- The byte of a core's scratchpad that a `.c` address of a launch names, with the core, when the core's Tarn region holds `n`
bytes from it (R114). -/
def State.tarnAt (s : State) (cl lid a n : Nat) : Option (Nat × Nat) :=
  let core := 16 * cl + a / 2 ^ 18
  let t := s.tarnSize core lid
  if decide (a < 2 ^ 22) && decide (a % 2 ^ 18 + n ≤ t) && decide (0 < t) then some (core, scratchSize - t + a % 2 ^ 18) else none

/-- The range check of a lane's `n` bytes (R109, R114, R116, R127). -/
def Iss.inRange (x : Iss) (s : State) (f : AddrF) (n : Nat) (k : Right) (lane : Nat) : Bool :=
  let e := x.exact f lane
  let a := x.ea f lane
  match f.sp with
  | .g => s.windowOk x.ctx a n k
  | .l => decide (0 ≤ e) && decide (a + n ≤ x.ver.scratch)
  | .c => decide (0 ≤ e) && (s.tarnAt (clusterOf x.core) x.p.lid a n).isSome
  | .p => decide (0 ≤ e) && decide (a + n ≤ 64 * (s.ctxOf x.ctx).desc.pond * 2 ^ 20)

/-- A trap of some lanes: the first row that holds one, the address of its lowest lane (R241). -/
def lanesTrap (cause : BitVec 8) (bad : List Nat) (va : Nat → Int) : TrapInfo :=
  let row := bad.foldl (fun r l => min r (l / 32)) (bad.headD 0 / 32)
  let inRow := bad.filter fun l => l / 32 == row
  let low := inRow.foldl min (inRow.headD 0)
  { cause := cause, row := row, lanes := laneWord row (fun l => inRow.contains l), va := BitVec.ofInt 64 (va low) }

/-- Whether a lane's global access lies in a watched range of the core (R346): base and length. -/
def State.watched (s : State) (core a n : Nat) : Bool :=
  (s.core core).watch.any fun w => decide (a < w.1 + w.2) && decide (w.1 < a + n)

/-- The checks of R183 rows 7 to 9 for an access of `n` bytes aligned to `size` (R240, R241, R346). -/
def Iss.addrTrap (x : Iss) (s : State) (f : AddrF) (size n : Nat) (k : Right) : Option TrapInfo :=
  let skew := x.act.filter fun l => decide (x.exact f l % size ≠ 0)
  if !skew.isEmpty then some (lanesTrap 0x04 skew (x.exact f))
  else
    let out := x.act.filter fun l => !x.inRange s f n k l
    if !out.isEmpty then some (lanesTrap 0x03 out (x.exact f))
    else
      let hit := x.act.filter fun l => f.sp == .g && s.watched x.core (x.ea f l) n
      if hit.isEmpty then none else some (lanesTrap 0x09 hit (x.exact f))

/-- The byte of the issuing core's scratchpad that a lane's access reaches without a message (R109, R115). -/
def Iss.localByte (x : Iss) (s : State) (f : AddrF) (n lane : Nat) : Option Nat :=
  match f.sp with
  | .l => some (x.p.base + x.ea f lane)
  | .c => (match s.tarnAt (clusterOf x.core) x.p.lid (x.ea f lane) n with
      | some (c, a) => if c = x.core then some a else none
      | none => none)
  | _ => none

/-- Whether another requester may want a bank of a core's scratchpad (R112): an engine command under way, an arrival of a lane copy, a remote
Tarn access, or a pass of another issue slot. -/
def State.contended (s : State) (core slot : Nat) : Bool :=
  ((s.core core).slots.any fun y => y.1 != slot && !y.2.teams.isEmpty) ||
  ((s.ctl (clusterOf core)).cmds.any fun m => !m.finished && m.cores.contains (core % 16)) ||
  s.reqs.any fun r => (match r.tgt with | .bank c => c == core | _ => false) ||
    (r.port == core && (match r.kind with | .copyIn .. | .arrive .. | .copyOut .. => true | _ => false))

/-- The distinct scratchpad words that a row's pass touches. -/
def Iss.bankWords (x : Iss) (s : State) (f : AddrF) (n r : Nat) : List Nat :=
  ((x.act.filter fun l => l / 32 == r).flatMap fun l =>
    match x.localByte s f n l with
    | some a => (List.range ((n + 3) / 4)).map (a / 4 + ·)
    | none => []).dedup

/-- The largest number of words in one bank. -/
def bankDepth (words : List Nat) : Nat := words.foldl (fun m w => max m (words.countP fun u => u % 96 == w % 96)) 0

/-- The further core cycles of each pass: the largest number of distinct words in one bank, less one (R111), and where other requesters
want the banks the cycles lost in arbitration, at most 16 for each word of a bank (R112, R113; log entry 24). -/
def Iss.banks (x : Iss) (s : State) (f : AddrF) (n : Nat) : List Nat :=
  (rowsOf x.e.mask).map fun r =>
    let depth := bankDepth (x.bankWords s f n r)
    depth - 1 + (if s.contended x.core x.slot then min (Config.bankWait s.tick r) (16 * depth) else 0)

/-! ### Requests -/

/-- Lanes grouped by row and by a key of their address, rows ascending. -/
def groupLanes (ls : List Nat) (key : Nat → Nat) : List (Nat × Nat × List Nat) :=
  let keys := (ls.map fun l => (l / 32, key l)).reverse.dedup.reverse
  keys.map fun k => (k.1, k.2, ls.filter fun l => l / 32 == k.1 && key l == k.2)

/-- A request of this instruction. -/
def Iss.req (x : Iss) (s : State) (kind : ReqKind) (tgt : Tgt) (va row : Nat) (lanes : List Nat) : Req :=
  { id := 0, kind := kind, src := x.src, port := x.core, owners := [x.entry], ctx := x.ctx, lid := x.p.lid, tgt := tgt,
    va := va, pc := x.e.pc, version := x.e.version, row := row, gteam := s.gteam x.t, lanes := laneWord row (fun l => lanes.contains l) }

/-- A present L1 sector that a load can hit; the replacement may have dropped it (log entry 11). -/
def State.l1Hit (s : State) (port ctx va : Nat) : Option (List Byte) × State :=
  match (s.cache port).look (sectorKey ctx va) with
  | none => (none, s)
  | some bs =>
    let (gone, s1) := s.freeBool
    if gone then (none, s1.cacheDrop port ctx va) else (some bs, s1)

/-- The load of `n` elements of a type for lanes at the addresses `ea`: scratchpad of this core at once, an L1 hit at once, else one
request per row and core, partition or sector (R115, R242, R244). The requests made. -/
def Iss.sendLoad (x : Iss) (s : State) (f : AddrF) (ty : Ty) (n reg : Nat) (acq : Bool) : List Nat × State :=
  let size := n * ty.bytes
  let dest (ls : List Nat) (addr : Nat → Nat) : Dest := { reg := reg, ty := ty, n := n, lanes := ls.map fun l => (l, addr l) }
  let near := x.act.filter fun l => (x.localByte s f size l).isSome
  let s1 := near.foldl (fun s l =>
    s.writeDest x.src (dest [l] (x.ea f)) l (s.readScr x.core ((x.localByte s f size l).getD 0) size)) s
  let far := x.act.filter fun l => !near.contains l
  match f.sp with
  | .l => ([], s1)
  | .c =>
    let at_ (l : Nat) : Nat × Nat := (s.tarnAt (clusterOf x.core) x.p.lid (x.ea f l) size).getD (0, 0)
    (groupLanes far fun l => (at_ l).1).foldl (fun acc g =>
      let (id, t) := acc.2.addReq (x.req s (.load (dest g.2.2 fun l => (at_ l).2) acq) (.bank g.2.1) 0 g.1 g.2.2)
      (acc.1 ++ [id], t)) ([], s1)
  | .p =>
    (groupLanes far fun l => pondPart (x.ea f l)).foldl (fun acc g =>
      let (id, t) := acc.2.addReq (x.req s (.load (dest g.2.2 (x.ea f)) acq) (.pond g.2.1) 0 g.1 g.2.2)
      (acc.1 ++ [id], t)) ([], s1)
  | .g =>
    (groupLanes far fun l => x.ea f l / 32 * 32).foldl (fun acc g =>
      let (hit, t) := if acq then (none, acc.2) else acc.2.l1Hit x.core x.ctx g.2.1
      match hit with
      | some bs => (acc.1, g.2.2.foldl (fun t l =>
          t.writeDest x.src (dest [l] (x.ea f)) l ((bs.drop (x.ea f l % 32)).take size)) t)
      | none =>
        let (id, t) := t.addReq { x.req s (.load (dest g.2.2 (x.ea f)) acq) (.part (partOf g.2.1)) g.2.1 g.1 g.2.2 with noFill := acq }
        (acc.1 ++ [id], t)) ([], s1)

/-- A load in run-ahead (R74): in the lanes whose address is valid an L1 hit delivers its data and any other load becomes a hint with
an invalid result. An address that would trap or that no prefetch can reach is dropped and counted, and the episode goes on (log
entry 16). -/
def Iss.raLoad (x : Iss) (s : State) (f : AddrF) (ty : Ty) (n reg : Nat) : State × Eff :=
  let size := n * ty.bytes
  let step := if ty.is64 then 2 else 1
  let bad (l : Nat) : List (Nat × Nat) := (List.range (step * n)).map fun j => (reg + j, l)
  let known (l : Nat) : Bool := match x.e.ra with | some ra => !x.raBad ra l | none => true
  let ok (l : Nat) : Bool := known l && f.sp == .g && decide (x.exact f l % size = 0) && x.inRange s f size .r l
  let skip := x.act.filter fun l => !ok l
  let s0 := s.setCore x.core { s.core x.core with dropped := (s.core x.core).dropped + (if skip.all fun l => !known l then 0 else 1) }
  (groupLanes (x.act.filter ok) fun l => x.ea f l / 32 * 32).foldl (fun (acc : State × Eff) g =>
    let (hit, t) := acc.1.l1Hit x.core x.ctx g.2.1
    match hit with
    | some bs =>
      let ws := g.2.2.flatMap fun l => (List.range n).flatMap fun j =>
        resV ty (BitVec.ofNat 8 (reg + step * j)) l
          (extend ty (if ty.is64 then 64 else 32) (natOfBytes ((bs.drop (x.ea f l % 32 + j * ty.bytes)).take ty.bytes)))
      (t, { acc.2 with v := acc.2.v ++ ws })
    | none =>
      let (_, t) := t.addReq (x.req s (.hint true) (.part (partOf g.2.1)) g.2.1 g.1 g.2.2)
      (t, { acc.2 with bad := acc.2.bad ++ g.2.2.flatMap bad }))
    (s0, { bad := skip.flatMap bad })

/-- The bytes that a lane stores (R245). -/
def Iss.laneBytes (x : Iss) (ty : Ty) (n reg lane : Nat) : List Byte :=
  (List.range n).flatMap fun j =>
    bytesOfNat ty.bytes (if ty.is64 then (x.rv2 lane (reg + 2 * j)).toNat else (x.rv lane (reg + j)).toNat)

/-- The bytes of several lanes at addresses, the higher-numbered lane's value where two write one byte (R145, R245). -/
def mergeBytes (ls : List Nat) (addr : Nat → Nat) (data : Nat → List Byte) : List (Nat × Byte) :=
  ls.foldl (fun (m : Store Byte) l => (data l).zipIdx.foldl (fun (m : Store Byte) b => Store.put m (addr l + b.2) b.1) m) []

/-- CRC-64/ECMA-182 of bytes (R372). -/
def crc64 (bs : List Byte) : Dword :=
  bs.foldl (fun (c : Dword) (b : Byte) => (List.range 8).foldl
    (fun (c : Dword) _ => if c.getLsbD 63 then (c <<< 1) ^^^ 0x42F0E1EBA9EA3693 else c <<< 1) (c ^^^ (b.setWidth 64 <<< 56))) 0

/-- The CRC of a sector write request: its address, byte mask and data (R372; log entry 34). -/
def requestCrc (va : Nat) (bs : List (Nat × Byte)) : Dword :=
  let has (i : Nat) : Bool := bs.any fun b => b.1 == i
  crc64 (bytesOfNat 8 va ++ bytesOfNat 4 ((List.range 32).foldl (fun n i => if has i then n + 2 ^ i else n) 0) ++
    (List.range 32).map fun i => match bs.find? fun b => b.1 == i with | some b => b.2 | none => 0)

/-- Whether a write request of a parcel enters a signature (R372): the parcel is paired and the window WONLY. -/
def State.signed (s : State) (pid ctx va : Nat) : Bool :=
  (s.launchOf (s.parcel pid).lid).grid.pair && (match s.windowAt ctx va 1 with | some w => w.2.wonly | none => false)

/-- A paired parcel's write request to a WONLY window (R372): it enters the signature, and whether the request is sent. -/
def State.pairWrite (s : State) (pid ctx va : Nat) (bs : List (Nat × Byte)) : Bool × State :=
  let p := s.parcel pid
  if s.signed pid ctx va then
    (!p.shadow, s.setParcel pid { p with sig := p.sig ^^^ requestCrc va bs })
  else (true, s)

/-- The stores of the active lanes (R245): this core's scratchpad at once, else requests in a progress state; those to `.g` update
the L1 as they are sent (R149). The requests made. -/
def Iss.sendStore (x : Iss) (s : State) (f : AddrF) (ty : Ty) (n reg : Nat) (st : ReqSt) : List Nat × State :=
  let size := n * ty.bytes
  let near := x.act.filter fun l => (x.localByte s f size l).isSome
  let s1 := near.foldl (fun s l => s.storeScr x.core ((x.localByte s f size l).getD 0) (x.laneBytes ty n reg l)) s
  let far := x.act.filter fun l => !near.contains l
  match f.sp with
  | .l => ([], s1)
  | .c =>
    let at_ (l : Nat) : Nat × Nat := (s.tarnAt (clusterOf x.core) x.p.lid (x.ea f l) size).getD (0, 0)
    (groupLanes far fun l => (at_ l).1).foldl (fun acc g =>
      let (id, t) := acc.2.addReq
        (x.req s (.store (mergeBytes g.2.2 (fun l => (at_ l).2) (x.laneBytes ty n reg))) (.bank g.2.1) 0 g.1 g.2.2)
      (acc.1 ++ [id], t)) ([], s1)
  | .p =>
    (groupLanes far fun l => pondPart (x.ea f l)).foldl (fun acc g =>
      let (id, t) := acc.2.addReq (x.req s (.store (mergeBytes g.2.2 (x.ea f) (x.laneBytes ty n reg))) (.pond g.2.1) 0 g.1 g.2.2)
      (acc.1 ++ [id], t)) ([], s1)
  | .g =>
    (groupLanes far fun l => x.ea f l / 32 * 32).foldl (fun acc g =>
      let bs := mergeBytes g.2.2 (fun l => x.ea f l % 32) (x.laneBytes ty n reg)
      let (send, t) := acc.2.pairWrite x.t.pid x.ctx g.2.1 bs
      if !send then (acc.1, t)
      else
        let (id, t) := t.addReq { x.req s (.store bs) (.part (partOf g.2.1)) g.2.1 g.1 g.2.2 with st := st }
        (acc.1 ++ [id], if st = .held then t else t.cacheStore x.core x.ctx g.2.1 bs)) ([], s1)

/-- The parcel has signalled or may hold a lock, so it is never restarted (R382). -/
def Iss.signals (x : Iss) (s : State) : State := s.setParcel x.t.pid { s.parcel x.t.pid with busy := true }

/-! ### LD and ST (R243 to R245) -/

/-- The bank cycles of a load or store. -/
def memBanks (s : State) (o : Mem) (x : Iss) : List Nat := x.banks s (memAddr o) (o.count.num * o.ty.bytes)

/-- `LD` and its short form. -/
def loadOp (i : Instr) (o : Mem) (s : State) : Out :=
  let size := o.count.num * o.ty.bytes
  teamOnly i s never never (memBanks s o) fun x =>
    if x.e.ra.isSome then
      let (s1, f) := x.raLoad s (memAddr o) o.ty o.count.num o.r.toNat
      .go s1 f
    else match x.addrTrap s (memAddr o) size size .r with
      | some t => .trap t
      | none => .go (x.sendLoad s (memAddr o) o.ty o.count.num o.r.toNat false).2 {}

/-- `ST` and its short form; in run-ahead it has no effect (R74). -/
def storeOp (i : Instr) (o : Mem) (s : State) : Out :=
  let size := o.count.num * o.ty.bytes
  teamOnly i s never never (memBanks s o) fun x =>
    if x.e.ra.isSome then .eff {}
    else match x.addrTrap s (memAddr o) size size .plainW with
      | some t => .trap t
      | none => .go (x.sendStore s (memAddr o) o.ty o.count.num o.r.toNat .sent).2 {}

/-- The operands of a short load or store (R179). -/
def shortMem (sp : Space) (d a : BitVec 7) : Mem :=
  { space := sp, ty := .b32, count := .x1, sb := false, ix := false, r := d.setWidth 8, a := a.setWidth 8, b := 0, off := 0 }

def execLd (h : Hdr) (o : Mem) (s : State) : Out := loadOp (.ld h o) o s
def execLdShort (h : HdrB) (space : Space) (d a : BitVec 7) (s : State) : Out :=
  loadOp (.ldShort h space d a) (shortMem space d a) s
def execSt (h : Hdr) (o : Mem) (s : State) : Out := storeOp (.st h o) o s
def execStShort (h : HdrB) (space : Space) (d a : BitVec 7) (s : State) : Out :=
  storeOp (.stShort h space d a) (shortMem space d a) s

/-! ### LD.ACQ, ST.REL and the fences (R246, R247) -/

/-- `LD.ACQ`: the sub-team goes on when every read is performed and the L1 is invalidated (R150). -/
def execLdAcq (h : Hdr) (o : Mem) (s : State) : Out :=
  let size := o.count.num * o.ty.bytes
  teamOnly (.ldAcq h o) s never never (memBanks s o) fun x =>
    match x.addrTrap s (memAddr o) size size .r with
    | some t => .trap t
    | none =>
      if x.act.isEmpty then .eff {}
      else
        let (ids, s1) := x.sendLoad s (memAddr o) o.ty o.count.num o.r.toNat true
        .sleep s1 (.acquire ids)

/-- The queue number of a store to the context's doorbell range (R359). -/
def State.bellOf (s : State) (ctx va : Nat) : Option Nat :=
  let d := (s.ctxOf ctx).desc.dbell
  if decide (d ≠ 0) && decide (d ≤ va) && decide (va < d + 32768) then some ((va - d) / 8) else none

/-- The writes of a release: a device doorbell where one lane stores 8 bytes to the doorbell range (R359), else its stores. -/
def Iss.releaseWrites (x : Iss) (s : State) (o : Mem) (st : ReqSt) : List Nat × State :=
  match x.act with
  | [l] =>
    let va := x.ea (memAddr o) l
    if o.ty = .b64 && o.count = .x1 && (s.bellOf x.ctx va).isSome then
      let (id, s1) := s.addReq { x.req s (.doorbell (x.rv2 l o.r.toNat)) (.part (partOf va)) va (l / 32) [l] with st := st }
      ([id], s1)
    else x.sendStore s (memAddr o) o.ty o.count.num o.r.toNat st
  | _ => x.sendStore s (memAddr o) o.ty o.count.num o.r.toNat st

/-- `ST.REL`: waits as R151 requires, then performs its writes. -/
def execStRel (h : Hdr) (o : Mem) (s : State) : Out :=
  let size := o.count.num * o.ty.bytes
  teamOnly (.stRel h o) s never never (memBanks s o) fun x =>
    match x.addrTrap s (memAddr o) size size .w with
    | some t => .trap t
    | none =>
      if x.act.isEmpty then .eff {}
      else if s.released x.src x.entry then
        let (ids, s1) := x.releaseWrites (x.signals s) o .sent
        .sleep s1 (.writes ids)
      else
        let (ids, s1) := x.releaseWrites (x.signals s) o .held
        .sleep s1 (.release ids false none)

/-- `FENCE.ACQ` (R150): waits for the sub-team's earlier loads, then invalidates the L1. -/
def Iss.fenceAcq (x : Iss) (s : State) : Act :=
  if x.act.isEmpty then .eff {}
  else
    let ids := (s.entryLoads x.src x.entry).map Req.id
    if ids.isEmpty then .go (s.invalidate x.core) {} else .sleep s (.acquire ids)

def CIss.fenceAcq (y : CIss) (s : State) : CAct :=
  let ids := (s.entryLoads y.src 0).map Req.id
  if ids.isEmpty then .go (s.invalidate y.port) [] else .sleep s (.acquire ids)

/-- `FENCE.REL`, and `FENCE.AR` with the acquire behind it (R151, R247). -/
def Iss.fenceRel (x : Iss) (s : State) (acq : Bool) : Act :=
  if x.act.isEmpty then .eff {}
  else
    let s1 := x.signals s
    if s.released x.src x.entry then .go (if acq then s1.invalidate x.core else s1) {} else .sleep s1 (.release [] acq none)

def CIss.fenceRel (y : CIss) (s : State) (acq : Bool) : CAct :=
  if s.released y.src 0 then .go (if acq then s.invalidate y.port else s) [] else .sleep s (.release [] acq false)

def execFenceAcq (h : Hdr) (s : State) : Out :=
  bothStreams (.fenceAcq h) s never never (fun x => x.fenceAcq s) never never (fun y => y.fenceAcq s)
def execFenceRel (h : Hdr) (s : State) : Out :=
  bothStreams (.fenceRel h) s never never (fun x => x.fenceRel s false) never never (fun y => y.fenceRel s false)
def execFenceAr (h : Hdr) (s : State) : Out :=
  bothStreams (.fenceAr h) s never never (fun x => x.fenceRel s true) never never (fun y => y.fenceRel s true)

/-! ### PFH and PFW (R252) -/

/-- The hints of some active lanes, one per row and sector; those that the windows forbid are dropped and counted. -/
def Iss.sendHints (x : Iss) (s : State) (o : Mem) (fill : Bool) (lanes : List Nat) : State :=
  (groupLanes lanes fun l => x.ea (memAddr o) l / 32 * 32).foldl (fun s g =>
    let va := x.ea (memAddr o) (g.2.2.headD 0)
    if s.windowOk x.ctx va 1 (if fill then .r else .w) then
      (s.addReq (x.req s (.hint fill) (.part (partOf g.2.1)) g.2.1 g.1 g.2.2)).2
    else s.setCore x.core { s.core x.core with dropped := (s.core x.core).dropped + 1 }) s

def execPfh (h : Hdr) (o : Mem) (s : State) : Out :=
  teamOnly (.pfh h o) s never never noBank fun x =>
    .go (x.sendHints s o true (match x.e.ra with
      | some ra => x.act.filter fun l => !x.raBad ra l
      | none => x.act)) {}

/-- `PFW`; in run-ahead it has no effect (R74). -/
def execPfw (h : Hdr) (o : Mem) (s : State) : Out :=
  teamOnly (.pfw h o) s never never noBank fun x =>
    if x.e.ra.isSome then .eff {} else .go (x.sendHints s o false x.act) {}

/-! ### MONWAIT (R69, R70, R203) -/

/-- Arms a watch-filter entry for a sector; a full filter evicts one to make room, which wakes its waiters (R69). -/
def State.armWatch (s : State) (ctx sec : Nat) : State :=
  let n := partOf (sec * 32)
  if (s.part n).watch.contains (ctx, sec) then s
  else
    let room (s : State) : State :=
      if (s.part n).watch.length < 1024 then s
      else
        let (b, s1) := s.free64
        let v := (s1.part n).watch.getD (b.toNat % 1024) (0, 0)
        let s2 := s1.setPart n { s1.part n with watch := (s1.part n).watch.filter (· != v) }
        s2.wakeSector v.1 v.2 false
    let s1 := room s
    s1.setPart n { s1.part n with watch := (s1.part n).watch ++ [(ctx, sec)] }

def execMonwait (h : Hdr) (d a : BitVec 8) (s : State) : Out :=
  teamOnly (.monwait h d a) s never never noBank fun x =>
    if x.act.isEmpty then .eff {}
    else
      let va := (x.rs2 a.toNat).toNat
      if !s.windowOk x.ctx va 1 .r then .trap { x.trap 0x03 with va := BitVec.ofNat 64 va }
      else if x.e.serialised then .done (x.passes (s.exchange x.core x.slot x.entry x.e.pc x.till))
      else
        let sec := va / 32
        let k := s.core x.core
        if k.monitors.contains (x.ctx, sec) then .sleep (s.armWatch x.ctx sec) (.mon sec d.toNat x.cyc)
        else if 32 ≤ k.monitors.length then .sleep s (.noMon d.toNat x.cyc)
        else
          let s1 := s.armWatch x.ctx sec
          let k1 := s1.core x.core
          .sleep (s1.setCore x.core { k1 with monitors := k1.monitors ++ [(x.ctx, sec)] }) (.mon sec d.toNat x.cyc)

/-! ### OLDX (R311, R312) -/

/-- The steps of an `OLDX` from step `j` on: each loads one word; a failing step traps with `%ustep` at its number. -/
def Iss.oldxSteps (x : Iss) (f : AddrF) (d : Nat) : List Nat → State → State ⊕ (State × TrapInfo)
  | [], s => .inl s
  | j :: js, s =>
    let fj := { f with off := f.off + 4 * j }
    match x.addrTrap s fj 4 4 .r with
    | some t => .inr (s, { t with ustep := BitVec.ofNat 8 j })
    | none => x.oldxSteps f d js (x.sendLoad s fj .b32 1 (d + j) false).2

def execOldx (h : Hdr) (n1 : BitVec 3) (d a : BitVec 8) (off : Word) (s : State) : Out :=
  let n := n1.toNat + 1
  let f : AddrF := { sp := .g, sb := false, ix := false, a := a.toNat, b := 0, off := off.toInt }
  teamOnly (.oldx h n1 d a off) s (Iss.pastSteps n) never noBank fun x =>
    let first := x.e.ustep.toNat
    let js := (List.range (n - first)).map (· + first)
    if x.e.ra.isSome then
      let (s1, g) := js.foldl (fun (acc : State × Eff) (j : Nat) =>
        let (t, g) := x.raLoad acc.1 { f with off := f.off + 4 * (j : Int) } .b32 1 (d.toNat + j)
        (t, { acc.2 with v := acc.2.v ++ g.v, bad := acc.2.bad ++ g.bad })) (s, {})
      .go s1 g
    else match x.oldxSteps f d.toNat js s with
      | .inl s1 => .done (x.steps s1 js.length)
      | .inr (s1, t) => .trapIn (x.stepsDone s1 (t.ustep.toNat - first)) t

end Sys2Proof.Machine
end

