-- ==== Sys2Proof/Machine/Atom.lean ====
section
/-! DEFINITION. Atomics and reductions (R157 to R159, R248 to R251): their operations, the merge of lanes that name one word, their
issue, and their performance at an atomic unit. -/

namespace Sys2Proof.Machine

/-- One half-precision add, rounded to nearest with ties to even (R250). -/
def halfAdd (k : Fmt) (a b : Nat) : Nat := (k.fin .rn false (sumEx .rn [k.dec a, k.dec b])).1

/-- The new value of a location under one operation (R249, R250). -/
def aopApply (op : AOp) (ty : Ty) (old x cmp : Nat) : Nat :=
  match op with
  | .add =>
    (match ty with
     | .f32 => halfAdd .f32 old x
     | .bx2 => halfAdd .bf16 (old % 2 ^ 16) (x % 2 ^ 16) + 2 ^ 16 * halfAdd .bf16 (old / 2 ^ 16) (x / 2 ^ 16)
     | .hx2 => halfAdd .f16 (old % 2 ^ 16) (x % 2 ^ 16) + 2 ^ 16 * halfAdd .f16 (old / 2 ^ 16) (x / 2 ^ 16)
     | t => (old + x) % 2 ^ t.bits)
  | .min => if ty = .f32 then (Fmt.f32.minmax false false old x).1 else if valOf ty x < valOf ty old then x else old
  | .max => if ty = .f32 then (Fmt.f32.minmax false true old x).1 else if valOf ty old < valOf ty x then x else old
  | .and => old &&& x
  | .or => old ||| x
  | .xor => old ^^^ x
  | .exch => x
  | .cas => if old = cmp then x else old

/-- The lanes of one merged atomic: lane, operand and compare value, in ascending lane order. -/
abbrev ALanes := List (Nat × Dword × Dword)

/-- The merged operand of the lanes (R158): rounded at every step. -/
def mergedOperand (op : AOp) (ty : Ty) : ALanes → Nat
  | [] => 0
  | l :: ls => ls.foldl (fun a b => aopApply op ty a b.2.1.toNat 0) l.2.1.toNat

/-- The word after a merged atomic: the merged operation applied once; for `exch` and `cas` the lanes' operations in sequence
(R158, R249). -/
def mergedResult (op : AOp) (ty : Ty) (old : Nat) (ls : ALanes) : Nat :=
  match op with
  | .exch | .cas => ls.foldl (fun v l => aopApply op ty v l.2.1.toNat l.2.2.toNat) old
  | _ => if ls.isEmpty then old else aopApply op ty old (mergedOperand op ty ls) 0

/-- The value each merged lane receives: what the word would hold before it, had the lanes been applied one at a time (R158). -/
def laneReturns (op : AOp) (ty : Ty) : Nat → ALanes → List (Nat × Nat)
  | _, [] => []
  | v, l :: ls => (l.1, v) :: laneReturns op ty (aopApply op ty v l.2.1.toNat l.2.2.toNat) ls

/-- The lanes' return values written to an `ATOM`'s destination (R249). -/
def State.giveAtomic (s : State) (src : Src) (ty : Ty) (ret : Option Nat) (vals : List (Nat × Nat)) : State :=
  match ret with
  | none => s
  | some d => vals.foldl (fun s v =>
      s.writeDest src { reg := d, ty := ty, n := 1, lanes := [] } v.1 (bytesOfNat ty.bytes v.2)) s

/-- An atomic at a bank atomic unit, in one step (R157, R249). -/
def State.bankAtomic (s : State) (core a : Nat) (src : Src) (op : AOp) (ty : Ty) (ls : ALanes) (ret : Option Nat) : State :=
  let old := natOfBytes (s.readScr core a ty.bytes)
  (s.storeScr core a (bytesOfNat ty.bytes (mergedResult op ty old ls))).giveAtomic src ty ret (laneReturns op ty old ls)

/-- The operands of the active lanes. -/
def Iss.atomLanes (x : Iss) (o : Atm) (ls : List Nat) : ALanes :=
  let val (l : Nat) (r : BitVec 8) : Dword := if o.ty.is64 then x.rv2 l r.toNat else (x.rv l r.toNat).setWidth 64
  ls.map fun l => (l, val l o.c, if o.op = .cas then val l o.b else 0)

/-- The words that the lanes of an atomic name, each with all its lanes in ascending order (R158). -/
def Iss.atomWords (x : Iss) (o : Atm) (ls : List Nat) : List (Nat × ALanes) :=
  let f := atmAddr o
  (ls.map (x.ea f)).reverse.dedup.reverse.map fun a => (a, x.atomLanes o (ls.filter fun l => x.ea f l == a))

/-- Words grouped by the row of their first lane, whose pass carries them (R158), and by a key of their address. -/
def groupWords (ws : List (Nat × ALanes)) (key : Nat → Nat) : List (Nat × Nat × List (Nat × ALanes)) :=
  let row (w : Nat × ALanes) : Nat := (w.2.map Prod.fst).headD 0 / 32
  let keys := (ws.map fun w => (row w, key w.1)).reverse.dedup.reverse
  keys.map fun k => (k.1, k.2, ws.filter fun w => row w == k.1 && key w.1 == k.2)

/-- The lanes of some words. -/
def wordLanes (ws : List (Nat × ALanes)) : List Nat := ws.flatMap fun w => w.2.map Prod.fst

/-- The merged atomics of the active lanes (R158): this core's banks at once, else one request per row and sector, partition or core
(R242); to `.g` each invalidates its sector in the L1 (R149). The requests made. -/
def Iss.sendAtomics (x : Iss) (s : State) (o : Atm) (ret : Option Nat) (st : ReqSt) : List Nat × State :=
  let f := atmAddr o
  let size := o.ty.bytes
  let near (l : Nat) : Bool := (x.localByte s f size l).isSome
  let s1 := (x.atomWords o (x.act.filter near)).foldl (fun s w =>
    s.bankAtomic x.core ((x.localByte s f size ((w.2.map Prod.fst).headD 0)).getD 0) x.src o.op o.ty w.2 ret) s
  let far := x.atomWords o (x.act.filter fun l => !near l)
  let send (acc : List Nat × State) (g : Nat × Nat × List (Nat × ALanes)) (tgt : Tgt) (va : Nat) (ws : List (Nat × ALanes)) :
      List Nat × State :=
    let (id, t) := acc.2.addReq { x.req s (.atomic o.op o.ty ws ret 0 []) tgt va g.1 (wordLanes g.2.2) with st := st }
    (acc.1 ++ [id], t)
  match f.sp with
  | .g => (groupWords far fun a => a / 32 * 32).foldl (fun acc g =>
      let r := send acc g (.part (partOf g.2.1)) g.2.1 g.2.2
      (r.1, r.2.cacheDrop x.core x.ctx g.2.1)) ([], s1)
  | .p => (groupWords far pondPart).foldl (fun acc g => send acc g (.pond g.2.1) 0 g.2.2) ([], s1)
  | _ =>
    let at_ (a : Nat) : Nat × Nat := (s.tarnAt (clusterOf x.core) x.p.lid a size).getD (0, 0)
    (groupWords far fun a => (at_ a).1).foldl (fun acc g =>
      send acc g (.bank g.2.1) 0 (g.2.2.map fun w => ((at_ w.1).2, w.2))) ([], s1)

/-- `ATOM` and `RED` (R248 to R251): `.acq` and `.rel` are an acquire and a release (R150, R151). -/
def atomicOp (i : Instr) (o : Atm) (ret : Option Nat) (s : State) : Out :=
  let f := atmAddr o
  let size := o.ty.bytes
  teamOnly i s never never (fun x => x.banks s f size) fun x =>
    match x.addrTrap s f size size .rwa with
    | some t => .trap t
    | none =>
      if x.act.isEmpty then .eff {}
      else
        let s1 := x.signals s
        match o.var with
        | .none => .go (x.sendAtomics s1 o ret .sent).2 {}
        | .acq => let (ids, s2) := x.sendAtomics s1 o ret .sent; .sleep s2 (.acquire ids)
        | .rel =>
          if s.released x.src x.entry then let (ids, s2) := x.sendAtomics s1 o ret .sent; .sleep s2 (.writes ids)
          else let (ids, s2) := x.sendAtomics s1 o ret .held; .sleep s2 (.release ids false none)

def execAtom (h : Hdr) (o : Atm) (s : State) : Out := atomicOp (.atom h o) o (some o.d.toNat) s
def execRed (h : Hdr) (o : Atm) (s : State) : Out := atomicOp (.red h o) o none s

end Sys2Proof.Machine
end

