-- ==== Sys2Proof/Machine/Image.lean ====
section
/-! DEFINITION. The save image as bytes in the save area (R374, R384, R385): its header, its sections, the place it takes, and the writing of
it. The order of a section's fields, which R384 lists without places, is log entry 22. -/

namespace Sys2Proof.Machine

/-! ### Sections (R384) -/

/-- Bytes followed by zeros up to a length. -/
def padTo (n : Nat) (bs : List Byte) : List Byte := bs ++ List.replicate (n - bs.length) 0

/-- A team's registers, `regs` lane registers in each row. -/
def Team.saveBytes (t : Team) (regs : Nat) : List Byte :=
  let lane (r f : Nat) : List Byte := (List.range 32).flatMap fun l => bytesOfWord (t.v.get 0 ((32 * r + l) * 256 + f))
  let pred (r i : Nat) : List Byte := bytesOfNat 4 ((List.range 32).foldl (fun n l => if (t.p.get 0 (32 * r + l)).getLsbD i then n + 2 ^ l else n) 0)
  padTo 512 ((List.range 64).flatMap (fun i => bytesOfWord (t.s.get 0 i)) ++ bytesOfWord t.fpctl ++ bytesOfWord t.mode ++ bytesOfWord t.tvec ++
    bytesOfNat 8 t.stkbase.toNat ++ bytesOfNat 8 t.stklim.toNat ++ (List.range 4).flatMap (fun i => bytesOfNat 4 (t.tagCount i)) ++
    bytesOfNat 4 (t.report.elim 0 fun r => 65536 + r.toNat) ++ bytesOfNat 4 t.splitCtr.toNat) ++
  (List.range (2 ^ t.w)).flatMap fun r => (List.range regs).flatMap (lane r) ++ (List.range 16).flatMap (pred r)

/-- What a sleeping sub-team waits for, as a kind and two operands. -/
def Wait.operand : Wait → Nat × Nat × Nat
  | .bar n => (1, n, 0)
  | .mon _ d _ | .noMon d _ | .monLost d => (2, d, 0)
  | .qpush q v _ => (3, q, v.toNat)
  | .qpop q d _ => (4, q, d)
  | .flag f => (5, f, 0)
  | .phase c a ph => (6, c * 2 ^ 32 + a, ph.toNat)
  | .copies t n => (7, t, n)
  | .release .. => (8, 0, 0)
  | .acquire _ => (9, 0, 0)
  | .writes _ => (10, 0, 0)
  | .fill => (11, 0, 0)

/-- A split entry: its PC, version, team, state and wait operand, `%ustep`, `%safept`, lane words, and the top 8 of its stack. -/
def Entry.saveBytes (x : Entry) (team w : Nat) : List Byte :=
  let st : Nat × Nat × Nat × Nat := match x.st with
    | .asleep k => (2, k.operand)
    | .atJoin => (1, 0, 0, 0)
    | .parked => (3, 0, x.missing, 0)
    | _ => (0, 0, 0, 0)
  padTo 320 (bytesOfWord x.pc ++ bytesOfNat 4 (x.version.toNat + 2 ^ 8 * team + 2 ^ 16 * st.1 + 2 ^ 24 * st.2.1) ++ bytesOfNat 8 st.2.2.1 ++
    bytesOfNat 8 st.2.2.2 ++ bytesOfNat 4 (x.ustep.toNat + 2 ^ 16 * x.safept.toNat) ++ bytesOfWord (rowMask x.mask) ++
    padTo 128 (x.mask.flatMap bytesOfWord) ++ (x.stack.take 8).flatMap (StkEntry.bytes (2 ^ w)))

/-- A plane of the matrix engine: elements by row, then metadata nibbles by group. -/
def Plane.saveBytes (p : Plane) : List Byte :=
  (List.range 4096).flatMap (fun i => bytesOfNat 2 (p.el.get 0 i).toNat) ++
  (List.range 1024).flatMap fun i => bytesOfNat 1 ((p.nib.get 0 (2 * i)).toNat + 16 * (p.nib.get 0 (2 * i + 1)).toNat)

def Mx.saveBytes (m : Mx) : List Byte :=
  m.active.saveBytes ++ m.shadow.saveBytes ++ (List.range 65536).flatMap fun i => bytesOfWord (m.acc.get 0 i)

/-- A retained lane-block descriptor of a copy (R322). -/
def LaneBlk.saveBytes (b : LaneBlk) (k : Copy) : List Byte :=
  bytesOfNat 16 (b.lane + 2 ^ 16 * k.tag + 2 ^ 24 * b.done.toNat + 2 ^ 25 * k.out.toNat + 2 ^ 32 * b.version.toNat + 2 ^ 40 * b.c +
    2 ^ 64 * b.offs.headD 0 + 2 ^ 96 * k.id)

/-- An entry of the arrival log (R386). -/
def Image.logBytes (im : Image) : LogEnt → List Byte
  | .barrier off n => bytesOfNat 16 (off + 2 ^ 32 * n)
  | .tag i id =>
    let tag := ((im.teams.filter fun t => t.team.index == i).flatMap fun t => t.team.copies).find? fun k => k.id == id
    bytesOfNat 16 (2 ^ 64 + 2 ^ 96 * (match tag with | some k => k.tag | none => 0))

/-- The control image of a group (R385). -/
def ShapeReg.nat (h : ShapeReg) : Nat :=
  h.base.toNat + 2 ^ 64 * h.e0m.toNat + 2 ^ 80 * h.e1m.toNat + 2 ^ 96 * h.e2m.toNat + 2 ^ 128 * h.s0.toNat + 2 ^ 192 * h.s1.toNat +
  2 ^ 256 * h.s2.toNat + 2 ^ 320 * h.esz.toNat + 2 ^ 352 * h.pitch.toNat

def Algebra.saveBytes (a : Algebra) : List Byte :=
  bytesOfNat 8 a.name.toNat ++ bytesOfNat 8 (a.k + 2 ^ 8 * a.conj.toNat) ++ (List.range 64).flatMap fun i => bytesOfNat 1 (a.tab.get 0 i).toNat

def Control.saveBytes (x : Control) (algs : Store Algebra) : List Byte :=
  padTo 16384 ((List.range 31).flatMap (fun i => bytesOfNat 8 (x.c.get 0 (i + 1)).toNat) ++ bytesOfWord x.pc ++ bytesOfWord x.eseq ++ bytesOfWord x.tvec ++
    bytesOfNat 4 x.handler.toNat ++ bytesOfWord x.tpc ++ (List.range 8).flatMap (fun i => bytesOfNat 48 (x.h.get {} i).nat) ++
    bytesOfNat 4 x.ret.length ++ x.ret.flatMap bytesOfWord ++
    (List.range 16).flatMap (fun i => let q := x.queues.get [] i; bytesOfNat 8 q.length ++ padTo 512 (q.flatMap fun v => bytesOfNat 8 v.toNat)) ++
    bytesOfNat 8 x.flags.toNat ++ (List.range 7).flatMap fun i => (algs.get {} (i + 1)).saveBytes)

/-! ### The whole image -/

/-- The sections of an image in the order of its offset fields (R384). -/
def State.sections (s : State) (p : Parcel) (im : Image) : List (List Byte) :=
  let k := s.kernel (s.launchOf p.lid).kid
  let team (i : Nat) : List Byte := match im.teams.find? fun t => t.team.index == i with
    | some t => t.team.saveBytes k.maxRegs
    | none => List.replicate (512 + 2 ^ k.w * (128 * k.maxRegs + 64)) 0
  [(List.range p.teams).flatMap team,
   im.teams.flatMap fun t => t.entries.flatMap fun x => x.saveBytes t.team.index k.w,
   im.bars.flatMap fun b => padTo 16 (bytesOfNat 4 b.1.toNat ++ bytesOfNat 4 b.2.toNat),
   readBytes im.scratch 0 p.scrSize,
   readBytes im.tarn 0 p.tarn,
   (match im.mx with | some m => m.saveBytes | none => []),
   im.teams.flatMap fun t => t.team.copies.flatMap fun c => c.blks.flatMap fun b => b.saveBytes c,
   im.log.flatMap im.logBytes]

/-- The offsets of sections one after another, each aligned to 256 bytes, and the end. -/
def offsetsOf : Nat → List (List Byte) → List Nat × Nat
  | a, [] => ([], a)
  | a, x :: r => let (os, e) := offsetsOf ((a + x.length + 255) / 256 * 256) r; (a :: os, e)

/-- The header of an image (R384), from the offsets and the size. -/
def State.imageHeader (s : State) (p : Parcel) (im : Image) (offs : List Nat) (size : Nat) : Nat :=
  let l := s.launchOf p.lid
  let k := s.kernel l.kid
  let pend := (im.teams.flatMap SavedTeam.entries).findSome? Entry.pend
  let est := ((im.teams.map fun t => (t.team.report.getD 0).toNat).min?).getD 0
  let at_ (i : Nat) : Nat := offs.getD i 0
  size + 2 ^ 32 * l.ctx + 2 ^ 48 * l.qid + 2 ^ 64 * l.pkt + 2 ^ 128 * p.index + 2 ^ 160 * (p.teams - 1) + 2 ^ 165 * k.w +
  2 ^ 168 * (im.teams.flatMap SavedTeam.entries).length + 2 ^ 177 * im.bars.length + 2 ^ 183 * pend.isSome.toNat +
  2 ^ 184 * (pend.elim 0 fun v => v.toNat) + 2 ^ 187 * im.mx.isSome.toNat +
  2 ^ 188 * (im.mx.elim false fun m => m.active.hasMeta).toNat + 2 ^ 189 * (im.mx.elim false fun m => m.shadow.hasMeta).toNat + 2 ^ 192 * est +
  2 ^ 208 * (im.teams.flatMap fun t => t.team.copies.flatMap Copy.blks).length + 2 ^ 224 * im.log.length +
  2 ^ 256 * at_ 0 + 2 ^ 288 * at_ 1 + 2 ^ 320 * at_ 2 + 2 ^ 352 * at_ 3 + 2 ^ 384 * (if p.tarn = 0 then 0 else at_ 4) +
  2 ^ 416 * (if im.mx.isNone then 0 else at_ 5) + 2 ^ 448 * at_ 6 + 2 ^ 480 * at_ 7

/-- The bytes of an image: header, sections, and the control image of its group behind them (R384, R385). -/
def State.imageBytes (s : State) (p : Parcel) (im : Image) : List Byte :=
  let secs := s.sections p im
  let (offs, size) := offsetsOf 256 secs
  bytesOfNat 256 (s.imageHeader p im offs size) ++ secs.flatMap (fun x => padTo ((x.length + 255) / 256 * 256) x) ++
  (im.control.elim [] fun x => x.saveBytes im.algs)

/-! ### The save area (R374) -/

/-- Bytes written at an offset of a context's save area. -/
def State.writeSave (s : State) (d : CtxDesc) (o : Nat) (bs : List Byte) : State :=
  (sectorsOf o bs).foldl (fun s x => s.writeG (poolLeaf (d.savef + x.1 / 65536)) x.1 x.2) s

/-- Where `n` bytes find room in a context's save area among the images of other parcels: the lowest such place (log entry 22). -/
def State.saveRoom (s : State) (ctx pid n : Nat) : Option Nat :=
  let held := s.parcels.filterMap fun p => match p.2.image with
    | some im => if p.1 != pid && (s.launchOf p.2.lid).ctx == ctx && 0 < im.room then some (im.place, im.room) else none
    | none => none
  let free (a : Nat) : Bool := decide (a + n ≤ (s.ctxOf ctx).desc.saven * 65536) &&
    held.all fun h => decide (a + n ≤ h.1) || decide (h.1 + h.2 ≤ a)
  ((0 :: held.map fun h => h.1 + h.2).filter free).min?

/-- An image written to its place, which it changes for a larger one where its log has outgrown it; where none is left its bytes stay as they
were (log entry 22). -/
def State.storeImage (s : State) (pid : Nat) (im : Image) : State :=
  let p := s.parcel pid
  let ctx := (s.launchOf p.lid).ctx
  let bs := s.imageBytes p im
  match (if bs.length ≤ im.room then some im.place else s.saveRoom ctx pid bs.length) with
  | some a => (s.writeSave (s.ctxOf ctx).desc a bs).setParcel pid { p with image := some { im with place := a, room := max im.room bs.length } }
  | none => s.setParcel pid { p with image := some im }

/-- What changes in the image of a switched-out parcel changes in the save area too, once it has been written there (R386). -/
def State.setImage (s : State) (pid : Nat) (im : Image) : State :=
  if (s.parcel pid).st = .saved then s.storeImage pid im else s.setParcel pid { s.parcel pid with image := some im }

end Sys2Proof.Machine
end

