-- ==== Sys2Proof/Machine/Copy.lean ====
section
/-! DEFINITION. Lane copies (R253 to R257): the issue of `ACP`, the completion of copies in order within a tag, and `ACWAIT`. -/

namespace Sys2Proof.Machine

/-! ### Completion (R254, R255) -/

def Copy.complete (k : Copy) : Bool := k.blks.all LaneBlk.done

/-- The copies of a team, in its save image while it is switched out (R386). -/
def State.copiesOf (s : State) (src : Src) : List Copy :=
  match src with
  | .team c sl t => (s.team c sl t).copies
  | .away pid i =>
    (match (s.parcel pid).image with
     | some im => (im.teams.filter fun t => t.team.index == i).flatMap fun t => t.team.copies
     | none => [])
  | _ => []

/-- A copy of a team changed. -/
def State.mapCopy (s : State) (src : Src) (id : Nat) (f : Copy → Copy) : State :=
  let all (l : List Copy) : List Copy := l.map fun k => if k.id = id then f k else k
  match src with
  | .team c sl t => let x := s.team c sl t; s.setTeam c sl t { x with copies := all x.copies }
  | .away pid i =>
    let team (t : SavedTeam) : SavedTeam :=
      if t.team.index = i then { t with team := { t.team with copies := all t.team.copies } } else t
    (match (s.parcel pid).image with
     | some im => s.setImage pid { im with teams := im.teams.map team }
     | none => s)
  | _ => s

/-- The lane blocks of some lanes are complete; the completion of a switched-out parcel's copy joins the log of its image (R386). -/
def State.copyDone (s : State) (src : Src) (id : Nat) (lanes : List Nat) : State :=
  let s1 := s.mapCopy src id fun k => { k with blks := k.blks.map fun b => if lanes.contains b.lane then { b with done := true } else b }
  match src with
  | .away pid i =>
    if (s1.copiesOf src).any fun k => k.id == id && k.complete then
      (match (s1.parcel pid).image with
       | some im => s1.setImage pid { im with log := im.log ++ [.tag i id] }
       | none => s1)
    else s1
  | _ => s1

/-- Lowers the counter of the complete copies of a tag that no incomplete older copy of it precedes (R255). -/
def countDone (tag : Nat) : List Copy → List Copy
  | [] => []
  | k :: r =>
    if k.tag = tag && !k.counted then
      if k.complete then { k with counted := true } :: countDone tag r else k :: r
    else k :: countDone tag r

/-- An `ACWAIT t, n` completes: a failed copy that it must cover traps with its record, delivered once (R257); else the covered
descriptors retire (R322). -/
def State.coverCopies (s : State) (c sl t tag n : Nat) : State × Option (BitVec 8 × List FRec) :=
  let x := s.team c sl t
  let cov := x.coveredBy tag n
  let ids := cov.map Copy.id
  match cov.filterMap Copy.failed with
  | [] => (s.setTeam c sl t { x with copies := x.copies.filter fun k => !ids.contains k.id }, none)
  | r :: rs =>
    (s.setTeam c sl t { x with copies := x.copies.map fun k => if ids.contains k.id then { k with failed := none } else k },
     some (r.cause, r :: rs))

/-- The sub-teams of a team asleep in `ACWAIT` whose condition holds go on, or trap (R256, R257). -/
def State.wakeCopies (s : State) (c sl t : Nat) : State :=
  ((s.slot c sl).entriesOf t).foldl (fun s e =>
    let y := s.entry c sl e
    match y.st with
    | .asleep (.copies tag n) =>
      if (s.team c sl t).tagCount tag ≤ n then
        (match s.coverCopies c sl t tag n with
         | (s1, none) => s1.wakeEnt c sl e
         | (s1, some (cause, recs)) =>
           let words := match y.ibuf with | some (.words ws) => ws | _ => []
           s1.takeTrap c sl e words y.npc (TrapInfo.atRow { cause := cause, recs := recs } y.mask (lanesOf y.act)))
      else s
    | _ => s) s

/-- A lane copy completes and its tag counter falls, in issue order within the tag (R255); the `ACWAIT`s it satisfies go on. -/
def execAcpComplete (core slot team : Nat) (tag : BitVec 2) (s : State) : Out :=
  match (s.slot core slot).teams.look team with
  | none => .next s
  | some t => .next ((s.setTeam core slot team { t with copies := countDone tag.toNat t.copies }).wakeCopies core slot team)

/-! ### ACP (R253, R254) -/

/-- The block size of an `ACP`. -/
def acpSize (o : Acp) : Nat := o.ty.bytes * o.count.num

def acpAddr (o : Acp) : AddrF :=
  { sp := o.space, sb := o.sb, ix := false, a := o.a.toNat, b := 0, off := o.off.toInt }

/-- The scratchpad offset and the valid bytes of a lane. -/
def Iss.acpOff (x : Iss) (o : Acp) (l : Nat) : Nat := (x.rv l o.d.toNat).toNat
def Iss.acpValid (x : Iss) (o : Acp) (l : Nat) : Nat := min (x.rv l o.c.toNat).toNat (acpSize o)

/-- The address that a trap of an `ACP` names in a lane: the other side's where that side fails, else the scratchpad offset (log
entry 35). -/
def Iss.acpTrap (x : Iss) (s : State) (o : Acp) : Option TrapInfo :=
  let f := acpAddr o
  let k : Right := if o.out then .w else .r
  let skewG (l : Nat) : Bool := decide (x.exact f l % (acpSize o) ≠ 0)
  let skewL (l : Nat) : Bool := decide (x.acpOff o l % (acpSize o) ≠ 0)
  let badG (l : Nat) : Bool := decide (0 < x.acpValid o l) && !x.inRange s f (x.acpValid o l) k l
  let badL (l : Nat) : Bool := decide (x.ver.scratch < x.acpOff o l + (acpSize o))
  let skew := x.act.filter fun l => skewG l || skewL l
  if !skew.isEmpty then some (lanesTrap 0x04 skew fun l => if skewG l then x.exact f l else (x.acpOff o l : Int))
  else
    let out := x.act.filter fun l => badG l || badL l
    if !out.isEmpty then some (lanesTrap 0x03 out fun l => if badG l then x.exact f l else (x.acpOff o l : Int))
    else
      let hit := x.act.filter fun l => f.sp == .g && decide (0 < x.acpValid o l) && s.watched x.core (x.ea f l) (x.acpValid o l)
      if hit.isEmpty then none else some (lanesTrap 0x09 hit (x.exact f))

/-- The issue of an `ACP`: its descriptor, the zero fill of inbound lanes that read nothing, one request per row and sector or
partition for the others. A copy with nothing to move is complete at once (R254). -/
def Iss.acp (x : Iss) (s0 : State) (o : Acp) : State :=
  let f := acpAddr o
  let (id, s) := s0.newId
  let blk (l : Nat) : LaneBlk :=
    { lane := l, offs := (List.range (acpSize o)).map (x.acpOff o l + ·), addr := x.ea f l, c := x.acpValid o l,
      done := decide (x.acpValid o l = 0), version := x.e.version }
  let k : Copy := { id := id, tag := o.tag.toNat, out := o.out, space := o.space, size := (acpSize o), pc := x.e.pc, blks := x.act.map blk }
  let t := s.team x.core x.slot x.e.team
  let s1 := s.setTeam x.core x.slot x.e.team { t with copies := t.copies ++ [k] }
  let idle := x.act.filter fun l => decide (x.acpValid o l = 0)
  let s2 := if o.out then s1 else idle.foldl (fun s l => s.storeScr x.core (x.p.base + x.acpOff o l) (List.replicate (acpSize o) 0)) s1
  let moving := x.act.filter fun l => decide (0 < x.acpValid o l)
  let key (l : Nat) : Nat := if o.space = .p then pondPart (x.ea f l) else x.ea f l / 32 * 32
  let s3 := (groupLanes moving key).foldl (fun s g =>
    let bs := g.2.2.map fun l => (l, x.ea f l, x.acpValid o l)
    let kind : ReqKind := if o.out then .copyOut id bs else .copyIn id bs
    (s.addReq (x.req s kind (if o.space = .p then .pond g.2.1 else .part (partOf g.2.1)) (if o.space = .p then 0 else g.2.1) g.1 g.2.2)).2) s2
  let u := s3.team x.core x.slot x.e.team
  if k.complete then
    (s3.setTeam x.core x.slot x.e.team { u with copies := countDone o.tag.toNat u.copies }).wakeCopies x.core x.slot x.e.team
  else s3

def execAcp (h : Hdr) (o : Acp) (s : State) : Out :=
  teamOnly (.acp h o) s never never noBank fun x =>
    match x.acpTrap s o with
    | some t => .trap t
    | none => .go (x.acp (if o.out then x.signals s else s) o) {}

/-- `ACWAIT t, n` (R256). -/
def execAcwait (h : Hdr) (tag : BitVec 2) (n : BitVec 6) (s : State) : Out :=
  teamOnly (.acwait h tag n) s never never noBank fun x =>
    if x.act.isEmpty then .eff {}
    else if x.t.tagCount tag.toNat ≤ n.toNat then
      match s.coverCopies x.core x.slot x.e.team tag.toNat n.toNat with
      | (s1, none) => .go s1 {}
      | (s1, some (cause, recs)) => .trapIn s1 { x.trap cause with recs := recs }
    else if x.e.serialised then .done (x.passes (s.exchange x.core x.slot x.entry x.e.pc x.till))
    else .sleep s (.copies tag.toNat n.toNat)

end Sys2Proof.Machine
end

