-- ==== Sys2Proof/Machine/Sync.lean ====
section
/-! DEFINITION. The synchronisation group (R64 to R68, R72, R258 to R265): named barriers, byte-count barriers, queues, flags. -/

namespace Sys2Proof.Machine

/-! ### Named barriers (R259, R260) -/

/-- A named-barrier instruction: a number at or above the parcel's barrier count traps UNDEF (R64); it acts once for a sub-team with
an active lane (R258). -/
def barOp (i : Instr) (n : BitVec 6) (s : State) (work : Iss → Act) : Out :=
  teamOnly i s (fun x => decide (x.p.bars.length ≤ n.toNat)) never noBank fun x => if x.act.isEmpty then .eff {} else work x

/-- The issuing team's bit. -/
def Iss.bit (x : Iss) : BitVec 128 := teamBit x.slot x.e.team

/-- Whether a team's bit is in a barrier's arrival set. -/
def Iss.arrivedAt (x : Iss) (s : State) (n : Nat) : Bool :=
  match (s.parcel x.t.pid).bars[n]? with
  | some b => decide (b.arrived &&& x.bit ≠ 0)
  | none => false

/-- The wait of a barrier (R260): a serialised path exchanges instead of sleeping and keeps its mark (R57). -/
def Iss.barWait (x : Iss) (s : State) (n : Nat) : Act :=
  let clear (s : State) : State := s.setEntry x.core x.slot x.entry { s.entry x.core x.slot x.entry with arrived := false }
  if !x.arrivedAt s n then .go (clear s) {}
  else if x.e.serialised then .done (x.passes (s.exchange x.core x.slot x.entry x.e.pc x.till))
  else .sleep (clear s) (.bar n)

/-- `BAR.SYNC`: arrives and waits; a path that arrived before an exchange only waits (R57). -/
def Iss.barSync (x : Iss) (s : State) (n : Nat) : Act :=
  if x.e.arrived then x.barWait s n
  else
    let s1 := s.updateBar x.t.pid n fun b => { b with arrived := b.arrived ||| x.bit }
    if !x.arrivedAt s1 n then .go s1 {}
    else if x.e.serialised then
      x.barWait (s1.setEntry x.core x.slot x.entry { s1.entry x.core x.slot x.entry with arrived := true }) n
    else .sleep s1 (.bar n)

def execBarSync (h : Hdr) (n : BitVec 6) (s : State) : Out := barOp (.barSync h n) n s fun x => x.barSync s n.toNat
def execBarArrive (h : Hdr) (n : BitVec 6) (s : State) : Out := barOp (.barArrive h n) n s fun x =>
  .go (s.updateBar x.t.pid n.toNat fun b => { b with arrived := b.arrived ||| x.bit }) {}
def execBarWait (h : Hdr) (n : BitVec 6) (s : State) : Out := barOp (.barWait h n) n s fun x =>
  if !x.arrivedAt s n.toNat then .eff {}
  else if x.e.serialised then .done (x.passes (s.exchange x.core x.slot x.entry x.e.pc x.till))
  else .sleep s (.bar n.toNat)
def execBarJoin (h : Hdr) (n : BitVec 6) (s : State) : Out := barOp (.barJoin h n) n s fun x =>
  .go (s.updateBar x.t.pid n.toNat fun b => { b with expected := b.expected ||| x.bit }) {}
def execBarLeave (h : Hdr) (n : BitVec 6) (s : State) : Out := barOp (.barLeave h n) n s fun x =>
  .go (s.updateBar x.t.pid n.toNat fun b => { b with expected := b.expected &&& ~~~x.bit }) {}

/-! ### Byte-count barriers (R67, R68, R261 to R263) -/

/-- The object's REMAIN, EXPECT and PHASE after an arrival of `n` bytes (R68). -/
def arriveAt (n remain expect phase : Nat) : Nat × Nat × Nat :=
  if expect = 0 || n = 0 then (remain, expect, phase)
  else if n < remain then (remain - n, expect, phase)
  else (expect - (n - remain) % expect, expect, (phase + 1 + (n - remain) / expect) % 2 ^ 32)

/-- An arrival at the object at a byte of a core's scratchpad (R68). -/
def State.arrive (s : State) (core a n : Nat) : State :=
  let w (i : Nat) : Nat := natOfBytes (s.readScr core (a + 4 * i) 4)
  let (r, e, p) := arriveAt n (w 0) (w 1) (w 2)
  if w 1 = 0 || n = 0 then s
  else s.storeScr core a (bytesOfNat 4 r ++ bytesOfNat 4 e ++ bytesOfNat 4 p)

/-- The initial object of `BAR.INITB` (R262). -/
def State.initObj (s : State) (core a : Nat) (b : Word) : State :=
  s.storeScr core a (bytesOfNat 4 b.toNat ++ bytesOfNat 4 b.toNat ++ bytesOfNat 8 0)

/-- The object's phase. -/
def State.phaseOf (s : State) (core a : Nat) : Word := BitVec.ofNat 32 (natOfBytes (s.readScr core (a + 8) 4))

/-- A byte-count operation at the owning core's bank atomic unit: 0 initialises, 1 arrives. -/
def State.barbAct (s : State) (op core a : Nat) (v : Word) : State :=
  if op = 0 then s.initObj core a v else s.arrive core a v.toNat

/-- The exact address of the object in the team stream (R261). -/
def Iss.objAddr (x : Iss) (o : Barb) : Int :=
  ((if o.sb then x.rs o.a.toNat else x.rv (x.act.headD 0) o.a.toNat).toNat : Int) + o.off.toInt

/-- The object's core and byte, or the trap of its address. -/
def Iss.object (x : Iss) (s : State) (o : Barb) : TrapInfo ⊕ (Nat × Nat) :=
  let e := x.objAddr o
  let a := e.toNat
  let fail (cause : BitVec 8) : TrapInfo := { x.trap cause with va := BitVec.ofInt 64 e }
  if e % 16 ≠ 0 then .inl (fail 0x04)
  else if e < 0 then .inl (fail 0x03)
  else if o.space = .l then (if a + 16 ≤ x.ver.scratch then .inr (x.core, x.p.base + a) else .inl (fail 0x03))
  else match s.tarnAt (clusterOf x.core) x.p.lid a 16 with
    | some r => .inr r
    | none => .inl (fail 0x03)

/-- The object of a control stream: core-in-cluster and `.l` offset of the launch's parcel there (R261). -/
def CIss.object (y : CIss) (s : State) (o : Barb) : TrapInfo ⊕ (Nat × Nat) :=
  let v := (y.rc o.a) + o.off.signExtend 64
  let fail (cause : BitVec 8) : TrapInfo := { cause := cause, va := v }
  if v.toNat % 16 ≠ 0 then .inl (fail 0x04)
  else if 2 ^ 24 ≤ v.toNat then .inl (fail 0x03)
  else match s.parcelOn (16 * y.cl + v.toNat / 2 ^ 20) y.x.lid with
    | some p => if v.toNat % 2 ^ 20 + 16 ≤ y.ver.scratch then .inr (p.core, p.base + v.toNat % 2 ^ 20) else .inl (fail 0x03)
    | none => .inl (fail 0x03)

def barbBad (x : Barb) : Bool := !(x.space == .l || x.space == .c)
def barbCtlBad (o : Barb) : Bool := !o.sb || o.space != .l || !cReg o.a || !cReg o.b

/-- `BAR.INITB` and `BAR.ARRIVEB` (R262): an object of another core is reached by a message. -/
def barbOp (i : Instr) (o : Barb) (op : Nat) (s : State) : Out :=
  bothStreams i s (fun _ => barbBad o) never
    (fun x => if x.act.isEmpty then .eff {} else
      match x.object s o with
      | .inl t => .trap t
      | .inr (c, a) =>
        let v := x.rs o.b.toNat
        if c = x.core then .go (s.barbAct op c a v) {}
        else .go (s.addReq (x.req s (.barb op v) (.bank c) a ((rowsOf x.e.mask).headD 0) x.act)).2 {})
    (fun _ => barbCtlBad o) never
    (fun y => match y.object s o with
      | .inl t => .trap t
      | .inr (c, a) => .go (s.barbAct op c a ((y.rc o.b).setWidth 32)) [])

def execBarInitb (h : Hdr) (o : Barb) (s : State) : Out := barbOp (.barInitb h o) o 0 s
def execBarArriveb (h : Hdr) (o : Barb) (s : State) : Out := barbOp (.barArriveb h o) o 1 s

/-- Whether a sub-team's message to a core's bank atomic unit is under way. -/
def State.bankBusy (s : State) (src : Src) (core : Nat) : Bool :=
  s.reqs.any fun r => decide (r.src = src) && decide (r.tgt = .bank core)

/-- `BAR.WAITB` (R263): completes at once when PHASE differs, else sleeps. With messages of the team on the way to the object's core it
asks by a message behind them (R160). -/
def execBarWaitb (h : Hdr) (o : Barb) (s : State) : Out :=
  bothStreams (.barWaitb h o) s (fun _ => barbBad o) never
    (fun x => if x.act.isEmpty then .eff {} else
      match x.object s o with
      | .inl t => .trap t
      | .inr (c, a) =>
        let ph := x.rs o.b.toNat
        let busy := c != x.core && s.bankBusy x.src c
        if !busy && s.phaseOf c a != ph then .eff {}
        else if x.e.serialised then .done (x.passes (s.exchange x.core x.slot x.entry x.e.pc x.till))
        else if busy then
          let (id, s1) := s.addReq (x.req s (.barb 2 ph) (.bank c) a ((rowsOf x.e.mask).headD 0) x.act)
          .sleep s1 (.writes [id])
        else .sleep s (.phase c a ph))
    (fun _ => barbCtlBad o) never
    (fun y => match y.object s o with
      | .inl t => .trap t
      | .inr (c, a) =>
        let ph := (y.rc o.b).setWidth 32
        if s.phaseOf c a != ph then .eff [] else .sleep s (.phase c a ph))

/-! ### Queues (R72, R264) -/

/-- Whether the team's cluster runs no control-stream instance of its launch (R258). -/
def Iss.noControl (x : Iss) (s : State) : Bool :=
  let y := s.ctl (clusterOf x.core)
  y.st == .off || y.lid != x.p.lid

/-- A sleeper on a queue: its place (`none` for the control core), its ticket, and the value it pushes or the register it pops into. -/
structure QSleeper where
  place  : Option (Nat × Nat × Nat)
  ticket : Nat
  push   : Option Dword
  d      : Nat
  deriving DecidableEq, Repr

/-- The sleepers on a queue of a cluster. -/
def State.queueSleepers (s : State) (cl q : Nat) : List QSleeper :=
  (s.places.filterMap fun p =>
    if clusterOf p.1 != cl then none else
    match (s.entry p.1 p.2.1 p.2.2).st with
    | .asleep (.qpush q' v t) => if q' = q then some ⟨some p, t, some v, 0⟩ else none
    | .asleep (.qpop q' d t) => if q' = q then some ⟨some p, t, none, d⟩ else none
    | _ => none) ++
  (match (s.ctl cl).st with
   | .asleep (.qpush q' v t) => if q' = q then [⟨none, t, some v, 0⟩] else []
   | .asleep (.qpop q' d t) => if q' = q then [⟨none, t, none, d⟩] else []
   | _ => [])

def State.queueOf (s : State) (cl q : Nat) : List Dword := (s.ctl cl).queues.get [] q
def State.setQueueOf (s : State) (cl q : Nat) (v : List Dword) : State :=
  s.setCtl cl { s.ctl cl with queues := (s.ctl cl).queues.set [] q v }

/-- A popped entry written to an s pair of a team, or to a c register. -/
def State.givePop (s : State) (cl : Nat) (p : Option (Nat × Nat × Nat)) (d : Nat) (v : Dword) : State :=
  match p with
  | some (c, sl, e) =>
    let t := s.team c sl (s.entry c sl e).team
    let lo := if d = 0 then t.s else t.s.set 0 d (v.setWidth 32)
    s.setTeam c sl (s.entry c sl e).team { t with
      s := lo.set 0 (d + 1) ((v >>> 32).setWidth 32)
      late := t.late.filter fun r => !(r.of .s d 0 || r.of .s (d + 1) 0) }
  | none =>
    let y := s.ctl cl
    if d = 0 then s else s.setCtl cl { y with c := y.c.set 0 d v, late := y.late.filter fun r => !r.of .s d 0 }

def State.wakeSleeper (s : State) (cl : Nat) (p : Option (Nat × Nat × Nat)) : State :=
  match p with
  | some (c, sl, e) => s.wakeEnt c sl e
  | none => s.wakeCtl cl

/-- The sleeper that began to wait first. -/
def firstSleeper : List QSleeper → Option QSleeper
  | [] => none
  | x :: xs => some (xs.foldl (fun a b => if b.ticket < a.ticket then b else a) x)

/-- Serves the sleepers of a queue in the order in which they began to wait (R72, R264), until no push and no pop can take effect. -/
def State.serveQueue (s : State) (cl q : Nat) : Nat → State
  | 0 => s
  | fuel + 1 =>
    let ents := s.queueOf cl q
    let ws := s.queueSleepers cl q
    match ents, firstSleeper (ws.filter fun w => w.push.isNone) with
    | v :: r, some w =>
      (((s.setQueueOf cl q r).givePop cl w.place w.d v).wakeSleeper cl w.place).serveQueue cl q fuel
    | _, _ =>
      match firstSleeper (ws.filter fun w => w.push.isSome) with
      | some w =>
        if ents.length < 64 then
          (((s.setQueueOf cl q (ents ++ [w.push.getD 0])).wakeSleeper cl w.place)).serveQueue cl q fuel
        else s
      | none => s

/-- Every sleeper served that can be. -/
def State.serve (s : State) (cl q : Nat) : State := s.serveQueue cl q (2 * (s.queueSleepers cl q).length + 1)

/-- Whether an earlier sleeper of one kind waits on a queue. -/
def State.queueWaits (s : State) (cl q : Nat) (push : Bool) : Bool := (s.queueSleepers cl q).any fun w => w.push.isSome == push

/-- A team pushes only to q8 to q15 and pops only from q0 to q7; a control stream the other way (R264). Pairs are even. -/
def queueBad (push ctl : Bool) (q : BitVec 6) (r : BitVec 8) : Bool :=
  (if push == ctl then decide (8 ≤ q.toNat) else decide (q.toNat < 8 ∨ 16 ≤ q.toNat)) || (!ctl && decide (r.toNat % 2 = 1))

/-- `QPUSH` (R264): a push to a queue of the control core is an event of R277. -/
def execQpush (h : Hdr) (q : BitVec 6) (a : BitVec 8) (s : State) : Out :=
  bothStreams (.qpush h q a) s (fun _ => queueBad true false q a) (fun x => x.noControl s)
    (fun x => if x.act.isEmpty then .eff {} else
      let cl := clusterOf x.core
      let s1 := x.signals s
      let v := x.rs2 a.toNat
      if (s.queueOf cl q.toNat).length < 64 && !s.queueWaits cl q.toNat true then
        .go (((s1.setQueueOf cl q.toNat (s1.queueOf cl q.toNat ++ [v])).serve cl q.toNat).wfiEvent cl) {}
      else let (t, s2) := s1.newId; .sleep s2 (.qpush q.toNat v t))
    (fun _ => queueBad true true q a) never
    (fun y =>
      let v := y.rc a
      if (s.queueOf y.cl q.toNat).length < 64 then
        .go ((s.setQueueOf y.cl q.toNat (s.queueOf y.cl q.toNat ++ [v])).serve y.cl q.toNat) []
      else let (t, s1) := s.newId; .sleep s1 (.qpush q.toNat v t))

/-- `QPOP` (R264). -/
def execQpop (h : Hdr) (q : BitVec 6) (d : BitVec 8) (s : State) : Out :=
  bothStreams (.qpop h q d) s (fun _ => queueBad false false q d) (fun x => x.noControl s)
    (fun x => if x.act.isEmpty then .eff {} else
      let cl := clusterOf x.core
      match s.queueOf cl q.toNat, s.queueWaits cl q.toNat false with
      | v :: r, false =>
        .go ((s.setQueueOf cl q.toNat r).serve cl q.toNat)
          { s := [(d.toNat, (v.setWidth 32).setWidth 64), (d.toNat + 1, v >>> 32)] }
      | _, _ =>
        if x.e.serialised then .done (x.passes (s.exchange x.core x.slot x.entry x.e.pc x.till))
        else let (t, s1) := s.newId; .sleep s1 (.qpop q.toNat d.toNat t))
    (fun _ => queueBad false true q d) never
    (fun y => match s.queueOf y.cl q.toNat with
      | v :: r => .go ((s.setQueueOf y.cl q.toNat r).serve y.cl q.toNat) [(d.toNat, v)]
      | [] => let (t, s1) := s.newId; .sleep s1 (.qpop q.toNat d.toNat t))

/-! ### Flags (R265) -/

/-- A flag of a cluster set or cleared. -/
def State.setFlag (s : State) (cl f : Nat) (v : Bool) : State :=
  let x := s.ctl cl
  let one := BitVec.ofNat 64 (2 ^ f)
  s.setCtl cl { x with flags := if v then x.flags ||| one else x.flags &&& ~~~one }

/-- `FLAG.SET` wakes every sleeper on the flag; it is an event of R277. -/
def State.flagSet (s : State) (cl f : Nat) : State :=
  let s1 := s.setFlag cl f true
  let s2 := s1.places.foldl (fun s p =>
    if clusterOf p.1 != cl then s else
    match (s.entry p.1 p.2.1 p.2.2).st with
    | .asleep (.flag f') => if f' = f then s.wakeEnt p.1 p.2.1 p.2.2 else s
    | _ => s) s1
  match (s2.ctl cl).st with
  | .asleep (.flag f') => if f' = f then s2.wakeCtl cl else s2
  | _ => s2.wfiEvent cl

/-- A flag instruction of either stream. -/
def flagOp (i : Instr) (s : State) (work : Iss → Act) (cwork : CIss → CAct) : Out :=
  bothStreams i s never (fun x => x.noControl s) (fun x => if x.act.isEmpty then .eff {} else work x) never never cwork

def execFlagSet (h : Hdr) (f : BitVec 6) (s : State) : Out :=
  flagOp (.flagSet h f) s (fun x => .go ((x.signals s).flagSet (clusterOf x.core) f.toNat) {}) (fun y => .go (s.flagSet y.cl f.toNat) [])
def execFlagClr (h : Hdr) (f : BitVec 6) (s : State) : Out :=
  flagOp (.flagClr h f) s (fun x => .go (s.setFlag (clusterOf x.core) f.toNat false) {}) (fun y => .go (s.setFlag y.cl f.toNat false) [])
def execFlagWait (h : Hdr) (f : BitVec 6) (s : State) : Out :=
  flagOp (.flagWait h f) s
    (fun x => if (s.ctl (clusterOf x.core)).flags.getLsbD f.toNat then .eff {} else .sleep s (.flag f.toNat))
    (fun y => if y.x.flags.getLsbD f.toNat then .eff [] else .sleep s (.flag f.toNat))

end Sys2Proof.Machine
end

