-- ==== Sys2Proof/Machine/Paging.lean ====
section
/-! DEFINITION. The partitions' side of an access (R128 to R137, R144, R157, R159): performing, parking, refusing; leaves written into
the page tables (R374, R377, R419); doorbells (R359, R368). -/

namespace Sys2Proof.Machine

/-! ### Parks (R131) -/

/-- The fault-park indices in use at a partition (R131). -/
def State.parkUsed (s : State) (n : Nat) : List Nat :=
  s.reqs.filterMap fun r =>
    if r.tgt = .part n then
      match r.st with
      | .parked k => if k < 64 then some k else none
      | .refused _ k => some k
      | _ => none
    else none

/-- A partition with every entry in use accepts no request (R131). -/
def State.accepts (s : State) (n : Nat) : Bool := decide ((s.parkUsed n).length < 64)

def State.freePark (s : State) (n : Nat) : Nat := ((List.range 64).find? fun k => !(s.parkUsed n).contains k).getD 63

/-- Whether parked entries of the request's page stand at its partition (R131). -/
def State.pageHeld (s : State) (r : Req) : Bool :=
  s.reqs.any fun q => q.id != r.id && q.ctx == r.ctx && decide (q.tgt = r.tgt) && q.va / 65536 == r.va / 65536 &&
    (match q.st with | .parked _ => true | _ => false)

/-- Whether something at a partition holds an access to a page back (R131, R410): entries parked on it, no entry free, a retraining. -/
def State.pageWaits (s : State) (ctx va : Nat) (l : Leaf) : Bool :=
  !s.accepts (partOf va) || s.retraining l va ||
  s.reqs.any fun q => decide (q.tgt = .part (partOf va)) && q.ctx == ctx && q.va / 65536 == va / 65536 &&
    (match q.st with | .parked _ => true | _ => false)

/-- The bytes of a request's sector that it touches. -/
def Req.mask (r : Req) : Word :=
  let bit (a n : Nat) : Nat := (List.range n).foldl (fun m i => m ||| 2 ^ ((a + i) % 32)) 0
  BitVec.ofNat 32 (match r.kind with
    | .store bs => bs.foldl (fun m b => m ||| 2 ^ (b.1 % 32)) 0
    | .atomic _ ty ws _ _ _ => ws.foldl (fun m w => m ||| bit w.1 ty.bytes) 0
    | .copyIn _ bs | .copyOut _ bs => bs.foldl (fun m b => m ||| bit b.2.1 b.2.2) 0
    | .load d _ => d.lanes.foldl (fun m l => m ||| bit l.2 (d.n * d.ty.bytes)) 0
    | .doorbell _ => bit r.va 8
    | _ => 0)

/-- The record of a request (R133). -/
def Req.record (r : Req) (cause state : BitVec 8) (park : Nat) : FRec :=
  { cause := cause, state := state, part := partOf r.va, park := park, bytes := r.mask, va := r.va, row := r.row,
    version := r.version, pc := r.pc, lanes := r.lanes, team := r.gteam }

/-- The record a fault-park entry shows (R131). -/
def State.setRec (s : State) (r : Req) (cause state : BitVec 8) (park : Nat) : State :=
  let n := partOf r.va
  if park < 64 then s.setPart n { s.part n with recs := (s.part n).recs.put park (r.record cause state park) } else s

/-- A command changed. -/
def State.mapCmd (s : State) (cl : Nat) (lid : Nat) (eseq : Word) (f : Cmd → Cmd) : State :=
  let x := s.ctl cl
  s.setCtl cl { x with cmds := x.cmds.map fun m => if m.lid = lid && m.eseq == eseq then f m else m }

/-- A unit done on a core. -/
def State.unitDone (s : State) (cl : Nat) (m : Cmd) (i u : Nat) : State :=
  s.mapCmd cl m.lid m.eseq fun m => { m with done := m.done ++ [(i, u)] }

/-- A unit fails on every core (R272): its bytes are lost on each of them, and the first failing sector is recorded with the lowest core of
the mask (of a multicast the spec names neither; log entry 82). -/
def State.unitFails (s : State) (cl : Nat) (m : Cmd) (u va bytes : Nat) (cause : BitVec 8) : State :=
  s.mapCmd cl m.lid m.eseq fun m => { m with
    done := m.done ++ ((m.cores.filter fun i => !m.done.contains (i, u)).map fun i => (i, u))
    lost := m.lost + bytes * m.cores.length
    failed := match m.failed with
      | some r => some r
      | none => some { cause := cause, engine := true, core := m.cores.headD 0, op9 := m.op9, eseq := m.eseq, pc := m.pc,
                       va := va % 2 ^ 52 } }

/-- The units of a parked engine write are done (R131, R283). -/
def State.engineDone (s : State) (r : Req) : State :=
  match r.src with
  | .engine cl lid eseq => s.mapCmd cl lid eseq fun m => { m with done := m.done ++ r.owners.map fun u => (m.cores.headD 0, u) }
  | _ => s

/-- A parked engine write is refused: its units fail with STOREFAULT, or with LINKDOWN (R272, R283). -/
def State.engineRefused (s : State) (r : Req) (cause : BitVec 8) : State :=
  match r.src, r.kind with
  | .engine cl lid eseq, .store bs =>
    r.owners.foldl (fun s u => match (s.ctl cl).cmds.find? fun m => m.lid == lid && m.eseq == eseq with
      | some m => s.unitFails cl m u r.va (bs.length / r.owners.length) (if cause = 0x0F then 0x0F else 0x07)
      | none => s) s
  | _, _ => s

/-- A request is served and gone: sleepers on it and fusions that waited for it go on. -/
def State.finishReq (s : State) (r : Req) : State :=
  let s1 := (s.dropReq r.id).notify r.src
  match r.src with
  | .team c sl t => s1.fuseAll c sl t
  | _ => s1.engineDone r

/-! ### Absence reports (R377) -/

/-- A page found absent is reported once; further misses merge into the report (R376, R377). -/
def State.reportAbsent (s : State) (ctx va lid : Nat) (pc : Word) (team : Nat) (version : BitVec 3) (write : Bool) : State :=
  let page := va / 65536
  match s.reports.find? fun (r : Report) => r.ctx == ctx && r.page == page with
  | some _ =>
    { s with reports := s.reports.map fun (r : Report) =>
        if r.ctx = ctx && r.page = page && !(r.lids.any fun y => y.1 == lid) then { r with lids := r.lids ++ [(lid, pc, team, version)] } else r }
  | none =>
    let (id, s1) := s.newId
    let w := match s.windowAt ctx va 1 with | some x => x.1 | none => 0
    { s1 with reports := s1.reports ++ [
        { id := id, ctx := ctx, page := page, cls := s.classAt ctx va, win := w, part := partOf va, pc := pc, team := team,
          version := version, write := write, lids := [(lid, pc, team, version)] }] }

/-- A request parks for its absent page, behind those already parked there (R130, R131): a write takes an entry. -/
def State.parkReq (s : State) (r : Req) : State :=
  let n := partOf r.va
  let k := if r.kind.isWrite then s.freePark n else 64
  let s1 : State := { s with reqs := (s.reqs.filter fun q => q.id != r.id) ++ [{ r with st := .parked k }] }
  let s2 := s1.setRec r 0 0 k
  s2.setPart n { s2.part n with parks := (s2.part n).parks + 1 }

/-! ### Refusals (R132, R134, R257) -/

/-- A hint is dropped and counted (R129). -/
def State.dropHint (s : State) (r : Req) : State :=
  let s1 := s.dropReq r.id
  if r.port < 256 then s1.setCore r.port { s1.core r.port with dropped := (s1.core r.port).dropped + 1 } else s1

/-- An inbound copy fails (R257): its lanes count as complete and its first failure's record is kept. -/
def State.failCopy (s : State) (r : Req) (copy : Nat) (lanes : List Nat) (cause : BitVec 8) : State :=
  (s.copyDone r.src copy lanes).mapCopy r.src copy fun k =>
    { k with failed := match k.failed with | some f => some f | none => some (r.record cause 2 0) }

/-- Marks on the destination lanes of an `ATOM`, each with the address of its word (R132). -/
def State.markAtomic (s : State) (src : Src) (ty : Ty) (ws : List (Nat × ALanes)) (ret : Option Nat) (cause : BitVec 8) (pc : Word) : State :=
  match ret with
  | some d => s.markDest src { reg := d, ty := ty, n := 1, lanes := ws.flatMap fun w => w.2.map fun y => (y.1, w.1) } cause pc
  | none => s

/-- A request is refused with a cause (R132): a load's destination is marked; a write parks as refused, an `ATOM`'s destination marked
besides. -/
def State.refuseReq (s : State) (r : Req) (cause : BitVec 8) : State :=
  let n := partOf r.va
  let k := match r.st with | .parked k => if k < 64 then k else s.freePark n | _ => s.freePark n
  let keep (kind : ReqKind) (s : State) : State :=
    if r.src = .gone then (s.dropReq r.id).setRec r cause 2 k
    else if (match r.src with | .engine .. => true | _ => false) then ((s.dropReq r.id).setRec r cause 2 k).engineRefused r cause
    else ((s.setReq { r with kind := kind, st := .refused cause k }).setRec r cause 2 k).notify r.src
  match r.kind with
  | .load d _ => (s.markDest r.src d cause r.pc).finishReq r
  | .hint _ => s.dropHint r
  | .copyIn id blks => (s.failCopy r id (blks.map Prod.fst) cause).finishReq r
  | .atomic op ty ws ret b v => keep (.atomic op ty ws none b v) (s.markAtomic r.src ty ws ret cause r.pc)
  | .copyOut id blks => keep r.kind (s.copyDone r.src id (blks.map Prod.fst))
  | _ => keep r.kind s

/-- A load completes with poison (R136, R137, R142); an inbound copy fails with it (R257). -/
def State.poisonReq (s : State) (r : Req) : State :=
  match r.kind with
  | .load d _ => (s.markDest r.src d 0x0B 0).finishReq r
  | .copyIn id blks => (s.failCopy r id (blks.map Prod.fst) 0x0B).finishReq r
  | .atomic _ ty ws ret _ _ => (s.markAtomic r.src ty ws ret 0x0B 0).finishReq r
  | _ => s.finishReq r

/-! ### Places of a request -/

def State.readAt (s : State) (r : Req) (l : Leaf) (va n : Nat) : List Byte × Bool × State :=
  match r.tgt with
  | .part _ => s.readG l va n
  | .pond _ => (readBytes s.pond (pondKey r.ctx va) n, false, s)
  | .bank c => (s.readScr c va n, false, s)

/-- Bytes at offsets from an address. -/
def State.writeAt (s : State) (r : Req) (l : Leaf) (va : Nat) (bs : List (Nat × Byte)) : State :=
  match r.tgt with
  | .part _ => s.performWrite r.ctx va l bs
  | .pond _ => { s with pond := s.pond.setAll 0 (bs.map fun b => (pondKey r.ctx (va + b.1), b.2)) }
  | .bank c =>
    let s1 := s.setCore c { s.core c with scratch := (s.core c).scratch.setAll 0 (bs.map fun b => (va + b.1, b.2)) }
    bs.foldl (fun s b => s.phaseCheck c (va + b.1) 1) s1

/-- The access right that a request's page must grant (R132). -/
def ReqKind.right : ReqKind → Right
  | .load .. | .copyIn .. | .hint true => .r
  | .atomic .. => .rwa
  | _ => .w

/-! ### Performing (R144, R149, R157, R159) -/

/-- A load's sector is installed in the cache of its port (R149), under the port's own later stores that are still on their way to be
performed; an atomic of the port on its way to the sector keeps it out, one that waits for its release too. -/
def State.fillCache (s : State) (r : Req) (bs : List Byte) : State :=
  let mine (q : Req) : Bool := q.port == r.port && q.ctx == r.ctx && q.va / 32 == r.va / 32 && q.id != r.id && decide (q.tgt = r.tgt)
  let moving (q : Req) : Bool := match q.st with | .sent | .parked _ => true | _ => false
  if r.noFill || s.reqs.any (fun q => mine q && (moving q || q.st == .held) && (match q.kind with | .atomic .. => true | _ => false)) then s
  else
    let patched := s.reqs.foldl (fun b q => match q.kind with
      | .store ws => if mine q && moving q then patchSector b 0 ws else b
      | _ => b) bs
    s.putSector r.port (sectorKey r.ctx r.va) patched

/-- Bytes from an address on, with those that were read of them before (R145). -/
def overlay (got : List (Nat × Byte)) (va : Nat) (bs : List Byte) : List Byte :=
  bs.zipIdx.map fun b => match got.find? fun g => g.1 == va + b.2 with | some g => g.2 | none => b.1

/-- A load performed: its data written, its pending bits clear (R187), a missed sector installed. -/
def State.landLoad (s : State) (r : Req) (d : Dest) (l : Leaf) : State :=
  let n := d.n * d.ty.bytes
  match r.tgt with
  | .part _ =>
    let (now, bad, s1) := s.readG l r.va 32
    if bad then s1.poisonReq r
    else
      let bs := overlay r.got r.va now
      let s2 := d.lanes.foldl (fun s y => s.writeDest r.src d y.1 ((bs.drop (y.2 - r.va)).take n)) s1
      (s2.fillCache r bs).finishReq r
  | _ =>
    (d.lanes.foldl (fun s y => let (bs, _, s1) := s.readAt r l y.2 n; s1.writeDest r.src d y.1 (overlay r.got y.2 bs)) s).finishReq r

/-- An inbound block written at the places of its bytes, zeros behind the valid ones (R254, R322). -/
def State.landBlock (s : State) (core base : Nat) (y : LaneBlk) (data : List Byte) : State :=
  let all := (data ++ List.replicate y.offs.length 0).take y.offs.length
  let ws := y.offs.zip all
  let s1 := s.setCore core { s.core core with scratch := (s.core core).scratch.setAll 0 (ws.map fun w => (base + w.1, w.2)) }
  ws.foldl (fun s w => s.phaseCheck core (base + w.1) 1) s1

/-- An inbound block written into the image of a switched-out parcel (R386). -/
def State.landAway (s : State) (pid : Nat) (y : LaneBlk) (data : List Byte) : State :=
  let all := (data ++ List.replicate y.offs.length 0).take y.offs.length
  match (s.parcel pid).image with
  | some im => s.setImage pid { im with scratch := im.scratch.setAll 0 (y.offs.zip all) }
  | none => s

/-- An inbound copy's data read at its point of coherence: it is then on its way to the scratchpad (R161, R254). -/
def State.landCopy (s : State) (r : Req) (id : Nat) (blks : List (Nat × Nat × Nat)) (l : Leaf) : State :=
  let read (acc : Option (List (Nat × List Byte)) × State) (b : Nat × Nat × Nat) : Option (List (Nat × List Byte)) × State :=
    let (bs, bad, s1) := acc.2.readAt r l b.2.1 b.2.2
    (match acc.1 with | some xs => if bad then none else some (xs ++ [(b.1, overlay r.got b.2.1 bs)]) | none => none, s1)
  let (got, s1) := blks.foldl read (some [], s)
  match got with
  | none => s1.poisonReq r
  | some xs => s1.setReq { r with kind := .arrive id xs, st := .sent }

/-- Blocks of an inbound copy arrive in the scratchpad, or in the image of a switched-out parcel (R254, R386): those of some lanes, freely
chosen, may come before the others (R356). -/
def State.landArrive (s : State) (r : Req) (id : Nat) (xs : List (Nat × List Byte)) : State :=
  match (s.copiesOf r.src).find? fun k => k.id == id with
  | none => s.finishReq r
  | some k =>
    let (b, s1) := s.free64
    let first := (xs.zipIdx.filter fun x => b.getLsbD (x.2 % 64)).map Prod.fst
    let now := if first.isEmpty then xs else first
    let rest := xs.filter fun x => !now.any fun y => y.1 == x.1
    let place (s : State) (y : LaneBlk) (bs : List Byte) : State := match r.src with
      | .team c sl t => s.landBlock c (s.parcel (s.team c sl t).pid).base y bs
      | .away pid _ => s.landAway pid y bs
      | _ => s
    let s2 := now.foldl (fun s x => match k.blks.find? fun y => y.lane == x.1 with
      | some y => place s y x.2
      | none => s) s1
    let s3 := s2.copyDone r.src id (now.map Prod.fst)
    if rest.isEmpty then s3.finishReq r else s3.setReq { r with kind := .arrive id rest }

/-! ### Atomics and their beats (R157 to R159) -/

/-- Whether a request stands between the beats of a word that `n` bytes touch (R159). -/
def Req.betweenBeats (q : Req) (va n : Nat) : Bool :=
  match q.kind with
  | .atomic _ _ (w :: _) _ 1 _ => decide (w.1 < va + n) && decide (va < w.1 + 4)
  | _ => false

/-- Whether an atomic of two beats stands between them on a word that `n` bytes touch (R159): a global word in any context (R124). -/
def State.betweenBeats (s : State) (r : Req) (va n : Nat) : Bool :=
  s.reqs.any fun q => q.id != r.id && decide (q.tgt = r.tgt) && (r.global || q.ctx == r.ctx) && q.betweenBeats va n

/-- Whether a write of another agent to a global word waits for the second beat of an atomic (R159). -/
def State.beatHolds (s : State) (va n : Nat) : Bool :=
  s.reqs.any fun q => decide (q.tgt = .part (partOf va)) && q.betweenBeats va n

/-- The half of a packed word. -/
def halfOfWord (hi : Bool) (w : Nat) : Nat := if hi then w / 2 ^ 16 else w % 2 ^ 16

/-- The first word of an atomic request performed at its unit (R157, R249): at a Basin slice or a Pond partition a packed add takes two
beats, the low half first (R159). The request goes when its last word is done. -/
def State.landWord (s : State) (r : Req) (l : Leaf) (op : AOp) (ty : Ty) (w : Nat × ALanes) (rest : List (Nat × ALanes)) (ret : Option Nat)
    (beat : Nat) (vals : List (Nat × Dword)) : State :=
  let next (s : State) : State := if rest.isEmpty then s.finishReq r else s.setReq { r with kind := .atomic op ty rest ret 0 [] }
  match r.tgt with
  | .bank c => next (s.bankAtomic c w.1 r.src op ty w.2 ret)
  | _ =>
    let n := ty.bytes
    let (bs, bad, s1) := s.readAt r l w.1 n
    if bad then s1.poisonReq r
    else
      let cur := natOfBytes bs
      let bytes (v : Nat) (k : Nat) : List (Nat × Byte) := (bytesOfNat k v).zipIdx.map fun b => (b.2, b.1)
      let packed := ty = .bx2 || ty = .hx2
      if packed && beat = 0 then
        let new := mergedResult op ty cur w.2
        (s1.writeAt r l w.1 (bytes new 2)).setReq { r with kind := .atomic op ty (w :: rest) ret 1 [(0, BitVec.ofNat 64 cur)] }
      else
        let old := if beat = 1 then (match vals with | v :: _ => v.2.toNat % 2 ^ 16 | [] => 0) + 2 ^ 16 * (cur / 2 ^ 16) else cur
        let new := mergedResult op ty old w.2
        let s2 := s1.writeAt r l w.1 (if beat = 1 then (bytes (new / 2 ^ 16) 2).map fun b => (b.1 + 2, b.2) else bytes new n)
        next (s2.giveAtomic r.src ty ret (laneReturns op ty old w.2))

/-- An atomic request performed: its next word, or the second beat of it. -/
def State.landAtomic (s : State) (r : Req) (l : Leaf) (op : AOp) (ty : Ty) (ws : List (Nat × ALanes)) (ret : Option Nat) (beat : Nat)
    (vals : List (Nat × Dword)) : State :=
  match ws with
  | [] => s.finishReq r
  | w :: rest => s.landWord r l op ty w rest ret beat vals

/-- The atomics that stand between their beats on a word that `n` bytes touch take their second beat (R159): a write of the front end or
of firmware comes after it. -/
def State.endBeats (s : State) (va n : Nat) : State :=
  s.reqs.foldl (fun s q => match q.kind, q.tgt with
    | .atomic op ty ws ret 1 v, .part p =>
      if q.betweenBeats va n then
        (match (s.part p).tlb.look (tlbKey q.ctx q.va) with
         | some l => s.landAtomic q l op ty ws ret 1 v
         | none => s)
      else s
    | _, _ => s) s

/-! ### Doorbells and queue halts (R358, R359, R368) -/

/-- Bytes of a queue's descriptor in memory brought up to date (R358; log entry 41). -/
def State.descPut (s : State) (q : Queue) (off : Nat) (bs : List Byte) : State :=
  let va := q.desc.toNat + off
  match s.translate q.ctx va with
  | (.ok l, s1) => if s1.linkDown l then s1 else (s1.endBeats va bs.length).performWrite q.ctx va l (bs.zipIdx.map fun b => (b.2, b.1))
  | (_, s1) => s1

/-- The byte of the descriptor with LOG2N, CLASS and PENDWAKE (R358). -/
def Queue.flagByte (q : Queue) : Byte := BitVec.ofNat 8 (q.n - 4 + 16 * q.cls + 64 * q.pendwake.toNat)

/-- A queue halts with an error code; a code it already has stays. -/
def State.haltQueue (s : State) (qid : Nat) (err : BitVec 8) : State :=
  match s.queues.look qid with
  | none => s
  | some q => if q.err = 0 then (s.setQueue qid { q with err := err }).descPut q 9 [err] else s

/-- A new write pointer at a queue's doorbell: WPTR is the larger, a queue that is not resident joins the wake list once. -/
def State.ringBell (s : State) (qid w : Nat) : State :=
  match s.queues.look qid with
  | none => s
  | some q =>
    let s1 := (s.setQueue qid { q with wptr := max q.wptr w }).descPut q 16 (bytesOfNat 8 (max q.wptr w))
    let s2 := if q.rptr + 2 ^ q.n < w then s1.haltQueue qid 2 else s1
    match q.st with
    | .resident _ => s2
    | .unmapping =>
      let p : Queue := { s2.queue qid with pendwake := true }
      (s2.setQueue qid p).descPut p 8 [p.flagByte]
    | .unmapped => if s2.wake.contains qid then s2 else { s2 with wake := s2.wake ++ [qid] }

/-- A WAIT or FETCH_FENCE whose word cannot be read again is to start anew: RPTR names it or one before it (R361). -/
def State.unstart (s : State) (qid index : Nat) : State :=
  let q := s.queue qid
  let r := min q.rptr index
  let p : Queue := { q with rptr := r, live := q.live.filter fun p => p.index != index,
                            begun := (((List.range q.rptr).filter fun i => decide (r ≤ i)) ++ q.begun).filter (· != index) }
  (s.setQueue qid p).descPut q 24 (bytesOfNat 8 r)

/-! ### Writes performed (R144) -/

/-- Bytes of an outbound copy written; those to `.g` write through the L1 (R149). -/
def State.landOut (s : State) (r : Req) (l : Leaf) (bs : List (Nat × Byte)) : State :=
  let s1 := s.writeAt r l r.va bs
  match r.tgt, r.src with
  | .part _, .team .. => s1.cacheStore r.port r.ctx r.va bs
  | _, _ => s1

/-- A write performed at its point of coherence. -/
def State.landWrite (s : State) (r : Req) (l : Leaf) : State :=
  match r.kind with
  | .store bs => (s.writeAt r l r.va bs).finishReq r
  | .copyOut id blks =>
    let bs := (s.copyBytes r.src id blks).map fun b => (b.1 - r.va, b.2)
    ((s.landOut r l bs).copyDone r.src id (blks.map Prod.fst)).finishReq r
  | .doorbell v => (s.ringBell ((s.bellOf r.ctx r.va).getD 0) v.toNat).finishReq r
  | .barb op v =>
    (match r.tgt with
     | .bank c =>
       if op = 2 && s.phaseOf c r.va = v then
         (match r.src with
          | .team c' sl t => ((s.slot c' sl).entriesOf t).foldl (fun s e =>
              if (s.entry c' sl e).st = .asleep (.writes [r.id]) then
                s.setEntry c' sl e { s.entry c' sl e with st := .asleep (.phase c r.va v) } else s) (s.dropReq r.id)
          | _ => s.finishReq r)
       else (if op = 2 then s else s.barbAct op c r.va v).finishReq r
     | _ => s.finishReq r)
  | _ => s

/-- A hint performed (R252): the block is in the Basin; `PFH` fills the L1 besides. -/
def State.landHint (s : State) (r : Req) (fill : Bool) (l : Leaf) : State :=
  let (bs, bad, s1) := s.readG l r.va 32
  let s2 := if fill && !bad then s1.fillCache r bs else s1
  s2.dropReq r.id

/-! ### Accesses word by word (R145) -/

/-- The 4-byte words that `n` bytes from an address lie in. -/
def wordsIn (a n : Nat) : List Nat := ((List.range n).map fun i => (a + i) / 4).dedup

/-- The 4-byte words that a load, a store or a copy has still to access. -/
def Req.pieces (r : Req) : List Nat :=
  let ws : List Nat := match r.kind with
    | .load d _ => d.lanes.flatMap fun y => wordsIn y.2 (d.n * d.ty.bytes)
    | .store bs => bs.map fun b => (r.va + b.1) / 4
    | .copyIn _ bs | .copyOut _ bs => bs.flatMap fun b => wordsIn b.2.1 b.2.2
    | _ => []
  ws.dedup.filter fun w => !r.got.any fun g => g.1 / 4 == w

/-- The words that a request accesses before its others (R145): a free choice, none where all go at once. -/
def State.tearWords (s : State) (r : Req) : List Nat × State :=
  let ws := r.pieces
  if ws.length ≤ 1 then ([], s)
  else
    let (b, s1) := s.free64
    let now := (ws.zipIdx.filter fun w => b.getLsbD (w.2 % 64)).map Prod.fst
    (if now.length = ws.length then [] else now, s1)

/-- Some words of a request accessed, the others left for later (R145). -/
def State.tear (s : State) (r : Req) (l : Leaf) (now : List Nat) : State :=
  match r.kind with
  | .load .. | .copyIn .. =>
    let (got, bad, s1) := now.foldl (fun (acc : List (Nat × Byte) × Bool × State) w =>
      let (bs, bad, s1) := acc.2.2.readAt r l (4 * w) 4
      (acc.1 ++ bs.zipIdx.map fun b => (4 * w + b.2, b.1), acc.2.1 || bad, s1)) ([], false, s)
    if bad then s1.poisonReq r else s1.setReq { r with got := r.got ++ got }
  | .store bs =>
    let mine (b : Nat × Byte) : Bool := now.contains ((r.va + b.1) / 4)
    (s.writeAt r l r.va (bs.filter mine)).setReq { r with kind := .store (bs.filter fun b => !mine b) }
  | .copyOut id blks =>
    let bs := ((s.copyBytes r.src id blks).filter fun b => now.contains (b.1 / 4)).map fun b => (b.1 - r.va, b.2)
    let left : List (Nat × Nat × Nat) := blks.flatMap fun b => ((wordsIn b.2.1 b.2.2).filter fun w => !now.contains w).map fun w =>
      (b.1, max b.2.1 (4 * w), min (b.2.1 + b.2.2) (4 * w + 4) - max b.2.1 (4 * w))
    (s.landOut r l bs).setReq { r with kind := .copyOut id left }
  | _ => s

/-- A request performed through its leaf: word by word where it may be (R145), or at once where `whole`. -/
def State.landReq (s0 : State) (r : Req) (l : Leaf) (whole : Bool) : State :=
  let (now, s) := if whole then ([], s0) else s0.tearWords r
  if !now.isEmpty then s.tear r l now
  else match r.kind with
    | .load d _ => s.landLoad r d l
    | .copyIn id blks => s.landCopy r id blks l
    | .hint fill => s.landHint r fill l
    | .atomic op ty ws ret b v => s.landAtomic r l op ty ws ret b v
    | _ => s.landWrite r l

/-- A packed addition that has had its first beat (R159). -/
def Req.secondBeat (r : Req) : Bool := match r.kind with
  | .atomic _ _ _ _ 1 _ => true
  | _ => false

/-- A request at its partition with its leaf at hand: refused by the page or by a port that is down, else performed (R132, R137). An atomic
between its beats has been let in before. -/
def State.serveLeaf (s : State) (r : Req) (l : Leaf) (whole : Bool) : State :=
  if !r.secondBeat && !s.grants r.ctx r.va l r.kind.right then s.refuseReq r 0x03
  else if !r.secondBeat && s.linkDown l then
    (match r.kind with
     | .load .. | .copyIn .. => s.poisonReq r
     | .atomic _ _ _ (some _) _ _ => s.poisonReq r
     | .hint _ => s.dropHint r
     | _ => s.refuseReq r 0x0F)
  else if s.retraining l r.va then s
  else s.landReq r l whole

/-- Whether a request is one of a parcel that is switched out. -/
def Req.isAway (r : Req) : Bool := match r.src with | .away .. => true | _ => false

/-- Whether a request is served while its parcel may be switched out: of such a parcel only the lane copies are (R386). -/
def Req.asks (r : Req) : Bool :=
  match r.src, r.kind with
  | .away .., .copyIn .. | .away .., .copyOut .. | .away .., .arrive .. => true
  | .away .., _ => false
  | _, _ => true

/-- Whether an atomic between its beats holds a request back (R159). -/
def State.beatInWay (s : State) (r : Req) : Bool :=
  match r.kind with
  | .store bs => bs.any fun b => s.betweenBeats r (r.va + b.1) 1
  | .atomic _ ty (w :: _) _ _ _ => s.betweenBeats r w.1 ty.bytes
  | .copyOut _ blks => blks.any fun b => s.betweenBeats r b.2.1 b.2.2
  | _ => false

/-- Whether a request's turn at its target has come (R131, R146, R159). -/
def State.canServe (s : State) (r : Req) : Bool :=
  r.st == .sent && s.firstInOrder r && r.asks &&
  (match r.tgt, r.kind with | _, .arrive .. => true | .part n, _ => s.accepts n | _, _ => true) && !s.beatInWay r

/-- A request served at its target (R131, R144): a page with parked entries holds it behind them; without a translation it waits for
the walk. A doorbell goes to the front end, and any other access to the doorbell range is refused (R359). -/
def State.serveReq (s : State) (r : Req) : State :=
  if !s.canServe r then s
  else match r.kind, r.tgt with
    | .arrive id xs, _ => s.landArrive r id xs
    | .doorbell _, _ => s.landWrite r 0
    | _, .part n =>
      if (s.bellOf r.ctx r.va).isSome then s.refuseReq r 0x03
      else if s.pageHeld r && !r.kind.isHint && !r.secondBeat then s.parkReq r
      else match (s.part n).tlb.look (tlbKey r.ctx r.va) with
        | some l => s.serveLeaf r l false
        | none => s
    | _, _ => s.landReq r 0 false

/-! ### Leaves written (R119, R374, R377, R419) -/

/-- Cached translations of an address range of a context, removed everywhere (R419). -/
def State.dropTlb (s : State) (ctx va bytes : Nat) : State :=
  (List.range 64).foldl (fun s n =>
    let p := s.part n
    s.setPart n { p with tlb := p.tlb.filter fun y => !(decide (tlbKey ctx va ≤ y.1) && decide (y.1 < tlbKey ctx (va + bytes))) }) s

/-- Bytes that a leaf of a level spans. -/
def levelBytes (level : Nat) : Nat := 2 ^ (16 + 9 * level)

/-- A free table of a context's pool, cleared (R374). -/
def State.newTable (s : State) (ctx : Nat) : Option (Nat × State) :=
  let x := s.ctxOf ctx
  match (List.range (16 * x.desc.pooln)).find? fun i => !x.tables.contains i with
  | none => none
  | some i =>
    let s1 := s.setCtx ctx { x with tables := x.tables ++ [i] }
    some (i, (List.range 512).foldl (fun s j => s.writePool x.desc (4096 * i + 8 * j) 0) s1)

/-- What becomes of a leaf that firmware writes: it stands, the pool has no table left for it (R419), or a read of the tables does not come
back (R408, R410). -/
inductive LeafPut where
  | done | full | wait
  deriving DecidableEq, Repr

/-- A leaf written at a level, missing tables allocated from the pool (R419). `at_` is the level of the table at hand. -/
def State.writeLeaf (s : State) (ctx va level : Nat) (leaf : Leaf) : Nat → Nat → LeafPut × State
  | 0, table => (.done, s.writePool (s.ctxOf ctx).desc (4096 * table + 8 * levelIndex va 0) leaf)
  | at_ + 1, table =>
    let d := (s.ctxOf ctx).desc
    let o := 4096 * table + 8 * levelIndex va (at_ + 1)
    if at_ + 1 = level then (.done, s.writePool d o leaf)
    else match s.readPool d o with
      | (none, s1) => (.wait, s1)
      | (some w, s1) =>
        let e : Leaf := w
        if Leaf.v e && !Leaf.l e then s1.writeLeaf ctx va level leaf at_ (Leaf.frame e)
        else match s1.newTable ctx with
          | none => (.full, s1)
          | some (i, s2) => (s2.writePool d o (BitVec.ofNat 64 (1 + i * 65536))).writeLeaf ctx va level leaf at_ i

/-- A leaf installed, and the translations it replaces removed. -/
def State.installLeaf (s : State) (ctx va level : Nat) (leaf : Leaf) : LeafPut × State :=
  match s.writeLeaf ctx va level leaf 3 (s.ctxOf ctx).desc.root with
  | (.done, s1) => (.done, s1.dropTlb ctx (va / levelBytes level * levelBytes level) (levelBytes level))
  | r => r

/-- A frame wiped by its elision codes (R141, R377); the Basin holds none of its lines. -/
def State.wipeFrame (s : State) (frame : Nat) : State :=
  (List.range 64).foldl (fun s n =>
    let slot := n * 2 ^ 23 + frame
    { s with elision := s.elision.erase slot, basin := (s.basin.erase (2 * slot)).erase (2 * slot + 1),
             badBlk := (s.badBlk.erase (2 * slot)).erase (2 * slot + 1) }) s

/-- Firmware frees a frame: its reverse tags are cleared (R125). -/
def State.freeFrame (s : State) (frame : Nat) : State :=
  (List.range 64).foldl (fun s n => s.setPart n { s.part n with rtags := (s.part n).rtags.erase frame }) s

/-- The key slot bound to a context; 0 where there is none (R377, R400). -/
def State.keyOf (s : State) (ctx : Nat) : Nat :=
  match s.wh.keys.find? fun k => k.2.ctx == ctx with
  | some k => k.1
  | none => 0

end Sys2Proof.Machine
end

