-- ==== Sys2Proof/Machine/MemEvents.lean ====
section
/-! DEFINITION. The events of the memory system (chapters 05 and 06): data returns, writes and atomics performed, releases, walks,
fault reports and records, replay and refusal, lease violations, far timeouts. An event whose precondition does not hold changes
nothing. -/

namespace Sys2Proof.Machine

/-! ### LOAD_DATA_RETURN, WRITE_PERFORM, ATOMIC_PERFORM (R144, R157, R187) -/

/-- The die that a request goes to. -/
def Req.toDie (r : Req) : Nat :=
  match r.tgt with
  | .part n | .pond n => n / 32
  | .bank c => c / 128

/-- The die that a request comes from: its core's or engine's; of one that has left its core it is no die but that which it goes to. -/
def Req.fromDie (r : Req) : Nat :=
  match r.src with
  | .engine cl _ _ | .control cl => cl / 8
  | .team c _ _ => c / 128
  | _ => if r.port < 256 then r.port / 128 else if r.port < 1024 then (r.port - 256) / 8 else r.toDie

/-- A request that has been served has crossed the die-to-die fabric where it left its die (R414, R415). -/
def State.crossed (s : State) (r : Req) : State :=
  if r.fromDie = r.toDie || (s.req? r.id).isSome then s else s.countPort 21 1 1

/-- Data of a load, of an inbound copy or of a hint arrives (R187). -/
def execLoadDataReturn (req : Id) (s : State) : Out :=
  match s.req? req with
  | some r => if r.isAway then .next s else (match r.kind with
      | .load .. | .copyIn .. | .arrive .. | .hint _ => .next ((s.serveReq r).crossed r)
      | _ => .next s)
  | none => .next s

/-- A write, a doorbell or a message to a byte-count object reaches its point of coherence (R144). -/
def execWritePerform (req : Id) (s : State) : Out :=
  match s.req? req with
  | some r => if r.isAway then .next s else (match r.kind with
      | .store _ | .copyOut .. | .doorbell _ | .barb .. => .next ((s.serveReq r).crossed r)
      | _ => .next s)
  | none => .next s

/-- An atomic or reduction is applied (R157), a packed add beat by beat (R159). -/
def execAtomicPerform (req : Id) (s : State) : Out :=
  match s.req? req with
  | some r => (match r.kind with
      | .atomic .. => .next ((s.serveReq r).crossed r)
      | _ => .next s)
  | none => .next s

/-! ### RELEASE_COMPLETE (R134, R151) -/

/-- The held writes of a release are issued: they join the end of the issue order. As they issue, stores write through the L1 and atomics
invalidate their sectors there (R149, R251). -/
def State.sendHeld (s : State) (ids : List Nat) : State :=
  let mine := s.reqs.filter fun r => ids.contains r.id
  let s1 : State := { s with reqs := (s.reqs.filter fun r => !ids.contains r.id) ++ mine.zipIdx.map fun (r : Req × Nat) => { r.1 with st := .sent, age := s.ids + r.2 }
                             ids := s.ids + mine.length }
  mine.foldl (fun s r => match r.kind, r.tgt with
    | .store bs, _ => s.cacheStore r.port r.ctx r.va bs
    | .atomic .., .part _ => s.cacheDrop r.port r.ctx r.va
    | _, _ => s) s1

/-- The records that a drain point's trap carries, and those writes gone (R134). -/
def State.drainTrap (s : State) (src : Src) : TrapInfo × State :=
  let bad := s.teamRefused src
  let take := bad.take 64
  let rec_ (r : Req) : FRec := match r.st with
    | .refused c k => r.record c 2 k
    | _ => r.record 0 2 0
  let recs := take.map rec_
  let cause : BitVec 8 := match recs with
    | r :: _ => if r.cause = 0x0F then 0x0F else 0x07
    | [] => 0x07
  let ids := take.map Req.id
  ({ cause := cause, recs := recs, more := decide (64 < bad.length) }, { s with reqs := s.reqs.filter fun r => !ids.contains r.id })

/-- The words of a sleeping entry's instruction. -/
def fetchedWords : Option Fetched → List Word
  | some (.words ws) => ws
  | _ => []

/-- A waiting release completes, or traps because a write of the team is refused; a control stream is named by core 256 + cluster. -/
def execReleaseComplete (core slot entry : Nat) (s : State) : Out :=
  if core < 256 then
    match s.entry? core slot entry with
    | none => .next s
    | some x =>
      match x.st with
      | .asleep (.release w acq leave) =>
        let src := Src.team core slot x.team
        if !(s.teamWrites src).isEmpty then .next s
        else if !(s.teamRefused src).isEmpty then
          let (ti, s1) := s.drainTrap src
          let s2 : State := { s1 with reqs := s1.reqs.filter fun r => !w.contains r.id }
          let t := TrapInfo.atRow ti x.mask (lanesOf x.act)
          .next (s2.takeTrap core slot entry (fetchedWords x.ibuf) x.npc t)
        else if !(s.entryLoads src entry).isEmpty then .next s
        else match leave with
          | some gone => .next (s.leaveLanes core slot entry gone x.till)
          | none =>
            if w.isEmpty then .next ((if acq then s.invalidate core else s).wakeEnt core slot entry)
            else .next ((s.sendHeld w).setEntry core slot entry { x with st := .asleep (.writes w) })
      | _ => .next s
  else
    let cl := core - 256
    let x := s.ctl cl
    match x.st with
    | .asleep (.release w acq leave) =>
      let src := Src.control cl
      if !(s.teamWrites src).isEmpty then .next s
      else if !(s.teamRefused src).isEmpty then
        let (ti, s1) := s.drainTrap src
        let s2 : State := { s1 with reqs := s1.reqs.filter fun r => !w.contains r.id }
        .next (s2.takeCtlTrap cl (fetchedWords x.ibuf) x.npc ti)
      else if !(s.entryLoads src 0).isEmpty then .next s
      else if leave then .next (s.endControl cl)
      else if w.isEmpty then .next ((if acq then s.invalidate core else s).wakeCtl cl)
      else .next ((s.sendHeld w).setCtl cl { x with st := .asleep (.writes w) })
    | _ => .next s

/-! ### TRANSLATION_WALK (R121, R125, R128 to R132) -/

/-- A request that asks again, out of the order of its old core. -/
def Req.again (r : Req) : Req := { r with st := .sent, port := 1024 + r.id }

/-- A parked request refused; one of a parcel that is switched out asks again when the parcel is back (log entry 38). -/
def State.refuseHere (s : State) (r : Req) (cause : BitVec 8) : State :=
  if r.asks then s.refuseReq r cause else s.setReq r.again

/-- Every request parked on a page is refused with a cause, in arrival order (R376, R379). -/
def State.refusePage (s : State) (ctx page : Nat) (cause : BitVec 8) : State :=
  (s.reqs.filter fun r => r.ctx == ctx && r.va / 65536 == page && r.global && (match r.st with | .parked _ => true | _ => false)).foldl
    (fun s r => s.refuseHere r cause) s

/-- The work of a request, as records name it. -/
def Req.met (r : Req) : Met := { pc := r.pc, team := r.gteam, version := r.version }

/-- The memory function's record of a refused request (R378): kinds 7 and 8. -/
def State.postRefusal (s : State) (r : Req) (kind : Nat) : State := s.postBadPage r.ctx r.va kind r.met

/-- A walk service reads the page tables for a request whose partition has no translation (R121): a leaf fills the partition's
cache, an absent page parks the access and is reported, a malformed entry or a synonym refuses it. -/
def execTranslationWalk (req : Id) (s : State) : Out :=
  match s.req? req with
  | none => .next s
  | some r =>
    match r.tgt with
    | .part n =>
      if !s.canServe r || ((s.part n).tlb.look (tlbKey r.ctx r.va)).isSome || (s.pageHeld r && !r.kind.isHint) ||
         (s.bellOf r.ctx r.va).isSome || (match r.kind with | .arrive .. => true | _ => false) then .next s
      else
        let (w, s1) := s.walk r.ctx r.va
        match w with
        | .wait => .next s1
        | .leaf l =>
          if s1.synonym l r.va then
            (if r.kind.isHint then .next (s1.dropHint r) else .next ((s1.refuseReq r 0x0C).postRefusal r 8))
          else .next ((s1.fillTlb r.ctx r.va l).setReq { r with long := true })
        | .malformed =>
          if r.kind.isHint then .next (s1.dropHint r)
          else
            let cause := s1.malformedCause r.ctx r.va
            .next (((s1.refuseReq r cause).postRefusal r 7).refusePage r.ctx (r.va / 65536) cause)
        | .absent =>
          if r.kind.isHint then .next (s1.dropHint r)
          else
            let s2 := s1.parkReq { r with long := true }
            .next (s2.reportAbsent r.ctx r.va r.lid r.pc r.gteam r.version r.kind.isWrite)
    | _ => .next s

/-! ### FAULT_REPORT (R377) and FAULT_RECORD_POST (R378) -/

/-- A granted frame that is not retired (R377, R406). -/
def State.grantedFrame (s : State) (ctx : Nat) : Option Nat :=
  (s.ctxOf ctx).granted.find? fun f => !s.wh.retired.contains f

/-- The AUTO path: a granted frame that reads as zero is mapped for the page with its window's rights (R377). -/
def State.autoMap (s : State) (r : Report) : LeafPut × State :=
  match s.grantedFrame r.ctx, s.windowAt r.ctx (r.page * 65536) 1 with
  | some f, some w =>
    let x := s.ctxOf r.ctx
    let leaf := BitVec.ofNat 64 (1 + 2 * w.2.r.toNat + 4 * w.2.w.toNat + 16 * w.2.a.toNat + 256 + 512 * s.keyOf r.ctx + 65536 * f)
    let s1 := s.setCtx r.ctx { x with granted := x.granted.filter (· != f) }
    (s1.wipeFrame f).installLeaf r.ctx (r.page * 65536) 0 leaf
  | _, _ => (.full, s)

/-- The DRIVER path: a record of kind ELASTIC or FAR, and the page waits for the driver (R377). -/
def State.askDriver (s : State) (r : Report) : State :=
  let s1 := s.postRecord r.ctx
    { kind := if r.cls = 2 then 2 else 1, win := r.win, va := BitVec.ofNat 64 (r.page * 65536), pc := r.pc,
      team := BitVec.ofNat 64 r.team, version := r.version, part := r.part }
  { s1 with reports := s1.reports.map fun (y : Report) => if y.id = r.id then { y with posted := true } else y }

/-- REPLAY sent for the reported pages of a range (R379, R419). -/
def State.sendReplay (s : State) (ctx page n : Nat) : State :=
  { s with reports := s.reports.map fun (y : Report) =>
      if y.ctx = ctx && page ≤ y.page && y.page < page + n then { y with replay := true } else y }

/-- The memory function takes a report of an ELASTIC or FAR page and resolves it (R377). -/
def execFaultReport (n : Id) (s : State) : Out :=
  match s.reports.find? fun (r : Report) => r.id == n with
  | none => .next s
  | some r =>
    if r.cls = 0 || r.posted || r.replay || r.deny.isSome then .next s
    else match s.walk r.ctx (r.page * 65536) with
      | (.leaf _, s1) => .next (s1.sendReplay r.ctx r.page 1)
      | (.wait, s1) => .next s1
      | (.malformed, s1) =>
        let s2 := s1.postRecord r.ctx { kind := 7, win := r.win, va := BitVec.ofNat 64 (r.page * 65536), pc := r.pc,
                                        team := BitVec.ofNat 64 r.team, version := r.version, part := r.part }
        .next { s2 with reports := s2.reports.map fun (y : Report) => if y.id = n then { y with deny := some 0x03 } else y }
      | (.absent, s1) =>
        if r.cls = 1 && !(s1.ctxOf r.ctx).desc.policy then
          match s1.autoMap r with
          | (.done, s2) => .next (s2.sendReplay r.ctx r.page 1)
          | (.full, _) => .next (s1.askDriver r)
          | (.wait, s2) => .next (if s2.wh.stopped then s2 else s1)
        else .next (s1.askDriver r)

/-- A fault-queue record as its 32 bytes (R378). -/
def FqRec.encode (r : FqRec) : List Byte :=
  bytesOfNat 32 (r.kind + 2 ^ 8 * r.win + 2 ^ 16 * r.ctx + 2 ^ 32 * r.va.toNat + 2 ^ 96 * r.pc.toNat + 2 ^ 128 * r.team.toNat +
    2 ^ 192 * r.version.toNat + 2 ^ 200 * r.part + 2 ^ 206 * r.cause.toNat + 2 ^ 214 * r.ocause.toNat + 2 ^ 224 * r.seq.toNat)

/-- Firmware writes the oldest held record and then the write index into the ring in host memory, and interrupts the host (R378,
R360); a full ring holds it. -/
def execFaultRecordPost (ctx : Id) (s : State) : Out :=
  let x := s.ctxOf ctx
  match x.fqHeld with
  | [] => .next s
  | r :: rest =>
    let n := 2 ^ (x.desc.fqlog2 + 6)
    let rd := natOfBytes (readBytes s.hostMem (x.desc.fq + 8) 8)
    if n ≤ x.fqW - rd then .next s
    else
      let m := writeBytes s.hostMem (x.desc.fq + 64 + 32 * (x.fqW % n)) r.encode
      let s1 : State := { s with hostMem := writeBytes m x.desc.fq (bytesOfNat 8 (x.fqW + 1)), msix := s.msix ++ [8] }
      .next ((s1.countPort 20 3 1).setCtx ctx { x with fqHeld := rest, fqW := x.fqW + 1 })

/-! ### REPLAY and REFUSE (R131, R379) -/

/-- A parked request replayed: served through the leaf; its record's STATE is 1, or 2 where the page refuses it in its own entry (R131,
R133). The words of a sector's store, which nothing else at the partition reaches meanwhile, go at once (log entry 80). -/
def State.replayReq (s : State) (r : Req) (l : Leaf) : State :=
  if r.asks then
    let s1 := match r.st with | .parked k => s.setRec r 0 1 k | _ => s
    s1.serveLeaf r l (match r.kind with | .store _ => true | _ => false)
  else s.setReq r.again

/-- The page's requests parked at every partition: writes in arrival order, then loads (R131). -/
def State.parkedOn (s : State) (ctx page : Nat) : List Req :=
  let all := s.reqs.filter fun r => r.ctx == ctx && r.va / 65536 == page && r.global && (match r.st with | .parked _ => true | _ => false)
  all.filter (fun r => r.kind.isWrite) ++ all.filter (fun r => !r.kind.isWrite)

/-- The report of a page changed. -/
def State.mapReport (s : State) (ctx page : Nat) (f : Report → Report) : State :=
  { s with reports := s.reports.map fun (y : Report) => if y.ctx = ctx && y.page = page then f y else y }

/-- No packet of a context waits for a page any more. -/
def State.clearWaits (s : State) (ctx page : Nat) : State :=
  { s with queues := s.queues.map fun q => if q.2.ctx = ctx then (q.1, { q.2 with waits := q.2.waits.filter (· != page) }) else q }

/-- Whether a replayed request is held back: by a retraining, or by an atomic between its beats (R159, R410). -/
def State.replayHeld (s : State) (r : Req) (l : Leaf) : Bool :=
  s.retraining l r.va || (match r.kind with | .store _ => false | _ => s.beatInWay r)

/-- Requests of a page replayed in their order (R131): one that is held back, or not yet done with all its words, keeps those behind it at its
partition. -/
def State.replayAll (ctx : Nat) : List Req → List Tgt → State → State
  | [], _, s => s
  | r :: rest, blocked, s =>
    if blocked.contains r.tgt then State.replayAll ctx rest blocked s
    else match s.translate ctx r.va r.met with
      | (.ok l, t) =>
        let t1 := if t.replayHeld r l then t else t.replayReq r l
        let still : Bool := match t1.req? r.id with
          | some q => (match q.st with | .parked _ => true | _ => false)
          | none => false
        State.replayAll ctx rest (if still then r.tgt :: blocked else blocked) t1
      | (.synonym, t) => State.replayAll ctx rest blocked (t.refuseHere r 0x0C)
      | (_, t) => State.replayAll ctx rest (r.tgt :: blocked) t

/-- The work that a report names. -/
def Report.met (r : Report) : Met := { pc := r.pc, team := r.team, version := r.version }

/-- REPLAY for a page (R379). Where its leaf does not stand, or no longer, its accesses meet the page anew (R379, R419); a malformed entry in
its place is recorded and refuses them (R121). -/
def execReplay (ctx : Id) (page : Nat) (s : State) : Out :=
  if !(s.reports.any fun (r : Report) => r.ctx == ctx && r.page == page && r.replay) then .next s else
  let (w, s1) := s.walk ctx (page * 65536)
  match w with
  | .leaf _ =>
    let s2 := State.replayAll ctx (s1.parkedOn ctx page) [] s1
    .next (if (s2.parkedOn ctx page).isEmpty then
      { s2 with reports := s2.reports.filter fun (r : Report) => !(r.ctx == ctx && r.page == page) }.clearWaits ctx page else s2)
  | .absent => .next (s1.mapReport ctx page fun y => { y with replay := false, posted := false })
  | .malformed =>
    let who : Met := match s.reports.find? fun (r : Report) => r.ctx == ctx && r.page == page with | some r => r.met | none => {}
    .next ((s1.postBadPage ctx (page * 65536) 7 who).mapReport ctx page fun y =>
      { y with replay := false, deny := some (s1.malformedCause ctx (page * 65536)) })
  | .wait => .next s1

/-- Fetches that wait for a page fail (R165, R379). -/
def State.refuseFetches (s : State) (ctx page : Nat) : State :=
  s.places.foldl (fun s p =>
    let x := s.entry p.1 p.2.1 p.2.2
    let t := s.team p.1 p.2.1 x.team
    let l := s.launchOf (s.parcel t.pid).lid
    let va := ((s.kernel l.kid).version x.version).team.1 + x.pc.toNat
    if x.ibuf.isNone && l.ctx = ctx && va / 65536 = page then s.setEntry p.1 p.2.1 p.2.2 { x with ibuf := some .refused } else s) s

/-- Engine units and a control stream's `ALG.LDT` that wait for a page fail (R272, R286). -/
def State.refuseEngines (s : State) (ctx page : Nat) (cause : BitVec 8) : State :=
  { s with ctls := s.ctls.map fun (y : Nat × Control) =>
      let mine (lid : Nat) : Bool := (s.launchOf lid).ctx == ctx
      let cmd (m : Cmd) : Cmd :=
        if mine m.lid then
          { m with denied := m.denied ++ (m.waits.filter fun w => w.2 == page).map fun w => (w.1, page, cause)
                   waits := m.waits.filter fun w => w.2 != page }
        else m
      let ldt : Option (Nat × Option (BitVec 8)) := match y.2.ldt with
        | some (p, Option.none) => if mine y.2.lid && p == page then some (p, some cause) else y.2.ldt
        | z => z
      (y.1, { y.2 with cmds := y.2.cmds.map cmd, ldt := ldt }) }

/-- A queue whose packet waits for a page that is refused halts; a WAIT or FETCH_FENCE that has started and whose word lies there is to start
anew (R361). -/
def State.refuseQueues (s : State) (ctx page : Nat) : State :=
  (s.queues.foldl (fun s q =>
    if q.2.ctx = ctx && q.2.waits.contains page && q.2.err == 0 then
      (q.2.live.filter fun p => (p.ty == 3 || p.ty == 4) && p.addr.toNat / 65536 == page).foldl (fun s p => s.unstart q.1 p.index)
        (s.haltQueue q.1 7)
    else s) s).clearWaits ctx page

/-- REFUSE for a page that the driver denied or whose entry is malformed (R379). -/
def execRefuse (ctx : Id) (page : Nat) (s : State) : Out :=
  match s.reports.find? fun (r : Report) => r.ctx == ctx && r.page == page with
  | none => .next s
  | some r =>
    match r.deny with
    | none => .next s
    | some cause =>
      let s1 := (((s.refusePage ctx page cause).refuseFetches ctx page).refuseEngines ctx page cause).refuseQueues ctx page
      .next { s1 with reports := s1.reports.filter fun (y : Report) => y.id != r.id }

/-! ### LEASE_VIOLATION (R376) -/

/-- Every access held on an absent page of a LEASED window is refused, each launch among them stops as for a flush with a record of
its first access, and its queue halts. -/
def execLeaseViolation (ctx : Id) (page : Nat) (s : State) : Out :=
  match s.reports.find? fun (r : Report) => r.ctx == ctx && r.page == page && r.cls == 0 with
  | none => .next s
  | some r =>
    let s1 := (s.refusePage ctx page 0x08).refuseEngines ctx page 0x08
    let s2 := r.lids.foldl (fun s y =>
      let l := s.launchOf y.1
      let t := s.postRecord ctx { kind := 4, win := r.win, va := BitVec.ofNat 64 (page * 65536), pc := y.2.1,
                                  team := BitVec.ofNat 64 y.2.2.1, version := y.2.2.2, part := r.part }
      (t.stopLaunch y.1 6).haltQueue l.qid 6) s1
    .next { s2 with reports := s2.reports.filter fun (y : Report) => y.id != r.id }

/-! ### FAR_TIMEOUT (R136, R380) -/

/-- The second of the module's time, by the power samples (R411; log entry 76). -/
def State.second (s : State) : Nat := s.wh.samples / 10000

/-- The first far access of a context that times out in a second is recorded (R380). -/
def State.postFarTimeout (s : State) (r : Req) : State :=
  if (s.ctxOf r.ctx).farSec = some s.second then s
  else
    let win := match s.windowAt r.ctx r.va 1 with | some w => w.1 | none => 0
    (s.setCtx r.ctx { s.ctxOf r.ctx with farSec := some s.second }).postRecord r.ctx
      { kind := 5, win := win, va := BitVec.ofNat 64 (r.va / 32 * 32), pc := r.pc, team := BitVec.ofNat 64 r.gteam,
        version := r.version, part := partOf r.va }

/-- A far access receives no completion: a load completes with poison, a write is refused with LINKDOWN. Only an access that its page
grants has gone to far memory (R132). -/
def execFarTimeout (req : Id) (s : State) : Out :=
  match s.req? req with
  | none => .next s
  | some r =>
    match r.tgt with
    | .part n =>
      (match (s.part n).tlb.look (tlbKey r.ctx r.va) with
       | some l =>
         if Leaf.far l && s.canServe r && s.grants r.ctx r.va l r.kind.right && !s.pageHeld r && (s.bellOf r.ctx r.va).isNone &&
            !s.lineHit (blockNo n l (halfOf l r.va)) then
           let s2 := s.postFarTimeout r
           (match r.kind with
            | .load .. | .copyIn .. | .atomic _ _ _ (some _) _ _ => .next (s2.poisonReq r)
            | .hint _ => .next (s2.dropHint r)
            | .arrive .. => .next s
            | _ => .next (s2.refuseReq r 0x0F))
         else .next s
       | none => .next s)
    | _ => .next s

end Sys2Proof.Machine
end

