-- ==== Sys2Proof/Machine/FloatAlu.lean ====
section
/-! DEFINITION. Floating-point, special-function, conversion and packing instructions (R227 to R233). -/

namespace Sys2Proof.Machine

/-- A float operation of two operands as a sum of terms, per half for packed types (R227). -/
def Iss.float2 (x : Iss) (o : Alu) (f : FV → FV → List FV) : Eff :=
  let k := fmtOf o.ty
  x.each o.ty o.d fun l =>
    let a := x.opA o l
    let b := x.opB o l
    perHalf o.ty fun i => sumOp k o.rnd x.ldnf o.sat (f (k.opnd x.ldnf (elem o.ty a i)) (k.opnd x.ldnf (elem o.ty b i)))

def execFadd (h : Hdr) (o : Alu) (s : State) : Out := pureOp (.fadd h o) s never fun x => x.float2 o fun a b => [a, b]
def execFsub (h : Hdr) (o : Alu) (s : State) : Out := pureOp (.fsub h o) s never fun x => x.float2 o fun a b => [a, b.neg?]
def execFmul (h : Hdr) (o : Alu) (s : State) : Out := pureOp (.fmul h o) s never fun x => x.float2 o fun a b => [a.mul b]

/-- `FFMA`: A · B + C with one rounding (R227). -/
def execFfma (h : Hdr) (o : Alu) (s : State) : Out :=
  pureOp (.ffma h o) s never fun x =>
    let k := fmtOf o.ty
    x.each o.ty o.d fun l =>
      let a := x.opA o l
      let b := x.opB o l
      let c := x.opC o l
      perHalf o.ty fun i =>
        let v (w : Nat) : FV := k.opnd x.ldnf (elem o.ty w i)
        sumOp k o.rnd x.ldnf o.sat [(v a).mul (v b), v c]

/-- `FMIN` and `FMAX` (R229). -/
def Iss.minmax (x : Iss) (o : Alu) (hi : Bool) : Eff :=
  x.each o.ty o.d fun l =>
    let a := x.opA o l
    let b := x.opB o l
    perHalf o.ty fun i => (fmtOf o.ty).minmax x.ldnf hi (elem o.ty a i) (elem o.ty b i)

def execFmin (h : Hdr) (o : Alu) (s : State) : Out := pureOp (.fmin h o) s never fun x => x.minmax o false
def execFmax (h : Hdr) (o : Alu) (s : State) : Out := pureOp (.fmax h o) s never fun x => x.minmax o true

/-- A change of the sign bit of a non-NaN operand; a NaN gives the canonical one (R229). -/
def signOp (k : Fmt) (ldnf inv : Bool) (w : Nat) : Nat × Flags :=
  let w := k.flush ldnf w
  match k.dec w with
  | .nan s => (k.nan, if s then fNV else 0)
  | _ => (let mag := w % 2 ^ (k.e + k.f)
          if inv then (if w / 2 ^ (k.e + k.f) % 2 = 1 then mag else mag + 2 ^ (k.e + k.f)) else mag, 0)

def Iss.sign (x : Iss) (o : Alu) (inv : Bool) : Eff :=
  x.each o.ty o.d fun l =>
    let a := x.opA o l
    perHalf o.ty fun i => signOp (fmtOf o.ty) x.ldnf inv (elem o.ty a i)

def execFabs (h : Hdr) (o : Alu) (s : State) : Out := pureOp (.fabs h o) s never fun x => x.sign o false
def execFabsShort (h : HdrB) (d a : BitVec 7) (s : State) : Out :=
  pureOp (.fabsShort h d a) s never fun x => x.sign (shortAlu .f32 d a) false
def execFneg (h : Hdr) (o : Alu) (s : State) : Out := pureOp (.fneg h o) s never fun x => x.sign o true
def execFnegShort (h : HdrB) (d a : BitVec 7) (s : State) : Out :=
  pureOp (.fnegShort h d a) s never fun x => x.sign (shortAlu .f32 d a) true

/-! ### Special functions (R230, R231) -/

def Iss.special (x : Iss) (o : Alu) (op : Nat) : Eff :=
  x.each o.ty o.d fun l => Machine.special op o.ty x.ldnf (x.opA o l)

def execFrcp (h : Hdr) (o : Alu) (s : State) : Out := pureOp (.frcp h o) s never fun x => x.special o 0x0C8
def execFrsq (h : Hdr) (o : Alu) (s : State) : Out := pureOp (.frsq h o) s never fun x => x.special o 0x0C9
def execFsqrt (h : Hdr) (o : Alu) (s : State) : Out :=
  pureOp (.fsqrt h o) s never fun x => x.each o.ty o.d fun l => fsqrt o.ty o.rnd x.ldnf (x.opA o l)
def execFexp2 (h : Hdr) (o : Alu) (s : State) : Out := pureOp (.fexp2 h o) s never fun x => x.special o 0x0CB
def execFlog2 (h : Hdr) (o : Alu) (s : State) : Out := pureOp (.flog2 h o) s never fun x => x.special o 0x0CC
def execFsin (h : Hdr) (o : Alu) (s : State) : Out := pureOp (.fsin h o) s never fun x => x.special o 0x0CD
def execFcos (h : Hdr) (o : Alu) (s : State) : Out := pureOp (.fcos h o) s never fun x => x.special o 0x0CE

/-! ### Conversion (R232) -/

/-- One element converted from type `st` to type `dt` (R232). -/
def cvtElem (dt st : Ty) (rnd : Rnd) (sat ldnf lrnd : Bool) (w : Nat) : Nat × Flags :=
  let ks := fmtOf st
  let kd := fmtOf dt
  if dt.isInt && st.isInt then (narrow dt sat (valOf st w), 0)
  else if st.isInt then
    let v := valOf st w
    kd.round rnd ldnf (decide (v < 0)) v.natAbs 0
  else if dt.isInt then
    toInt dt (if rnd = .none && lrnd then .rna else rnd) (ks.opnd ldnf w)
  else if dt = st && dt.isFloat then
    toIntegral ks rnd (ks.flush ldnf w)
  else kd.fin rnd ldnf ((ks.opnd ldnf w).ex)

def execCvt (h : Hdr) (o : Alu) (s : State) : Out :=
  pureOp (.cvt h o) s never fun x =>
    let st := cvtSrc o
    x.each o.ty o.d fun l =>
      let a := x.opnd st.is64 o.as o.a l
      perHalf o.ty fun i => cvtElem o.ty st o.rnd o.sat x.ldnf x.lrnd (elem st a i)

/-! ### Packing (R233) -/

def execPack (h : Hdr) (o : Alu) (s : State) : Out :=
  pureOp (.pack h o) s never fun x =>
    let k := fmtOf o.ty
    x.each o.ty o.d fun l =>
      let a := x.opnd false o.as o.a l
      let b := if o.bi then o.ext.toNat else x.opnd false o.bs o.b l
      perHalf o.ty fun i => k.fin o.rnd x.ldnf ((Fmt.f32.opnd x.ldnf (if i = 0 then a else b)).ex)

/-- `UNPK`: the elements of A widened to `.f32` into D and D+1. -/
def execUnpk (h : Hdr) (o : Alu) (s : State) : Out :=
  pureOp (.unpk h o) s never fun x =>
    let k := fmtOf o.ty
    let half (i l : Nat) : Nat × Flags :=
      Fmt.f32.fin .rn x.ldnf ((k.opnd x.ldnf (x.opnd false o.as o.a l / 2 ^ i % 65536)).ex)
    let lo := x.each .f32 o.d (half 0)
    let hi := x.each .f32 (o.d + 1) (half 16)
    { v := lo.v ++ hi.v, flags := lo.flags ++ hi.flags }

end Sys2Proof.Machine
end

