-- ==== Sys2Proof/Machine/Quant.lean ====
section
/-! DEFINITION. Instructions that produce LI8 blocks, the reduction, and the algebra instructions (R234 to R239). -/

namespace Sys2Proof.Machine

/-- `QSCALE`: the scale code of the operand's magnitude (R108, R234); LDNF does not act. -/
def qscale (ty : Ty) (w : Nat) : Nat × Flags :=
  match (fmtOf ty).dec w with
  | .nan _ | .inf _ => (255, fNV)
  | .fin _ m e =>
    if m = 0 then (0, 0)
    else
      let c := qscaleCode m e
      if c < 1 then (1, fSCLO) else ((min c 254).toNat, 0)

def execQscale (h : Hdr) (o : Alu) (s : State) : Out :=
  pureOp (.qscale h o) s never fun x => x.each .n32 o.d fun l => qscale o.ty (x.opnd false o.as o.a l)

/-- `QCVT` of an element and a scale operand (R235). -/
def qcvt (ty : Ty) (rnd : Rnd) (ldnf : Bool) (w b : Nat) : Nat × Flags :=
  let k := fmtOf ty
  let c := b % 256
  if decide (256 ≤ b) then (0, fNV)
  else if c = 0 then (0, 0)
  else
    match k.opnd ldnf w with
    | .nan _ => (0, fNV)
    | v =>
      if c = 255 then (0, fNV)
      else match v with
        | .inf n => (bitsOfInt 32 (if n then -128 else 127), fNV)
        | .fin n m e =>
          let (y, nx) := roundInt rnd n m (e + 127 - (c : Int))
          let z := saturate true 8 y
          (bitsOfInt 32 z, if z ≠ y then fNV else if nx then fNX else 0)
        | .nan _ => (0, fNV)

def execQcvt (h : Hdr) (o : Alu) (s : State) : Out :=
  pureOp (.qcvt h o) s never fun x => x.each .b32 o.d fun l =>
    qcvt o.ty o.rnd x.ldnf (x.opnd false o.as o.a l) (if o.bi then o.ext.toNat else x.opnd false o.bs o.b l)

/-- `BPT`: the plane word that lane `l` of a row receives from the row's codes (R236). -/
def planeWord (codes : Nat → Nat) (l : Nat) : Nat :=
  (List.range 32).foldl (fun d t =>
    let e := 32 * (l % 4) + t
    d + codes (e / 4) / 2 ^ (8 * (e % 4) + (7 - l / 4)) % 2 * 2 ^ t) 0

def execBpt (h : Hdr) (o : Alu) (s : State) : Out :=
  pureOp (.bpt h o) s never fun x => x.eachI .b32 o.d fun l =>
    let row := l / 32
    planeWord (fun j => if x.act.contains (32 * row + j) then x.opnd false o.as o.a (32 * row + j) else 0) (l % 32)

/-! ### REDUX (R237) -/

/-- `Combine` of two present values of `REDUX` (R237). -/
def combine (op : Nat) (ty : Ty) (rnd : Rnd) (a b : Nat) : Nat × Flags :=
  match op with
  | 0 => if ty = .f32 then Fmt.f32.fin rnd false (sumEx rnd [Fmt.f32.dec a, Fmt.f32.dec b]) else ((a + b) % 2 ^ 32, 0)
  | 1 => if ty = .f32 then Fmt.f32.minmax false false a b else (bitsOfInt 32 (min (valOf ty a) (valOf ty b)), 0)
  | 2 => if ty = .f32 then Fmt.f32.minmax false true a b else (bitsOfInt 32 (max (valOf ty a) (valOf ty b)), 0)
  | 3 => (a &&& b, 0)
  | 4 => (a ||| b, 0)
  | 5 => (a ^^^ b, 0)
  | _ =>
    let x := Fmt.f32.dec a
    let y := Fmt.f32.dec b
    if x.isNan || y.isNan then (Fmt.f32.nan, if x.isSig || y.isSig then fNV else 0)
    else (if x.lt y then b else a, 0)

/-- One level of the tree over present and absent values. -/
def reduxLevel (op : Nat) (ty : Ty) (rnd : Rnd) : List (Option Nat) → Flags → List (Option Nat) × Flags
  | a :: b :: r, f =>
    let (v, g) := match a, b with
      | some x, some y => (let z := combine op ty rnd x y; (some z.1, z.2))
      | some x, none => (some x, 0)
      | none, y => (y, 0)
    let (vs, h) := reduxLevel op ty rnd r (f ||| g)
    (v :: vs, h)
  | r, f => (r, f)

/-- The whole tree: `n` levels. -/
def reduxTree (op : Nat) (ty : Ty) (rnd : Rnd) : Nat → List (Option Nat) → Flags → Option Nat × Flags
  | 0, vs, f => (vs.headD none, f)
  | n + 1, vs, f => let (ws, g) := reduxLevel op ty rnd vs f; reduxTree op ty rnd n ws g

/-- The result over one set of lanes, `2^n` positions from `base` (R237). A signalling NaN operand raises NV (R84), also where it is the set's
only one and no node combines it (log entry 83). LDNF flushes the operands and the result (R88; log
entry 19); a NaN result is the canonical one (R84). -/
def Iss.reduxSet (x : Iss) (o : Alu) (base n : Nat) : Nat × Flags :=
  let op := o.ext.toNat % 8
  let f := o.ty == .f32
  let leaf (l : Nat) : Option Nat :=
    if x.act.contains l then
      let w := x.opnd false o.as o.a l
      let w := if f then Fmt.f32.flush x.ldnf w else w
      some (if op = 6 then (if (Fmt.f32.dec w).isNan then Fmt.f32.nan else w % 2 ^ 31) else w)
    else none
  let sig := f && (List.range (2 ^ n)).any fun i =>
    x.act.contains (base + i) && (Fmt.f32.dec (x.opnd false o.as o.a (base + i))).isSig
  let (v, fl) := reduxTree op o.ty o.rnd n ((List.range (2 ^ n)).map fun i => leaf (base + i)) (if sig then fNV else 0)
  let w := v.getD 0
  if !f then (w, fl)
  else if (Fmt.f32.dec w).isNan then (Fmt.f32.nan, fl)
  else if x.ldnf && Fmt.f32.subnormal w then (Fmt.f32.flush true w, fl ||| fUF ||| fNX)
  else (w, fl)

def execRedux (h : Hdr) (o : Alu) (s : State) : Out :=
  pureOp (.redux h o) s never fun x =>
    let n := if o.opx then 5 else Nat.log2 x.width
    let sets := (List.range (x.width / 2 ^ n)).map fun i => x.reduxSet o (i * 2 ^ n) n
    x.each .b32 o.d fun l => sets.getD (l / 2 ^ n) (0, 0)

/-! ### Algebra instructions (R238, R239) -/

/-- Sign of a table entry: 0 zero, 1 plus, 2 minus; and its result index (R99). -/
def Algebra.sgn (a : Algebra) (i j : Nat) : Nat := (a.tab.get 0 (8 * i + j)).toNat / 8
def Algebra.idx (a : Algebra) (i j : Nat) : Nat := (a.tab.get 0 (8 * i + j)).toNat % 8

/-- The terms of component `l` of a product (R100). -/
def Algebra.terms (a : Algebra) (l : Nat) (x y : Nat → FV) : List FV :=
  (List.range a.k).flatMap fun i => (List.range a.k).filterMap fun j =>
    if a.sgn i j ≠ 0 && a.idx i j = l then
      some (if a.sgn i j = 2 then ((x i).mul (y j)).neg? else (x i).mul (y j))
    else none

/-- The slot that an instruction reads, once, at its first pass (R238). -/
def Iss.algSlot (x : Iss) (s : State) (o : Alu) : Algebra := s.algebra x.ctx (clusterOf x.core) (o.ext.toNat % 8)

/-- A sum of algebra terms rounded once: a NaN operand read raises NV (R239). -/
def algSum (k : Fmt) (rnd : Rnd) (ldnf : Bool) (ts : List FV) : Nat × Flags :=
  let r := k.fin rnd ldnf (sumEx rnd ts)
  (r.1, if ts.any FV.isNan then r.2 ||| fNV else r.2)

/-- Component `c` of the element in group register `r` of a lane. -/
def Iss.comp (x : Iss) (ty : Ty) (s : Bool) (r : BitVec 8) (l c : Nat) : FV :=
  (fmtOf ty).opnd x.ldnf (if s then (x.rs (r.toNat + c)).toNat else (x.rv l (r.toNat + c)).toNat)

def execAlgMul (h : Hdr) (o : Alu) (s : State) : Out :=
  teamOnly (.algMul h o) s
    (fun x => let k := x.alg; decide (o.d.toNat % k ≠ 0) || decide (o.a.toNat % k ≠ 0) || decide (o.b.toNat % k ≠ 0))
    never noBank fun x =>
      let a := x.algSlot s o
      let k := fmtOf o.ty
      .eff ((List.range a.k).foldl (fun (f : Eff) c =>
        let g := x.each o.ty (o.d + BitVec.ofNat 8 c) fun l =>
          algSum k o.rnd x.ldnf (a.terms c (x.comp o.ty false o.a l) (x.comp o.ty o.bs o.b l))
        { f with v := f.v ++ g.v, flags := f.flags ++ g.flags }) {})

def execAlgConj (h : Hdr) (o : Alu) (s : State) : Out :=
  teamOnly (.algConj h o) s
    (fun x => let k := x.alg; decide (o.d.toNat % k ≠ 0) || decide (o.a.toNat % k ≠ 0)) never noBank fun x =>
      let a := x.algSlot s o
      let k := fmtOf o.ty
      .eff ((List.range a.k).foldl (fun (f : Eff) c =>
        let g := x.each o.ty (o.d + BitVec.ofNat 8 c) fun l =>
          let w := k.flush x.ldnf (x.rv l (o.a.toNat + c)).toNat
          match k.dec w with
          | .nan sg => (k.nan, if sg then fNV else 0)
          | _ => if a.conj.getLsbD c then signOp k x.ldnf true w else (w, 0)
        { f with v := f.v ++ g.v, flags := f.flags ++ g.flags }) {})

def execAlgNorm (h : Hdr) (o : Alu) (s : State) : Out :=
  teamOnly (.algNorm h o) s (fun x => decide (o.a.toNat % x.alg ≠ 0)) never noBank fun x =>
    let a := x.algSlot s o
    let k := fmtOf o.ty
    .eff (x.each o.ty o.d fun l =>
      let e := x.comp o.ty false o.a l
      algSum k o.rnd x.ldnf (a.terms 0 e (fun j => if a.conj.getLsbD j then (e j).neg? else e j)))

end Sys2Proof.Machine
end

