-- ==== Sys2Proof/Machine/Engine.lean ====
section
/-! DEFINITION. The control core's own instructions and the engine group (R267 to R294): control-core loads and stores, shape registers,
bulk copies, algebra slots, the matrix engine, the arrival of an engine's units of work and the finish of a command. -/

namespace Sys2Proof.Machine

/-! ### CLD and CST (R274) -/

/-- The address of `CLD` and `CST`. -/
def CIss.addr (y : CIss) (a : BitVec 8) (off : Word) : Nat := (y.rc a + off.signExtend 64).toNat

/-- The alignment and window checks of a control-core access (R127, R274). -/
def CIss.addrTrap (y : CIss) (s : State) (va n : Nat) (k : Right) : Option TrapInfo :=
  if va % n ≠ 0 then some { cause := 0x04, va := BitVec.ofNat 64 va }
  else if !s.windowOk y.l.ctx va n k then some { cause := 0x03, va := BitVec.ofNat 64 va }
  else none

/-- A request of the control stream for the sector of an address. -/
def CIss.req (y : CIss) (kind : ReqKind) (va : Nat) : Req :=
  { id := 0, kind := kind, src := y.src, port := y.port, owners := [0], ctx := y.l.ctx, lid := y.x.lid, tgt := .part (partOf va),
    va := va / 32 * 32, pc := y.x.pc, version := y.x.version, row := 0, gteam := y.x.eseq.toNat, lanes := 0 }

/-- `CLD`: a data-cache hit at once, else a request; `.acq` reads at the point of coherence and waits (R150). -/
def execCld (h : Hdr) (ty : Ty) (acq : Bool) (d a : BitVec 8) (off : Word) (s : State) : Out :=
  ctlOnly (.cld h ty acq d a off) s never fun y =>
    let va := y.addr a off
    match y.addrTrap s va ty.bytes .r with
    | some t => .trap t
    | none =>
      let dest : Dest := { cls := .s, reg := d.toNat, ty := ty, n := 1, lanes := if d = 0 then [] else [(0, va)] }
      let (hit, s1) := if acq then (Option.none, s) else s.l1Hit y.port y.l.ctx va
      match hit with
      | some bs => .go (s1.writeDest y.src dest 0 ((bs.drop (va % 32)).take ty.bytes)) []
      | none =>
        let (id, s2) := s1.addReq { y.req (.load dest acq) va with noFill := acq }
        if acq then .sleep s2 (.acquire [id]) else .go s2 []

/-- `CST`; `.rel` waits as R151 requires, then performs its write. -/
def execCst (h : Hdr) (ty : Ty) (rel : Bool) (a c : BitVec 8) (off : Word) (s : State) : Out :=
  ctlOnly (.cst h ty rel a c off) s never fun y =>
    let va := y.addr a off
    match y.addrTrap s va ty.bytes (if rel then .w else .plainW) with
    | some t => .trap t
    | none =>
      let bs := (bytesOfNat ty.bytes (y.rc c).toNat).zipIdx.map fun b => (va % 32 + b.2, b.1)
      let send (st : ReqSt) : Nat × State := s.addReq { y.req (.store bs) va with st := st }
      if rel && !s.released y.src 0 then let (id, s1) := send .held; .sleep s1 (.release [id] false false)
      else
        let (id, s1) := send .sent
        let s2 := s1.cacheStore y.port y.l.ctx va bs
        if rel then .sleep s2 (.writes [id]) else .go s2 []

/-- `CBR` (R276). -/
def execCbr (h : Hdr) (cmp : BitVec 3) (ty : Ty) (a b : BitVec 8) (off : Word) (s : State) : Out :=
  ctlOnly (.cbr h cmp ty a b off) s never fun y =>
    let x := valOf ty (y.rc a).toNat
    let z := valOf ty (y.rc b).toNat
    let holds : Bool := match cmp.toNat with
      | 0 => decide (x = z)
      | 1 => decide (x ≠ z)
      | 2 => decide (x < z)
      | 3 => decide (x ≤ z)
      | 4 => decide (z < x)
      | _ => decide (z ≤ x)
    .jump s (if holds then y.x.pc + off * 4 else y.npc)

/-- `WFI` (R277). -/
def execWfi (h : Hdr) (s : State) : Out := ctlOnly (.wfi h) s never fun y => .sleep s (.wfi y.x.cycle)

/-! ### Shape registers (R278, R279) -/

/-- A field group written from a value. -/
def ShapeReg.write (x : ShapeReg) (field : Nat) (v : Dword) : ShapeReg :=
  match field with
  | 0 => { x with base := v }
  | 1 => { x with e0m := v.setWidth 16, e1m := (v >>> 16).setWidth 16, e2m := (v >>> 32).setWidth 16 }
  | 2 => { x with s0 := v }
  | 3 => { x with s1 := v }
  | 4 => { x with s2 := v }
  | 5 => { x with esz := v.setWidth 2 }
  | _ => { x with pitch := v.setWidth 20 }

/-- A shape register as a command reads it: the value before the earliest write not yet available (R185, R267). -/
def Control.readH (x : Control) (r : Nat) : ShapeReg :=
  match x.hLate.find? fun z => z.1 == r && decide (x.cycle < z.2.1) with
  | some z => z.2.2
  | none => x.h.get {} r

/-- `SHP.SET`, with its latency of 2 (R267, R279). -/
def execShpSet (h : Hdr) (d a : BitVec 8) (field : BitVec 3) (s : State) : Out :=
  ctlOnly (.shpSet h d a field) s never fun y =>
    let z := s.ctl y.cl
    let old := z.h.get {} d.toNat
    let avail := y.x.cycle + 2
    .go (s.setCtl y.cl { z with
      h := z.h.put d.toNat (old.write field.toNat (y.rc a))
      hLate := (z.hLate.filter fun w => decide (y.x.cycle < w.2.1)) ++ [(d.toNat, avail, old)]
      late := z.late ++ [{ cls := .h, reg := 16 * d.toNat + field.toNat, lane := 0, avail := avail, old := 0, pc := y.x.pc }] }) []

def ShapeReg.e0 (x : ShapeReg) : Nat := x.e0m.toNat + 1
def ShapeReg.e1 (x : ShapeReg) : Nat := x.e1m.toNat + 1
def ShapeReg.e2 (x : ShapeReg) : Nat := x.e2m.toNat + 1
/-- Elements of the region. -/
def ShapeReg.count (x : ShapeReg) : Nat := x.e0 * x.e1 * x.e2
/-- The global element size. -/
def ShapeReg.size (x : ShapeReg) : Nat := 2 ^ x.esz.toNat
/-- The indexes of element `u` in the order of dimension 0 first. -/
def ShapeReg.index (x : ShapeReg) (u : Nat) : Nat × Nat × Nat := (u % x.e0, u / x.e0 % x.e1, u / (x.e0 * x.e1))
/-- The signed strides' sum for an element. -/
def ShapeReg.stride (x : ShapeReg) (u : Nat) : Int :=
  let i := x.index u
  (i.1 : Int) * x.s0.toInt + (i.2.1 : Int) * x.s1.toInt + (i.2.2 : Int) * x.s2.toInt
/-- The global address of an element (R279). -/
def ShapeReg.global (x : ShapeReg) (u : Nat) : Nat := (((x.base.toNat : Int) + x.stride u).emod (2 ^ 64)).toNat
/-- The scratchpad offset of an element from the command's offset (R279). -/
def ShapeReg.local (x : ShapeReg) (dsz u : Nat) : Nat :=
  let i := x.index u
  i.1 * dsz + i.2.1 * x.pitch.toNat + i.2.2 * (x.pitch.toNat * x.e1)
/-- The end of the region in scratchpad, past the last byte of its furthest element. -/
def ShapeReg.reach (x : ShapeReg) (dsz : Nat) : Nat :=
  (x.e0 - 1) * dsz + (x.e1 - 1) * x.pitch.toNat + (x.e2 - 1) * (x.pitch.toNat * x.e1) + dsz

/-! ### Issue of engine commands (R267 to R271) -/

/-- The core mask of a c register (R269). -/
def maskCores (v : Dword) : List Nat := (List.range 16).filter fun i => v.getLsbD i

/-- The mask check of R269. -/
def CIss.maskBad (y : CIss) (s : State) (c : BitVec 8) : Bool :=
  decide (65536 ≤ (y.rc c).toNat) || (maskCores (y.rc c)).any fun i => !(s.pmask y.cl y.x.lid).contains i

/-- The first failing issue check in the order of R183 (R271). -/
def issueTrap (undef align window : Bool) : Option TrapInfo :=
  if undef then some { cause := 0x01 } else if align then some { cause := 0x04 } else if window then some { cause := 0x03 } else none

/-- Whether the cluster holds no further command of the kind for the masked cores (R267). -/
def CIss.full (y : CIss) (tx : Bool) (cores : List Nat) : Bool :=
  let open_ := y.x.cmds.filter fun m => !m.finished
  if tx then decide (32 ≤ (open_.filter Cmd.isTx).length)
  else cores.any fun i => decide (16 ≤ (open_.filter fun m => !m.isTx && m.cores.contains i).length)

/-- `%eseq` taken (R268). -/
def CIss.number (y : CIss) (s : State) : State := s.setCtl y.cl { s.ctl y.cl with eseq := (s.ctl y.cl).eseq + 1 }

/-- A command issues: it takes its number and waits for its unit; one with an empty mask is finished at once (R269). -/
def CIss.command (y : CIss) (s : State) (c : BitVec 8) (tx : Bool) (op : EngOp) : CAct :=
  let cores := maskCores (y.rc c)
  if y.full tx cores then .hold s
  else
    let s1 := y.number s
    if cores.isEmpty then .go (s1.wfiEvent y.cl) []
    else
      let parcels := cores.filterMap fun i => (s.parcelOn (16 * y.cl + i) y.x.lid).map fun p => (i, p.pid)
      let m : Cmd := { lid := y.x.lid, eseq := y.x.eseq, pc := y.x.pc, op9 := op9Of y.i, cores := cores, parcels := parcels, op := op,
                       version := y.x.version }
      .go (s1.setCtl y.cl { s1.ctl y.cl with cmds := (s1.ctl y.cl).cmds ++ [m] }) []

/-- BOBJ (R280): 0xFFFF names no object. -/
def bobjOf (b : BitVec 16) : Option Nat := if b = 0xFFFF then none else some b.toNat
/-- The object check of R280. -/
def bobjBad (scratch : Nat) (b : Option Nat) : Bool := match b with | some n => decide (scratch < 16 * n + 16) | none => false

/-! ### Bulk copies (R280 to R285) -/

/-- The scratchpad element size of a conversion (R281). -/
def txSize (ld : Bool) (ty : Ty) (sh : ShapeReg) : Nat :=
  match ty, ld with
  | .bf16, true => 2
  | .bf16, false => 4
  | .f32, true => 4
  | .f32, false => 2
  | _, _ => sh.size

/-- A conversion that does not match ESZ (R281). -/
def txTypeBad (ld : Bool) (ty : Ty) (sh : ShapeReg) : Bool :=
  match ty with
  | .bf16 => sh.size != (if ld then 4 else 2)
  | .f32 => sh.size != (if ld then 2 else 4)
  | _ => false

/-- The alignment of the global side: BASE and strides multiples of a size. -/
def ShapeReg.skew (x : ShapeReg) (n : Nat) : Bool :=
  decide (x.base.toNat % n ≠ 0) || decide (x.s0.toNat % n ≠ 0) || decide (x.s1.toNat % n ≠ 0) || decide (x.s2.toNat % n ≠ 0)

/-- The window checks of the scratchpad side (R281); an empty mask has no core to check. -/
def CIss.regionBad (y : CIss) (sh : ShapeReg) (dsz o : Nat) (bobj : Option Nat) (empty : Bool) : Bool :=
  (decide (1 < sh.e1) && decide (sh.pitch.toNat < sh.e0 * dsz)) ||
  (!empty && (decide (y.ver.scratch < o + sh.reach dsz) || bobjBad y.ver.scratch bobj))

/-- Whether the mask names more cores than a command without `.mc` may. -/
def CIss.crowd (y : CIss) (c : BitVec 8) : Bool := decide (1 < (maskCores (y.rc c)).length)

/-- `TX.LD` (R281). -/
def execTxLd (h : Hdr) (o : Tx) (s : State) : Out :=
  ctlOnly (.txLd h o) s (fun y => txTypeBad true o.ty (y.x.readH o.a.toNat)) fun y =>
    let sh := y.x.readH o.a.toNat
    let dsz := txSize true o.ty sh
    let off := (y.rc o.d).toNat
    match issueTrap false (sh.skew sh.size || decide (off % dsz ≠ 0) || decide (sh.pitch.toNat % dsz ≠ 0))
        (y.maskBad s o.c || (!o.mc && y.crowd o.c) || y.regionBad sh dsz off (bobjOf o.bobj) (maskCores (y.rc o.c)).isEmpty) with
    | some t => .trap t
    | none => y.command s o.c true (.ld sh o.ty off (bobjOf o.bobj))

/-- `TX.LDQ` (R282). -/
def execTxLdq (h : Hdr) (o : Tx) (planes : BitVec 4) (s : State) : Out :=
  ctlOnly (.txLdq h o planes) s never fun y =>
    let sh := y.x.readH o.a.toNat
    let off := (y.rc o.d).toNat
    match issueTrap false (sh.skew 256 || decide (off % 512 ≠ 0) || decide (sh.pitch.toNat % 512 ≠ 0))
        (y.maskBad s o.c || (!o.mc && y.crowd o.c) || y.regionBad sh 512 off (bobjOf o.bobj) (maskCores (y.rc o.c)).isEmpty) with
    | some t => .trap t
    | none => y.command s o.c true (.ldq sh (y.rc o.b) planes.toNat off (bobjOf o.bobj))

/-- `TX.ST` (R283), with the checks of R281 on its region (log entry 39). -/
def execTxSt (h : Hdr) (o : Tx) (s : State) : Out :=
  ctlOnly (.txSt h o) s (fun y => txTypeBad false o.ty (y.x.readH o.a.toNat)) fun y =>
    let sh := y.x.readH o.a.toNat
    let dsz := txSize false o.ty sh
    let off := (y.rc o.d).toNat
    match issueTrap false (sh.skew sh.size || decide (off % dsz ≠ 0) || decide (sh.pitch.toNat % dsz ≠ 0))
        (y.maskBad s o.c || y.crowd o.c || y.regionBad sh dsz off (bobjOf o.bobj) (maskCores (y.rc o.c)).isEmpty) with
    | some t => .trap t
    | none => y.command s o.c true (.st sh o.ty off (bobjOf o.bobj))

/-- The least and the greatest `.l` offset that a peer region touches (R284), from its strides. -/
def ShapeReg.peerSpan (x : ShapeReg) (off : Nat) : Int × Int :=
  let ends : List Int := [x.s0.toInt * (x.e0m.toNat : Int), x.s1.toInt * (x.e1m.toNat : Int), x.s2.toInt * (x.e2m.toNat : Int)]
  (ends.foldl (fun a b => a + min 0 b) (off : Int), ends.foldl (fun a b => a + max 0 b) (off : Int) + (x.size : Int))

/-- `TX.ST.peer` (R284): the scratchpad side is checked as R281 checks a region's, and no alignment is asked of BASE or the strides, which name
bytes of the peer (log entry 39: the model's choice). -/
def execTxStPeer (h : Hdr) (o : Tx) (s : State) : Out :=
  ctlOnly (.txStPeer h o) s (fun y => decide (65536 ≤ (y.rc o.b).toNat)) fun y =>
    let sh := y.x.readH o.a.toNat
    let off := (y.rc o.d).toNat
    let base := sh.base.toNat
    let far := bitsOf base 55 36
    let span := sh.peerSpan far
    match issueTrap false (decide (off % sh.size ≠ 0) || decide (sh.pitch.toNat % sh.size ≠ 0))
        (y.maskBad s o.c || y.crowd o.c || decide (2 ^ 56 ≤ base) || decide (span.1 < 0) || decide (2 ^ 20 < span.2) ||
         y.regionBad sh sh.size off (bobjOf o.bobj) (maskCores (y.rc o.c)).isEmpty) with
    | some t => .trap t
    | none => y.command s o.c true
        (.stPeer sh (base % 16) (bitsOf base 35 4) far off (bobjOf o.bobj) (bobjOf ((y.rc o.b).setWidth 16)))

/-- A wait of the stream for its commands, which takes a number (R268, R285, R293, R347). -/
def CIss.fence (y : CIss) (s : State) (mask : Option (List Nat)) : CAct :=
  let s1 := y.number s
  if !s1.fenced y.cl mask then .sleep s1 (.fence mask false)
  else match s1.fenceTrap y.cl mask with
    | some (t, s2) => .trapIn s2 t
    | none => .go s1 []

/-- `TX.FENCE` (R285). -/
def execTxFence (h : Hdr) (s : State) : Out := ctlOnly (.txFence h) s never fun y => y.fence s none

/-! ### How far a command is -/

/-- Units of work of a command on each of its cores: elements, blocks, row pairs with the metadata, rows. -/
def Cmd.units (m : Cmd) : Nat :=
  match m.op with
  | .ld sh .. | .ldq sh .. | .st sh .. | .stPeer sh .. => sh.count
  | .lds w _ _ => if w then 33 else 32
  | .swap => 1
  | .strm _ _ _ _ _ _ n => n
  | .drn _ _ n _ _ _ => n
  | .zero _ n => n

/-- Units done on a core. -/
def Cmd.doneOn (m : Cmd) (i : Nat) : Nat := (m.done.filter fun d => d.1 == i).length
/-- Whether a core has no unit left. -/
def Cmd.coreDone (m : Cmd) (i : Nat) : Bool := decide (m.units ≤ m.doneOn i)
/-- Whether every unit is done on every core. -/
def Cmd.allDone (m : Cmd) : Bool := m.cores.all m.coreDone

/-! ### Matrix commands (R289 to R293) -/

/-- Whether a core's active and shadow planes carry metadata once the commands issued so far, and not yet done there, have taken effect
(R291). -/
def CIss.planeMeta (y : CIss) (s : State) (i : Nat) : Bool × Bool :=
  let mx := (s.core (16 * y.cl + i)).mx
  (y.x.cmds.filter fun m => m.cores.contains i && !m.coreDone i).foldl (fun a m => match m.op with
    | .lds w _ _ => (a.1, w)
    | .swap => (a.2, a.1)
    | _ => a) (mx.active.hasMeta, mx.shadow.hasMeta)

/-- The rows operand of R273: first row and count. -/
def rowsOperand (v : Dword) : Nat × Nat := (v.toNat % 1024, bitsOf v.toNat 25 16 + 1)
def rowsBad (v : Dword) : Bool :=
  let (f, n) := rowsOperand v
  decide (v.toNat ≠ f + 2 ^ 16 * (n - 1)) || decide (1024 < f + n)

/-- `MX.LDS` (R289). -/
def execMxLds (h : Hdr) (withMeta : Bool) (a b c : BitVec 8) (s : State) : Out :=
  ctlOnly (.mxLds h withMeta a b c) s never fun y =>
    let img := (y.rc a).toNat
    let p := (y.rc b).toNat
    let last := max (img + 31 * p + 256) (if withMeta then img + 32 * p + 1024 else 0)
    match issueTrap false (decide (img % 4 ≠ 0) || decide (p % 4 ≠ 0))
        (y.maskBad s c || decide (p < 256) || (!(maskCores (y.rc c)).isEmpty && decide (y.ver.scratch < last))) with
    | some t => .trap t
    | none => y.command s c false (.lds withMeta img p)

/-- `MX.SWAP` (R290). -/
def execMxSwap (h : Hdr) (c : BitVec 8) (s : State) : Out :=
  ctlOnly (.mxSwap h c) s never fun y =>
    match issueTrap false false (y.maskBad s c) with
    | some t => .trap t
    | none => y.command s c false .swap

/-- `MX.STRM` (R291): the slot is captured at issue. -/
def execMxStrm (h : Hdr) (o : Strm) (s : State) : Out :=
  ctlOnly (.mxStrm h o) s
    (fun y => decide (o.alg ≠ 0) && (maskCores (y.rc o.c)).any fun i => (y.planeMeta s i).1) fun y =>
    let row0 := (y.rc o.d).toNat
    let src := (y.rc o.a).toNat
    let p := (y.rc o.b).toNat
    let m := o.m1.toNat + 1
    let rows := (maskCores (y.rc o.c)).map fun i => if (y.planeMeta s i).1 then 256 else 128
    match issueTrap false (decide (src % 4 ≠ 0) || decide (p % 4 ≠ 0))
        (y.maskBad s o.c || decide (1024 ≤ row0) || decide (1024 < row0 + m) || decide (p < 128) ||
         rows.any (fun n => decide (p < n) || decide (y.ver.scratch < src + (m - 1) * p + n))) with
    | some t => .trap t
    | none => y.command s o.c false (.strm (s.algebra y.l.ctx y.cl o.alg.toNat) o.lst o.acc row0 src p m)

/-- Bytes of a drained row (R292). -/
def drainSize (ty : Ty) : Nat := if ty = .bf16 then 128 else 256

/-- `MX.DRN` (R292). -/
def execMxDrn (h : Hdr) (o : Tx) (s : State) : Out :=
  ctlOnly (.mxDrn h o) s never fun y =>
    let r := rowsOperand (y.rc o.d)
    let dst := (y.rc o.a).toNat
    let p := (y.rc o.b).toNat
    let n := drainSize o.ty
    match issueTrap false (decide (dst % 4 ≠ 0) || decide (p % 4 ≠ 0))
        (y.maskBad s o.c || rowsBad (y.rc o.d) || decide (p < n) ||
         (!(maskCores (y.rc o.c)).isEmpty && (decide (y.ver.scratch < dst + (r.2 - 1) * p + n) || bobjBad y.ver.scratch (bobjOf o.bobj)))) with
    | some t => .trap t
    | none => y.command s o.c false (.drn o.ty r.1 r.2 dst p (bobjOf o.bobj))

/-- `MX.ZERO` (R293). -/
def execMxZero (h : Hdr) (d c : BitVec 8) (s : State) : Out :=
  ctlOnly (.mxZero h d c) s never fun y =>
    let r := rowsOperand (y.rc d)
    match issueTrap false false (y.maskBad s c || rowsBad (y.rc d)) with
    | some t => .trap t
    | none => y.command s c false (.zero r.1 r.2)

/-- `MX.WAIT` (R293). -/
def execMxWait (h : Hdr) (c : BitVec 8) (s : State) : Out :=
  ctlOnly (.mxWait h c) s never fun y =>
    match issueTrap false false (y.maskBad s c) with
    | some t => .trap t
    | none => y.fence s (some (maskCores (y.rc c)))

/-! ### Access to memory and scratchpad by an engine (R162, R270, R272, R386) -/

/-- What an engine's access to memory gives. -/
inductive Got where
  | ok (bs : List Byte)
  | fail (cause : BitVec 8)
  /-- The page is absent. -/
  | absent
  /-- Not yet: parked writes of the page, an atomic between its beats, a full partition, a retraining. -/
  | wait
  deriving DecidableEq, Repr

/-- An engine's read at the point of coherence. -/
def State.engineRead (s : State) (ctx va n : Nat) (who : Met := {}) : Got × State :=
  if !s.windowOk ctx va n .r || (s.bellOf ctx va).isSome then (.fail 0x03, s)
  else match s.translate ctx va who with
    | (.absent, s1) => (.absent, s1)
    | (.wait, s1) => (.wait, s1)
    | (.malformed, s1) => (.fail (s1.malformedCause ctx va), s1)
    | (.synonym, s1) => (.fail 0x0C, s1)
    | (.ok l, s1) =>
      if !s1.grants ctx va l .r then (.fail 0x03, s1)
      else if s1.linkDown l then (.fail 0x0B, s1)
      else if s1.pageWaits ctx va l then (.wait, s1)
      else
        let (bs, bad, s2) := s1.readG l va n
        (if bad then .fail 0x0B else .ok bs, s2)

/-- An engine's write of bytes at a sector's offsets (R283): a refused write fails with STOREFAULT. -/
def State.engineWrite (s : State) (ctx va : Nat) (bs : List Byte) (who : Met := {}) : Got × State :=
  if !s.windowOk ctx va bs.length .plainW then (.fail 0x03, s)
  else if (s.bellOf ctx va).isSome then (.fail 0x07, s)
  else match s.translate ctx va who with
    | (.absent, s1) => (.absent, s1)
    | (.wait, s1) => (.wait, s1)
    | (.malformed, s1) => (.fail 0x07, s1)
    | (.synonym, s1) => (.fail 0x07, s1)
    | (.ok l, s1) =>
      if !s1.grants ctx va l .w then (.fail 0x07, s1)
      else if s1.linkDown l then (.fail 0x0F, s1)
      else if s1.pageWaits ctx va l || s1.beatHolds va bs.length then (.wait, s1)
      else (.ok [], s1.performWrite ctx va l (bs.zipIdx.map fun b => (b.2, b.1)))

/-- Bytes at an address of any alignment, sector by sector. -/
def State.readSpan (s : State) (ctx : Nat) : List (Nat × Nat) → Got × State
  | [] => (.ok [], s)
  | (va, n) :: r =>
    match s.engineRead ctx va n with
    | (.ok bs, s1) => (match s1.readSpan ctx r with
        | (.ok cs, s2) => (.ok (bs ++ cs), s2)
        | g => g)
    | g => g

/-- The pieces of `n` bytes from an address, cut at sectors. -/
def pieces (va n : Nat) : List (Nat × Nat) :=
  (sectorsOf va (List.replicate n 0)).map fun x => (x.1 + (match x.2 with | b :: _ => b.1 | [] => 0), x.2.length)

/-- Bytes of a parcel's scratchpad, or of its save image while it is away (R386). -/
def State.engineScr (s : State) (pid off n : Nat) : List Byte :=
  let p := s.parcel pid
  match p.image with
  | some im => readBytes im.scratch off n
  | none => s.readScr p.core (p.base + off) n

/-- An arrival at a parcel's object, or its entry in the image's log (R280, R386). -/
def State.engineCount (s : State) (pid n : Nat) (bobj : Option Nat) : State :=
  match bobj with
  | none => s
  | some b =>
    let p := s.parcel pid
    match p.image with
    | some im => s.setImage pid { im with log := im.log ++ [.barrier (16 * b) n] }
    | none => s.arrive p.core (p.base + 16 * b) n

/-- Bytes written into a parcel's scratchpad or image and counted (R280, R386). -/
def State.enginePut (s : State) (pid off : Nat) (bs : List Byte) (bobj : Option Nat) : State :=
  let p := s.parcel pid
  let s1 := match p.image with
    | some im => s.setImage pid { im with scratch := writeBytes im.scratch off bs }
    | none => s.storeScr p.core (p.base + off) bs
  s1.engineCount pid bs.length bobj

/-! ### Units of work (R281 to R293; log entry 17) -/

/-- The writes that the bounce rings hold for a parcel performed in its scratchpad, in each port's order (R388, R389). -/
def State.replayRing (s : State) (pid : Nat) : State :=
  (((List.range 16).flatMap fun i => (s.port i).ring.filter fun w => w.pid == pid).foldl (fun s w => s.enginePut pid w.off w.bs w.obj) s).dropBounce pid

/-- A unit waits for an absent page, which is reported (R272, R377). -/
def State.unitWaits (s : State) (cl ctx : Nat) (m : Cmd) (u va : Nat) (write : Bool) : State :=
  let s1 := s.mapCmd cl m.lid m.eseq fun m =>
    { m with waits := if m.waits.contains (u, va / 65536) then m.waits else m.waits ++ [(u, va / 65536)] }
  s1.reportAbsent ctx va m.lid m.pc m.eseq.toNat m.version write

/-- The work of a command, as records name it (R378). -/
def Cmd.met (m : Cmd) : Met := { pc := m.pc, team := m.eseq.toNat, version := m.version }

/-- A unit's read: the refusal of its page since it waited, or the access (R272). -/
def State.unitRead (s : State) (ctx : Nat) (m : Cmd) (u va n : Nat) : Got × State :=
  match m.denied.find? fun d => d.1 == u && d.2.1 == va / 65536 with
  | some d => (.fail d.2.2, s)
  | none => s.engineRead ctx va n m.met

/-- The conversion of an element on its way (R281). -/
def txConvert (toB16 toF32 : Bool) (n : Nat) (bs : List Byte) : List Byte :=
  let v := natOfBytes bs
  bytesOfNat n (if toB16 then mxNarrow v else if toF32 then (Fmt.f32.fin .rn false (Fmt.bf16.dec v).ex).1 else v)

/-- The 512 bytes of a block reconstructed from its scale code and its first `p` planes (R105 to R107, R282). -/
def blockBytes (p code : Nat) (planes : List Byte) : List Byte :=
  (List.range 256).flatMap fun e =>
    let word := (List.range p).foldl (fun n j =>
      if (planes.getD (32 * j + e / 8) 0).getLsbD (e % 8) then n + 2 ^ (7 - j) else n) 0
    bytesOfNat 2 (li8 p code word)

/-- The bytes that a unit of `TX.LD` or `TX.LDQ` brings, with the sector of its failure. -/
def State.unitBytes (s : State) (ctx : Nat) (m : Cmd) (u : Nat) : Got × Nat × State :=
  match m.vals.look u with
  | some bs => (.ok bs, 0, s)
  | none =>
    match m.op with
    | .ld sh ty _ _ =>
      let va := sh.global u
      (match s.unitRead ctx m u va sh.size with
       | (.ok bs, s1) => (.ok (txConvert (ty == .bf16) (ty == .f32) (txSize true ty sh) bs), va, s1)
       | (g, s1) => (g, va, s1))
    | .ldq sh scale p _ _ =>
      let sa := (scale.toNat + u) % 2 ^ 64
      (match s.unitRead ctx m u sa 1 with
       | (.ok c, s1) =>
         let code := (c.headD 0).toNat
         if code = 0 || code = 255 then (.ok (blockBytes p code []), sa, s1)
         else
           let va := sh.global u
           (match s1.unitRead ctx m u va (32 * p) with
            | (.ok bs, s2) => (.ok (blockBytes p code bs), va, s2)
            | (g, s2) => (g, va, s2))
       | (g, s1) => (g, sa, s1))
    | _ => (.wait, 0, s)

/-- A unit of `TX.LD` or `TX.LDQ` on a core: read once, written to each core's scratchpad and counted there (R280, R281). -/
def State.loadUnit (s : State) (cl ctx : Nat) (m : Cmd) (i pid u place bytes : Nat) (bobj : Option Nat) : State :=
  match s.unitBytes ctx m u with
  | (.ok bs, _, s1) =>
    let s2 := s1.mapCmd cl m.lid m.eseq fun m => { m with vals := if m.cores.length ≤ 1 then m.vals else m.vals.put u bs }
    (s2.enginePut pid place bs bobj).unitDone cl m i u
  | (.fail c, va, s1) => s1.unitFails cl m u va bytes c
  | (.absent, va, s1) => s1.unitWaits cl ctx m u va false
  | (.wait, _, s1) => s1

/-- A unit of `TX.ST` parks at the partition for an absent page, in the entry of its sector where the command has one there (R131, R283);
the page is reported. -/
def State.parkUnit (s : State) (cl ctx : Nat) (m : Cmd) (u va : Nat) (bs : List Byte) : State :=
  let src := Src.engine cl m.lid m.eseq
  let sec := va / 32 * 32
  let new := bs.zipIdx.map fun b => (va % 32 + b.2, b.1)
  let s1 := match s.reqs.find? fun r => decide (r.src = src) && r.va == sec && r.ctx == ctx, s.newId with
    | some r, _ =>
      let q : Req := match r.kind with
        | .store old => { r with kind := .store (old ++ new), owners := r.owners ++ [u] }
        | _ => r
      (match r.st with | .parked k => (s.setReq q).setRec q 0 0 k | _ => s.setReq q)
    | none, (id, t) =>
      t.parkReq { id := id, kind := .store new, src := src, port := 1024 + id, owners := [u], ctx := ctx, lid := m.lid, tgt := .part (partOf va),
                  va := sec, pc := m.pc, version := m.version, row := 0, gteam := m.eseq.toNat, lanes := 0, noFill := true }
  s1.reportAbsent ctx va m.lid m.pc m.eseq.toNat m.version true

/-- Whether a unit's write is parked. -/
def State.unitParked (s : State) (cl : Nat) (m : Cmd) (u : Nat) : Bool :=
  s.reqs.any fun r => decide (r.src = .engine cl m.lid m.eseq) && r.owners.contains u

/-- A unit of `TX.ST`: first the scratchpad is read and counted, then the element is written (R280, R283; log entry 40). The write request
enters its instance's signature as it is issued, whatever becomes of it (R372). -/
def State.storeUnit (s : State) (cl ctx : Nat) (m : Cmd) (i pid u : Nat) (sh : ShapeReg) (ty : Ty) (o : Nat) (bobj : Option Nat) : State :=
  let dsz := txSize false ty sh
  match m.vals.look u with
  | none =>
    let bs := txConvert (ty == .bf16) (ty == .f32) sh.size (s.engineScr pid (o + sh.local dsz u) dsz)
    let va := sh.global u
    let s1 := if s.windowOk ctx va bs.length .plainW then
        (s.pairWrite pid ctx (va / 32 * 32) (bs.zipIdx.map fun b => (va % 32 + b.2, b.1))).2 else s
    (s1.mapCmd cl m.lid m.eseq fun m => { m with vals := m.vals.put u bs }).engineCount pid dsz bobj
  | some bs =>
    let va := sh.global u
    let got : Got × State := match m.denied.find? fun d => d.1 == u && d.2.1 == va / 65536 with
      | some _ => (.fail 0x07, s)
      | none =>
        if !s.windowOk ctx va bs.length .plainW then (.fail 0x03, s)
        else if s.signed pid ctx va && (s.parcel pid).shadow then (.ok [], s)
        else s.engineWrite ctx va bs m.met
    match got with
    | (.ok _, s1) => s1.unitDone cl m i u
    | (.fail c, s1) => s1.unitFails cl m u va sh.size c
    | (.absent, s1) => if s1.accepts (partOf va) then s1.parkUnit cl ctx m u va bs else s1
    | (.wait, s1) => s1

/-- A unit of `TX.ST.peer` (R284): the scratchpad is read and counted; then the write leaves over the peer's port, and the peer
acknowledges or refuses it. As VA of a failure's record stand bits [51:0] of BASE plus the strides, since the write has no global address (log entry
39: the model's choice). -/
def State.peerUnit (s : State) (cl : Nat) (m : Cmd) (i pid u : Nat) (sh : ShapeReg) (peer parcel far o : Nat) (bobj obj : Option Nat) : State :=
  match m.vals.look u with
  | none =>
    (s.mapCmd cl m.lid m.eseq fun z => { z with vals := z.vals.put u (s.engineScr pid (o + sh.local sh.size u) sh.size) }).engineCount
      pid sh.size bobj
  | some bs =>
    let n := (s.wh.peers.look peer).getD peer
    let p := s.port n
    if !p.up then s.unitFails cl m u (sh.global u) sh.size 0x0F
    else if p.training then s
    else
      let at_ := ((far : Int) + sh.stride u).toNat
      let s1 := s.setPort n { p with out := p.out ++ [.scratch peer (s.launchOf m.lid).ctx parcel at_ bs obj], sent := p.sent + 1, recvd := p.recvd + 1 }
      let (refused, s2) := s1.freeBool
      if refused then s2.unitFails cl m u (sh.global u) sh.size 0x03 else s2.unitDone cl m i u

/-! ### The matrix engine (R93 to R97, R287 to R293) -/

/-- A component of a plane as bfloat16 bits. -/
def Plane.at (p : Plane) (r c : Nat) : Nat := (p.el.get 0 (64 * r + c)).toNat

/-- The term of position `q` for column `o` in real and algebra mode (R94, R288). -/
def algTerm (p : Plane) (alg : Algebra) (lst : Bool) (row : Nat → Nat) (o q : Nat) : Nat :=
  let k := alg.k
  let g := q / k
  let i := q % k
  let streamed (c : Nat) : Nat := row (k * g + c)
  let still (c : Nat) : Nat := p.at g (k * (o / k) + c)
  match (List.range k).find? fun j => alg.sgn i j != 0 && alg.idx i j == o % k with
  | some j =>
    let t := if lst then mxMul (still i) (streamed j) else mxMul (streamed i) (still j)
    if alg.sgn i j = 2 then mxNeg t else t
  | none => 0

/-- The term of slot `q` for column `o` in 2:4 sparse mode (R288). -/
def sparseTerm (p : Plane) (row : Nat → Nat) (o q : Nat) : Nat :=
  let g := q / 2
  let nib := (p.nib.get 0 (64 * g + o)).toNat
  let first := nib % 4
  let second := nib / 4
  if q % 2 = 0 then mxMul (row (4 * g + first)) (p.at q o)
  else if second ≤ first then 0 else mxMul (row (4 * g + second)) (p.at q o)

/-- The 64 terms of a column. -/
def Plane.terms (p : Plane) (alg : Algebra) (lst : Bool) (row : Nat → Nat) (o : Nat) : List Nat :=
  (List.range 64).map fun q => if p.hasMeta then sparseTerm p row o q else algTerm p alg lst row o q

/-- One streamed row into an accumulator row (R95). -/
def Mx.stream (x : Mx) (alg : Algebra) (lst acc : Bool) (row : Nat → Nat) (r : Nat) : Mx :=
  { x with acc := x.acc.setAll 0 ((List.range 64).map fun o =>
      let u := mxTree (x.active.terms alg lst row o)
      (64 * r + o, BitVec.ofNat 32 (if acc then mxAdd (x.acc.get 0 (64 * r + o)).toNat u else u))) }

/-- A pair of rows of the image into the shadow plane (R289): 128 components from row 2j on. -/
def Mx.loadPair (x : Mx) (j : Nat) (withMeta : Bool) (bs : List Byte) : Mx :=
  let els := (List.range 128).map fun c => (128 * j + c, BitVec.ofNat 16 (natOfBytes ((bs.drop (2 * c)).take 2)))
  { x with shadow := { x.shadow with el := x.shadow.el.setAll 0 els, hasMeta := if withMeta then x.shadow.hasMeta else false } }

/-- The metadata block into the shadow plane (R289). -/
def Mx.loadMeta (x : Mx) (bs : List Byte) : Mx :=
  let nibs := (List.range 2048).map fun n =>
    let b := (bs.getD (32 * (n / 64) + n % 64 / 2) 0).toNat
    (n, BitVec.ofNat 4 (if n % 2 = 0 then b % 16 else b / 16))
  { x with shadow := { x.shadow with nib := x.shadow.nib.setAll 0 nibs, hasMeta := true } }

/-- A drained row (R292). -/
def Mx.drained (x : Mx) (ty : Ty) (r : Nat) : List Byte :=
  (List.range 64).flatMap fun o =>
    let w := (x.acc.get 0 (64 * r + o)).toNat
    if ty = .bf16 then bytesOfNat 2 (mxNarrow w) else bytesOfNat 4 w

/-- Commands of the stream queue (R294). -/
def Cmd.inStream (m : Cmd) : Bool := match m.op with | .strm .. | .swap | .drn .. | .zero .. => true | _ => false
def Cmd.isLds (m : Cmd) : Bool := match m.op with | .lds .. => true | _ => false
def Cmd.isSwap (m : Cmd) : Bool := match m.op with | .swap => true | _ => false

/-- Whether a matrix command may act on a core: every earlier command that R290 and R294 put before it is done there. -/
def mxTurn (before : List Cmd) (m : Cmd) (i : Nat) : Bool :=
  before.all fun e => !e.cores.contains i || e.coreDone i ||
    !((m.inStream && e.inStream) || (m.isSwap && e.isLds) || (m.isLds && (e.isLds || e.isSwap)))

/-- A matrix unit acts on a core. -/
def State.mxUnit (s : State) (cl : Nat) (m : Cmd) (i pid u : Nat) : State :=
  let c := 16 * cl + i
  let k := s.core c
  let setMx (x : Mx) : State := s.setCore c { k with mx := x }
  let s1 := match m.op with
    | .lds w img p =>
      if u < 32 then setMx (k.mx.loadPair u w (s.engineScr pid (img + u * p) 256))
      else setMx (k.mx.loadMeta (s.engineScr pid (img + 32 * p) 1024))
    | .swap => setMx { k.mx with active := k.mx.shadow, shadow := k.mx.active }
    | .strm alg lst acc row0 src p _ =>
      let bs := s.engineScr pid (src + u * p) (if k.mx.active.hasMeta then 256 else 128)
      setMx (k.mx.stream alg lst acc (fun q => natOfBytes ((bs.drop (2 * q)).take 2)) (row0 + u))
    | .drn ty row0 _ dst p bobj => s.enginePut pid (dst + u * p) (k.mx.drained ty (row0 + u)) bobj
    | .zero row0 _ => setMx { k.mx with acc := k.mx.acc.filter fun y => y.1 / 64 != row0 + u }
    | _ => s
  s1.unitDone cl m i u

/-- A unit of an engine command is performed on a core: the oldest unfinished command with the number (R162, R268, R294). -/
def execEngineArrival (cluster : Nat) (eseq : Word) (core unit : Nat) (s : State) : Out :=
  let x := s.ctl cluster
  match x.cmds.find? fun m => m.eseq == eseq && !m.finished with
  | none => .next s
  | some m =>
    match m.parcels.find? fun p => p.1 == core with
    | none => .next s
    | some (_, pid) =>
      if m.units ≤ unit || m.done.contains (core, unit) || s.unitParked cluster m unit then .next s
      else
        let ctx := (s.launchOf m.lid).ctx
        match m.op with
        | .ld sh ty o bobj =>
          let dsz := txSize true ty sh
          .next (s.loadUnit cluster ctx m core pid unit (o + sh.local dsz unit) dsz bobj)
        | .ldq sh _ _ o bobj => .next (s.loadUnit cluster ctx m core pid unit (o + sh.local 512 unit) 512 bobj)
        | .st sh ty o bobj => .next (s.storeUnit cluster ctx m core pid unit sh ty o bobj)
        | .stPeer sh peer parcel far o bobj obj => .next (s.peerUnit cluster m core pid unit sh peer parcel far o bobj obj)
        | _ =>
          let before := x.cmds.takeWhile fun e => !(e.lid == m.lid && e.eseq == m.eseq)
          if unit = m.doneOn core && mxTurn before m core then .next (s.mxUnit cluster m core pid unit) else .next s

/-- A control stream asleep in a wait goes on when its commands have finished (R272, R285, R293). -/
def State.checkFence (s : State) (cl : Nat) : State :=
  let x := s.ctl cl
  match x.st with
  | .asleep (.fence mask leave) =>
    if !s.fenced cl mask then s
    else match s.fenceTrap cl mask with
      | some (t, s1) => s1.takeCtlTrap cl (fetchedWords x.ibuf) x.npc t
      | none =>
        if !leave then s.wakeCtl cl
        else if s.released (.control cl) 0 then s.endControl cl
        else s.setCtl cl { x with st := .asleep (.release [] false true) }
  | _ => s

/-- An engine command finishes when every unit is performed or has failed (R269, R272, R281). -/
def execEngineCommandFinish (cluster : Nat) (eseq : Word) (s : State) : Out :=
  let x := s.ctl cluster
  match x.cmds.find? fun m => m.eseq == eseq && !m.finished with
  | none => .next s
  | some m =>
    if !m.allDone then .next s
    else
      let fin : Cmd := { m with finished := true, vals := [], failed := m.failed.map fun r => { r with lost := m.lost } }
      let keep := fin.failed.isSome && (s.launchOf m.lid).ended.isNone
      let cmds := x.cmds.filterMap fun e => if e.lid = m.lid && e.eseq == m.eseq then (if keep then some fin else none) else some e
      let s1 := s.setCtl cluster { x with cmds := cmds }
      .next ((if m.lid = x.lid then s1.wfiEvent cluster else s1).checkFence cluster)

/-! ### ALG.LDT (R101, R286) -/

/-- An algebra record checked by R101. -/
def Algebra.ofRecord (w : Nat) : Option Algebra :=
  let k := bitsOf w 71 64
  let conj := bitsOf w 79 72
  let ent (i j : Nat) : Nat := w / 2 ^ (192 + 5 * (8 * i + j)) % 32
  let good (i j : Nat) : Bool :=
    let e := ent i j
    e == 0 || (decide (i < k) && decide (j < k) && e / 8 != 3 && e / 8 != 0 && decide (e % 8 < k) &&
      (List.range 8).all fun l => l == j || ent i l == 0 || ent i l % 8 != e % 8)
  if (k = 1 || k = 2 || k = 4 || k = 8) && decide (bitsOf w 191 80 = 0) && decide (conj < 2 ^ k) &&
      (List.range 8).all (fun i => (List.range 8).all fun j => good i j) then
    some { name := BitVec.ofNat 64 w, k := k, conj := BitVec.ofNat 8 conj,
           tab := (List.range 64).filterMap fun n => let e := ent (n / 8) (n % 8); if e = 0 then none else some (n, BitVec.ofNat 5 e) }
  else none

/-- A context's set of a cluster changed (R104). -/
def State.setAlgebra (s : State) (ctx cl slot : Nat) (a : Algebra) : State :=
  s.setCtx ctx { s.ctxOf ctx with alg := (s.ctxOf ctx).alg.put (cl * 8 + slot) a }

/-- `ALG.LDT` (R286): the record is read at the point of coherence behind the stream's own earlier writes; the stream stalls while
it cannot be. -/
def execAlgLdt (h : Hdr) (d a : BitVec 8) (s : State) : Out :=
  ctlOnly (.algLdt h d a) s never fun y =>
    let va := (y.rc a).toNat
    match y.addrTrap s va 64 .r with
    | some t => .trap t
    | none =>
      let clear (s : State) : State := s.setCtl y.cl { s.ctl y.cl with ldt := none }
      match y.x.ldt with
      | some (_, some cause) => .trapIn (clear s) { cause := cause, va := BitVec.ofNat 64 va }
      | _ =>
        if s.reqs.any fun r => decide (r.src = y.src) && decide (r.tgt = .part (partOf va)) && r.moving then .hold s
        else match s.engineRead y.l.ctx va 64 { pc := y.x.pc, team := y.x.eseq.toNat, version := y.x.version } with
          | (.ok bs, s1) =>
            (match Algebra.ofRecord (natOfBytes bs) with
             | some t => .go ((clear s1).setAlgebra y.l.ctx y.cl d.toNat t) []
             | none => .trapIn (clear s1) { cause := 0x01 })
          | (.fail cause, s1) => .trapIn (clear s1) { cause := cause, va := BitVec.ofNat 64 va }
          | (.absent, s1) =>
            let s2 := s1.reportAbsent y.l.ctx va y.x.lid y.x.pc y.x.eseq.toNat y.x.version false
            .hold (s2.setCtl y.cl { s2.ctl y.cl with ldt := some (va / 65536, none) })
          | (.wait, s1) => .hold s1

end Sys2Proof.Machine
end

