-- ==== Sys2Proof/Machine/Admit.lean ====
section
/-! DEFINITION. The distributor (R51, R52, R64, R71, R77, R104, R114, R266, R362, R366 to R372, R418): the traversal of a grid, what a core
can take, the start of parcels, teams and control streams, and the events PARCEL_ADMIT, LAUNCH_COMPLETE and PAIR_COMPARE. -/

namespace Sys2Proof.Machine

/-! ### Traversal (R370) -/

/-- The least power of two that is at least `n`. -/
def sideOf (n : Nat) : Nat := 2 ^ Nat.log2 (2 * n - 1)

/-- Position `d` of the Morton walk. -/
def mortonAt (side d : Nat) : Nat × Nat :=
  (List.range (Nat.log2 side)).foldl (fun p i => (p.1 + d / 4 ^ i % 2 * 2 ^ i, p.2 + d / 4 ^ i / 2 % 2 * 2 ^ i)) (0, 0)

/-- Position `d` of the Hilbert walk over a square. -/
def hilbertAt (side d : Nat) : Nat × Nat :=
  let r := (List.range (Nat.log2 side)).foldl (fun (a : Nat × Nat × Nat) i =>
    let q := 2 ^ i
    let (x, y, t) := a
    let rx := t / 2 % 2
    let ry := (t ^^^ rx) % 2
    let (x, y) := if ry = 0 then (if rx = 1 then (q - 1 - y, q - 1 - x) else (y, x)) else (x, y)
    (x + q * rx, y + q * ry, t / 4)) (0, 0, d)
  (r.1, r.2.1)

/-- The `m`-th kept point of a walk: `fuel` is the number of positions left. -/
def kept (walk : Nat → Nat × Nat) (x y : Nat) : Nat → Nat → Nat → Nat × Nat
  | 0, _, _ => (0, 0)
  | fuel + 1, d, m =>
    let p := walk d
    if p.1 < x && p.2 < y then (if m = 0 then p else kept walk x y fuel (d + 1) (m - 1)) else kept walk x y fuel (d + 1) m

/-- The `row` order: (x, y) of parcel `m` in a layer of extents `x`, `y` with swizzle `s`. -/
def rowAt (x y s m : Nat) : Nat × Nat :=
  let b := m / (s * x)
  let h := min s (y - s * b)
  let r := m - s * x * b
  (r / h, s * b + r % h)

/-- The coordinates of sequence number `n` of a grid (R370, R371). -/
def Grid.at (g : Grid) (n : Nat) : Nat × Nat × Nat :=
  let z := n / (g.x * g.y)
  let m := n % (g.x * g.y)
  let side := sideOf (max g.x g.y)
  let p := match g.order with
    | 0 => rowAt g.x g.y g.swz m
    | 1 => (let q := rowAt g.y g.x g.swz m; (q.2, q.1))
    | 2 => kept (mortonAt side) g.x g.y (side * side) 0 m
    | 3 => kept (hilbertAt side) g.x g.y (side * side) 0 m
    | _ => rowAt g.x g.y 1 m
  (p.1, p.2, z)

/-- Parcels of the launch to be placed: with PAIR each runs twice (R372). -/
def Grid.total (g : Grid) : Nat := g.x * g.y * g.z * (if g.pair then 2 else 1)

/-! ### What a core can take (R51, R52, R64, R114, R266) -/

/-- The base of a new allocation: the lowest multiple of 384 with room below the Tarn region (R110, R114). -/
def State.scrRoom (s : State) (core size tarn : Nat) : Option Nat :=
  let hs := s.holders core
  let top := scratchSize - hs.foldl (fun n p => max n p.tarn) 0 - tarn
  let free (b : Nat) : Bool := decide (b + size ≤ top) &&
    hs.all fun p => decide (p.scrSize = 0) || decide (b + size ≤ p.base) || decide (p.base + p.scrSize ≤ b)
  if (decide (0 < tarn) && hs.any fun p => decide (0 < p.tarn)) || hs.any (fun p => decide (top < p.base + p.scrSize)) then none
  else if size = 0 then some 0
  else match (0 :: hs.map fun p => (p.base + p.scrSize + 383) / 384 * 384).filter free with
    | [] => none
    | b :: bs => some (bs.foldl min b)

/-- Row-registers that the teams of a slot hold (R51). -/
def State.rowRegs (s : State) (x : Slot) : Nat :=
  x.teams.foldl (fun n t => n + 2 ^ t.2.w * (s.kernelOf t.2).maxRegs) 0

/-- Split-table entries of a slot that are in use or in a team's reserve (R52, R53). -/
def Slot.entriesHeld (x : Slot) : Nat := x.teams.foldl (fun n t => n + max 2 (x.entriesOf t.1).length) 0

/-- Slots take the teams in rotation from the slot with the most free row-registers (R52): that slot, when every slot has room. `needs`
lists the split-table entries of each team, by index: two at admission, as many as it has where it comes back, none where it has exited. -/
def State.slotRoom (s : State) (core w regs : Nat) (needs : List Nat) : Option Nat :=
  let free (i : Nat) : Nat := 1024 - s.rowRegs (s.slot core i)
  let b := [1, 2, 3].foldl (fun b i => if free b < free i then i else b) 0
  let here (i : Nat) : List Nat := (needs.zipIdx.filter fun t => decide (0 < t.1) && (b + t.2) % 4 == i).map Prod.fst
  if [0, 1, 2, 3].all fun i =>
      decide ((here i).length * (2 ^ w * regs) ≤ free i) && decide ((s.slot core i).teams.length + (here i).length ≤ 32) &&
      decide ((here i).foldl (· + ·) (s.slot core i).entriesHeld ≤ 64) then some b else none

/-- Physical named barriers of a core that no parcel uses (R64). -/
def State.freeBars (s : State) (core : Nat) : List Nat :=
  let used := (s.parcels.filter fun p => p.2.core == core && p.2.onCore).flatMap fun p => p.2.bars.map Bar.phys
  (List.range 32).filter fun n => !used.contains n

/-- Whether a context has work on a cluster (R104). -/
def State.ctxOnCluster (s : State) (ctx cl : Nat) : Bool :=
  (s.parcels.any fun p => clusterOf p.2.core == cl && p.2.onCore && (s.launchOf p.2.lid).ctx == ctx) ||
  ((s.ctl cl).st != .off && (s.launchOf (s.ctl cl).lid).ctx == ctx)

/-- Whether a cluster's hardware has or can take the algebra set of a context (R104). -/
def State.algRoom (s : State) (ctx cl : Nat) : Bool :=
  let h := s.hwAlg.get [] cl
  h.contains ctx || decide (h.length < 4) || h.any fun c => !s.ctxOnCluster c cl

/-- The set of a context in a cluster's hardware, in the place of one without work there (R104). -/
def State.algSwap (s : State) (ctx cl : Nat) : State :=
  let h := s.hwAlg.get [] cl
  if h.contains ctx then s
  else
    let rest := if h.length < 4 then h else match h.find? fun c => !s.ctxOnCluster c cl with
      | some c => h.filter (· != c)
      | none => h
    { s with hwAlg := s.hwAlg.put cl (rest ++ [ctx]) }

/-- Whether a cluster can hold the control stream of a launch: no other launch's stream runs and no command of one is unfinished there
(R71, R266). -/
def State.ctlRoom (s : State) (lid cl : Nat) : Bool :=
  let x := s.ctl cl
  (x.st == .off || x.lid == lid) && x.cmds.all fun m => m.finished || m.lid == lid

/-- Cores reserved for class 0 in each cluster (R367): the highest ones, by default core 15. -/
def State.reservedCore (s : State) (core : Nat) : Bool := decide (16 - s.wh.reserve.getD 1 ≤ core % 16)

/-- Whether a core can take a parcel of a launch, with the split entries its teams need (R52, R104, R266, R369): the base of its
allocation and the first slot. -/
def State.takesWith (s : State) (l : Launch) (core : Nat) (needs : List Nat) : Option (Nat × Nat) :=
  let k := s.kernel l.kid
  let cl := clusterOf core
  if (s.parcels.any fun p => p.2.core == core && (match p.2.st with | .saving true _ => true | _ => false)) ||
     (l.cls != 0 && s.reservedCore core) || !s.algRoom l.ctx cl ||
     (k.hasControl && ((s.parcelOn core l.lid).isSome || !s.ctlRoom l.lid cl)) || (s.freeBars core).length < k.nbar then none
  else match s.scrRoom core k.maxScratch k.tarn, s.slotRoom core k.w k.maxRegs needs with
    | some base, some b => some (base, b)
    | _, _ => none

/-- Whether a core can take a parcel of a launch at its start: two split entries a team (R52). -/
def State.takes (s : State) (l : Launch) (core : Nat) : Option (Nat × Nat) :=
  s.takesWith l core (List.replicate (s.kernel l.kid).teams 2)

/-- The split entries that each team of an image needs (R53). -/
def Image.needs (im : Image) (teams : Nat) : List Nat :=
  (List.range teams).map fun i => (im.teams.find? fun t => t.team.index == i).elim 0 fun t => max 2 t.entries.length

/-! ### Starting work (R71, R149, R166, R266, R270, R362) -/

/-- The control stream of a launch on a cluster from its reset state (R266, R362). -/
def State.startControl (s : State) (lid cl : Nat) (version : BitVec 3) : State :=
  let l := s.launchOf lid
  let x := s.ctl cl
  let base := l.stack + BitVec.ofNat 64 (4096 * cl)
  let y : Control := { lid := lid, version := version, tvec := l.tvec, mode := if l.grid.chk then 1 else 0, stkbase := base,
                       stklim := base + 4096, st := .ready, cycle := x.cycle, free := x.cycle, cmds := x.cmds }
  (List.range 16).foldl (fun s i => s.setCore (16 * cl + i) { s.core (16 * cl + i) with mx := {} }) (s.setCtl cl y)

/-- A control stream starts where the kernel has one and none of the launch runs there (R71). -/
def State.needControl (s : State) (lid cl : Nat) : State :=
  if (s.kernel (s.launchOf lid).kid).hasControl && (s.ctl cl).st == .off then
    s.startControl lid cl (BitVec.ofNat 3 (s.launchOf lid).grid.start) else s

/-- The starting values of `%mode` (R300, R362). -/
def Grid.mode (g : Grid) : Word :=
  BitVec.ofNat 32 (g.chk.toNat + 2 * g.ldnf.toNat + 4 * g.lrnd.toNat + 8 * g.lw.toNat + 16 * g.runahead.toNat)

/-- A team at its start (R362). -/
def Launch.freshTeam (l : Launch) (k : Kernel) (pid index i : Nat) : Team :=
  let g := index * k.teams + i
  let base := if l.stksz = 0 then 0 else l.stack + BitVec.ofNat 64 (65536 + 4096 * l.stksz * g)
  { pid := pid, index := i, w := k.w, s := (Store.set 0 [] 62 (l.args.setWidth 32)).set 0 63 ((l.args >>> 32).setWidth 32),
    mode := l.grid.mode, tvec := l.tvec, stkbase := base, stklim := base + BitVec.ofNat 64 (4096 * l.stksz) }

/-- The lowest free team position of a slot (R64). -/
def Slot.freePos (x : Slot) : Nat := ((List.range 32).find? fun i => (x.teams.look i).isNone).getD 32

/-- A team placed in a slot with its entries; their positions. -/
def State.placeTeam (s : State) (core sl : Nat) (t : Team) (es : List Entry) : Nat × State :=
  let x := s.slot core sl
  let pos := x.freePos
  let now := (s.core core).cycle
  let s1 := s.setSlot core sl { x with teams := x.teams.put pos t }
  (pos, es.foldl (fun s e => s.setEntry core sl (s.slot core sl).freeIndex { e with team := pos, since := now, stamp := now }) s1)

/-- What admission does to a core: L1 invalidated (R149), instruction cache before the first parcel of a launch (R166), the algebra
set (R104). -/
def State.prepareCore (s : State) (core lid : Nat) : State :=
  let s1 := s.invalidate core
  let first := !(s.parcels.any fun p => p.2.lid == lid && p.2.core == core && p.2.onCore)
  let s2 := if first then s1.setCore core { s1.core core with icache := [] } else s1
  s2.algSwap (s.launchOf lid).ctx (clusterOf core)

/-- The named barriers of a parcel placed on a core: each expects every team (R64). -/
def State.freshBars (s : State) (core n : Nat) (bits : BitVec 128) : List Bar :=
  (s.freeBars core).take n |>.map fun p => { phys := p, expected := bits }

/-- A parcel starts on a core, in slots from `b` on; `pid` names a parcel that was flushed, if it is one (R52, R362, R382). -/
def State.startParcel (s : State) (lid core base b : Nat) (old : Option Nat) : State :=
  let l := s.launchOf lid
  let k := s.kernel l.kid
  let (pid, s1) : Nat × State := match old with
    | some p => (p, s)
    | none => s.newId
  let g := l.grid
  let n := if g.pair then l.next / 2 else l.next
  let (x, y, z) := g.at n
  let p : Parcel := match old with
    | some q => { s.parcel q with core := core, base := base, st := .resident, busy := false, room := Option.none }
    | none => { pid := pid, lid := lid, seq := l.next, index := x + g.x * (y + g.y * z), x := x, y := y, z := z, core := core, base := base,
                scrSize := k.maxScratch, tarn := k.tarn, teams := k.teams, shadow := g.pair && l.next % 2 == 1, version := l.version }
  let s2 := s1.prepareCore core lid
  let (bits, s3) := (List.range k.teams).foldl (fun (acc : BitVec 128 × State) i =>
    let sl := (b + i) % 4
    let e : Entry := { version := p.version, mask := List.replicate (2 ^ k.w) 0xFFFFFFFF, pend := p.pend, preqs := p.preqs }
    let (pos, t) := acc.2.placeTeam core sl (l.freshTeam k pid p.index i) [e]
    (acc.1 ||| teamBit sl pos, t)) (0, s2)
  let s3' := s3.setParcel pid { p with bars := s3.freshBars core k.nbar bits, pend := Option.none, preqs := [], image := Option.none }
  let s4 := (s3'.replayRing pid).mapPtt fun t =>
    if p.shadow then t
    else if t.any fun e => e.pid == pid then t.map fun (e : Ptt) => if e.pid = pid then { e with core := core, absent := false } else e
    else t ++ [{ ctx := l.ctx, parcel := p.index, core := core, absent := false, pid := pid }]
  let s5 := if old.isSome then s4 else s4.setLaunch lid { l with next := l.next + 1 }
  (s5.needControl lid (clusterOf core)).wfiEvent (clusterOf core)

/-! ### Placement (R366, R369, R371, R372) -/

/-- Core of a scan position. -/
def scanCore (j : Nat) : Nat := 16 * (j % 16) + j / 16 % 16

/-- Die of a core. -/
def dieOf (core : Nat) : Nat := core / 128

/-- Where the scan for a parcel may go: a die, any core, or nowhere until a read that has to wait is performed (R371). -/
inductive Die where
  | only (d : Nat)
  | any
  | wait
  deriving DecidableEq, Repr, Inhabited

def Die.allows : Die → Nat → Bool
  | .only d, core => dieOf core == d
  | .any, _ => true
  | .wait, _ => false

/-- The die to which the scan for the parcel of a sequence number is restricted as it is placed (R371, R372). -/
def State.dieFor (s : State) (l : Launch) (seq : Nat) : Die × State :=
  if l.grid.pair then (.only (seq % 2), s)
  else if l.grid.order = 4 then
    match s.readSpan l.ctx (pieces ((l.args.toNat + 8 * seq) % 2 ^ 64) 8) with
    | (.ok bs, s1) => (if natOfBytes bs < 2 ^ 52 then .only (partOf (natOfBytes bs) / 32) else .any, s1)
    | (.wait, s1) => (.wait, s1)
    | (_, s1) => (.any, s1)
  else (.any, s)

/-- Whether an ALGEBRA_LOAD of a context that started before a launch is not yet complete (R364). -/
def State.algHeld (s : State) (l : Launch) : Bool :=
  s.queues.any fun q => q.2.ctx == l.ctx && q.2.live.any fun p => p.ty == 6 && decide (p.lid < l.lid)

/-- Whether a launch has parcels that wait for admission. -/
def Launch.waiting (l : Launch) : Bool := l.st == .admitting && l.ended.isNone && decide (l.next < l.grid.total)

/-- A parcel that has been or is being switched out and has not been admitted again (R77). -/
def Parcel.away (p : Parcel) : Bool :=
  match p.st with
  | .flushed | .saved | .saving .. => true
  | _ => false

/-- Whether room on a core is kept for another switched-out parcel (R78). -/
def State.kept (s : State) (core : Nat) (me : Option Nat) : Bool :=
  s.parcels.any fun p => p.2.room == some core && p.2.away && me != some p.1

/-- Whether the image of a parcel is complete: no lane copy or engine command of it is under way (R386). -/
def State.imageDone (s : State) (pid : Nat) : Bool :=
  !s.engineBusy pid && !(s.reqs.any fun r => r.asks && (match r.src with | .away q _ => q == pid | _ => false))

/-- A switched-out parcel that waits for admission: it is to start again, or its image is complete. -/
def State.isReturning (s : State) (p : Parcel) : Bool :=
  match p.st with
  | .flushed => true
  | .saved => s.imageDone p.pid
  | _ => false

/-- A saved parcel comes back on one core-in-cluster where its group is saved as a unit (R385), on its die where it is paired (R372), and
else on any core. -/
def State.goesBack (s : State) (p : Parcel) (core : Nat) : Bool :=
  let l := s.launchOf p.lid
  let k := s.kernel l.kid
  match p.image with
  | some im => (!(k.hasControl || decide (0 < k.tarn)) || core % 16 == im.core % 16) && (!l.grid.pair || dieOf core == p.seq % 2)
  | none => false

/-- Whether a core can take a parcel that waits for admission: a switched-out one of a launch, or the launch's next. -/
def State.fits (s : State) (l : Launch) (old : Option Nat) (core : Nat) : Bool :=
  !s.kept core old && (match old with
    | some q =>
      let p := s.parcel q
      (match p.st, p.image with
       | .saved, some im => s.goesBack p core && (s.takesWith l core (im.needs (s.kernel l.kid).teams)).isSome
       | _, _ => (s.dieFor l p.seq).1.allows core && (s.takes l core).isSome)
    | none => (s.dieFor l l.next).1.allows core && (s.takes l core).isSome)

/-- The parcels of a launch that wait for admission (R366): switched-out ones, and the next. -/
def State.waiters (s : State) (l : Launch) : List (Option Nat) :=
  if (s.ctxOf l.ctx).stopped || l.ended.isSome then []
  else ((s.parcels.filter fun p => p.2.lid == l.lid && s.isReturning p.2).map fun p => some p.1) ++
    (if l.waiting && !s.algHeld l then [none] else [])

/-- Whether a higher class waits for a core that it can use (R366). -/
def State.claimed (s : State) (cls core : Nat) : Bool :=
  s.launches.any fun l => decide (l.2.cls < cls) && (s.waiters l.2).any fun p => s.fits l.2 p core

/-- The first core of the scan that takes the launch's next parcel: its scan position, core, base and slot. -/
def State.findCore (s : State) (l : Launch) (die : Die) (old : Option Nat) : Option (Nat × Nat × Nat × Nat) :=
  (List.range 256).findSome? fun i =>
    let j := (s.scan + i) % 256
    let c := scanCore j
    if die.allows c && !s.kept c old && !s.claimed l.cls c then
      (s.takes l c).map fun r => (j, c, r.1, r.2)
    else none

/-- The scan starts one past a core used for an admission (R369). -/
def scanPast (core : Nat) : Nat := (16 * (core % 16) + core / 16 + 1) % 256

/-- The next parcel of a launch placed, or a flushed one of it (R77, R369, R382). -/
def State.placeNext (s : State) (lid : Nat) (old : Option Nat) : Option State :=
  let l := s.launchOf lid
  let (die, s1) := s.dieFor l (old.elim l.next fun p => (s.parcel p).seq)
  (s1.findCore l die old).map fun r => { s1.startParcel lid r.2.1 r.2.2.1 r.2.2.2 old with scan := scanPast r.2.1 }

/-! ### Co-resident groups (R418) -/

/-- The launch of a queue's packet. -/
def State.launchAt (s : State) (qid pkt : Nat) : Option Launch :=
  (s.launches.find? fun l => l.2.qid == qid && l.2.pkt == pkt).map Prod.snd

/-- The group of a launch from its opening LAUNCH on: `fuel` bounds its length each way. -/
def State.groupBack (s : State) (l : Launch) : Nat → Launch
  | 0 => l
  | fuel + 1 => if l.cor && 0 < l.pkt then (match s.launchAt l.qid (l.pkt - 1) with | some p => s.groupBack p fuel | none => l) else l
def State.groupOn (s : State) (l : Launch) : Nat → List Launch
  | 0 => [l]
  | fuel + 1 => match s.launchAt l.qid (l.pkt + 1) with
    | some n => if n.cor then l :: s.groupOn n fuel else [l]
    | none => [l]
def State.group (s : State) (l : Launch) : List Launch :=
  s.groupOn (s.groupBack l s.launches.length) s.launches.length

/-- Whether a packet of a queue is a published LAUNCH with COR set that has not started (R418). A published packet whose read has to wait may be
one. -/
def State.corNext (s : State) (qid pkt : Nat) : Bool :=
  let q := s.queue qid
  let va := q.base.toNat + 64 * (pkt % 2 ^ q.n)
  if q.rptr ≤ pkt && pkt < q.wptr then
    match s.engineRead q.ctx va 32 with
    | (.ok bs, _) => decide (natOfBytes bs % 256 = 1) && (natOfBytes bs).testBit 180
    | (.wait, _) => true
    | (.absent, _) => s.classAt q.ctx va != 0
    | _ => false
  else false

/-- The next `n` parcels of a launch placed, or none. -/
def State.placeMany (s : State) (lid : Nat) : Nat → Option State
  | 0 => some s
  | n + 1 => (s.placeMany lid n).bind fun t => t.placeNext lid none

/-- Every parcel of some launches placed, or none. -/
def State.placeAll (s : State) : List Nat → Option State
  | [] => some s
  | lid :: rest =>
    match s.placeMany lid ((s.launchOf lid).grid.total - (s.launchOf lid).next) with
    | some s1 => s1.placeAll rest
    | none => none

/-- A device with no other work, for the check of R418. -/
def State.idle (s : State) : State := { s with cores := [], ctls := [], parcels := [], hwAlg := [], scan := 0 }

/-! ### Events -/

/-- Whether a parcel of a context is switched out: it is admitted again ahead of every parcel not yet started (R77). -/
def State.returning (s : State) (ctx : Nat) : Bool := s.parcels.any fun p => (s.launchOf p.2.lid).ctx == ctx && p.2.away

/-- The distributor admits the next parcel of a launch, a flushed one first (R77, R366, R369), or a group at once (R418). -/
def execParcelAdmit (lid : Id) (s : State) : Out :=
  match s.launches.look lid with
  | none => .next s
  | some l =>
    if (s.ctxOf l.ctx).stopped || s.wh.stopped || l.ended.isSome || l.st != .admitting || s.algHeld l then .next s
    else match s.parcels.find? fun p => p.2.lid == lid && p.2.st == .flushed with
      | some p => .next ((s.placeNext lid (some p.1)).getD s)
      | none =>
        if !(decide (l.next < l.grid.total)) || s.returning l.ctx then .next s
        else
          let g := s.group l
          let last := g.getLastD l
          if s.corNext last.qid (last.pkt + 1) then .next s
          else if g.length ≤ 1 then .next ((s.placeNext lid none).getD s)
          else if g.all fun y => y.st != .leasing && !(y.waiting && s.algHeld y) then
            .next ((s.placeAll ((g.filter Launch.waiting).map Launch.lid)).getD s)
          else .next s

/-- The signal of a launch or packet: a store or an add at an 8-byte word, as a release write (R152, R362, R364). -/
def State.signalWord (s : State) (ctx addr : Nat) (add : Bool) (v : Dword) : Got × State :=
  if !s.windowOk ctx addr 8 (if add then .rwa else .w) then (.fail 0x07, s)
  else if add then
    match s.translate ctx addr with
    | (.ok l, s1) =>
      if !s1.grants ctx addr l .rwa then (.fail 0x07, s1)
      else (match s1.engineRead ctx addr 8 with
        | (.ok bs, s2) => s2.engineWrite ctx addr (bytesOfNat 8 ((natOfBytes bs + v.toNat) % 2 ^ 64))
        | r => r)
    | _ => s.engineRead ctx addr 8
  else s.engineWrite ctx addr (bytesOfNat 8 v.toNat)

/-- The front end waits for an absent page, or the queue halts where its window is LEASED or the access fails (R361). -/
def State.frontWait (s : State) (qid ctx va : Nat) (write : Bool) (g : Got) : State :=
  match g with
  | .absent =>
    if s.classAt ctx va = 0 then s.haltQueue qid 7
    else
      let s1 := s.reportAbsent ctx va 0 0 0 0 write
      let q := s1.queue qid
      s1.setQueue qid { q with waits := if q.waits.contains (va / 65536) then q.waits else q.waits ++ [va / 65536] }
  | .fail _ => s.haltQueue qid 7
  | _ => s

/-- What firmware finds as it looks for a leaf: its level, its entry's place in the pool and the entry; none; or a read of the tables that does
not come back (R408, R410). -/
inductive Found where
  | leaf (level o : Nat) (l : Leaf)
  | absent
  | wait
  deriving DecidableEq, Repr

/-- The leaf that maps an address. -/
def State.leafAt (s : State) (ctx va : Nat) : Nat → Nat → Found × State
  | level, table =>
    let o := table * 4096 + 8 * levelIndex va level
    match s.readPool (s.ctxOf ctx).desc o with
    | (none, s1) => (.wait, s1)
    | (some w, s1) =>
      let e : Leaf := w
      if !Leaf.v e then (.absent, s1)
      else match level with
        | 0 => (.leaf 0 o e, s1)
        | n + 1 => if Leaf.l e then (.leaf (n + 1) o e, s1) else s1.leafAt ctx va n (Leaf.frame e)

/-- The P bit of the leaf that maps a unit set or cleared (R119, R375). -/
def State.pinUnit (s : State) (ctx unit : Nat) (on : Bool) : State :=
  let d := (s.ctxOf ctx).desc
  match s.leafAt ctx (unit * 65536) 3 d.root with
  | (.leaf _ o e, s1) =>
    let w : Dword := e
    s1.writePool d o (if on then w ||| 0x80 else w &&& ~~~0x80)
  | (_, s1) => s1

/-- The units of the page that maps a unit; none while the tables cannot be read. -/
def State.pageUnits (s : State) (ctx unit : Nat) : Option (List Nat) × State :=
  match s.leafAt ctx (unit * 65536) 3 (s.ctxOf ctx).desc.root with
  | (.leaf level _ _, s1) => let n := levelBytes level / 65536; (some ((List.range n).map (unit / n * n + ·)), s1)
  | (.absent, s1) => (some [], s1)
  | (.wait, s1) => (none, s1)

/-- Whether firmware can read the tables of a launch's leased units now; it gives the leases back when it can (R375, R410). -/
def State.leasesUp (s : State) (lid : Nat) : Bool × State :=
  (s.launchOf lid).leased.foldl (fun (a : Bool × State) u =>
    if !a.1 then a
    else match a.2.pageUnits (s.launchOf lid).ctx u with
      | (some _, t) => (true, t)
      | (none, t) => (false, t)) (true, s)

/-- A lease on a unit taken (R375). -/
def State.takeLease (s : State) (lid unit : Nat) : State :=
  let l := s.launchOf lid
  let x := s.ctxOf l.ctx
  let s1 := s.setCtx l.ctx { x with leases := x.leases.set 0 unit (x.leases.get 0 unit + 1) }
  (s1.setLaunch lid { l with leased := l.leased ++ [unit], missing := l.missing.filter (· != unit) }).pinUnit l.ctx unit true

/-- The leases of a launch returned (R375): P is cleared where no lease of the page is left and the driver did not set it. -/
def State.returnLeases (s : State) (lid : Nat) : State :=
  let l := s.launchOf lid
  let s1 := l.leased.foldl (fun s u =>
    let x := s.ctxOf l.ctx
    let s1 := s.setCtx l.ctx { x with leases := x.leases.set 0 u (x.leases.get 0 u - 1) }
    let y := s1.ctxOf l.ctx
    match s1.pageUnits l.ctx u with
    | (some page, s2) => if page.all fun v => y.leases.get 0 v == 0 && !y.drvPin.contains v then s2.pinUnit l.ctx u false else s2
    | (none, s2) => s2) s
  s1.setLaunch lid { s1.launchOf lid with leased := [] }

/-- Whether every parcel and control stream of a launch has exited, with its engine commands finished (R71, R163, R270). -/
def State.allExited (s : State) (lid : Nat) : Bool :=
  let l := s.launchOf lid
  (decide (l.grid.total ≤ l.next) || l.ended.isSome) &&
  (s.parcels.all fun p => p.2.lid != lid || (p.2.st == .ended && !s.engineBusy p.1)) &&
  (s.ctls.all fun c => c.2.lid != lid || c.2.st == .off) &&
  (s.parcels.all fun p => match p.2.image with | some im => p.2.lid != lid || im.control.isNone | none => true)

/-- The launch's packet completes; its parcels are gone, its leases returned. -/
def State.closeLaunch (s : State) (lid : Nat) : State :=
  let s1 := s.returnLeases lid
  let l := s1.launchOf lid
  let s2 := s1.setLaunch lid { l with st := .complete }
  let s3 := match s2.queues.look l.qid with
    | some q => s2.setQueue l.qid { q with live := q.live.filter fun p => !(p.ty == 1 && p.lid == lid) }
    | none => s2
  { s3 with parcels := s3.parcels.filter fun p => p.2.lid != lid }

/-- A launch completes (R163, R362): the signal is performed, unless it ended without `EXIT`. One that a lease violation stopped counts as
complete once every write of it has been performed or refused, and its queue has halted before (R376); one that ended in an unhandled trap
halts its queue now (R420). -/
def execLaunchComplete (lid : Id) (s : State) : Out :=
  match s.launches.look lid with
  | none => .next s
  | some l =>
    let up := s.leasesUp lid
    if l.st != .admitting || !s.allExited lid then .next s
    else if !up.1 then .next up.2
    else match (match l.ended with | some e => some e | none => if l.bad then some 8 else none) with
      | some err =>
        let busy := s.reqs.any fun r => r.lid == lid && r.kind.isWrite && (match r.st with | .refused .. => false | _ => true)
        if err = 6 then .next (if busy then s else s.closeLaunch lid)
        else .next ((s.closeLaunch lid).haltQueue l.qid (BitVec.ofNat 8 err))
      | none =>
        if l.sigaddr = 0 then .next (s.closeLaunch lid)
        else match s.signalWord l.ctx l.sigaddr.toNat l.sigadd l.sigval with
          | (.ok _, s1) => .next (s1.closeLaunch lid)
          | (.wait, s1) => .next s1
          | (.absent, s1) =>
            let s2 := s1.frontWait l.qid l.ctx l.sigaddr.toNat true .absent
            .next (if s1.classAt l.ctx l.sigaddr.toNat = 0 then s2.closeLaunch lid else s2)
          | (.fail c, s1) => .next ((s1.frontWait l.qid l.ctx l.sigaddr.toNat true (.fail c)).closeLaunch lid)

/-- Both instances of a parcel have exited: their signatures are compared and a mismatch logged (R372, R408). -/
def execPairCompare (lid : Id) (parcel : Nat) (s : State) : Out :=
  let l := s.launchOf lid
  match l.sigs.find? fun x => x.1 == parcel && !x.2.1, l.sigs.find? fun x => x.1 == parcel && x.2.1 with
  | some p, some q =>
    let s1 := s.setLaunch lid { l with sigs := l.sigs.filter fun x => x.1 != parcel }
    if p.2.2 = q.2.2 then .next s1
    else
      let rec_ (v : Dword) : LogRec := { cls := 6, unit := 6, count := BitVec.ofNat 32 parcel, addr := v, ctx := l.ctx }
      .next ((s1.logEvent (rec_ p.2.2)).logEvent (rec_ q.2.2))
  | _, _ => .next s

end Sys2Proof.Machine
end

