-- ==== Sys2Proof/Machine/Frontend.lean ====
section
/-! DEFINITION. The front end (R327, R328, R358 to R368): doorbells, hardware slots, and the start and completion of packets. -/

namespace Sys2Proof.Machine

/-! ### Packets in memory (R358, R361, R365) -/

/-- The address of a packet. -/
def Queue.at (q : Queue) (i : Nat) : Nat := (q.base.toNat + 64 * (i % 2 ^ q.n)) % 2 ^ 64

/-- Whether a FETCH_FENCE of the queue is uncompleted. -/
def Queue.fenced (q : Queue) : Bool := q.live.any fun p => p.ty == 4

/-- The front end reads packets ahead in index order, each or not, none behind a FETCH_FENCE (R365): past a packet it has read it can go on
without reading it again. -/
def State.readAhead (s : State) (qid : Nat) : Nat → Nat → State
  | 0, _ => s
  | fuel + 1, i =>
    let q := s.queue qid
    let (yes, s1) := s.freeBool
    if q.wptr ≤ i || q.fenced then s1
    else if !yes then
      (match q.early.look i with
       | some bs => if natOfBytes bs % 256 = 4 then s1 else s1.readAhead qid fuel (i + 1)
       | none => s1)
    else match s1.engineRead q.ctx (q.at i) 64 with
      | (.ok bs, s2) =>
        let s3 := s2.setQueue qid { q with early := q.early.put i bs }
        if natOfBytes bs % 256 = 4 then s3 else s3.readAhead qid fuel (i + 1)
      | (_, s2) => s2

/-- The packets of a resident queue that may be read ahead. -/
def State.prefetch (s : State) (qid : Nat) : State :=
  match (s.queue qid).st with
  | .resident _ => s.readAhead qid (2 ^ (s.queue qid).n) (s.queue qid).rptr
  | _ => s

/-- The contents a packet starts with: each 8-byte word as read ahead or as it stands (R365). -/
def State.contents (s : State) (q : Queue) (i : Nat) (now : List Byte) : Nat × State :=
  match q.early.look i with
  | none => (natOfBytes now, s)
  | some old => (List.range 8).foldl (fun (a : Nat × State) j =>
      let (yes, s1) := a.2.freeBool
      (a.1 + 2 ^ (64 * j) * natOfBytes ((if yes then old else now).drop (8 * j) |>.take 8), s1)) (0, s)

/-! ### Fields of a packet (R361, R364) -/

def pktType (w : Nat) : Nat := w % 256
def pktOrd (w : Nat) : Bool := w.testBit 8
def pktAddr (w : Nat) : Nat := bitsOf w 127 64
def pktValue (w : Nat) : Dword := BitVec.ofNat 64 (bitsOf w 191 128)
def pktOp (w : Nat) : Nat := bitsOf w 193 192
def pktTgt (w : Nat) : Nat := bitsOf w 319 256
def pktVer (w : Nat) : Nat := bitsOf w 322 320

/-- A malformed packet (R361). -/
def pktBad (w : Nat) : Bool :=
  let skew := decide (pktAddr w % 8 ≠ 0)
  let rest := decide (bitsOf w 63 32 ≠ 0) || decide (bitsOf w 255 194 ≠ 0) || decide (bitsOf w 511 323 ≠ 0)
  decide (bitsOf w 31 9 ≠ 0) ||
  (match pktType w with
   | 0 => decide (bitsOf w 511 32 ≠ 0)
   | 1 => decide (bitsOf w 191 181 ≠ 0) || decide (bitsOf w 511 489 ≠ 0) || (w.testBit 179 && decide (bitsOf w 178 64 ≠ 0))
   | 2 => rest || skew || decide (2 ≤ pktOp w) || decide (bitsOf w 322 256 ≠ 0)
   | 3 | 4 => rest || skew || decide (bitsOf w 322 256 ≠ 0)
   | 5 => rest || skew || decide (2 ≤ pktOp w)
   | 6 => rest || decide (bitsOf w 193 128 ≠ 0) || decide (bitsOf w 322 259 ≠ 0) || decide (bitsOf w 258 256 = 0)
   | _ => true)

/-- Whether a packet's order lets it start (R361, R364). -/
def Queue.orderOk (q : Queue) (w : Nat) : Bool :=
  (q.live.all fun p => decide (q.rptr < p.index)) || !(pktOrd w || pktType w == 2 || pktType w == 6)

/-- Whether a queue is resident and its next packet can be started with the contents now in memory (R361, R366). -/
def State.canStart (s : State) (qid : Nat) : Bool :=
  let q := s.queue qid
  (match q.st with | .resident _ => true | _ => false) && q.err == 0 && decide (q.rptr < q.wptr) && !q.fenced &&
  !(s.ctxOf q.ctx).stopped && !s.wh.stopped &&
  (q.waits.all fun pg => match s.walk q.ctx (pg * 65536) with | (.absent, _) => false | _ => true) &&
  (match s.engineRead q.ctx (q.at q.rptr) 64 with
   | (.ok bs, _) => q.orderOk (natOfBytes bs)
   | _ => false)

/-- The hardware slot of a queue. -/
def Queue.slot (q : Queue) : Nat := match q.st with | .resident n => n | _ => 64

/-- Whether a queue comes before another in the order of service: the class, then the slots in rotation (R366). -/
def State.servedBefore (s : State) (a b : Queue) : Bool :=
  let turn (q : Queue) : Nat := (q.slot + 64 - s.rr.get 0 q.cls % 64) % 64
  decide (a.cls < b.cls) || (a.cls == b.cls && decide (turn a < turn b))

/-- The next packet of a queue with the contents it starts with, or a wait or halt of the queue (R361, R366). -/
def State.nextPacket (s : State) (qid : Nat) : Option Nat × State :=
  match s.queues.look qid with
  | none => (none, s)
  | some q =>
    if (match q.st with | .resident _ => false | _ => true) || q.err != 0 || !(decide (q.rptr < q.wptr)) || q.fenced ||
       (s.ctxOf q.ctx).stopped || s.wh.stopped ||
       s.queues.any (fun y => y.1 != qid && s.canStart y.1 && s.servedBefore y.2 q) then (none, s)
    else match s.engineRead q.ctx (q.at q.rptr) 64 with
      | (.ok bs, s1) =>
        let (w, s2) := s1.contents q q.rptr bs
        if q.orderOk w then (some w, s2) else (none, s2)
      | (g, s1) => (none, s1.frontWait qid q.ctx (q.at q.rptr) false g)

/-- The oldest packet not yet started after one: those that started before RPTR came back to a WAIT are passed over (R361). -/
def Queue.after (q : Queue) : Nat :=
  q.begun.foldl (fun i _ => if q.begun.contains i then i + 1 else i) (q.rptr + 1)

/-- The next packet has started: RPTR moves on, and the next queue in rotation is served next. -/
def State.movedOn (s : State) (qid : Nat) (live : List Pkt) : State :=
  let q := s.queue qid
  let p : Queue := { q with rptr := q.after, early := q.early.erase q.rptr, waits := [], idle := s.tick, live := q.live ++ live,
                            begun := q.begun.filter fun i => decide (q.after < i) }
  let s1 := s.setQueue qid p
  { s1 with rr := s1.rr.put q.cls (q.slot + 1) }

/-- The next packet has started, and RPTR in the queue's descriptor follows (log entry 41). -/
def State.advance (s : State) (qid : Nat) (live : List Pkt) : State :=
  let q := s.queue qid
  (s.movedOn qid live).descPut q 24 (bytesOfNat 8 q.after)

/-- An idle resident queue (R368). -/
def Queue.isIdle (q : Queue) : Bool := q.rptr == q.wptr && q.live.all fun p => p.ty == 1 || p.ty == 5

/-- A packet completes; a queue that becomes idle by it is idle from now on (R368). -/
def State.dropPkt (s : State) (qid index : Nat) : State :=
  let q := s.queue qid
  s.setQueue qid { q with live := q.live.filter fun p => p.index != index, idle := if q.isIdle then q.idle else s.tick }

/-- A packet of a type starts; a malformed one halts the queue (R361). Where the next packet cannot start, or is of another type, the front
end may still read ahead (R365). -/
def startPacket (ty qid : Nat) (s : State) (work : Nat → State → State) : Out :=
  match s.nextPacket qid with
  | (none, s1) => .next (s1.prefetch qid)
  | (some w, s1) =>
    if pktBad w then .next (s1.haltQueue qid 1)
    else if pktType w = ty then .next (work w s1) else .next (s.prefetch qid)

/-! ### Doorbells and hardware slots (R359, R368) -/

/-- A host write to the doorbell range of BAR0, at an offset within it (R359). -/
def execHostDoorbell (offset bytes : Nat) (value : Dword) (s0 : State) : Out :=
  let s := s0.countPort 20 0 1
  if bytes ≠ 8 || offset % 8 ≠ 0 || 32768 ≤ offset then .next { s with wh := { s.wh with badBells := s.wh.badBells + 1 } }
  else
    let qid := offset / 8
    match s.queues.look qid with
    | none => .next s
    | some _ => .next ((s.seeHost.ringBell qid value.toNat).prefetch qid)

/-- The queue of the wake list to be mapped next: class order, then the order of the list (R368). -/
def State.wakeNext (s : State) : Option Nat :=
  match s.wake with
  | [] => none
  | a :: r => some (r.foldl (fun a b => if (s.queue b).cls < (s.queue a).cls then b else a) a)

def State.freeSlot (s : State) : Option Nat := (List.range 64).find? fun i => (s.hwslots.look i).isNone

/-- A queue of the wake list is mapped onto a free slot (R368). -/
def execQueueWakeMap (s : State) : Out :=
  match s.wakeNext, s.freeSlot with
  | some qid, some i =>
    let q := s.queue qid
    let s1 : State := { s with wake := s.wake.filter (· != qid), hwslots := s.hwslots.put i qid }
    .next ((s1.setQueue qid { q with st := .resident i, idle := s.tick }).prefetch qid)
  | _, _ => .next s

/-- The queue that makes room for another (R368): idle, of the lowest class and no higher than the other's, idle longest. -/
def State.victim (s : State) (forQ : Nat) : Option Nat :=
  let all := s.queues.filter fun y => (match y.2.st with | .resident _ => true | _ => false) && y.2.isIdle && decide ((s.queue forQ).cls ≤ y.2.cls)
  match all with
  | [] => none
  | a :: r => some (r.foldl (fun (a : Nat × Queue) b => if a.2.cls < b.2.cls || (a.2.cls == b.2.cls && decide (b.2.idle < a.2.idle)) then b else a) a).1

/-- An unmap (R368): its first step writes the pointers to the descriptor; its last frees the slot and wakes the queue again where a
doorbell came between. -/
def execQueueUnmap (slot : Nat) (s : State) : Out :=
  match s.hwslots.look slot with
  | none => .next s
  | some qid =>
    let q := s.queue qid
    match q.st with
    | .unmapping =>
      let s1 : State := { s with hwslots := s.hwslots.erase slot, wake := if q.pendwake then s.wake ++ [qid] else s.wake }
      let p : Queue := { q with st := .unmapped, pendwake := false }
      .next ((s1.setQueue qid p).descPut p 8 [p.flagByte])
    | .resident _ =>
      (match s.wakeNext with
       | some w =>
         if s.freeSlot.isNone && s.victim w = some qid && s.queues.all fun y => y.2.st != .unmapping then
           .next ((s.setQueue qid { q with st := .unmapping, early := [] }).descPut q 16 (bytesOfNat 8 q.wptr ++ bytesOfNat 8 q.rptr))
         else .next s
       | none => .next s)
    | .unmapped => .next s

/-! ### NOP, SIGNAL, WAIT, FETCH_FENCE (R364, R365) -/

def execNopPacket (qid : Nat) (s : State) : Out := startPacket 0 qid s fun _ s => s.advance qid []

def execSignal (qid : Nat) (s : State) : Out :=
  startPacket 2 qid s fun w s =>
    let ctx := (s.queue qid).ctx
    match s.signalWord ctx (pktAddr w) (pktOp w == 1) (pktValue w) with
    | (.ok _, s1) => s1.advance qid []
    | (g, s1) => s1.frontWait qid ctx (pktAddr w) true g

/-- The comparison of a WAIT: the word against VALUE as naturals. -/
def waitHolds (op : Nat) (word value : Nat) : Bool :=
  match op with
  | 0 => word == value
  | 1 => word != value
  | 2 => decide (word < value)
  | _ => decide (value ≤ word)

/-- A WAIT or FETCH_FENCE starts: it reads its word, and stays where the comparison does not hold. -/
def waitStart (ty qid w : Nat) (s : State) : State :=
  let q := s.queue qid
  match s.engineRead q.ctx (pktAddr w) 8 with
  | (.ok bs, s1) =>
    if waitHolds (pktOp w) (natOfBytes bs) (pktValue w).toNat then
      let s2 := s1.advance qid []
      if ty = 4 then s2.setQueue qid { s2.queue qid with early := [] } else s2
    else s1.advance qid [{ index := q.rptr, ty := ty, addr := BitVec.ofNat 64 (pktAddr w), value := pktValue w, op := pktOp w }]
  | (g, s1) => s1.frontWait qid q.ctx (pktAddr w) false g

def execWait (qid : Nat) (s : State) : Out := startPacket 3 qid s (waitStart 3 qid)
def execFetchFence (qid : Nat) (s : State) : Out := startPacket 4 qid s (waitStart 4 qid)

/-- The waiting packets of a queue read their words again (R364); a FETCH_FENCE that completes discards what was read ahead (R365). One whose
word can no longer be read halts the queue, and RPTR names it (R361). -/
def execWaitReread (qid : Nat) (s : State) : Out :=
  .next (((s.queue qid).live.filter fun p => p.ty == 3 || p.ty == 4).foldl (fun s p =>
    let ctx := (s.queue qid).ctx
    match s.engineRead ctx p.addr.toNat 8 with
    | (.ok bs, s1) =>
      if waitHolds p.op (natOfBytes bs) p.value.toNat then
        let s2 := s1.dropPkt qid p.index
        if p.ty = 4 then s2.setQueue qid { s2.queue qid with early := [] } else s2
      else s1
    | (g, s1) =>
      let s2 := s1.frontWait qid ctx p.addr.toNat false g
      if (s1.queue qid).err = 0 && (s2.queue qid).err = 7 then s2.unstart qid p.index else s2) s)

/-! ### TRANSFER_REQ (R327, R328, R364) -/

/-- A sub-team becomes pending with a target, unless it is in that version (R327): then it is no longer pending, and an earlier request no longer
counts it either (log entry 89: the model's choice). -/
def Entry.request (x : Entry) (b : BitVec 3) (qid index : Nat) : Entry :=
  if x.version = b then { x with pend := none, preqs := [] } else { x with pend := some b, preqs := x.preqs ++ [(qid, index)] }

/-- The sub-teams of a launch become pending, in save images too; parcels not yet started begin in the version (R327). -/
def State.requestTransfer (s : State) (lid : Nat) (b : BitVec 3) (qid index : Nat) : State :=
  let s1 := s.places.foldl (fun s p =>
    let x := s.entry p.1 p.2.1 p.2.2
    if (s.parcel (s.team p.1 p.2.1 x.team).pid).lid = lid then s.setEntry p.1 p.2.1 p.2.2 (x.request b qid index) else s) s
  let image (im : Image) : Image :=
    { im with teams := im.teams.map fun (t : SavedTeam) => { t with entries := t.entries.map fun (x : Entry) => x.request b qid index } }
  let parcel (p : Parcel) : Parcel :=
    if p.lid ≠ lid then p
    else
      let q : Parcel := { p with image := p.image.map image }
      if p.st = .flushed then
        (if p.version = b then { q with pend := none, preqs := [] } else { q with pend := some b, preqs := p.preqs ++ [(qid, index)] })
      else q
  let s2 : State := { s1 with parcels := s1.parcels.map fun (p : Nat × Parcel) => (p.1, parcel p.2) }
  -- the images in the save area record it (R327, R384)
  let s2 := s2.parcels.foldl (fun s p => match p.2.image with
    | some im => if p.2.lid = lid then s.setImage p.1 im else s
    | none => s) s2
  s2.setLaunch lid { s2.launchOf lid with version := b }

/-- Whether a sub-team that a TRANSFER_REQ made pending is still so. -/
def State.stillPending (s : State) (qid index : Nat) : Bool :=
  let mine (x : Entry) : Bool := x.preqs.contains (qid, index)
  (s.places.any fun p => mine (s.entry p.1 p.2.1 p.2.2)) ||
  s.parcels.any fun p => (p.2.st != .ended && p.2.preqs.contains (qid, index)) ||
    (match p.2.image with | some im => im.teams.any fun t => t.entries.any mine | none => false)

/-- The count and signal of a TRANSFER_REQ: the count at ADDR + 8, then OP with VALUE at ADDR (R364). -/
def State.transferSignal (s : State) (ctx addr : Nat) (add : Bool) (v : Dword) (count : Nat) : Got × State :=
  if addr = 0 then (.ok [], s)
  else match s.signalWord ctx ((addr + 8) % 2 ^ 64) false (BitVec.ofNat 64 count) with
    | (.ok _, s1) => s1.signalWord ctx addr add v
    | r => r

def execTransferReq (qid : Nat) (s : State) : Out :=
  startPacket 5 qid s fun w s =>
    let q := s.queue qid
    match (if pktTgt w < q.rptr then s.launchAt qid (pktTgt w) else none) with
    | none => s.haltQueue qid 5
    | some l =>
      if l.st = .complete || l.st = .refused then
        (match s.transferSignal q.ctx (pktAddr w) (pktOp w == 1) (pktValue w) 0 with
         | (.ok _, s1) => s1.advance qid []
         | (g, s1) => s1.frontWait qid q.ctx (pktAddr w) true g)
      else if !((s.kernel l.kid).version (BitVec.ofNat 3 (pktVer w))).present then s.haltQueue qid 5
      else
        (s.requestTransfer l.lid (BitVec.ofNat 3 (pktVer w)) qid q.rptr).advance qid
          [{ index := q.rptr, ty := 5, lid := l.lid, addr := BitVec.ofNat 64 (pktAddr w), value := pktValue w, op := pktOp w }]

/-- Every pending sub-team has transferred or ended: the count and the signal are written (R328). -/
def execTransferReqComplete (qid pkt : Nat) (s : State) : Out :=
  match (s.queue qid).live.find? fun p => p.ty == 5 && p.index == pkt with
  | none => .next s
  | some p =>
    if s.stillPending qid pkt then .next s
    else
      let ctx := (s.queue qid).ctx
      match s.transferSignal ctx p.addr.toNat (p.op == 1) p.value p.count with
      | (.ok _, s1) => .next (s1.dropPkt qid pkt)
      | (.absent, s1) => .next (s1.frontWait qid ctx p.addr.toNat true .absent)
      | (.wait, s1) => .next s1
      | (.fail c, s1) => .next ((s1.frontWait qid ctx p.addr.toNat true (.fail c)).dropPkt qid pkt)

/-! ### ALGEBRA_LOAD (R104, R364) -/

def execAlgebraLoad (qid : Nat) (s : State) : Out :=
  startPacket 6 qid s fun w s =>
    let q := s.queue qid
    match s.readSpan q.ctx (pieces (pktAddr w) 64) with
    | (.ok bs, s1) =>
      (match Algebra.ofRecord (natOfBytes bs) with
       | none => s1.haltQueue qid 4
       | some a =>
         let (id, s2) := s1.newId
         s2.advance qid [{ index := q.rptr, ty := 6, lid := id, alg := a, slot := pktTgt w % 8 }])
    | (g, s1) => s1.frontWait qid q.ctx (pktAddr w) false g

/-- The slot of an ALGEBRA_LOAD loaded in a cluster, once no work of the context runs there and every launch that started before it has
placed its last parcel and has none switched out (R364). -/
def execAlgebraLoadCluster (qid cluster : Nat) (s : State) : Out :=
  let q := s.queue qid
  match q.live.find? fun p => p.ty == 6 with
  | none => .next s
  | some p =>
    let busy := s.launches.any fun l => l.2.ctx == q.ctx && decide (l.2.lid < p.lid) && l.2.st != .complete && l.2.st != .refused &&
      (l.2.st == .leasing || (l.2.ended.isNone && decide (l.2.next < l.2.grid.total)) ||
       s.parcels.any fun y => y.2.lid == l.2.lid && (y.2.st == .saved || y.2.st == .flushed))
    if 16 ≤ cluster || p.clusters.contains cluster || s.ctxOnCluster q.ctx cluster || busy then .next s
    else
      let s1 := s.setAlgebra q.ctx cluster p.slot p.alg
      let done := p.clusters ++ [cluster]
      if done.length = 16 then .next (s1.dropPkt qid p.index)
      else .next (s1.setQueue qid { q with live := q.live.map fun (y : Pkt) => if y.index = p.index then { y with clusters := done } else y })

/-! ### LAUNCH (R361 to R363, R375, R418) -/

/-- The grid of a LAUNCH packet: its own fields, or the kernel's default launch record with DEF (R332, R361). -/
def pktGrid (w : Nat) (k : Kernel) : Grid :=
  if w.testBit 179 then k.grid
  else
    { x := bitsOf w 95 64, y := bitsOf w 127 96, z := bitsOf w 159 128, order := bitsOf w 162 160, swz := bitsOf w 168 163 + 1,
      start := bitsOf w 171 169, runahead := w.testBit 172, chk := w.testBit 173, idemp := w.testBit 174, pair := w.testBit 175,
      ldnf := w.testBit 176, lrnd := w.testBit 177, lw := w.testBit 178 }

/-- The launch that a packet describes. -/
def pktLaunch (q : Queue) (w lid : Nat) (g : Grid) : Launch :=
  { lid := lid, ctx := q.ctx, qid := q.qid, pkt := q.rptr, kid := bitsOf w 63 32, grid := g, args := BitVec.ofNat 64 (bitsOf w 255 192),
    sigaddr := BitVec.ofNat 64 (bitsOf w 319 256), sigval := BitVec.ofNat 64 (bitsOf w 383 320), sigadd := w.testBit 488,
    stack := BitVec.ofNat 64 (bitsOf w 447 384), tvec := BitVec.ofNat 32 (bitsOf w 479 448), stksz := bitsOf w 487 480, cor := w.testBit 180,
    cls := q.cls, version := BitVec.ofNat 3 g.start }

/-- The launches of a COR launch's group, as if none of their parcels had started. -/
def State.newGroup (s : State) (prev l : Launch) : List Launch :=
  (s.group prev ++ [l]).map fun (y : Launch) => { y with next := 0, st := .admitting, ended := none }

/-- How many parcels a group has. -/
def groupSize (g : List Launch) : Nat := g.foldl (fun (n : Nat) (y : Launch) => n + y.grid.total) 0

/-- Whether a COR launch's group cannot all be resident on a device with no other work (R418; log entry 42). -/
def State.groupTooBig (s : State) (prev l : Launch) : Bool :=
  let g := s.newGroup prev l
  let t : State := { s.idle with launches := g.foldl (fun (m : Store Launch) y => Store.put m y.lid y) [] }
  decide (32768 < groupSize g) || (t.placeAll (g.map Launch.lid)).isNone

/-- Whether an address that places a parcel of a COR launch's group has to wait to be read (R371): the LAUNCH is not judged before. -/
def State.groupWaits (s : State) (q : Queue) (l : Launch) : Bool :=
  l.cor && 0 < l.pkt && (match s.launchAt q.qid (l.pkt - 1) with
    | none => false
    | some p =>
      let g := s.newGroup p l
      decide (groupSize g ≤ 32768) && g.any fun y => (List.range y.grid.total).any fun i => (s.dieFor y i).1 == .wait)

/-- The conditions under which a LAUNCH is refused (R363). -/
def State.launchBad (s : State) (q : Queue) (l : Launch) : Bool :=
  let k := s.kernel l.kid
  let g := l.grid
  (s.kernels.look l.kid).isNone || k.ctx != q.ctx || decide (g.x * g.y * g.z = 0) || decide (2 ^ 32 ≤ g.x * g.y * g.z) ||
  decide (5 ≤ g.order) || (g.swz != 1 && decide (2 ≤ g.order)) || !(k.version (BitVec.ofNat 3 g.start)).present ||
  decide (64 < l.stksz) || decide (l.stack.toNat % 4096 ≠ 0) || (decide (l.tvec.toNat % 4 ≠ 0) && l.tvec != 0xFFFFFFFF) ||
  decide (l.sigaddr.toNat % 8 ≠ 0) ||
  (l.cor && (match (if 0 < l.pkt then s.launchAt l.qid (l.pkt - 1) else none) with
    | none => true
    | some p => s.groupTooBig p l))

/-- The units of a context's LEASED windows, each with its window. -/
def State.leasedUnits (s : State) (ctx : Nat) : List (Nat × Nat) :=
  ((s.ctxOf ctx).wins.filter fun w => w.2.v && w.2.cls == 0).flatMap fun w => (List.range w.2.size).map fun i => (w.1, w.2.base + i)

/-- Whether the tables of a context's LEASED units can be read now (R410). -/
def State.unitsUp (s : State) (ctx : Nat) : Bool × State :=
  (s.leasedUnits ctx).foldl (fun (a : Bool × State) u =>
    if !a.1 then a
    else match a.2.walk ctx (u.2 * 65536) with
      | (.wait, t) => (false, t)
      | (_, t) => (true, t)) (true, s)

/-- The lease check of a launch (R375): each unit of each LEASED window is leased, or reported missing. A malformed entry is recorded and is no
absent unit: accesses to it are refused (R121; log entry 90). -/
def State.leaseCheck (s : State) (lid : Nat) : State :=
  let ctx := (s.launchOf lid).ctx
  let s1 := (s.leasedUnits ctx).foldl (fun s u =>
    match s.walk ctx (u.2 * 65536) with
    | (.leaf _, t) => t.takeLease lid u.2
    | (.malformed, t) => t.postBadPage ctx (u.2 * 65536) 7 {}
    | (_, t) =>
      let t1 := t.postRecord ctx { kind := 3, win := u.1, va := BitVec.ofNat 64 (u.2 * 65536), part := partOf (u.2 * 65536), lid := lid }
      t1.setLaunch lid { t1.launchOf lid with missing := (t1.launchOf lid).missing ++ [u.2] }) s
  s1.setLaunch lid { s1.launchOf lid with st := if (s1.launchOf lid).missing.isEmpty then .admitting else .leasing }

/-- A LAUNCH packet starts a launch, or is refused (R362, R363). -/
def execLaunch (qid : Nat) (s : State) : Out :=
  startPacket 1 qid s fun w s =>
    let q := s.queue qid
    let (lid, s1) := s.newId
    let l := pktLaunch q w lid (pktGrid w (s.kernel (bitsOf w 63 32)))
    let up := s.unitsUp q.ctx
    if s.groupWaits q l then s
    else if s.launchBad q l then s.haltQueue qid 3
    else if !up.1 then up.2
    else
      let s2 := (s1.setLaunch lid l).advance qid [{ index := q.rptr, ty := 1, lid := lid }]
      s2.leaseCheck lid

end Sys2Proof.Machine
end

