-- ==== Sys2Proof/Machine/Select.lean ====
section
/-! DEFINITION. The selection of an entry (R61, R62, R66), the hardware PC comparators (R304), a core's clock with the counter tree
(R341, R342), and what the step's turn leads to. -/

namespace Sys2Proof.Machine

/-- The teams of a slot with sub-teams at a join whose siblings can fuse: their transfer has waited for registers (R323, R326). -/
def State.joinsDue (s : State) (c sl : Nat) : List Nat :=
  ((s.slot c sl).entries.filterMap fun x => match x.2.st, x.2.stack with
    | .atJoin, y :: _ => if s.fusable c sl x.2.team y.split then some x.2.team else none
    | _, _ => none).dedup

/-- Brings a slot's entries up to date before a selection: elapsed stall counts (R61), parked entries (R130), yields (R62), ends of run-ahead
(R75), fusions that have waited (R326). -/
def State.settleSlot (s : State) (c sl : Nat) : State :=
  let now := (s.core c).cycle
  let s0 := ((s.slot c sl).entries.map Prod.fst).foldl (fun s e =>
    match (s.entry c sl e).st with
    | .stalled till => if till ≤ now then s.makeReady c sl e else s
    | _ => s) s
  let s1 := (s0.joinsDue c sl).foldl (fun s t => s.fuseAll c sl t) s0
  ((s1.slot c sl).entries.map Prod.fst).foldl (fun s e =>
    let x := s.entry c sl e
    match x.st with
    | .ready =>
      (match s.readiness c sl e with
       | .parked => s.setEntry c sl e { x with st := .parked, since := now }
       | .yes | .xfer => if x.yielded then
           s.setEntry c sl e { x with yielded := false, stamp := (s.slot c sl).maxStamp + 1 } else s
       | _ => s)
    | .parked => if (s.missingPages c sl e).isEmpty then s.makeReady c sl e else s
    | .runahead =>
      (match x.ra with
       | some ra => if s.blockGone ra || x.pend.isSome || (s.parcel (s.team c sl x.team).pid).st != .resident then s.endRunAhead c sl e else s
       | none => s)
    | _ => s) s1

/-- Brings a slot and the lower slots of its core up to date, which come before it in a core cycle (R66). -/
def State.settle (s : State) (c sl : Nat) : State := (List.range (sl + 1)).foldl (fun s n => s.settleSlot c n) s

/-- Whether a transfer of the slot is at the microcode rank, at an instruction that has been selected or after a join: nothing of another rank
issues (R61, R323). A join at which every sibling waits has not fused because its transfer waits. -/
def State.xferWaits (s : State) (c sl : Nat) : Bool :=
  (s.slot c sl).entries.any fun x =>
    (x.2.st == .xfer && (s.parcel (s.team c sl x.2.team).pid).runs) ||
    (x.2.st == .atJoin && (match x.2.stack with
      | y :: _ => s.fusable c sl x.2.team y.split
      | [] => false))

/-- Whether some entry of a slot is due at the restore rank (R61, R76). -/
def State.restoreDue (s : State) (c sl : Nat) : Bool :=
  !s.xferWaits c sl &&
  (s.slot c sl).entries.any fun x => x.2.st == .restore &&
    (match x.2.ra with | some ra => s.blockGone ra | none => true)

/-- The oldest stamp of a list of entries; the lower index on a tie (R61). -/
def oldest : List (Nat × Entry) → Option Nat
  | [] => none
  | x :: xs => some (xs.foldl (fun a b => if b.2.stamp < a.2.stamp then b else a) x).1

/-- Whether an entry's next instruction is one of those that take effect in slot order within a core cycle (R66, R264, R265). -/
def Entry.slotOrdered (x : Entry) : Bool := match x.ibuf with | some (.words ws) => Sys2Proof.Machine.slotOrdered (instrOf ws) | _ => false

/-- Entries of normal rank that can be selected. One whose instruction takes effect in slot order is ready from the next cycle on where a
higher slot has issued such an instruction in this one (R66). -/
def State.normals (s : State) (c sl : Nat) : List (Nat × Entry) :=
  (s.slot c sl).entries.filter fun x => x.2.st == .ready && x.2.held.isEmpty && !x.2.debug &&
    (s.parcel (s.team c sl x.2.team).pid).runs && (s.readiness c sl x.1 == .yes || s.readiness c sl x.1 == .xfer) &&
    !(x.2.slotOrdered && decide (sl < (s.core c).barNext))

/-- The scheduler's choice in a cycle in which the pipe has no pass left (R61): a transfer whose registers have come, while one that waits
lets nothing else issue; then restores from run-ahead; then of the entries of normal rank one whose wait count has reached 64, else the oldest
stamp; run-ahead issues only when no entry of normal rank is ready. -/
def State.pick (s : State) (c sl : Nat) : Option Nat :=
  let x := s.slot c sl
  let now := (s.core c).cycle
  if now < x.free then none
  else match x.entries.find? fun e => e.2.st == .xfer && (s.parcel (s.team c sl e.2.team).pid).runs && s.readiness c sl e.1 != .xfer with
  | some e => some e.1
  | none =>
    if s.xferWaits c sl || s.restoreDue c sl then none else
    let ns := s.normals c sl
    let late := ns.filter fun e => decide (e.2.since + 64 ≤ now)
    if !late.isEmpty then oldest late
    else if !ns.isEmpty then oldest ns
    else oldest (x.entries.filter fun e => e.2.st == .runahead && decide (e.2.till ≤ now) && (s.readiness c sl e.1 == .yes))

/-- Whether an instruction is a release (R151). -/
def isRelease (i : Instr) : Bool :=
  match longOf i with
  | .stRel .. | .fenceRel .. | .fenceAr .. | .exit .. => true
  | .atom _ o => o.var == .rel
  | _ => false

/-- Whether a sleeping instruction waits for unacknowledged writes or earlier loads as a release or fence (R151, R341). -/
def Entry.drains (x : Entry) : Bool :=
  let i := match x.ibuf with | some (.words ws) => instrOf ws | _ => .unassignedOpcode []
  match x.st with
  | .asleep (.release ..) => true
  | .asleep (.writes _) => isRelease i
  | .asleep (.acquire _) => (match longOf i with | .fenceAcq _ => true | _ => false)
  | _ => false

/-- Whether a context save waits for parked or refused writes of an entry's team (R134). -/
def State.saveDrains (s : State) (c sl : Nat) (x : Entry) : Bool :=
  (match (s.parcel (s.team c sl x.team).pid).st with | .saving .. => true | _ => false) &&
  s.reqs.any fun r => decide (r.src = .team c sl x.team) && r.kind.isWrite && (match r.st with | .parked _ | .refused .. => true | _ => false)

/-- Whether a sub-team sleeps in an `ACWAIT` that covers a copy which waits for an absent page: it is parked (R130, R257). -/
def State.copyParked (s : State) (c sl e : Nat) : Bool :=
  match (s.entry c sl e).st with
  | .asleep (.copies ..) => !(s.missingPages c sl e).isEmpty
  | _ => false

/-- The leaf that a cycle without a pass counts: the first reason in table order that holds for some entry (R341, R342). -/
def State.stallLeaf (s : State) (c sl : Nat) : Nat :=
  let es := (s.slot c sl).entries
  let now := (s.core c).cycle
  -- entries with a next instruction to issue: ready, within a stall count, or in run-ahead
  let next := es.filter fun x => match x.2.st with | .ready | .stalled _ | .runahead => true | _ => false
  let rd (r : Ready) : Bool := next.any fun x => s.readiness c sl x.1 == r
  -- only a sub-team that would issue is parked by its next instruction: for any other the load is a pending scoreboard bit
  let pending := next.any fun x => x.2.st != .ready && s.readiness c sl x.1 == .parked
  let asleep (f : Wait → Bool) : Bool := es.any fun x => match x.2.st with | .asleep w => f w | _ => false
  if es.isEmpty then 0x30
  else if rd .fetch then 0x20
  else if rd .dep || pending || es.any (fun x => x.2.st == .restore) then 0x21
  else if next.any (fun x => match x.2.st with | .stalled till => decide (now < till) | .runahead => decide (now < x.2.till) | _ => false) then 0x22
  else if es.any (fun x => x.2.st == .parked || s.copyParked c sl x.1) then 0x23
  else if asleep (fun w => match w with | .copies .. => true | _ => false) then 0x24
  else if asleep (fun w => match w with | .mon .. | .noMon .. | .monLost _ => true | _ => false) then 0x25
  else if asleep (fun w => match w with | .bar _ | .qpush .. | .qpop .. | .flag _ | .phase .. => true | _ => false) ||
    next.any (fun x => !x.2.held.isEmpty) then 0x26
  else if es.all (fun x => x.2.st == .atJoin) then 0x27
  else if es.any (fun x => x.2.drains || s.saveDrains c sl x.2) then 0x28
  else if rd .tagfull then 0x29
  else 0x2F

/-- The leaf that a slot counts for the present cycle (R341, R342). -/
def State.leafNow (s : State) (c sl : Nat) : Nat :=
  match (s.slot c sl).leaves with
  | l :: _ => l
  | [] => if s.xferWaits c sl then 0x03 else s.stallLeaf c sl

/-- One cycle of a slot: a leaf of its counter tree increments (R341), entries that cannot be selected are not yet ready. -/
def State.tickSlot (s : State) (c sl : Nat) : State :=
  let now := (s.core c).cycle
  let leaf := s.leafNow c sl
  let s1 := ((s.slot c sl).entries.map Prod.fst).foldl (fun s e =>
    let x := s.entry c sl e
    if x.st == .ready && s.readiness c sl e != .yes && s.readiness c sl e != .xfer then s.setEntry c sl e { x with since := now + 1, stamp := now + 1 } else s) s
  let x := s1.slot c sl
  s1.setSlot c sl { x with leaves := x.leaves.drop 1, ctr := x.ctr.put leaf (x.ctr.get 0 leaf + 1) }

/-- Whether an event that the spec ties to a cycle is due on a core: then its clock does not move on (log entry 3). -/
def State.coreDue (s : State) (c : Nat) : Bool :=
  let now := (s.core c).cycle
  (s.placesOn c).any fun p => match (s.entry p.1 p.2.1 p.2.2).st with
    | .asleep (.mon _ _ since) => decide (since + 65536 ≤ now)
    | .asleep (.noMon _ since) => decide (since + 1024 ≤ now)
    | _ => false

/-- Whether the instruction that a slot would issue takes effect in slot order. -/
def State.barPick (s : State) (c sl : Nat) : Bool :=
  match s.pick c sl with
  | some e => (s.entry c sl e).slotOrdered
  | none => false

/-- The entry that a slot issues now. Barrier, queue and flag instructions of one core cycle take effect in ascending slot order (R66, R264,
R265): within the cycle such an instruction comes after those of lower slots. -/
def State.chosen (s : State) (c sl : Nat) : Option Nat :=
  if s.barPick c sl && (List.range sl).any fun n => decide ((s.core c).barNext ≤ n) && s.barPick c n then none
  else s.pick c sl

/-- A core cycle passes, when no slot of the core can issue in it (R61). -/
def State.tickCore (s : State) (c : Nat) : State :=
  let s1 := s.settle c 3
  if s1.coreDue c || (List.range 4).any (fun sl => (s1.chosen c sl).isSome ||
      (s1.restoreDue c sl && decide ((s1.slot c sl).free ≤ (s1.core c).cycle))) then s1
  else
    let s2 := (List.range 4).foldl (fun s sl => s.tickSlot c sl) s1
    s2.setCore c { s2.core c with cycle := (s2.core c).cycle + 1, barNext := 0 }

/-! ### Control cores -/

/-- Whether a control stream has stopped at a command boundary: its context is stopped, or its group is being saved (R383, R385,
R390). -/
def State.ctlStopped (s : State) (cl : Nat) : Bool :=
  let x := s.ctl cl
  (s.ctxOf (s.launchOf x.lid).ctx).stopped ||
  s.parcels.any fun p => p.2.lid == x.lid && clusterOf p.2.core == cl && (match p.2.st with | .saving .. => true | _ => false)

/-- Whether a control core's next instruction can issue (R266, R267). -/
def State.ctlReady (s : State) (cl : Nat) : Bool :=
  let x := s.ctl cl
  x.st == .ready && !s.ctlStopped cl && decide (x.free ≤ x.cycle) &&
  (match x.ibuf with
   | none => false
   | some .refused => true
   | some (.words ws) =>
     let us := usesOf 1 true (instrOf ws)
     !(s.reqs.any fun r => decide (r.src = .control cl) && (match r.dest with
       | some (cls, reg, n, _) => usesMeet us cls reg n
       | none => false)))

/-- A control stream whose stall count has elapsed is ready (R50). -/
def State.settleCtl (s : State) (cl : Nat) : State :=
  let x := s.ctl cl
  match x.st with
  | .stalled till => if till ≤ x.cycle then s.setCtl cl { x with st := .ready } else s
  | _ => s

/-- A control core's cycle passes. -/
def State.tickCtl (s : State) (cl : Nat) : State :=
  let s1 := s.settleCtl cl
  let x := s1.ctl cl
  let due := match x.st with
    | .asleep (.wfi since) => decide (since + 65536 ≤ x.cycle)
    | _ => false
  if due || s1.ctlReady cl then s1 else s1.setCtl cl { x with cycle := x.cycle + 1 }

/-! ### What a turn leads to -/

/-- What a step does: an instruction or event acts on a state, or the state is final, or the schedule named no move. -/
inductive Move where
  | run (i : Instr) (s : State)
  | stay (s : State)
  | bad
  deriving Repr

/-- Whether a hardware PC comparator fires at an entry's PC (R303, R304). -/
def State.comparatorHit (s : State) (c sl e : Nat) : Bool :=
  let x := s.entry c sl e
  let ctx := (s.launchOf (s.parcel (s.team c sl x.team).pid).lid).ctx
  !x.brkSkip && x.ra.isNone &&
  (s.core c).cmps.any fun m => m.2.ctx == ctx && m.2.version == x.version && m.2.pc == x.pc

/-- The trap of a comparator at the instruction that has been fetched, before its checks (R183 row 1): LANES are its active lanes, and
the frame keeps the steps that a forerunner expansion has completed (R302, R312). -/
def State.comparatorTrap (s : State) (c sl e : Nat) (words : List Word) : State :=
  let x := s.iss c sl e (instrOf words)
  x.take s { x.trap 0x0A with byCmp := true }

/-- The trap of a failed fetch, of the whole sub-team (R183 row 2). Its frame holds no words: LEN is 0 and NPC the PC, in both streams (log entry
31: the model's choice). -/
def State.fetchTrap (s : State) (c sl e : Nat) : State :=
  let x := s.entry c sl e
  s.takeTrap c sl e [] x.pc (TrapInfo.atRow { cause := 0x03, ustep := x.ustep } x.mask [])

/-- An entry's instruction issues, outside run-ahead: a comparator that it was resumed past can fire again from then on (R303), an
instruction that is no forerunner clears `%ustep` (R312), and one that takes effect in slot order is noted (R66). -/
def State.begins (s : State) (c sl e : Nat) (i : Instr) : State :=
  let x := s.entry c sl e
  if x.ra.isSome then s
  else
    let s1 := s.setEntry c sl e { x with brkSkip := false, ustep := if isForerunner i then x.ustep else 0 }
    if slotOrdered i then s1.setCore c { s1.core c with barNext := sl + 1 } else s1

/-- The move of a slot: its chosen entry issues. -/
def State.moveSlot (s : State) (c sl : Nat) : Move :=
  let s1 := s.settle c sl
  match s1.chosen c sl with
  | none => .stay s1
  | some e =>
    let x := s1.entry c sl e
    let words := match x.ibuf with | some (.words ws) => ws | _ => []
    if x.st != .xfer && s1.comparatorHit c sl e then .stay (s1.comparatorTrap c sl e words)
    else if s1.readiness c sl e = .xfer then .stay (s1.setEntry c sl e { x with st := .xfer })
    else match x.ibuf with
      | some (.words ws) => .run (instrOf ws) { s1.begins c sl e (instrOf ws) with cur := .team c sl e }
      | _ => if x.ra.isSome then .stay (s1.endRunAhead c sl e)
             else .stay (s1.fetchTrap c sl e)

/-- The move of a control core. -/
def State.moveCtl (s : State) (cl : Nat) : Move :=
  let s1 := s.settleCtl cl
  if s1.ctlReady cl then
    match (s1.ctl cl).ibuf with
    | some (.words ws) => .run (instrOf ws) { s1 with cur := .control cl }
    | _ => .stay (s1.takeCtlTrap cl [] (s1.ctl cl).pc { cause := 0x03 })
  else .stay s1

/-- What the state's turn leads to (log entry 1). -/
def State.move (s : State) : Move :=
  match s.turn with
  | .issue c sl => s.moveSlot c sl
  | .control cl => s.moveCtl cl
  | .clock c => .stay (s.tickCore c)
  | .clockControl cl => .stay (s.tickCtl cl)
  | .event i => if i.isEvent then .run i { s with cur := .none } else .bad

/-- What the host writes to its own memory meanwhile (R163; log entry 81). -/
def State.hostWrites (s : State) : State :=
  match Config.hostWrite s.tick with
  | some w => s.hostStore w.1 w.2
  | none => s

/-- The turn passes on: the host's own writes, and the next unit, are outside choices (log entries 1 and 81). -/
def State.passTurn (s : State) : State :=
  { s.hostWrites with turn := Config.schedule s.tick, tick := s.tick + 1, cur := .none }

/-! ### How an instruction comes to be the next one (log entry 5) -/

/-- A kernel of one version: 256 registers and a code section of 64 KiB in each stream. -/
def oneKernel : Kernel :=
  { kid := 1, ctx := 1, obj := 1, name := [], w := 0, teams := 1, tarn := 0, nbar := 32, wins := [],
    vers := [{ present := true, regs := 256, scratch := 4096, team := (65536, 65536), control := some (131072, 65536) }],
    grid := {}, frames := [], maps := [], relocs := [] }

/-- A state in which a launch of one parcel of one team runs on core 0, with the words fetched for its entry, whose turn is
next; an instruction of the control stream alone is fetched on control core 0. Everything that work on a core needs stands: a
context, a kernel, the launch, the parcel with its barriers, the team's entry with every lane active (log entry 5). -/
def State.withFetched (s : State) (ws : List Word) : State :=
  let launch : Launch := { lid := 1, ctx := 1, kid := 1, next := 1, st := .admitting, tvec := 0xFFFFFFFF }
  let parcel : Parcel := { pid := 1, lid := 1, core := 0, scrSize := 4096, teams := 1,
                           bars := List.replicate 32 { expected := 1 } }
  let s1 : State := { s with
    ctxs := s.ctxs.put 1 { desc := { ctxid := 1 } }
    kernels := s.kernels.put 1 oneKernel
    launches := s.launches.put 1 launch
    parcels := s.parcels.put 1 parcel }
  let team : Team := { pid := 1, index := 0, w := 0, tvec := 0xFFFFFFFF }
  let s2 := s1.setSlot 0 0 { teams := [(0, team)] }
  if (streamsOf (op9Of (instrOf ws))).1 || op9Of (instrOf ws) == 0 then
    { s2.setEntry 0 0 0 { team := 0, mask := [0xFFFFFFFF], ibuf := some (.words ws) } with turn := .issue 0 0 }
  else
    { s2.setCtl 0 { lid := 1, tvec := 0xFFFFFFFF, st := .ready, ibuf := some (.words ws) } with turn := .control 0 }

end Sys2Proof.Machine
end

