-- ==== Sys2Proof/Machine/Preempt.lean ====
section
/-! DEFINITION. Pre-emption (R77, R78, R381 to R391): switching a parcel out by drain, flush or save, the save image, work that lands
while its owner is away, and the restore. -/

namespace Sys2Proof.Machine

/-! ### Time (R78, R310, R411) -/

/-- Core cycles of a number of microseconds at the present core clock (R411). -/
def State.micros (s : State) (n : Nat) : Nat := n * s.wh.clock

/-- The sub-teams of a parcel on its core. -/
def State.entriesOfParcel (s : State) (pid : Nat) : List Entry :=
  (s.placesOn (s.parcel pid).core).filterMap fun p =>
    let x := s.entry p.1 p.2.1 p.2.2
    if (s.team p.1 p.2.1 x.team).pid = pid then some x else none

/-- How long a sub-team has slept in `MONWAIT`. -/
def Entry.slept (now : Nat) (x : Entry) : Option Nat :=
  match x.st with
  | .asleep (.mon _ _ since) | .asleep (.noMon _ since) => some (now - since)
  | _ => none

/-- The least time that a parcel's sub-teams have slept, where every live one is asleep in `MONWAIT` (R78). -/
def State.parcelSlept (s : State) (pid : Nat) : Option Nat :=
  let times := (s.entriesOfParcel pid).map (Entry.slept (s.core (s.parcel pid).core).cycle)
  if times.isEmpty || times.any Option.isNone then none else (times.filterMap id).min?

/-! ### Drain, flush, save (R382, R383, R385) -/

/-- The parcel's estimate: the smallest report of its live teams (R310). -/
def State.estimate (s : State) (pid : Nat) : Nat :=
  let ts := (s.core (s.parcel pid).core).slots.flatMap fun x => (x.2.teams.map Prod.snd).filter fun t => t.pid == pid
  ((ts.map fun t => (t.report.getD 0).toNat).min?).getD 0

/-- The parcels that are saved and restored with a parcel (R385). -/
def State.groupOf (s : State) (pid : Nat) : List Nat :=
  let p := s.parcel pid
  let k := s.kernel (s.launchOf p.lid).kid
  if k.hasControl || decide (0 < k.tarn) then
    (s.parcels.filter fun q => q.2.lid == p.lid && q.2.onCore && clusterOf q.2.core == clusterOf p.core).map Prod.fst
  else [pid]

/-- A save begins: the sub-teams of the group stop at instruction boundaries (R383). -/
def State.beginSave (s : State) (pid : Nat) : State :=
  (s.groupOf pid).foldl (fun s q =>
    let p := s.parcel q
    match p.st with
    | .saving .. => s
    | _ => s.setParcel q { p with st := .saving false (s.core p.core).cycle }) s

/-- The parcel as absent or present in the ports' translation tables (R388). -/
def State.setAbsent (s : State) (pid core : Nat) (absent : Bool) : State :=
  s.mapPtt fun t => t.map fun (e : Ptt) => if e.pid = pid then { e with core := core, absent := absent } else e

/-- A parcel flushed (R382): its writes already issued go on, its state is discarded, and it starts again later in its current
version, its pending transfer kept (R327). -/
def State.flush (s : State) (pid : Nat) : State :=
  let p := s.parcel pid
  let es := s.entriesOfParcel pid
  let version := match es with | x :: _ => x.version | [] => p.version
  let pend := (es.filterMap Entry.pend).head?
  let s1 := s.clearTeams pid
  let s2 := s1.setParcel pid { p with
    st := .flushed, bars := [], sig := 0, busy := false, version := version, image := some {}
    pend := if pend = some version then none else pend
    preqs := if pend = some version then [] else (es.flatMap Entry.preqs).dedup }
  (s2.setAbsent pid p.core true).wfiEvent (clusterOf p.core)

/-- A parcel switched out by the method that its estimate chooses (R382; log entry 43). -/
def State.switchOut (s : State) (pid : Nat) (stop : Bool) : State :=
  let p := s.parcel pid
  let l := s.launchOf p.lid
  let e := s.estimate pid
  if 57344 ≤ e && !stop then s.setParcel pid { p with st := .draining (s.core p.core).cycle }
  else if l.grid.idemp && e < 8192 && !p.busy then s.flush pid
  else s.beginSave pid

/-- A draining parcel has not exited within 200 µs: it is saved (R382). -/
def execDrainTimeout (pid : Id) (s : State) : Out :=
  match s.parcels.look pid with
  | none => .next s
  | some p =>
    match p.st with
    | .draining since => if since + s.micros 200 ≤ (s.core p.core).cycle then .next (s.beginSave pid) else .next s
    | _ => .next s

/-! ### PARCEL_SAVE (R383 to R386, R391) -/

/-- The teams of a parcel on its core, by team index: slot and position. -/
def State.teamsOf (s : State) (pid : Nat) : List (Nat × Nat) :=
  let all := (s.core (s.parcel pid).core).slots.flatMap fun x =>
    (x.2.teams.filter fun t => t.2.pid == pid).map fun t => (t.2.index, x.1, t.1)
  (List.range 32).flatMap fun i => (all.filter fun y => y.1 == i).map Prod.snd

/-- Whether a request may be under way as the parcel is captured: a lane copy, a parked load, a write that a release holds. -/
def Req.mayStay (r : Req) : Bool :=
  match r.st, r.kind with
  | .held, _ => true
  | .parked _, k => !k.isWrite
  | .sent, .copyIn .. | .sent, .copyOut .. => true
  | _, _ => false

/-- Whether a parcel can be captured (R383): its accesses are performed or parked loads, no write of it is parked, run-ahead has ended and
no matrix command of its core is unfinished. -/
def State.quiet (s : State) (pid : Nat) : Bool :=
  let p := s.parcel pid
  let srcs := (s.teamsOf pid).map fun t => Src.team p.core t.1 t.2
  (s.reqs.all fun r => !srcs.contains r.src || r.mayStay) && ((s.entriesOfParcel pid).all fun x => x.ra.isNone) &&
  s.ctls.all fun c => c.2.cmds.all fun m => m.finished || m.isTx || !(m.parcels.any fun y => y.2 == pid)

/-- Whether a cluster's control stream of a launch can be captured with its group. -/
def State.ctlQuiet (s : State) (lid cl : Nat) : Bool :=
  (s.ctl cl).lid != lid || (s.ctl cl).st == .off ||
  s.reqs.all fun r => r.src != .control cl || r.mayStay || (match r.st with | .refused .. => true | _ => false)

/-- The first team of a group with a refused write: its source. -/
def State.refusedTeam (s : State) (g : List Nat) : Option (Nat × Nat × Nat) :=
  g.findSome? fun q =>
    let c := (s.parcel q).core
    ((s.teamsOf q).find? fun t => !(s.teamRefused (.team c t.1 t.2)).isEmpty).map fun t => (c, t.1, t.2)

/-- The team's drain-point trap (R134, R383), taken by its lowest sub-team; one in run-ahead first ends its episode and is restored (R75,
R76). -/
def State.drainTeam (s0 : State) (c sl t : Nat) : State :=
  match (s0.slot c sl).entriesOf t with
  | [] => s0
  | e :: _ =>
    if (s0.entry c sl e).ra.isSome then s0.endRunAhead c sl e else
    let s := s0.clearSteps c sl e
    let x := s.entry c sl e
    let tm := s.team c sl t
    let l := s.launchOf (s.parcel tm.pid).lid
    let (ti, s1) := s.drainTrap (.team c sl t)
    match x.st with
    | .asleep _ => s1.takeTrap c sl e (fetchedWords x.ibuf) x.npc (TrapInfo.atRow { ti with ustep := x.ustep } x.mask (lanesOf x.act))
    | _ =>
      let (ws, s2) := s1.wordsAt c l.ctx ((s.kernel l.kid).version x.version) x.pc.toNat
      s2.takeTrap c sl e ws (x.pc + BitVec.ofNat 32 (4 * ws.length))
        (TrapInfo.atRow { ti with ustep := x.ustep } x.mask (s.iss c sl e (instrOf ws)).act)

/-- What a sleeping sub-team of a parcel waits for, in terms that hold on any core: an object of its own allocation by its offset
under core 256, one of a Tarn region by its core-in-cluster; a monitor is lost (R69, R384). -/
def Parcel.saveWait (p : Parcel) (w : Wait) : Wait :=
  match w with
  | .mon _ d _ | .noMon d _ => .monLost d
  | .phase c a ph => if c = p.core && p.base ≤ a && a < p.base + p.scrSize then .phase 256 (a - p.base) ph else .phase (c % 16) a ph
  | w => w

/-- A sub-team as the image holds it; `missing` is its missing-page count (R130). -/
def Parcel.saveEntry (p : Parcel) (missing : Nat) (x : Entry) : Entry :=
  let st : EState := match x.st with
    | .asleep w => .asleep (p.saveWait w)
    | .atJoin => .atJoin
    | .parked => .parked
    | _ => .ready
  { x with st := st
           missing := if x.st = .parked then missing else 0
           ibuf := match x.st with | .asleep _ => x.ibuf | _ => none }

/-- A byte range of a memory, from 0 on. -/
def cutBytes (m : Store Byte) (a n : Nat) : Store Byte :=
  (m.filter fun y => decide (a ≤ y.1) && decide (y.1 < a + n)).map fun y => (y.1 - a, y.2)

/-- The image of a parcel at the moment of its capture (R384, R385). -/
def State.capture (s : State) (pid group : Nat) : Image :=
  let p := s.parcel pid
  let ts := s.teamsOf pid
  let mask (b : BitVec 128) : BitVec 32 := ts.foldl (fun m t =>
    if b &&& teamBit t.1 t.2 = 0 then m else m ||| BitVec.ofNat 32 (2 ^ (s.team p.core t.1 t.2).index)) 0
  let k := s.core p.core
  { teams := ts.map fun t =>
      let ids := (s.slot p.core t.1).entriesOf t.2
      { team := { s.team p.core t.1 t.2 with late := [], busy := [] }, entries := ids.map fun e => p.saveEntry (s.missingPages p.core t.1 e).length (s.entry p.core t.1 e) }
    bars := p.bars.map fun b => (mask b.expected, mask b.arrived)
    scratch := cutBytes k.scratch p.base p.scrSize
    tarn := cutBytes k.scratch (scratchSize - p.tarn) p.tarn
    mx := if (s.kernel (s.launchOf p.lid).kid).hasControl then some k.mx else none
    core := p.core, group := group }

/-- Requests of a source handed to another; `ids` are the source's entries in order. -/
def State.handOver (s : State) (src dst : Src) (ids : List Nat) : State :=
  { s with reqs := s.reqs.map fun (r : Req) =>
      if r.src = src then { r with src := dst, noFill := true, owners := r.owners.filterMap fun o => ids.findIdx? (· == o) } else r }

/-- A parcel leaves its core: its image holds it from now on (R386), and every port has it absent (R388). `none` where the save area has no
room for the image, the group's first with the control image (R384, R385). -/
def State.takeAway (s0 : State) (pid group : Nat) : Option State :=
  let s := (s0.placesOn (s0.parcel pid).core).foldl (fun s q =>
    if (s.team q.1 q.2.1 (s.entry q.1 q.2.1 q.2.2).team).pid = pid then s.clearSteps q.1 q.2.1 q.2.2 else s) s0
  let p := s.parcel pid
  let im := s.capture pid group
  let l := s.launchOf p.lid
  let n := (s.imageBytes p im).length + (if pid = group && (s.kernel l.kid).hasControl then 16384 else 0)
  let s1 := (s.teamsOf pid).foldl (fun s t =>
    s.handOver (.team p.core t.1 t.2) (.away pid (s.team p.core t.1 t.2).index) ((s.slot p.core t.1).entriesOf t.2)) (s.setAbsent pid p.core true)
  let since := match p.st with | .saving _ n => n | _ => 0
  -- its requests are handed over, so nothing is orphaned as its teams leave the slots
  (s.saveRoom l.ctx pid n).map fun a =>
    (s1.clearTeams pid).setParcel pid { p with st := .saving true since, image := some { im with place := a, room := n }, bars := [] }

/-- The control stream of a group as its image holds it (R385), with slots a1 to a7. -/
def State.takeControl (s : State) (lid cl lead : Nat) : State :=
  let x := s.ctl cl
  if x.lid ≠ lid || x.st == .off then s
  else
    let wait (w : CWait) : CWait := match w with
      | .phase c a ph => (match s.parcelOn c lid with
          | some p => if p.base ≤ a && a < p.base + p.scrSize then .phase (256 + c % 16) (a - p.base) ph else .phase (c % 16) a ph
          | none => .phase (c % 16) a ph)
      | w => w
    let st : CState := match x.st with | .asleep w => .asleep (wait w) | _ => .ready
    let y : Control := { x with st := st, cmds := [], icache := [], dcache := [], late := [], hLate := [] }
    let set := (List.range 7).filterMap fun i => ((s.ctxOf (s.launchOf lid).ctx).alg.look (cl * 8 + i + 1)).map fun a => (i + 1, a)
    let p := s.parcel lead
    let s1 := s.setParcel lead { p with image := p.image.map fun (im : Image) => { im with control := some y, algs := set } }
    (s1.handOver (.control cl) (.away lead 32) [0]).setCtl cl { cmds := x.cmds, cycle := x.cycle, free := x.free, icache := x.icache }

/-- A retraining of an HBM stack starts (R410): its partitions hold their DRAM requests. -/
def State.trainStack (s : State) (k : Nat) : State :=
  let s1 := (List.range 8).foldl (fun s i => s.setPart (8 * k + i) { s.part (8 * k + i) with training := true }) s
  { s1 with wh := { s1.wh with tries := s1.wh.tries.put k 0, trainReq := s1.wh.trainReq.filter (· != k) } }.logEvent
    { cls := 5, unit := 1, index := k }

/-- The HBM stacks that an image's place in the save area lies on, block by block (R13, R123, R374). -/
def Image.stacks (im : Image) : List Nat :=
  ((List.range ((im.place + im.room + 511) / 512 - im.place / 512)).map fun i => partOf ((im.place / 512 + i) * 512) / 8).dedup

/-- Whether the image of a parcel is being written to an HBM stack (R391). -/
def Parcel.streamsTo (p : Parcel) (k : Nat) : Bool :=
  (match p.st with | .saving true _ => true | _ => false) && (match p.image with | some im => im.stacks.contains k | none => false)

/-- Whether the image of some parcel is being written to an HBM stack. -/
def State.streamsTo (s : State) (k : Nat) : Bool := s.parcels.any fun p => p.2.streamsTo k

/-- Whether some stack is being retrained. -/
def State.stackBusy (s : State) : Bool := s.parts.any fun p => p.2.training

/-- Whether a stack that an image lies on is being retrained: its stream pauses (R391). -/
def State.imageBusy (s : State) (im : Image) : Bool := s.stackBusy && im.stacks.any fun k => (s.part (8 * k)).training

/-- A save goes on (R383, R384): refused writes trap first; once the group is quiet its state is captured; at last the images have been
written, and retrainings that waited start (R391). -/
def execParcelSave (pid : Id) (s : State) : Out :=
  match s.parcels.look pid with
  | none => .next s
  | some p =>
    match p.st with
    | .saving false _ =>
      let g := s.groupOf pid
      if g.any fun q => (match (s.parcel q).st with | .saving .. => false | _ => true) then .next (s.beginSave pid)
      else match s.refusedTeam g with
        | some t => .next (s.drainTeam t.1 t.2.1 t.2.2)
        | none =>
          let cl := clusterOf p.core
          let lead := g.headD pid
          if g.all s.quiet && s.ctlQuiet p.lid cl then
            (match g.foldl (fun t q => t.bind fun s => s.takeAway q lead) (some s) with
             | some s1 => .next (if (s.kernel (s.launchOf p.lid).kid).hasControl then s1.takeControl p.lid cl lead else s1)
             | none => .next s)
          else .next s
    | .saving true _ =>
      if (match p.image with | some im => s.imageBusy im | none => false) then .next s
      else
        let s0 := s.setParcel pid { p with st := .saved }
        let s1 := (match p.image with | some im => s0.storeImage pid im | none => s0).wfiEvent (clusterOf p.core)
        .next ((s1.wh.trainReq.filter fun k => !s1.streamsTo k).foldl State.trainStack s1)
    | _ => .next s

/-- A lane copy of a switched-out parcel completes into its image, or reads it (R386). -/
def execSavedArrival (pid : Id) (n : Nat) (s : State) : Out :=
  match s.req? n with
  | none => .next s
  | some r => (match r.src with
      | .away q _ => if q = pid && r.asks then .next (s.serveReq r) else .next s
      | _ => .next s)

/-- A save is still under way at its deadline: the retrainings that wait for its stream start, the stream pauses for them, and the delay is logged
(R391). -/
def execSaveDeadlineExpiry (pid : Id) (s : State) : Out :=
  match s.parcels.look pid with
  | none => .next s
  | some p =>
    match p.st with
    | .saving true since =>
      let ctx := (s.launchOf p.lid).ctx
      let d := (s.ctxOf ctx).desc
      if since + s.micros (if d.savedl = 0 then 2000 else d.savedl) ≤ (s.core p.core).cycle then
        .next ((s.wh.trainReq.filter p.streamsTo).foldl (fun s k => (s.trainStack k).logEvent { cls := 9, unit := 1, index := k, ctx := ctx }) s)
      else .next s
    | _ => .next s

/-! ### PARCEL_RESTORE (R385, R389) -/

/-- What a restored sub-team waits for, on its new core. -/
def backWait (core base : Nat) (w : Wait) : Wait :=
  match w with
  | .phase c a ph => if c = 256 then .phase core (base + a) ph else .phase (16 * clusterOf core + c) a ph
  | w => w

/-- A team of an image placed in a slot; its position. -/
def State.bringTeam (s : State) (pid core base sl : Nat) (t : SavedTeam) : Nat × State :=
  let x := s.slot core sl
  let pos := x.freePos
  let now := (s.core core).cycle
  let s1 := s.setSlot core sl { x with teams := x.teams.put pos t.team }
  let (ids, s2) := t.entries.foldl (fun (a : List Nat × State) e =>
    let n := (a.2.slot core sl).freeIndex
    let st : EState := match e.st with | .asleep w => .asleep (backWait core base w) | w => w
    (a.1 ++ [n], a.2.setEntry core sl n { e with team := pos, st := st, since := now, stamp := now, till := now })) ([], s1)
  (pos, { s2 with reqs := s2.reqs.map fun (r : Req) =>
    if r.src = .away pid t.team.index then
      { r with src := .team core sl pos, port := core, owners := r.owners.filterMap fun o => ids[o]? }
    else r })

/-- A byte range of a memory replaced. -/
def pasteBytes (m : Store Byte) (a n : Nat) (new : Store Byte) : Store Byte :=
  let rest : Store Byte := m.filter fun y => !(decide (a ≤ y.1) && decide (y.1 < a + n))
  Store.setAll 0 rest (new.map fun y => (a + y.1, y.2))

/-- The arrival log of an image applied in order (R68, R255, R389). -/
def State.applyLog (s : State) (core base : Nat) (teams : List (Nat × Nat × Nat)) (log : List LogEnt) : State :=
  log.foldl (fun s e => match e with
    | .barrier off n => s.arrive core (base + off) n
    | .tag i id =>
      match teams.find? fun t => t.1 == i with
      | none => s
      | some (_, sl, pos) =>
        let t := s.team core sl pos
        match t.copies.find? fun k => k.id == id with
        | none => s
        | some k => s.setTeam core sl pos { t with copies := countDone k.tag t.copies }) s

/-- A parcel's image written into a core, its log applied and its bounce ring replayed (R389). -/
def State.bringBack (s : State) (pid core base b : Nat) (im : Image) : State :=
  let p := s.parcel pid
  let s0 := s.prepareCore core p.lid
  let k := s0.core core
  let scratch := pasteBytes (pasteBytes k.scratch base p.scrSize im.scratch) (scratchSize - p.tarn) p.tarn im.tarn
  let s1 := s0.setCore core { k with scratch := scratch, mx := im.mx.getD k.mx }
  let (teams, s2) := im.teams.foldl (fun (a : List (Nat × Nat × Nat) × State) t =>
    let sl := (b + t.team.index) % 4
    let (pos, s') := a.2.bringTeam pid core base sl t
    (a.1 ++ [(t.team.index, sl, pos)], s')) ([], s1)
  let wide (m : BitVec 32) : BitVec 128 := teams.foldl (fun w t => if m.getLsbD t.1 then w ||| teamBit t.2.1 t.2.2 else w) 0
  let free := s.freeBars core
  let bars := im.bars.zipIdx.map fun y => { phys := free.getD y.2 0, expected := wide y.1.1, arrived := wide y.1.2 : Bar }
  let s3 := s2.setParcel pid { p with core := core, base := base, st := .resident, image := none, bars := bars, room := none }
  let s4 := s3.applyLog core base teams im.log
  (s4.replayRing pid).setAbsent pid core false

/-- The sub-teams of a restored parcel become eligible: a lost monitor wakes with status 0, and every other wait is looked at again (R204,
R389). -/
def State.wakeRestored (s : State) (pid : Nat) : State :=
  let p := s.parcel pid
  let s1 := (s.phaseCheck p.core p.base p.scrSize).phaseCheck p.core (scratchSize - p.tarn) p.tarn
  (s1.teamsOf pid).foldl (fun s t =>
    let s2 := ((s.slot p.core t.1).entriesOf t.2).foldl (fun s e =>
      match (s.entry p.core t.1 e).st with
      | .asleep (.monLost d) => s.wakeMonitor p.core t.1 e d false
      | _ => s) s
    ((s2.wakeCopies p.core t.1 t.2).notify (.team p.core t.1 t.2))) s1

/-- A group's control stream on its new cluster, with slots a1 to a7 and the failure records of its finished commands (R272, R385). -/
def State.bringControl (s : State) (lead cl old : Nat) (im : Image) : State :=
  match im.control with
  | none => s
  | some y =>
    let mine := (s.ctl old).cmds.filter fun m => m.lid == y.lid
    let s1 := s.setCtl old { s.ctl old with cmds := (s.ctl old).cmds.filter fun m => m.lid != y.lid }
    let x := s1.ctl cl
    let wait (w : CWait) : CWait := match w with
      | .phase c a ph =>
        if 256 ≤ c then
          (match s1.parcelOn (16 * cl + (c - 256)) y.lid with
           | some p => .phase p.core (p.base + a) ph
           | none => .phase (16 * cl + (c - 256)) a ph)
        else .phase (16 * cl + c) a ph
      | .wfi _ => .wfi x.cycle
      | w => w
    let st : CState := match y.st with | .asleep w => .asleep (wait w) | w => w
    let s2 := s1.setCtl cl { y with st := st, cycle := x.cycle, free := x.cycle, till := x.cycle, cmds := x.cmds ++ mine, icache := x.icache }
    let ctx := (s.launchOf y.lid).ctx
    let s3 := im.algs.foldl (fun s a => s.setAlgebra ctx cl a.1 a.2) s2
    let back (r : Req) : Req := if r.src = Src.away lead 32 then { r with src := .control cl, port := 256 + cl } else r
    let s4 : State := { s3 with reqs := s3.reqs.map back }
    (((s4.notify (.control cl)).checkFence cl).wfiEvent cl)

/-- Saved parcels placed in turn, each on its core; `none` where a core cannot take one. -/
def State.bringAll (s : State) (at_ : Image → Nat) : List Nat → Option State
  | [] => some s
  | q :: rest =>
    let p := s.parcel q
    match p.image with
    | none => none
    | some im =>
      let core := at_ im
      let l := s.launchOf p.lid
      if !s.goesBack p core || s.kept core (some q) || s.claimed l.cls core then none
      else match s.takesWith l core (im.needs (s.kernel l.kid).teams) with
        | some (base, b) => ({ s.bringBack q core base b im with scan := scanPast core } : State).bringAll at_ rest
        | none => none

/-- The parcels that a saved parcel comes back with (R385). -/
def State.comrades (s : State) (p : Parcel) (im : Image) : List Parcel :=
  let k := s.kernel (s.launchOf p.lid).kid
  let inGroup (q : Parcel) : Bool := match q.image with
    | some y => q.lid == p.lid && q.st != .ended && q.st != .flushed && y.group == im.group
    | none => false
  if k.hasControl || decide (0 < k.tarn) then (s.parcels.filter fun q => inGroup q.2).map Prod.snd else [p]

/-- A saved parcel, with its group, brought back onto a core, once their images are complete (R77, R385, R386, R389): `none` where it cannot
come. The scan of R369 moves with the admission. -/
def State.comeBack (s : State) (p : Parcel) (im : Image) (core : Nat) : Option State :=
  let all := s.comrades p im
  let cl := clusterOf core
  let ready := all.all fun q => q.st == .saved && s.imageDone q.pid
  let streams := all.any fun q => (match q.image with | some y => y.control.isSome | none => false)
  if !ready || !s.goesBack p core || (streams && !((s.ctl cl).st == .off)) then none
  else (s.bringAll (fun y => if all.length ≤ 1 then core else 16 * cl + y.core % 16) (all.map Parcel.pid)).map fun s1 =>
    let s2 := all.foldl (fun s q => match q.image with | some y => s.bringControl q.pid cl (clusterOf y.core) y | none => s) s1
    (all.foldl (fun s q => s.wakeRestored q.pid) s2).wfiEvent cl

/-- A saved parcel, with its group, comes back on a core that can take it (R77, R385, R386, R389). -/
def execParcelRestore (pid : Id) (core : Nat) (s : State) : Out :=
  match s.parcels.look pid with
  | none => .next s
  | some p =>
    match p.st, p.image with
    | .saved, some im =>
      let l := s.launchOf p.lid
      if 256 ≤ core || (s.ctxOf l.ctx).stopped || s.wh.stopped || l.ended.isSome then .next s
      else .next ((s.comeBack p im core).getD s)
    | _, _ => .next s

/-! ### Reasons to switch a parcel out (R78, R366, R381) -/

/-- Whether a parcel that waits for admission finds no core: a saved one with its group, the next one of a launch with its co-resident group
(R381, R385, R418). -/
def State.starves (s : State) (l : Launch) (old : Option Nat) : Bool :=
  match old with
  | some q =>
    let p := s.parcel q
    (match p.st, p.image with
     | .saved, some im => (List.range 256).all fun c => (s.comeBack p im c).isNone
     | _, _ => (List.range 256).all fun c => !s.fits l old c)
  | none =>
    let g := s.group l
    if g.length ≤ 1 then (List.range 256).all fun c => !s.fits l none c
    else (s.placeAll ((g.filter Launch.waiting).map Launch.lid)).isNone

/-- The launches with a parcel that waits for a core and finds none. -/
def State.starved (s : State) : List Launch :=
  (s.launches.map Prod.snd).filter fun l => (s.waiters l).any (s.starves l)

/-- Whether a switched-out parcel may come back on a core, were there room (R367, R371, R372, R385). -/
def State.mayReturn (s : State) (p : Parcel) (core : Nat) : Bool :=
  let l := s.launchOf p.lid
  (l.cls == 0 || !s.reservedCore core) && (match p.st with
    | .saved => s.goesBack p core
    | _ => (s.dieFor l p.seq).1.allows core)

/-- Whether a parcel of a launch that finds no core waits for a core among others: one that it could be admitted to, were there room (R381). -/
def State.wantsCore (s : State) (l : Launch) (core : Nat) : Bool :=
  (s.waiters l).any fun w => s.starves l w && (match w with
    | some q => s.mayReturn (s.parcel q) core
    | none => (l.cls == 0 || !s.reservedCore core) && (s.dieFor l l.next).1.allows core)

/-- Whether a parcel on a core is on its way out. -/
def State.emptying (s : State) (core : Nat) : Bool :=
  s.parcels.any fun p => p.2.core == core && (match p.2.st with | .draining _ | .saving .. => true | _ => false)

/-- The switched-out parcel of its context that a resident parcel makes room for: one that finds no core and that may come back on this one.
None of the context's other parcels that could make room has slept longer (R78). -/
def State.makesRoom (s : State) (p : Parcel) : Option Nat :=
  let ctx := (s.launchOf p.lid).ctx
  let waits := (s.launches.map Prod.snd).filter (fun l => l.ctx == ctx) |>.flatMap fun l =>
    (s.waiters l).filterMap fun w => w.bind fun q => if s.starves l w then some q else none
  match s.parcelSlept p.pid with
  | none => none
  | some n => waits.find? fun w =>
      let q := s.parcel w
      s.mayReturn q p.core && (match q.room with | some c => !s.emptying c | none => true) && s.parcels.all fun y =>
        (s.launchOf y.2.lid).ctx != ctx || y.2.st != .resident || !s.mayReturn q y.2.core ||
        (match s.parcelSlept y.1 with | some m => decide (m ≤ n) | none => true)

/-- Firmware switches a parcel out: a stop of its context, a higher class that waits for a core, or room for a switched-out parcel of
the context, which keeps the room (R78, R381). -/
def execParcelSwitchOut (pid : Id) (s : State) : Out :=
  match s.parcels.look pid with
  | none => .next s
  | some p =>
    let l := s.launchOf p.lid
    let stop := (s.ctxOf l.ctx).stopped
    match p.st with
    | .resident =>
      if stop || s.starved.any (fun y => decide (y.cls < l.cls)) then .next (s.switchOut pid stop)
      else match s.makesRoom p with
        | some w => .next ((s.setParcel w { s.parcel w with room := some p.core }).switchOut pid stop)
        | none => .next s
    | .draining _ => if stop then .next (s.switchOut pid true) else .next s
    | _ => .next s

/-- A sub-team has been parked for longer than PARKT, or asleep in `ACWAIT` on a copy that is parked (R257), while another parcel waits for its
core (R381). -/
def execParkThresholdExpiry (core slot entry : Nat) (s : State) : Out :=
  match s.entry? core slot entry with
  | none => .next s
  | some x =>
    let pid := (s.team core slot x.team).pid
    let p := s.parcel pid
    let d := (s.ctxOf (s.launchOf p.lid).ctx).desc
    let limit := s.micros (if d.parkt = 0 then 50 else d.parkt)
    if (x.st == .parked || s.copyParked core slot entry) && p.st == .resident && decide (x.since + limit < (s.core core).cycle) &&
        s.starved.any (fun l => s.wantsCore l core) then
      .next (s.switchOut pid false)
    else .next s

end Sys2Proof.Machine
end

