-- ==== Sys2Proof/Machine/Ports.lean ====
section
/-! DEFINITION. The ports and the host (R137, R139, R163, R359, R380, R387, R388, R391, R407, R408, R410, R415): peers' and the host's accesses,
link retries, ports that go down, retraining, and lines that leave the Basin. -/

namespace Sys2Proof.Machine

/-! ### The module stops (R408) -/

/-- An uncorrectable error on the die-to-die fabric or in firmware state, which is logged as the module's (R408; log entry 87). -/
def execUncorrectableFabricError (s : State) : Out :=
  if s.wh.stopped then .next s
  else
    let (firmware, s1) := s.freeBool
    .next (if firmware then s1.fatal 5 0 else s1.fatal 4 21)

/-! ### Accesses of agents outside (R163, R387) -/

/-- The leaf through which an agent outside reaches bytes within one sector; `none` with the state where it waits or is refused. -/
def State.agentLeaf (s : State) (ctx va n : Nat) (k : Right) : Got × Leaf × State :=
  if (s.ctxs.look ctx).isNone || (s.bellOf ctx va).isSome || decide (2 ^ 52 < va + n) then (.fail 0x03, 0, s)
  else match s.translate ctx va with
    | (.absent, s1) =>
      if s1.classAt ctx va = 0 then (.fail 0x08, 0, s1)
      else (.wait, 0, s1.reportAbsent ctx va 0 0 0 0 (k != .r))
    | (.wait, s1) => (.wait, 0, s1)
    | (.malformed, s1) => (.fail (s1.malformedCause ctx va), 0, s1)
    | (.synonym, s1) => (.fail 0x0C, 0, s1)
    | (.ok l, s1) =>
      if !s1.grants ctx va l k then (.fail 0x03, 0, s1)
      else if s1.linkDown l then (.fail 0x0F, 0, s1)
      else if s1.pageWaits ctx va l || (k != .r && s1.beatHolds va n) then (.wait, 0, s1)
      else (.ok [], l, s1)

/-- Data that leaves over a port. -/
def State.sendOut (s : State) (port va : Nat) (bs : List Byte) : State :=
  let p := s.port port
  s.setPort port { p with out := p.out ++ [.data va bs], sent := p.sent + 1 }

/-- An acknowledgement or a refusal that leaves over a port. -/
def State.sendAck (s : State) (port : Nat) (cause : BitVec 8) : State :=
  let p := s.port port
  s.setPort port { p with acks := p.acks ++ [cause], sent := p.sent + 1 }

/-- A request that came in over a port. -/
def State.countIn (s : State) (port : Nat) : State :=
  let p := s.port port
  s.setPort port { p with recvd := p.recvd + 1 }

/-- A peer's packed addition (R159): its low half at once, its high half at the routed partition's next cycle, with no other write or atomic to
the word between them; the word that it answers with is what the two halves held. -/
def State.peerPacked (s : State) (ctx va : Nat) (l : Leaf) (op : AOp) (ty : Ty) (cur x : Nat) : State :=
  let ls : ALanes := [(0, BitVec.ofNat 64 x, 0)]
  let s1 := s.performWrite ctx va l ((bytesOfNat 2 (mergedResult op ty cur ls)).zipIdx.map fun b => (b.2, b.1))
  (s1.addReq { id := 0, kind := .atomic op ty [(va, ls)] none 1 [(0, BitVec.ofNat 64 cur)], src := .gone, port := 1024 + s1.ids,
               owners := [], ctx := ctx, lid := 0, tgt := .part (partOf va), va := va / 32 * 32, pc := 0, version := 0, row := 0,
               gteam := 0, lanes := 0 }).2

/-- A peer's load of a sector, store, atomic or reduction at a `.g` address, performed at the routed partition (R163, R387), a packed addition in
its two beats (R159); one that waits comes again. -/
def execPeerAccess (port : Nat) (ctx : Id) (va : Nat) (write : Option (List Byte)) (aop : Option (AOp × Ty)) (s : State) : Out :=
  let p := s.port port
  if 16 ≤ port || !p.up || p.training || p.withheld.contains (s.ctxOf ctx).traffic || s.wh.stopped then .next s
  else match write with
    | none =>
      let sec := va / 32 * 32
      (match s.agentLeaf ctx sec 32 .r with
       | (.ok _, l, s1) =>
         let (bs, bad, s2) := s1.readG l sec 32
         .next (if bad then (s2.countIn port).sendAck port 0x0B else (s2.countIn port).sendOut port sec bs)
       | (.fail c, _, s1) => .next ((s1.countIn port).sendAck port c)
       | (_, _, s1) => .next s1)
    | some bs =>
      match aop with
      | none =>
        if bs.isEmpty || 32 < va % 32 + bs.length then .next s
        else (match s.agentLeaf ctx va bs.length .w with
          | (.ok _, l, s1) => .next ((((s1.performWrite ctx va l (bs.zipIdx.map fun b => (b.2, b.1)))).countIn port).sendAck port 0)
          | (.fail c, _, s1) => .next ((s1.countIn port).sendAck port c)
          | (_, _, s1) => .next s1)
      | some (op, ty) =>
        let n := ty.bytes
        if va % n ≠ 0 || bs.length ≠ (if op = .cas then 2 * n else n) then .next s
        else (match s.agentLeaf ctx va n .rwa with
          | (.ok _, l, s1) =>
            let (cur, bad, s2) := s1.readG l va n
            if bad then .next ((s2.countIn port).sendAck port 0x0B)
            else
              let x := natOfBytes (bs.take n)
              let cmp := natOfBytes (bs.drop n)
              if ty = .bx2 || ty = .hx2 then .next (((s2.peerPacked ctx va l op ty (natOfBytes cur) x).countIn port).sendOut port va cur)
              else
              let new := aopApply op ty (natOfBytes cur) x cmp
              .next (((s2.performWrite ctx va l ((bytesOfNat n new).zipIdx.map fun b => (b.2, b.1))).countIn port).sendOut port va cur)
          | (.fail c, _, s1) => .next ((s1.countIn port).sendAck port c)
          | (_, _, s1) => .next s1)

/-- A `TX.ST.peer` write that comes in over a port (R284, R388): written into the parcel's scratchpad and counted, or appended to the bounce
ring for one that is switched out; an invalid lookup, or bytes outside the allocation, are refused back to the sender as WINDOW. A full
ring withholds the credit of the write's traffic class, and the write comes again. -/
def execPeerScratchWrite (port : Nat) (ctx parcel off : Nat) (data : List Byte) (bobj : BitVec 16) (s : State) : Out :=
  let p := s.port port
  let cls := (s.ctxOf ctx).traffic
  if 16 ≤ port || !p.up || p.training || p.withheld.contains cls || data.isEmpty || 256 < data.length || s.wh.stopped then .next s
  else
    let s1 := s.countIn port
    let obj : Option Nat := bobjOf bobj
    match p.ptt.find? fun e => e.ctx == ctx && e.parcel == parcel with
    | none => .next (s1.sendAck port 0x03)
    | some e =>
      let q := s1.parcel e.pid
      if q.scrSize < off + data.length || bobjBad q.scrSize obj then .next (s1.sendAck port 0x03)
      else if e.absent then
        if Config.bounceCap ≤ p.ring.length then .next (s.setPort port { p with withheld := p.withheld ++ [cls] })
        else
          let k := s1.port port
          .next ((s1.setPort port { k with ring := k.ring ++ [⟨e.pid, off, data, obj⟩] }).sendAck port 0)
      else .next ((s1.enginePut e.pid off data obj).sendAck port 0)

/-- One piece of a host access through the aperture, within a sector: whether it was performed, and the bytes read. -/
def State.hostPiece (s : State) (va n : Nat) (write : Option (List Byte)) : Option (List Byte) × State :=
  let ctx := s.wh.aperture
  match s.agentLeaf ctx va n (if write.isSome then .w else .r) with
  | (.ok _, l, s1) =>
    (match write with
     | some bs => (some [], s1.performWrite ctx va l (bs.zipIdx.map fun b => (b.2, b.1)))
     | none =>
       let (bs, bad, s2) := s1.readG l va n
       (if bad then none else some bs, s2))
  | (_, _, s1) => (none, s1)

/-- A host access of BAR2 at an offset: a virtual address of the aperture context (R163, R359). Its sectors are performed in ascending
order; data read leaves over port 20. -/
def execHostAccess (va : Nat) (len : Nat) (write : Option (List Byte)) (s : State) : Out :=
  if s.wh.aperture = 0 || len = 0 || 2 ^ 39 < va + len || s.wh.stopped ||
     (match write with | some bs => bs.length != len | none => false) then .next s
  else
    let s := s.countPort 20 0 1
    let r := (pieces va len).foldl (fun (a : Option (List Byte) × State) q =>
      match a.1 with
      | none => a
      | some got =>
        let (x, s1) := a.2.hostPiece q.1 q.2 (write.map fun bs => (bs.drop (q.1 - va)).take q.2)
        (x.map (got ++ ·), s1)) (some [], s)
    match r.1, write with
    | some bs, none => .next (r.2.sendOut 20 va bs)
    | _, _ => .next r.2

/-! ### Links (R387, R407, R415) -/

/-- The log UNIT of a port (R407, R415). -/
def portUnit (n : Nat) : Nat :=
  if n < 16 then 3 else if n < 18 then 2 else if n < 20 then 8 else if n = 20 then 7 else 4

/-- Flits were sent again; each retry is counted, and the retries are logged (R387, R407). -/
def execLinkFlitRetry (port : Nat) (count : Nat) (s : State) : Out :=
  if 22 ≤ port || count = 0 then .next s
  else
    let p := s.port port
    .next ((s.setPort port { p with retries := p.retries + BitVec.ofNat 48 count }).logEvent
      { cls := 3, unit := portUnit port, index := port, count := BitVec.ofNat 32 count })

/-- The leaf that a request at its partition goes through, from the cache or the tables. -/
def State.leafOfReq (s : State) (r : Req) : Option Leaf × State :=
  match r.tgt with
  | .part n =>
    (match (s.part n).tlb.look (tlbKey r.ctx r.va) with
     | some l => (some l, s)
     | none => (match s.walk r.ctx r.va with
        | (.leaf l, s1) => (some l, s1)
        | (_, s1) => (none, s1)))
  | _ => (none, s)

/-- Work in flight to a port that is down ends (R380): loads with poison, writes and parked writes refused with LINKDOWN. An access that its
page does not grant has not gone to the port: the partition refuses it (R132). -/
def State.dropInFlight (s : State) (port : Nat) : State :=
  (s.reqs.map Req.id).foldl (fun s id =>
    match s.req? id with
    | none => s
    | some r =>
      match s.leafOfReq r with
      | (none, s) => s
      | (some l, s) =>
        if s.farPort l ≠ some port then s
        else match r.st with
          | .sent =>
            if !s.canServe r then s
            else if !s.grants r.ctx r.va l r.kind.right && !r.kind.isHint then s.refuseReq r 0x03
            else (match r.kind with
              | .load .. | .copyIn .. | .atomic _ _ _ (some _) _ _ => s.poisonReq r
              | .hint _ => s.dropHint r
              | .arrive .. => s
              | _ => s.refuseReq r 0x0F)
          | .parked _ => if r.kind.isWrite then s.refuseHere r 0x0F else s
          | _ => s) s

/-- The 512 entries of a page table as firmware reads them, block by block; none while one of them cannot be read (R408, R410). -/
def State.readTable (s : State) (ctx table : Nat) : Option (List Dword) × State :=
  (List.range 8).foldl (fun (a : Option (List Dword) × State) i =>
    match a.1 with
    | none => a
    | some es => (match a.2.readEntries (s.ctxOf ctx).desc (table * 4096 + 512 * i) 64 with
        | (some now, t) => (some (es ++ now), t)
        | (none, t) => (none, t))) (some [], s)

/-- The leaves under a table of a context, each with its address and level; none while the tables cannot be read. -/
def State.leavesUnder (s : State) (ctx : Nat) : Nat → Nat → Nat → Option (List (Nat × Nat × Leaf)) × State
  | level, va, table =>
    match s.readTable ctx table with
    | (none, s1) => (none, s1)
    | (some es, s1) =>
      es.zipIdx.foldl (fun (a : Option (List (Nat × Nat × Leaf)) × State) w =>
        let e : Leaf := w.1
        let at_ := va + w.2 * 2 ^ (16 + 9 * level)
        match a.1 with
        | none => a
        | some ls =>
          if !Leaf.v e then a
          else match level with
            | 0 => (some (ls ++ [(at_, 0, e)]), a.2)
            | n + 1 =>
              if Leaf.l e then (some (ls ++ [(at_, n + 1, e)]), a.2)
              else match a.2.leavesUnder ctx n at_ (Leaf.frame e) with
                | (some more, t) => (some (ls ++ more), t)
                | (none, t) => (none, t)) (some [], s1)

/-- A LINKDOWN record to each context with a FAR window whose tables map a far frame of the port, at the first such page; where the tables cannot
be read, at its lowest FAR window (R380; log entry 44). -/
def State.tellLinkDown (s : State) (port : Nat) : State :=
  s.ctxs.foldl (fun s c =>
    match c.2.wins.find? fun w => w.2.v && w.2.cls == 2 with
    | none => s
    | some w =>
      let tell (s : State) (win va : Nat) : State :=
        s.postRecord c.1 { kind := 6, win := win, va := BitVec.ofNat 64 va, part := partOf va }
      match s.leavesUnder c.1 3 0 c.2.desc.root with
      | (some ls, t) => (match ls.find? fun x => t.farPort x.2.2 == some port with
          | some x => tell t (match t.windowAt c.1 x.1 1 with | some y => y.1 | none => w.1) x.1
          | none => t)
      | (none, t) => if t.wh.stopped then t else tell t w.1 (w.2.base * 65536)) s

/-- A retraining of a port starts; each logs one entry (R410). -/
def State.trainPort (s : State) (n : Nat) : State :=
  let p := s.port n
  if p.training then s
  else (s.setPort n { p with training := true, tries := 0, trains := p.trains + 1 }).logEvent { cls := 5, unit := portUnit n, index := n }

/-- A CXL or Torash Link port goes down (R137, R380): it is disabled until its retraining has ended. -/
def execPortDown (port : Nat) (s : State) : Out :=
  if 18 ≤ port || !(s.port port).up then .next s
  else
    let s1 := s.setPort port { s.port port with up := false }
    .next (((s1.dropInFlight port).tellLinkDown port).trainPort port)

/-! ### Retraining (R391, R410; log entry 45) -/

/-- A retraining request: unit n below 18 is port n, unit 32 + k is HBM stack k. A stack's retraining waits while a save streams an image to
it (R391). -/
def execRetrainStart (unit : Nat) (s : State) : Out :=
  if unit < 18 then .next (s.trainPort unit)
  else if unit < 32 || 40 ≤ unit || s.wh.stopped then .next s
  else
    let k := unit - 32
    if (s.part (8 * k)).training || s.wh.trainReq.contains k then .next s
    else if s.streamsTo k then .next { s with wh := { s.wh with trainReq := s.wh.trainReq ++ [k] } }
    else .next (s.trainStack k)

/-- An attempt of a retraining ends (R410). The third failure of a port leaves it disabled; that of a stack is FATAL. -/
def execRetrainEnd (unit : Nat) (ok : Bool) (s : State) : Out :=
  if unit < 18 then
    let p := s.port unit
    if !p.training then .next s
    else if ok then .next (s.setPort unit { p with training := false, up := true, tries := 0 })
    else if p.tries < 2 then .next (s.setPort unit { p with tries := p.tries + 1 })
    else
      let s1 := (s.setPort unit { p with training := false, up := false, tries := 0 }).logEvent { cls := 4, unit := portUnit unit, index := unit }
      .next (if p.up then (s1.dropInFlight unit).tellLinkDown unit else s1)
  else if unit < 32 || 40 ≤ unit then .next s
  else
    let k := unit - 32
    let tries := s.wh.tries.get 0 k
    if !(s.part (8 * k)).training then .next s
    else
      let off (s : State) : State := (List.range 8).foldl (fun s i => s.setPart (8 * k + i) { s.part (8 * k + i) with training := false }) s
      if ok then .next (off s)
      else if tries < 2 then .next { s with wh := { s.wh with tries := s.wh.tries.put k (tries + 1) } }
      else .next ((off s).fatal 1 k)

/-! ### BASIN_EVICT (R139 to R141) -/

/-- A line leaves the Basin, written back where it is dirty: a line of a frame slot by its block number, one of a far frame from 2^60 on.
It stays while the port or the stack that it is written back to cannot take it (R137, R410). -/
def execBasinEvict (line : Nat) (s : State) : Out :=
  match s.basin.look line with
  | none => .next s
  | some x =>
    let busy : Bool :=
      if 2 ^ 60 ≤ line then
        let target := (line - 2 ^ 60) / 128 % 2 ^ 32 / 2 ^ 29
        target ≤ 1 && (!(s.port (16 + target)).up || (s.port (16 + target)).training)
      else (s.part (line / 2 ^ 24)).training
    .next (if x.dirty && busy then s else s.evict line)

end Sys2Proof.Machine
end

