-- ==== Sys2Proof/Machine/Mailbox.lean ====
section
/-! DEFINITION. The mailboxes of the Wellhouse (R392 to R396), and the messages of its functions but for security and loading: HELLO, contexts
(R373, R390), frames and leaves (R375, R377, R419), queues (R358, R361, R376), reserved cores (R367), telemetry (R411, R414), the
aperture (R359) and the error log (R409). Where the spec names the fields of a body but not their places, log entry 27 gives them. -/

namespace Sys2Proof.Machine

/-! ### Requests and responses (R392 to R395) -/

/-- The page of an OP (R392, R395). -/
def opPage (op : Nat) : Option Nat :=
  if (decide (0x20 ≤ op) && decide (op ≤ 0x27)) then some 0
  else if op = 0x16 || op = 0x17 then some 1
  else if op = 0x12 || op = 0x18 then some 2
  else if op = 0x10 || op = 0x11 || (decide (0x13 ≤ op) && decide (op ≤ 0x15)) then some 3
  else if op = 0x40 then some 4
  else if op = 0x19 || op = 0x1A then some 5
  else if op = 0x30 then some 6
  else if op = 0x01 || op = 0x31 then some 7
  else none

/-- A pending request. -/
structure Msg where
  page : Nat
  op   : Nat
  len  : Nat
  ver  : BitVec 16
  res  : Nat
  body : List Byte
  deriving DecidableEq, Repr, Inhabited

/-- The status codes of R395. -/
def stOk : Nat := 0
def stBadMsg : Nat := 1
def stBadVer : Nat := 2
def stBusy : Nat := 3
def stRefused : Nat := 4
def stNoSpace : Nat := 5
def stAuth : Nat := 6
def stState : Nat := 7

def State.mbox (s : State) (page : Nat) : Mbox := s.wh.mbox.get {} page
def State.setMbox (s : State) (page : Nat) (m : Mbox) : State := { s with wh := { s.wh with mbox := s.wh.mbox.put page m } }

/-- REQ as the function reads it for the outstanding request (R394). -/
def Mbox.view (m : Mbox) : Store Byte := m.taken.getD m.req

/-- The request outstanding on a page (R394). -/
def State.requestOn (s : State) (page : Nat) : Option Msg :=
  let m := s.mbox page
  if m.reqseq = m.rspseq then none
  else
    let h := natOfBytes (readBytes m.view 0 8)
    let len := bitsOf h 31 16
    some { page := page, op := bitsOf h 15 0, len := len, ver := BitVec.ofNat 16 (bitsOf h 47 32), res := bitsOf h 63 48,
           body := readBytes m.view 8 (min len 1016) }

/-- The function has read the outstanding request: later writes of REQ do not change it (R394). -/
def State.readRequest (s : State) (page : Nat) : State :=
  let m := s.mbox page
  s.setMbox page { m with taken := some m.view, reading := true }

/-- The request with an OP, on the page of its function first. -/
def State.pending (s : State) (op : Nat) (mine : Msg → Bool) : Option Msg :=
  let pages := (match opPage op with | some p => [p] | none => []) ++ List.range 8
  pages.findSome? fun p => match s.requestOn p with
    | some m => if m.op = op && mine m then some m else none
    | none => none

/-- A response with a body, then RSPSEQ and the interrupt asked for (R393 to R395). -/
def State.answer (s : State) (page op status : Nat) (body : List Byte) : State :=
  let m := s.mbox page
  let h := op + 2 ^ 16 * body.length + 2 ^ 32 * status
  let s1 := s.setMbox page { m with rsp := writeBytes m.rsp 0 (bytesOfNat 8 h ++ body), rspseq := m.reqseq, taken := none, reading := false }
  if m.irq then { s1 with msix := s1.msix ++ [page] } else s1

/-- Whether any context exists. -/
def State.anyCtx (s : State) : Bool := !s.ctxs.isEmpty

/-- The checks that come before a message's own (log entry 46): the call version, the form, the lifecycle and recovery. -/
def State.preCheck (s : State) (m : Msg) (lens : Nat → Bool) : Option Nat :=
  if m.op ≠ 1 && s.wh.callver ≠ some m.ver then some stBadVer
  else if opPage m.op ≠ some m.page || 1016 < m.len || !lens m.len || m.res ≠ 0 then some stBadMsg
  else if s.wh.life = .retired && m.op ≠ 0x01 && m.op ≠ 0x22 && m.op ≠ 0x40 then some stState
  else if s.wh.recovery && m.op ≠ 0x01 && m.op ≠ 0x26 && m.op ≠ 0x40 then some stState
  else none

/-- Requests with an OP on pages of other functions: each page's own function answers, now or later, as pages run concurrently (R394, R395). -/
def State.answerStrays (s : State) (op : Nat) (mine : Msg → Bool) : State :=
  (List.range 8).foldl (fun s p =>
    match s.requestOn p with
    | some m =>
      if opPage op ≠ some p && m.op == op && mine m then
        let (now, s1) := s.freeBool
        if now then s1.answer p op ((s1.preCheck m fun _ => true).getD stBadMsg) [] else s1
      else s
    | none => s) s

/-- A function serves the request with an OP once the firmware or recovery runs (R397): it answers a failed check, else acts. A request that it
holds does not hold those of other pages (R394). -/
def serveOf (op : Nat) (mine : Msg → Bool) (lens : Nat → Bool) (s : State) (work : Msg → State → State) : Out :=
  if s.wh.stopped || !s.wh.booted then .next s
  else match s.pending op mine with
    | none => .next s
    | some m =>
      match s.preCheck m lens with
      | some st => .next (s.answer m.page op st [])
      | none => .next ((work m (s.readRequest m.page)).answerStrays op mine)

def serve (op : Nat) (lens : Nat → Bool) (s : State) (work : Msg → State → State) : Out := serveOf op (fun _ => true) lens s work

/-- A message that carries exactly `n` bytes. -/
def lenIs (n : Nat) (k : Nat) : Bool := k == n

/-- A field of a body. -/
def Msg.bits (m : Msg) (hi lo : Nat) : Nat := bitsOf (natOfBytes m.body) hi lo

/-- An answer without a body. -/
def Msg.reply (m : Msg) (s : State) (status : Nat) : State := s.answer m.page m.op status []

/-! ### REGISTER_WRITE (R393, R394) -/

/-- An outstanding request with an OP that no function has is answered (R395). -/
def State.answerUnknown (s : State) (page : Nat) : State :=
  match s.requestOn page with
  | some r =>
    if (opPage r.op).isNone && !s.wh.stopped && s.wh.booted then
      s.answer page r.op (if s.wh.callver = some r.ver then stBadMsg else stBadVer) []
    else s
  | none => s

/-- The driver writes an aligned word of a mailbox page: REQSEQ, IRQ, or a word of REQ. A word of REQ written while a request is outstanding
and not yet read may or may not be what the function reads (R394). -/
def execRegisterWrite (page : Nat) (offset : Nat) (value : Dword) (s0 : State) : Out :=
  let s := s0.countPort 20 0 1
  if 8 ≤ page then .next s
  else
    let m := s.mbox page
    let new (b : Store Byte) : Store Byte := writeBytes b (offset - 1024) (bytesOfNat 8 value.toNat)
    if offset = 0 then
      if value = m.rspseq + 1 then .next ((s.setMbox page { m with reqseq := value }).answerUnknown page)
      else .next (s.setMbox page { m with ignored := m.ignored + 1 })
    else if offset = 16 then .next (s.setMbox page { m with irq := value.getLsbD 0 })
    else if 1024 ≤ offset && offset < 2048 && offset % 8 = 0 then
      if m.reqseq = m.rspseq || m.reading then .next (s.setMbox page { m with req := new m.req })
      else
        let (keep, s1) := s.freeBool
        .next ((s1.setMbox page { m with req := new m.req, taken := some (if keep then m.view else new m.view) }).answerUnknown page)
    else .next s

/-! ### HELLO (R396) -/

/-- The call versions that the running firmware serves: the latest minor of each major version, and of them no higher one than its image's
CALLMAX, which is the highest (R396, R397). -/
def State.served (s : State) : List (BitVec 16) :=
  match s.wh.callmax with
  | some m => m :: Config.callVersions.filter fun v => decide (v < m)
  | none => Config.callVersions

/-- The highest of some call versions between two bounds. -/
def bestVersion (served : List (BitVec 16)) (lo hi : BitVec 16) : Option (BitVec 16) :=
  served.foldl (fun b v =>
    if lo ≤ v && v ≤ hi && (match b with | some w => decide (w < v) | none => true) then some v else b) none

def execHello (s : State) : Out :=
  serve 0x01 (lenIs 4) s fun m s =>
    if s.anyCtx then m.reply s stBusy
    else match bestVersion s.served (BitVec.ofNat 16 (m.bits 15 0)) (BitVec.ofNat 16 (m.bits 31 16)) with
      | none => m.reply s stBadVer
      | some v =>
        let s1 : State := { s with wh := { s.wh with callver := some v } }
        s1.answer m.page m.op stOk (bytesOfNat 2 v.toNat)

/-! ### CTX_CREATE (R116, R117, R126, R373, R397) -/

/-- A context descriptor from its 64 bytes. -/
def CtxDesc.decode (w : Nat) : CtxDesc :=
  { ctxid := bitsOf w 15 0, pond := bitsOf w 17 16, policy := w.testBit 18, pooln := bitsOf w 34 19, pool := bitsOf w 95 64,
    root := bitsOf w 127 96, windows := bitsOf w 191 128, fq := bitsOf w 255 192, fqlog2 := bitsOf w 259 256,
    savef := bitsOf w 319 288, saven := bitsOf w 351 320, dbell := bitsOf w 415 352, savedl := bitsOf w 447 416,
    parkt := bitsOf w 479 448, farto := bitsOf w 493 480 }

/-- The reserved fields and stated limits of R373. -/
def descBad (w : Nat) : Bool :=
  let d := CtxDesc.decode w
  decide (bitsOf w 63 35 ≠ 0) || decide (bitsOf w 287 260 ≠ 0) || decide (bitsOf w 511 494 ≠ 0) || decide (d.ctxid = 0) ||
  decide (d.pond = 3) || decide (d.pooln = 0) || decide (d.windows % 1024 ≠ 0) || decide (d.fq % 4096 ≠ 0) || decide (10 < d.fqlog2) ||
  decide (d.dbell % 65536 ≠ 0) || (decide (d.farto ≠ 0) && (decide (d.farto < 10) || decide (10000 < d.farto))) ||
  decide (2 ^ 23 < d.pool + d.pooln) || decide (2 ^ 23 < d.savef + d.saven) || decide (16 * d.pooln ≤ d.root)

/-- A window descriptor from its 16 bytes (R126). -/
def Window.decode (w : Nat) : Window :=
  { base := bitsOf w 35 0, size := bitsOf w 99 64, r := w.testBit 100, w := w.testBit 101, x := w.testBit 102, a := w.testBit 103,
    wonly := w.testBit 104, cls := bitsOf w 106 105, v := w.testBit 107 }

/-- A window descriptor that sets a reserved field or breaks a limit (R126). -/
def windowBad (w : Nat) : Bool :=
  let x := Window.decode w
  decide (bitsOf w 63 36 ≠ 0) || decide (bitsOf w 127 108 ≠ 0) ||
  (x.v && (decide (x.size = 0) || decide (2 ^ 36 < x.base + x.size) || decide (x.cls = 3) || (x.wonly && (x.r || x.a || !x.w))))

/-- Whether two valid windows overlap. -/
def Window.meets (a b : Window) : Bool := a.v && b.v && decide (a.base < b.base + b.size) && decide (b.base < a.base + a.size)

/-- Whether the windows of a set overlap one another. -/
def winsMeet : Store Window → Bool
  | [] => false
  | a :: r => (r.any fun b => a.2.meets b.2) || winsMeet r

/-- The frames of a context's page-table pool, as memory of zeros. -/
def State.clearFrames (s : State) (base n : Nat) : State :=
  let mine (f : Nat) : Bool := decide (base ≤ f) && decide (f < base + n)
  { s with dram := s.dram.filter (fun y => !mine (y.1 / 1024 % 2 ^ 23))
           basin := s.basin.filter fun y => !(decide (y.1 < 2 ^ 60) && mine (y.1 / 2 % 2 ^ 23))
           badBlk := s.badBlk.filter (fun y => !mine (y.1 / 2 % 2 ^ 23))
           blockKey := s.blockKey.filter (fun y => !mine (y.1 / 2 % 2 ^ 23))
           elision := s.elision.filter (fun y => !mine (y.1 % 2 ^ 23)) }

def execCtxCreate (s : State) : Out :=
  serve 0x10 (lenIs 64) s fun m s =>
    let w := natOfBytes m.body
    let d := CtxDesc.decode w
    let raw (i : Nat) : Nat := natOfBytes (readBytes s.hostMem (d.windows + 16 * i) 16)
    let wins : Store Window := (List.range 64).filterMap fun i => if (Window.decode (raw i)).v then some (i, Window.decode (raw i)) else none
    if !s.wh.wiped then s
    else if (s.ctxs.look d.ctxid).isSome then m.reply s stBusy
    else if descBad w || (List.range 64).any (fun i => windowBad (raw i)) || winsMeet wins then m.reply s stRefused
    else if 2 < d.pond + s.ctxs.foldl (fun n c => n + c.2.desc.pond) 0 then m.reply s stNoSpace
    else
      let s1 := s.setCtx d.ctxid { desc := d, own := wins, wins := wins, tables := [d.root] }
      m.reply ((s1.clearFrames d.pool d.pooln).countPort 20 1 1).trimBasin stOk

/-! ### CTX_STOP and CTX_DESTROY (R390, R395, R399, R400) -/

/-- The launch of a request or stream belongs to a context. -/
def State.ofCtx (s : State) (ctx lid : Nat) : Bool := (s.launchOf lid).ctx == ctx

/-- Steps 1 to 3 of a stop: no packet starts, no parcel is admitted, every sub-team and control stream stops, and each parcel is flushed or
begins its save (R390). -/
def State.stopCtx (s : State) (ctx : Nat) : State :=
  let s1 := s.setCtx ctx { s.ctxOf ctx with stopped := true }
  s1.parcels.foldl (fun s p =>
    if s.ofCtx ctx p.2.lid then
      (match (s.parcel p.1).st with
       | .resident | .draining _ => s.switchOut p.1 true
       | _ => s)
    else s) s1

/-- Whether a stop has reached its consistent cut (R390): no parcel of the context is on a core, every access is performed, parked or
refused, every engine command has finished. -/
def State.stopDone (s : State) (ctx : Nat) : Bool :=
  (s.parcels.all fun p => !(s.ofCtx ctx p.2.lid) || !p.2.onCore) &&
  (s.reqs.all fun r => r.ctx != ctx || !(r.st == .sent && r.asks)) &&
  s.ctls.all fun c => c.2.cmds.all fun m => m.finished || !s.ofCtx ctx m.lid

def execCtxStop (s : State) : Out :=
  serve 0x12 (lenIs 2) s fun m s =>
    let ctx := m.bits 15 0
    if (s.ctxs.look ctx).isNone then m.reply s stRefused
    else if !(s.ctxOf ctx).stopped then s.stopCtx ctx
    else if s.stopDone ctx then m.reply s stOk else s

/-- The frames that a context's leaves name, as (first, count); none while the tables cannot be read. -/
def State.framesOf (s : State) (ctx : Nat) : Option (List (Nat × Nat)) × State :=
  let r := s.leavesUnder ctx 3 0 (s.ctxOf ctx).desc.root
  (r.1.map fun ls => (ls.filter fun x => !Leaf.far x.2.2).map fun x => (Leaf.frame x.2.2, 2 ^ (9 * x.2.1)), r.2)

/-- Frames wiped logically and freed: codes 01, no line of them in the Basin, their reverse tags clear (R125, R141). -/
def State.wipeFrames (s : State) (fs : List (Nat × Nat)) : State :=
  let mine (f : Nat) : Bool := fs.any fun x => decide (x.1 ≤ f) && decide (f < x.1 + x.2)
  { s with elision := s.elision.filter (fun y => !mine (y.1 % 2 ^ 23))
           basin := s.basin.filter fun y => !(decide (y.1 < 2 ^ 60) && mine (y.1 / 2 % 2 ^ 23))
           badBlk := s.badBlk.filter (fun y => !mine (y.1 / 2 % 2 ^ 23))
           parts := s.parts.map fun p => (p.1, { p.2 with rtags := p.2.rtags.filter fun t => !mine t.1 }) }

/-- A context removed with everything of it, the frames that its tables name freed. -/
def State.dropCtx (s : State) (ctx : Nat) (mapped : List (Nat × Nat)) : State :=
  let x := s.ctxOf ctx
  let mine (lid : Nat) : Bool := s.ofCtx ctx lid
  let gone := (s.queues.filter fun q => q.2.ctx == ctx).map Prod.fst
  let fs := mapped ++ (x.granted.map fun f => (f, 1)) ++ [(x.desc.pool, x.desc.pooln), (x.desc.savef, x.desc.saven)]
  let s1 : State := { s with
    ctls := s.ctls.map fun c => if mine c.2.lid then (c.1, { cycle := c.2.cycle, free := c.2.free : Control }) else c
    reqs := s.reqs.filter fun r => r.ctx != ctx
    reports := s.reports.filter fun r => r.ctx != ctx
    parcels := s.parcels.filter fun p => !mine p.2.lid
    kernels := s.kernels.filter fun k => k.2.ctx != ctx
    objs := s.objs.filter fun o => o.2.ctx != ctx
    queues := s.queues.filter fun q => q.2.ctx != ctx
    hwslots := s.hwslots.filter fun h => !gone.contains h.2
    wake := s.wake.filter fun q => !gone.contains q
    hwAlg := s.hwAlg.map fun h => (h.1, h.2.filter (· != ctx))
    ctxs := s.ctxs.erase ctx
    pond := s.pond.filter fun y => y.1 / 2 ^ 28 != ctx
    cores := s.cores.map fun c => (c.1, { c.2 with l1 := c.2.l1.filter (fun y => y.1 / 2 ^ 47 != ctx), icache := c.2.icache.filter (fun y => y.1 / 2 ^ 47 != ctx) })
    parts := s.parts.map fun p => (p.1, { p.2 with tlb := p.2.tlb.filter (fun y => y.1 / 2 ^ 36 != ctx), watch := p.2.watch.filter (fun w => w.1 != ctx) })
    wh := { s.wh with keys := s.wh.keys.filter (fun k => k.2.ctx != ctx), aperture := if s.wh.aperture = ctx then 0 else s.wh.aperture } }
  let s2 : State := { s1 with launches := s1.launches.filter fun l => l.2.ctx != ctx }
  (s2.wipeFrames fs).mapPtt fun t => t.filter fun e => e.ctx != ctx

def execCtxDestroy (s : State) : Out :=
  serve 0x11 (lenIs 2) s fun m s =>
    let ctx := m.bits 15 0
    if (s.ctxs.look ctx).isNone then m.reply s stRefused
    else if !(s.ctxOf ctx).stopped then s.stopCtx ctx
    else if s.stopDone ctx then
      match s.framesOf ctx with
      | (some fs, s1) => m.reply (s1.dropCtx ctx fs).trimBasin stOk
      | (none, s1) => s1
    else s

/-! ### GRANT, MAP, DENY (R375, R377, R379, R419, R421) -/

def execGrant (s : State) : Out :=
  serve 0x13 (lenIs 12) s fun m s =>
    let ctx := m.bits 15 0
    let base := m.bits 63 32
    let n := m.bits 95 64
    let x := s.ctxOf ctx
    if m.bits 31 16 ≠ 0 then m.reply s stBadMsg
    else if (s.ctxs.look ctx).isNone || n = 0 || 2 ^ 23 < base + n then m.reply s stRefused
    else
      let fs := (List.range n).map (base + ·)
      if fs.any fun f => s.rawFrame f || s.ctxs.any fun c => c.2.granted.contains f then m.reply s stRefused
      else m.reply (s.setCtx ctx { x with granted := x.granted ++ fs.filter fun f => !s.wh.retired.contains f }) stOk

/-- The open record that a SEQ names, whose page lies in a page of some bytes (R419). -/
def Ctx.openRecord (x : Ctx) (seq : Nat) (va bytes : Nat) : Bool :=
  x.fqOpen.any fun r => r.seq.toNat == seq && decide (va ≤ r.va.toNat) && decide (r.va.toNat < va + bytes)

/-- The launches that wait for units of a page get their leases (R375). -/
def State.fillLeases (s : State) (ctx unit n : Nat) : State :=
  s.launches.foldl (fun s l =>
    if l.2.ctx = ctx && l.2.st = .leasing then
      let s1 := ((s.launchOf l.1).missing.filter fun u => decide (unit ≤ u) && decide (u < unit + n)).foldl (fun s u => s.takeLease l.1 u) s
      let y := s1.launchOf l.1
      if y.missing.isEmpty then s1.setLaunch l.1 { y with st := .admitting } else s1
    else s) s

/-- A leaf that R121 calls malformed, whose L does not suit its level, or that names a frame of a page-table pool or save area (R373, R419;
log entry 85). -/
def State.mapLeafBad (s : State) (ctx level : Nat) (l : Leaf) : Bool :=
  Leaf.v l && (Leaf.l l != decide (level ≠ 0) || s.leafBad ctx level l || (!Leaf.far l && s.rawMeets (Leaf.frame l) (2 ^ (9 * level))))

def execMap (s : State) : Out :=
  serve 0x14 (lenIs 24) s fun m s =>
    let seq := m.bits 31 0
    let ctx := m.bits 47 32
    let level := m.bits 49 48
    let va := m.bits 127 64
    let leaf : Leaf := BitVec.ofNat 64 (m.bits 191 128)
    let x := s.ctxOf ctx
    let n := levelBytes level / 65536
    let unit := va / 65536
    if m.bits 63 50 ≠ 0 then m.reply s stBadMsg
    else if (s.ctxs.look ctx).isNone || level = 3 || va % levelBytes level ≠ 0 || 2 ^ 52 ≤ va || s.mapLeafBad ctx level leaf ||
        (seq ≠ 0xFFFFFFFF && !x.openRecord seq va (levelBytes level)) then m.reply s stRefused
    else match (if x.leases.isEmpty then (some [], s) else s.pageUnits ctx unit) with
    | (none, s1) => s1
    | (some page, _) =>
    if page.any (fun u => x.leases.get 0 u != 0) || x.leases.any (fun y => decide (unit ≤ y.1) && decide (y.1 < unit + n)) then
      m.reply s stBusy
    else match s.installLeaf ctx va level leaf with
      | (.full, _) => m.reply s stNoSpace
      | (.wait, s1) => if s1.wh.stopped then s1 else s
      | (.done, s1) =>
        let y := s1.ctxOf ctx
        let s2 := s1.setCtx ctx { y with
          drvPin := (if Leaf.v leaf && Leaf.pin leaf then [unit] else []) ++ y.drvPin.filter fun u => !(decide (unit ≤ u) && decide (u < unit + n))
          fqOpen := if Leaf.v leaf then y.fqOpen.filter (fun r => !(decide (va ≤ r.va.toNat) && decide (r.va.toNat < va + levelBytes level)))
                    else y.fqOpen.filter fun r => r.kind == 3 || !(decide (va ≤ r.va.toNat) && decide (r.va.toNat < va + levelBytes level)) }
        let s3 := s2.sendReplay ctx unit n
        m.reply (if Leaf.v leaf then s3.fillLeases ctx unit n else s3) stOk

/-- A launch whose lease is denied is refused (R363, R375). -/
def State.refuseLaunch (s : State) (lid : Nat) : State :=
  let s1 := s.returnLeases lid
  let l := s1.launchOf lid
  ((s1.setLaunch lid { l with st := .refused, missing := [] }).dropPkt l.qid l.pkt).haltQueue l.qid 3

def execDeny (s : State) : Out :=
  serve 0x15 (lenIs 8) s fun m s =>
    let seq := m.bits 31 0
    let ctx := m.bits 47 32
    let cause := m.bits 55 48
    let x := s.ctxOf ctx
    if m.bits 63 56 ≠ 0 then m.reply s stBadMsg
    else match x.fqOpen.find? fun r => r.seq.toNat == seq with
      | none => m.reply s stRefused
      | some r =>
        if cause ≠ 3 && cause ≠ 8 then m.reply s stRefused
        else
          let s1 := s.setCtx ctx { x with fqOpen := x.fqOpen.filter fun y => y.seq != r.seq }
          let page := r.va.toNat / 65536
          let up := s.leasesUp r.lid
          if r.kind = 3 && (s1.launchOf r.lid).st == .leasing && !up.1 then up.2
          else if r.kind = 3 then m.reply (if (s1.launchOf r.lid).st = .leasing then s1.refuseLaunch r.lid else s1) stOk
          else
            m.reply { s1 with reports := s1.reports.map fun (y : Report) =>
              if y.ctx = ctx && y.page = page then { y with deny := some (BitVec.ofNat 8 cause) } else y } stOk

/-! ### QUEUE_MAP, QUEUE_RESUME, RESERVE (R358, R361, R367, R376) -/

/-- The context whose queue descriptor lies at an address, in windows that grant R and W: it names itself there (log entry 27). -/
def State.descAt (s : State) (va : Nat) : Option (Nat × Nat) :=
  s.ctxs.findSome? fun c =>
    if s.windowOk c.1 va 64 .r && s.windowOk c.1 va 64 .w then
      match s.readSpan c.1 (pieces va 64) with
      | (.ok bs, _) => let w := natOfBytes bs; if bitsOf w 95 80 = c.1 then some (c.1, w) else none
      | _ => none
    else none

/-- The state in which the read of such a descriptor has to wait, if it has (R408, R410). -/
def State.descHeld (s : State) (va : Nat) : Option State :=
  s.ctxs.findSome? fun c =>
    if s.windowOk c.1 va 64 .r && s.windowOk c.1 va 64 .w then
      match s.readSpan c.1 (pieces va 64) with
      | (.wait, s1) => some s1
      | _ => none
    else none

def execQueueMap (s : State) : Out :=
  serve 0x16 (lenIs 8) s fun m s =>
    let va := m.bits 63 0
    if va % 64 ≠ 0 then m.reply s stRefused
    else match s.descAt va with
      | none => (match s.descHeld va with
          | some s1 => if s1.wh.stopped then s1 else s
          | none => m.reply s stRefused)
      | some (ctx, w) =>
        let base := bitsOf w 63 0
        let n := bitsOf w 67 64 + 4
        let qid := bitsOf w 107 96
        if base % 4096 ≠ 0 || 16 < n || w.testBit 71 || bitsOf w 127 108 ≠ 0 || bitsOf w 511 256 ≠ 0 ||
           !s.windowOk ctx base (64 * 2 ^ n) .r || !s.windowOk ctx base (64 * 2 ^ n) .w then m.reply s stRefused
        else if (s.queues.look qid).isSome then m.reply s stBusy
        else
          let q : Queue := { qid := qid, ctx := ctx, desc := BitVec.ofNat 64 va, base := BitVec.ofNat 64 base, n := n, cls := bitsOf w 69 68 }
          let s1 := (s.setQueue qid q).descPut q 8 [q.flagByte, 0]
          m.reply (s1.descPut q 16 (List.replicate 16 0)) stOk

def execQueueResume (s : State) : Out :=
  serve 0x17 (lenIs 4) s fun m s =>
    let ctx := m.bits 15 0
    let qid := m.bits 31 16
    match s.queues.look qid with
    | none => m.reply s stRefused
    | some q =>
      if q.ctx ≠ ctx then m.reply s stRefused
      else
        let p : Queue := { q with err := 0 }
        let s1 := (s.setQueue qid p).descPut p 9 [0]
        let due := q.st == .unmapped && decide (q.rptr < q.wptr) && !s1.wake.contains qid
        m.reply (if due then { s1 with wake := s1.wake ++ [qid] } else s1) stOk

def execReserve (s : State) : Out :=
  serve 0x18 (lenIs 1) s fun m s =>
    let n := m.bits 7 0
    if 16 < n then m.reply s stRefused else m.reply { s with wh := { s.wh with reserve := some n } } stOk

/-! ### TELEMETRY, POWER_LIMIT_SET, APERTURE, LOG_READ (R359, R409, R411, R414, R415) -/

/-- The leaves of an issue slot in the order of R341. -/
def leafCodes : List Nat :=
  [0x01, 0x02, 0x03, 0x10, 0x11, 0x20, 0x21, 0x22, 0x23, 0x24, 0x25, 0x26, 0x27, 0x28, 0x29, 0x2F, 0x30]

/-- A port's traffic since it was last read: its counters have gone on by free numbers of flits or transfers more than the messages that the model
counts one by one (R414; log entry 91). -/
def State.countFlits (s : State) (n : Nat) : State :=
  let (a, s1) := s.free64
  let (b, s2) := s1.free64
  let p := s2.port n
  s2.setPort n { p with sent := p.sent + (a.setWidth 32).setWidth 48, recvd := p.recvd + (b.setWidth 32).setWidth 48 }

/-- The counters of a selector (R414), each as 8 bytes; the inlet temperature is an input the model leaves free. -/
def State.telemetry (s : State) (sel : Nat) : Option (List Nat) × State :=
  if sel < 0x400 then
    let x := s.slot (sel / 4) (sel % 4)
    (some (leafCodes.map fun c => (x.ctr.get 0 c).toNat), s)
  else if 0x1000 ≤ sel && sel < 0x1040 then
    let p := s.part (sel - 0x1000)
    (some [p.ce.toNat, p.uce.toNat, p.scrubs.toNat, p.hits.toNat, p.misses.toNat, p.parks.toNat, p.elided.toNat], s)
  else if 0x2000 ≤ sel && sel < 0x2018 then
    if sel < 0x2016 then
      let s1 := s.countFlits (sel - 0x2000)
      let p := s1.port (sel - 0x2000)
      (some [p.sent.toNat, p.recvd.toNat, p.retries.toNat, p.trains.toNat], s1)
    else (some [0, 0, 0, 0], s)
  else if sel = 0x3000 then
    let (t, s1) := s.free64
    (some [s.wh.power, s.wh.clock, s.wh.junction, t.toNat], s1)
  else (none, s)

def execTelemetry (s : State) : Out :=
  serveOf 0x30 (fun m => m.bits 31 0 != 0x8000) (lenIs 4) s fun m s =>
    match s.telemetry (m.bits 31 0) with
    | (some ns, s1) => s1.answer m.page m.op stOk (ns.flatMap fun n => bytesOfNat 8 n)
    | (none, s1) => m.reply s1 stRefused

def execPowerLimitSet (s : State) : Out :=
  serveOf 0x30 (fun m => m.bits 31 0 == 0x8000) (lenIs 8) s fun m s =>
    let w := m.bits 63 32
    if w = 0 then s.answer m.page m.op stOk (bytesOfNat 8 s.wh.limit)
    else if w < 700 || 2100 < w then m.reply s stRefused
    else
      let s1 : State := { s with wh := { s.wh with limit := w } }
      s1.answer m.page m.op stOk (bytesOfNat 8 w)

def execAperture (s : State) : Out :=
  serve 0x31 (lenIs 2) s fun m s =>
    let ctx := m.bits 15 0
    if (s.ctxs.look ctx).isNone then m.reply s stRefused else m.reply { s with wh := { s.wh with aperture := ctx } } stOk

/-- A log entry as its 32 bytes (R407). -/
def LogRec.encode (r : LogRec) : List Byte :=
  bytesOfNat 32 (r.cls + 2 ^ 8 * r.unit + 2 ^ 12 * r.index + 2 ^ 32 * r.count.toNat + 2 ^ 64 * r.addr.toNat + 2 ^ 128 * r.ctx +
    2 ^ 160 * r.seq.toNat + 2 ^ 192 * r.wcyc.toNat)

def execLogRead (s : State) : Out :=
  serve 0x40 (lenIs 4) s fun m s =>
    let log := s.wh.log
    let oldest : Word := s.wh.logSeq - BitVec.ofNat 32 log.length
    let at_ := (BitVec.ofNat 32 (m.bits 31 0) - oldest).toNat
    let es := if at_ ≤ log.length then log.drop at_ else if 2 ^ 31 ≤ at_ then log else []
    let out := es.take 31
    s.answer m.page m.op stOk (bytesOfNat 8 (out.length + 2 ^ 32 * oldest.toNat) ++ out.flatMap LogRec.encode)

end Sys2Proof.Machine
end

