-- ==== Sys2Proof/Machine/Loader.lean ====
section
/-! DEFINITION. The loader: the object file (R329 to R332, R317 to R321), its placing (R334, R421), its symbols and relocations (R335 to
R337), and the messages LOAD and UNLOAD. What the file format leaves open is log entry 70. -/

namespace Sys2Proof.Machine

/-! ### The file (R329, R330) -/

/-- A field of `n` bytes, lowest first; bytes beyond the end read 0. -/
def fld (o : List Byte) (off n : Nat) : Nat := natOfBytes ((o.drop off).take n)

/-- The bytes of a text. -/
def ascii (t : String) : List Byte := t.toList.map fun c => BitVec.ofNat 8 c.toNat

/-- A section, from its header. -/
structure Sec where
  idx   : Nat
  name  : List Byte
  ty    : Nat
  flags : Nat
  addr  : Nat
  off   : Nat
  size  : Nat
  align : Nat
  deriving DecidableEq, Repr, Inhabited

/-- An object file: its bytes and sections. -/
structure ObjFile where
  bytes : List Byte
  secs  : List Sec
  deriving DecidableEq, Repr, Inhabited

/-- The identity of R329, with a section header table within the file. -/
def elfOk (o : List Byte) : Bool :=
  decide (64 ≤ o.length) && fld o 0 4 == 0x464C457F && fld o 4 1 == 2 && fld o 5 1 == 1 && fld o 16 2 == 3 && fld o 18 2 == 0x9A2D &&
  (fld o 48 4 == 1 || fld o 48 4 == 2) && fld o 58 2 == 64 && decide (fld o 40 8 + 64 * fld o 60 2 ≤ o.length) &&
  decide (fld o 62 2 < fld o 60 2)

/-- Section header `i`. -/
def secOf (o : List Byte) (i : Nat) : Sec :=
  let h := fld o 40 8 + 64 * i
  let strs := fld o (fld o 40 8 + 64 * fld o 62 2 + 24) 8
  { idx := i, name := (o.drop (strs + fld o h 4)).takeWhile (· ≠ 0), ty := fld o (h + 4) 4, flags := fld o (h + 8) 8 % 8,
    addr := fld o (h + 16) 8, off := fld o (h + 24) 8, size := fld o (h + 32) 8, align := fld o (h + 48) 8 }

/-- The object file, where its identity and the places of its sections allow. -/
def ObjFile.read (o : List Byte) : Option ObjFile :=
  if !elfOk o then none
  else
    let secs := (List.range (fld o 60 2)).map (secOf o)
    if secs.all fun c => c.ty == 0 || c.ty == 8 || decide (c.off + c.size ≤ o.length) then some { bytes := o, secs := secs } else none

def ObjFile.sec (f : ObjFile) (name : List Byte) : Option Sec := f.secs.find? fun c => c.name == name

/-- A section's bytes in the file. -/
def ObjFile.body (f : ObjFile) (c : Sec) : List Byte := if c.ty = 8 then [] else (f.bytes.drop c.off).take c.size

def ObjFile.named (f : ObjFile) (t : String) : List Byte :=
  match f.sec (ascii t) with
  | some c => f.body c
  | none => []

/-- A name in `.strtab`. -/
def ObjFile.str (f : ObjFile) (off : Nat) : List Byte := ((f.named ".strtab").drop off).takeWhile (· ≠ 0)

/-- Kernel descriptor `i` as a number (R331), and how many there are. -/
def ObjFile.kd (f : ObjFile) (i : Nat) : Nat := fld (f.named ".torash.kernels") (64 * i) 64
def ObjFile.nk (f : ObjFile) : Nat := (f.named ".torash.kernels").length / 64
def ObjFile.kname (f : ObjFile) (i : Nat) : List Byte := f.str (bitsOf (f.kd i) 31 0)

/-- The name of a code section (R330). -/
def textName (name : List Byte) (v : Nat) (control : Bool) : List Byte :=
  ascii ".text." ++ name ++ ascii "." ++ [BitVec.ofNat 8 (48 + v)] ++ ascii (if control then ".control" else ".team")

/-- The names of the code sections that the object's kernels can have. -/
def ObjFile.textNames (f : ObjFile) : List (List Byte) :=
  (List.range f.nk).flatMap fun i => (List.range 8).flatMap fun v => [textName (f.kname i) v false, textName (f.kname i) v true]

/-- The other sections of R330: name, type, flags where stated, alignment where stated (0 where not). -/
def fixedSecs : List (String × Nat × Option Nat × Nat) :=
  [(".data", 1, some 3, 64), (".bss", 8, some 3, 64), (".torash.kernels", 0x70000001, none, 8), (".torash.windows", 0x70000002, none, 16),
   (".torash.launch", 0x70000003, none, 16), (".torash.frames", 0x70000004, none, 8), (".torash.maps", 0x70000005, none, 16),
   (".torash.reloc", 0x70000006, none, 8), (".symtab", 2, none, 0), (".strtab", 3, none, 0), (".rela.data", 4, none, 0)]

/-- Whether a section is one that R330 does not allow as it stands. -/
def ObjFile.secBad (f : ObjFile) (c : Sec) : Bool :=
  if f.textNames.contains c.name then c.ty != 1 || c.flags != 6 || c.align != 4
  else match fixedSecs.find? fun x => ascii x.1 == c.name with
    | some x => c.ty != x.2.1 || (match x.2.2.1 with | some g => c.flags != g | none => false) || (x.2.2.2 != 0 && c.align != x.2.2.2)
    | none => if f.textNames.any fun t => ascii ".rela" ++ t == c.name then c.ty != 4 else c.flags.testBit 1

/-- Whether the sections as a whole break R330. -/
def ObjFile.secsBad (f : ObjFile) : Bool :=
  let known := (f.secs.filter fun c => f.textNames.contains c.name || fixedSecs.any fun x => ascii x.1 == c.name).map Sec.name
  f.secs.any f.secBad || !decide known.Nodup || decide ((f.named ".torash.kernels").length % 64 ≠ 0)

/-! ### Placing (R421) -/

def alignUp (a n : Nat) : Nat := if n = 0 then a else (a + n - 1) / n * n

/-- Sections placed one after another from an address: each with its place, and the end. -/
def placeSecs : Nat → List Sec → List (Sec × Nat) × Nat
  | a, [] => ([], a)
  | a, c :: r =>
    let b := alignUp a c.align
    let (xs, e) := placeSecs (b + c.size) r
    ((c, b) :: xs, e)

def ObjFile.isData (c : Sec) : Bool := c.name == ascii ".data" || c.name == ascii ".bss"

/-- The sections of the code window and of the data window. -/
def ObjFile.codeSecs (f : ObjFile) : List Sec := f.secs.filter fun c => c.flags.testBit 1 && !ObjFile.isData c
def ObjFile.dataSecs (f : ObjFile) : List Sec := (f.sec (ascii ".data")).toList ++ (f.sec (ascii ".bss")).toList

/-- 64 KiB units that hold some bytes. -/
def unitsOf (n : Nat) : Nat := (n + 65535) / 65536

/-- The place of a section. -/
def placeOf (ps : List (Sec × Nat)) (idx : Nat) : Option (Sec × Nat) := ps.find? fun x => x.1.idx == idx

/-! ### Kernels, frames, maps, relocation tables (R317 to R321, R331, R332) -/

/-- `n` records one after another, and how many bytes they take. -/
def parseMany {α : Type} (one : List Byte → Option (α × List Byte)) : Nat → List Byte → Option (List α × Nat)
  | 0, _ => some ([], 0)
  | n + 1, b => match one b with
    | some (x, r) => (match parseMany one n r with | some (xs, k) => some (x :: xs, b.length - r.length + k) | none => none)
    | none => none

def parseFrame (b : List Byte) : Option (FrameDesc × List Byte) :=
  let h := fld b 0 8
  let n := bitsOf h 24 16
  let es := (List.range n).map fun i => fld b (8 + 4 * i) 4
  let slots := es.map fun e => { slot := bitsOf e 7 0, ty := bitsOf e 12 8, u := e.testBit 13, live := e.testBit 14 : SlotDesc }
  if b.length < 8 + 4 * n || 256 < n || bitsOf h 15 12 ≠ 0 || bitsOf h 63 25 ≠ 0 || bitsOf h 11 0 = 0 ||
      es.any fun e => decide (2 ^ 15 ≤ e) || decide (0x10 < bitsOf e 12 8) then none
  else some ({ k := bitsOf h 11 0, slots := slots }, b.drop (8 + 4 * n))

/-- A recipe (R320). -/
def parseRecipe (b : List Byte) : List Step5 :=
  (List.range 5).map fun i =>
    let w := fld b (8 * i) 8
    { op := bitsOf w 3 0, src := w.testBit 4, slot := bitsOf w 15 8, const := BitVec.ofNat 32 (bitsOf w 63 32) }

/-- Whether a recipe breaks R320: FIRST first, then operations, END to the end, reserved bits zero. -/
def recipeBad (b : List Byte) : Bool :=
  let ws := (List.range 5).map fun i => fld b (8 * i) 8
  let ops := (parseRecipe b).map Step5.op
  decide (b.length < 40) || ws.any (fun w => decide (bitsOf w 7 5 ≠ 0) || decide (bitsOf w 31 16 ≠ 0)) || ops.headD 0 != 1 ||
  (ops.drop 1).any (fun o => o == 1 || decide (8 < o)) || ((ops.drop 1).dropWhile (· ≠ 0)).any (· ≠ 0)

def parseMap (b : List Byte) : Option (MapV × List Byte) :=
  let h := fld b 0 16
  let n := bitsOf h 24 16
  let ro := bitsOf h 95 64
  let ws := (List.range n).map fun i => fld b (16 + 16 * i) 16
  let ents := ws.map fun w =>
    { slot := bitsOf w 7 0, kind := bitsOf w 10 8, reg := bitsOf w 23 16, arg := bitsOf w 63 32, value := BitVec.ofNat 64 (bitsOf w 127 64) : MapEnt }
  let nr := ents.foldl (fun k e => if e.kind = 5 then max k (e.arg + 1) else k) 0
  let stop := max (16 + 16 * n) (if nr = 0 then 0 else ro + 40 * nr)
  if b.length < stop || 256 < n || bitsOf h 31 25 ≠ 0 || bitsOf h 127 96 ≠ 0 || bitsOf h 11 0 = 0 || 256 < nr ||
      ws.any (fun w => decide (bitsOf w 15 11 ≠ 0) || decide (bitsOf w 31 24 ≠ 0) || decide (bitsOf w 10 8 = 7)) ||
      (List.range nr).any fun i => recipeBad (b.drop (ro + 40 * i)) then none
  else
    some ({ k := bitsOf h 11 0, version := bitsOf h 14 12, isJoin := h.testBit 15, pc := BitVec.ofNat 32 (bitsOf h 63 32), ents := ents,
            recipes := (List.range nr).map fun i => parseRecipe (b.drop (ro + 40 * i)) }, b.drop stop)

def parseReloc (b : List Byte) : Option (Reloc × List Byte) :=
  let h := fld b 0 8
  let n := bitsOf h 12 8
  let ws := (List.range n).map fun i => fld b (8 + 16 * i) 16
  if b.length < 8 + 16 * n || 16 < n || bitsOf h 7 6 ≠ 0 || bitsOf h 63 13 ≠ 0 ||
      ws.any fun w => decide (bitsOf w 127 96 ≠ 0) || decide (bitsOf w 95 64 = 0) then none
  else some ({ from_ := bitsOf h 2 0, into := bitsOf h 5 3, ents := ws.map fun w => (bitsOf w 31 0, bitsOf w 63 32, bitsOf w 95 64) }, b.drop (8 + 16 * n))

/-- A default launch record (R332). -/
def gridOf (w : Nat) : Grid :=
  { x := bitsOf w 31 0, y := bitsOf w 63 32, z := bitsOf w 95 64, order := bitsOf w 98 96, swz := bitsOf w 104 99 + 1, start := bitsOf w 107 105,
    runahead := w.testBit 108, chk := w.testBit 109, idemp := w.testBit 110, pair := w.testBit 111, ldnf := w.testBit 112,
    lrnd := w.testBit 113, lw := w.testBit 114 }

/-- Field of version `n` in VERS (R331). -/
def versField (w n : Nat) : Nat := bitsOf w (311 + 24 * n) (288 + 24 * n)

/-- The code section of a version and stream, where it is placed. -/
def ObjFile.codeAt (f : ObjFile) (ps : List (Sec × Nat)) (i v : Nat) (control : Bool) : Option (Nat × Nat) :=
  match ps.find? fun x => x.1.name == textName (f.kname i) v control with
  | some x => some (x.2, x.1.size)
  | none => none

/-- Whether a kernel descriptor breaks R331 or R332, or a limit of R35. -/
def ObjFile.kdBad (f : ObjFile) (ps : List (Sec × Nat)) (i : Nat) : Bool :=
  let w := f.kd i
  let vmask := bitsOf w 47 40
  let rec_ := f.named ".torash.launch"
  let at_ := 16 * bitsOf w 127 96
  let l := fld rec_ at_ 16
  let g := gridOf l
  let wins := f.named ".torash.windows"
  decide (5 < bitsOf w 34 32) || decide (vmask = 0) || decide (64 < bitsOf w 54 48) || w.testBit 55 || decide (32 < bitsOf w 63 58) ||
  decide (bitsOf w 191 176 ≠ 0) || decide (bitsOf w 255 248 ≠ 0) || decide (bitsOf w 511 480 ≠ 0) || decide (56 < bitsOf w 247 240) ||
  ((List.range 8).any fun v =>
    (vmask.testBit v && ((f.codeAt ps i v false).isNone || decide (786432 < 4 * bitsOf (versField w v) 22 5))) ||
    (versField w v).testBit 23 != (f.codeAt ps i v true).isSome) ||
  decide (wins.length < 16 * (bitsOf w 95 64 + bitsOf w 54 48)) ||
  ((List.range (bitsOf w 54 48)).any fun j => windowBad (fld wins (16 * (bitsOf w 95 64 + j)) 16)) ||
  decide (rec_.length < at_ + 16) || decide (g.x * g.y * g.z = 0) || decide (2 ^ 32 ≤ g.x * g.y * g.z) || decide (5 ≤ g.order) ||
  (g.swz != 1 && decide (2 ≤ g.order)) || !vmask.testBit g.start || decide (bitsOf l 127 115 ≠ 0)

/-- The records of kernel `i` in a section: where they start, and the bytes they take; none where it has none. -/
def ObjFile.spanOf {α : Type} (f : ObjFile) (sec : String) (one : List Byte → Option (α × List Byte)) (off n : Nat) : Option (Nat × Nat) :=
  if n = 0 then none else (parseMany one n ((f.named sec).drop off)).map fun r => (off, r.2)

/-- Whether the records of the kernels do not lie in the order of `.torash.kernels` (R330). -/
def ObjFile.orderBad (f : ObjFile) : Bool :=
  let spans (g : Nat → Option (Nat × Nat)) : List (Nat × Nat) := (List.range f.nk).filterMap g
  let bad (x : List (Nat × Nat)) : Bool := (x.zip (x.drop 1)).any fun y => decide (y.2.1 < y.1.1 + y.1.2)
  bad (spans fun i => f.spanOf ".torash.frames" parseFrame (bitsOf (f.kd i) 159 128) (bitsOf (f.kd i) 175 160)) ||
  bad (spans fun i => f.spanOf ".torash.maps" parseMap (bitsOf (f.kd i) 223 192) (bitsOf (f.kd i) 239 224)) ||
  bad (spans fun i => f.spanOf ".torash.reloc" parseReloc (bitsOf (f.kd i) 287 256) (bitsOf (f.kd i) 247 240))

/-- Kernel `i` of the object, its code placed: `none` when the loader refuses it. Its maps are held as they are parsed here, and a transfer reads
them without an L1 access of its own (log entry 89: the model's choice). -/
def ObjFile.kernel (f : ObjFile) (ps : List (Sec × Nat)) (kid ctx obj i : Nat) : Option Kernel :=
  let w := f.kd i
  if f.kdBad ps i then none
  else match parseMany parseFrame (bitsOf w 175 160) ((f.named ".torash.frames").drop (bitsOf w 159 128)),
             parseMany parseMap (bitsOf w 239 224) ((f.named ".torash.maps").drop (bitsOf w 223 192)),
             parseMany parseReloc (bitsOf w 247 240) ((f.named ".torash.reloc").drop (bitsOf w 287 256)) with
  | some (fs, _), some (ms, _), some (rs, _) =>
    some {
      kid := kid, ctx := ctx, obj := obj, name := f.kname i, w := bitsOf w 34 32, teams := bitsOf w 39 35 + 1,
      tarn := [0, 65536, 131072, 262144].getD (bitsOf w 57 56) 0, nbar := bitsOf w 63 58
      wins := (List.range (bitsOf w 54 48)).filterMap fun j =>
        let d := Window.decode (fld (f.named ".torash.windows") (16 * (bitsOf w 95 64 + j)) 16)
        if d.v then some (j, d) else none
      vers := (List.range 8).map fun v =>
        { present := (bitsOf w 47 40).testBit v, regs := 8 * (bitsOf (versField w v) 4 0 + 1), scratch := 4 * bitsOf (versField w v) 22 5,
          team := (f.codeAt ps i v false).getD (0, 0), control := f.codeAt ps i v true : Vers }
      grid := gridOf (fld (f.named ".torash.launch") (16 * bitsOf w 127 96) 16)
      frames := fs, maps := ms, relocs := rs }
  | _, _, _ => none

/-! ### Symbols and relocations (R335, R336) -/

/-- An entry of `.symtab`: name, binding, and its loaded address. -/
def ObjFile.sym (f : ObjFile) (ps : List (Sec × Nat)) (i : Nat) : List Byte × Nat × Option Nat :=
  let b := (f.named ".symtab").drop (24 * i)
  let shndx := fld b 6 2
  let value := fld b 8 8
  (f.str (fld b 0 4), fld b 4 1 / 16,
   if shndx = 0 then none else if shndx = 0xFFF1 then some value
   else match placeOf ps shndx with
     | some (c, a) => some ((a + value + 2 ^ 64 - c.addr) % 2 ^ 64)
     | none => none)

def ObjFile.nsym (f : ObjFile) : Nat := (f.named ".symtab").length / 24

/-- The global definitions of an object, each kernel's name among them, which is strong (R35, R336, R421). A kernel without a symbol of its name
has the address of its lowest version's team code (log entry 70). -/
def ObjFile.exports (f : ObjFile) (ps : List (Sec × Nat)) : List Sym :=
  let isKernel (n : List Byte) : Bool := (List.range f.nk).any fun k => f.kname k == n
  let table := (List.range f.nsym).filterMap fun i =>
    let y := f.sym ps i
    if (y.2.1 = 1 || y.2.1 = 2) && y.2.2.isSome then some { name := y.1, strong := y.2.1 == 1 || isKernel y.1, addr := y.2.2 : Sym }
    else none
  table ++ ((List.range f.nk).filter fun k => !table.any fun y => y.name == f.kname k).map fun k =>
    { name := f.kname k, strong := true,
      addr := some (((List.range 8).findSome? fun v => f.codeAt ps k v false).getD (0, 0)).1 }

/-- Whether 8 bytes at an offset of a code section are a literal field (R32, R167, R169, R170): the instructions are followed from the
section's start by their lengths. -/
def isLiteral (b : List Byte) (off : Nat) : Nat → Nat → Bool
  | 0, _ => false
  | fuel + 1, a =>
    if off < a then false
    else
      let n := fld b a 1 % 4
      (n == 2 && off == a + 4) || (n == 3 && off == a + 12) || isLiteral b off fuel (a + (if n = 0 then 4 else if n = 3 then 20 else 12))

/-- The relocations for a section: place, symbol name (empty for a local one) and addend, with a local symbol's address added. -/
def ObjFile.relocsOf (f : ObjFile) (ps : List (Sec × Nat)) (rela : List Byte) (c : Sec) (a : Nat) : Option (List (Nat × List Byte × Nat)) :=
  let one (i : Nat) : Option (Nat × List Byte × Nat) :=
    let e := rela.drop (24 * i)
    let off := (fld e 0 8 + 2 ^ 64 - c.addr) % 2 ^ 64
    let y := f.sym ps (fld e 12 4)
    let fits := decide (off + 8 ≤ c.size) &&
      (c.name == ascii ".data" || isLiteral (f.body c) off (c.size / 4 + 1) 0)
    if fld e 8 4 ≠ 1 || !fits || f.nsym ≤ fld e 12 4 then none
    else if y.2.1 = 0 then (match y.2.2 with | some v => some (a + off, [], v + fld e 16 8) | none => none)
    else some (a + off, y.1, fld e 16 8)
  ((List.range (rela.length / 24)).map one).foldr (fun x acc => match x, acc with | some r, some rs => some (r :: rs) | _, _ => none) (some [])

/-- All relocations of the object: those of `.data` and of its code sections (R330, R335). -/
def ObjFile.relocs (f : ObjFile) (ps : List (Sec × Nat)) : Option (List (Nat × List Byte × Nat)) :=
  ps.foldl (fun acc x => match acc, f.sec (ascii ".rela" ++ x.1.name) with
    | some rs, some r =>
      if r.ty = 4 && (x.1.name == ascii ".data" || f.textNames.contains x.1.name) then (match f.relocsOf ps (f.body r) x.1 x.2 with | some q => some (rs ++ q) | none => none) else some rs
    | rs, _ => rs) (some [])

/-- The definition that a name resolves to among objects in load order (R336): a strong one, else the first weak one. -/
def resolve (os : List Obj) (name : List Byte) : Option Nat :=
  let defs := os.flatMap fun o => o.syms.filter fun y => y.name == name && y.addr.isSome
  match defs.find? Sym.strong with
  | some y => y.addr
  | none => match defs with
    | y :: _ => y.addr
    | [] => none

/-- The 64 bits of a relocation (R335): S + A. -/
def relocValue (os : List Obj) (r : Nat × List Byte × Nat) : Option Nat :=
  if r.2.1 = [] then some (r.2.2 % 2 ^ 64) else (resolve os r.2.1).map fun v => (v + r.2.2) % 2 ^ 64

/-- Whether every reference of some objects has a definition. -/
def allBound (os : List Obj) : Bool := os.all fun o => o.relocs.all fun r => (relocValue os r).isSome

/-- Whether two objects define one name strongly (R336). -/
def strongClash (o : Obj) (os : List Obj) : Bool :=
  let mine := (o.syms.filter Sym.strong).map Sym.name
  !decide mine.Nodup || os.any fun p => p.syms.any fun y => y.strong && mine.contains y.name

/-- The words of some objects whose binding differs between two sets of definitions, with the object of each and the new value. -/
def rebound (kept before after : List Obj) : List (Nat × Nat × Nat) :=
  kept.flatMap fun o => o.relocs.filterMap fun r =>
    match relocValue after r with
    | some v => if relocValue before r = some v then none else some (o.handle, r.1, v)
    | none => none

/-! ### Launches of an object (R337) -/

/-- Whether a launch of an object is admitted and not yet complete. -/
def State.objBusy (s : State) (handle : Nat) : Bool :=
  s.launches.any fun l => (l.2.st == .leasing || l.2.st == .admitting) && (s.kernel l.2.kid).obj == handle

/-- Whether a LAUNCH of an object is queued: it stands in a ring of the context, not yet started, now or as it was read ahead (R365). A packet
that cannot be read now may be one. -/
def State.objQueued (s : State) (ctx handle : Nat) : Bool :=
  let names (bs : List Byte) : Bool := let w := natOfBytes bs; bitsOf w 7 0 == 1 && (s.kernel (bitsOf w 63 32)).obj == handle
  s.queues.any fun q => q.2.ctx == ctx && (List.range (q.2.wptr - q.2.rptr)).any fun i =>
    (match q.2.early.look (q.2.rptr + i) with | some bs => names bs | none => false) ||
    (match s.readSpan ctx (pieces (q.2.base.toNat + 64 * ((q.2.rptr + i) % 2 ^ q.2.n)) 64) with
     | (.ok bs, _) => names bs
     | _ => true)

/-! ### Writing by firmware -/

/-- Bytes written at global addresses of a context, page rights not asked. -/
def State.fwWrite (s : State) (ctx va : Nat) (bs : List Byte) : State :=
  (sectorsOf va bs).foldl (fun s x => match s.translate ctx x.1 with
    | (.ok l, s1) => s1.performWrite ctx x.1 l x.2
    | (_, s1) => s1) s

/-- A 64 KiB unit of a loader window backed by the granted frame granted last, which reads zero (R421). -/
def State.backUnit (s : State) (ctx key : Nat) (w : Window) (unit : Nat) : LeafPut × State :=
  match (s.ctxOf ctx).granted.reverse.find? fun f => !s.wh.retired.contains f with
  | none => (.full, s)
  | some f =>
    let leaf : Leaf := BitVec.ofNat 64 (1 + 2 * w.r.toNat + 4 * w.w.toNat + 8 * w.x.toNat + 128 + 512 * key + 65536 * f)
    let x := s.ctxOf ctx
    let s1 := s.setCtx ctx { x with granted := x.granted.filter (· != f), drvPin := unit :: x.drvPin.filter (· != unit) }
    (s1.wipeFrame f).installLeaf ctx (unit * 65536) 0 leaf

/-- The units of some windows, backed one after another. -/
def State.backAll (s : State) (ctx key : Nat) (ws : List Window) : LeafPut × State :=
  (ws.flatMap fun w => (List.range w.size).map fun i => (w, w.base + i)).foldl
    (fun t u => match t with | (.done, s) => s.backUnit ctx key u.1 u.2 | r => r) (.done, s)

/-! ### LOAD (R334, R421) -/

/-- What a LOAD does to its context once nothing refuses it. -/
structure Plan where
  obj   : Obj
  kerns : List Kernel
  wins  : Store Window
  mine  : List Window
  parts : List (Nat × List Byte)
  code  : Nat
  data  : Nat
  deriving DecidableEq, Repr, Inhabited

/-- The declared windows of some kernels added to a set: `none` where two descriptors of one index differ (R334). -/
def addWins (m : Store Window) (xs : List (Nat × Window)) : Option (Store Window) :=
  xs.foldl (fun acc x => match acc with
    | some m => (match Store.look m x.1 with
        | some w => if w = x.2 then some m else none
        | none => some (Store.put m x.1 x.2))
    | none => none) (some m)

/-- Loader windows at the lowest free indexes (R334): `none` where no index is free. -/
def addLoader (m : Store Window) : List Window → Option (Store Window × List Nat)
  | [] => some (m, [])
  | w :: r => match (List.range 64).find? fun i => (Store.look m i).isNone with
    | none => none
    | some i => match addLoader (Store.put m i w) r with
      | some (m', is) => some (m', i :: is)
      | none => none

/-- The plan of a LOAD: `none` where the loader refuses the object (R329 to R336, R421). -/
def State.plan (s : State) (m : Msg) (o : List Byte) (handle kid0 : Nat) : Option Plan :=
  let ctx := m.bits 111 96
  let key := m.bits 134 128
  let cb := m.bits 255 192
  let db := m.bits 319 256
  let sb := m.bits 383 320
  let ss := m.bits 127 112
  match ObjFile.read o with
  | none => none
  | some f =>
    let (cs, ce) := placeSecs cb f.codeSecs
    let (ds, de) := placeSecs db f.dataSecs
    let ps := cs ++ ds
    let code := unitsOf (ce - cb)
    let data := unitsOf (de - db)
    let ks := (List.range f.nk).filterMap fun i => f.kernel ps (kid0 + i) ctx handle i
    let mine := (if code = 0 then [] else [{ base := cb / 65536, size := code, r := true, x := true, v := true : Window }]) ++
      (if data = 0 then [] else [{ base := db / 65536, size := data, r := true, w := true, v := true : Window }]) ++
      (if ss = 0 then [] else [{ base := sb / 65536, size := ss, r := true, w := true, v := true : Window }])
    let others := (s.objs.filter fun x => x.2.ctx == ctx).map Prod.snd
    match f.relocs ps, addWins (s.ctxOf ctx).wins (ks.flatMap Kernel.wins) with
    | some rs, some ws =>
      (match addLoader ws mine with
       | some (ws', is) =>
         let obj : Obj := { handle := handle, ctx := ctx, wins := is, kids := ks.map Kernel.kid, syms := f.exports ps, relocs := rs }
         if f.secsBad || f.orderBad || ks.length ≠ f.nk || 249 < f.nk || cb % 65536 ≠ 0 || db % 65536 ≠ 0 || (ss ≠ 0 && sb % 65536 ≠ 0) ||
             winsMeet ws' || mine.any (fun w => decide (2 ^ 36 < w.base + w.size)) || s.keyBad ctx key || strongClash obj others ||
             !decide (ks.map Kernel.name).Nodup || !allBound (others ++ [obj]) then none
         else some { obj := obj, kerns := ks, wins := ws', mine := mine, parts := ps.map fun x => (x.2, f.body x.1), code := code, data := data }
       | none => none)
    | _, _ => none

/-- The memory of a planned load: sections and relocations written, and the words of other objects that are bound anew (R335 to R337). -/
def State.writePlan (s : State) (ctx : Nat) (p : Plan) (others : List Obj) : State :=
  let s1 := p.parts.foldl (fun s x => s.fwWrite ctx x.1 x.2) s
  let s2 := p.obj.relocs.foldl (fun s r => match relocValue (others ++ [p.obj]) r with
    | some v => s.fwWrite ctx r.1 (bytesOfNat 8 v)
    | none => s) s1
  (rebound others others (others ++ [p.obj])).foldl (fun s r => s.fwWrite ctx r.2.1 (bytesOfNat 8 r.2.2)) s2

/-- A measurement register extended by a digest (R398). -/
def State.extend (s : State) (n : Nat) (d : BitVec 256) : State :=
  { s with wh := { s.wh with mr := s.wh.mr.put n (Config.sha256 (bytesOfNat 32 (s.wh.mr.get 0 n).toNat ++ bytesOfNat 32 d.toNat)) } }

def execLoad (s : State) : Out :=
  serve 0x19 (lenIs 48) s fun m s =>
    let ctx := m.bits 111 96
    let o := readBytes s.hostMem (m.bits 63 0) (m.bits 95 64)
    if m.bits 191 135 ≠ 0 then m.reply s stBadMsg
    else if (s.ctxs.look ctx).isNone then m.reply s stRefused
    else match s.plan m o s.ids (s.ids + 1) with
      | none => m.reply s stRefused
      | some p =>
        let others := (s.objs.filter fun x => x.2.ctx == ctx).map Prod.snd
        let moved := (rebound others others (others ++ [p.obj])).map Prod.fst
        if moved.any fun h => s.objBusy h || s.objQueued ctx h then s
        else match ({ s.countPort 20 1 1 with ids := s.ids + 1 + p.kerns.length } : State).backAll ctx (m.bits 134 128) p.mine with
          | (.full, _) => m.reply s stNoSpace
          | (.wait, s1) => if s1.wh.stopped then s1 else s
          | (.done, s1) =>
            let s2 := s1.setCtx ctx { s1.ctxOf ctx with wins := p.wins }
            let s3 := s2.writePlan ctx p others
            let s4 : State := { s3 with objs := s3.objs.put p.obj.handle p.obj, kernels := p.kerns.foldl (fun (ks : Store Kernel) k => ks.put k.kid k) s3.kernels }
            (s4.extend 3 (Config.sha256 o)).answer m.page m.op stOk
              (bytesOfNat 8 p.obj.handle ++ bytesOfNat 2 p.kerns.length ++ bytesOfNat 2 0 ++ bytesOfNat 4 p.code ++ bytesOfNat 4 p.data ++
               p.kerns.flatMap fun k => bytesOfNat 4 k.kid)

/-! ### UNLOAD (R334, R337) -/

/-- A unit unmapped: its frame is the context's to use again, its reverse tag cleared (R125). -/
def State.unbackUnit (s : State) (ctx unit : Nat) : LeafPut × State :=
  match s.walk ctx (unit * 65536) with
  | (.leaf l, s1) =>
    let x := s1.ctxOf ctx
    let s2 := s1.setCtx ctx { x with granted := x.granted ++ [Leaf.frame l], drvPin := x.drvPin.filter (· != unit) }
    (match s2.installLeaf ctx (unit * 65536) 0 0 with
     | (.done, s3) => (.done, s3.freeFrame (Leaf.frame l))
     | r => r)
  | (.wait, s1) => (.wait, s1)
  | (_, s1) => (.done, s1)

def execUnload (s : State) : Out :=
  serve 0x1A (lenIs 8) s fun m s =>
    match s.objs.look (m.bits 63 0) with
    | none => m.reply s stRefused
    | some o =>
      let before := (s.objs.filter fun x => x.2.ctx == o.ctx).map Prod.snd
      let kept := before.filter fun x => x.handle != o.handle
      let words := rebound kept before kept
      if s.objBusy o.handle then m.reply s stBusy
      else if !allBound kept then m.reply s stRefused
      else if words.any fun w => s.objBusy w.1 || s.objQueued o.ctx w.1 then s
      else
        let s1 := words.foldl (fun s w => s.fwWrite o.ctx w.2.1 (bytesOfNat 8 w.2.2)) s
        let units := o.wins.flatMap fun i => match Store.look (s.ctxOf o.ctx).wins i with
          | some w => (List.range w.size).map (w.base + ·)
          | none => []
        let (put, s2) := units.foldl (fun (a : LeafPut × State) u => match a with
          | (.wait, t) => (.wait, t)
          | (_, t) => t.unbackUnit o.ctx u) (.done, s1)
        if put = .wait then (if s2.wh.stopped then s2 else s)
        else
        let ks : Store Kernel := s2.kernels.filter fun k => k.2.obj != o.handle
        let stays (i : Nat) : Bool := ((s2.ctxOf o.ctx).own.look i).isSome || (kept.any fun p => p.wins.contains i) ||
          ks.any fun k => k.2.ctx == o.ctx && k.2.wins.any fun w => w.1 == i
        let s3 : State := { s2 with kernels := ks, objs := s2.objs.erase o.handle }
        m.reply (s3.setCtx o.ctx { s3.ctxOf o.ctx with wins := (s3.ctxOf o.ctx).wins.filter fun w => stays w.1 }) stOk

end Sys2Proof.Machine
end

