-- ==== Sys2Proof/Machine/Security.lean ====
section
/-! DEFINITION. Security (R392 to R403): the wipe, boot and reset, lifecycle, tenant keys, attestation, debug unlock, staged images. The
cryptographic functions are constants without a body (log entry 8); digests are byte lists of 32 bytes, lowest first in a word. -/

namespace Sys2Proof.Machine

/-! ### The wipe (R399) -/

/-- The lifecycle code (R399). -/
def Life.code : Life → Nat
  | .manufacture => 0
  | .provisioned => 1
  | .deployed => 2
  | .debug => 3
  | .retired => 4

def lifeOf : Nat → Option Life
  | 0 => some .manufacture
  | 1 => some .provisioned
  | 2 => some .deployed
  | 3 => some .debug
  | 4 => some .retired
  | _ => none

/-- A core with its memories and register files wiped; its clock and counters run on (R344). -/
def Core.wipe (c : Core) : Core :=
  { cycle := c.cycle, dropped := c.dropped
    slots := c.slots.map fun x => (x.1, { free := x.2.free, leaves := x.2.leaves, ctr := x.2.ctr : Slot }) }

/-- A partition with its caches and its fault park wiped; its counters run on. -/
def Partn.wipe (p : Partn) : Partn := { p with watch := [], tlb := [], rtags := [], recs := [] }

/-- The lifecycle states in which the debug port is open (R399). -/
def Life.portOpen : Life → Bool
  | .manufacture | .debug => true
  | _ => false

/-- What a change of lifecycle state wipes (R399): every memory and cache on the dies, every key slot, HBM by its elision codes at once
and physically before the first context is admitted. A mailbox page with an outstanding request keeps it (log entry 72). -/
def State.wipe (s : State) : State :=
  { s with
    cores := s.cores.map fun c => (c.1, c.2.wipe)
    ctls := s.ctls.map fun c => (c.1, { cycle := c.2.cycle, free := c.2.free : Control })
    parts := s.parts.map fun p => (p.1, p.2.wipe)
    reqs := [], reports := [], basin := [], elision := [], pond := [], hwAlg := []
    wh := { s.wh with keys := [], log := [], wiped := false, mbox := s.wh.mbox.filter fun m => m.2.reqseq != m.2.rspseq } }

/-- A change of lifecycle state: the wipe, and MR2 extended with the old and the new code (R399). -/
def State.changeLife (s : State) (dest : Life) : State :=
  let d := Config.sha256 [BitVec.ofNat 8 s.wh.life.code, BitVec.ofNat 8 dest.code]
  let s1 := s.wipe.extend 2 d
  { s1 with wh := { s1.wh with life := dest } }

/-! ### Images and boot (R397, R398) -/

/-- The digest of an image: of its header but for the signature, and its body. -/
def imageDigest (b : List Byte) : BitVec 256 := Config.sha256 (b.take 88 ++ (b.drop 152).take (360 + fld b 4 4))

/-- Whether a public key's hash is an unrevoked root hash (R397, R398). -/
def rootKey (key : List Byte) : Bool := (List.range 3).any fun i => Config.rootHash i == Config.sha256 key && !Config.rootRevoked i

/-- Whether an image of a kind is accepted (R398). -/
def imageOk (kind : Nat) (b : List Byte) : Bool :=
  decide (512 + fld b 4 4 ≤ b.length) && fld b 0 4 == kind && rootKey ((b.drop 24).take 64) &&
  Config.ecdsaVerify ((b.drop 24).take 64) ((b.drop 88).take 64) (imageDigest b) && decide (Config.svn.toNat ≤ fld b 8 8) &&
  fld b 18 6 == 0 && fld b 152 360 == 0

/-- A copy of the firmware image on the drives: as they first hold it, with what FW_STAGE has written (R395, R397; log entry 84). -/
def State.imageCopy (s : State) (c : Nat) : List Byte :=
  let st : Store Byte := s.wh.copies.get [] c
  let at_ (i : Nat) : Byte := (st.look i).getD ((Config.nvme c).getD i 0)
  (List.range (512 + natOfBytes ((List.range 4).map fun i => at_ (4 + i)))).map at_

/-- The device as a reset leaves it (R397, R399): every memory is wiped, HBM physically once the firmware runs, and DEBUG falls back to
DEPLOYED, a change that extends MR2 (log entry 86). Expander and host memory, the fuses, flash and the drives stay. -/
def State.wiped (s : State) : State :=
  let back := s.wh.life = .debug
  let t : State := { State.reset with
    farMem := s.farMem, hostMem := s.hostMem, msix := s.msix, ids := s.ids, fresh := s.fresh, tick := s.tick, turn := s.turn
    wh := { life := if back then .deployed else s.wh.life, booted := false, copies := s.wh.copies, active := s.wh.active
            retired := s.wh.retired, dumps := s.wh.dumps, peers := s.wh.peers, keyGen := s.wh.keyGen, power := s.wh.power
            junction := s.wh.junction, cycle := s.wh.cycle, samples := s.wh.samples }
    dram := s.dram, badBlk := s.badBlk, blockKey := s.blockKey }
  if back then t.extend 2 (Config.sha256 [3, 2]) else t

/-- Cores 1 to 7 released, in recovery or not (R397). -/
def State.release (s : State) (recovery : Bool) : State := { s with wh := { s.wh with booted := true, recovery := recovery } }

/-- A reset and the boot (R397, R398): the ROM takes stage 1 from flash copy A, or from B if A is not accepted, and extends MR0; stage 1 takes
the firmware from one copy of the firmware namespace, or from the other if that is not accepted, and extends MR1, and MR2 by the lifecycle
code. Where both copies of a stage fail the device enters recovery. Which firmware copy is tried first is a free choice (log entry 84). The
outside supplies whether the drives' first root port fails and which copies cannot be read (log entry 26). -/
def execReset (root : Bool) (flash image : BitVec 2) (s : State) : Out :=
  let (b, s0) := s.freeBool
  let t := s0.wiped
  match [0, 1].find? fun c => !flash.getLsbD c && imageOk 1 (Config.flash c) with
  | none => .next (t.release true)
  | some a =>
    let t1 := (t.extend 0 (imageDigest (Config.flash a))).countPort (if root then 19 else 18) 1 1
    match [b.toNat, 1 - b.toNat].find? fun c => !image.getLsbD c && imageOk 2 (t1.imageCopy c) with
    | none => .next (t1.release true)
    | some c =>
      let t2 := (t1.extend 1 (imageDigest (t1.imageCopy c))).extend 2 (Config.sha256 [BitVec.ofNat 8 t1.wh.life.code])
      .next (({ t2 with wh := { t2.wh with active := c, callmax := some (BitVec.ofNat 16 (fld (t1.imageCopy c) 16 2)) } } : State).release false)

/-! ### Tokens (R402, R403) -/

/-- The checks on a token from the one for contexts to the signature, whose key must satisfy `key`: a failure's status and the state, in
which the nonce is consumed once it has been reached. A DEBUG_UNLOCK then reads the fuses again, and whether they have changed is free (R403; log
entry 8). -/
def State.tokenCheck (s : State) (m : Msg) (scope : Nat) (key : List Byte → Bool) : Option Nat × State :=
  if s.anyCtx then (some stBusy, s)
  else if m.bits 127 0 ≠ Config.devid.toNat || m.bits 135 128 ≠ s.wh.life.code || m.bits 143 136 ≠ scope then (some stAuth, s)
  else
    let s1 : State := { s with wh := { s.wh with nonce := none } }
    let pub := (m.body.drop 52).take 64
    if s.wh.nonce ≠ some (BitVec.ofNat 256 (m.bits 415 160)) || !key pub ||
        !Config.ecdsaVerify pub ((m.body.drop 116).take 64) (Config.sha256 (m.body.take 116)) then (some stAuth, s1)
    else if scope = 3 then
      let (changed, s2) := s1.freeBool
      (if changed then some stState else none, s2)
    else (none, s1)

/-- DEBUG_UNLOCK (R403). -/
def execDebugUnlock (s : State) : Out :=
  serve 0x24 (lenIs 180) s fun m s =>
    if m.bits 159 144 ≠ 0 then m.reply s stBadMsg
    else if s.wh.life ≠ .deployed || Config.debugDisabled then m.reply s stState
    else match s.tokenCheck m 3 (fun k => Config.sha256 k == Config.debugHash) with
      | (some st, s1) => m.reply s1 st
      | (none, s1) =>
        let s2 := s1.extend 2 (Config.sha256 m.body)
        let s3 : State := { s2 with wh := { s2.wh with unlocks := s2.wh.unlocks + 1 } }
        m.reply (s3.changeLife .debug) stOk

/-- Whether LIFECYCLE makes a transition: those of the table that are fused, and from DEBUG to RETIRED (R399, R403; log entry 71). -/
def fused : Life → Life → Bool
  | .manufacture, .provisioned => true
  | .provisioned, .deployed => true
  | .provisioned, .retired => true
  | .deployed, .retired => true
  | .debug, .retired => true
  | _, _ => false

def execLifecycle (s : State) : Out :=
  serve 0x25 (lenIs 180) s fun m s =>
    if m.bits 159 144 ≠ 0 then m.reply s stBadMsg
    else match lifeOf (m.bits 143 136) with
      | none => m.reply s stState
      | some dest =>
        if !fused s.wh.life dest then m.reply s stState
        else match s.tokenCheck m dest.code rootKey with
          | (some st, s1) => m.reply s1 st
          | (none, s1) => m.reply (s1.changeLife dest) stOk

/-- A fresh nonce, in place of any earlier one (R403). -/
def execDebugNonce (s : State) : Out :=
  serve 0x23 (lenIs 0) s fun m s =>
    let (bs, s1) := s.freeBytes 32
    let s2 : State := { s1 with wh := { s1.wh with nonce := some (BitVec.ofNat 256 (natOfBytes bs)) } }
    s2.answer m.page m.op stOk bs

/-! ### Tenant keys (R400) -/

def execKeySet (s : State) : Out :=
  serve 0x20 (lenIs 144) s fun m s =>
    let slot := m.bits 7 0
    if m.bits 15 8 ≠ 0 || m.bits 63 32 ≠ 0 then m.reply s stBadMsg
    else if slot = 0 || 127 < slot then m.reply s stRefused
    else if s.wh.life = .manufacture || s.wh.life = .debug then m.reply s stState
    else if (s.wh.keys.look slot).isSome then m.reply s stBusy
    else
      let kek := Config.sha256 (Config.ecdh ((m.body.drop 8).take 64) ++ [BitVec.ofNat 8 slot] ++ bytesOfNat 16 Config.devid.toNat)
      match Config.aesUnwrap kek ((m.body.drop 72).take 72) with
      | none => m.reply s stAuth
      | some k =>
        let w := s.wh
        m.reply { s with wh := { w with keys := w.keys.put slot { ctx := m.bits 31 16, key := k, gen := w.keyGen + 1 }, keyGen := w.keyGen + 1 } } stOk

def execKeyClear (s : State) : Out :=
  serve 0x21 (lenIs 1) s fun m s =>
    let slot := m.bits 7 0
    if slot = 0 || 127 < slot then m.reply s stRefused
    else match s.wh.keys.look slot with
      | none => m.reply s stOk
      | some k =>
        if (s.ctxs.look k.ctx).isSome then m.reply s stBusy
        else m.reply { s with wh := { s.wh with keys := s.wh.keys.erase slot } } stOk

/-! ### Attestation (R401) -/

/-- Bytes 0 to 255 of a report. -/
def State.report (s : State) (nonce : Nat) : List Byte :=
  let w := s.wh
  let ver := match w.callver with | some v => v.toNat | none => 0
  bytesOfNat 256 (1 + 2 ^ 8 * w.life.code + 2 ^ 16 * ver + 2 ^ 32 * w.unlocks.toNat + 2 ^ 64 * Config.devid.toNat +
    2 ^ 192 * Config.svn.toNat + 2 ^ 256 * nonce + 2 ^ 512 * (w.mr.get 0 0).toNat + 2 ^ 768 * (w.mr.get 0 1).toNat +
    2 ^ 1024 * (w.mr.get 0 2).toNat + 2 ^ 1280 * (w.mr.get 0 3).toNat)

def execAttest (s : State) : Out :=
  serve 0x22 (lenIs 32) s fun m s =>
    let r := s.report (m.bits 255 0)
    s.answer m.page m.op stOk (r ++ bytesOfNat 64 (Config.ecdsaSign (Config.sha256 r)).toNat ++ bytesOfNat 8 Config.chain.length ++
      Config.chain.take 688)

def execAttestChain (s : State) : Out :=
  serve 0x27 (lenIs 4) s fun m s =>
    let off := m.bits 31 0
    if Config.chain.length ≤ off then m.reply s stRefused
    else s.answer m.page m.op stOk (bytesOfNat 8 Config.chain.length ++ (Config.chain.drop off).take 1008)

/-! ### FW_STAGE (R395) -/

/-- A chunk of an image written into the inactive copy; the copy is verified at the next reset. -/
def execFwStage (s : State) : Out :=
  serve 0x26 (fun n => decide (8 ≤ n)) s fun m s =>
    let c := 1 - s.wh.active
    let s1 := s.countPort 18 1 1
    m.reply { s1 with wh := { s1.wh with copies := s1.wh.copies.put c (writeBytes (s1.wh.copies.get [] c) (m.bits 63 0) (m.body.drop 8)) } } stOk

end Sys2Proof.Machine
end

