-- ==== Sys2Proof/Machine/Fleet.lean ====
section
/-! DEFINITION. The module (R397, R404 to R407, R411 to R413): scrubbing, the power and thermal controller, the end of the HBM wipe. -/

namespace Sys2Proof.Machine

/-- An entry of the log merged into the one that is there for the same block and scrub pass, or for the same second, by raising COUNT (R407,
R411); else a new entry. -/
def State.logMerged (s : State) (r : LogRec) : State :=
  let same (y : LogRec) : Bool := y.cls == r.cls && y.unit == r.unit && y.index == r.index && y.addr == r.addr && y.span == r.span
  match s.wh.log.find? same with
  | some y => { s with wh := { s.wh with log := s.wh.log.map fun z => if z.seq = y.seq then { z with count := z.count + r.count } else z } }
  | none => s.logEvent r

/-- The scrubber meets a block with some bit errors (R404 to R406): only one of code 00 that has no line in the Basin, and none while the stack
retrains (R410). A correctable block is written back as it was; an uncorrectable one stays, and reads as poison. A new pass over the
partition may begin with it. -/
def execScrubBlock (part frame half errors : Nat) (s : State) : Out :=
  let blk := (part * 2 ^ 23 + frame) * 2 + half
  if 64 ≤ part || 2 ^ 23 ≤ frame || 2 ≤ half || s.wh.stopped || (s.elisionOf part frame).code half ≠ 0 || (s.basin.look blk).isSome || (s.part part).training then .next s
  else
    let (next, s0) := s.freeBool
    let p := s0.part part
    let s1 := s0.setPart part { p with scrubs := p.scrubs + 1, pass := p.pass + next.toNat }
    if s.badBlk.get false blk || 24 < errors then
      let s2 : State := { s1 with badBlk := s1.badBlk.put blk true }
      .next (s2.logUce part frame half)
    else if errors = 0 then .next s1
    else
      let q := s1.part part
      let s2 := (s1.setPart part { q with ce := q.ce + 1 }).logMerged
        { cls := 1, unit := 0, index := part, count := BitVec.ofNat 32 errors, addr := BitVec.ofNat 64 (frame * 1024 + half * 512), span := q.pass }
      .next (if 12 ≤ errors then s2.retire frame else s2)

/-- The core clock set, a change logged as CAP (R411). -/
def State.setClock (s : State) (mhz : Nat) : State :=
  if s.wh.clock = mhz then s
  else ({ s with wh := { s.wh with clock := mhz } } : State).logMerged { cls := 8, unit := 5, count := 1, span := s.second }

/-- A step of 25 MHz down, to 875 MHz (R411). -/
def State.slower (s : State) : State := s.setClock (max 875 (s.wh.clock - 25))

/-- The controller's comparison every 100 µs (R411, R413). -/
def execPowerSample (watts : Nat) (s : State) : Out :=
  let s1 : State := { s with wh := { s.wh with power := watts, samples := s.wh.samples + 1 } }
  if s.wh.stopped then .next s
  else if s.wh.limit < watts || 95 ≤ s.wh.junction then .next s1.slower
  else if 100 * watts < 95 * s.wh.limit then .next (s1.setClock (min 1750 (s.wh.clock + 25)))
  else .next s1

/-- A junction temperature (R413): from 95 °C the clock goes down, at 110 °C the compute dies stop as for FATAL. -/
def execThermalEvent (celsius : Nat) (s : State) : Out :=
  let s1 : State := { s with wh := { s.wh with junction := celsius } }
  if s.wh.stopped then .next s
  else if 110 ≤ celsius then .next (s1.logEvent { cls := 7, unit := 5 }).fatalStop
  else if 95 ≤ celsius then .next s1.slower
  else .next s1

/-- HBM has been wiped physically, with zeros and fresh sidecars (R397, R399). -/
def execHbmWipeComplete (s : State) : Out :=
  if s.wh.wiped || s.wh.recovery || s.wh.stopped || !s.wh.booted then .next s
  else .next { s with dram := [], badBlk := [], blockKey := [], wh := { s.wh with wiped := true } }

end Sys2Proof.Machine
end

