-- ==== Sys2Proof/Machine/SlotEvents.lean ====
section
/-! DEFINITION. The events of an issue slot and of a control core (chapters 03, 07 and 08): stall counts, instruction fetch, spills and
fills of convergence stacks, timeouts of `MONWAIT` and `WFI`, entry into run-ahead and its restore. A control core is named by core
256 + cluster. An event whose precondition does not hold changes nothing. -/

namespace Sys2Proof.Machine

/-! ### STALL_COUNT_EXPIRY (R50, R61) -/

/-- The stall count of an entry, or of a control stream, has elapsed. -/
def execStallCountExpiry (core slot entry : Nat) (s : State) : Out :=
  if core < 256 then
    match s.entry? core slot entry with
    | none => .next s
    | some x => (match x.st with
        | .stalled till => if till ≤ (s.core core).cycle then .next (s.makeReady core slot entry) else .next s
        | _ => .next s)
  else
    let x := s.ctl (core - 256)
    match x.st with
    | .stalled till => if till ≤ x.cycle then .next (s.setCtl (core - 256) { x with st := .ready }) else .next s
    | _ => .next s

/-! ### INSTRUCTION_FETCH (R165, R166) -/

/-- What a fetch of a word meets: the word and the sector it lies in, with the sector's bytes. -/
inductive FetchWord where
  | word (w : Word) (sector : Nat × List Byte)
  | absent
  | refused
  /-- Nothing comes yet: parked writes of the page, a full partition, a retraining (R131, R410). -/
  | wait
  deriving DecidableEq, Repr

def State.codeCache (s : State) (port : Nat) : Store (List Byte) :=
  if port < 256 then (s.core port).icache else (s.ctl (port - 256)).icache

/-- A sector put into a 64 KiB instruction cache (R16). -/
def State.putCode (s : State) (port key : Nat) (bs : List Byte) : State :=
  let (b, s1) := s.free64
  let m := (cacheRoom 2048 b.toNat (s1.codeCache port) key).put key bs
  if port < 256 then s1.setCore port { s1.core port with icache := m }
  else s1.setCtl (port - 256) { s1.ctl (port - 256) with icache := m }

/-- A sector of code through the instruction cache of a core or control core, whole old or whole new (R166): a cached sector may have been
replaced (log entry 11); poison refuses the fetch (log entry 37), and a peer's memory serves none (R387). -/
def State.fetchSector (s : State) (port ctx sec : Nat) (who : Met) : FetchWord × State :=
  let (gone, s1) := s.freeBool
  match (s1.codeCache port).look (sectorKey ctx sec), gone with
  | some bs, false => (.word 0 (sec, bs), s1)
  | _, _ =>
    match s1.translate ctx sec who with
    | (.absent, s2) => (.absent, s2)
    | (.wait, s2) => (.wait, s2)
    | (.malformed, s2) => (.refused, s2)
    | (.synonym, s2) => (.refused, s2)
    | (.ok l, s2) =>
      if !s2.grants ctx sec l .x || s2.linkDown l || (l.far && l.target == 3) then (.refused, s2)
      else if s2.pageWaits ctx sec l then (.wait, s2)
      else
        let (bs, bad, s3) := s2.readG l sec 32
        if bad then (.refused, s3) else (.word 0 (sec, bs), s3.putCode port (sectorKey ctx sec) bs)

/-- One word at a global address: the window's X right, then its sector, read once for all words of an instruction in it. -/
def State.fetchWord (s : State) (port ctx va : Nat) (who : Met) (last : Option (Nat × List Byte)) : FetchWord × State :=
  let pick (y : Nat × List Byte) : FetchWord := .word (BitVec.ofNat 32 (natOfBytes ((y.2.drop (va % 32)).take 4))) y
  if !s.windowOk ctx va 4 .x then (.refused, s)
  else match last.filter fun y => y.1 == va / 32 * 32 with
    | some y => (pick y, s)
    | none => match s.fetchSector port ctx (va / 32 * 32) who with
      | (.word _ y, s1) => (pick y, s1)
      | r => r

/-- What a fetch of an instruction ends in. -/
inductive FetchEnd where
  | got (f : Fetched)
  | absent
  | wait
  deriving DecidableEq, Repr

/-- The further words of an instruction at a code section's byte `o` (R165). A word beyond the section's end refuses the instruction at the
PC of its first word (log entry 31). -/
def State.fetchMore (s : State) (port ctx : Nat) (code : Nat × Nat) (who : Met) : Nat → Nat → List Word → Nat × List Byte → FetchEnd × State
  | 0, _, ws, _ => (.got (.words ws), s)
  | n + 1, o, ws, last =>
    if code.2 ≤ o then (.got .refused, s)
    else match s.fetchWord port ctx (code.1 + o) who (some last) with
      | (.word w y, s1) => s1.fetchMore port ctx code who n (o + 4) (ws ++ [w]) y
      | (.absent, s1) => (.absent, s1)
      | (.wait, s1) => (.wait, s1)
      | (.refused, s1) => (.got .refused, s1)

/-- A fetch at a PC of a code section (address, length). -/
def State.fetchAt (s : State) (port ctx : Nat) (code : Nat × Nat) (who : Met) : FetchEnd × State :=
  let pc := who.pc.toNat
  if code.2 ≤ pc then (.got .refused, s)
  else match s.fetchWord port ctx (code.1 + pc) who none with
    | (.absent, s1) => (.absent, s1)
    | (.wait, s1) => (.wait, s1)
    | (.refused, s1) => (.got .refused, s1)
    | (.word w y, s1) => s1.fetchMore port ctx code who (wordCount w - 1) (pc + 4) [w] y

/-- The instruction at an entry's or a control stream's PC is fetched. An absent page in an ELASTIC or FAR window is paged in and the
fetch waits; a run-ahead fetch starts no paging (R129). -/
def execInstructionFetch (core slot entry : Nat) (s : State) : Out :=
  if core < 256 then
    match s.entry? core slot entry with
    | none => .next s
    | some x =>
      let due := x.ibuf.isNone && (match x.st with | .ready | .stalled _ | .runahead => true | _ => false)
      if !due then .next s
      else
        let t := s.team core slot x.team
        let l := s.launchOf (s.parcel t.pid).lid
        let v := (s.kernel l.kid).version x.version
        let (r, s1) := s.fetchAt core l.ctx v.team { pc := x.pc, team := s.gteam t, version := x.version }
        match r with
        | .got b => .next (s1.setEntry core slot entry { s1.entry core slot entry with ibuf := some b })
        | .wait => .next s1
        | .absent =>
          if x.ra.isSome then .next (s1.setEntry core slot entry { s1.entry core slot entry with ibuf := some .refused })
          else .next (s1.reportAbsent l.ctx (v.team.1 + x.pc.toNat) l.lid x.pc (s.gteam t) x.version false)
  else
    let cl := core - 256
    let x := s.ctl cl
    let due := x.ibuf.isNone && (match x.st with | .ready | .stalled _ => true | _ => false)
    if !due then .next s
    else
      let l := s.launchOf x.lid
      match ((s.kernel l.kid).version x.version).control with
      | none => .next s
      | some code =>
        let (r, s1) := s.fetchAt core l.ctx code { pc := x.pc, team := x.eseq.toNat, version := x.version }
        match r with
        | .got b => .next (s1.setCtl cl { s1.ctl cl with ibuf := some b })
        | .wait => .next s1
        | .absent => .next (s1.reportAbsent l.ctx (code.1 + x.pc.toNat) l.lid x.pc x.eseq.toNat x.version false)

/-! ### STACK_SPILL and STACK_FILL (R58, R59) -/

/-- The first entry below the top 8 that has its place in the stack area and has not been written there, with its depth. -/
def spillDue (st : List StkEntry) : Option (Nat × StkEntry) :=
  ((st.zipIdx.drop 8).find? fun y => y.1.place.isSome && !y.1.spill).map fun y => (y.2, y.1)

/-- An entry below the top 8 is written to its place in the team's stack area, its lane-word record with it. -/
def execStackSpill (core slot entry : Nat) (s : State) : Out :=
  match s.entry? core slot entry with
  | none => .next s
  | some x =>
    match spillDue x.stack with
    | none => .next s
    | some (j, y) =>
      let t := s.team core slot x.team
      let p := s.parcel t.pid
      let ctx := (s.launchOf p.lid).ctx
      let src := Src.team core slot x.team
      let send (s : State) (o : Nat) (bs : List Byte) : State :=
        (s.sendBytes src core ctx p.lid (t.stkbase.toNat + o) x.pc x.version (s.gteam t) bs).2
      let s1 := send s (y.place.getD 0) (y.bytes (2 ^ t.w))
      let s2 := match y.recAt with
        | some o => send s1 o (y.words.flatMap bytesOfWord)
        | none => s1
      .next (s2.setEntry core slot entry { s2.entry core slot entry with stack := x.stack.set j { y with spill := true } })

/-- The first spilled entry among the top 8 (R58). -/
def fillDue (st : List StkEntry) : Option (Nat × StkEntry) :=
  ((st.zipIdx.take 8).find? fun y => y.1.spill).map fun y => (y.2, y.1)

/-- A spilled entry that has come into the top 8 is filled back; a pop that waited for it goes on with its issue, at which a comparator does not
fire again (R303). -/
def execStackFill (core slot entry : Nat) (s : State) : Out :=
  match s.entry? core slot entry with
  | none => .next s
  | some x =>
    match fillDue x.stack with
    | none => .next s
    | some (j, y) =>
      let t := s.team core slot x.team
      let ctx := (s.launchOf (s.parcel t.pid).lid).ctx
      let (bs, s1) := s.readView core ctx (t.stkbase.toNat + y.place.getD 0) 16
      let (recd, s2) := match y.recAt with
        | some o => s1.readView core ctx (t.stkbase.toNat + o) (4 * 2 ^ t.w)
        | none => (some [], s1)
      match bs, recd with
      | some b, some r =>
        let s3 := s2.setEntry core slot entry { s2.entry core slot entry with stack := x.stack.set j { y.ofBytes (2 ^ t.w) b r with place := none } }
        (match x.st with
         | .asleep .fill => .next ((s3.setEntry core slot entry { s3.entry core slot entry with brkSkip := true }).rewake core slot entry)
         | _ => .next s3)
      | _, _ => .next s2

/-! ### Timeouts (R69, R70, R277) -/

/-- 65,536 core cycles have passed since a sub-team slept in `MONWAIT`: it wakes with status 0. -/
def execMonwaitTimeout (core slot entry : Nat) (s : State) : Out :=
  match (s.entry core slot entry).st with
  | .asleep (.mon _ d since) =>
    if since + 65536 ≤ (s.core core).cycle then .next ((s.wakeMonitor core slot entry d false).trimMonitors core) else .next s
  | _ => .next s

/-- 1,024 core cycles have passed since a `MONWAIT` found no monitor: status 0 (R70, R203). -/
def execNoMonitorExpiry (core slot entry : Nat) (s : State) : Out :=
  match (s.entry core slot entry).st with
  | .asleep (.noMon d since) =>
    if since + 1024 ≤ (s.core core).cycle then .next (s.wakeMonitor core slot entry d false) else .next s
  | _ => .next s

/-- A control stream has slept 65,536 core cycles in `WFI`, or a trap request comes before: the spec does not say what raises one, so a free
choice does (R277; log entry 61). -/
def execWfiTimeout (cluster : Nat) (s : State) : Out :=
  match (s.ctl cluster).st with
  | .asleep (.wfi since) =>
    if since + 65536 ≤ (s.ctl cluster).cycle then .next (s.wakeCtl cluster)
    else
      let (request, s1) := s.freeBool
      .next (if request then s1.wakeCtl cluster else s1)
  | _ => .next s

/-! ### RUNAHEAD_ENTRY and RUNAHEAD_RESTORE (R73, R76) -/

/-- Whether the partition reports a load as long: a translation walk, or a miss in the Basin (R73). -/
def State.longLoad (s : State) (r : Req) : Bool :=
  r.kind.isLoad &&
  (match r.tgt with
   | .part n => r.long || (match (s.part n).tlb.look (tlbKey r.ctx r.va) with
       | some l => !s.lineHit (blockNo n l (halfOf l r.va))
       | none => true)
   | _ => false)

/-- The destination lanes of a load, invalid in run-ahead. -/
def Req.badLanes (r : Req) : List (RCls × Nat × Nat) :=
  match r.dest, r.kind with
  | some (cls, reg, n, _), .load d _ => d.lanes.flatMap fun l => (List.range n).map fun j => (cls, reg + j, l.1)
  | some (cls, reg, n, _), .atomic _ _ ws _ _ _ => (wordLanes ws).flatMap fun l => (List.range n).map fun j => (cls, reg + j, l)
  | _, _ => []

/-- A sub-team enters run-ahead when every condition of R73 holds. -/
def execRunaheadEntry (core slot entry : Nat) (s : State) : Out :=
  let s := s.settle core slot
  match s.entry? core slot entry with
  | none => .next s
  | some x =>
    let t := s.team core slot x.team
    let p := s.parcel t.pid
    let l := s.launchOf p.lid
    match x.ibuf with
    | some (.words ws) =>
      let pend := s.pendingReqs core slot entry (instrOf ws)
      let ok := l.grid.runahead && x.st == .ready && pend.any s.longLoad && (s.normals core slot).isEmpty && !s.xferWaits core slot && x.pend.isNone && p.st == .resident &&
        x.held.isEmpty && decide ((s.slot core slot).free ≤ (s.core core).cycle) && !((s.slot core slot).entries.any fun y => y.2.ra.isSome)
      if ok then
        .next (s.setEntry core slot entry { x with
          st := .runahead, till := (s.core core).cycle,
          ra := some { pc := x.pc, v := [], p := [], saved := [], bad := pend.flatMap Req.badLanes, count := 0, block := pend.map Req.id } })
      else .next s
    | _ => .next s

/-- The restore at the end of an episode, once the blocking data has arrived: every checkpointed value, 4 core cycles and one for each
row copied (R76). -/
def execRunaheadRestore (core slot entry : Nat) (s : State) : Out :=
  match s.entry? core slot entry with
  | none => .next s
  | some x =>
    match x.st, x.ra with
    | .restore, some ra =>
      if s.blockGone ra && !s.xferWaits core slot && decide ((s.slot core slot).free ≤ (s.core core).cycle) then
        let t := s.team core slot x.team
        let s1 := s.setTeam core slot x.team { t with v := t.v.setAll 0 ra.v, p := t.p.setAll 0 ra.p }
        let s2 := s1.microcode core slot (4 + ra.saved.length)
        let s3 := s2.setEntry core slot entry { s2.entry core slot entry with pc := ra.pc, npc := ra.pc, ibuf := none, ra := none }
        .next (s3.stallTo core slot entry (s3.slot core slot).free)
      else .next s
    | _, _ => .next s

end Sys2Proof.Machine
end

