-- ==== Sys2Proof/Machine/Dispatch.lean ====
section
/-! DEFINITION. The dispatch: one arm per constructor of `Instr`, each one direct call of its meaning. -/

namespace Sys2Proof.Machine

def exec (i : Instr) (s : State) : Host.Outcome State Fault Refusal :=
  match i with
  | .nop h => Sys2Proof.Machine.execNop h s
  | .nopShort h => Sys2Proof.Machine.execNopShort h s
  | .bra h k off => Sys2Proof.Machine.execBra h k off s
  | .braShort h off => Sys2Proof.Machine.execBraShort h off s
  | .brl h k off => Sys2Proof.Machine.execBrl h k off s
  | .brlShort h off => Sys2Proof.Machine.execBrlShort h off s
  | .brx h k a sreg => Sys2Proof.Machine.execBrx h k a sreg s
  | .brz h k a off => Sys2Proof.Machine.execBrz h k a off s
  | .brnz h k a off => Sys2Proof.Machine.execBrnz h k a off s
  | .call h k off => Sys2Proof.Machine.execCall h k off s
  | .callShort h off => Sys2Proof.Machine.execCallShort h off s
  | .join h k => Sys2Proof.Machine.execJoin h k s
  | .joinShort h k => Sys2Proof.Machine.execJoinShort h k s
  | .pop h => Sys2Proof.Machine.execPop h s
  | .popShort h => Sys2Proof.Machine.execPopShort h s
  | .ret h => Sys2Proof.Machine.execRet h s
  | .retShort h => Sys2Proof.Machine.execRetShort h s
  | .rett h => Sys2Proof.Machine.execRett h s
  | .rettShort h => Sys2Proof.Machine.execRettShort h s
  | .exit h => Sys2Proof.Machine.execExit h s
  | .exitShort h => Sys2Proof.Machine.execExitShort h s
  | .yield h => Sys2Proof.Machine.execYield h s
  | .yieldShort h => Sys2Proof.Machine.execYieldShort h s
  | .monwait h d a => Sys2Proof.Machine.execMonwait h d a s
  | .setp h o => Sys2Proof.Machine.execSetp h o s
  | .plop h d a b c table => Sys2Proof.Machine.execPlop h d a b c table s
  | .psel h leg d a b => Sys2Proof.Machine.execPsel h leg d a b s
  | .voteAnd h leg d a => Sys2Proof.Machine.execVoteAnd h leg d a s
  | .voteOr h leg d a => Sys2Proof.Machine.execVoteOr h leg d a s
  | .voteEq h leg d a => Sys2Proof.Machine.execVoteEq h leg d a s
  | .voteMask h leg d a => Sys2Proof.Machine.execVoteMask h leg d a s
  | .shflIdx h o => Sys2Proof.Machine.execShflIdx h o s
  | .shflUp h o => Sys2Proof.Machine.execShflUp h o s
  | .shflDn h o => Sys2Proof.Machine.execShflDn h o s
  | .shflXor h o => Sys2Proof.Machine.execShflXor h o s
  | .ltos h d a => Sys2Proof.Machine.execLtos h d a s
  | .stol h d a b => Sys2Proof.Machine.execStol h d a b s
  | .sadd h o => Sys2Proof.Machine.execSadd h o s
  | .ssub h o => Sys2Proof.Machine.execSsub h o s
  | .smul h o => Sys2Proof.Machine.execSmul h o s
  | .sand h o => Sys2Proof.Machine.execSand h o s
  | .sor h o => Sys2Proof.Machine.execSor h o s
  | .sxor h o => Sys2Proof.Machine.execSxor h o s
  | .sshl h o => Sys2Proof.Machine.execSshl h o s
  | .sshr h o => Sys2Proof.Machine.execSshr h o s
  | .ssra h o => Sys2Proof.Machine.execSsra h o s
  | .smov h o => Sys2Proof.Machine.execSmov h o s
  | .smovShort h d a => Sys2Proof.Machine.execSmovShort h d a s
  | .smovi h o => Sys2Proof.Machine.execSmovi h o s
  | .smoviLit h wide d lit => Sys2Proof.Machine.execSmoviLit h wide d lit s
  | .scmp h o => Sys2Proof.Machine.execScmp h o s
  | .iadd h o => Sys2Proof.Machine.execIadd h o s
  | .iaddLit h d a lit => Sys2Proof.Machine.execIaddLit h d a lit s
  | .isub h o => Sys2Proof.Machine.execIsub h o s
  | .imul h o => Sys2Proof.Machine.execImul h o s
  | .imulh h o => Sys2Proof.Machine.execImulh h o s
  | .imulq h o => Sys2Proof.Machine.execImulq h o s
  | .imad h o => Sys2Proof.Machine.execImad h o s
  | .imin h o => Sys2Proof.Machine.execImin h o s
  | .imax h o => Sys2Proof.Machine.execImax h o s
  | .iabs h o => Sys2Proof.Machine.execIabs h o s
  | .iabsShort h d a => Sys2Proof.Machine.execIabsShort h d a s
  | .ineg h o => Sys2Proof.Machine.execIneg h o s
  | .inegShort h d a => Sys2Proof.Machine.execInegShort h d a s
  | .and h o => Sys2Proof.Machine.execAnd h o s
  | .or h o => Sys2Proof.Machine.execOr h o s
  | .xor h o => Sys2Proof.Machine.execXor h o s
  | .not h o => Sys2Proof.Machine.execNot h o s
  | .notShort h d a => Sys2Proof.Machine.execNotShort h d a s
  | .shl h o => Sys2Proof.Machine.execShl h o s
  | .shr h o => Sys2Proof.Machine.execShr h o s
  | .sra h o => Sys2Proof.Machine.execSra h o s
  | .bfx h o => Sys2Proof.Machine.execBfx h o s
  | .bfi h o => Sys2Proof.Machine.execBfi h o s
  | .popc h o => Sys2Proof.Machine.execPopc h o s
  | .popcShort h d a => Sys2Proof.Machine.execPopcShort h d a s
  | .clz h o => Sys2Proof.Machine.execClz h o s
  | .clzShort h d a => Sys2Proof.Machine.execClzShort h d a s
  | .sel h o => Sys2Proof.Machine.execSel h o s
  | .mov h o => Sys2Proof.Machine.execMov h o s
  | .movShort h d a => Sys2Proof.Machine.execMovShort h d a s
  | .movi h o => Sys2Proof.Machine.execMovi h o s
  | .moviLit h wide d lit => Sys2Proof.Machine.execMoviLit h wide d lit s
  | .clamp h o => Sys2Proof.Machine.execClamp h o s
  | .dp4 h o => Sys2Proof.Machine.execDp4 h o s
  | .dp2 h o => Sys2Proof.Machine.execDp2 h o s
  | .rshr h o => Sys2Proof.Machine.execRshr h o s
  | .fadd h o => Sys2Proof.Machine.execFadd h o s
  | .fsub h o => Sys2Proof.Machine.execFsub h o s
  | .fmul h o => Sys2Proof.Machine.execFmul h o s
  | .ffma h o => Sys2Proof.Machine.execFfma h o s
  | .fmin h o => Sys2Proof.Machine.execFmin h o s
  | .fmax h o => Sys2Proof.Machine.execFmax h o s
  | .fabs h o => Sys2Proof.Machine.execFabs h o s
  | .fabsShort h d a => Sys2Proof.Machine.execFabsShort h d a s
  | .fneg h o => Sys2Proof.Machine.execFneg h o s
  | .fnegShort h d a => Sys2Proof.Machine.execFnegShort h d a s
  | .frcp h o => Sys2Proof.Machine.execFrcp h o s
  | .frsq h o => Sys2Proof.Machine.execFrsq h o s
  | .fsqrt h o => Sys2Proof.Machine.execFsqrt h o s
  | .fexp2 h o => Sys2Proof.Machine.execFexp2 h o s
  | .flog2 h o => Sys2Proof.Machine.execFlog2 h o s
  | .fsin h o => Sys2Proof.Machine.execFsin h o s
  | .fcos h o => Sys2Proof.Machine.execFcos h o s
  | .cvt h o => Sys2Proof.Machine.execCvt h o s
  | .pack h o => Sys2Proof.Machine.execPack h o s
  | .unpk h o => Sys2Proof.Machine.execUnpk h o s
  | .qscale h o => Sys2Proof.Machine.execQscale h o s
  | .qcvt h o => Sys2Proof.Machine.execQcvt h o s
  | .bpt h o => Sys2Proof.Machine.execBpt h o s
  | .redux h o => Sys2Proof.Machine.execRedux h o s
  | .algMul h o => Sys2Proof.Machine.execAlgMul h o s
  | .algConj h o => Sys2Proof.Machine.execAlgConj h o s
  | .algNorm h o => Sys2Proof.Machine.execAlgNorm h o s
  | .ld h o => Sys2Proof.Machine.execLd h o s
  | .ldShort h space d a => Sys2Proof.Machine.execLdShort h space d a s
  | .st h o => Sys2Proof.Machine.execSt h o s
  | .stShort h space d a => Sys2Proof.Machine.execStShort h space d a s
  | .ldAcq h o => Sys2Proof.Machine.execLdAcq h o s
  | .stRel h o => Sys2Proof.Machine.execStRel h o s
  | .atom h o => Sys2Proof.Machine.execAtom h o s
  | .red h o => Sys2Proof.Machine.execRed h o s
  | .pfh h o => Sys2Proof.Machine.execPfh h o s
  | .pfw h o => Sys2Proof.Machine.execPfw h o s
  | .acp h o => Sys2Proof.Machine.execAcp h o s
  | .acwait h tag n => Sys2Proof.Machine.execAcwait h tag n s
  | .fenceAcq h => Sys2Proof.Machine.execFenceAcq h s
  | .fenceRel h => Sys2Proof.Machine.execFenceRel h s
  | .fenceAr h => Sys2Proof.Machine.execFenceAr h s
  | .barSync h n => Sys2Proof.Machine.execBarSync h n s
  | .barArrive h n => Sys2Proof.Machine.execBarArrive h n s
  | .barWait h n => Sys2Proof.Machine.execBarWait h n s
  | .barJoin h n => Sys2Proof.Machine.execBarJoin h n s
  | .barLeave h n => Sys2Proof.Machine.execBarLeave h n s
  | .barInitb h o => Sys2Proof.Machine.execBarInitb h o s
  | .barArriveb h o => Sys2Proof.Machine.execBarArriveb h o s
  | .barWaitb h o => Sys2Proof.Machine.execBarWaitb h o s
  | .qpush h q a => Sys2Proof.Machine.execQpush h q a s
  | .qpop h q d => Sys2Proof.Machine.execQpop h q d s
  | .flagSet h f => Sys2Proof.Machine.execFlagSet h f s
  | .flagClr h f => Sys2Proof.Machine.execFlagClr h f s
  | .flagWait h f => Sys2Proof.Machine.execFlagWait h f s
  | .cld h ty acq d a off => Sys2Proof.Machine.execCld h ty acq d a off s
  | .cst h ty rel a c off => Sys2Proof.Machine.execCst h ty rel a c off s
  | .cbr h cmp ty a b off => Sys2Proof.Machine.execCbr h cmp ty a b off s
  | .wfi h => Sys2Proof.Machine.execWfi h s
  | .shpSet h d a field => Sys2Proof.Machine.execShpSet h d a field s
  | .txLd h o => Sys2Proof.Machine.execTxLd h o s
  | .txLdq h o planes => Sys2Proof.Machine.execTxLdq h o planes s
  | .txSt h o => Sys2Proof.Machine.execTxSt h o s
  | .txStPeer h o => Sys2Proof.Machine.execTxStPeer h o s
  | .txFence h => Sys2Proof.Machine.execTxFence h s
  | .mxLds h withMeta a b c => Sys2Proof.Machine.execMxLds h withMeta a b c s
  | .mxSwap h c => Sys2Proof.Machine.execMxSwap h c s
  | .mxStrm h o => Sys2Proof.Machine.execMxStrm h o s
  | .mxDrn h o => Sys2Proof.Machine.execMxDrn h o s
  | .mxZero h d c => Sys2Proof.Machine.execMxZero h d c s
  | .mxWait h c => Sys2Proof.Machine.execMxWait h c s
  | .algLdt h d a => Sys2Proof.Machine.execAlgLdt h d a s
  | .trap h code => Sys2Proof.Machine.execTrap h code s
  | .brk h code => Sys2Proof.Machine.execBrk h code s
  | .srd h reg sdest d => Sys2Proof.Machine.execSrd h reg sdest d s
  | .srdShort h d a => Sys2Proof.Machine.execSrdShort h d a s
  | .swr h reg a => Sys2Proof.Machine.execSwr h reg a s
  | .safept h k => Sys2Proof.Machine.execSafept h k s
  | .safeptShort h k => Sys2Proof.Machine.execSafeptShort h k s
  | .xfer h v => Sys2Proof.Machine.execXfer h v s
  | .progress h a => Sys2Proof.Machine.execProgress h a s
  | .odot4 h nat d a b c => Sys2Proof.Machine.execOdot4 h nat d a b c s
  | .omma8 h na nb d a b => Sys2Proof.Machine.execOmma8 h na nb d a b s
  | .oldx h n1 d a off => Sys2Proof.Machine.execOldx h n1 d a off s
  | .oshfw h mode d a b => Sys2Proof.Machine.execOshfw h mode d a b s
  | .stallCountExpiry core slot entry => Sys2Proof.Machine.execStallCountExpiry core slot entry s
  | .stackSpill core slot entry => Sys2Proof.Machine.execStackSpill core slot entry s
  | .stackFill core slot entry => Sys2Proof.Machine.execStackFill core slot entry s
  | .monwaitTimeout core slot entry => Sys2Proof.Machine.execMonwaitTimeout core slot entry s
  | .noMonitorExpiry core slot entry => Sys2Proof.Machine.execNoMonitorExpiry core slot entry s
  | .wfiTimeout cluster => Sys2Proof.Machine.execWfiTimeout cluster s
  | .runaheadEntry core slot entry => Sys2Proof.Machine.execRunaheadEntry core slot entry s
  | .runaheadRestore core slot entry => Sys2Proof.Machine.execRunaheadRestore core slot entry s
  | .loadDataReturn req => Sys2Proof.Machine.execLoadDataReturn req s
  | .writePerform req => Sys2Proof.Machine.execWritePerform req s
  | .releaseComplete core slot entry => Sys2Proof.Machine.execReleaseComplete core slot entry s
  | .atomicPerform req => Sys2Proof.Machine.execAtomicPerform req s
  | .translationWalk req => Sys2Proof.Machine.execTranslationWalk req s
  | .faultReport n => Sys2Proof.Machine.execFaultReport n s
  | .faultRecordPost ctx => Sys2Proof.Machine.execFaultRecordPost ctx s
  | .replay ctx page => Sys2Proof.Machine.execReplay ctx page s
  | .refuse ctx page => Sys2Proof.Machine.execRefuse ctx page s
  | .leaseViolation ctx page => Sys2Proof.Machine.execLeaseViolation ctx page s
  | .acpComplete core slot team tag => Sys2Proof.Machine.execAcpComplete core slot team tag s
  | .engineArrival cluster eseq core unit => Sys2Proof.Machine.execEngineArrival cluster eseq core unit s
  | .engineCommandFinish cluster eseq => Sys2Proof.Machine.execEngineCommandFinish cluster eseq s
  | .hostDoorbell offset bytes value => Sys2Proof.Machine.execHostDoorbell offset bytes value s
  | .queueWakeMap => Sys2Proof.Machine.execQueueWakeMap s
  | .queueUnmap slot => Sys2Proof.Machine.execQueueUnmap slot s
  | .nopPacket qid => Sys2Proof.Machine.execNopPacket qid s
  | .launch qid => Sys2Proof.Machine.execLaunch qid s
  | .signal qid => Sys2Proof.Machine.execSignal qid s
  | .wait qid => Sys2Proof.Machine.execWait qid s
  | .waitReread qid => Sys2Proof.Machine.execWaitReread qid s
  | .fetchFence qid => Sys2Proof.Machine.execFetchFence qid s
  | .transferReq qid => Sys2Proof.Machine.execTransferReq qid s
  | .transferReqComplete qid pkt => Sys2Proof.Machine.execTransferReqComplete qid pkt s
  | .algebraLoad qid => Sys2Proof.Machine.execAlgebraLoad qid s
  | .algebraLoadCluster qid cluster => Sys2Proof.Machine.execAlgebraLoadCluster qid cluster s
  | .parcelAdmit lid => Sys2Proof.Machine.execParcelAdmit lid s
  | .launchComplete lid => Sys2Proof.Machine.execLaunchComplete lid s
  | .pairCompare lid parcel => Sys2Proof.Machine.execPairCompare lid parcel s
  | .parcelSwitchOut pid => Sys2Proof.Machine.execParcelSwitchOut pid s
  | .parkThresholdExpiry core slot entry => Sys2Proof.Machine.execParkThresholdExpiry core slot entry s
  | .drainTimeout pid => Sys2Proof.Machine.execDrainTimeout pid s
  | .parcelSave pid => Sys2Proof.Machine.execParcelSave pid s
  | .savedArrival pid n => Sys2Proof.Machine.execSavedArrival pid n s
  | .parcelRestore pid core => Sys2Proof.Machine.execParcelRestore pid core s
  | .peerScratchWrite port ctx parcel off data bobj => Sys2Proof.Machine.execPeerScratchWrite port ctx parcel off data bobj s
  | .peerAccess port ctx va write aop => Sys2Proof.Machine.execPeerAccess port ctx va write aop s
  | .hostAccess va len write => Sys2Proof.Machine.execHostAccess va len write s
  | .linkFlitRetry port count => Sys2Proof.Machine.execLinkFlitRetry port count s
  | .farTimeout req => Sys2Proof.Machine.execFarTimeout req s
  | .portDown port => Sys2Proof.Machine.execPortDown port s
  | .retrainStart unit => Sys2Proof.Machine.execRetrainStart unit s
  | .retrainEnd unit ok => Sys2Proof.Machine.execRetrainEnd unit ok s
  | .saveDeadlineExpiry pid => Sys2Proof.Machine.execSaveDeadlineExpiry pid s
  | .basinEvict line => Sys2Proof.Machine.execBasinEvict line s
  | .scrubBlock part frame half errors => Sys2Proof.Machine.execScrubBlock part frame half errors s
  | .powerSample watts => Sys2Proof.Machine.execPowerSample watts s
  | .thermalEvent celsius => Sys2Proof.Machine.execThermalEvent celsius s
  | .reset root flash image => Sys2Proof.Machine.execReset root flash image s
  | .hbmWipeComplete => Sys2Proof.Machine.execHbmWipeComplete s
  | .registerWrite page offset value => Sys2Proof.Machine.execRegisterWrite page offset value s
  | .hello => Sys2Proof.Machine.execHello s
  | .ctxCreate => Sys2Proof.Machine.execCtxCreate s
  | .ctxDestroy => Sys2Proof.Machine.execCtxDestroy s
  | .ctxStop => Sys2Proof.Machine.execCtxStop s
  | .grant => Sys2Proof.Machine.execGrant s
  | .map => Sys2Proof.Machine.execMap s
  | .deny => Sys2Proof.Machine.execDeny s
  | .queueMap => Sys2Proof.Machine.execQueueMap s
  | .queueResume => Sys2Proof.Machine.execQueueResume s
  | .reserve => Sys2Proof.Machine.execReserve s
  | .load => Sys2Proof.Machine.execLoad s
  | .unload => Sys2Proof.Machine.execUnload s
  | .keySet => Sys2Proof.Machine.execKeySet s
  | .keyClear => Sys2Proof.Machine.execKeyClear s
  | .attest => Sys2Proof.Machine.execAttest s
  | .attestChain => Sys2Proof.Machine.execAttestChain s
  | .debugNonce => Sys2Proof.Machine.execDebugNonce s
  | .debugUnlock => Sys2Proof.Machine.execDebugUnlock s
  | .lifecycle => Sys2Proof.Machine.execLifecycle s
  | .fwStage => Sys2Proof.Machine.execFwStage s
  | .telemetry => Sys2Proof.Machine.execTelemetry s
  | .powerLimitSet => Sys2Proof.Machine.execPowerLimitSet s
  | .aperture => Sys2Proof.Machine.execAperture s
  | .logRead => Sys2Proof.Machine.execLogRead s
  | .unassignedOpcode ws => Sys2Proof.Machine.execUnassignedOpcode ws s
  | .instructionFetch core slot entry => Sys2Proof.Machine.execInstructionFetch core slot entry s
  | .uncorrectableFabricError => Sys2Proof.Machine.execUncorrectableFabricError s
  | .debugResume core slot entry => Sys2Proof.Machine.execDebugResume core slot entry s
  | .debugFunctionWrite core comparator ctx version pc dbgctl watch => Sys2Proof.Machine.execDebugFunctionWrite core comparator ctx version pc dbgctl watch s

end Sys2Proof.Machine
end

