-- ==== Sys2Proof/Machine/Step.lean ====
section
/-! DEFINITION. One step of the machine, and the placing of an instruction that the next step runs. -/

namespace Sys2Proof.Machine

/-- One step: the turn's unit moves (`State.move`), then the turn passes on (log entry 1). -/
def step (s : State) : Host.Outcome State Fault Refusal :=
  match s.move with
  | .run i s1 =>
    (match exec i s1 with
     | .next t => .next t.passTurn
     | .fault f => .fault f
     | .refused r => .refused r)
  | .stay s1 => .next s1.passTurn
  | .bad => .fault .noSuchEvent

/-- The state with an instruction of the opcode table fetched where the next step issues (log entry 5). -/
def State.withFetchWord (s : State) (nbits w : Nat) : State := s.withFetched (tableWords nbits w)

end Sys2Proof.Machine
end

