-- ==== Sys2Proof/Machine/Trace.lean ====
section
/-! DEFINITION. Samples and trace records of work (R48, R268, R345): the 32-byte record, and what a sample of a slot's sub-team and of an engine
command holds. The spec does not say when a sample is taken, so these are functions of the state (log entry 88). -/

namespace Sys2Proof.Machine

/-- A sample or trace record of work (R345). -/
structure Sample where
  leaf    : BitVec 8
  engine  : Bool
  version : BitVec 3
  unit    : BitVec 8
  slot    : BitVec 2
  pc      : Word
  name    : Dword
  cycles  : Dword
  deriving DecidableEq, Repr, Inhabited

/-- The 32 bytes of a sample record (R345). -/
def Sample.encode (r : Sample) : List Byte :=
  bytesOfNat 32 (r.leaf.toNat + 2 ^ 8 * r.engine.toNat + 2 ^ 9 * r.version.toNat + 2 ^ 16 * r.unit.toNat + 2 ^ 24 * r.slot.toNat +
    2 ^ 32 * r.pc.toNat + 2 ^ 64 * r.name.toNat + 2 ^ 128 * r.cycles.toNat)

/-- The sample of a sub-team: it is named by its team's global number and its PC in its version (R48). -/
def State.teamSample (s : State) (c sl e : Nat) : Sample :=
  let x := s.entry c sl e
  { leaf := BitVec.ofNat 8 (s.leafNow c sl), engine := false, version := x.version, unit := BitVec.ofNat 8 c, slot := BitVec.ofNat 2 sl
    pc := x.pc, name := BitVec.ofNat 64 (s.gteam (s.team c sl x.team)), cycles := BitVec.ofNat 64 (s.core c).cycle }

/-- The sample of an engine command: it is named by the control-core PC and its sequence number (R268). -/
def State.engineSample (s : State) (cl : Nat) (m : Cmd) : Sample :=
  { leaf := 0x40, engine := true, version := 0, unit := BitVec.ofNat 8 (cl % 16), slot := 0, pc := m.pc, name := m.eseq.setWidth 64
    cycles := BitVec.ofNat 64 (s.ctl cl).cycle }

end Sys2Proof.Machine
end

