-- ==== Sys2Proof/Safety/Said.lean ====
section
/-! DEFINITION. The words of the statements: what a sub-team's registers hold, when an instruction issues with none of the
checks of R183 failing, and what a step that only writes registers leaves as it was. -/

namespace Sys2Proof.Said

open Sys2Proof.Machine

/-! ### A sub-team's registers -/

/-- The team of the sub-team in entry `e` of a slot. -/
def team (s : State) (c sl e : Nat) : Team := s.team c sl (s.entry c sl e).team
/-- v[r] of lane `l`. -/
def vreg (s : State) (c sl e l r : Nat) : Word := (team s c sl e).v.get 0 (l * 256 + r)
/-- p[r] of lane `l`; p0 is one (R171). -/
def preg (s : State) (c sl e l r : Nat) : Bool := r == 0 || ((team s c sl e).p.get 0 l).getLsbD r
/-- s[r]. -/
def sreg (s : State) (c sl e r : Nat) : Word := (team s c sl e).s.get 0 r
/-- The pair v[r], v[r+1] of a lane as 64 bits (R80). -/
def vpair (s : State) (c sl e l r : Nat) : Dword := vreg s c sl e l (r + 1) ++ vreg s c sl e l r
/-- The pair s[r], s[r+1] as 64 bits (R80). -/
def spair (s : State) (c sl e r : Nat) : Dword := sreg s c sl e (r + 1) ++ sreg s c sl e r
/-- The lanes that an instruction acts on (R9): in the sub-team's mask, guard true after its negation. -/
def active (s : State) (c sl e : Nat) (i : Instr) (l : Nat) : Bool :=
  inMask (s.entry c sl e).mask l && (preg s c sl e l (hdrOf i).pred.toNat != (hdrOf i).neg)
/-- The active lanes, ascending. -/
def lanes (s : State) (c sl e : Nat) (i : Instr) : List Nat :=
  (List.range (32 * (s.entry c sl e).mask.length)).filter (active s c sl e i)
/-- The team's width in lanes (R45). -/
def width (s : State) (c sl e : Nat) : Nat := 32 * (s.entry c sl e).mask.length
/-- The parcel, the launch, the kernel and the version of the sub-team. -/
def parcel (s : State) (c sl e : Nat) : Parcel := s.parcel (team s c sl e).pid
def launch (s : State) (c sl e : Nat) : Launch := s.launchOf (parcel s c sl e).lid
def version (s : State) (c sl e : Nat) : Vers :=
  (s.kernel (launch s c sl e).kid).version (s.entry c sl e).version
/-- A bit of the team's MODE (R300). -/
def mode (s : State) (c sl e b : Nat) : Bool := (team s c sl e).mode.getLsbD b

/-! ### An issue with no check failing (R183) -/

/-- Entry `e` issues instruction `i`, outside run-ahead: the words pass the static checks (row 3 of R183), every v register it
names is below `.regs` (R172), no result is still under way (row 5), no marked register is read (row 6). -/
structure Clear (s : State) (c sl e : Nat) (i : Instr) : Prop where
  cur : s.cur = .team c sl e
  plain : (s.entry c sl e).ra = none
  wf : i.wf = true
  quiet : ∀ r ∈ (team s c sl e).late, r.avail ≤ (s.core c).cycle
  regs : ∀ u ∈ usesOf (s.iss c sl e i).alg false i, u.cls = .v → u.reg + u.n ≤ min 256 (version s c sl e).regs
  marks : (s.iss c sl e i).marked = none

/-- The control core of cluster `cl` issues instruction `i` of its stream with no check failing: no guard (R171), c registers
c0 to c31, nothing under way, no marked register read. -/
structure CClear (s : State) (cl : Nat) (i : Instr) : Prop where
  cur : s.cur = .control cl
  wf : i.wf = true
  guard : (hdrOf i).pred = 0 ∧ (hdrOf i).neg = false
  quiet : ∀ r ∈ (s.ctl cl).late, r.avail ≤ (s.ctl cl).cycle
  regs : ∀ u ∈ usesOf 1 true i, (u.cls = .s ∧ u.reg + u.n ≤ 32) ∨ u.cls = .h
  marks : (s.ciss cl i).marked = none

/-! ### What a step leaves as it was -/

/-- Every field of the state but the cores and the counter of open values is unchanged, and so are the other cores, the other
slots of the core, the other teams and the other entries of the slot. -/
structure OnlyEntry (s t : State) (c sl e : Nat) : Prop where
  rest : t = { s with cores := t.cores, fresh := t.fresh }
  cores : ∀ n, n ≠ c → t.core n = s.core n
  core : t.core c = { s.core c with slots := (t.core c).slots }
  slots : ∀ n, n ≠ sl → t.slot c n = s.slot c n
  ctr : (t.slot c sl).ctr = (s.slot c sl).ctr
  teams : ∀ n, n ≠ (s.entry c sl e).team → t.team c sl n = s.team c sl n
  entries : ∀ n, n ≠ e → t.entry? c sl n = s.entry? c sl n

/-- The sub-team has issued: it goes on at `pc` when its passes (R217) and the stall count (R164) have gone by; nothing else
of its entry has changed. -/
structure GoesOn (s t : State) (c sl e : Nat) (i : Instr) (pc : Word) : Prop where
  entry : t.entry c sl e =
    { s.entry c sl e with
      pc := pc, npc := pc, ibuf := none, ustep := 0, brkSkip := false, yielded := (s.entry c sl e).yielded || (hdrOf i).yld,
      till := (t.entry c sl e).till, st := .stalled (t.entry c sl e).till }
  till : (t.entry c sl e).till =
    (s.core c).cycle + max 1 ((rowsOf (s.entry c sl e).mask).length * (s.iss c sl e i).occ) + (hdrOf i).stall.toNat

/-- The address of the next instruction (R162). -/
def nextPc (s : State) (c sl e : Nat) (i : Instr) : Word := (s.entry c sl e).pc + BitVec.ofNat 32 (4 * (encode i).length)

/-- The team's registers after a step: `v l r`, `p l r` and `u r` are the values written, `none` where a register is unchanged;
the flags `fl` are added to FPCTL (R91); no other field of the team changes but its latency
records, pending bits and marks. -/
structure Holds (s t : State) (c sl e : Nat) (v : Nat → Nat → Option Word) (p : Nat → Nat → Option Bool)
    (u : Nat → Option Word) (fl : BitVec 6) : Prop where
  vregs : ∀ l r, r < 256 → vreg t c sl e l r = (v l r).getD (vreg s c sl e l r)
  pregs : ∀ l r, r < 16 → preg t c sl e l r = (p l r).getD (preg s c sl e l r)
  sregs : ∀ r, sreg t c sl e r = (u r).getD (sreg s c sl e r)
  rest : team t c sl e =
    { team s c sl e with
      v := (team t c sl e).v, p := (team t c sl e).p, s := (team t c sl e).s, late := (team t c sl e).late,
      busy := (team t c sl e).busy, marks := (team t c sl e).marks, fpctl := (team s c sl e).fpctl ||| fl.setWidth 32 }

/-- A step that writes registers and flags and goes on at the next instruction. -/
structure Wrote (s t : State) (c sl e : Nat) (i : Instr) (v : Nat → Nat → Option Word) (p : Nat → Nat → Option Bool)
    (u : Nat → Option Word) (fl : BitVec 6) : Prop where
  only : OnlyEntry s t c sl e
  goes : GoesOn s t c sl e i (nextPc s c sl e i)
  holds : Holds s t c sl e v p u fl

/-- A control-stream instruction that writes c registers and goes on (R266, R267): nothing outside its control core changes. -/
structure CWrote (s t : State) (cl : Nat) (i : Instr) (w : Nat → Option Dword) : Prop where
  rest : t = { s with ctls := t.ctls }
  others : ∀ n, n ≠ cl → t.ctl n = s.ctl n
  cregs : ∀ r, (t.ctl cl).c.get 0 r = (w r).getD ((s.ctl cl).c.get 0 r)
  core : t.ctl cl =
    { s.ctl cl with
      c := (t.ctl cl).c, late := (t.ctl cl).late, marks := (t.ctl cl).marks,
      pc := (s.ctl cl).pc + BitVec.ofNat 32 (4 * (encode i).length), npc := (s.ctl cl).pc + BitVec.ofNat 32 (4 * (encode i).length),
      ibuf := none, till := (s.ctl cl).cycle + 1 + (hdrOf i).stall.toNat, free := (s.ctl cl).cycle + 1,
      st := .stalled ((s.ctl cl).cycle + 1 + (hdrOf i).stall.toNat) }

def noV (_ _ : Nat) : Option Word := none
def noP (_ _ : Nat) : Option Bool := none
def noS (_ : Nat) : Option Word := none

/-- A result of a type in destination `d` of the active lanes: 64 bits in a pair, narrower ones in one register (R80). -/
def dest (s : State) (c sl e : Nat) (i : Instr) (wide : Bool) (d : BitVec 8) (z : Nat → Dword) (l r : Nat) : Option Word :=
  if active s c sl e i l then
    if r = d.toNat then some ((z l).setWidth 32)
    else if wide && r == d.toNat + 1 then some ((z l >>> 32).setWidth 32)
    else none
  else none

/-- A predicate result in the active lanes; p0 keeps one. -/
def pdest (s : State) (c sl e : Nat) (i : Instr) (d : BitVec 8) (z : Nat → Bool) (l r : Nat) : Option Bool :=
  if active s c sl e i l && r == d.toNat && r != 0 then some (z l) else none

/-- The flags that some active lane raises (R91). -/
def raised (s : State) (c sl e : Nat) (i : Instr) (f : Nat → BitVec 6) : BitVec 6 :=
  (lanes s c sl e i).foldl (fun b l => b ||| f l) 0

/-- No active lane raises an enabled flag (R92). -/
def calm (s : State) (c sl e : Nat) (i : Instr) (f : Nat → BitVec 6) : Prop :=
  ∀ l, active s c sl e i l = true → f l &&& (((team s c sl e).fpctl >>> 8).setWidth 6 &&& 0b011111) = 0

/-! ### Operands (R170, R215) -/

/-- Operand A of a lane: v or s, one register or a pair. -/
def opA (s : State) (c sl e : Nat) (o : Alu) (wide : Bool) (l : Nat) : Dword :=
  if o.as then (if wide then spair s c sl e o.a.toNat else (sreg s c sl e o.a.toNat).setWidth 64)
  else (if wide then vpair s c sl e l o.a.toNat else (vreg s c sl e l o.a.toNat).setWidth 64)
/-- The immediate: the literal, or EXT32, sign-extended where 64 bits are needed. -/
def imm (wide : Bool) (ext : Word) (lit : Option Dword) : Dword :=
  if wide then lit.getD (ext.signExtend 64) else ext.setWidth 64
/-- Operand B of a lane: the immediate, v or s. -/
def opB (s : State) (c sl e : Nat) (o : Alu) (wide : Bool) (l : Nat) : Dword :=
  if o.bi then imm wide o.ext o.lit
  else if o.bs then (if wide then spair s c sl e o.b.toNat else (sreg s c sl e o.b.toNat).setWidth 64)
  else (if wide then vpair s c sl e l o.b.toNat else (vreg s c sl e l o.b.toNat).setWidth 64)
/-- Operand C of a lane. -/
def opC (s : State) (c sl e : Nat) (o : Alu) (wide : Bool) (l : Nat) : Dword :=
  if wide then vpair s c sl e l o.c.toNat else (vreg s c sl e l o.c.toNat).setWidth 64

/-! ### Integer values (R79, R80) -/

/-- An operand as a number of an integer type. -/
def num (ty : Ty) (w : Dword) : Int :=
  if ty.isSigned then (w.setWidth ty.bits).toInt else ((w.setWidth ty.bits).toNat : Int)
/-- The nearest number that an integer type holds (R220). -/
def clampTo (ty : Ty) (z : Int) : Int :=
  if ty.isSigned then max (-(2 ^ (ty.bits - 1))) (min (2 ^ (ty.bits - 1) - 1) z) else max 0 (min (2 ^ ty.bits - 1) z)
/-- A number as the 64 bits of a register result: wrapped or clamped to the type, then extended by it. -/
def fit (ty : Ty) (sat : Bool) (z : Int) : Dword :=
  let w : BitVec ty.bits := BitVec.ofInt ty.bits (if sat then clampTo ty z else z)
  if ty.isSigned then w.signExtend 64 else w.setWidth 64

end Sys2Proof.Said
end

