-- ==== Sys2Proof/Safety/Values.lean ====
section
/-! DEFINITION. The values that the statements give to computing instructions, written from the tables of chapters 04, 08 and
09 over numbers and bit vectors, beside the model's own definitions. -/

namespace Sys2Proof.Said

open Sys2Proof.Machine

/-- The operands of a short form with D and A (R179). -/
def short (ty : Ty) (d a : BitVec 7) : Alu :=
  { ty := ty, rnd := .none, sat := false, as := false, bs := false, bi := false, opx := false, d := d.setWidth 8,
    a := a.setWidth 8, b := 0, c := 0, ext := 0, lit := none }

/-! ### Integer arithmetic (R220 to R222, R225) -/

/-- Operand fields, saturation, and the exact value from the operands as numbers of the type; the last argument is B as a
natural count. -/
def arith : Instr → Option (Alu × Bool × (Int → Int → Int → Nat → Int))
  | .iadd _ o => some (o, o.sat, fun a b _ _ => a + b)
  | .iaddLit _ d a lit => some ({ short .i64 d a with bi := true, lit := some lit }, false, fun a b _ _ => a + b)
  | .isub _ o => some (o, o.sat, fun a b _ _ => a - b)
  | .imul _ o => some (o, o.sat, fun a b _ _ => a * b)
  | .imulh _ o => some (o, false, fun a b _ _ => Int.fdiv (a * b) (2 ^ 32))
  | .imulq _ o => some (o, true, fun a b _ _ => Int.fdiv (a * b + 2 ^ 30) (2 ^ 31))
  | .imad _ o => some (o, o.sat, fun a b c _ => a * b + c)
  | .imin _ o => some (o, false, fun a b _ _ => if a ≤ b then a else b)
  | .imax _ o => some (o, false, fun a b _ _ => if a ≤ b then b else a)
  | .iabs _ o => some (o, o.sat, fun a _ _ _ => if a < 0 then -a else a)
  | .iabsShort _ d a => some (short .i32 d a, false, fun a _ _ _ => if a < 0 then -a else a)
  | .ineg _ o => some (o, o.sat, fun a _ _ _ => -a)
  | .inegShort _ d a => some (short .i32 d a, false, fun a _ _ _ => -a)
  | .rshr _ o => some (o, false, fun a _ _ n =>
      if n = 0 then a else if 32 ≤ n then 0 else Int.fdiv (a + 2 ^ (n - 1)) (2 ^ n))
  | .clamp _ o =>
      if o.ty = .f32 then none
      else some (o, false, fun a b c _ => (let m := if a ≤ b then b else a; if m ≤ c then m else c))
  | _ => none

/-! ### Bit operations, moves (R223 to R225) -/

/-- The low `l` bits of a 64-bit value. -/
def low (l : Nat) (w : Dword) : Dword := (w.setWidth l).setWidth 64
/-- `l` one bits from position `p` upward. -/
def onesAt (p l : Nat) : Dword := (BitVec.allOnes l).setWidth 64 <<< p

/-- Operand fields, whether the result is a pair, and the result from A, B (64 bits, narrow operands zero-extended) and the
register v[C]. -/
def bitwise : Instr → Option (Alu × Bool × (Dword → Dword → Word → Dword))
  | .and _ o => some (o, o.ty.is64, fun a b _ => a &&& b)
  | .or _ o => some (o, o.ty.is64, fun a b _ => a ||| b)
  | .xor _ o => some (o, o.ty.is64, fun a b _ => a ^^^ b)
  | .not _ o => some (o, o.ty.is64, fun a _ _ => ~~~a)
  | .notShort _ d a => some (short .b32 d a, false, fun a _ _ => ~~~a)
  | .shl _ o => some (o, o.ty.is64, fun a b _ => if o.ty.bits ≤ b.toNat then 0 else a <<< b.toNat)
  | .shr _ o => some (o, o.ty.is64, fun a b _ => if o.ty.bits ≤ b.toNat then 0 else a >>> b.toNat)
  | .sra _ o => some (o, o.ty.is64, fun a b _ => ((a.setWidth o.ty.bits).sshiftRight (min b.toNat o.ty.bits)).signExtend 64)
  | .bfx _ o => some (o, o.ty.is64, fun a _ _ =>
      let p := (o.ext.setWidth 8).toNat
      let l := ((o.ext >>> 8).setWidth 8).toNat
      if o.ty.isSigned then ((a >>> p).setWidth l).signExtend 64 else low l (a >>> p))
  | .bfi _ o => some (o, o.ty.is64, fun a b _ =>
      let p := (o.ext.setWidth 8).toNat
      let l := ((o.ext >>> 8).setWidth 8).toNat
      (a &&& ~~~onesAt p l) ||| ((b <<< p) &&& onesAt p l))
  | .popc _ o => some (o, false, fun a _ _ => BitVec.ofNat 64 ((List.range o.ty.bits).countP fun j => a.getLsbD j))
  | .popcShort _ d a => some (short .b32 d a, false, fun a _ _ =>
      BitVec.ofNat 64 ((List.range 32).countP fun j => a.getLsbD j))
  | .clz _ o => some (o, false, fun a _ _ => BitVec.ofNat 64 ((List.range o.ty.bits).countP fun j => a.toNat < 2 ^ j))
  | .clzShort _ d a => some (short .b32 d a, false, fun a _ _ =>
      BitVec.ofNat 64 ((List.range 32).countP fun j => a.toNat < 2 ^ j))
  | .sel _ o => some (o, o.ty.is64, fun a b c => if c = 0 then b else a)
  | .mov _ o => some (o, o.ty.is64, fun a _ _ => a)
  | .movShort _ d a => some (short .b32 d a, false, fun a _ _ => a)
  | .movi _ o => some (o, o.ty.is64, fun _ _ _ => imm o.ty.is64 o.ext o.lit)
  | .moviLit _ wide d lit => some (short (if wide then .b64 else .b32) d 0, wide, fun _ _ _ => lit)
  | _ => none

/-! ### Dot products (R226) -/

/-- Element `k` of `n` bits in a word, as a number. -/
def element (signed : Bool) (n k : Nat) (w : Word) : Int :=
  if signed then (w.extractLsb' (n * k) n).toInt else ((w.extractLsb' (n * k) n).toNat : Int)

/-- `DP4` and the integer forms of `DP2`: operand fields and the result from A, B and the accumulator D. -/
def dot : Instr → Option (Alu × (Word → Word → Word → Word))
  | .dp4 _ o =>
      let sa := o.ty.isSigned
      let sb := xor sa o.opx
      let acc : Ty := if sa || sb then .i32 else .n32
      some (o, fun a b d =>
        let x := num acc (d.setWidth 64) + element sa 8 0 a * element sb 8 0 b + element sa 8 1 a * element sb 8 1 b +
          element sa 8 2 a * element sb 8 2 b + element sa 8 3 a * element sb 8 3 b
        BitVec.ofInt 32 (if o.sat then clampTo acc x else x))
  | .dp2 _ o =>
      if o.ty = .bx2 then none
      else
        let sa := o.ty.isSigned
        let acc : Ty := if sa then .i32 else .n32
        some (o, fun a b d =>
          let x := num acc (d.setWidth 64) + element sa 16 0 a * element sa 16 0 b + element sa 16 1 a * element sa 16 1 b
          BitVec.ofInt 32 (if o.sat then clampTo acc x else x))
  | _ => none

/-! ### Floating point (R227 to R235): values by the rounding of chapter 04 -/

/-- Operand B of 32 bits: EXT32, v or s. -/
def opB32 (s : State) (c sl e : Nat) (o : Alu) (l : Nat) : Nat :=
  if o.bi then o.ext.toNat else if o.bs then (sreg s c sl e o.b.toNat).toNat else (vreg s c sl e l o.b.toNat).toNat

/-- One operation on whole operands or on each half of a packed pair (R83): `f` of the elements of A, B and C. -/
def packed (ty : Ty) (f : Nat → Nat → Nat → Nat × Flags) (a b c : Nat) : Nat × Flags :=
  if ty = .hx2 ∨ ty = .bx2 then
    let lo := f (a % 65536) (b % 65536) (c % 65536)
    let hi := f (a / 65536 % 65536) (b / 65536 % 65536) (c / 65536 % 65536)
    (lo.1 % 65536 + 65536 * (hi.1 % 65536), lo.2 ||| hi.2)
  else f a b c

/-- An exact value rounded once to a format, `.sat` after it (R227, R228). -/
def rounded (ty : Ty) (rnd : Rnd) (ldnf sat : Bool) (v : Ex) : Nat × Flags :=
  let r := (fmtOf ty).fin rnd ldnf v
  (if sat then satFloat (fmtOf ty) r.1 else r.1, r.2)

/-- Operand fields, the type whose width the result has, and the result with its flags from A, B and C; LDNF is the
team's mode bit (R88). -/
def floating (ldnf : Bool) : Instr → Option (Alu × Ty × (Nat → Nat → Nat → Nat × Flags))
  | .fadd _ o => some (o, o.ty, packed o.ty fun a b _ =>
      let v := (fmtOf o.ty).opnd ldnf
      rounded o.ty o.rnd ldnf o.sat (sumEx o.rnd [v a, v b]))
  | .fsub _ o => some (o, o.ty, packed o.ty fun a b _ =>
      let v := (fmtOf o.ty).opnd ldnf
      rounded o.ty o.rnd ldnf o.sat (sumEx o.rnd [v a, (v b).neg?]))
  | .fmul _ o => some (o, o.ty, packed o.ty fun a b _ =>
      let v := (fmtOf o.ty).opnd ldnf
      rounded o.ty o.rnd ldnf o.sat (sumEx o.rnd [(v a).mul (v b)]))
  | .ffma _ o => some (o, o.ty, packed o.ty fun a b c =>
      let v := (fmtOf o.ty).opnd ldnf
      rounded o.ty o.rnd ldnf o.sat (sumEx o.rnd [(v a).mul (v b), v c]))
  | .fmin _ o => some (o, o.ty, packed o.ty fun a b _ => (fmtOf o.ty).minmax ldnf false a b)
  | .fmax _ o => some (o, o.ty, packed o.ty fun a b _ => (fmtOf o.ty).minmax ldnf true a b)
  | .fabs _ o => some (o, o.ty, packed o.ty fun a _ _ => signOp (fmtOf o.ty) ldnf false a)
  | .fabsShort _ d a => some (short .f32 d a, .f32, fun a _ _ => signOp .f32 ldnf false a)
  | .fneg _ o => some (o, o.ty, packed o.ty fun a _ _ => signOp (fmtOf o.ty) ldnf true a)
  | .fnegShort _ d a => some (short .f32 d a, .f32, fun a _ _ => signOp .f32 ldnf true a)
  | .clamp _ o =>
      if o.ty = .f32 then some (o, .f32, fun a b c =>
        let m := Fmt.f32.minmax ldnf true a b
        let r := Fmt.f32.minmax ldnf false m.1 c
        (r.1, m.2 ||| r.2))
      else none
  | .frcp _ o => some (o, o.ty, fun a _ _ => special 0x0C8 o.ty ldnf a)
  | .frsq _ o => some (o, o.ty, fun a _ _ => special 0x0C9 o.ty ldnf a)
  | .fsqrt _ o => some (o, o.ty, fun a _ _ => fsqrt o.ty o.rnd ldnf a)
  | .fexp2 _ o => some (o, o.ty, fun a _ _ => special 0x0CB o.ty ldnf a)
  | .flog2 _ o => some (o, o.ty, fun a _ _ => special 0x0CC o.ty ldnf a)
  | .fsin _ o => some (o, o.ty, fun a _ _ => special 0x0CD o.ty ldnf a)
  | .fcos _ o => some (o, o.ty, fun a _ _ => special 0x0CE o.ty ldnf a)
  | .qscale _ o => some (o, .n32, fun a _ _ => qscale o.ty a)
  | _ => none

/-- `CVT`, `PACK`, `QCVT`, `DP2.bx2`: as `floating`, over operands of their own widths; A has the width of the first boolean,
B is 32 bits, and the last operand is the accumulator v[D]. -/
def converting (ldnf lrnd : Bool) : Instr → Option (Alu × Bool × Ty × (Nat → Nat → Nat → Nat × Flags))
  | .cvt _ o => some (o, (cvtSrc o).is64, o.ty, packed o.ty fun a _ _ => cvtElem o.ty (cvtSrc o) o.rnd o.sat ldnf lrnd a)
  | .pack _ o => some (o, false, .b32, fun a b _ =>
      let half (w : Nat) := (fmtOf o.ty).fin o.rnd ldnf ((Fmt.f32.opnd ldnf w).ex)
      ((half a).1 % 65536 + 65536 * ((half b).1 % 65536), (half a).2 ||| (half b).2))
  | .qcvt _ o => some (o, false, .b32, fun a b _ => qcvt o.ty o.rnd ldnf a b)
  | .dp2 _ o => if o.ty = .bx2 then some (o, false, .b32, fun a b d => dotBx2 o.rnd d a b) else none
  | _ => none

/-! ### Across the lanes of a row or a team (R236, R237) -/

/-- The plane word that `BPT` gives lane `l`: bit t is bit `7 − (l mod 32)/4` of the code of element `32·(l mod 4) + t` of the
row, whose byte `e mod 4` lane `e / 4` supplies; an inactive lane supplies zero. -/
def plane (s : State) (c sl e : Nat) (i : Instr) (o : Alu) (l : Nat) : Dword :=
  let code (el : Nat) : Dword :=
    let j := 32 * (l / 32) + el / 4
    if active s c sl e i j then opA s c sl e o false j >>> (8 * (el % 4)) else 0
  (List.range 32).foldl
    (fun w t => w ||| (if (code (32 * (l % 32 % 4) + t)).getLsbD (7 - l % 32 / 4) then 1 <<< t else 0)) 0

/-- The active lanes of the set of `REDUX` in which lane `l` lies: the team, or the lane's row. -/
def reduxSet (s : State) (c sl e : Nat) (i : Instr) (o : Alu) (l : Nat) : List Nat :=
  if o.opx then (lanes s c sl e i).filter (fun m => m / 32 == l / 32) else lanes s c sl e i

/-- An operation of `REDUX` on two integer words (R237). -/
def reduxStep (o : Alu) (a b : Word) : Word :=
  match (o.ext.setWidth 3).toNat with
  | 0 => a + b
  | 1 => if num o.ty (a.setWidth 64) ≤ num o.ty (b.setWidth 64) then a else b
  | 2 => if num o.ty (a.setWidth 64) ≤ num o.ty (b.setWidth 64) then b else a
  | 3 => a &&& b
  | 4 => a ||| b
  | _ => a ^^^ b

/-- An integer reduction: the set's values combined in any order, here by ascending lane. -/
def reduxOf (s : State) (c sl e : Nat) (i : Instr) (o : Alu) (l : Nat) : Word :=
  match (reduxSet s c sl e i o l).map fun m => (opA s c sl e o false m).setWidth 32 with
  | [] => 0
  | w :: ws => ws.foldl (reduxStep o) w

/-! ### Predicates and lanes (R205 to R211) -/

/-- The operands of `SETP`. -/
def setpA (s : State) (c sl e : Nat) (o : Setp) (l : Nat) : Dword :=
  if o.ty.is64 then (if o.as then spair s c sl e o.a.toNat else vpair s c sl e l o.a.toNat)
  else if o.as then (sreg s c sl e o.a.toNat).setWidth 64 else (vreg s c sl e l o.a.toNat).setWidth 64
def setpB (s : State) (c sl e : Nat) (o : Setp) (l : Nat) : Dword :=
  if o.bi then imm o.ty.is64 o.ext o.lit
  else if o.ty.is64 then (if o.bs then spair s c sl e o.b.toNat else vpair s c sl e l o.b.toNat)
  else if o.bs then (sreg s c sl e o.b.toNat).setWidth 64 else (vreg s c sl e l o.b.toNat).setWidth 64

/-- A comparison of two numbers (R174). -/
def holds (c : Cmp) (a b : Int) : Bool :=
  match c with
  | .eq => decide (a = b) | .ne => decide (a ≠ b) | .lt => decide (a < b) | .le => decide (a ≤ b)
  | .gt => decide (b < a) | .ge => decide (b ≤ a) | .num => true | .nan => false

/-- The group of a cross-lane instruction: its size, and the active lanes of a lane's group (R208). -/
def groupSize (s : State) (c sl e : Nat) (leg : Bool) : Nat :=
  if leg then min (width s c sl e) (if mode s c sl e 3 then 64 else 32) else width s c sl e
def groupOf (s : State) (c sl e : Nat) (i : Instr) (leg : Bool) (l : Nat) : List Nat :=
  (lanes s c sl e i).filter fun m => m / groupSize s c sl e leg == l / groupSize s c sl e leg

/-- What `PLOP`, `PSEL` and `VOTE` give a lane's predicate: the destination and the value (R206, R207, R209). -/
def predicate (s : State) (c sl e : Nat) (i : Instr) (l : Nat) : Option (BitVec 8 × Bool) :=
  match i with
  | .plop _ d a b k table =>
      some (d, table.getLsbD ((if preg s c sl e l a.toNat then 1 else 0) + (if preg s c sl e l b.toNat then 2 else 0) +
        (if preg s c sl e l k.toNat then 4 else 0)))
  | .psel _ leg d a b =>
      let g := groupSize s c sl e leg
      let m := l / g * g + (sreg s c sl e b.toNat).toNat % g
      some (d, active s c sl e i m && preg s c sl e m a.toNat)
  | .voteAnd _ leg d a => some (d, (groupOf s c sl e i leg l).all fun m => preg s c sl e m a.toNat)
  | .voteOr _ leg d a => some (d, (groupOf s c sl e i leg l).any fun m => preg s c sl e m a.toNat)
  | .voteEq _ leg d a =>
      some (d, (groupOf s c sl e i leg l).all fun m => preg s c sl e m a.toNat == preg s c sl e l a.toNat)
  | _ => none

/-- The lane that a shuffle reads for lane `l` of a group of `g` (R210): mode, and the amount `x`. -/
def shuffleSource (s : State) (c sl e : Nat) (i : Instr) (mode : ShMode) (g l x : Nat) : Nat :=
  let b := l / g * g
  let k := l - b
  let j : Option Nat := match mode with
    | .idx => some (x % g)
    | .up => if x ≤ k then some (k - x) else none
    | .dn => if k + x < g then some (k + x) else none
    | .xor => if k ^^^ x < g then some (k ^^^ x) else none
  match j with
  | some j => if active s c sl e i (b + j) then b + j else l
  | none => l

/-- Mode, group size, type, destination, source and amount of a shuffle. -/
def shuffle (s : State) (c sl e : Nat) (i : Instr) : Option (ShMode × Nat × Bool × BitVec 8 × BitVec 8 × (Nat → Nat)) :=
  let of (m : ShMode) (o : Shfl) : Option (ShMode × Nat × Bool × BitVec 8 × BitVec 8 × (Nat → Nat)) :=
    some (m, groupSize s c sl e o.leg, o.ty.is64, o.d, o.a,
      fun l => if o.bi then o.ext.toNat else (vreg s c sl e l o.b.toNat).toNat)
  match i with
  | .shflIdx _ o => of .idx o
  | .shflUp _ o => of .up o
  | .shflDn _ o => of .dn o
  | .shflXor _ o => of .xor o
  | .oshfw _ m d a b => some (m, groupSize s c sl e true, false, d, a, fun l => (vreg s c sl e l b.toNat).toNat)
  | _ => none

/-! ### The scalar group (R212, R213) -/

/-- Type, saturation, destination, A, B (`none`: no operand), the immediate, and the exact value from the operands read as
bits and as numbers. -/
structure Scalar where
  ty  : Ty
  sat : Bool
  d   : BitVec 8
  a   : Option (BitVec 8)
  b   : Option (BitVec 8)
  imm : Dword
  f   : Dword → Dword → Int

/-- The scalar instructions. -/
def scalar : Instr → Option Scalar
  | .sadd _ o => two o o.sat fun a b => num o.ty a + num o.ty b
  | .ssub _ o => two o o.sat fun a b => num o.ty a - num o.ty b
  | .smul _ o => two o o.sat fun a b => num o.ty a * num o.ty b
  | .sand _ o => two o false fun a b => ((a &&& b).toNat : Int)
  | .sor _ o => two o false fun a b => ((a ||| b).toNat : Int)
  | .sxor _ o => two o false fun a b => ((a ^^^ b).toNat : Int)
  | .sshl _ o => two o false fun a b => if o.ty.bits ≤ b.toNat then 0 else ((a <<< b.toNat).toNat : Int)
  | .sshr _ o => two o false fun a b => if o.ty.bits ≤ b.toNat then 0 else ((a >>> b.toNat).toNat : Int)
  | .ssra _ o => two o false fun a b => ((a.setWidth o.ty.bits).sshiftRight (min b.toNat o.ty.bits)).toInt
  | .smov _ o => some { ty := o.ty, sat := false, d := o.d, a := some o.a, b := none, imm := 0, f := fun a _ => (a.toNat : Int) }
  | .smovShort _ d a => some
      { ty := .b32, sat := false, d := d.setWidth 8, a := some (a.setWidth 8), b := none, imm := 0, f := fun a _ => (a.toNat : Int) }
  | .smovi _ o => some
      { ty := o.ty, sat := false, d := o.d, a := none, b := none, imm := imm o.ty.is64 o.ext o.lit, f := fun _ b => (b.toNat : Int) }
  | .smoviLit _ wide d lit => some
      { ty := if wide then .b64 else .b32, sat := false, d := d.setWidth 8, a := none, b := none, imm := lit, f := fun _ b => (b.toNat : Int) }
  | .scmp _ o => two o false fun a b =>
      let x := num o.ty a
      let y := num o.ty b
      let r : Bool := match o.rnd.code with
        | 0 => decide (x = y) | 1 => decide (x ≠ y) | 2 => decide (x < y) | 3 => decide (x ≤ y) | 4 => decide (y < x)
        | _ => decide (y ≤ x)
      if r then 1 else 0
  | _ => none
where
  two (o : Alu) (sat : Bool) (f : Dword → Dword → Int) : Option Scalar :=
    some { ty := o.ty, sat := sat, d := o.d, a := some o.a, b := if o.bi then none else some o.b,
           imm := imm o.ty.is64 o.ext o.lit, f := f }

/-! ### Control flow (R190 to R202, R276, R307) -/

/-- Where a sub-team goes on whose lanes all take one path (R194, R195, R202, R307): `none` where the paths differ or the target
is misaligned. -/
def flow (s : State) (c sl e : Nat) (i : Instr) : Option Word :=
  let ls := lanes s c sl e i
  let all := lanesOf (s.entry c sl e).mask
  let next := nextPc s c sl e i
  let at_ := fun (off : Word) => (s.entry c sl e).pc + off * 4
  let branch := fun (off : Word) => if ls = [] then some next else if ls = all ∨ at_ off = next then some (at_ off) else none
  let uniform := fun (t : Word) (take : Bool) => some (if ls ≠ [] ∧ take = true then t else next)
  match i with
  | .nop _ | .nopShort _ => some next
  | .bra _ _ off => branch off
  | .braShort _ off => branch (off.signExtend 32)
  | .brl _ _ off => uniform (at_ off) true
  | .brlShort _ off => uniform (at_ (off.signExtend 32)) true
  | .brz _ _ a off => uniform (at_ off) (sreg s c sl e a.toNat == 0)
  | .brnz _ _ a off => uniform (at_ off) (sreg s c sl e a.toNat != 0)
  | .brx _ _ a true =>
      if ls = [] then some next
      else if (sreg s c sl e a.toNat).toNat % 4 = 0 then some (sreg s c sl e a.toNat) else none
  | .brx _ _ a false =>
      (match ls with
       | [] => if all = [] then none else some next
       | l :: _ =>
         let t := vreg s c sl e l a.toNat
         if ls = all ∧ t.toNat % 4 = 0 ∧ (ls.all fun m => vreg s c sl e m a.toNat == t) = true then some t else none)
  | .yield _ | .yieldShort _ => if (s.entry c sl e).serialised then none else some next
  | .xfer _ v => if v = (s.entry c sl e).version ∧ (s.entry c sl e).target = none then some next else none
  | _ => none

/-- The forms of `RETT`. -/
def isRett : Instr → Bool
  | .rett _ | .rettShort _ => true
  | _ => false

/-- Where a control stream goes on (R193, R194, R197, R313) and what its return stack then holds. -/
def ctlFlow (s : State) (cl : Nat) (i : Instr) : Option (Word × List Word) :=
  let x := s.ctl cl
  let next := x.pc + BitVec.ofNat 32 (4 * (encode i).length)
  let creg := fun (r : BitVec 8) => if r = 0 then (0 : Dword) else x.c.get 0 r.toNat
  match i with
  | .nop _ | .nopShort _ => some (next, x.ret)
  | .bra _ _ off => some (x.pc + off * 4, x.ret)
  | .braShort _ off => some (x.pc + off.signExtend 32 * 4, x.ret)
  | .brz _ _ a off => some (if creg a = 0 then x.pc + off * 4 else next, x.ret)
  | .brnz _ _ a off => some (if creg a = 0 then next else x.pc + off * 4, x.ret)
  | .cbr _ cmp ty a b off =>
      let u := num ty (creg a)
      let v := num ty (creg b)
      let take : Bool := match cmp.toNat with
        | 0 => decide (u = v) | 1 => decide (u ≠ v) | 2 => decide (u < v) | 3 => decide (u ≤ v) | 4 => decide (v < u)
        | _ => decide (v ≤ u)
      some (if take then x.pc + off * 4 else next, x.ret)
  | .call _ _ off => if x.ret.length < 32 then some (x.pc + off * 4, next :: x.ret) else none
  | .callShort _ off => if x.ret.length < 32 then some (x.pc + off.signExtend 32 * 4, next :: x.ret) else none
  | .pop _ | .popShort _ | .ret _ | .retShort _ => (match x.ret with | r :: rs => some (r, rs) | [] => none)
  | .rett _ | .rettShort _ => if x.handler then some (x.tpc, x.ret) else none
  | _ => none

end Sys2Proof.Said
end

