-- ==== Sys2Proof/Safety/Access.lean ====
section
/-! DEFINITION. The words of the statements about memory and synchronisation: addresses of R240, the legal accesses of R241, the
bytes that a load brings and a store sends, integer atomics, and how a sub-team goes on or sleeps. -/

namespace Sys2Proof.Said

open Sys2Proof.Machine

/-! ### Going on and sleeping -/

/-- The sub-team goes on at the next instruction. -/
def Goes (s t : State) (c sl e : Nat) (i : Instr) : Prop :=
  (t.entry c sl e).pc = nextPc s c sl e i ∧ (t.entry c sl e).st = .stalled (t.entry c sl e).till ∧
  (t.entry c sl e).mask = (s.entry c sl e).mask ∧ (t.entry c sl e).stack = (s.entry c sl e).stack
/-- The sub-team sleeps at its instruction for a cause; woken, it is to go on at the next one. -/
def Sleeps (s t : State) (c sl e : Nat) (i : Instr) (w : Wait) : Prop :=
  (t.entry c sl e).pc = (s.entry c sl e).pc ∧ (t.entry c sl e).st = .asleep w ∧
  (t.entry c sl e).npc = nextPc s c sl e i ∧ (t.entry c sl e).mask = (s.entry c sl e).mask
/-- The team's registers, flags and mode are as they were. -/
def SameTeam (s t : State) (c sl e : Nat) : Prop :=
  (team t c sl e).v = (team s c sl e).v ∧ (team t c sl e).s = (team s c sl e).s ∧ (team t c sl e).p = (team s c sl e).p ∧
  (team t c sl e).fpctl = (team s c sl e).fpctl ∧ (team t c sl e).mode = (team s c sl e).mode ∧
  (team t c sl e).tvec = (team s c sl e).tvec
/-- No byte behind the caches and no Basin line has changed. -/
def SameMemory (s t : State) : Prop :=
  t.dram = s.dram ∧ t.basin = s.basin ∧ t.pond = s.pond ∧ t.farMem = s.farMem ∧ t.hostMem = s.hostMem
/-- No scratchpad byte has changed. -/
def SameScratch (s t : State) : Prop := ∀ n, (t.core n).scratch = (s.core n).scratch
/-- The control stream goes on at its next instruction, or sleeps. -/
def CGoes (s t : State) (cl : Nat) (i : Instr) : Prop :=
  (t.ctl cl).pc = (s.ctl cl).pc + BitVec.ofNat 32 (4 * (encode i).length) ∧ (t.ctl cl).st = .stalled (t.ctl cl).till
def CSleeps (s t : State) (cl : Nat) (w : CWait) : Prop := (t.ctl cl).pc = (s.ctl cl).pc ∧ (t.ctl cl).st = .asleep w

/-! ### Addresses (R240) -/

/-- The address of a lane: base register of the space's width, signed index, signed offset. -/
def address (s : State) (c sl e : Nat) (sp : Space) (sb ix : Bool) (a b : BitVec 8) (off : Int) (l : Nat) : Int :=
  (if sp = .g then ((if sb then spair s c sl e a.toNat else vpair s c sl e l a.toNat).toNat : Int)
   else ((if sb then sreg s c sl e a.toNat else vreg s c sl e l a.toNat).toNat : Int)) +
  (if ix then (vreg s c sl e l b.toNat).toInt else 0) + off
def memAt (s : State) (c sl e : Nat) (o : Mem) : Nat → Int := address s c sl e o.space o.sb o.ix o.a o.b o.off.toInt
def atmAt (s : State) (c sl e : Nat) (o : Atm) : Nat → Int := address s c sl e o.space o.sb o.ix o.a o.b o.off.toInt

/-- An address as the number that the space uses: modulo 2^64 in `.g`. -/
def place (sp : Space) (a : Int) : Nat := if sp = .g then (a % 2 ^ 64).toNat else a.toNat

/-- The launch's context. -/
def ctx (s : State) (c sl e : Nat) : Nat := (launch s c sl e).ctx

/-- The core and scratchpad byte that a `.c` address names (R114). -/
def tarn (s : State) (c sl e a n : Nat) : Option (Nat × Nat) := s.tarnAt (clusterOf c) (parcel s c sl e).lid a n

/-- The accesses of the active lanes are aligned, in range and in no watched range (R109, R114, R116, R127, R241, R346). -/
def Legal (s : State) (c sl e : Nat) (i : Instr) (sp : Space) (at_ : Nat → Int) (size : Nat) (k : Right) : Prop :=
  ∀ l, active s c sl e i l = true →
    at_ l % size = 0 ∧
    (match sp with
     | .l => 0 ≤ at_ l ∧ (at_ l).toNat + size ≤ (version s c sl e).scratch
     | .c => 0 ≤ at_ l ∧ (tarn s c sl e (at_ l).toNat size).isSome
     | .p => 0 ≤ at_ l ∧ (at_ l).toNat + size ≤ 64 * (s.ctxOf (ctx s c sl e)).desc.pond * 2 ^ 20
     | .g => s.windowOk (ctx s c sl e) (place .g (at_ l)) size k = true ∧ s.watched c (place .g (at_ l)) size = false)

/-- The byte of this core's scratchpad that an access reaches without a message: `.l`, and `.c` of this core (R109, R115). -/
def nearByte (s : State) (c sl e : Nat) (sp : Space) (a : Int) (n : Nat) : Option Nat :=
  match sp with
  | .l => some ((parcel s c sl e).base + a.toNat)
  | .c => (match tarn s c sl e a.toNat n with | some x => if x.1 = c then some x.2 else none | none => none)
  | _ => none

/-- Where a request for a lane goes, and the address it carries (R115, R144). -/
def target (s : State) (c sl e : Nat) (sp : Space) (a : Int) (n : Nat) : Tgt × Nat :=
  match sp with
  | .g => (.part (partOf (place .g a / 32 * 32)), place .g a)
  | .p => (.pond (pondPart a.toNat), a.toNat)
  | _ => (match tarn s c sl e a.toNat n with | some x => (.bank x.1, x.2) | none => (.bank c, 0))

/-! ### Loads and stores (R243 to R245) -/

def shortAccess (sp : Space) (d a : BitVec 7) : Mem :=
  { space := sp, ty := .b32, count := .x1, sb := false, ix := false, r := d.setWidth 8, a := a.setWidth 8, b := 0, off := 0 }
/-- The operands of the load and store forms. -/
def loadOf : Instr → Option Mem
  | .ld _ o => some o
  | .ldShort _ sp d a => some (shortAccess sp d a)
  | _ => none
def storeOf : Instr → Option Mem
  | .st _ o => some o
  | .stShort _ sp d a => some (shortAccess sp d a)
  | _ => none
def spanOf (o : Mem) : Nat := o.count.num * o.ty.bytes

/-- The value in memory bytes, lowest address first (R4). -/
def little (n : Nat) (byte : Nat → Byte) : Nat := ((List.range n).map fun q => (byte q).toNat * 256 ^ q).sum

/-- What a load gives register `r` of a lane whose bytes are `byte`: element j in its register or pair, extended by its type. -/
def loaded (o : Mem) (byte : Nat → Byte) (r : Nat) : Option Word :=
  let step := if o.ty.is64 then 2 else 1
  if o.r.toNat ≤ r ∧ r < o.r.toNat + step * o.count.num then
    let j := (r - o.r.toNat) / step
    let z := fit o.ty false (num o.ty (BitVec.ofNat 64 (little o.ty.bytes fun q => byte (j * o.ty.bytes + q))))
    some (if (r - o.r.toNat) % step = 0 then z.setWidth 32 else (z >>> 32).setWidth 32)
  else none

/-- Byte `q` of what a lane stores. -/
def stored (s : State) (c sl e : Nat) (ty : Ty) (r : BitVec 8) (l q : Nat) : Byte :=
  let j := q / ty.bytes
  let z : Dword := if ty.is64 then vpair s c sl e l (r.toNat + 2 * j) else (vreg s c sl e l (r.toNat + j)).setWidth 64
  (z >>> (8 * (q % ty.bytes))).setWidth 8

/-- The requests of this instruction that a step has added carry this team's name and order (R143, R146). -/
def MyRequests (s : State) (c sl e : Nat) (st : ReqSt) (news : List Req) : Prop :=
  ∀ r ∈ news, r.src = .team c sl (s.entry c sl e).team ∧ r.port = c ∧ r.owners = [e] ∧ r.pc = (s.entry c sl e).pc ∧ r.st = st ∧
    r.ctx = ctx s c sl e

/-- What a step that sends requests leaves as it was: the new requests come last, in issue order; nothing else of memory, of the
scratchpads and of the team's registers has changed. -/
structure Sent (s t : State) (c sl e : Nat) (st : ReqSt) (news : List Req) : Prop where
  reqs : t.reqs = s.reqs ++ news
  mine : MyRequests s c sl e st news
  team : SameTeam s t c sl e
  memory : SameMemory s t
  scratch : SameScratch s t

/-- Nothing outside the core has changed but the counter of open values; on the core, only the slot's issuing team and entry have, and
what a load's arrival patches in a sibling's run-ahead checkpoint (R74). -/
structure OnlyTeam (s t : State) (c sl e : Nat) : Prop where
  rest : t = { s with cores := t.cores, fresh := t.fresh }
  cores : ∀ n, n ≠ c → t.core n = s.core n
  core : t.core c = { s.core c with slots := (t.core c).slots }
  slots : ∀ n, n ≠ sl → t.slot c n = s.slot c n
  teams : ∀ n, n ≠ (s.entry c sl e).team → t.team c sl n = s.team c sl n
  entries : ∀ n, n ≠ e →
    (t.entry? c sl n).map (fun (y : Entry) => { y with ra := none }) = (s.entry? c sl n).map (fun (y : Entry) => { y with ra := none })

/-- The entry does not sleep as its instruction issues. -/
def Awake (s : State) (c sl e : Nat) : Prop := ∀ w, (s.entry c sl e).st ≠ .asleep w
def CAwake (s : State) (cl : Nat) : Prop := ∀ w, (s.ctl cl).st ≠ .asleep w

/-- How a release ends its issue (R151): its own writes are sent if its wait is over, and held otherwise. -/
def releaseSt (s : State) (c sl e : Nat) : ReqSt := if s.released (.team c sl (s.entry c sl e).team) e then .sent else .held
def releaseWait (s : State) (c sl e : Nat) (ids : List Nat) : Wait :=
  if s.released (.team c sl (s.entry c sl e).team) e then .writes ids else .release ids false none

/-- A word of a core's scratchpad. -/
def word (s : State) (core a : Nat) : Nat := little 4 fun q => (s.core core).scratch.get 0 (a + q)

/-! ### Byte-count barriers (R68, R261) -/

/-- The loop of R68 for `n` bytes at an object with REMAIN, EXPECT and PHASE: REMAIN and PHASE after it. The first argument bounds the
rounds. -/
def arriving : Nat → Nat → Nat → Nat → Nat → Nat × Nat
  | 0, _, r, _, p => (r, p)
  | k + 1, n, r, x, p => if r ≤ n then arriving k (n - r) x x ((p + 1) % 2 ^ 32) else (r - n, p)

/-- The address of an object in the team stream, and the core and scratchpad byte that it names (R261). -/
def objAddr (s : State) (c sl e : Nat) (i : Instr) (o : Barb) : Int :=
  ((if o.sb then sreg s c sl e o.a.toNat else vreg s c sl e ((lanes s c sl e i).headD 0) o.a.toNat).toNat : Int) + o.off.toInt
def objPlace (s : State) (c sl e : Nat) (i : Instr) (o : Barb) : Option (Nat × Nat) :=
  let a := objAddr s c sl e i o
  if a % 16 ≠ 0 ∨ a < 0 then none
  else if o.space = .l then (if a.toNat + 16 ≤ (version s c sl e).scratch then some (c, (parcel s c sl e).base + a.toNat) else none)
  else tarn s c sl e a.toNat 16
/-- c[r]; c0 reads zero. -/
def creg (s : State) (cl : Nat) (r : BitVec 8) : Dword := if r = 0 then 0 else (s.ctl cl).c.get 0 r.toNat
/-- The object that a control stream names: core-in-cluster at bit 20, offset in the launch's parcel there (R261). -/
def ctlPlace (s : State) (cl : Nat) (o : Barb) : Option (Nat × Nat) :=
  let v := (creg s cl o.a + o.off.signExtend 64).toNat
  if v % 16 ≠ 0 ∨ 2 ^ 24 ≤ v then none
  else match s.parcelOn (16 * cl + v / 2 ^ 20) (s.ctl cl).lid with
    | some p =>
      let x := s.ctl cl
      if v % 2 ^ 20 + 16 ≤ ((s.kernel (s.launchOf x.lid).kid).version x.version).scratch then some (p.core, p.base + v % 2 ^ 20) else none
    | none => none

/-! ### Atomics (R248) -/

/-- The word that an atomic on integers or bits leaves: from the old word, operand C and, for `cas`, the compared operand B. -/
def atomic (op : AOp) (ty : Ty) (old x y : Dword) : Dword :=
  match op with
  | .add => fit ty false (num ty old + num ty x)
  | .min => if num ty old ≤ num ty x then old else x
  | .max => if num ty old ≤ num ty x then x else old
  | .and => old &&& x
  | .or => old ||| x
  | .xor => old ^^^ x
  | .exch => x
  | .cas => if old = y then x else old

/-- One rounded addition, to nearest with ties to even (R250). -/
def addHalf (k : Fmt) (a b : Nat) : Nat := (k.fin .rn false (sumEx .rn [k.dec a, k.dec b])).1
/-- The word that an atomic leaves, for every type it takes. -/
def atomicAny (op : AOp) (ty : Ty) (old x y : Dword) : Dword :=
  match ty with
  | .f32 => (match op with
    | .add => BitVec.ofNat 64 (addHalf .f32 old.toNat x.toNat)
    | .min => BitVec.ofNat 64 (Fmt.f32.minmax false false old.toNat x.toNat).1
    | .max => BitVec.ofNat 64 (Fmt.f32.minmax false true old.toNat x.toNat).1
    | _ => old)
  | .bx2 => BitVec.ofNat 64 (addHalf .bf16 (old.toNat % 2 ^ 16) (x.toNat % 2 ^ 16) +
      2 ^ 16 * addHalf .bf16 (old.toNat / 2 ^ 16) (x.toNat / 2 ^ 16))
  | .hx2 => BitVec.ofNat 64 (addHalf .f16 (old.toNat % 2 ^ 16) (x.toNat % 2 ^ 16) +
      2 ^ 16 * addHalf .f16 (old.toNat / 2 ^ 16) (x.toNat / 2 ^ 16))
  | _ => atomic op ty old x y
def inexactType (ty : Ty) : Bool := ty == .f32 || ty == .bx2 || ty == .hx2

/-- The operands of a lane. -/
def atmX (s : State) (c sl e : Nat) (o : Atm) (l : Nat) : Dword :=
  if o.ty.is64 then vpair s c sl e l o.c.toNat else (vreg s c sl e l o.c.toNat).setWidth 64
def atmY (s : State) (c sl e : Nat) (o : Atm) (l : Nat) : Dword :=
  if o.op = .cas then (if o.ty.is64 then vpair s c sl e l o.b.toNat else (vreg s c sl e l o.b.toNat).setWidth 64) else 0
/-- The word at a byte after the operations of some lanes, one after another. -/
def atmAfter (s : State) (c sl e : Nat) (o : Atm) (old : Dword) (ls : List Nat) : Dword :=
  ls.foldl (fun w l => atomicAny o.op o.ty w (atmX s c sl e o l) (atmY s c sl e o l)) old
/-- The word after the operations of some lanes, lane, operand and compared value, one after another. -/
def lanesAfter (op : AOp) (ty : Ty) (old : Dword) (ls : List (Nat × Dword × Dword)) : Dword :=
  ls.foldl (fun w y => atomicAny op ty w y.2.1 y.2.2) old
/-- The word after the merged operation of some lanes (R158): of the types that round, the lanes' operands are combined first, rounded at
every step, and the result is applied once; of the others that is the operations one after another. -/
def lanesMerged (op : AOp) (ty : Ty) (old : Dword) (ls : List (Nat × Dword × Dword)) : Dword :=
  match ls with
  | x :: y :: r =>
    if inexactType ty then atomicAny op ty old ((y :: r).foldl (fun w z => atomicAny op ty w z.2.1 0) x.2.1) 0
    else lanesAfter op ty old ls
  | _ => lanesAfter op ty old ls
def atmMerged (s : State) (c sl e : Nat) (o : Atm) (old : Dword) (ls : List Nat) : Dword :=
  lanesMerged o.op o.ty old (ls.map fun l => (l, atmX s c sl e o l, atmY s c sl e o l))

end Sys2Proof.Said
end

