-- ==== Sys2Proof/Safety/Events.lean ====
section
/-! DEFINITION. The words of the statements about the control core, traps and special registers: engine commands and their legal
operands, the trap frame in memory, the values of special registers. -/

namespace Sys2Proof.Said

open Sys2Proof.Machine

/-! ### Engine commands (R267 to R294) -/

/-- The cores that a mask register names (R269). -/
def cores (s : State) (cl : Nat) (r : BitVec 8) : List Nat := (List.range 16).filter fun k => (creg s cl r).getLsbD k
/-- A mask names cores of the launch alone (R269, R270). -/
def maskOk (s : State) (cl : Nat) (r : BitVec 8) : Prop :=
  (creg s cl r).toNat < 65536 ∧ ∀ k ∈ cores s cl r, k ∈ s.pmask cl (s.ctl cl).lid
/-- The scratchpad bytes of the stream's version, and its context. -/
def ctlScratch (s : State) (cl : Nat) : Nat :=
  let x := s.ctl cl
  ((s.kernel (s.launchOf x.lid).kid).version x.version).scratch
def ctlCtx (s : State) (cl : Nat) : Nat := (s.launchOf (s.ctl cl).lid).ctx
/-- A shape register. -/
def shape (s : State) (cl : Nat) (r : BitVec 8) : ShapeReg := (s.ctl cl).h.get {} r.toNat
/-- A byte-count object's number; 0xFFFF names none (R280). -/
def object (b : BitVec 16) : Option Nat := if b = 0xFFFF then none else some b.toNat

/-- The size of an element in scratchpad (R281, R283). -/
def elemSize (load : Bool) (ty : Ty) (sh : ShapeReg) : Nat :=
  if ty = .bf16 then (if load then 2 else 4) else if ty = .f32 then (if load then 4 else 2) else 2 ^ sh.esz.toNat
/-- A converting copy takes the element size that its type asks for (R281, R283). -/
def typeOk (load : Bool) (ty : Ty) (sh : ShapeReg) : Prop :=
  (ty = .bf16 → 2 ^ sh.esz.toNat = if load then 4 else 2) ∧ (ty = .f32 → 2 ^ sh.esz.toNat = if load then 2 else 4)
/-- The global side's alignment. -/
def sideOk (sh : ShapeReg) (n : Nat) : Prop := sh.base.toNat % n = 0 ∧ sh.s0.toNat % n = 0 ∧ sh.s1.toNat % n = 0 ∧ sh.s2.toNat % n = 0
/-- The scratchpad side lies in the version's scratchpad, as does the object (R280, R281). -/
def regionOk (s : State) (cl : Nat) (sh : ShapeReg) (n off : Nat) (bobj : BitVec 16) (named : List Nat) : Prop :=
  (1 ≤ sh.e1m.toNat → (sh.e0m.toNat + 1) * n ≤ sh.pitch.toNat) ∧
  (named ≠ [] →
    off + sh.e0m.toNat * n + sh.e1m.toNat * sh.pitch.toNat + sh.e2m.toNat * (sh.pitch.toNat * (sh.e1m.toNat + 1)) + n ≤ ctlScratch s cl ∧
    ∀ b, object bobj = some b → 16 * b + 16 ≤ ctlScratch s cl)
/-- First row and number of rows in a rows operand (R273). -/
def rowsOf_ (v : Dword) : Nat × Nat := (v.toNat % 1024, (v.toNat / 65536) % 1024 + 1)
def rowsOk (v : Dword) : Prop := v.toNat = (rowsOf_ v).1 + 65536 * ((rowsOf_ v).2 - 1) ∧ (rowsOf_ v).1 + (rowsOf_ v).2 ≤ 1024

/-- Whether a command has units left on a core. -/
def unitsLeft (m : Cmd) (k : Nat) : Bool := m.cores.contains k && decide ((m.done.filter fun d => d.1 == k).length < m.units)
/-- Whether the active plane of a core will carry metadata when the commands issued so far are done (R289 to R291). -/
def planeHas (s : State) (cl k : Nat) : Bool :=
  let mx := (s.core (16 * cl + k)).mx
  (((s.ctl cl).cmds.filter fun m => unitsLeft m k).foldl
    (fun (a : Bool × Bool) m => match m.op with | .lds w _ _ => (a.1, w) | .swap => (a.2, a.1) | _ => a)
    (mx.active.hasMeta, mx.shadow.hasMeta)).1

/-- The command that an engine instruction issues: its mask register, whether it is a copy, and its work. -/
def command (s : State) (cl : Nat) : Instr → Option (BitVec 8 × Bool × EngOp)
  | .txLd _ o => some (o.c, true, .ld (shape s cl o.a) o.ty (creg s cl o.d).toNat (object o.bobj))
  | .txLdq _ o p => some (o.c, true, .ldq (shape s cl o.a) (creg s cl o.b) p.toNat (creg s cl o.d).toNat (object o.bobj))
  | .txSt _ o => some (o.c, true, .st (shape s cl o.a) o.ty (creg s cl o.d).toNat (object o.bobj))
  | .txStPeer _ o =>
      let b := (shape s cl o.a).base.toNat
      some (o.c, true, .stPeer (shape s cl o.a) (b % 16) (b / 2 ^ 4 % 2 ^ 32) (b / 2 ^ 36 % 2 ^ 20) (creg s cl o.d).toNat (object o.bobj)
        (object ((creg s cl o.b).setWidth 16)))
  | .mxLds _ w a b c => some (c, false, .lds w (creg s cl a).toNat (creg s cl b).toNat)
  | .mxSwap _ c => some (c, false, .swap)
  | .mxStrm _ o => some (o.c, false, .strm (s.algebra (ctlCtx s cl) cl o.alg.toNat) o.lst o.acc (creg s cl o.d).toNat (creg s cl o.a).toNat
      (creg s cl o.b).toNat (o.m1.toNat + 1))
  | .mxDrn _ o => some (o.c, false, .drn o.ty (rowsOf_ (creg s cl o.d)).1 (rowsOf_ (creg s cl o.d)).2 (creg s cl o.a).toNat (creg s cl o.b).toNat
      (object o.bobj))
  | .mxZero _ d c => some (c, false, .zero (rowsOf_ (creg s cl d)).1 (rowsOf_ (creg s cl d)).2)
  | _ => none

/-- The operand checks of an engine instruction (R271, R281 to R284, R289 to R293). -/
def commandOk (s : State) (cl : Nat) : Instr → Prop
  | .txLd _ o =>
      let sh := shape s cl o.a
      let n := elemSize true o.ty sh
      let off := (creg s cl o.d).toNat
      typeOk true o.ty sh ∧ sideOk sh (2 ^ sh.esz.toNat) ∧ off % n = 0 ∧ sh.pitch.toNat % n = 0 ∧ maskOk s cl o.c ∧
        (o.mc = false → (cores s cl o.c).length ≤ 1) ∧ regionOk s cl sh n off o.bobj (cores s cl o.c)
  | .txLdq _ o _ =>
      let sh := shape s cl o.a
      let off := (creg s cl o.d).toNat
      sideOk sh 256 ∧ off % 512 = 0 ∧ sh.pitch.toNat % 512 = 0 ∧ maskOk s cl o.c ∧ (o.mc = false → (cores s cl o.c).length ≤ 1) ∧
        regionOk s cl sh 512 off o.bobj (cores s cl o.c)
  | .txSt _ o =>
      let sh := shape s cl o.a
      let n := elemSize false o.ty sh
      let off := (creg s cl o.d).toNat
      typeOk false o.ty sh ∧ sideOk sh (2 ^ sh.esz.toNat) ∧ off % n = 0 ∧ sh.pitch.toNat % n = 0 ∧ maskOk s cl o.c ∧
        (cores s cl o.c).length ≤ 1 ∧ regionOk s cl sh n off o.bobj (cores s cl o.c)
  | .txStPeer _ o =>
      let sh := shape s cl o.a
      let n := 2 ^ sh.esz.toNat
      let off := (creg s cl o.d).toNat
      let far : Int := (sh.base.toNat / 2 ^ 36 % 2 ^ 20 : Nat)
      let ends := [sh.s0.toInt * sh.e0m.toNat, sh.s1.toInt * sh.e1m.toNat, sh.s2.toInt * sh.e2m.toNat]
      (creg s cl o.b).toNat < 65536 ∧ off % n = 0 ∧ sh.pitch.toNat % n = 0 ∧ maskOk s cl o.c ∧ (cores s cl o.c).length ≤ 1 ∧
        sh.base.toNat < 2 ^ 56 ∧ 0 ≤ far + (ends.map fun x => min 0 x).sum ∧ far + (ends.map fun x => max 0 x).sum + n ≤ 2 ^ 20 ∧
        regionOk s cl sh n off o.bobj (cores s cl o.c)
  | .mxLds _ w a b c =>
      let img := (creg s cl a).toNat
      let p := (creg s cl b).toNat
      img % 4 = 0 ∧ p % 4 = 0 ∧ maskOk s cl c ∧ 256 ≤ p ∧
        (cores s cl c ≠ [] → img + 31 * p + 256 ≤ ctlScratch s cl ∧ (w = true → img + 32 * p + 1024 ≤ ctlScratch s cl))
  | .mxSwap _ c => maskOk s cl c
  | .mxStrm _ o =>
      let src := (creg s cl o.a).toNat
      let p := (creg s cl o.b).toNat
      src % 4 = 0 ∧ p % 4 = 0 ∧ maskOk s cl o.c ∧ (creg s cl o.d).toNat + o.m1.toNat + 1 ≤ 1024 ∧ 128 ≤ p ∧
        ∀ k ∈ cores s cl o.c, (o.alg ≠ 0 → planeHas s cl k = false) ∧
          (let n := if planeHas s cl k then 256 else 128
           n ≤ p ∧ src + o.m1.toNat * p + n ≤ ctlScratch s cl)
  | .mxDrn _ o =>
      let dst := (creg s cl o.a).toNat
      let p := (creg s cl o.b).toNat
      let n := if o.ty = .bf16 then 128 else 256
      dst % 4 = 0 ∧ p % 4 = 0 ∧ maskOk s cl o.c ∧ rowsOk (creg s cl o.d) ∧ n ≤ p ∧
        (cores s cl o.c ≠ [] → dst + ((rowsOf_ (creg s cl o.d)).2 - 1) * p + n ≤ ctlScratch s cl ∧
          ∀ b, object o.bobj = some b → 16 * b + 16 ≤ ctlScratch s cl)
  | .mxZero _ d c => maskOk s cl c ∧ rowsOk (creg s cl d)
  | _ => False

/-- The commands of its kind that the cluster still holds for the masked cores leave room (R267). -/
def roomFor (s : State) (cl : Nat) (copy : Bool) (named : List Nat) : Prop :=
  let live := (s.ctl cl).cmds.filter fun m => !m.finished
  if copy then (live.filter fun m => m.isTx).length < 32
  else ∀ k ∈ named, (live.filter fun m => !m.isTx && m.cores.contains k).length < 16

/-! ### Traps (R301 to R304, R313) -/

/-- The byte that new store requests carry for an address. -/
def sentByte (news : List Req) (a : Nat) : Option Byte :=
  news.findSome? fun r => match r.kind with
    | .store bs => (bs.find? fun b => r.va + b.1 == a).map Prod.snd
    | _ => none
/-- A field of a frame at `base`, in bytes. -/
def framed (news : List Req) (base off n : Nat) : Nat := little n fun q => (sentByte news (base + off + q)).getD 0

/-- The trap can be delivered: a handler, no debug function, a stack with room that one readable and writable window holds. -/
structure CanTrap (s : State) (c sl e o : Nat) : Prop where
  vector : (team s c sl e).tvec ≠ 0xFFFFFFFF
  debug : (s.core c).dbgctl = 0
  depth : (s.entry c sl e).stack.length < 8
  width : (s.entry c sl e).mask.length = 2 ^ (team s c sl e).w
  room : ∃ g, s.stackRoom c sl e (frameSize (2 ^ (team s c sl e).w) 0) = some (o, g)
  small : o < 2 ^ 32
  window : ∀ k, (k = .r ∨ k = .w) →
    s.windowOk (ctx s c sl e) ((team s c sl e).stkbase.toNat + o) (128 + 4 * 2 ^ (team s c sl e).w) k = true

/-- The sub-team has taken a trap: TRAP entry, frame, handler (R302). -/
structure Trapped (s t : State) (c sl e o : Nat) (i : Instr) (cause : BitVec 8) (code : Word) (va : Dword) (row : Nat) (who : Nat → Bool)
    (resume : Word) (news : List Req) : Prop where
  reqs : t.reqs = s.reqs ++ news
  pc : (t.entry c sl e).pc = (team s c sl e).tvec
  waits : (t.entry c sl e).st = .asleep (.writes (news.map Req.id))
  mask : (t.entry c sl e).mask = (s.entry c sl e).mask
  version : (t.entry c sl e).version = (s.entry c sl e).version
  stack : ∃ y, (t.entry c sl e).stack = y :: (s.entry c sl e).stack ∧ y.kind = 2 ∧ y.pc = resume ∧ y.aux.toNat = o
  whole : ∀ q, q < 128 + 4 * (s.entry c sl e).mask.length → (sentByte news ((team s c sl e).stkbase.toNat + o + q)).isSome
  fcause : framed news ((team s c sl e).stkbase.toNat + o) 0 1 = cause.toNat
  frow : framed news ((team s c sl e).stkbase.toNat + o) 2 1 = row
  fpc : framed news ((team s c sl e).stkbase.toNat + o) 4 4 = (s.entry c sl e).pc.toNat
  fnpc : framed news ((team s c sl e).stkbase.toNat + o) 8 4 = (nextPc s c sl e i).toNat
  fcode : framed news ((team s c sl e).stkbase.toNat + o) 12 4 = code.toNat
  flanes : ∀ k, k < 32 → (framed news ((team s c sl e).stkbase.toNat + o) 20 4).testBit k = who (32 * row + k)
  fva : framed news ((team s c sl e).stkbase.toNat + o) 24 8 = va.toNat
  fwords : ∀ k, k < (encode i).length → framed news ((team s c sl e).stkbase.toNat + o) (48 + 4 * k) 4 = ((encode i).getD k 0).toNat
  fmask : ∀ k, k < (s.entry c sl e).mask.length →
    framed news ((team s c sl e).stkbase.toNat + o) (128 + 4 * k) 4 = ((s.entry c sl e).mask.getD k 0).toNat

/-- The first row of a mask with a lane. -/
def firstRow (m : List Word) : Nat := (rowsOf m).headD 0
/-- `row` is the lowest row that holds one of some lanes, `low` its lowest one. -/
def LowestOf (who : Nat → Bool) (row low : Nat) : Prop :=
  who low = true ∧ low / 32 = row ∧ ∀ l, who l = true → row ≤ l / 32 ∧ (l / 32 = row → low ≤ l)

/-! ### Special registers (R47, R298 to R300) -/

/-- The value of a special register in a lane of the team stream, outside the registers of a trap frame. -/
def special (s : State) (c sl e n l : Nat) : Option Nat :=
  let x := s.entry c sl e
  let t := team s c sl e
  let p := parcel s c sl e
  let pending := fun (g : Nat) => (t.copies.filter fun k => k.tag == g && !k.counted).length
  let top := x.stack.find? fun y => y.kind == 2
  match n with
  | 0x000 => some l
  | 0x001 => some (l / 32)
  | 0x002 => some t.index
  | 0x003 => some (width s c sl e)
  | 0x004 => some p.index
  | 0x005 => some p.x
  | 0x006 => some p.y
  | 0x007 => some p.z
  | 0x008 => some (p.index * (s.kernel (launch s c sl e).kid).teams + t.index)
  | 0x009 => some c
  | 0x00A => some (c / 16)
  | 0x00B => some ((s.pmask (c / 16) p.lid).map (2 ^ ·)).sum
  | 0x00C => some x.version.toNat
  | 0x00D => some x.safept.toNat
  | 0x00E => some (s.core c).cycle
  | 0x010 => some t.mode.toNat
  | 0x011 => some t.fpctl.toNat
  | 0x012 => some (pending 0)
  | 0x013 => some (pending 1)
  | 0x014 => some (pending 2)
  | 0x015 => some (pending 3)
  | 0x016 => if top = none then some x.ustep.toNat else none
  | 0x017 => (top.filter fun y => !y.spill).map fun y => y.pc.toNat
  | 0x018 => (top.filter fun y => !y.spill).map fun y => t.stkbase.toNat + y.aux.toNat
  | 0x019 => some t.tvec.toNat
  | 0x01A => some t.stkbase.toNat
  | 0x01B => some t.stklim.toNat
  | 0x01C => some ((s.core c).dbgctl.toNat % 4)
  | _ => none
/-- 64-bit special registers, and those with a value per lane. -/
def wideReg (n : Nat) : Bool := n == 0x008 || n == 0x00E || n == 0x018 || n == 0x01A || n == 0x01B
def laneReg (n : Nat) : Bool := n == 0x000 || n == 0x001
/-- A special register's value in the control stream. -/
def ctlSpecial? (s : State) (cl n : Nat) : Option Nat :=
  let x := s.ctl cl
  match n with
  | 0x00A => some cl
  | 0x00B => some ((s.pmask cl x.lid).map (2 ^ ·)).sum
  | 0x00E => some x.cycle
  | 0x00F => some x.eseq.toNat
  | 0x010 => some (x.mode.toNat % 2)
  | 0x017 => if x.handler then some x.tpc.toNat else none
  | 0x018 => if x.handler then some x.stkbase.toNat else none
  | 0x019 => some x.tvec.toNat
  | 0x01A => some x.stkbase.toNat
  | 0x01B => some x.stklim.toNat
  | _ => none

/-- The byte `m` of a word as a number. -/
def byteNum (nat : Bool) (w : Dword) (m : Nat) : Int :=
  if nat then ((w >>> (8 * m)).setWidth 8 : BitVec 8).toNat else ((w >>> (8 * m)).setWidth 8 : BitVec 8).toInt

/-! ### Requests at their place (R131, R132, R144, R146) -/

/-- What a load gives register `r` of a lane whose bytes are `byte`. -/
def landed (d : Dest) (byte : Nat → Byte) (r : Nat) : Option Word :=
  let step := if d.ty.is64 then 2 else 1
  if d.reg ≤ r ∧ r < d.reg + step * d.n then
    let j := (r - d.reg) / step
    let z := fit d.ty false (num d.ty (BitVec.ofNat 64 (little d.ty.bytes fun q => byte (j * d.ty.bytes + q))))
    some (if (r - d.reg) % step = 0 then z.setWidth 32 else (z >>> 32).setWidth 32)
  else none
/-- A byte that a read through a leaf gives. -/
def memByte (s : State) (l : Leaf) (va : Nat) : Byte := (s.readG l va 1).1.headD 0
/-- A leaf of memory that the Basin holds: not of a peer's. -/
def near (l : Leaf) : Prop := ¬ (l.far = true ∧ l.target = 3)
/-- The block of an address. -/
def blockOf (l : Leaf) (va : Nat) : Nat := blockNo (partOf va) l (halfOf l va)
/-- The Basin takes or holds the block of an address without giving up another line (R139). -/
def Room (s : State) (l : Leaf) (va : Nat) : Prop := (s.basin.look (blockOf l va)).isSome ∨ (s.setMates (blockOf l va)).length < 16
/-- A block's line has its 512 bytes (an invariant: see `Obligations.EveryStepKeepsMemoryForm`), there is room for it, and no byte of it
is open: it has been read, or memory holds it under the line's own key generation (R139). -/
structure Whole (s : State) (l : Leaf) (va : Nat) : Prop where
  size : ∀ x, s.basin.look (blockOf l va) = some x → x.bytes.length = 512 ∧ x.fresh.length = 512
  room : Room s l va
  known : s.lineHit (blockOf l va) = true ∨ l.far = true ∨
    (s.elisionOf (blkPart (blockOf l va)) (blkFrame (blockOf l va))).code (blkHalf (blockOf l va)) ≠ 0 ∨
    s.blockKey.get 0 (blockOf l va) = ((s.basin.look (blockOf l va)).map Line.key).getD (s.keyGenOf l)
/-- A request is next in its order at its partition with its page's leaf at hand, which grants it and can be reached. -/
structure AtLeaf (s : State) (r : Req) (l : Leaf) : Prop where
  named : s.req? r.id = some r
  tgt : r.tgt = .part (partOf r.va)
  turn : s.canServe r = true
  free : s.pageHeld r = false
  tlb : (s.part (partOf r.va)).tlb.look (tlbKey r.ctx r.va) = some l
  bell : s.bellOf r.ctx r.va = none
  right : s.grants r.ctx r.va l r.kind.right = true
  up : s.linkDown l = false
  quiet : s.retraining l r.va = false
/-- The state in which a request is performed, after the choice of R145, and the words that it accesses first: none where it goes at once. -/
def torn (s : State) (r : Req) : List Nat := (s.tearWords r).1
def chosen (s : State) (r : Req) : State := (s.tearWords r).2
/-- A byte as a request sees it: as it was read before, or as memory gives it (R145). -/
def seen (s : State) (r : Req) (l : Leaf) (a : Nat) : Byte :=
  match r.got.find? fun g => g.1 == a with
  | some g => g.2
  | none => memByte s l a
/-- No sub-team of a team waits at a `JOIN`. -/
def NoJoin (s : State) (c sl tm : Nat) : Prop := ∀ y ∈ (s.slot c sl).entries, y.2.team = tm → y.2.st ≠ .atJoin
/-- No sub-team of a request's team waits at a `JOIN`: its end fuses none. -/
def Unjoined (s : State) (r : Req) : Prop := ∀ c sl tm, r.src = .team c sl tm → NoJoin s c sl tm
/-- A request is no longer under way. -/
def Gone (t : State) (r : Req) : Prop := ∀ q ∈ t.reqs, q.id ≠ r.id
/-- Bytes were written at a leaf: the named ones hold their new values, the others of the block what they held, and no other block of
the Basin has changed. -/
def MemWrote (s t : State) (l : Leaf) (va : Nat) (f : Nat → Option Byte) : Prop :=
  (∀ a, a / 512 = va / 512 → memByte t l a = (f a).getD (memByte s l a)) ∧
  (∀ k, k ≠ blockNo (partOf va) l (halfOf l va) → t.basin.look k = s.basin.look k) ∧
  t.dram = s.dram ∧ t.pond = s.pond ∧ t.farMem = s.farMem ∧ t.hostMem = s.hostMem

/-! ### Requests at the Pond and at a core's bank (R114, R116, R144) -/

/-- A request is next in its order at a Pond partition or at a core's bank. -/
structure AtPlace (s : State) (r : Req) : Prop where
  named : s.req? r.id = some r
  turn : s.canServe r = true
  tgt : (∃ n, r.tgt = .pond n) ∨ ∃ c, r.tgt = .bank c
/-- The byte at an offset of its context's Pond region or of its bank's core. -/
def placeByte (s : State) (r : Req) (a : Nat) : Byte :=
  match r.tgt with
  | .part _ => 0
  | .pond _ => s.pond.get 0 (pondKey r.ctx a)
  | .bank c => (s.core c).scratch.get 0 a
/-- That byte as the request sees it: as it was read before, or as its place holds it (R145). -/
def placeSeen (s : State) (r : Req) (a : Nat) : Byte :=
  match r.got.find? fun g => g.1 == a with
  | some g => g.2
  | none => placeByte s r a
/-- Bytes were written there: the named ones hold their new values, and no other byte of any memory has changed. -/
def PlaceWrote (s t : State) (r : Req) (f : Nat → Option Byte) : Prop :=
  (∀ a, placeByte t r a = (f a).getD (placeByte s r a)) ∧ t.dram = s.dram ∧ t.basin = s.basin ∧ t.farMem = s.farMem ∧ t.hostMem = s.hostMem ∧
  (∀ c, r.tgt ≠ .bank c → (t.core c).scratch = (s.core c).scratch) ∧
  (∀ k, ((∃ c, r.tgt = .bank c) ∨ ∀ a, k ≠ pondKey r.ctx a) → t.pond.get 0 k = s.pond.get 0 k)

/-! ### Lane copies (R254) -/

/-- The byte that an outbound copy moves to an address: `n` bytes at `a` of the lane block `y`, from the scratchpad of the team's parcel. -/
def outByte (s : State) (c sl tm : Nat) (y : LaneBlk) (a n : Nat) (x : Nat) : Option Byte :=
  if a ≤ x ∧ x < a + n then (y.offs[x - y.addr]?).map fun o => (s.core c).scratch.get 0 ((s.parcel (s.team c sl tm).pid).base + o) else none

/-! ### Mailboxes (R392 to R395) -/

/-- The request with an OP that its function serves next: outstanding on the function's page, of the form and the version that R394 and
R395 ask, while the firmware runs. -/
structure Asked (s : State) (m : Msg) (op page n : Nat) : Prop where
  on : s.requestOn page = some m
  code : m.op = op
  home : opPage op = some page
  len : m.len = n
  res : m.res = 0
  ver : op = 1 ∨ s.wh.callver = some m.ver
  runs : s.wh.stopped = false
  booted : s.wh.booted = true
  alive : s.wh.life ≠ .retired
  normal : s.wh.recovery = false
/-- The response to a request: RSPSEQ, the header with OP, LEN and STATUS, the body, and the interrupt if it is asked for. -/
structure Answered (s t : State) (m : Msg) (status : Nat) (body : List Byte) : Prop where
  seq : (t.mbox m.page).rspseq = (s.mbox m.page).reqseq
  head : natOfBytes (readBytes (t.mbox m.page).rsp 0 8) = m.op + 2 ^ 16 * body.length + 2 ^ 32 * status
  body : readBytes (t.mbox m.page).rsp 8 body.length = body
  irq : (s.mbox m.page).irq = true → m.page ∈ t.msix
/-- A field of a request's body. -/
def field (m : Msg) (lo n : Nat) : Nat := natOfBytes m.body / 2 ^ lo % 2 ^ n

/-- The form of memory (log entry 6): each byte memory lists its bytes at rising addresses and none that reads 0, and a Basin line has
the 512 bytes of R139. -/
def MemoryForm (s : State) : Prop :=
  Memory.wf s.dram = true ∧ Memory.wf s.pond = true ∧ Memory.wf s.farMem = true ∧ Memory.wf s.hostMem = true ∧
  (∀ c, Memory.wf (s.core c).scratch = true) ∧ ∀ k x, s.basin.look k = some x → x.bytes.length = 512 ∧ x.fresh.length = 512

end Sys2Proof.Said
end

