-- ==== Sys2Proof/Certificates/Slice0/Obligations.lean ====
section
/-! DEFINITION. The statements about this model, as propositions. -/

open Sys2Proof Sys2Proof.Machine Sys2Proof.Said

/-! ### Computing instructions of the team stream (chapters 04, 08, 09) -/

/-- R220 to R222 and R225, with R80 and R216: an integer instruction writes its exact value, wrapped to the type's width or
clamped to its range, into D of every active lane, raises no flag, and goes on; nothing else changes. -/
def Obligations.IntegerArithmeticWritesItsValue : Prop :=
  ∀ (s : State) (c sl e : Nat) (i : Instr) (o : Alu) (sat : Bool) (f : Int → Int → Int → Nat → Int),
    arith i = some (o, sat, f) → Clear s c sl e i →
    ∃ t, exec i s = .next t ∧
      Wrote s t c sl e i
        (dest s c sl e i o.ty.is64 o.d fun l =>
          fit o.ty sat (f (num o.ty (opA s c sl e o o.ty.is64 l)) (num o.ty (opB s c sl e o o.ty.is64 l))
            (num o.ty (opC s c sl e o o.ty.is64 l)) (opB s c sl e o o.ty.is64 l).toNat))
        noP noS 0

/-- R223 to R225: a bit, count, select or move instruction writes the bits of its table entry. -/
def Obligations.BitInstructionWritesItsBits : Prop :=
  ∀ (s : State) (c sl e : Nat) (i : Instr) (o : Alu) (wide : Bool) (f : Dword → Dword → Word → Dword),
    bitwise i = some (o, wide, f) → Clear s c sl e i →
    ∃ t, exec i s = .next t ∧
      Wrote s t c sl e i
        (dest s c sl e i wide o.d fun l =>
          f (opA s c sl e o o.ty.is64 l) (opB s c sl e o o.ty.is64 l) (vreg s c sl e l o.c.toNat))
        noP noS 0

/-- R226: `DP4` and the integer forms of `DP2` add the exact products of the elements to the accumulator D. R311, R312:
`ODOT4` adds four byte products to v[C]; `OMMA8` from its first step adds, into D + j of every active lane, row j of the
matrix that its group of eight lanes holds against the lane's own eight bytes; lanes that are not active count as zero. -/
def Obligations.DotProductsAddToTheAccumulator : Prop :=
 (∀ (s : State) (c sl e : Nat) (i : Instr) (o : Alu) (f : Word → Word → Word → Word),
    dot i = some (o, f) → Clear s c sl e i →
    ∃ t, exec i s = .next t ∧
      Wrote s t c sl e i
        (dest s c sl e i false o.d fun l =>
          (f ((opA s c sl e o false l).setWidth 32) (BitVec.ofNat 32 (opB32 s c sl e o l))
            (vreg s c sl e l o.d.toNat)).setWidth 64)
        noP noS 0) ∧
 ((∀ (s : State) (c sl e : Nat) (h : Hdr) (nat : Bool) (d a b x : BitVec 8),
    (let i := Instr.odot4 h nat d a b x
     Clear s c sl e i → (s.entry c sl e).ustep = 0 →
     ∃ t, exec i s = .next t ∧
       Wrote s t c sl e i (dest s c sl e i false d fun l =>
         ((BitVec.ofInt 32 (((vreg s c sl e l x.toNat).toNat : Int) +
           ((List.range 4).map fun m => byteNum nat ((vreg s c sl e l a.toNat).setWidth 64) m *
             byteNum nat ((vreg s c sl e l b.toNat).setWidth 64) m).sum) : Word)).setWidth 64) noP noS 0)) ∧
  (∀ (s : State) (c sl e : Nat) (h : Hdr) (na nb : Bool) (d a b : BitVec 8),
    (let i := Instr.omma8 h na nb d a b
     Clear s c sl e i → (s.entry c sl e).ustep = 0 →
     ∃ t, exec i s = .next t ∧ OnlyEntry s t c sl e ∧ Goes s t c sl e i ∧
       Holds s t c sl e (fun l r =>
         if active s c sl e i l = true ∧ d.toNat ≤ r ∧ r < d.toNat + 8 then
           some (BitVec.ofInt 32 (((vreg s c sl e l r).toNat : Int) +
             ((List.range 8).map fun m =>
               let mate := l / 8 * 8 + m
               byteNum na (vpair s c sl e l a.toNat) m *
                 byteNum nb (if active s c sl e i mate then vpair s c sl e mate b.toNat else 0) (r - d.toNat)).sum))
         else none) noP noS 0)))

/-- R227 to R231, R234, R91, R92: a floating-point, special-function or `QSCALE` instruction that raises no enabled exception
writes its rounded value in every active lane and adds the flags that some lane raises to FPCTL. Where R230 leaves the
value of a special function open within its bound, it is the free value of log entry 7. -/
def Obligations.FloatInstructionWritesAndFlags : Prop :=
  ∀ (s : State) (c sl e : Nat) (i : Instr) (o : Alu) (ty : Ty) (f : Nat → Nat → Nat → Nat × Flags),
    floating (mode s c sl e 1) i = some (o, ty, f) → Clear s c sl e i →
    (let r := fun l => f (opA s c sl e o o.ty.is64 l).toNat (opB s c sl e o o.ty.is64 l).toNat
        (opC s c sl e o o.ty.is64 l).toNat
     calm s c sl e i (fun l => (r l).2) →
     ∃ t, exec i s = .next t ∧
      Wrote s t c sl e i (dest s c sl e i ty.is64 o.d fun l => BitVec.ofNat 64 ((r l).1 % 2 ^ ty.bits)) noP noS
        (raised s c sl e i fun l => (r l).2))

/-- R226, R232, R233, R235: `CVT`, `PACK`, `QCVT` and `DP2.bx2` write the converted value, narrow integers extended by the
destination type, and add their flags. R233: `UNPK` widens the two elements of A exactly into D and D+1. That a quiet NaN
in the accumulator of `DP2.bx2` raises no NV (log entry 30), and that `UNPK` and `CVT` read an A that names an s register
in each lane (log entry 20), is the model's choice: its reading of the rules, and no rule says it. -/
def Obligations.ConversionsAndUnpackWriteAndFlag : Prop :=
 (∀ (s : State) (c sl e : Nat) (i : Instr) (o : Alu) (wideA : Bool) (ty : Ty) (f : Nat → Nat → Nat → Nat × Flags),
    converting (mode s c sl e 1) (mode s c sl e 2) i = some (o, wideA, ty, f) → Clear s c sl e i →
    (let r := fun l => f (opA s c sl e o wideA l).toNat (opB32 s c sl e o l) (vreg s c sl e l o.d.toNat).toNat
     calm s c sl e i (fun l => (r l).2) →
     ∃ t, exec i s = .next t ∧
      Wrote s t c sl e i (dest s c sl e i ty.is64 o.d fun l => fit ty false (num ty (BitVec.ofNat 64 (r l).1))) noP noS
        (raised s c sl e i fun l => (r l).2))) ∧
 (∀ (s : State) (c sl e : Nat) (h : Hdr) (o : Alu),
    Clear s c sl e (.unpk h o) →
    (let half := fun (k l : Nat) => Fmt.f32.fin .rn (mode s c sl e 1)
        (((fmtOf o.ty).opnd (mode s c sl e 1) ((opA s c sl e o false l).toNat / 2 ^ k % 65536)).ex)
     let fl := fun l => (half 0 l).2 ||| (half 16 l).2
     calm s c sl e (.unpk h o) fl →
     ∃ t, exec (.unpk h o) s = .next t ∧
      Wrote s t c sl e (.unpk h o)
        (dest s c sl e (.unpk h o) true o.d fun l => (BitVec.ofNat 32 (half 16 l).1 ++ BitVec.ofNat 32 (half 0 l).1 : Dword))
        noP noS (raised s c sl e (.unpk h o) fl)))

/-- R236 and R237: `BPT` transposes the codes of each row into plane words; an integer `REDUX` gives every active lane of a
set the set's values combined; an `.f32` one gives them combined by the tree of R237, flushed by LDNF (log entry 19). That
a signalling NaN in a set's only active lane raises NV in an `.f32` `REDUX` (log entry 83), and that an A that names an s
register is read in each lane (log entry 20), is the model's choice: its reading of the rules, and no rule says it. -/
def Obligations.TransposeAndReductionAcrossLanes : Prop :=
  (∀ (s : State) (c sl e : Nat) (h : Hdr) (o : Alu), Clear s c sl e (.bpt h o) →
    ∃ t, exec (.bpt h o) s = .next t ∧
      Wrote s t c sl e (.bpt h o) (dest s c sl e (.bpt h o) false o.d (plane s c sl e (.bpt h o) o)) noP noS 0) ∧
  (∀ (s : State) (c sl e : Nat) (h : Hdr) (o : Alu), o.ty ≠ .f32 →
    (∃ n, (s.entry c sl e).mask.length = 2 ^ n) → Clear s c sl e (.redux h o) →
    ∃ t, exec (.redux h o) s = .next t ∧
      Wrote s t c sl e (.redux h o)
        (dest s c sl e (.redux h o) false o.d fun l => (reduxOf s c sl e (.redux h o) o l).setWidth 64) noP noS 0) ∧
  (∀ (s : State) (c sl e : Nat) (h : Hdr) (o : Alu), o.ty = .f32 → Clear s c sl e (.redux h o) →
    (let n := if o.opx then 5 else Nat.log2 (width s c sl e)
     let leaf := fun l => if active s c sl e (.redux h o) l then
         some (let w := Fmt.f32.flush (mode s c sl e 1) (opA s c sl e o false l).toNat
               if o.ext = 6 then (if (Fmt.f32.dec w).isNan then Fmt.f32.nan else w % 2 ^ 31) else w) else none
     let sig := fun b => ∃ l, b ≤ l ∧ l < b + 2 ^ n ∧ active s c sl e (.redux h o) l = true ∧
         (Fmt.f32.dec (opA s c sl e o false l).toNat).isSig = true
     ∀ r : Nat → Nat × Flags,
       (∀ l, l < width s c sl e →
         (let b := l / 2 ^ n * 2 ^ n
          ∃ f0 : Flags, (sig b → f0 = fNV) ∧ (¬ sig b → f0 = 0) ∧
            (let z := reduxTree o.ext.toNat .f32 o.rnd n ((List.range (2 ^ n)).map fun j => leaf (b + j)) f0
             let w := z.1.getD 0
             r l = if (Fmt.f32.dec w).isNan then (Fmt.f32.nan, z.2)
               else if mode s c sl e 1 = true ∧ Fmt.f32.subnormal w = true then (Fmt.f32.flush true w, z.2 ||| fUF ||| fNX)
               else (w, z.2)))) →
       calm s c sl e (.redux h o) (fun l => (r l).2) →
       ∃ t, exec (.redux h o) s = .next t ∧
        Wrote s t c sl e (.redux h o) (dest s c sl e (.redux h o) false o.d fun l => BitVec.ofNat 64 (r l).1) noP noS
          (raised s c sl e (.redux h o) fun l => (r l).2)))

/-- R99, R100, R238, R239: with every group register a multiple of the slot's k, `ALG.MUL` writes each component as the exact
sum of its signed terms, rounded once, `ALG.NORM` component 0 of x ⊗ Conj(x), `ALG.CONJ` the components with their signs. -/
def Obligations.AlgebraInstructionsFollowTheSlot : Prop :=
  ∀ (s : State) (c sl e : Nat) (h : Hdr) (o : Alu),
    (let a := s.algebra (launch s c sl e).ctx (clusterOf c) (o.ext.toNat % 8)
     let ldnf := mode s c sl e 1
     let v := fun (sreg' : Bool) (r : BitVec 8) (l k : Nat) => (fmtOf o.ty).opnd ldnf
       (if sreg' then (sreg s c sl e (r.toNat + k)).toNat else (vreg s c sl e l (r.toNat + k)).toNat)
     let mul := fun l k => algSum (fmtOf o.ty) o.rnd ldnf (a.terms k (v false o.a l) (v o.bs o.b l))
     let norm := fun l => algSum (fmtOf o.ty) o.rnd ldnf
       (a.terms 0 (v false o.a l) (fun j => if a.conj.getLsbD j then (v false o.a l j).neg? else v false o.a l j))
     let conj := fun l k =>
       if a.conj.getLsbD k then signOp (fmtOf o.ty) ldnf true (vreg s c sl e l (o.a.toNat + k)).toNat
       else
         let w := (fmtOf o.ty).flush ldnf (vreg s c sl e l (o.a.toNat + k)).toNat
         (if ((fmtOf o.ty).dec w).isNan then (fmtOf o.ty).nan else w, if ((fmtOf o.ty).dec w).isSig then fNV else 0)
     let flags := fun (f : Nat → Nat → Nat × Flags) l => (List.range a.k).foldl (fun b k => b ||| (f l k).2) (0 : Flags)
     let group := fun (i : Instr) (f : Nat → Nat → Nat × Flags) (l r : Nat) =>
       if active s c sl e i l && decide (o.d.toNat ≤ r) && decide (r < o.d.toNat + a.k) then
         some (BitVec.ofNat 32 (f l (r - o.d.toNat)).1) else none
     (Clear s c sl e (.algMul h o) → o.d.toNat % a.k = 0 → o.a.toNat % a.k = 0 → o.b.toNat % a.k = 0 →
        calm s c sl e (.algMul h o) (flags mul) →
        ∃ t, exec (.algMul h o) s = .next t ∧
          Wrote s t c sl e (.algMul h o) (group (.algMul h o) mul) noP noS (raised s c sl e (.algMul h o) (flags mul))) ∧
     (Clear s c sl e (.algConj h o) → o.d.toNat % a.k = 0 → o.a.toNat % a.k = 0 →
        calm s c sl e (.algConj h o) (flags conj) →
        ∃ t, exec (.algConj h o) s = .next t ∧
          Wrote s t c sl e (.algConj h o) (group (.algConj h o) conj) noP noS (raised s c sl e (.algConj h o) (flags conj))) ∧
     (Clear s c sl e (.algNorm h o) → o.a.toNat % a.k = 0 →
        calm s c sl e (.algNorm h o) (fun l => (norm l).2) →
        ∃ t, exec (.algNorm h o) s = .next t ∧
          Wrote s t c sl e (.algNorm h o) (dest s c sl e (.algNorm h o) false o.d fun l => BitVec.ofNat 64 ((norm l).1 % 2 ^ o.ty.bits)) noP noS
            (raised s c sl e (.algNorm h o) fun l => (norm l).2)))

/-- R205 to R207, R209: `SETP`, `PLOP`, `PSEL` and the predicate forms of `VOTE` write p[D] in the active lanes alone; p0
keeps one; a floating comparison adds NV as R205 says. -/
def Obligations.PredicateInstructionsWritePredicates : Prop :=
  (∀ (s : State) (c sl e : Nat) (h : Hdr) (o : Setp), o.ty.isFloat = false → Clear s c sl e (.setp h o) →
    ∃ t, exec (.setp h o) s = .next t ∧
      Wrote s t c sl e (.setp h o) noV
        (pdest s c sl e (.setp h o) o.d fun l =>
          holds o.cmp (num o.ty (setpA s c sl e o l)) (num o.ty (setpB s c sl e o l))) noS 0) ∧
  (∀ (s : State) (c sl e : Nat) (h : Hdr) (o : Setp), o.ty.isFloat = true → Clear s c sl e (.setp h o) →
    (let v := fun (w : Dword) => (fmtOf o.ty).opnd (mode s c sl e 1) w.toNat
     let r := fun l => cmpFloat o.cmp (v (setpA s c sl e o l)) (v (setpB s c sl e o l))
     calm s c sl e (.setp h o) (fun l => (r l).2) →
     ∃ t, exec (.setp h o) s = .next t ∧
      Wrote s t c sl e (.setp h o) noV (pdest s c sl e (.setp h o) o.d fun l => (r l).1) noS
        (raised s c sl e (.setp h o) fun l => (r l).2))) ∧
  (∀ (s : State) (c sl e : Nat) (i : Instr) (d : BitVec 8), Clear s c sl e i →
    (∀ l, (predicate s c sl e i l).map Prod.fst = some d) →
    ∃ t, exec i s = .next t ∧
      Wrote s t c sl e i noV (pdest s c sl e i d fun l => ((predicate s c sl e i l).map Prod.snd).getD false) noS 0)

/-- R208 to R211, R311: the shuffles give each active lane the register of its source lane, read before any lane is written;
`VOTE.mask` gives the word of the lane's row, or under `.lw` the 64-bit word of its group; `LTOS` copies the lowest active
lane's register to an s register, `STOL` an s register to one lane. -/
def Obligations.CrossLaneInstructionsMoveLanes : Prop :=
  (∀ (s : State) (c sl e : Nat) (i : Instr) (m : ShMode) (g : Nat) (wide : Bool) (d a : BitVec 8) (x : Nat → Nat),
    shuffle s c sl e i = some (m, g, wide, d, a, x) → (s.entry c sl e).ustep = 0 → Clear s c sl e i →
    ∃ t, exec i s = .next t ∧
      Wrote s t c sl e i
        (dest s c sl e i wide d fun l =>
          let j := shuffleSource s c sl e i m g l (x l)
          if wide then vpair s c sl e j a.toNat else (vreg s c sl e j a.toNat).setWidth 64) noP noS 0) ∧
  (∀ (s : State) (c sl e : Nat) (h : Hdr) (leg : Bool) (d a : BitVec 8), Clear s c sl e (.voteMask h leg d a) →
    ∃ t, exec (.voteMask h leg d a) s = .next t ∧
      Wrote s t c sl e (.voteMask h leg d a)
        (dest s c sl e (.voteMask h leg d a) leg d fun l =>
          let g := if leg then groupSize s c sl e true else 32
          (List.range g).foldl (fun w j =>
            let m := l / g * g + j
            w ||| (if active s c sl e (.voteMask h leg d a) m && preg s c sl e m a.toNat then 1 <<< j else 0)) 0) noP noS 0) ∧
  (∀ (s : State) (c sl e : Nat) (h : Hdr) (d a : BitVec 8), Clear s c sl e (.ltos h d a) →
    ∃ t, exec (.ltos h d a) s = .next t ∧
      Wrote s t c sl e (.ltos h d a) noV noP
        (fun r => if r = d.toNat ∧ r ≠ 0 then ((lanes s c sl e (.ltos h d a)).head?).map (fun l => vreg s c sl e l a.toNat) else none)
        0) ∧
  (∀ (s : State) (c sl e : Nat) (h : Hdr) (d a b : BitVec 8), Clear s c sl e (.stol h d a b) →
    ∃ t, exec (.stol h d a b) s = .next t ∧
      Wrote s t c sl e (.stol h d a b)
        (fun l r => if active s c sl e (.stol h d a b) l ∧ l = (sreg s c sl e b.toNat).toNat % width s c sl e ∧ r = d.toNat
          then some (sreg s c sl e a.toNat) else none) noP noS 0)

/-- R191, R212, R213: in the team stream a scalar instruction of a 32-bit type writes s[D] once, if some lane is active; a
write of s0 has no effect. R192, R213, R266: in the control stream a scalar instruction reads the low bits of c registers,
writes c[D] extended by its type, and goes on; a write of c0 has no effect. -/
def Obligations.ScalarInstructionsInBothStreams : Prop :=
 (∀ (s : State) (c sl e : Nat) (i : Instr) (z : Scalar),
    scalar i = some z → z.ty.is64 = false → Clear s c sl e i →
    (let rd := fun (r : Option (BitVec 8)) => match r with | some r => (sreg s c sl e r.toNat).setWidth 64 | none => z.imm.setWidth 32 |>.setWidth 64
     ∃ t, exec i s = .next t ∧
      Wrote s t c sl e i noV noP
        (fun r => if r = z.d.toNat ∧ r ≠ 0 ∧ lanes s c sl e i ≠ [] then
            some ((fit z.ty z.sat (z.f (rd z.a) (rd z.b))).setWidth 32) else none) 0)) ∧
 (∀ (s : State) (cl : Nat) (i : Instr) (z : Scalar),
    scalar i = some z → CClear s cl i →
    (let rd := fun (r : Option (BitVec 8)) => match r with
       | some r => low z.ty.bits (if r = 0 then 0 else (s.ctl cl).c.get 0 r.toNat) | none => low z.ty.bits z.imm
     ∃ t, exec i s = .next t ∧
      CWrote s t cl i (fun r => if r = z.d.toNat ∧ r ≠ 0 then some (fit z.ty z.sat (z.f (rd z.a) (rd z.b))) else none)))

/-! ### Control flow (chapter 08) -/

/-- R190 to R195, R197, R202, R307: a control-flow instruction whose lanes all take one path goes on at that path's address;
no register, no stack and no other sub-team changes. R54, R188, R194: a `BRA` that only some lanes take makes two
sub-teams of one team. The taken lanes stay in the entry and go to the target; the others take a free entry with a copy of
the stack and go on at the next address. With K not 0 both stacks begin with a JOIN entry of the split's id and K. That
the new sub-team takes the lowest free entry is the model's choice (log entry 32). -/
def Obligations.BranchesGoOnOrSplit : Prop :=
 (∀ (s : State) (c sl e : Nat) (i : Instr) (pc : Word),
    flow s c sl e i = some pc → Clear s c sl e i →
    ∃ t, exec i s = .next t ∧ OnlyEntry s t c sl e ∧ Holds s t c sl e noV noP noS 0 ∧
      (t.entry c sl e).pc = pc ∧ (t.entry c sl e).mask = (s.entry c sl e).mask ∧
      (t.entry c sl e).stack = (s.entry c sl e).stack ∧ (t.entry c sl e).st = .stalled (t.entry c sl e).till ∧
      (t.entry c sl e).till = (s.core c).cycle + max 1 ((rowsOf (s.entry c sl e).mask).length * (s.iss c sl e i).occ) +
        (hdrOf i).stall.toNat) ∧
 (∀ (s : State) (c sl e n : Nat) (h : Hdr) (k : BitVec 12) (off : Word),
    (let i := Instr.bra h k off
     let x := s.entry c sl e
     let rest := (lanesOf x.mask).filter fun l => !active s c sl e i l
     Clear s c sl e i → s.entry? c sl e = some x → lanes s c sl e i ≠ [] → rest ≠ [] → x.pc + off * 4 ≠ nextPc s c sl e i →
     (s.slot c sl).teams.look x.team = some (team s c sl e) → s.entryFree c sl x.team = true → (s.slot c sl).freeIndex = n → s.entry? c sl n = none →
     (team s c sl e).w = 0 → x.stack.length < 8 →
     ∃ t y, exec i s = .next t ∧ t.entry? c sl n = some y ∧
       (t.entry c sl e).pc = x.pc + off * 4 ∧ (t.entry c sl e).mask = maskOfLanes x.mask.length (lanes s c sl e i) ∧
       y.pc = nextPc s c sl e i ∧ y.mask = maskOfLanes x.mask.length rest ∧ y.team = x.team ∧ (t.entry c sl e).team = x.team ∧
       y.stack = (t.entry c sl e).stack ∧
       (t.entry c sl e).stack = (if k = 0 then x.stack else
         { kind := 0, k := k, split := s.splitId c sl x.team, pc := x.version.setWidth 32,
           words := List.replicate x.mask.length 0 } :: x.stack) ∧
       (team t c sl e).v = (team s c sl e).v ∧ (team t c sl e).s = (team s c sl e).s ∧ (team t c sl e).p = (team s c sl e).p))

/-- R59, R194, R200: a `CALL` that every lane takes pushes a CALL entry with the next address and goes to the target; `POP`
and `RET` with a resident CALL entry on top pop it and go to its address. R200, R303, R305: `RETT` and `POP` with a
resident TRAP entry on top pop it and go on at its resume address; the siblings that this entry holds, and no others, are
released. -/
def Obligations.CallsPushAndReturnsPop : Prop :=
 ((∀ (s : State) (c sl e : Nat) (i : Instr) (off : Word),
    ((∃ h k, i = .call h k off) ∨ (∃ h o16, i = .callShort h o16 ∧ off = o16.signExtend 32)) →
    Clear s c sl e i → lanes s c sl e i ≠ [] → lanes s c sl e i = lanesOf (s.entry c sl e).mask →
    (s.entry c sl e).stack.length < 8 →
    ∃ t, exec i s = .next t ∧ (t.entry c sl e).pc = (s.entry c sl e).pc + off * 4 ∧
      (t.entry c sl e).stack = { kind := 1, pc := nextPc s c sl e i } :: (s.entry c sl e).stack ∧
      (t.entry c sl e).mask = (s.entry c sl e).mask ∧ team t c sl e = team s c sl e) ∧
  (∀ (s : State) (c sl e : Nat) (i : Instr) (y : StkEntry) (r : List StkEntry),
    ((∃ h, i = .pop h) ∨ (∃ h, i = .popShort h) ∨ (∃ h, i = .ret h) ∨ (∃ h, i = .retShort h)) →
    Clear s c sl e i → (s.entry c sl e).stack = y :: r → y.kind = 1 → y.spill = false →
    ∃ t, exec i s = .next t ∧ (t.entry c sl e).pc = y.pc ∧ (t.entry c sl e).stack = r ∧
      (t.entry c sl e).mask = (s.entry c sl e).mask ∧ team t c sl e = team s c sl e)) ∧
 (∀ (s : State) (c sl e : Nat) (i : Instr) (y : StkEntry) (r : List StkEntry),
    ((∃ h, i = .rett h) ∨ (∃ h, i = .rettShort h) ∨ (∃ h, i = .pop h) ∨ (∃ h, i = .popShort h)) →
    Clear s c sl e i → (s.entry c sl e).stack = y :: r → y.kind = 2 → y.spill = false →
    ∃ t, exec i s = .next t ∧ (t.entry c sl e).pc = y.pc ∧ (t.entry c sl e).stack = r ∧
      (t.entry c sl e).brkSkip = y.byCmp ∧ (t.entry c sl e).mask = (s.entry c sl e).mask ∧ team t c sl e = team s c sl e ∧
      (∀ n, n ≠ e → t.entry? c sl n = (s.entry? c sl n).map fun z =>
        if y.holds.isSome = true ∧ n ∈ (s.slot c sl).entriesOf (s.entry c sl e).team then
          { z with held := z.held.filter fun id => !decide (some id = y.holds) } else z))

/-- R306: with no transfer pending, `SAFEPT` and a `JOIN` that meets no JOIN or DEFER entry set `%safept` and go on. R57,
R202: `YIELD` with a deferred path on top of the stack swaps the two: the deferred path goes on where it stood, and the
yielding one stands in its entry, to go on at the next address. -/
def Obligations.SafePointsRecordAndYieldsSwap : Prop :=
 (∀ (s : State) (c sl e : Nat) (i : Instr) (k : BitVec 12),
    ((∃ h, i = .safept h k) ∨ (∃ h, i = .safeptShort h k) ∨
      ((∃ h, i = .join h k) ∨ (∃ h, i = .joinShort h k)) ∧ (s.entry c sl e).stack = []) →
    Clear s c sl e i → (s.entry c sl e).target = none →
    ∃ t, exec i s = .next t ∧ OnlyEntry s t c sl e ∧ Holds s t c sl e noV noP noS 0 ∧ (t.entry c sl e).safept = k ∧
      (t.entry c sl e).pc = nextPc s c sl e i ∧ (t.entry c sl e).version = (s.entry c sl e).version ∧
      (t.entry c sl e).mask = (s.entry c sl e).mask ∧ (t.entry c sl e).stack = (s.entry c sl e).stack) ∧
 (∀ (s : State) (c sl e : Nat) (i : Instr) (d : StkEntry) (r : List StkEntry),
    ((∃ h, i = .yield h) ∨ (∃ h, i = .yieldShort h)) → Clear s c sl e i → lanes s c sl e i ≠ [] →
    (s.entry c sl e).stack = d :: r → d.kind = 3 → d.spill = false →
    ∃ t, exec i s = .next t ∧ OnlyEntry s t c sl e ∧ team t c sl e = team s c sl e ∧ (t.entry c sl e).pc = d.pc ∧
      (t.entry c sl e).mask = d.words ∧ (t.entry c sl e).arrived = d.k.getLsbD 0 ∧
      (t.entry c sl e).stack = { d with pc := nextPc s c sl e i, words := (s.entry c sl e).mask, k := if (s.entry c sl e).arrived then 1 else 0 } :: r)

/-- R55, R199: at a `JOIN k` whose JOIN entry is on top, the sub-team waits while another live sibling of the split is not
there; the last one of the split pops the entry, takes the lanes accumulated in it beside its own, and goes on. Where a
sibling waits at the join already, the two fuse: one entry goes on with the lanes of both, and the other is freed. -/
def Obligations.JoinWaitsOrFuses : Prop :=
  (∀ (s : State) (c sl e : Nat) (i : Instr) (k : BitVec 12) (j : StkEntry) (r : List StkEntry),
    ((∃ h, i = .join h k) ∨ (∃ h, i = .joinShort h k)) →
    Clear s c sl e i → s.entry? c sl e = some (s.entry c sl e) → (s.entry c sl e).stack = j :: r → j.kind = 0 → j.k = k →
    (∀ y ∈ j :: r, y.spill = false) → (s.entry c sl e).pend = none → s.waiting c sl (s.entry c sl e).team j.split = [] →
    ((∃ n ∈ s.siblings c sl (s.entry c sl e).team j.split, n ≠ e) →
      ∃ t, exec i s = .next t ∧ (t.entry c sl e).st = .atJoin ∧ (t.entry c sl e).npc = nextPc s c sl e i ∧
        (t.entry c sl e).safept = k ∧ (t.entry c sl e).stack = j :: r ∧ (t.entry c sl e).mask = (s.entry c sl e).mask) ∧
    (s.siblings c sl (s.entry c sl e).team j.split = [e] → BitVec.ofNat 3 j.pc.toNat = (s.entry c sl e).version →
      j.words ≠ [] →
      ∃ t, exec i s = .next t ∧ (t.entry c sl e).pc = nextPc s c sl e i ∧ (t.entry c sl e).safept = k ∧
        (t.entry c sl e).stack = r ∧ (t.entry c sl e).mask = maskOr j.words (s.entry c sl e).mask ∧
        (t.entry c sl e).st = .stalled (t.entry c sl e).till)) ∧
  (∀ (s : State) (c sl e n a b : Nat) (i : Instr) (k : BitVec 12) (j ja : StkEntry) (r ra : List StkEntry),
    ((∃ h, i = .join h k) ∨ (∃ h, i = .joinShort h k)) →
    Clear s c sl e i → s.entry? c sl e = some (s.entry c sl e) → (s.entry c sl e).stack = j :: r → j.kind = 0 → j.k = k →
    n ≠ e → ((a, b) = (e, n) ∨ (a, b) = (n, e)) → s.siblings c sl (s.entry c sl e).team j.split = [a, b] →
    s.waiting c sl (s.entry c sl e).team j.split = [n] → (∀ m, (m = e ∨ m = n) → (s.entry c sl m).pend = none ∧
      ∀ y ∈ (s.entry c sl m).stack, y.spill = false) →
    (s.entry c sl n).version = (s.entry c sl e).version → (s.entry c sl n).npc = nextPc s c sl e i →
    (s.entry c sl a).stack = ja :: ra → BitVec.ofNat 3 ja.pc.toNat = (s.entry c sl e).version →
    (s.entry c sl n).mask.length = (s.entry c sl e).mask.length → (ja.words = [] ∨ ja.words.length = (s.entry c sl e).mask.length) →
    ∃ t, exec i s = .next t ∧ t.entry? c sl b = none ∧ (t.entry c sl a).pc = nextPc s c sl e i ∧ (t.entry c sl a).stack = ra ∧
      (∀ l, inMask (t.entry c sl a).mask l = (inMask ja.words l || inMask (s.entry c sl e).mask l || inMask (s.entry c sl n).mask l)) ∧
      (t.entry c sl a).version = (s.entry c sl e).version ∧ (t.entry c sl a).st = .stalled (t.entry c sl a).till ∧
      t.team c sl (s.entry c sl e).team = team s c sl e)

/-- R201: once the release of its team has nothing to wait for, `EXIT` takes the active lanes out for good: with lanes left
the sub-team goes on without them; with none left and an empty stack its entry is freed. -/
def Obligations.ExitTakesLanesOut : Prop :=
  ∀ (s : State) (c sl e : Nat) (i : Instr),
    ((∃ h, i = .exit h) ∨ (∃ h, i = .exitShort h)) → Clear s c sl e i →
    s.released (.team c sl (s.entry c sl e).team) e = true →
    (let left := maskAndNot (s.entry c sl e).mask (maskOfLanes (s.entry c sl e).mask.length (lanes s c sl e i))
     (maskEmpty left = false →
       ∃ t, exec i s = .next t ∧ (t.entry c sl e).mask = left ∧ (t.entry c sl e).pc = nextPc s c sl e i ∧
         team t c sl e = team s c sl e) ∧
     (maskEmpty left = true → (s.entry c sl e).stack = [] →
       (∃ n x, n ≠ e ∧ (n, x) ∈ (s.slot c sl).entries ∧ s.entry? c sl n = some x ∧ x.team = (s.entry c sl e).team) →
       ∃ t, exec i s = .next t ∧ t.entry? c sl e = none ∧ (∀ n, n ≠ e → t.entry? c sl n = s.entry? c sl n)))

/-- R72, R193, R194, R197, R276, R313: the branches, calls and returns of a control stream; `RETT` leaves handler state. R71,
R201, R285: `EXIT` of a control stream ends its run once its commands are finished without a failure and its release has
nothing to wait for. -/
def Obligations.ControlStreamFlowsAndEnds : Prop :=
 (∀ (s : State) (cl : Nat) (i : Instr) (pc : Word) (ret : List Word),
    ctlFlow s cl i = some (pc, ret) → CClear s cl i →
    ∃ t, exec i s = .next t ∧ t = { s with ctls := t.ctls } ∧ (∀ n, n ≠ cl → t.ctl n = s.ctl n) ∧
      (t.ctl cl).pc = pc ∧ (t.ctl cl).ret = ret ∧
      (t.ctl cl).handler = ((s.ctl cl).handler && !isRett i) ∧
      (t.ctl cl).c = (s.ctl cl).c ∧ (t.ctl cl).h = (s.ctl cl).h ∧ (t.ctl cl).st = .stalled (t.ctl cl).till ∧
      (t.ctl cl).till = (s.ctl cl).cycle + 1 + (hdrOf i).stall.toNat) ∧
 (∀ (s : State) (cl : Nat) (i : Instr), ((∃ h, i = .exit h) ∨ (∃ h, i = .exitShort h)) → CClear s cl i →
    (∀ m ∈ (s.ctl cl).cmds, m.lid = (s.ctl cl).lid → m.finished = true ∧ m.failed = none) →
    s.released (.control cl) 0 = true →
    ∃ t, exec i s = .next t ∧ (t.ctl cl).st = .off ∧ (t.ctl cl).handler = false ∧ (t.ctl cl).cmds = (s.ctl cl).cmds ∧
      (∀ n, n ≠ cl → t.ctl n = s.ctl n) ∧ t.cores = s.cores ∧ SameMemory s t)

/-! ### Memory (chapter 10) -/

/-- R109, R115, R243, R244, R80: a load whose active lanes name this core's scratchpad writes each lane's elements, extended
by the type, into D, D+1, …; nothing else changes. R311, R312: `OLDX` from its first step sends the loads of its n
consecutive words, word j of each active lane into D + j. -/
def Obligations.LoadsFromOwnScratchpadAndOldx : Prop :=
 (∀ (s : State) (c sl e : Nat) (i : Instr) (o : Mem),
    (let near := fun l => nearByte s c sl e o.space (memAt s c sl e o l) (spanOf o)
     loadOf i = some o → Clear s c sl e i → Legal s c sl e i o.space (memAt s c sl e o) (spanOf o) .r →
     (∀ l, active s c sl e i l = true → (near l).isSome) →
     ∃ t, exec i s = .next t ∧ OnlyTeam s t c sl e ∧ Goes s t c sl e i ∧
       Holds s t c sl e
         (fun l r => if active s c sl e i l then loaded o (fun q => (s.core c).scratch.get 0 ((near l).getD 0 + q)) r else none)
         noP noS 0)) ∧
 (∀ (s : State) (c sl e : Nat) (h : Hdr) (n1 : BitVec 3) (d a : BitVec 8) (off : Word),
    (let i := Instr.oldx h n1 d a off
     let at_ := fun (j l : Nat) => address s c sl e .g false false a 0 (off.toInt + 4 * j) l
     Clear s c sl e i → (s.entry c sl e).ustep = 0 → (∀ j, j ≤ n1.toNat → Legal s c sl e i .g (at_ j) 4 .r) →
     (∀ j l, j ≤ n1.toNat → active s c sl e i l = true → (s.core c).l1.look (sectorKey (ctx s c sl e) (place .g (at_ j l))) = none) →
     ∃ t news, exec i s = .next t ∧ Sent s t c sl e .sent news ∧ Goes s t c sl e i ∧
       (∀ j l, j ≤ n1.toNat → active s c sl e i l = true → ∃ r x, r ∈ news ∧ r.kind = .load x false ∧ x.reg = d.toNat + j ∧ x.ty = .b32 ∧
         x.n = 1 ∧ r.tgt = .part (partOf (place .g (at_ j l) / 32 * 32)) ∧ (l, place .g (at_ j l)) ∈ x.lanes) ∧
       (∀ r ∈ news, ∃ x, r.kind = .load x false ∧ ∀ y ∈ x.lanes, active s c sl e i y.1 = true)))

/-- R115, R144, R149, R150, R242, R243, R246: a load whose data is not on the core sends requests that carry every active lane
to its partition, Pond slice or core, and no register changes yet. `LD` goes on; `LD.ACQ`, which never reads the L1,
sleeps until its reads are performed. -/
def Obligations.LoadSendsRequests : Prop :=
  ∀ (s : State) (c sl e : Nat) (i : Instr) (o : Mem) (acq : Bool),
    (if acq then ∃ h, i = .ldAcq h o else loadOf i = some o) → Clear s c sl e i →
    Legal s c sl e i o.space (memAt s c sl e o) (spanOf o) .r →
    (∀ l, active s c sl e i l = true → nearByte s c sl e o.space (memAt s c sl e o l) (spanOf o) = none ∧
      (acq = true ∨ o.space ≠ .g ∨
        (s.core c).l1.look (sectorKey (ctx s c sl e) (place .g (memAt s c sl e o l))) = none)) →
    ∃ t news, exec i s = .next t ∧ Sent s t c sl e .sent news ∧
      (∀ l, active s c sl e i l = true → ∃ r d, r ∈ news ∧ r.kind = .load d acq ∧
        r.tgt = (target s c sl e o.space (memAt s c sl e o l) (spanOf o)).1 ∧
        (l, (target s c sl e o.space (memAt s c sl e o l) (spanOf o)).2) ∈ d.lanes) ∧
      (∀ r ∈ news, ∃ d, r.kind = .load d acq ∧ d.cls = .v ∧ d.reg = o.r.toNat ∧ d.ty = o.ty ∧ d.n = o.count.num ∧
        ∀ x ∈ d.lanes, active s c sl e i x.1 = true) ∧
      (if acq = true ∧ lanes s c sl e i ≠ [] then Sleeps s t c sl e i (.acquire (news.map Req.id)) else Goes s t c sl e i)

/-- R109, R111, R145, R245: a store whose active lanes name this core's scratchpad writes their bytes at once; where two lanes
write one byte it holds the higher-numbered lane's. No other byte, no register and no memory changes. -/
def Obligations.StoreToOwnScratchpad : Prop :=
  ∀ (s : State) (c sl e : Nat) (i : Instr) (o : Mem),
    (let near := fun l => (nearByte s c sl e o.space (memAt s c sl e o l) (spanOf o)).getD 0
     storeOf i = some o → Clear s c sl e i → Legal s c sl e i o.space (memAt s c sl e o) (spanOf o) .plainW →
     (∀ l, active s c sl e i l = true → (nearByte s c sl e o.space (memAt s c sl e o l) (spanOf o)).isSome) →
     ∃ t, exec i s = .next t ∧ Goes s t c sl e i ∧ SameTeam s t c sl e ∧ SameMemory s t ∧ t.reqs = s.reqs ∧
       (∀ n, n ≠ c → (t.core n).scratch = (s.core n).scratch) ∧
       (∀ a, (t.core c).scratch.get 0 a =
         match (lanes s c sl e i).reverse.find? (fun l => decide (near l ≤ a) && decide (a < near l + spanOf o)) with
         | some l => stored s c sl e o.ty o.r l (a - near l)
         | none => (s.core c).scratch.get 0 a))

/-- R115, R145, R151, R242, R245, R246, R251: a store to another core, the Pond or memory sends requests that carry every
active lane's bytes. `ST` goes on. `ST.REL` is a release: its requests are sent, or held until its wait is over, and it
sleeps until they are performed. A parcel in PAIR (R372) is left out here. R359: an 8-byte `ST.REL` of one lane to the
context's doorbell range sends the doorbell with its value. -/
def Obligations.StoresSendOrRingTheDoorbell : Prop :=
 (∀ (s : State) (c sl e : Nat) (i : Instr) (o : Mem) (rel : Bool),
    (if rel then ∃ h, i = .stRel h o else storeOf i = some o) → Clear s c sl e i → (launch s c sl e).grid.pair = false →
    Legal s c sl e i o.space (memAt s c sl e o) (spanOf o) (if rel then .w else .plainW) →
    (∀ l, active s c sl e i l = true → nearByte s c sl e o.space (memAt s c sl e o l) (spanOf o) = none ∧
      (rel = true → s.bellOf (ctx s c sl e) (place .g (memAt s c sl e o l)) = none)) →
    ∃ t news, exec i s = .next t ∧ Sent s t c sl e (if rel then releaseSt s c sl e else .sent) news ∧
      (∀ l q, active s c sl e i l = true → q < spanOf o →
        (let a := (target s c sl e o.space (memAt s c sl e o l) (spanOf o)).2
         let low := if o.space = .g then a % 32 else a
         (∀ m, active s c sl e i m = true → l < m → m / 32 = l / 32 →
           ¬ ((target s c sl e o.space (memAt s c sl e o m) (spanOf o)).1 = (target s c sl e o.space (memAt s c sl e o l) (spanOf o)).1 ∧
              (target s c sl e o.space (memAt s c sl e o m) (spanOf o)).2 ≤ a + q ∧
              a + q < (target s c sl e o.space (memAt s c sl e o m) (spanOf o)).2 + spanOf o)) →
         ∃ r bs, r ∈ news ∧ r.kind = .store bs ∧ r.tgt = (target s c sl e o.space (memAt s c sl e o l) (spanOf o)).1 ∧
           (o.space = .g → r.va = a / 32 * 32) ∧ (low + q, stored s c sl e o.ty o.r l q) ∈ bs)) ∧
      (∀ r ∈ news, ∃ bs, r.kind = .store bs) ∧
      (if rel = true ∧ lanes s c sl e i ≠ [] then Sleeps s t c sl e i (releaseWait s c sl e (news.map Req.id)) else Goes s t c sl e i)) ∧
 (∀ (s : State) (c sl e l : Nat) (h : Hdr) (o : Mem),
    Clear s c sl e (.stRel h o) → lanes s c sl e (.stRel h o) = [l] → o.ty = .b64 → o.count = .x1 →
    Legal s c sl e (.stRel h o) .g (memAt s c sl e o) 8 .w →
    (s.bellOf (ctx s c sl e) (place .g (memAt s c sl e o l))).isSome →
    ∃ t r, exec (.stRel h o) s = .next t ∧ Sent s t c sl e (releaseSt s c sl e) [r] ∧
      r.kind = .doorbell (vpair s c sl e l o.r.toNat) ∧ r.va = place .g (memAt s c sl e o l) ∧ r.tgt = .part (partOf r.va) ∧
      Sleeps s t c sl e (.stRel h o) (releaseWait s c sl e [r.id]))

/-- R157, R158, R248 to R250: `ATOM` and `RED` on this core's scratchpad leave in each word the merged operation of the lanes
that name it, in ascending lane order over the whole instruction, and give each lane of an `ATOM` what the word would hold
before its own had the lanes been applied one at a time; no other byte changes. -/
def Obligations.AtomicAtOwnBank : Prop :=
  ∀ (s : State) (c sl e : Nat) (i : Instr) (o : Atm) (ret : Bool),
    (let pl := fun l => (nearByte s c sl e o.space (atmAt s c sl e o l) o.ty.bytes).getD 0
     let old := fun l => BitVec.ofNat 64 (little o.ty.bytes fun q => (s.core c).scratch.get 0 (pl l + q))
     let mates := fun l => (lanes s c sl e i).filter fun m => pl m == pl l
     (if ret then ∃ h, i = .atom h o else ∃ h, i = .red h o) → Clear s c sl e i →
     Legal s c sl e i o.space (atmAt s c sl e o) o.ty.bytes .rwa →
     (∀ l, active s c sl e i l = true → (nearByte s c sl e o.space (atmAt s c sl e o l) o.ty.bytes).isSome) →
     ∃ t, exec i s = .next t ∧ Goes s t c sl e i ∧ SameMemory s t ∧ t.reqs = s.reqs ∧
       (∀ l, active s c sl e i l = true →
         little o.ty.bytes (fun q => (t.core c).scratch.get 0 (pl l + q)) = (atmMerged s c sl e o (old l) (mates l)).toNat % 2 ^ o.ty.bits) ∧
       (∀ a, (∀ l, active s c sl e i l = true → ¬ (pl l ≤ a ∧ a < pl l + o.ty.bytes)) →
         (t.core c).scratch.get 0 a = (s.core c).scratch.get 0 a) ∧
       (∀ l r, r < 256 → vreg t c sl e l r = (if ret then
           dest s c sl e i o.ty.is64 o.d (fun l => atmAfter s c sl e o (old l) ((mates l).filter fun m => decide (m < l))) l r
         else none).getD (vreg s c sl e l r)) ∧
       (team t c sl e).s = (team s c sl e).s ∧ (team t c sl e).p = (team s c sl e).p)

/-- R157, R158, R242, R248, R251: `ATOM` and `RED` on another core, the Pond or memory send requests that carry each active
lane's operands to its word's atomic unit, all the lanes that name one word together; no register changes yet. Plain ones
go on; `.acq` sleeps until its read is performed; `.rel` is a release. -/
def Obligations.AtomicSendsRequests : Prop :=
  ∀ (s : State) (c sl e : Nat) (i : Instr) (o : Atm) (ret : Option Nat),
    ((∃ h, i = .atom h o ∧ ret = some o.d.toNat) ∨ (∃ h, i = .red h o ∧ ret = none)) → Clear s c sl e i →
    Legal s c sl e i o.space (atmAt s c sl e o) o.ty.bytes .rwa →
    (∀ l, active s c sl e i l = true → nearByte s c sl e o.space (atmAt s c sl e o l) o.ty.bytes = none) →
    ∃ t news, exec i s = .next t ∧ Sent s t c sl e (if o.var = .rel then releaseSt s c sl e else .sent) news ∧
      (∀ l, active s c sl e i l = true → ∃ r ws w, r ∈ news ∧ r.kind = .atomic o.op o.ty ws ret 0 [] ∧ w ∈ ws ∧
        (r.tgt, w.1) = target s c sl e o.space (atmAt s c sl e o l) o.ty.bytes ∧
        (l, atmX s c sl e o l, atmY s c sl e o l) ∈ w.2) ∧
      (∀ r ∈ news, ∃ ws, r.kind = .atomic o.op o.ty ws ret 0 [] ∧
        (∀ w ∈ ws, w.2.Pairwise (fun x y => x.1 < y.1) ∧ (o.space = .g → r.va = w.1 / 32 * 32) ∧
          (∀ x ∈ w.2, active s c sl e i x.1 = true) ∧
          ∀ l, active s c sl e i l = true →
            ((r.tgt, w.1) = target s c sl e o.space (atmAt s c sl e o l) o.ty.bytes ↔ l ∈ w.2.map Prod.fst))) ∧
      (if lanes s c sl e i = [] then Goes s t c sl e i else
        match o.var with
        | .none => Goes s t c sl e i
        | .acq => Sleeps s t c sl e i (.acquire (news.map Req.id))
        | .rel => Sleeps s t c sl e i (releaseWait s c sl e (news.map Req.id)))

/-- R252: `PFH` and `PFW` send one hint for each row and sector that the windows allow, and go on whatever becomes of it; no
register and no memory changes. R69, R70, R203: `MONWAIT` on a readable address arms the sector of its address at its
partition and sleeps on it; with no monitor free on the core it sleeps until one is. -/
def Obligations.HintsGoOnAndMonwaitArms : Prop :=
 (∀ (s : State) (c sl e : Nat) (i : Instr) (o : Mem) (fill : Bool),
    ((∃ h, i = .pfh h o ∧ fill = true) ∨ (∃ h, i = .pfw h o ∧ fill = false)) → Clear s c sl e i →
    ∃ t news, exec i s = .next t ∧ Sent s t c sl e .sent news ∧ Goes s t c sl e i ∧
      (∀ l, active s c sl e i l = true →
        s.windowOk (ctx s c sl e) (address s c sl e .g o.sb o.ix o.a o.b o.off.toInt l % 2 ^ 64).toNat 1 (if fill then .r else .w) = true →
        ∃ r ∈ news, r.va = (address s c sl e .g o.sb o.ix o.a o.b o.off.toInt l % 2 ^ 64).toNat / 32 * 32) ∧
      (∀ r ∈ news, r.kind = .hint fill ∧ r.tgt = .part (partOf r.va))) ∧
 (∀ (s : State) (c sl e : Nat) (h : Hdr) (d a : BitVec 8),
    (let i := Instr.monwait h d a
     let va := (spair s c sl e a.toNat).toNat
     let mine := (ctx s c sl e, va / 32)
     let held := mine ∈ (s.core c).monitors
     Clear s c sl e i → Awake s c sl e → lanes s c sl e i ≠ [] → s.windowOk (ctx s c sl e) va 1 .r = true →
     (s.entry c sl e).serialised = false →
     ∃ t, exec i s = .next t ∧ SameMemory s t ∧ SameScratch s t ∧ (team t c sl e).v = (team s c sl e).v ∧ (team t c sl e).s = (team s c sl e).s ∧
       (held ∨ (s.core c).monitors.length < 32 →
         Sleeps s t c sl e i (.mon (va / 32) d.toNat (s.core c).cycle) ∧ mine ∈ (t.part (partOf (va / 32 * 32))).watch ∧
         (¬ held → mine ∈ (t.core c).monitors)) ∧
       (¬ held → 32 ≤ (s.core c).monitors.length → Sleeps s t c sl e i (.noMon d.toNat (s.core c).cycle))))

/-- R150, R151, R247: with an active lane `FENCE.ACQ` empties the core's L1 once no earlier load of the sub-team is
outstanding and else sleeps; `FENCE.REL` goes on once its release has nothing to wait for and else sleeps; `FENCE.AR` does
both. No register and no memory changes. R149, R247: in the control stream the fences act on the control core's data cache
and its own accesses. -/
def Obligations.FencesWaitInBothStreams : Prop :=
 (∀ (s : State) (c sl e : Nat) (i : Instr) (acq rel : Bool),
    ((∃ h, i = .fenceAcq h ∧ acq = true ∧ rel = false) ∨ (∃ h, i = .fenceRel h ∧ acq = false ∧ rel = true) ∨
      (∃ h, i = .fenceAr h ∧ acq = true ∧ rel = true)) → Clear s c sl e i → lanes s c sl e i ≠ [] →
    (let src := Src.team c sl (s.entry c sl e).team
     let clear := if rel then s.released src e else (s.entryLoads src e).isEmpty
     ∃ t, exec i s = .next t ∧ SameTeam s t c sl e ∧ SameMemory s t ∧ SameScratch s t ∧
       (if clear = true then Goes s t c sl e i ∧ (t.core c).l1 = (if acq then [] else (s.core c).l1)
        else Sleeps s t c sl e i (if rel then .release [] acq none else .acquire ((s.entryLoads src e).map Req.id)) ∧
          (t.core c).l1 = (s.core c).l1))) ∧
 (∀ (s : State) (cl : Nat) (i : Instr) (acq rel : Bool),
    ((∃ h, i = .fenceAcq h ∧ acq = true ∧ rel = false) ∨ (∃ h, i = .fenceRel h ∧ acq = false ∧ rel = true) ∨
      (∃ h, i = .fenceAr h ∧ acq = true ∧ rel = true)) → CClear s cl i →
    (let src := Src.control cl
     let clear := if rel then s.released src 0 else (s.entryLoads src 0).isEmpty
     ∃ t, exec i s = .next t ∧ SameMemory s t ∧ SameScratch s t ∧ (t.ctl cl).c = (s.ctl cl).c ∧ t.cores = s.cores ∧
       (if clear = true then CGoes s t cl i ∧ (t.ctl cl).dcache = (if acq then [] else (s.ctl cl).dcache)
        else CSleeps s t cl (if rel then .release [] acq false else .acquire ((s.entryLoads src 0).map Req.id)) ∧
          (t.ctl cl).dcache = (s.ctl cl).dcache)))

/-- R253 to R255: `ACP` with a lane that moves bytes joins the team's descriptors under its tag and sends requests that carry
every moving lane's block; an inbound lane with no valid byte gets its block of zeros at once; no register changes and the
sub-team goes on. R255 to R257, R322: `ACWAIT t, n` goes on when at most n copies of tag t are uncounted, and the covered
descriptors retire; else it sleeps. A covered copy that has failed is left out here. -/
def Obligations.LaneCopiesStartAndRetire : Prop :=
 (∀ (s : State) (c sl e : Nat) (h : Hdr) (o : Acp),
    (let i := Instr.acp h o
     let n := o.ty.bytes * o.count.num
     let at_ := address s c sl e o.space o.sb false o.a 0 o.off.toInt
     let to_ := fun l => (vreg s c sl e l o.d.toNat).toNat
     let valid := fun l => min (vreg s c sl e l o.c.toNat).toNat n
     let base := (parcel s c sl e).base
     Clear s c sl e i →
     (∀ l, active s c sl e i l = true → at_ l % n = 0 ∧ to_ l % n = 0 ∧ to_ l + n ≤ (version s c sl e).scratch ∧
       (0 < valid l → match o.space with
        | .g => s.windowOk (ctx s c sl e) (place .g (at_ l)) (valid l) (if o.out then .w else .r) = true ∧
            s.watched c (place .g (at_ l)) (valid l) = false
        | _ => 0 ≤ at_ l ∧ (at_ l).toNat + valid l ≤ 64 * (s.ctxOf (ctx s c sl e)).desc.pond * 2 ^ 20)) →
     (∃ l, active s c sl e i l = true ∧ 0 < valid l) →
     ∃ t k news, exec i s = .next t ∧ Goes s t c sl e i ∧ SameTeam s t c sl e ∧ SameMemory s t ∧ t.reqs = s.reqs ++ news ∧
       (team t c sl e).copies = (team s c sl e).copies ++ [k] ∧
       k.tag = o.tag.toNat ∧ k.out = o.out ∧ k.size = n ∧ k.blks.map LaneBlk.lane = lanes s c sl e i ∧
       (∀ b ∈ k.blks, b.c = valid b.lane ∧ b.addr = place o.space (at_ b.lane) ∧ b.done = decide (valid b.lane = 0) ∧
         b.offs = (List.range n).map (to_ b.lane + ·)) ∧
       (∀ l, active s c sl e i l = true → 0 < valid l → ∃ r ∈ news, ∃ bs,
         r.kind = (if o.out then .copyOut k.id bs else .copyIn k.id bs) ∧ (l, place o.space (at_ l), valid l) ∈ bs ∧
         r.tgt = (target s c sl e o.space (at_ l) (valid l)).1) ∧
       (∀ a, ((o.out = false ∧ ∃ l, active s c sl e i l = true ∧ valid l = 0 ∧ base + to_ l ≤ a ∧ a < base + to_ l + n) →
           (t.core c).scratch.get 0 a = 0) ∧
         (¬ (o.out = false ∧ ∃ l, active s c sl e i l = true ∧ valid l = 0 ∧ base + to_ l ≤ a ∧ a < base + to_ l + n) →
           (t.core c).scratch.get 0 a = (s.core c).scratch.get 0 a)))) ∧
 (∀ (s : State) (c sl e : Nat) (h : Hdr) (tag : BitVec 2) (n : BitVec 6),
    (let i := Instr.acwait h tag n
     let under := (team s c sl e).copies.filter fun k => k.tag == tag.toNat
     let count := (under.filter fun k => !k.counted).length
     let cov := (under.take (under.length - n.toNat)).map Copy.id
     Clear s c sl e i → lanes s c sl e i ≠ [] → (s.entry c sl e).serialised = false →
     (∀ k ∈ under.take (under.length - n.toNat), k.failed = none) →
     ∃ t, exec i s = .next t ∧ OnlyEntry s t c sl e ∧ SameTeam s t c sl e ∧
       (if count ≤ n.toNat then Goes s t c sl e i ∧ (team t c sl e).copies = (team s c sl e).copies.filter (fun k => !cov.contains k.id)
        else Sleeps s t c sl e i (.copies tag.toNat n.toNat) ∧ (team t c sl e).copies = (team s c sl e).copies)))

/-! ### Synchronisation (chapters 03 and 10) -/

/-- R64, R65, R66, R259, R260: a named-barrier instruction changes its barrier's sets as the rule gives; when the arrival set
then holds the whole of a non-empty expected set the arrival set empties and the sleepers of the parcel go on. The team
that arrives in `BAR.SYNC`, or that finds its own arrival in `BAR.WAIT`, sleeps until then; the others go on. -/
def Obligations.NamedBarriersArriveAndComplete : Prop :=
  ∀ (s : State) (c sl e : Nat) (i : Instr) (n : BitVec 6) (b : Bar),
    (let pid := (team s c sl e).pid
     let bit : BitVec 128 := BitVec.ofNat 128 (2 ^ (32 * sl + (s.entry c sl e).team))
     let full := fun (x : Bar) => x.expected ≠ 0 ∧ x.expected &&& x.arrived = x.expected
     Clear s c sl e i → Awake s c sl e → lanes s c sl e i ≠ [] → (parcel s c sl e).bars[n.toNat]? = some b →
     32 * sl + (s.entry c sl e).team < 128 → (s.entry c sl e).serialised = false → (s.entry c sl e).arrived = false →
     (∀ f : Bar → Bar,
       ((∃ h, i = .barArrive h n ∧ f = fun x => { x with arrived := x.arrived ||| bit }) ∨
        (∃ h, i = .barSync h n ∧ f = fun x => { x with arrived := x.arrived ||| bit }) ∨
        (∃ h, i = .barJoin h n ∧ f = fun x => { x with expected := x.expected ||| bit }) ∨
        (∃ h, i = .barLeave h n ∧ f = fun x => { x with expected := x.expected &&& ~~~bit })) →
       ∃ t, exec i s = .next t ∧ SameTeam s t c sl e ∧ SameMemory s t ∧ SameScratch s t ∧
         (full (f b) →
           Goes s t c sl e i ∧ (t.parcel pid).bars = (s.parcel pid).bars.set n.toNat { f b with arrived := 0 } ∧
           (∀ sl' n' x, (sl', n') ≠ (sl, e) → (parcel s c sl e).core = c → s.entry? c sl' n' = some x → (c, sl', n') ∈ s.places →
             (s.team c sl' x.team).pid = pid → x.st = .asleep (.bar n.toNat) →
             (t.entry c sl' n').pc = x.npc ∧ ∀ w, (t.entry c sl' n').st ≠ .asleep w)) ∧
         (¬ full (f b) →
           (t.parcel pid).bars = (s.parcel pid).bars.set n.toNat (f b) ∧
           ((∃ h, i = .barSync h n) → Sleeps s t c sl e i (.bar n.toNat)) ∧
           ((∀ h, i ≠ .barSync h n) → Goes s t c sl e i))) ∧
     ((∃ h, i = .barWait h n) →
       ∃ t, exec i s = .next t ∧ OnlyEntry s t c sl e ∧ SameTeam s t c sl e ∧
         (if b.arrived &&& bit = 0 then Goes s t c sl e i else Sleeps s t c sl e i (.bar n.toNat))))

/-- R68, R261 to R263: in the team stream `BAR.INITB` and `BAR.ARRIVEB` act on an object of this core at once, with the rounds
of R68, and send a message to another core's; `BAR.WAITB` goes on when PHASE differs from the value it names and else
sleeps. R68, R261 to R263: in the control stream the byte-count barrier instructions act at once on the object of the
launch's parcel that the address names. -/
def Obligations.ByteBarriersInBothStreams : Prop :=
 (∀ (s : State) (c sl e : Nat) (o : Barb) (co a : Nat),
    (let b := (sreg s c sl e o.b.toNat).toNat
     let at_ := fun (i : Instr) => Clear s c sl e i ∧ Awake s c sl e ∧ lanes s c sl e i ≠ [] ∧ objPlace s c sl e i o = some (co, a) ∧
       (s.entry c sl e).serialised = false
     let kept := fun (t : State) => ∀ q, q < a ∨ a + 16 ≤ q → (t.core c).scratch.get 0 q = (s.core c).scratch.get 0 q
     (∀ h, at_ (.barInitb h o) → co = c →
       ∃ t, exec (.barInitb h o) s = .next t ∧ Goes s t c sl e (.barInitb h o) ∧ SameTeam s t c sl e ∧ kept t ∧
         word t c a = b ∧ word t c (a + 4) = b ∧ word t c (a + 8) = 0 ∧ word t c (a + 12) = 0) ∧
     (∀ h, at_ (.barArriveb h o) → co = c →
       ∃ t, exec (.barArriveb h o) s = .next t ∧ Goes s t c sl e (.barArriveb h o) ∧ SameTeam s t c sl e ∧ kept t ∧
         (word t c a, word t c (a + 8)) =
           (if word s c (a + 4) = 0 ∨ b = 0 then (word s c a, word s c (a + 8))
            else arriving (b + 2) b (word s c a) (word s c (a + 4)) (word s c (a + 8))) ∧
         word t c (a + 4) = word s c (a + 4) ∧ word t c (a + 12) = word s c (a + 12)) ∧
     (∀ (i : Instr) (op : Nat), ((∃ h, i = .barInitb h o ∧ op = 0) ∨ (∃ h, i = .barArriveb h o ∧ op = 1)) → at_ i → co ≠ c →
       ∃ t r, exec i s = .next t ∧ Sent s t c sl e .sent [r] ∧ Goes s t c sl e i ∧
         r.kind = .barb op (sreg s c sl e o.b.toNat) ∧ r.tgt = .bank co ∧ r.va = a) ∧
     (∀ h, at_ (.barWaitb h o) → (co = c ∨ ∀ r ∈ s.reqs, ¬ (r.src = .team c sl (s.entry c sl e).team ∧ r.tgt = .bank co)) →
       ∃ t, exec (.barWaitb h o) s = .next t ∧ OnlyEntry s t c sl e ∧ SameTeam s t c sl e ∧
         (if word s co (a + 8) = b then Sleeps s t c sl e (.barWaitb h o) (.phase co a (sreg s c sl e o.b.toNat))
          else Goes s t c sl e (.barWaitb h o))))) ∧
 (∀ (s : State) (cl : Nat) (o : Barb) (co a : Nat),
    (let b := ((creg s cl o.b).setWidth 32).toNat
     let at_ := fun (i : Instr) => CClear s cl i ∧ o.sb = true ∧ o.space = .l ∧ ctlPlace s cl o = some (co, a)
     (∀ h, at_ (.barInitb h o) →
       ∃ t, exec (.barInitb h o) s = .next t ∧ CGoes s t cl (.barInitb h o) ∧
         word t co a = b ∧ word t co (a + 4) = b ∧ word t co (a + 8) = 0 ∧ word t co (a + 12) = 0) ∧
     (∀ h, at_ (.barArriveb h o) →
       ∃ t, exec (.barArriveb h o) s = .next t ∧ CGoes s t cl (.barArriveb h o) ∧
         (word t co a, word t co (a + 8)) =
           (if word s co (a + 4) = 0 ∨ b = 0 then (word s co a, word s co (a + 8))
            else arriving (b + 2) b (word s co a) (word s co (a + 4)) (word s co (a + 8))) ∧
         word t co (a + 4) = word s co (a + 4)) ∧
     (∀ h, at_ (.barWaitb h o) →
       ∃ t, exec (.barWaitb h o) s = .next t ∧ t = { s with ctls := t.ctls } ∧
         (if word s co (a + 8) = b then CSleeps s t cl (.phase co a ((creg s cl o.b).setWidth 32)) else CGoes s t cl (.barWaitb h o)))))

/-- R258, R264: with a control stream of its launch running, no earlier sleeper on the queue and an active lane, `QPUSH` of a
team appends its pair to a queue of fewer than 64 entries and else sleeps; `QPOP` takes the oldest entry into its pair and
else sleeps. R72, R264: the control stream pushes to q0 to q7 and pops from q8 to q15; with no other sleeper on the queue
an entry goes in or out at once, and a full or an empty queue lets it sleep. -/
def Obligations.QueuesAreFifoInBothStreams : Prop :=
 (∀ (s : State) (c sl e : Nat) (q : BitVec 6),
    (let cl := clusterOf c
     let x := (s.ctl cl).queues.get [] q.toNat
     let runs := (s.ctl cl).st ≠ .off ∧ (s.ctl cl).lid = (parcel s c sl e).lid ∧ (s.entry c sl e).serialised = false ∧
       s.queueSleepers cl q.toNat = [] ∧ Awake s c sl e
     (∀ (h : Hdr) (a : BitVec 8), (let i := Instr.qpush h q a
       Clear s c sl e i → lanes s c sl e i ≠ [] → runs → 8 ≤ q.toNat → q.toNat < 16 → a.toNat % 2 = 0 →
       ∃ t, exec i s = .next t ∧ SameTeam s t c sl e ∧ SameMemory s t ∧ SameScratch s t ∧
         (if x.length < 64 then Goes s t c sl e i ∧ (t.ctl cl).queues.get [] q.toNat = x ++ [spair s c sl e a.toNat]
          else (t.ctl cl).queues.get [] q.toNat = x ∧ ∃ k, Sleeps s t c sl e i (.qpush q.toNat (spair s c sl e a.toNat) k)))) ∧
     (∀ (h : Hdr) (d : BitVec 8), (let i := Instr.qpop h q d
       Clear s c sl e i → lanes s c sl e i ≠ [] → runs → q.toNat < 8 → d.toNat % 2 = 0 →
       ∃ t, exec i s = .next t ∧ SameMemory s t ∧ SameScratch s t ∧ (team t c sl e).v = (team s c sl e).v ∧
         (match x with
          | v :: r => Goes s t c sl e i ∧ (t.ctl cl).queues.get [] q.toNat = r ∧
              (∀ k, sreg t c sl e k = if k = d.toNat ∧ k ≠ 0 then v.setWidth 32 else if k = d.toNat + 1 then (v >>> 32).setWidth 32 else sreg s c sl e k)
          | [] => (∃ k, Sleeps s t c sl e i (.qpop q.toNat d.toNat k)) ∧ (team t c sl e).s = (team s c sl e).s ∧
              (t.ctl cl).queues.get [] q.toNat = []))))) ∧
 (∀ (s : State) (cl : Nat) (q : BitVec 6),
    (let x := (s.ctl cl).queues.get [] q.toNat
     (∀ (h : Hdr) (a : BitVec 8), (let i := Instr.qpush h q a
       CClear s cl i → s.queueSleepers cl q.toNat = [] → CAwake s cl → q.toNat < 8 →
       ∃ t, exec i s = .next t ∧ t = { s with ctls := t.ctls, ids := t.ids } ∧ (t.ctl cl).c = (s.ctl cl).c ∧
         (if x.length < 64 then CGoes s t cl i ∧ (t.ctl cl).queues.get [] q.toNat = x ++ [creg s cl a]
          else (t.ctl cl).queues.get [] q.toNat = x ∧ ∃ k, CSleeps s t cl (.qpush q.toNat (creg s cl a) k)))) ∧
     (∀ (h : Hdr) (d : BitVec 8), (let i := Instr.qpop h q d
       CClear s cl i → s.queueSleepers cl q.toNat = [] → CAwake s cl → 8 ≤ q.toNat → q.toNat < 16 →
       ∃ t, exec i s = .next t ∧ t = { s with ctls := t.ctls, ids := t.ids } ∧
         (match x with
          | v :: r => CGoes s t cl i ∧ (t.ctl cl).queues.get [] q.toNat = r ∧
              (∀ k, (t.ctl cl).c.get 0 k = if k = d.toNat ∧ k ≠ 0 then v else (s.ctl cl).c.get 0 k)
          | [] => (∃ k, CSleeps s t cl (.qpop q.toNat d.toNat k)) ∧ (t.ctl cl).c = (s.ctl cl).c ∧ (t.ctl cl).queues.get [] q.toNat = [])))))

/-- R265: in either stream `FLAG.SET` sets its flag and wakes its sleepers, `FLAG.CLR` clears it, and `FLAG.WAIT` goes on when
the flag is one and else sleeps, changing no flag. -/
def Obligations.FlagsSetClearAndWait : Prop :=
  (∀ (s : State) (c sl e : Nat) (i : Instr) (f : BitVec 6),
    (let cl := clusterOf c
     let was := (s.ctl cl).flags.getLsbD f.toNat
     Clear s c sl e i → Awake s c sl e → lanes s c sl e i ≠ [] → (s.ctl cl).st ≠ .off → (s.ctl cl).lid = (parcel s c sl e).lid →
     (∀ v : Bool, ((∃ h, i = .flagSet h f ∧ v = true) ∨ (∃ h, i = .flagClr h f ∧ v = false)) →
       ∃ t, exec i s = .next t ∧ Goes s t c sl e i ∧ SameTeam s t c sl e ∧ SameMemory s t ∧ SameScratch s t ∧
         (∀ k, (t.ctl cl).flags.getLsbD k = if k = f.toNat then v else (s.ctl cl).flags.getLsbD k) ∧
         (v = true → ∀ p, p ∈ s.places → clusterOf p.1 = cl → (s.entry p.1 p.2.1 p.2.2).st = .asleep (.flag f.toNat) →
           (t.entry p.1 p.2.1 p.2.2).pc = (s.entry p.1 p.2.1 p.2.2).npc ∧ ∀ w, (t.entry p.1 p.2.1 p.2.2).st ≠ .asleep w)) ∧
     ((∃ h, i = .flagWait h f) →
       ∃ t, exec i s = .next t ∧ OnlyEntry s t c sl e ∧ SameTeam s t c sl e ∧
         (if was = true then Goes s t c sl e i else Sleeps s t c sl e i (.flag f.toNat))))) ∧
  (∀ (s : State) (cl : Nat) (i : Instr) (f : BitVec 6), CClear s cl i → CAwake s cl →
     (∀ v : Bool, ((∃ h, i = .flagSet h f ∧ v = true) ∨ (∃ h, i = .flagClr h f ∧ v = false)) →
       ∃ t, exec i s = .next t ∧ CGoes s t cl i ∧ SameMemory s t ∧ SameScratch s t ∧ (t.ctl cl).c = (s.ctl cl).c ∧
         (∀ k, (t.ctl cl).flags.getLsbD k = if k = f.toNat then v else (s.ctl cl).flags.getLsbD k)) ∧
     ((∃ h, i = .flagWait h f) →
       ∃ t, exec i s = .next t ∧ t = { s with ctls := t.ctls } ∧ (t.ctl cl).flags = (s.ctl cl).flags ∧
         (if (s.ctl cl).flags.getLsbD f.toNat = true then CGoes s t cl i else CSleeps s t cl (.flag f.toNat))))

/-! ### The control core and its engines (chapter 11) -/

/-- R149 to R151, R274: `CLD` of a sector that the data cache does not hold, and `CLD.acq`, send one load into c[D]; `CST`
sends its bytes; the stream goes on, but `.acq` sleeps until its read is performed and `.rel` is a release. -/
def Obligations.ControlLoadsAndStoresSend : Prop :=
  ∀ (s : State) (cl : Nat) (h : Hdr) (ty : Ty) (o : Bool) (x a : BitVec 8) (off : Word),
    (let va := (creg s cl a + off.signExtend 64).toNat
     let ours := fun (r : Req) => r.src = .control cl ∧ r.port = 256 + cl ∧ r.ctx = ctlCtx s cl ∧ r.tgt = .part (partOf va) ∧
       r.va = va / 32 * 32
     (CClear s cl (.cld h ty o x a off) → va % ty.bytes = 0 → s.windowOk (ctlCtx s cl) va ty.bytes .r = true →
       (o = true ∨ (s.ctl cl).dcache.look (sectorKey (ctlCtx s cl) va) = none) →
       ∃ t r d, exec (.cld h ty o x a off) s = .next t ∧ t = { s with ctls := t.ctls, reqs := s.reqs ++ [r], ids := t.ids } ∧ ours r ∧
         (t.ctl cl).c = (s.ctl cl).c ∧ r.st = .sent ∧ r.kind = .load d o ∧ d.reg = x.toNat ∧ d.ty = ty ∧ d.n = 1 ∧
         (x ≠ 0 → d.lanes = [(0, va)]) ∧
         (if o then CSleeps s t cl (.acquire [r.id]) else CGoes s t cl (.cld h ty o x a off))) ∧
     (CClear s cl (.cst h ty o a x off) → va % ty.bytes = 0 → s.windowOk (ctlCtx s cl) va ty.bytes (if o then .w else .plainW) = true →
       ∃ t r bs, exec (.cst h ty o a x off) s = .next t ∧ t = { s with ctls := t.ctls, reqs := s.reqs ++ [r], ids := t.ids } ∧ ours r ∧
         (t.ctl cl).c = (s.ctl cl).c ∧ r.kind = .store bs ∧
         (∀ q, q < ty.bytes → (va % 32 + q, ((creg s cl x) >>> (8 * q)).setWidth 8) ∈ bs) ∧ bs.length = ty.bytes ∧
         (if o then
            (if s.released (.control cl) 0 then r.st = .sent ∧ CSleeps s t cl (.writes [r.id])
             else r.st = .held ∧ CSleeps s t cl (.release [r.id] false false))
          else r.st = .sent ∧ CGoes s t cl (.cst h ty o a x off))))

/-- R277 to R279: `SHP.SET` writes one field group of its shape register and ignores the other bits of c[A]; `WFI` sleeps.
R101, R104, R286: `ALG.LDT` whose 64-byte record can be read at once and is legal gives the slot of its context on this
cluster the record's table, component count and conjugation signs; the stream goes on. -/
def Obligations.ShapesAndAlgebraSlotsAreSet : Prop :=
 ((∀ (s : State) (cl : Nat) (h : Hdr) (d a : BitVec 8) (field : BitVec 3), CClear s cl (.shpSet h d a field) →
    (let x := shape s cl d
     let v := creg s cl a
     ∃ t, exec (.shpSet h d a field) s = .next t ∧ t = { s with ctls := t.ctls } ∧ CGoes s t cl (.shpSet h d a field) ∧
       (t.ctl cl).c = (s.ctl cl).c ∧ (∀ r, r ≠ d → shape t cl r = shape s cl r) ∧
       shape t cl d =
         (if field = 0 then { x with base := v }
          else if field = 1 then { x with e0m := v.extractLsb' 0 16, e1m := v.extractLsb' 16 16, e2m := v.extractLsb' 32 16 }
          else if field = 2 then { x with s0 := v }
          else if field = 3 then { x with s1 := v }
          else if field = 4 then { x with s2 := v }
          else if field = 5 then { x with esz := v.extractLsb' 0 2 }
          else { x with pitch := v.extractLsb' 0 20 }))) ∧
  (∀ (s : State) (cl : Nat) (h : Hdr), CClear s cl (.wfi h) →
    ∃ t, exec (.wfi h) s = .next t ∧ t = { s with ctls := t.ctls } ∧ (∀ n, n ≠ cl → t.ctl n = s.ctl n) ∧
      CSleeps s t cl (.wfi (s.ctl cl).cycle) ∧ (t.ctl cl).npc = (s.ctl cl).pc + BitVec.ofNat 32 (4 * (encode (.wfi h)).length))) ∧
 (∀ (s s1 : State) (cl : Nat) (h : Hdr) (d a : BitVec 8) (bs : List Byte),
    (let i := Instr.algLdt h d a
     let va := (creg s cl a).toNat
     let w := little 64 fun q => bs.getD q 0
     CClear s cl i → va % 64 = 0 → s.windowOk (ctlCtx s cl) va 64 .r = true →
     (∀ page cause, (s.ctl cl).ldt ≠ some (page, some cause)) →
     (∀ r ∈ s.reqs, ¬ (r.src = .control cl ∧ r.tgt = .part (partOf va) ∧ r.moving = true)) →
     s.engineRead (ctlCtx s cl) va 64 { pc := (s.ctl cl).pc, team := (s.ctl cl).eseq.toNat, version := (s.ctl cl).version } = (.ok bs, s1) → (Algebra.ofRecord w).isSome →
     ∃ t, exec i s = .next t ∧ CGoes s t cl i ∧ (t.ctl cl).c = (s.ctl cl).c ∧
       (let z := (t.ctxOf (ctlCtx s cl)).alg.get {} (cl * 8 + d.toNat)
        z.name.toNat = w % 2 ^ 64 ∧ z.k = w / 2 ^ 64 % 256 ∧ z.conj.toNat = w / 2 ^ 72 % 256 ∧
        (∀ p q, p < 8 → q < 8 → w / 2 ^ (192 + 5 * (8 * p + q)) % 32 ≠ 0 →
          z.sgn p q = w / 2 ^ (192 + 5 * (8 * p + q) + 3) % 4 ∧ z.idx p q = w / 2 ^ (192 + 5 * (8 * p + q)) % 8))))

/-- R267 to R271, R281 to R284, R289 to R293: an engine instruction whose operands pass its checks takes the next sequence
number. With a core named it joins the cluster's commands, with its operands as read now; with none it is finished at
once; the stream goes on and no memory changes. While its queue has no room it does not issue: the stream stands for a
cycle. R268, R272, R285, R293: `TX.FENCE` and `MX.WAIT` take a sequence number and go on when every command of the stream,
or every matrix command that names one of the masked cores, is finished and none has failed; with one unfinished they
sleep. That `MX.WAIT` and `TX.FENCE` take a number, which raises `%eseq` by one, is the model's choice (log entry 52): its
reading of the rules. -/
def Obligations.EngineCommandsIssueAndAreAwaited : Prop :=
 (∀ (s : State) (cl : Nat) (i : Instr) (r : BitVec 8) (copy : Bool) (op : EngOp),
    command s cl i = some (r, copy, op) → CClear s cl i → (∀ z ∈ (s.ctl cl).hLate, z.2.1 ≤ (s.ctl cl).cycle) → commandOk s cl i →
    (roomFor s cl copy (cores s cl r) →
      ∃ t, exec i s = .next t ∧ t = { s with ctls := t.ctls } ∧ CGoes s t cl i ∧ (t.ctl cl).eseq = (s.ctl cl).eseq + 1 ∧
        (t.ctl cl).c = (s.ctl cl).c ∧ (t.ctl cl).h = (s.ctl cl).h ∧
        (if cores s cl r = [] then (t.ctl cl).cmds = (s.ctl cl).cmds
         else ∃ m, (t.ctl cl).cmds = (s.ctl cl).cmds ++ [m] ∧ m.eseq = (s.ctl cl).eseq ∧ m.cores = cores s cl r ∧ m.op = op ∧
           m.lid = (s.ctl cl).lid ∧ m.finished = false ∧ m.done = [] ∧
           ∀ k ∈ cores s cl r, ∀ p, s.parcelOn (16 * cl + k) (s.ctl cl).lid = some p → (k, p.pid) ∈ m.parcels)) ∧
    (¬ roomFor s cl copy (cores s cl r) →
      ∃ t, exec i s = .next t ∧ t = { s with ctls := t.ctls } ∧
        t.ctl cl = { s.ctl cl with cycle := (s.ctl cl).cycle + 1 })) ∧
 (∀ (s : State) (cl : Nat) (i : Instr) (mask : Option (List Nat)),
    ((∃ h, i = .txFence h ∧ mask = none) ∨ (∃ h c, i = .mxWait h c ∧ maskOk s cl c ∧ mask = some (cores s cl c))) →
    CClear s cl i →
    (let cov := (s.ctl cl).cmds.filter fun m => m.lid == (s.ctl cl).lid &&
       (match mask with | none => true | some l => !m.isTx && m.cores.any l.contains)
     ((∀ m ∈ cov, m.finished = true ∧ m.failed = none) →
       ∃ t, exec i s = .next t ∧ t = { s with ctls := t.ctls } ∧ CGoes s t cl i ∧ (t.ctl cl).eseq = (s.ctl cl).eseq + 1 ∧
         (t.ctl cl).cmds = (s.ctl cl).cmds ∧ (t.ctl cl).c = (s.ctl cl).c) ∧
     ((∃ m ∈ cov, m.finished = false) →
       ∃ t, exec i s = .next t ∧ t = { s with ctls := t.ctls } ∧ CSleeps s t cl (.fence mask false) ∧
         (t.ctl cl).eseq = (s.ctl cl).eseq + 1 ∧ (t.ctl cl).cmds = (s.ctl cl).cmds)))

/-! ### Traps and special registers (chapters 04, 08, 10 and 12) -/

/-- R92, R181, R182, R241, R298, R301 to R304, R309: the causes of a trap and what its frame says. `TRAP` and `BRK` with an
active lane trap SOFT and BREAK with their code and resume behind themselves; words that are no instruction trap UNDEF; a
load with a misaligned lane traps ALIGN and names its lowest row's bad lanes and their lowest address; a register of the
trap frame read outside handler state traps PRIV; a failed `XFER` traps XFERFAIL with its code and resumes behind itself;
an enabled exception traps FPE, sets its flags, and writes no register. The frame is written by store requests (log entry
15). That `SRD` and `SWR` trap PRIV without an active lane too is the model's choice (log entry 75): its reading of the
order of the checks. -/
def Obligations.TrapsEnterTheHandler : Prop :=
  ∀ (s : State) (c sl e o : Nat), CanTrap s c sl e o →
    (let top := firstRow (s.entry c sl e).mask
     let kept := fun (t : State) => (team t c sl e).v = (team s c sl e).v ∧ (team t c sl e).s = (team s c sl e).s ∧
       (team t c sl e).p = (team s c sl e).p
     (∀ (i : Instr) (cause : BitVec 8) (code : Word),
       ((∃ h, i = .trap h code ∧ cause = 0x00) ∨ (∃ h, i = .brk h code ∧ cause = 0x0A)) → Clear s c sl e i → lanes s c sl e i ≠ [] →
       ∃ t news, exec i s = .next t ∧ SameTeam s t c sl e ∧
         Trapped s t c sl e o i cause code 0 top (active s c sl e i) (nextPc s c sl e i) news) ∧
     (∀ ws : List Word, s.cur = .team c sl e → (s.entry c sl e).ra = none → ws.length ≤ 5 →
       (let i := Instr.unassignedOpcode ws
        ∃ t news, exec i s = .next t ∧ SameTeam s t c sl e ∧
          Trapped s t c sl e o i 0x01 0 0 top (active s c sl e i) (s.entry c sl e).pc news)) ∧
     (∀ (i : Instr) (m : Mem) (row low : Nat), loadOf i = some m → Clear s c sl e i →
       (let bad := fun l => active s c sl e i l && decide (memAt s c sl e m l % spanOf m ≠ 0)
        LowestOf bad row low →
        ∃ t news, exec i s = .next t ∧ SameTeam s t c sl e ∧
          Trapped s t c sl e o i 0x04 0 (BitVec.ofInt 64 (memAt s c sl e m low)) row bad (s.entry c sl e).pc news)) ∧
     (∀ (h : Hdr) (n : BitVec 12) (d : BitVec 8), (n = 0x017 ∨ n = 0x018 ∧ d.toNat % 2 = 0) → Clear s c sl e (.srd h n false d) →
       (∀ y ∈ (s.entry c sl e).stack, y.kind ≠ 2) →
       ∃ t news, exec (.srd h n false d) s = .next t ∧ SameTeam s t c sl e ∧
         Trapped s t c sl e o (.srd h n false d) 0x02 0 0 top (active s c sl e (.srd h n false d)) (s.entry c sl e).pc news) ∧
     (∀ (h : Hdr) (v : BitVec 3) (code : Word), Clear s c sl e (.xfer h v) → (s.entry c sl e).target = none →
       (∀ y ∈ (s.entry c sl e).stack, y.spill = false) → v ≠ (s.entry c sl e).version → s.transferFail c sl e v (s.entry c sl e).safept = some code →
       ∃ t news, exec (.xfer h v) s = .next t ∧ SameTeam s t c sl e ∧
         Trapped s t c sl e o (.xfer h v) 0x0D code 0 top (active s c sl e (.xfer h v)) (nextPc s c sl e (.xfer h v)) news) ∧
     (∀ (i : Instr) (q : Alu) (ty : Ty) (f : Nat → Nat → Nat → Nat × Flags) (row low : Nat),
       floating (mode s c sl e 1) i = some (q, ty, f) → Clear s c sl e i →
       (let r := fun l => f (opA s c sl e q q.ty.is64 l).toNat (opB s c sl e q q.ty.is64 l).toNat (opC s c sl e q q.ty.is64 l).toNat
        let bad := fun l => active s c sl e i l &&
          decide ((r l).2 &&& (((team s c sl e).fpctl >>> 8).setWidth 6 &&& 0b011111) ≠ 0)
        LowestOf bad row low →
        ∃ t news, exec i s = .next t ∧ kept t ∧
          (team t c sl e).fpctl = (team s c sl e).fpctl ||| (raised s c sl e i fun l => (r l).2).setWidth 32 ∧
          Trapped s t c sl e o i 0x0E 0 0 row bad (s.entry c sl e).pc news)))

/-- R304, R313: in the control stream `TRAP`, `BRK` and words that are no instruction write the frame at the stack base, save
the resume PC in `%tpc`, and go on at `%tvec` in handler state when the frame's writes are performed. The frame is written
by store requests (log entry 15). -/
def Obligations.ControlTrapsEnterTheHandler : Prop :=
  ∀ (s : State) (cl : Nat) (i : Instr) (cause : BitVec 8) (code : Word) (skip : Bool),
    ((∃ h, i = .trap h code ∧ cause = 0x00 ∧ skip = true ∧ CClear s cl i) ∨ (∃ h, i = .brk h code ∧ cause = 0x0A ∧ skip = true ∧ CClear s cl i) ∨
      (∃ ws, i = .unassignedOpcode ws ∧ ws.length ≤ 5 ∧ cause = 0x01 ∧ code = 0 ∧ skip = false ∧ s.cur = .control cl)) →
    (s.ctl cl).handler = false → (s.ctl cl).tvec ≠ 0xFFFFFFFF →
    (∀ k, (k = .r ∨ k = .w) → s.windowOk (ctlCtx s cl) (s.ctl cl).stkbase.toNat 128 k = true) →
    (let npc := (s.ctl cl).pc + BitVec.ofNat 32 (4 * (encode i).length)
     let at_ := (s.ctl cl).stkbase.toNat
     ∃ t news, exec i s = .next t ∧ t = { s with ctls := t.ctls, reqs := s.reqs ++ news, ids := t.ids } ∧
       (t.ctl cl).pc = (s.ctl cl).tvec ∧ (t.ctl cl).tpc = (if skip then npc else (s.ctl cl).pc) ∧ (t.ctl cl).handler = true ∧
       (t.ctl cl).st = .asleep (.writes (news.map Req.id)) ∧ (t.ctl cl).c = (s.ctl cl).c ∧
       (∀ q, q < 128 → (sentByte news (at_ + q)).isSome) ∧ framed news at_ 0 1 = cause.toNat ∧ framed news at_ 4 4 = (s.ctl cl).pc.toNat ∧
       framed news at_ 8 4 = npc.toNat ∧ framed news at_ 12 4 = code.toNat ∧ framed news at_ 16 4 = 0 ∧ framed news at_ 20 4 = 0 ∧
       (∀ k, k < (encode i).length → framed news at_ (48 + 4 * k) 4 = ((encode i).getD k 0).toNat))

/-- R47, R297 to R299, R313: `SRD` writes the special register's value into its v or s destination, a pair for a 64-bit one,
and in the control stream into a c register. That `%dbgctl` is no register of the control stream's statement follows log
entry 29. -/
def Obligations.SpecialRegistersRead : Prop :=
  (∀ (s : State) (c sl e : Nat) (i : Instr) (reg : BitVec 12) (sd : Bool) (d : BitVec 8),
    ((∃ h, i = .srd h reg sd d) ∨ (∃ h d7 a7, i = .srdShort h d7 a7 ∧ reg = a7.setWidth 12 ∧ sd = false ∧ d = d7.setWidth 8)) →
    Clear s c sl e i → (∀ l, (special s c sl e reg.toNat l).isSome) → (wideReg reg.toNat = true → d.toNat % 2 = 0) →
    (sd = true → laneReg reg.toNat = false) →
    (let val := fun l => BitVec.ofNat 64 ((special s c sl e reg.toNat l).getD 0)
     ∃ t, exec i s = .next t ∧
       Wrote s t c sl e i (if sd then noV else dest s c sl e i (wideReg reg.toNat) d val) noP
         (fun r => if sd = true ∧ lanes s c sl e i ≠ [] ∧ r ≠ 0 then
             (if r = d.toNat then some ((val 0).setWidth 32)
              else if wideReg reg.toNat = true ∧ r = d.toNat + 1 then some ((val 0 >>> 32).setWidth 32) else none)
           else none) 0)) ∧
  (∀ (s : State) (cl : Nat) (h : Hdr) (reg : BitVec 12) (d : BitVec 8) (v : Nat),
    CClear s cl (.srd h reg true d) → ctlSpecial? s cl reg.toNat = some v →
    ∃ t, exec (.srd h reg true d) s = .next t ∧
      CWrote s t cl (.srd h reg true d) (fun r => if r = d.toNat ∧ r ≠ 0 then some (BitVec.ofNat 64 v) else none))

/-- R298, R300, R303, R310, R313: `SWR` writes the fields that software may write of `%mode`, `%fpctl`, `%tvec` and, in
handler state, of `%tpc` and `%ustep`; `PROGRESS` keeps the low 16 bits of its register as the team's report. -/
def Obligations.SpecialRegistersWrite : Prop :=
  (∀ (s : State) (c sl e : Nat) (h : Hdr) (reg : BitVec 12) (a : BitVec 8),
    (let i := Instr.swr h reg a
     let v := sreg s c sl e a.toNat
     let regs := fun (t : State) => (team t c sl e).v = (team s c sl e).v ∧ (team t c sl e).s = (team s c sl e).s ∧
       (team t c sl e).p = (team s c sl e).p
     Clear s c sl e i → lanes s c sl e i ≠ [] →
     (reg = 0x010 → ∃ t, exec i s = .next t ∧ OnlyEntry s t c sl e ∧ Goes s t c sl e i ∧ regs t ∧
       (team t c sl e).mode = (team s c sl e).mode.extractLsb' 4 28 ++ v.extractLsb' 0 4 ∧ (team t c sl e).fpctl = (team s c sl e).fpctl) ∧
     (reg = 0x011 → ∃ t, exec i s = .next t ∧ OnlyEntry s t c sl e ∧ Goes s t c sl e i ∧ regs t ∧
       (team t c sl e).fpctl = v &&& 0x1F3F ∧ (team t c sl e).mode = (team s c sl e).mode) ∧
     (reg = 0x019 → (v.toNat % 4 = 0 ∨ v = 0xFFFFFFFF) → ∃ t, exec i s = .next t ∧ OnlyEntry s t c sl e ∧ Goes s t c sl e i ∧ regs t ∧
       (team t c sl e).tvec = v) ∧
     (∀ y r, (s.entry c sl e).stack = y :: r → y.kind = 2 → y.spill = false →
       (reg = 0x017 → v.toNat % 4 = 0 → ∃ t, exec i s = .next t ∧ OnlyEntry s t c sl e ∧ SameTeam s t c sl e ∧
         (t.entry c sl e).pc = nextPc s c sl e i ∧ (t.entry c sl e).st = .stalled (t.entry c sl e).till ∧
         (t.entry c sl e).stack = { y with pc := v, byCmp := y.byCmp && decide (v = y.pc) } :: r) ∧
       (reg = 0x016 → ∃ t q, exec i s = .next t ∧ SameTeam s t c sl e ∧ t.reqs = s.reqs ++ [q] ∧
         (t.entry c sl e).pc = nextPc s c sl e i ∧ (t.entry c sl e).st = .stalled (t.entry c sl e).till ∧
         (t.entry c sl e).stack = { y with us := v.setWidth 8 } :: r ∧
         sentByte [q] ((team s c sl e).stkbase.toNat + y.aux.toNat + 32) = some (v.setWidth 8))))) ∧
  (∀ (s : State) (cl : Nat) (h : Hdr) (reg : BitVec 12) (a : BitVec 8),
    (let i := Instr.swr h reg a
     let v : Word := (creg s cl a).setWidth 32
     CClear s cl i →
     (reg = 0x010 → ∃ t, exec i s = .next t ∧ t = { s with ctls := t.ctls } ∧ CGoes s t cl i ∧ (t.ctl cl).mode = v &&& 1) ∧
     (reg = 0x019 → (v.toNat % 4 = 0 ∨ v = 0xFFFFFFFF) → ∃ t, exec i s = .next t ∧ t = { s with ctls := t.ctls } ∧ CGoes s t cl i ∧
       (t.ctl cl).tvec = v) ∧
     (reg = 0x017 → (s.ctl cl).handler = true → v.toNat % 4 = 0 → ∃ t, exec i s = .next t ∧ t = { s with ctls := t.ctls } ∧ CGoes s t cl i ∧
       (t.ctl cl).tpc = v))) ∧
  (∀ (s : State) (c sl e : Nat) (h : Hdr) (a : BitVec 8), Clear s c sl e (.progress h a) →
    ∃ t, exec (.progress h a) s = .next t ∧ OnlyEntry s t c sl e ∧ Goes s t c sl e (.progress h a) ∧ SameTeam s t c sl e ∧
      (team t c sl e).report = some ((sreg s c sl e a.toNat).extractLsb' 0 16))

/-- R307, R318, R323: an `XFER` that passes every check goes on in the target version behind that version's map of the safe
point, with its mask and its stack's depth; per-lane 32-bit slots that both maps keep in v registers take their values
with them. -/
def Obligations.TransferMovesToTheTargetVersion : Prop :=
  ∀ (s : State) (c sl e : Nat) (h : Hdr) (v : BitVec 3) (ma mb : MapV),
    (let i := Instr.xfer h v
     let x := s.entry c sl e
     let k := s.kernelOf (team s c sl e)
     let ds := k.slotsAt x.safept
     Clear s c sl e i → x.target = none → v ≠ x.version → (∀ y ∈ x.stack, y.spill = false) →
     s.transferFail c sl e v x.safept = none → s.transferMark c sl e v x.safept = none →
     k.mapOf x.version x.safept = some ma → k.mapOf v x.safept = some mb →
     ∃ t, exec i s = .next t ∧ (t.entry c sl e).version = v ∧ (t.entry c sl e).safept = x.safept ∧ (t.entry c sl e).mask = x.mask ∧
       (t.entry c sl e).stack.length = x.stack.length ∧ (t.entry c sl e).st = .stalled (t.entry c sl e).till ∧
       (∃ n, (n = 4 ∨ n = 12 ∨ n = 20) ∧ (t.entry c sl e).pc = mb.pc + BitVec.ofNat 32 n) ∧
       ((∀ z ∈ neededSlots ds mb, z.bits = 32 ∧ z.u = false) →
        (∀ z ∈ neededSlots ds mb, ∃ p q, ma.ents.find? (fun w => w.slot == z.slot) = some p ∧ mb.ents.find? (fun w => w.slot == z.slot) = some q ∧
          p.kind = 0 ∧ q.kind = 0 ∧ ds.find? (fun w => w.slot == z.slot) = some z) →
        (∀ z ∈ neededSlots ds mb, ∀ y ∈ neededSlots ds mb, ∀ p q, mb.ents.find? (fun w => w.slot == z.slot) = some p →
          mb.ents.find? (fun w => w.slot == y.slot) = some q → p.reg = q.reg → z = y) →
        ∀ z ∈ neededSlots ds mb, ∀ p q l, ma.ents.find? (fun w => w.slot == z.slot) = some p →
          mb.ents.find? (fun w => w.slot == z.slot) = some q → p.reg < 256 → q.reg < 256 → l ∈ lanesOf x.mask →
          vreg t c sl e l q.reg = vreg s c sl e l p.reg))

/-- R298, R302 to R304, R346, R403: in the lifecycle state DEBUG the debug function resumes a sub-team that it holds, through
its TRAP entry, and writes a core's `%dbgctl`, one of its four comparators and its watch range. -/
def Obligations.DebugFunctionActs : Prop :=
  (∀ (s : State) (c sl e : Nat) (x : Entry) (y : StkEntry) (r : List StkEntry),
    s.entry? c sl e = some x → s.wh.life = .debug → x.debug = true → x.st = .ready → x.stack = y :: r → y.kind = 2 →
    ∃ t z, exec (.debugResume c sl e) s = .next t ∧ t.entry? c sl e = some z ∧ z.pc = y.pc ∧ z.stack = r ∧ z.debug = false ∧
      z.st = .ready ∧ z.mask = x.mask ∧ z.brkSkip = y.byCmp ∧ SameTeam s t c sl e) ∧
  (∀ (s : State) (co k ctx : Nat) (ver : BitVec 3) (pc dbg : Word) (watch : Option (Nat × Nat)),
    s.wh.life = .debug → co < 256 → k < 4 →
    ∃ t, exec (.debugFunctionWrite co k ctx ver pc dbg watch) s = .next t ∧ t = { s with cores := t.cores } ∧
      (∀ n, n ≠ co → t.core n = s.core n) ∧
      (t.core co).cmps.look k = some { ctx := ctx, version := ver, pc := pc } ∧
      (∀ n, n ≠ k → (t.core co).cmps.look n = (s.core co).cmps.look n) ∧
      (t.core co).dbgctl = dbg &&& 3 ∧ (t.core co).watch = (match watch with | some w => [w] | none => (s.core co).watch))

/-! ### Events of the slots and the control cores (chapters 03, 07, 08 and 10) -/

/-- R50, R61, R69, R70, R203, R277: a sub-team or a control stream whose stall count has gone by is ready again; a `MONWAIT`
that has slept 65,536 cycles, or 1,024 without a monitor, goes on with status 0 in p[D] of the lanes that were active at
it; a `WFI` of 65,536 cycles goes on, and a younger one goes on or sleeps on, as a trap request comes or not (log entry
61). R165, R166: a fetch gives a sub-team that waits for an instruction the words at its PC, and a control stream
likewise; at or past the section's end the fetch is refused; while the page lets it wait the sub-team stays as it is. -/
def Obligations.StallsRunOutAndFetchBringsWords : Prop :=
 ((∀ (s : State) (c sl e n : Nat) (x : Entry), c < 256 → s.entry? c sl e = some x → x.st = .stalled n → n ≤ (s.core c).cycle →
    ∃ t, exec (.stallCountExpiry c sl e) s = .next t ∧ OnlyEntry s t c sl e ∧ team t c sl e = team s c sl e ∧
      t.entry c sl e = { x with st := .ready, since := (s.core c).cycle, stamp := (s.core c).cycle }) ∧
  (∀ (s : State) (cl sl e n : Nat), (s.ctl cl).st = .stalled n → n ≤ (s.ctl cl).cycle →
    ∃ t, exec (.stallCountExpiry (256 + cl) sl e) s = .next t ∧ t = { s with ctls := t.ctls } ∧
      (∀ k, k ≠ cl → t.ctl k = s.ctl k) ∧ t.ctl cl = { s.ctl cl with st := .ready }) ∧
  (∀ (s : State) (c sl e d since : Nat) (i : Instr),
    ((∃ sec, (s.entry c sl e).st = .asleep (.mon sec d since) ∧ since + 65536 ≤ (s.core c).cycle ∧ i = .monwaitTimeout c sl e) ∨
      ((s.entry c sl e).st = .asleep (.noMon d since) ∧ since + 1024 ≤ (s.core c).cycle ∧ i = .noMonitorExpiry c sl e)) →
    1 ≤ d → d < 16 →
    ∃ t, exec i s = .next t ∧ (t.core c).monitors ⊆ (s.core c).monitors ∧
      OnlyEntry (s.setCore c { s.core c with monitors := (t.core c).monitors }) t c sl e ∧
      (team t c sl e).v = (team s c sl e).v ∧ (team t c sl e).s = (team s c sl e).s ∧
      (∀ l r, r < 16 → preg t c sl e l r = if inMask (s.entry c sl e).act l = true ∧ r = d then false else preg s c sl e l r) ∧
      (t.entry c sl e).pc = (s.entry c sl e).npc ∧ (t.entry c sl e).mask = (s.entry c sl e).mask ∧
      (t.entry c sl e).st = (if (s.entry c sl e).till ≤ (s.core c).cycle then .ready else .stalled (s.entry c sl e).till)) ∧
  (∀ (s : State) (cl since : Nat), (s.ctl cl).st = .asleep (.wfi since) → since + 65536 ≤ (s.ctl cl).cycle →
    ∃ t, exec (.wfiTimeout cl) s = .next t ∧ t = { s with ctls := t.ctls } ∧ (∀ k, k ≠ cl → t.ctl k = s.ctl k) ∧
      (t.ctl cl).pc = (s.ctl cl).npc ∧ (t.ctl cl).c = (s.ctl cl).c ∧ (∀ w, (t.ctl cl).st ≠ .asleep w)) ∧
  (∀ (s : State) (cl since : Nat), (s.ctl cl).st = .asleep (.wfi since) → (s.ctl cl).cycle < since + 65536 →
    ∃ t, exec (.wfiTimeout cl) s = .next t ∧ t = { s with ctls := t.ctls, fresh := t.fresh } ∧ (∀ k, k ≠ cl → t.ctl k = s.ctl k) ∧
      (t.ctl cl).c = (s.ctl cl).c ∧ (t.ctl cl = s.ctl cl ∨ ((t.ctl cl).pc = (s.ctl cl).npc ∧ ∀ w, (t.ctl cl).st ≠ .asleep w)))) ∧
 ((∀ (s : State) (c sl e : Nat) (x : Entry), c < 256 → s.entry? c sl e = some x → x.ibuf = none →
    (x.st = .ready ∨ (∃ n, x.st = .stalled n) ∨ x.st = .runahead) →
    (let code := (version s c sl e).team
     let who : Met := { pc := x.pc, team := s.gteam (team s c sl e), version := x.version }
     (∀ b s1, s.fetchAt c (ctx s c sl e) code who = (.got b, s1) →
       ∃ t, exec (.instructionFetch c sl e) s = .next t ∧ t.entry c sl e = { x with ibuf := some b } ∧ team t c sl e = team s c sl e) ∧
     (∀ s1, s.fetchAt c (ctx s c sl e) code who = (.wait, s1) →
       ∃ t, exec (.instructionFetch c sl e) s = .next t ∧ t.entry c sl e = x ∧ team t c sl e = team s c sl e) ∧
     (code.2 ≤ x.pc.toNat →
       ∃ t, exec (.instructionFetch c sl e) s = .next t ∧ OnlyEntry s t c sl e ∧ team t c sl e = team s c sl e ∧
         t.entry c sl e = { x with ibuf := some .refused }) ∧
     (∀ w y s1, x.pc.toNat < code.2 → wordCount w = 1 → s.fetchWord c (ctx s c sl e) (code.1 + x.pc.toNat) who none = (.word w y, s1) →
       ∃ t, exec (.instructionFetch c sl e) s = .next t ∧ t.entry c sl e = { x with ibuf := some (.words [w]) }))) ∧
  (∀ (s : State) (cl sl e : Nat) (code : Nat × Nat), (s.ctl cl).ibuf = none →
    ((s.ctl cl).st = .ready ∨ ∃ n, (s.ctl cl).st = .stalled n) →
    ((s.kernel (s.launchOf (s.ctl cl).lid).kid).version (s.ctl cl).version).control = some code →
    (∀ b s1, s.fetchAt (256 + cl) (ctlCtx s cl) code
        { pc := (s.ctl cl).pc, team := (s.ctl cl).eseq.toNat, version := (s.ctl cl).version } = (.got b, s1) →
      ∃ t, exec (.instructionFetch (256 + cl) sl e) s = .next t ∧ t.ctl cl = { s1.ctl cl with ibuf := some b } ∧
        (t.ctl cl).pc = (s.ctl cl).pc ∧ (t.ctl cl).c = (s.ctl cl).c)))

/-- R58, R59: the uppermost entry below the top eight that has a place and is not yet there is written there, its 16 bytes and
for a wider team its lane words; a spilled entry that has come into the top eight is read back, and a pop that slept for
it issues again. R73, R76: once its slot's entries are brought up to date, a ready sub-team whose next instruction waits
for a long load enters run-ahead when no other sub-team of its slot can issue and the launch allows it; when the loads it
waited for have come, the restore brings back every checkpointed register and resumes it where it stood, 4 cycles and one
for each copied row later. Where an entry lies in the stack area (log entry 14) and what run-ahead keeps (log entry 16)
are the model's readings. -/
def Obligations.StacksSpillAndRunAheadRestores : Prop :=
 ((∀ (s : State) (c sl e j o : Nat) (x : Entry) (y : StkEntry),
    s.entry? c sl e = some x → 8 ≤ j → x.stack[j]? = some y → y.place = some o → y.spill = false →
    (∀ n z, 8 ≤ n → n < j → x.stack[n]? = some z → z.place = none ∨ z.spill = true) →
    (let at_ := (team s c sl e).stkbase.toNat + o
     let masked := y.kind = 0 ∨ y.kind = 3
     (∀ r, y.recAt = some r → o + 16 ≤ r ∨ r + 4 * y.words.length ≤ o) →
     ∃ t news, exec (.stackSpill c sl e) s = .next t ∧ t.reqs = s.reqs ++ news ∧
       t.entry c sl e = { x with stack := x.stack.set j { y with spill := true } } ∧ team t c sl e = team s c sl e ∧ SameMemory s t ∧
       (∀ q, q < 16 → (sentByte news (at_ + q)).isSome) ∧
       framed news at_ 0 2 = y.kind.toNat + 16 * y.k.toNat ∧ framed news at_ 2 2 = y.split.toNat ∧ framed news at_ 4 4 = y.pc.toNat ∧
       framed news at_ 8 4 = (if masked then (rowMask y.words).toNat else 0) ∧
       framed news at_ 12 4 = (if masked then (if (team s c sl e).w = 0 then (y.words.headD 0).toNat else y.recAt.getD 0 % 2 ^ 32)
         else y.aux.toNat) ∧
       (∀ r k, y.recAt = some r → k < y.words.length →
         framed news ((team s c sl e).stkbase.toNat + r) (4 * k) 4 = (y.words.getD k 0).toNat))) ∧
  (∀ (s s1 : State) (c sl e j : Nat) (x : Entry) (y : StkEntry) (bs : List Byte),
    s.entry? c sl e = some x → j < 8 → x.stack[j]? = some y → y.spill = true →
    (∀ n z, n < j → x.stack[n]? = some z → z.spill = false) → y.recAt = none →
    s.readView c (ctx s c sl e) ((team s c sl e).stkbase.toNat + y.place.getD 0) 16 = (some bs, s1) →
    ∃ t z, exec (.stackFill c sl e) s = .next t ∧ (t.entry c sl e).stack = x.stack.set j z ∧ z.spill = false ∧
      z.kind.toNat = natOfBytes bs % 16 ∧ z.k.toNat = natOfBytes bs / 16 % 2 ^ 12 ∧ z.split.toNat = natOfBytes bs / 2 ^ 16 % 2 ^ 16 ∧
      z.pc.toNat = natOfBytes bs / 2 ^ 32 % 2 ^ 32 ∧ (t.entry c sl e).pc = x.pc ∧ (t.entry c sl e).mask = x.mask ∧
      (t.entry c sl e).st = (if x.st = .asleep .fill then .ready else x.st))) ∧
 ((∀ (s0 : State) (c sl e : Nat) (x : Entry) (ws : List Word) (r : Req),
    (let s := s0.settle c sl
     let ld := s.pendingReqs c sl e (instrOf ws)
     s.entry? c sl e = some x → x.ibuf = some (.words ws) →
     (launch s c sl e).grid.runahead = true → x.st = .ready → r ∈ ld → s.longLoad r = true → s.normals c sl = [] →
     s.xferWaits c sl = false → x.pend = none → (parcel s c sl e).st = .resident → x.held = [] →
     (s.slot c sl).free ≤ (s.core c).cycle → (∀ y ∈ (s.slot c sl).entries, y.2.ra = none) →
     ∃ t ra, exec (.runaheadEntry c sl e) s0 = .next t ∧ OnlyEntry s t c sl e ∧ team t c sl e = team s c sl e ∧
       (t.entry c sl e).st = .runahead ∧ (t.entry c sl e).pc = x.pc ∧ (t.entry c sl e).mask = x.mask ∧ (t.entry c sl e).stack = x.stack ∧
       (t.entry c sl e).ra = some ra ∧ ra.pc = x.pc ∧ ra.v = [] ∧ ra.p = [] ∧ ra.saved = [] ∧ ra.count = 0 ∧ ra.block = ld.map Req.id)) ∧
  (∀ (s : State) (c sl e : Nat) (x : Entry) (ra : RunAhead), s.entry? c sl e = some x → x.st = .restore → x.ra = some ra →
    (∀ q ∈ s.reqs, q.id ∉ ra.block) → s.xferWaits c sl = false → (s.slot c sl).free ≤ (s.core c).cycle →
    ra.v.rising = true → ra.p.rising = true →
    ∃ t, exec (.runaheadRestore c sl e) s = .next t ∧ SameMemory s t ∧ t.reqs = s.reqs ∧
      (∀ l r, r < 256 → vreg t c sl e l r = (ra.v.look (l * 256 + r)).getD (vreg s c sl e l r)) ∧
      (∀ l, (team t c sl e).p.get 0 l = (ra.p.look l).getD ((team s c sl e).p.get 0 l)) ∧
      (team t c sl e).s = (team s c sl e).s ∧ (t.entry c sl e).pc = ra.pc ∧ (t.entry c sl e).ra = none ∧
      (t.entry c sl e).mask = x.mask ∧ (t.entry c sl e).st = .stalled ((s.core c).cycle + 4 + ra.saved.length)))

/-! ### Events of the memory system (chapters 05, 06 and 21) -/

/-- R144, R145, R187, R243, R252 to R255: a load that is next at its partition writes its bytes, extended by its type, to the
registers of its lanes, or to c[D] of a control stream; or it reads some words of its sector first and the others later.
An inbound copy reads its bytes, and they arrive in the scratchpad with zeros behind them; a hint brings the block into
the Basin. At a Pond partition or at another core's bank it is the same. No memory changes. What a peer's memory gives is
free: such a load writes the registers of its lanes alone. That a load is performed and returns in one event is the
model's choice (log entry 12). -/
def Obligations.LoadDataArrives : Prop :=
  (∀ (s : State) (r : Req) (l : Leaf), AtLeaf s r l → r.va % 32 = 0 → near l → Room s l r.va →
    (let kept := fun (t : State) => t.dram = s.dram ∧ t.pond = s.pond ∧ t.farMem = s.farMem ∧ t.hostMem = s.hostMem
     let u := chosen s r
     let partly := fun (t : State) => t.cores = s.cores ∧ t.ctls = s.ctls ∧ ∃ q ∈ t.reqs, q.id = r.id ∧ q.kind = r.kind ∧ (∀ g ∈ r.got, g ∈ q.got) ∧
       ∀ a, a / 4 ∈ torn s r → (a, memByte u l a) ∈ q.got
     (∀ d acq c sl tm, r.kind = .load d acq → r.src = .team c sl tm → (u.readG l r.va 32).2.1 = false → NoJoin s c sl tm →
       (d.lanes.map Prod.fst).Nodup → (∀ y ∈ d.lanes, r.va ≤ y.2 ∧ y.2 + d.n * d.ty.bytes ≤ r.va + 32) →
       d.reg + (if d.ty.is64 then 2 else 1) * d.n ≤ 256 →
       ∃ t, exec (.loadDataReturn r.id) s = .next t ∧ kept t ∧ (torn s r ≠ [] → partly t) ∧
         (torn s r = [] → Gone t r ∧
           (∀ ln k, k < 256 → (t.team c sl tm).v.get 0 (ln * 256 + k) =
             ((d.lanes.find? fun y => y.1 == ln).bind fun y => landed d (fun q => seen u r l (y.2 + q)) k).getD
               ((s.team c sl tm).v.get 0 (ln * 256 + k))) ∧
           (t.team c sl tm).s = (s.team c sl tm).s ∧ (t.team c sl tm).p = (s.team c sl tm).p)) ∧
     (∀ d acq cl a, r.kind = .load d acq → r.src = .control cl → (u.readG l r.va 32).2.1 = false → d.lanes = [(0, a)] →
       d.n = 1 → d.reg ≠ 0 → r.va ≤ a → a + d.ty.bytes ≤ r.va + 32 →
       ∃ t, exec (.loadDataReturn r.id) s = .next t ∧ kept t ∧ (torn s r ≠ [] → partly t) ∧
         (torn s r = [] → Gone t r ∧ ∀ k, (t.ctl cl).c.get 0 k = if k = d.reg then
             fit d.ty false (num d.ty (BitVec.ofNat 64 (little d.ty.bytes fun q => seen u r l (a + q))))
           else (s.ctl cl).c.get 0 k)) ∧
     (∀ id ln a n, r.kind = .copyIn id [(ln, a, n)] → (u.readG l r.va 32).2.1 = false → r.va ≤ a → a < r.va + 32 → a + n ≤ r.va + 32 →
       ∃ t, exec (.loadDataReturn r.id) s = .next t ∧ kept t ∧ t.cores = s.cores ∧ (torn s r ≠ [] → partly t) ∧
         (torn s r = [] → ∃ q ∈ t.reqs, q.id = r.id ∧ q.st = .sent ∧
           q.kind = .arrive id [(ln, (List.range n).map fun k => seen u r l (a + k))])) ∧
     (∀ fill, r.kind = .hint fill → (r.src = .gone ∨ ∃ c sl tm, r.src = .team c sl tm) →
       ∃ t, exec (.loadDataReturn r.id) s = .next t ∧ Gone t r ∧ kept t ∧ (t.basin.look (blockOf l r.va)).isSome))) ∧
  (∀ (s : State) (r : Req) (id c sl tm ln : Nat) (bs : List Byte) (k : Copy) (y : LaneBlk), s.req? r.id = some r → s.canServe r = true →
    r.kind = .arrive id [(ln, bs)] → r.src = .team c sl tm → NoJoin s c sl tm → (s.team c sl tm).copies.find? (fun k => k.id == id) = some k →
    k.blks.find? (fun y => y.lane == ln) = some y → y.offs.Nodup → bs.length ≤ y.offs.length →
    ∃ t, exec (.loadDataReturn r.id) s = .next t ∧ Gone t r ∧ SameMemory s t ∧
      (∀ q o, y.offs[q]? = some o → (t.core c).scratch.get 0 ((s.parcel (s.team c sl tm).pid).base + o) = bs.getD q 0) ∧
      (∀ z, z ∉ y.offs.map ((s.parcel (s.team c sl tm).pid).base + ·) → (t.core c).scratch.get 0 z = (s.core c).scratch.get 0 z)) ∧
  (∀ (s : State) (r : Req) (l : Leaf) (d : Dest) (acq : Bool) (c sl tm : Nat), AtLeaf s r l → ¬ near l → r.kind = .load d acq →
    r.src = .team c sl tm → torn s r = [] → NoJoin s c sl tm →
    ∃ t, exec (.loadDataReturn r.id) s = .next t ∧ Gone t r ∧ SameMemory s t ∧
      ∀ ln k, k < 256 → (∀ y ∈ d.lanes, y.1 = ln → landed d (fun _ => 0) k = none) →
        (t.team c sl tm).v.get 0 (ln * 256 + k) = (s.team c sl tm).v.get 0 (ln * 256 + k)) ∧
  (∀ (s : State) (r : Req), AtPlace s r →
    (let same := fun (t : State) => SameMemory s t ∧ SameScratch s t
     let partly := fun (t : State) => t.cores = s.cores ∧ t.ctls = s.ctls ∧ ∃ q ∈ t.reqs, q.id = r.id ∧ q.kind = r.kind ∧ (∀ g ∈ r.got, g ∈ q.got) ∧
       ∀ a, a / 4 ∈ torn s r → (a, placeByte s r a) ∈ q.got
     (∀ d acq c sl tm, r.kind = .load d acq → r.src = .team c sl tm → NoJoin s c sl tm → (d.lanes.map Prod.fst).Nodup →
       d.reg + (if d.ty.is64 then 2 else 1) * d.n ≤ 256 →
       ∃ t, exec (.loadDataReturn r.id) s = .next t ∧ same t ∧ (torn s r ≠ [] → partly t) ∧
         (torn s r = [] → Gone t r ∧
           (∀ ln k, k < 256 → (t.team c sl tm).v.get 0 (ln * 256 + k) =
             ((d.lanes.find? fun y => y.1 == ln).bind fun y => landed d (fun q => placeSeen s r (y.2 + q)) k).getD
               ((s.team c sl tm).v.get 0 (ln * 256 + k))) ∧
           (t.team c sl tm).s = (s.team c sl tm).s ∧ (t.team c sl tm).p = (s.team c sl tm).p)) ∧
     (∀ d acq cl a, r.kind = .load d acq → r.src = .control cl → d.lanes = [(0, a)] → d.n = 1 → d.reg ≠ 0 →
       ∃ t, exec (.loadDataReturn r.id) s = .next t ∧ same t ∧ (torn s r ≠ [] → partly t) ∧
         (torn s r = [] → Gone t r ∧ ∀ k, (t.ctl cl).c.get 0 k = if k = d.reg then
             fit d.ty false (num d.ty (BitVec.ofNat 64 (little d.ty.bytes fun q => placeSeen s r (a + q))))
           else (s.ctl cl).c.get 0 k)) ∧
     (∀ id ln a n, r.kind = .copyIn id [(ln, a, n)] →
       ∃ t, exec (.loadDataReturn r.id) s = .next t ∧ same t ∧ t.cores = s.cores ∧ (torn s r ≠ [] → partly t) ∧
         (torn s r = [] → ∃ q ∈ t.reqs, q.id = r.id ∧ q.st = .sent ∧
           q.kind = .arrive id [(ln, (List.range n).map fun k => placeSeen s r (a + k))]))))

/-- R68, R144, R145, R254, R261, R359: a write that is next in its order puts its bytes where it goes: through its page's
leaf, into its context's Pond region, or at a word of a scratchpad; all of them, or those of some of its words first and
the others later. A block of an outbound copy does so with the bytes of its team's scratchpad, and is done with the last
of them. A doorbell raises its queue's write pointer and wakes a queue that is not resident; a message acts on its
byte-count object. -/
def Obligations.WritesArePerformed : Prop :=
  (∀ (s : State) (r : Req) (l : Leaf) (bs : List (Nat × Byte)), AtLeaf s r l → r.kind = .store bs → near l → Whole s l r.va →
    Unjoined s r → (∀ p i, r.src ≠ .away p i) → r.va % 32 = 0 → (bs.map Prod.fst).Nodup →
    (∀ b ∈ bs, b.1 < 32) →
    ∃ t, exec (.writePerform r.id) s = .next t ∧ (torn s r = [] → Gone t r) ∧
      (torn s r ≠ [] → ∃ q ∈ t.reqs, q.id = r.id ∧ q.kind = .store (bs.filter fun b => !(torn s r).contains ((r.va + b.1) / 4))) ∧
      MemWrote s t l r.va (fun a => if r.va ≤ a ∧ (torn s r = [] ∨ a / 4 ∈ torn s r) then
        (bs.find? fun b => b.1 == a - r.va).map Prod.snd else none)) ∧
  (∀ (s : State) (r : Req) (bs : List (Nat × Byte)) (c : Nat), s.req? r.id = some r → s.canServe r = true → r.tgt = .bank c →
    r.kind = .store bs → (∀ p i, r.src ≠ .away p i) → Unjoined s r → (bs.map Prod.fst).Nodup →
    ∃ t, exec (.writePerform r.id) s = .next t ∧ SameMemory s t ∧ (torn s r = [] → Gone t r) ∧
      (torn s r ≠ [] → ∃ q ∈ t.reqs, q.id = r.id ∧ q.kind = .store (bs.filter fun b => !(torn s r).contains ((r.va + b.1) / 4))) ∧
      (∀ a, (t.core c).scratch.get 0 a =
        ((if r.va ≤ a ∧ (torn s r = [] ∨ a / 4 ∈ torn s r) then (bs.find? fun b => b.1 == a - r.va).map Prod.snd else none).getD
          ((s.core c).scratch.get 0 a)))) ∧
  (∀ (s : State) (r : Req) (v : Dword) (n q : Nat) (x : Queue), s.req? r.id = some r → s.canServe r = true → r.tgt = .part n →
    r.kind = .doorbell v → (∀ p i, r.src ≠ .away p i) → s.bellOf r.ctx r.va = some q → s.queues.look q = some x →
    ∃ t, exec (.writePerform r.id) s = .next t ∧ Gone t r ∧ (t.queue q).wptr = max x.wptr v.toNat ∧ (t.queue q).rptr = x.rptr ∧
      (x.st = .unmapped → q ∈ t.wake) ∧
      (t.queue q).err = (if x.err = 0 ∧ x.rptr + 2 ^ x.n < v.toNat then 2 else x.err)) ∧
  (∀ (s : State) (r : Req) (op : Nat) (v : Word) (c : Nat), s.req? r.id = some r → s.canServe r = true → r.tgt = .bank c →
    r.kind = .barb op v → (op = 0 ∨ op = 1) → (∀ p i, r.src ≠ .away p i) → Unjoined s r →
    ∃ t, exec (.writePerform r.id) s = .next t ∧ Gone t r ∧ SameMemory s t ∧
      (∀ a, a < r.va ∨ r.va + 16 ≤ a → (t.core c).scratch.get 0 a = (s.core c).scratch.get 0 a) ∧
      (op = 0 → word t c r.va = v.toNat ∧ word t c (r.va + 4) = v.toNat ∧ word t c (r.va + 8) = 0) ∧
      (op = 1 → (word t c r.va, word t c (r.va + 8)) =
          (if word s c (r.va + 4) = 0 ∨ v = 0 then (word s c r.va, word s c (r.va + 8))
           else arriving (v.toNat + 2) v.toNat (word s c r.va) (word s c (r.va + 4)) (word s c (r.va + 8))) ∧
        word t c (r.va + 4) = word s c (r.va + 4))) ∧
  (∀ (s : State) (r : Req) (bs : List (Nat × Byte)) (n : Nat), s.req? r.id = some r → s.canServe r = true → r.tgt = .pond n →
    r.kind = .store bs → (∀ p i, r.src ≠ .away p i) → Unjoined s r → (bs.map Prod.fst).Nodup →
    ∃ t, exec (.writePerform r.id) s = .next t ∧ (torn s r = [] → Gone t r) ∧
      (torn s r ≠ [] → ∃ q ∈ t.reqs, q.id = r.id ∧ q.kind = .store (bs.filter fun b => !(torn s r).contains ((r.va + b.1) / 4))) ∧
      PlaceWrote s t r (fun a => if r.va ≤ a ∧ (torn s r = [] ∨ a / 4 ∈ torn s r) then
        (bs.find? fun b => b.1 == a - r.va).map Prod.snd else none)) ∧
  (∀ (s : State) (r : Req) (id c sl tm ln a n : Nat) (k : Copy) (y : LaneBlk), r.kind = .copyOut id [(ln, a, n)] → r.src = .team c sl tm →
    NoJoin s c sl tm → (s.team c sl tm).copies.find? (fun k => k.id == id) = some k → k.blks.find? (fun y => y.lane == ln) = some y →
    y.addr ≤ a → r.va ≤ a →
    (let f := fun x => if torn s r = [] ∨ x / 4 ∈ torn s r then outByte s c sl tm y a n x else none
     let left := fun (t : State) =>
       (torn s r = [] → Gone t r ∧ ∀ z ∈ (t.team c sl tm).copies, z.id = id → ∀ b ∈ z.blks, b.lane = ln → b.done = true) ∧
       (torn s r ≠ [] → ∃ q ∈ t.reqs, ∃ bs, q.id = r.id ∧ q.kind = .copyOut id bs ∧
         ∀ w, (∃ b ∈ bs, w ∈ wordsIn b.2.1 b.2.2) ↔ w ∈ wordsIn a n ∧ w ∉ torn s r)
     (∀ l, AtLeaf s r l → near l → Whole s l r.va → r.va % 32 = 0 → a + n ≤ r.va + 32 →
       ∃ t, exec (.writePerform r.id) s = .next t ∧ left t ∧ MemWrote s t l r.va f) ∧
     (AtPlace s r → ∃ t, exec (.writePerform r.id) s = .next t ∧ left t ∧ PlaceWrote s t r f)))

/-- R157 to R159, R249, R250: an atomic that is next at its partition leaves in its first word the merged operation of the
lanes that name it, and gives each lane of an `ATOM` the value before its own; a packed addition takes two steps, the low
half first. Its other words are left for later; with none left it is gone. At a Pond partition it is the same; at another
core's bank every operation takes one step. -/
def Obligations.AtomicsArePerformed : Prop :=
  (∀ (s : State) (r : Req) (l : Leaf) (op : AOp) (ty : Ty) (a0 : Nat) (ls : List (Nat × Dword × Dword)) (rest : List (Nat × ALanes))
    (ret : Option Nat) (beat : Nat) (vals : List (Nat × Dword)) (c sl tm : Nat),
    AtLeaf s r l → r.kind = .atomic op ty ((a0, ls) :: rest) ret beat vals → near l → Whole s l a0 → (s.readG l a0 ty.bytes).2.1 = false →
    r.src = .team c sl tm → NoJoin s c sl tm → a0 % ty.bytes = 0 → (ls.map Prod.fst).Nodup → ls ≠ [] →
    (∀ d, ret = some d → d + (if ty.is64 then 2 else 1) ≤ 256) → ty ∈ op.types →
    (let old : Dword := BitVec.ofNat 64 (little ty.bytes fun q => memByte s l (a0 + q))
     let half := fun (z : Dword) q => (z >>> (8 * q)).setWidth 8
     let left := fun (t : State) => (rest = [] → Gone t r) ∧
       (rest ≠ [] → ∃ q ∈ t.reqs, q.id = r.id ∧ q.kind = .atomic op ty rest ret 0 [])
     ((ty ≠ .bx2 ∧ ty ≠ .hx2 ∧ beat = 0) →
       ∃ t, exec (.atomicPerform r.id) s = .next t ∧ left t ∧
         MemWrote s t l a0 (fun a => if a0 ≤ a ∧ a < a0 + ty.bytes then some (half (lanesMerged op ty old ls) (a - a0)) else none) ∧
         (∀ d, ret = some d → ∀ y ∈ ls, ∃ before, before ++ [y] <+: ls ∧
           (let z := fit ty false (num ty (lanesAfter op ty old before))
            (t.team c sl tm).v.get 0 (y.1 * 256 + d) = z.setWidth 32 ∧
            (ty.is64 = true → (t.team c sl tm).v.get 0 (y.1 * 256 + d + 1) = (z >>> 32).setWidth 32))) ∧
         (ret = none → (t.team c sl tm).v = (s.team c sl tm).v)) ∧
     ((ty = .bx2 ∨ ty = .hx2) → op = .add → beat = 0 →
       ∃ t, exec (.atomicPerform r.id) s = .next t ∧ (t.team c sl tm).v = (s.team c sl tm).v ∧
         MemWrote s t l a0 (fun a => if a0 ≤ a ∧ a < a0 + 2 then some (half (lanesMerged op ty old ls) (a - a0)) else none) ∧
         (∃ q ∈ t.reqs, q.id = r.id ∧ q.kind = .atomic op ty ((a0, ls) :: rest) ret 1 [(0, old)])) ∧
     ((ty = .bx2 ∨ ty = .hx2) → op = .add → beat = 1 →
       ∃ t, exec (.atomicPerform r.id) s = .next t ∧ left t ∧
         MemWrote s t l a0 (fun a => if a0 + 2 ≤ a ∧ a < a0 + 4 then some (half (lanesMerged op ty old ls) (a - a0)) else none)))) ∧
  (∀ (s : State) (r : Req) (op : AOp) (ty : Ty) (a0 : Nat) (ls : List (Nat × Dword × Dword)) (rest : List (Nat × ALanes))
    (ret : Option Nat) (beat : Nat) (vals : List (Nat × Dword)) (c sl tm : Nat),
    AtPlace s r → r.kind = .atomic op ty ((a0, ls) :: rest) ret beat vals → r.src = .team c sl tm → NoJoin s c sl tm →
    (ls.map Prod.fst).Nodup → ls ≠ [] → (∀ d, ret = some d → d + (if ty.is64 then 2 else 1) ≤ 256) → ty ∈ op.types →
    (let old : Dword := BitVec.ofNat 64 (little ty.bytes fun q => placeByte s r (a0 + q))
     let packed := ty = .bx2 ∨ ty = .hx2
     let put := fun (t : State) (lo hi : Nat) => PlaceWrote s t r (fun a => if a0 + lo ≤ a ∧ a < a0 + hi then
       some ((lanesMerged op ty old ls >>> (8 * (a - a0))).setWidth 8) else none)
     let left := fun (t : State) => (rest = [] → Gone t r) ∧
       (rest ≠ [] → ∃ q ∈ t.reqs, q.id = r.id ∧ q.kind = .atomic op ty rest ret 0 [])
     ((beat = 0 ∧ (¬ packed ∨ ∃ k, r.tgt = .bank k)) →
       ∃ t, exec (.atomicPerform r.id) s = .next t ∧ left t ∧ put t 0 ty.bytes ∧
         (¬ packed → ∀ d, ret = some d → ∀ y ∈ ls, ∃ before, before ++ [y] <+: ls ∧
           (let z := fit ty false (num ty (lanesAfter op ty old before))
            (t.team c sl tm).v.get 0 (y.1 * 256 + d) = z.setWidth 32 ∧
            (ty.is64 = true → (t.team c sl tm).v.get 0 (y.1 * 256 + d + 1) = (z >>> 32).setWidth 32))) ∧
         (ret = none → (t.team c sl tm).v = (s.team c sl tm).v)) ∧
     (∀ n, packed → r.tgt = .pond n → beat = 0 →
       ∃ t, exec (.atomicPerform r.id) s = .next t ∧ (t.team c sl tm).v = (s.team c sl tm).v ∧ put t 0 2 ∧
         ∃ q ∈ t.reqs, q.id = r.id ∧ q.kind = .atomic op ty ((a0, ls) :: rest) ret 1 [(0, old)]) ∧
     (∀ n, packed → r.tgt = .pond n → beat = 1 →
       ∃ t, exec (.atomicPerform r.id) s = .next t ∧ left t ∧ put t 2 4)))

/-- R134, R150, R151, R255, R256: a release whose earlier accesses are done goes on, or sends the writes that it held, which
join the end of the issue order; an `ACP` that is complete lowers its tag's count and wakes the `ACWAIT` it satisfies:
that goes on, and the copies that it covers retire. -/
def Obligations.ReleasesAndCopiesComplete : Prop :=
  (∀ (s : State) (c sl e : Nat) (x : Entry) (w : List Nat) (acq : Bool), c < 256 → s.entry? c sl e = some x →
    x.st = .asleep (.release w acq none) →
    (let src := Src.team c sl x.team
     s.teamWrites src = [] → s.teamRefused src = [] → s.entryLoads src e = [] →
     ∃ t, exec (.releaseComplete c sl e) s = .next t ∧ SameTeam s t c sl e ∧ SameMemory s t ∧
       (w = [] → (t.entry c sl e).pc = x.npc ∧ (∀ z, (t.entry c sl e).st ≠ .asleep z) ∧ (acq = true → (t.core c).l1 = [])) ∧
       (w ≠ [] → (t.entry c sl e).st = .asleep (.writes w) ∧ (t.entry c sl e).pc = x.pc ∧
         t.reqs = (s.reqs.filter fun q => !w.contains q.id) ++
           (s.reqs.filter fun q => w.contains q.id).zipIdx.map fun (q : Req × Nat) => { q.1 with st := .sent, age := s.ids + q.2 }))) ∧
  (∀ (s : State) (cl sl e : Nat) (w : List Nat) (acq : Bool), (s.ctl cl).st = .asleep (.release w acq false) →
    s.teamWrites (.control cl) = [] → s.teamRefused (.control cl) = [] → s.entryLoads (.control cl) 0 = [] →
    ∃ t, exec (.releaseComplete (256 + cl) sl e) s = .next t ∧ (t.ctl cl).c = (s.ctl cl).c ∧ SameMemory s t ∧
      (w = [] → (t.ctl cl).pc = (s.ctl cl).npc ∧ (∀ z, (t.ctl cl).st ≠ .asleep z) ∧ (acq = true → (t.ctl cl).dcache = [])) ∧
      (w ≠ [] → (t.ctl cl).st = .asleep (.writes w) ∧
        t.reqs = (s.reqs.filter fun q => !w.contains q.id) ++
          (s.reqs.filter fun q => w.contains q.id).zipIdx.map fun (q : Req × Nat) => { q.1 with st := .sent, age := s.ids + q.2 })) ∧
  (∀ (s : State) (c sl tm : Nat) (tag : BitVec 2) (y : Team) (k : Copy) (pre post : List Copy), (s.slot c sl).teams.look tm = some y →
    y.copies = pre ++ k :: post → (∀ z ∈ pre, z.tag = tag.toNat → z.counted = true) → k.tag = tag.toNat → k.counted = false →
    (∀ z ∈ k.blks, z.done = true) → (∀ x ∈ (s.slot c sl).entries, ∀ g n, x.2.st ≠ .asleep (.copies g n)) →
    (∀ z ∈ post, z.tag = tag.toNat → z.counted = false ∧ ∃ b ∈ z.blks, b.done = false) →
    ∃ t, exec (.acpComplete c sl tm tag) s = .next t ∧ SameMemory s t ∧
      t.team c sl tm = { y with copies := pre ++ { k with counted := true } :: post }) ∧
  (∀ (s : State) (c sl e tm n : Nat) (tag : BitVec 2) (x : Entry) (y : Team) (k : Copy) (pre post : List Copy),
    (s.slot c sl).teams.look tm = some y → y.copies = pre ++ k :: post → (∀ z ∈ pre, z.tag = tag.toNat → z.counted = true) →
    k.tag = tag.toNat → k.counted = false → (∀ z ∈ k.blks, z.done = true) →
    (∀ z ∈ post, z.tag = tag.toNat → z.counted = false ∧ ∃ b ∈ z.blks, b.done = false) →
    s.entry? c sl e = some x → x.team = tm → x.st = .asleep (.copies tag.toNat n) →
    (∀ z ∈ (s.slot c sl).entries, z.2.team = tm → z.1 ≠ e → ∀ g m, z.2.st ≠ .asleep (.copies g m)) →
    (y.copies.filter fun z => z.tag == tag.toNat && !z.counted).length = n + 1 → (∀ z ∈ y.copies, z.failed = none) →
    (y.copies.map Copy.id).Nodup →
    (let after := pre ++ { k with counted := true } :: post
     let under := fun (l : List Copy) => l.filter fun z => z.tag == tag.toNat
     ∃ t, exec (.acpComplete c sl tm tag) s = .next t ∧ SameMemory s t ∧ SameTeam s t c sl e ∧ (t.entry c sl e).pc = x.npc ∧
       (∀ w, (t.entry c sl e).st ≠ .asleep w) ∧
       under (t.team c sl tm).copies = (under after).drop ((under after).length - n) ∧
       ((t.team c sl tm).copies.filter fun z => z.tag != tag.toNat) = after.filter fun z => z.tag != tag.toNat))

/-- R121, R125, R130, R377: a walk that finds a leaf gives the request's partition its translation; one that finds no leaf
parks the access behind the requests already there, and the page is reported. R131, R360, R376 to R379: a report of a page
that the driver decides becomes a record; firmware posts the oldest record into the ring and interrupts the host; a write
replayed reaches its page; a refusal and a lease violation leave nothing parked on the page, and a lease violation ends
its launches and halts their queues. R136, R137, R380: a far access that its page grants and that gets no completion: a
load completes with poison, marked in the lanes of its destination, and a write is refused with LINKDOWN; the first one of
its context in a second of the module's time (log entry 76) is recorded with its sector. That `DENY` of a page is decided
before its report is refused follows log entry 64. That a far timeout's record is posted for the first access of each
context in a second is the model's choice (log entry 60): the rule speaks of the first sector of each second. -/
def Obligations.WalksParksAndTimeoutsResolve : Prop :=
 (∀ (s s1 : State) (r : Req), s.req? r.id = some r → r.tgt = .part (partOf r.va) → s.canServe r = true →
    (s.part (partOf r.va)).tlb.look (tlbKey r.ctx r.va) = none → s.pageHeld r = false → r.kind.isHint = false →
    (∀ id xs, r.kind ≠ .arrive id xs) → s.bellOf r.ctx r.va = none →
    (∀ l, s.walk r.ctx r.va = (.leaf l, s1) → s1.synonym l r.va = false →
      ∃ t, exec (.translationWalk r.id) s = .next t ∧ t.reqs = s.reqs.map (fun q => if q.id == r.id then { r with long := true } else q) ∧
        (t.part (partOf r.va)).tlb.look (tlbKey r.ctx r.va) = some l ∧ t.dram = s1.dram ∧ t.cores = s.cores ∧ t.reports = s.reports) ∧
    (s.walk r.ctx r.va = (.absent, s1) →
      ∃ t k, exec (.translationWalk r.id) s = .next t ∧
        t.reqs = (s.reqs.filter fun q => q.id != r.id) ++ [{ r with long := true, st := .parked k }] ∧ t.dram = s1.dram ∧ t.cores = s.cores ∧
        ∃ y ∈ t.reports, y.ctx = r.ctx ∧ y.page = r.va / 65536)) ∧
 ((∀ (s s1 : State) (n : Nat) (y : Report), s.reports.find? (fun r => r.id == n) = some y → y.cls ≠ 0 → y.posted = false → y.replay = false → y.deny = none →
    s.walk y.ctx (y.page * 65536) = (.absent, s1) → (y.cls = 2 ∨ (s1.ctxOf y.ctx).desc.policy = true) →
    ∃ t q, exec (.faultReport n) s = .next t ∧ (t.ctxOf y.ctx).fqHeld = (s.ctxOf y.ctx).fqHeld ++ [q] ∧
      q.kind = (if y.cls = 2 then 2 else 1) ∧ q.va = BitVec.ofNat 64 (y.page * 65536) ∧ q.ctx = y.ctx ∧ q.pc = y.pc ∧ q.win = y.win ∧
      q.seq = (s.ctxOf y.ctx).fqSeq ∧ (∀ z ∈ t.reports, z.id = n → z.posted = true) ∧ t.reqs = s.reqs) ∧
  (∀ (s : State) (ctx : Nat) (r : FqRec) (rest : List FqRec),
    (let x := s.ctxOf ctx
     let size := 2 ^ (x.desc.fqlog2 + 6)
     x.fqHeld = r :: rest → x.fqW - natOfBytes (readBytes s.hostMem (x.desc.fq + 8) 8) < size → x.fqW + 1 < 2 ^ 64 →
     r.kind < 256 → r.win < 256 → r.ctx < 2 ^ 16 → r.part < 64 →
     ∃ t, exec (.faultRecordPost ctx) s = .next t ∧ t = { s with hostMem := t.hostMem, msix := s.msix ++ [8], ctxs := t.ctxs, ports := t.ports } ∧
       t.ctxOf ctx = { x with fqHeld := rest, fqW := x.fqW + 1 } ∧ natOfBytes (readBytes t.hostMem x.desc.fq 8) = x.fqW + 1 ∧
       natOfBytes (readBytes t.hostMem (x.desc.fq + 64 + 32 * (x.fqW % size)) 32) =
         r.kind + 2 ^ 8 * r.win + 2 ^ 16 * r.ctx + 2 ^ 32 * r.va.toNat + 2 ^ 96 * r.pc.toNat + 2 ^ 128 * r.team.toNat +
           2 ^ 192 * r.version.toNat + 2 ^ 200 * r.part + 2 ^ 206 * r.cause.toNat + 2 ^ 214 * r.ocause.toNat + 2 ^ 224 * r.seq.toNat)) ∧
  (∀ (s s1 s2 : State) (ctx page c sl tm : Nat) (l0 l : Leaf) (r : Req) (bs : List (Nat × Byte)) (k : Nat),
    (∃ y ∈ s.reports, y.ctx = ctx ∧ y.page = page ∧ y.replay = true) →
    s.walk ctx (page * 65536) = (.leaf l0, s1) → s1.parkedOn ctx page = [r] → s1.translate ctx r.va r.met = (.ok l, s2) →
    r.kind = .store bs → r.src = .team c sl tm → r.st = .parked k → r.tgt = .part (partOf r.va) → r.va % 32 = 0 → (bs.map Prod.fst).Nodup →
    (∀ b ∈ bs, b.1 < 32) → NoJoin s2 c sl tm → near l → Whole s2 l r.va → s2.retraining l r.va = false →
    s2.grants ctx r.va l .w = true → s2.linkDown l = false →
    ∃ t, exec (.replay ctx page) s = .next t ∧ Gone t r ∧ (∀ y ∈ t.reports, ¬ (y.ctx = ctx ∧ y.page = page)) ∧
      MemWrote s2 t l r.va (fun a => if r.va ≤ a then (bs.find? fun b => b.1 == a - r.va).map Prod.snd else none)) ∧
  (∀ (s : State) (ctx page : Nat) (y : Report) (cause : BitVec 8),
    s.reports.find? (fun r => r.ctx == ctx && r.page == page) = some y → y.deny = some cause →
    ∃ t, exec (.refuse ctx page) s = .next t ∧ t.parkedOn ctx page = [] ∧ (∀ z ∈ t.reports, z.id ≠ y.id)) ∧
  (∀ (s : State) (ctx page : Nat) (y : Report), s.reports.find? (fun r => r.ctx == ctx && r.page == page && r.cls == 0) = some y →
    ∃ t, exec (.leaseViolation ctx page) s = .next t ∧ t.parkedOn ctx page = [] ∧ (∀ z ∈ t.reports, z.id ≠ y.id) ∧
      (∀ z ∈ y.lids, (t.launchOf z.1).ended = some 6 ∧
        ∀ q, s.queues.look (s.launchOf z.1).qid = some q → (t.queue (s.launchOf z.1).qid).err ≠ 0))) ∧
 (∀ (s : State) (r : Req) (l : Leaf) (n c sl tm : Nat), s.req? r.id = some r → r.tgt = .part n →
    (s.part n).tlb.look (tlbKey r.ctx r.va) = some l → Leaf.far l = true → s.canServe r = true →
    s.grants r.ctx r.va l r.kind.right = true → s.pageHeld r = false → s.bellOf r.ctx r.va = none →
    s.lineHit (blockNo n l (halfOf l r.va)) = false → r.src = .team c sl tm → NoJoin s c sl tm →
    (let told := fun (t : State) => if (s.ctxOf r.ctx).farSec = some s.second then (t.ctxOf r.ctx).fqHeld = (s.ctxOf r.ctx).fqHeld else
       (t.ctxOf r.ctx).farSec = some s.second ∧ ∃ q, (t.ctxOf r.ctx).fqHeld = (s.ctxOf r.ctx).fqHeld ++ [q] ∧ q.kind = 5 ∧
         q.va = BitVec.ofNat 64 (r.va / 32 * 32) ∧ q.pc = r.pc
     (∀ d acq, r.kind = .load d acq → d.cls = .v →
       ∃ t, exec (.farTimeout r.id) s = .next t ∧ Gone t r ∧ SameMemory s t ∧ (t.team c sl tm).v = (s.team c sl tm).v ∧ told t ∧
         ∀ y ∈ d.lanes, ∀ j, j < (if d.ty.is64 then 2 else 1) * d.n →
           ∃ m ∈ (t.team c sl tm).marks, m.cls = .v ∧ m.reg = d.reg + j ∧ m.lane = y.1 ∧ m.cause = 0x0B) ∧
     (∀ bs, r.kind = .store bs →
       ∃ t k, exec (.farTimeout r.id) s = .next t ∧ SameMemory s t ∧ told t ∧ ∃ q ∈ t.reqs, q.id = r.id ∧ q.st = .refused 0x0F k)))

/-! ### Events of the engines (chapters 04 and 11) -/

/-- R95, R263, R268, R279 to R283, R287 to R293: a unit of work of an engine command on a core. `MX.SWAP` exchanges the
planes; `MX.ZERO` clears an accumulator row; `MX.STRM` adds or writes the trees of a streamed row; `MX.LDS` loads a pair
of rows into the shadow plane; `MX.DRN` and `TX.LD` write scratchpad; `TX.ST` reads its element and then writes it. When
every unit is done the command is gone, and a stream that waited for it alone goes on. The size of a unit of work is the
model's choice (log entry 17), as is that a `TX.ST` element is read and written in two events (log entry 40). -/
def Obligations.EngineUnitsAndFinish : Prop :=
  (∀ (s : State) (cl k u pid : Nat) (m : Cmd) (pre post : List Cmd), (s.ctl cl).cmds = pre ++ m :: post →
    (∀ x ∈ pre, x.eseq ≠ m.eseq ∧ k ∉ x.cores) → m.finished = false → m.parcels.find? (fun p => p.1 == k) = some (k, pid) →
    u = (m.done.filter fun d => d.1 == k).length → (k, u) ∉ m.done → (∀ r ∈ s.reqs, r.src ≠ .engine cl m.lid m.eseq) →
    (s.parcel pid).core = 16 * cl + k → (s.parcel pid).image = none →
    (let ev := Instr.engineArrival cl m.eseq k u
     let c := 16 * cl + k
     let mx := (s.core c).mx
     let scr := fun (x : State) (n : Nat) => (x.core c).scratch.get 0 ((s.parcel pid).base + n)
     let isDone := fun (t : State) => ∃ z ∈ (t.ctl cl).cmds, z.lid = m.lid ∧ z.eseq = m.eseq ∧ (k, u) ∈ z.done
     (m.op = .swap → u = 0 →
       ∃ t, exec ev s = .next t ∧ isDone t ∧ t.core c = { s.core c with mx := { mx with active := mx.shadow, shadow := mx.active } } ∧
         SameMemory s t) ∧
     (∀ row0 n, m.op = .zero row0 n → u < n →
       ∃ t, exec ev s = .next t ∧ isDone t ∧ SameMemory s t ∧ (t.core c).mx.active = mx.active ∧ (t.core c).mx.shadow = mx.shadow ∧
         ∀ r o, o < 64 → mx.acc.rising = true →
           (t.core c).mx.acc.get 0 (64 * r + o) = if r = row0 + u then 0 else mx.acc.get 0 (64 * r + o)) ∧
     (∀ alg lst acc row0 src p n, m.op = .strm alg lst acc row0 src p n → u < n → alg.k = 1 → alg.tab.get 0 0 = 0b01000 →
       mx.active.hasMeta = false →
       ∃ t, exec ev s = .next t ∧ isDone t ∧ SameMemory s t ∧ (t.core c).mx.active = mx.active ∧ (t.core c).mx.shadow = mx.shadow ∧
         (∀ r o, o < 64 → (t.core c).mx.acc.get 0 (64 * r + o) =
           if r = row0 + u then
             (let v := mxTree ((List.range 64).map fun q =>
                let a := little 2 fun b => scr s (src + u * p + 2 * q + b)
                let w := (mx.active.el.get 0 (64 * q + o)).toNat
                if lst then mxMul w a else mxMul a w)
              BitVec.ofNat 32 (if acc then mxAdd (mx.acc.get 0 (64 * r + o)).toNat v else v))
           else mx.acc.get 0 (64 * r + o))) ∧
     (∀ w img p, m.op = .lds w img p → u < 32 →
       ∃ t, exec ev s = .next t ∧ isDone t ∧ SameMemory s t ∧ (t.core c).mx.active = mx.active ∧ (t.core c).mx.acc = mx.acc ∧
         (∀ q, (t.core c).mx.shadow.el.get 0 q = if 128 * u ≤ q ∧ q < 128 * u + 128 then
             BitVec.ofNat 16 (little 2 fun b => scr s (img + u * p + 2 * (q - 128 * u) + b))
           else mx.shadow.el.get 0 q)) ∧
     (∀ row0 n dst p, m.op = .drn .f32 row0 n dst p none → u < n →
       ∃ t, exec ev s = .next t ∧ isDone t ∧ SameMemory s t ∧ (t.core c).mx = mx ∧
         (∀ o q, o < 64 → q < 4 → scr t (dst + u * p + 4 * o + q) = ((mx.acc.get 0 (64 * (row0 + u) + o)) >>> (8 * q)).setWidth 8) ∧
         (∀ a, a < (s.parcel pid).base + dst + u * p ∨ (s.parcel pid).base + dst + u * p + 256 ≤ a →
           (t.core c).scratch.get 0 a = (s.core c).scratch.get 0 a)) ∧
     (∀ sh o bs s1, m.op = .ld sh .b32 o none → u < sh.count → m.vals.look u = none → (∀ d ∈ m.denied, d.1 ≠ u) →
       bs.length = 2 ^ sh.esz.toNat →
       s.engineRead (s.launchOf m.lid).ctx (sh.global u) (2 ^ sh.esz.toNat) m.met = (.ok bs, s1) →
       ∃ t, exec ev s = .next t ∧ isDone t ∧
         (∀ q, q < 2 ^ sh.esz.toNat → scr t (o + sh.local (2 ^ sh.esz.toNat) u + q) = bs.getD q 0) ∧
         (∀ a, a < (s.parcel pid).base + o + sh.local (2 ^ sh.esz.toNat) u ∨
             (s.parcel pid).base + o + sh.local (2 ^ sh.esz.toNat) u + 2 ^ sh.esz.toNat ≤ a →
           (t.core c).scratch.get 0 a = (s1.core c).scratch.get 0 a)) ∧
     (∀ sh o, m.op = .st sh .b32 o none → u < sh.count → m.vals.look u = none →
       ∃ t, exec ev s = .next t ∧ SameMemory s t ∧ SameScratch s t ∧ ∃ z ∈ (t.ctl cl).cmds, z.lid = m.lid ∧ z.eseq = m.eseq ∧
         ∃ bs, z.vals.look u = some bs ∧ bs.length = 2 ^ sh.esz.toNat ∧
           ∀ q, q < 2 ^ sh.esz.toNat → bs[q]? = some (scr s (o + sh.local (2 ^ sh.esz.toNat) u + q))) ∧
     (∀ sh o bs l s1, m.op = .st sh .b32 o none → u < sh.count → m.vals.look u = some bs → (∀ d ∈ m.denied, d.1 ≠ u) →
       (let x := (s.launchOf m.lid).ctx
        let va := sh.global u
        s.windowOk x va bs.length .plainW = true → (s.launchOf (s.parcel pid).lid).grid.pair = false → s.bellOf x va = none →
        s.translate x va m.met = (.ok l, s1) → s1.grants x va l .w = true → s1.linkDown l = false → s1.pageWaits x va l = false →
        s1.beatHolds va bs.length = false → near l → Whole s1 l va → va % 32 + bs.length ≤ 32 →
        ∃ t, exec ev s = .next t ∧ isDone t ∧ SameScratch s t ∧
          MemWrote s1 t l va (fun a => if va ≤ a then bs[a - va]? else none))))) ∧
  (∀ (s : State) (cl : Nat) (m : Cmd) (pre post : List Cmd), (s.ctl cl).cmds = pre ++ m :: post → (∀ x ∈ pre, x.eseq ≠ m.eseq) →
    (∀ x ∈ post, x.eseq ≠ m.eseq) → m.finished = false → m.failed = none →
    (∀ k ∈ m.cores, m.units ≤ (m.done.filter fun d => d.1 == k).length) →
    ((∀ mask leave, (s.ctl cl).st ≠ .asleep (.fence mask leave)) →
      ∃ t, exec (.engineCommandFinish cl m.eseq) s = .next t ∧ (t.ctl cl).cmds = pre ++ post ∧ (t.ctl cl).c = (s.ctl cl).c ∧ SameMemory s t) ∧
    ((s.ctl cl).st = .asleep (.fence none false) → pre = [] → post = [] →
      ∃ t, exec (.engineCommandFinish cl m.eseq) s = .next t ∧ (t.ctl cl).cmds = [] ∧ (t.ctl cl).pc = (s.ctl cl).npc ∧
        (t.ctl cl).c = (s.ctl cl).c ∧ (∀ z, (t.ctl cl).st ≠ .asleep z)))

/-! ### Events of the front end (chapters 14 and 20) -/

/-- R358, R359, R368: an 8-byte write in the doorbell range raises its queue's WPTR and wakes a queue that is not resident,
and any other access there is dropped and counted; a queue of the wake list takes a free slot; a victim leaves its slot in
two steps, one at a time. R361, R364, R365: the next packet of a queue that may start moves RPTR on, past those that had
started before. A `NOP` is complete; a `SIGNAL` has stored its value, or added it, at its word, and the only other bytes
it writes are those of RPTR in the queue's descriptor (log entry 41); `WAIT` and `FETCH_FENCE` complete when their word
compares as they say and stay live otherwise, reading it again. A malformed packet halts its queue. When a `WAIT` reads
again is the schedule's (log entry 58). -/
def Obligations.DoorbellsSlotsAndPacketsProceed : Prop :=
 ((∀ (s : State) (offset bytes : Nat) (v : Dword) (x : Queue), bytes = 8 → offset % 8 = 0 → offset < 32768 →
    s.queues.look (offset / 8) = some x →
    ∃ t, exec (.hostDoorbell offset bytes v) s = .next t ∧ (t.queue (offset / 8)).wptr = max x.wptr v.toNat ∧
      (t.queue (offset / 8)).rptr = x.rptr ∧ (x.st = .unmapped → offset / 8 ∈ t.wake) ∧
      (x.st = .unmapping → (t.queue (offset / 8)).pendwake = true)) ∧
  (∀ (s : State) (offset bytes : Nat) (v : Dword), (bytes ≠ 8 ∨ offset % 8 ≠ 0 ∨ 32768 ≤ offset) →
    ∃ t, exec (.hostDoorbell offset bytes v) s = .next t ∧ t = { s with ports := t.ports, wh := { s.wh with badBells := s.wh.badBells + 1 } }) ∧
  (∀ (s : State) (q i : Nat), s.wakeNext = some q → s.freeSlot = some i →
    ∃ t, exec .queueWakeMap s = .next t ∧ (t.queue q).st = .resident i ∧ t.hwslots.look i = some q ∧ q ∉ t.wake ∧
      (t.queue q).rptr = (s.queue q).rptr ∧ (t.queue q).wptr = (s.queue q).wptr) ∧
  (∀ (s : State) (slot q : Nat), s.hwslots.look slot = some q →
    ((s.queue q).st = .unmapping →
      ∃ t, exec (.queueUnmap slot) s = .next t ∧ (t.queue q).st = .unmapped ∧ t.hwslots.look slot = none ∧
        (t.queue q).rptr = (s.queue q).rptr ∧ (t.queue q).wptr = (s.queue q).wptr ∧ (q ∈ t.wake ↔ q ∈ s.wake ∨ (s.queue q).pendwake = true)) ∧
    (∀ i w, (s.queue q).st = .resident i → s.wakeNext = some w → s.freeSlot = none → s.victim w = some q →
      (∀ y ∈ s.queues, y.2.st ≠ .unmapping) →
      ∃ t, exec (.queueUnmap slot) s = .next t ∧ (t.queue q).st = .unmapping ∧ t.hwslots.look slot = some q ∧
        (t.queue q).rptr = (s.queue q).rptr ∧ (t.queue q).wptr = (s.queue q).wptr))) ∧
 ((let holds := fun (op word value : Nat) => if op = 0 then word = value else if op = 1 then word ≠ value else if op = 2 then word < value
     else value ≤ word
   (∀ (s s1 : State) (q w : Nat), s.nextPacket q = (some w, s1) →
     (let x := s1.queue q
      let moved := fun (t : State) (live : List Pkt) => (t.queue q).rptr = x.after ∧ (x.begun = [] → (t.queue q).rptr = x.rptr + 1) ∧
        (t.queue q).live = x.live ++ live ∧ (t.queue q).err = x.err
      (pktBad w = true → x.err = 0 → (s1.queues.look q).isSome →
        ∃ t, exec (.nopPacket q) s = .next t ∧ (t.queue q).err = 1 ∧ (t.queue q).rptr = x.rptr) ∧
      (pktBad w = false →
        (w % 256 = 0 → ∃ t, exec (.nopPacket q) s = .next t ∧ moved t []) ∧
        (∀ g s2, w % 256 = 2 → s1.signalWord x.ctx (pktAddr w) (pktOp w == 1) (pktValue w) = (.ok g, s2) →
          ∃ t, exec (.signal q) s = .next t ∧ (t.queue q).rptr = (s2.queue q).after ∧ (t.queue q).live = (s2.queue q).live ∧
            (let m := s2.movedOn q []
             let y := s2.queue q
             let at_ := y.desc.toNat + 24
             m.dram = s2.dram ∧ m.basin = s2.basin ∧ m.farMem = s2.farMem ∧ m.hostMem = s2.hostMem ∧ m.pond = s2.pond ∧
             (∀ l m1, m.translate y.ctx at_ = (.ok l, m1) → m1.linkDown l = false → near l → Whole m1 l at_ → at_ % 8 = 0 →
               (∀ r ∈ m1.reqs, r.betweenBeats at_ 8 = false) →
               MemWrote m1 t l at_ (fun a => if at_ ≤ a ∧ a < at_ + 8 then some ((BitVec.ofNat 64 y.after >>> (8 * (a - at_))).setWidth 8) else none)) ∧
             (∀ z m1, m.translate y.ctx at_ = (z, m1) → (∀ l, z ≠ .ok l) → SameMemory m1 t))) ∧
        (∀ (i : Instr) bs s2, ((w % 256 = 3 ∧ i = .wait q) ∨ (w % 256 = 4 ∧ i = .fetchFence q)) →
          s1.engineRead x.ctx (pktAddr w) 8 = (.ok bs, s2) →
          ∃ t, exec i s = .next t ∧
            (holds (pktOp w) (natOfBytes bs) (pktValue w).toNat → moved t [] ∧ (w % 256 = 4 → (t.queue q).early = [])) ∧
            (¬ holds (pktOp w) (natOfBytes bs) (pktValue w).toNat →
              ∃ p, moved t [p] ∧ p.index = x.rptr ∧ p.ty = w % 256 ∧ p.addr.toNat = pktAddr w ∧ p.value = pktValue w ∧ p.op = pktOp w))))) ∧
   (∀ (s s1 : State) (q : Nat) (p : Pkt) (bs : List Byte), (s.queue q).live = [p] → (p.ty = 3 ∨ p.ty = 4) →
     s.engineRead (s.queue q).ctx p.addr.toNat 8 = (.ok bs, s1) →
     ∃ t, exec (.waitReread q) s = .next t ∧ (t.queue q).rptr = (s.queue q).rptr ∧
       (holds p.op (natOfBytes bs) p.value.toNat → (t.queue q).live = [] ∧ (p.ty = 4 → (t.queue q).early = [])) ∧
       (¬ holds p.op (natOfBytes bs) p.value.toNat → (t.queue q).live = [p])) ∧
   (∀ (s s1 : State) (ctx va : Nat) (l : Leaf) (v : Dword), s.windowOk ctx va 8 .w = true → s.bellOf ctx va = none →
     s.translate ctx va = (.ok l, s1) → s1.grants ctx va l .w = true → s1.linkDown l = false → s1.pageWaits ctx va l = false →
     s1.beatHolds va 8 = false → near l → Whole s1 l va → va % 8 = 0 →
     ∃ g t, s.signalWord ctx va false v = (.ok g, t) ∧
       MemWrote s1 t l va (fun a => if va ≤ a ∧ a < va + 8 then some ((v >>> (8 * (a - va))).setWidth 8) else none)) ∧
   (∀ (s s1 : State) (ctx va : Nat) (l : Leaf) (v : Dword), s.windowOk ctx va 8 .rwa = true → s1.windowOk ctx va 8 .rwa = true →
     s1.bellOf ctx va = none → s.translate ctx va = (.ok l, s1) → s1.grants ctx va l .rwa = true → s1.linkDown l = false →
     s1.pageWaits ctx va l = false → s1.beatHolds va 8 = false → near l → Whole s1 l va → (s1.readG l va 8).2.1 = false → va % 8 = 0 →
     (let new : Dword := BitVec.ofNat 64 (little 8 fun q => memByte s1 l (va + q)) + v
      ∃ g t, s.signalWord ctx va true v = (.ok g, t) ∧
        MemWrote s1 t l va (fun a => if va ≤ a ∧ a < va + 8 then some ((new >>> (8 * (a - va))).setWidth 8) else none)))))

/-- R104, R327, R328, R364: `TRANSFER_REQ` makes every sub-team of the launch that is in another version pending and lets
later parcels begin in the named one, and completes when none of them is pending; `ALGEBRA_LOAD` loads its checked record
into its slot, cluster by cluster, and completes with the sixteenth. -/
def Obligations.TransferAndAlgebraPackets : Prop :=
  (∀ (s s1 : State) (q w : Nat), s.nextPacket q = (some w, s1) → pktBad w = false →
    (let x := s1.queue q
     (∀ (l : Launch) (b : BitVec 3), w % 256 = 5 → b = BitVec.ofNat 3 (pktVer w) → pktTgt w < x.rptr →
       s1.launchAt q (pktTgt w) = some l → ((s1.kernel l.kid).version b).present = true → l.st ≠ .complete → l.st ≠ .refused →
       ∃ t p, exec (.transferReq q) s = .next t ∧ (t.queue q).rptr = x.after ∧ (t.queue q).live = x.live ++ [p] ∧ p.ty = 5 ∧
         p.index = x.rptr ∧ p.lid = l.lid ∧ p.addr.toNat = pktAddr w ∧ p.value = pktValue w ∧ p.op = pktOp w ∧
         (t.launchOf l.lid).version = b ∧
         ∀ z ∈ s1.places, (s1.parcel (s1.team z.1 z.2.1 (s1.entry z.1 z.2.1 z.2.2).team).pid).lid = l.lid →
           (t.entry z.1 z.2.1 z.2.2).pend = (if (s1.entry z.1 z.2.1 z.2.2).version = b then none else some b)) ∧
     (∀ bs s2 a, w % 256 = 6 → s1.readSpan x.ctx (pieces (pktAddr w) 64) = (.ok bs, s2) → Algebra.ofRecord (natOfBytes bs) = some a →
       ∃ t p, exec (.algebraLoad q) s = .next t ∧ (t.queue q).rptr = (s2.queue q).after ∧ (t.queue q).live = (s2.queue q).live ++ [p] ∧
         p.ty = 6 ∧ p.alg = a ∧ p.slot = pktTgt w % 8 ∧ p.clusters = []))) ∧
  (∀ (s s1 : State) (q n : Nat) (p : Pkt) (g : List Byte), (s.queue q).live.find? (fun p => p.ty == 5 && p.index == n) = some p →
    s.stillPending q n = false → s.transferSignal (s.queue q).ctx p.addr.toNat (p.op == 1) p.value p.count = (.ok g, s1) →
    ∃ t, exec (.transferReqComplete q n) s = .next t ∧ (t.queue q).live = (s1.queue q).live.filter (fun p => p.index != n) ∧
      (t.queue q).rptr = (s1.queue q).rptr) ∧
  (∀ (s : State) (q cl : Nat) (p : Pkt), (s.queue q).live.find? (fun p => p.ty == 6) = some p → cl < 16 → cl ∉ p.clusters →
    s.ctxOnCluster (s.queue q).ctx cl = false →
    (∀ l ∈ s.launches, l.2.ctx = (s.queue q).ctx → p.lid ≤ l.2.lid ∨ l.2.st = .complete ∨ l.2.st = .refused) →
    ∃ t, exec (.algebraLoadCluster q cl) s = .next t ∧ (t.ctxOf (s.queue q).ctx).alg.look (8 * cl + p.slot) = some p.alg ∧
      (∀ k, k ≠ 8 * cl + p.slot → (t.ctxOf (s.queue q).ctx).alg.look k = (s.ctxOf (s.queue q).ctx).alg.look k) ∧
      (t.queue q).live = if p.clusters.length = 15 then (s.queue q).live.filter (fun z => z.index != p.index)
        else (s.queue q).live.map (fun (z : Pkt) => if z.index = p.index then { z with clusters := p.clusters ++ [cl] } else z))

/-- R163, R266, R332, R361 to R363, R366, R370, R372, R375, R408: a `LAUNCH` that passes its checks starts with the packet's
fields, admitted once every unit of its LEASED windows is leased, and one that fails them halts its queue with code 3; the
distributor starts the next parcel of a launch at the coordinates of its order; a launch whose work has exited completes
with its packet, and one that an unhandled trap has ended halts its queue; one that a lease violation stopped completes
when its writes are performed or refused; two signatures that differ are logged. Which parcel is placed where, and when,
is the schedule's (log entry 23). -/
def Obligations.LaunchesAreAdmittedAndComplete : Prop :=
  (∀ (s s1 : State) (q w : Nat), s.nextPacket q = (some w, s1) → pktBad w = false → w % 256 = 1 → (s1.queue q).err = 0 →
    (s1.queues.look q).isSome →
    (let x := s1.queue q
     let l := pktLaunch x w s1.ids (pktGrid w (s1.kernel (bitsOf w 63 32)))
     (s1.launchBad x l = true →
       ∃ t, exec (.launch q) s = .next t ∧ (t.queue q).err = 3 ∧ (t.queue q).rptr = x.rptr ∧ t.launches = s1.launches) ∧
     (s1.launchBad x l = false →
       ∃ t p, exec (.launch q) s = .next t ∧ (t.queue q).rptr = x.after ∧ (t.queue q).live = x.live ++ [p] ∧ p.ty = 1 ∧ p.lid = s1.ids ∧
         (let y := t.launchOf s1.ids
          ((∀ z ∈ (s1.ctxOf x.ctx).wins, z.2.v = true → z.2.cls ≠ 0) → y.missing = []) ∧
            y.st = (if y.missing = [] then .admitting else .leasing) ∧ y.next = 0 ∧ y.ctx = x.ctx ∧ y.kid = w / 2 ^ 32 % 2 ^ 32 ∧ y.args.toNat = w / 2 ^ 192 % 2 ^ 64 ∧
            y.sigaddr.toNat = w / 2 ^ 256 % 2 ^ 64 ∧ y.sigval.toNat = w / 2 ^ 320 % 2 ^ 64 ∧ y.stack.toNat = w / 2 ^ 384 % 2 ^ 64 ∧
            y.tvec.toNat = w / 2 ^ 448 % 2 ^ 32 ∧ y.stksz = w / 2 ^ 480 % 256 ∧
            (w.testBit 179 = false → y.grid.x = w / 2 ^ 64 % 2 ^ 32 ∧ y.grid.y = w / 2 ^ 96 % 2 ^ 32 ∧ y.grid.z = w / 2 ^ 128 % 2 ^ 32 ∧
              y.version.toNat = w / 2 ^ 169 % 8) ∧
            (w.testBit 179 = true → y.grid = (s1.kernel (bitsOf w 63 32)).grid))))) ∧
  (∀ (s t : State) (lid : Nat) (l : Launch), s.launches.look lid = some l → (s.ctxOf l.ctx).stopped = false → s.wh.stopped = false →
    l.ended = none → l.st = .admitting → s.algHeld l = false → (∀ p ∈ s.parcels, p.2.lid = lid → p.2.st ≠ .flushed) →
    l.next < l.grid.total → s.returning l.ctx = false → s.group l = [l] → s.corNext l.qid (l.pkt + 1) = false →
    s.placeNext lid none = some t →
    exec (.parcelAdmit lid) s = .next t ∧ (t.launchOf lid).next = l.next + 1 ∧
      (l.grid.order = 0 → l.grid.swz = 1 → l.grid.pair = false → 0 < l.grid.x → 0 < l.grid.y →
        ∃ p ∈ t.parcels, p.2.lid = lid ∧ p.2.seq = l.next ∧ p.2.st = .resident ∧ p.2.x = l.next % l.grid.x ∧
          p.2.y = l.next / l.grid.x % l.grid.y ∧ p.2.z = l.next / (l.grid.x * l.grid.y))) ∧
  (∀ (s : State) (lid : Nat) (l : Launch), s.launches.look lid = some l → l.st = .admitting → s.allExited lid = true → l.leased = [] →
    (l.ended = none → l.bad = false → l.sigaddr = 0 →
      ∃ t, exec (.launchComplete lid) s = .next t ∧ (t.launchOf lid).st = .complete ∧ (∀ p ∈ t.parcels, p.2.lid ≠ lid) ∧
        (t.queue l.qid).live = (s.queue l.qid).live.filter (fun p => !(p.ty == 1 && p.lid == lid)) ∧ (t.queue l.qid).err = (s.queue l.qid).err) ∧
    (∀ g s1, l.ended = none → l.bad = false → l.sigaddr ≠ 0 →
      s.signalWord l.ctx l.sigaddr.toNat l.sigadd l.sigval = (.ok g, s1) → s1.launches = s.launches →
      ∃ t, exec (.launchComplete lid) s = .next t ∧ (t.launchOf lid).st = .complete ∧ (∀ p ∈ t.parcels, p.2.lid ≠ lid) ∧
        t.dram = s1.dram ∧ t.basin = s1.basin) ∧
    (∀ why q, l.ended = some why → 0 < why → why < 256 → why ≠ 6 → s.queues.look l.qid = some q → q.err = 0 →
      ∃ t, exec (.launchComplete lid) s = .next t ∧ (t.launchOf lid).st = .complete ∧ (t.queue l.qid).err.toNat = why) ∧
    (l.ended = some 6 → (∀ r ∈ s.reqs, r.lid = lid → r.kind.isWrite = false) →
      ∃ t, exec (.launchComplete lid) s = .next t ∧ (t.launchOf lid).st = .complete ∧ (t.queue l.qid).err = (s.queue l.qid).err) ∧
    (∀ r ∈ s.reqs, l.ended = some 6 → r.lid = lid → r.kind.isWrite = true → r.st = .sent → exec (.launchComplete lid) s = .next s)) ∧
  (∀ (s : State) (lid n : Nat) (a b : Nat × Bool × Dword),
    (let l := s.launchOf lid
     l.sigs.find? (fun x => x.1 == n && !x.2.1) = some a → l.sigs.find? (fun x => x.1 == n && x.2.1) = some b →
     ∃ t, exec (.pairCompare lid n) s = .next t ∧ (t.launchOf lid).sigs = l.sigs.filter (fun x => x.1 != n) ∧
       (a.2.2 = b.2.2 → t.wh = s.wh) ∧
       (a.2.2 ≠ b.2.2 → ∃ r z, [r, z] <:+ t.wh.log ∧ r.cls = 6 ∧ z.cls = 6 ∧ r.addr = a.2.2 ∧ z.addr = b.2.2)))

/-! ### Events of pre-emption (chapter 22) -/

/-- R78, R255, R381 to R386, R389 to R391: a parcel of a stopped context that cannot be flushed, one parked too long while
another waits, and one that has drained too long begin their save, as does one that makes room for another of its context,
which keeps the room; an idempotent one with little done is flushed, and a drain waits for the parcel's end. A quiet
parcel is captured into its image, which has a place in the save area, and leaves its core; its lane copies land in the
image; once the image's bytes are written at that place the parcel is saved; a save past its deadline lets the waiting
retraining begin; a restored parcel has its scratchpad and registers again. Images are kept as records (log entry 22), and
which parcel moves when is the schedule's (log entry 23). That PARKT, SAVEDL and the time of a drain are microseconds
times the present clock (log entry 50), and which parcel of a context makes room for another (log entry 48), is the
model's choice. -/
def Obligations.ParcelsAreSwitchedOutAndRestored : Prop :=
  (∀ (s : State) (pid : Nat) (p : Parcel), s.parcels.look pid = some p → p.st = .resident → p.onCore = true →
    (let l := s.launchOf p.lid
     let now := (s.core p.core).cycle
     let saves := fun (t : State) => (t.parcel pid).st = .saving false now ∧ t.cores = s.cores ∧ t.reqs = s.reqs
     ((s.ctxOf l.ctx).stopped = true → l.grid.idemp = false →
       ∃ t, exec (.parcelSwitchOut pid) s = .next t ∧ saves t) ∧
     ((s.ctxOf l.ctx).stopped = true → l.grid.idemp = true → s.estimate pid < 8192 → p.busy = false →
       ∃ t, exec (.parcelSwitchOut pid) s = .next t ∧ (t.parcel pid).st = .flushed ∧
         ∀ sl tm y, (t.slot p.core sl).teams.look tm = some y → y.pid ≠ pid) ∧
     (∀ y, (s.ctxOf l.ctx).stopped = false → y ∈ s.starved → y.cls < l.cls → 57344 ≤ s.estimate pid →
       ∃ t, exec (.parcelSwitchOut pid) s = .next t ∧ t = { s with parcels := t.parcels } ∧ (t.parcel pid).st = .draining now) ∧
     (∀ sl e x, s.entry? p.core sl e = some x → (s.team p.core sl x.team).pid = pid → x.st = .parked →
       (∃ y ∈ s.starved, s.wantsCore y p.core = true) →
       (let d := (s.ctxOf l.ctx).desc
        x.since + (if d.parkt = 0 then 50 else d.parkt) * s.wh.clock < now) → l.grid.idemp = false → s.estimate pid < 57344 →
       ∃ t, exec (.parkThresholdExpiry p.core sl e) s = .next t ∧ saves t) ∧
     (∀ w, (s.ctxOf l.ctx).stopped = false → (∀ y ∈ s.starved, l.cls ≤ y.cls) → s.makesRoom p = some w → w ≠ pid → l.grid.idemp = false →
       s.estimate pid < 57344 →
       ∃ t, exec (.parcelSwitchOut pid) s = .next t ∧ saves t ∧ (t.parcel w).room = some p.core))) ∧
  (∀ (s : State) (pid since : Nat) (p : Parcel), s.parcels.look pid = some p → p.st = .draining since →
    since + 200 * s.wh.clock ≤ (s.core p.core).cycle →
    ∃ t, exec (.drainTimeout pid) s = .next t ∧ (t.parcel pid).st = .saving false (s.core p.core).cycle ∧ t.cores = s.cores) ∧
  (∀ (s : State) (pid since : Nat) (p : Parcel), s.parcels.look pid = some p → p.st = .saving false since → s.groupOf pid = [pid] →
    (s.kernel (s.launchOf p.lid).kid).hasControl = false → s.refusedTeam [pid] = none → s.quiet pid = true →
    s.ctlQuiet p.lid (clusterOf p.core) = true → (s.core p.core).scratch.rising = true →
    (let n := (s.imageBytes p (s.capture pid pid)).length
     (s.saveRoom (s.launchOf p.lid).ctx pid n = none → exec (.parcelSave pid) s = .next s) ∧
     ∀ a, s.saveRoom (s.launchOf p.lid).ctx pid n = some a →
    ∃ t im, exec (.parcelSave pid) s = .next t ∧ (t.parcel pid).st = .saving true since ∧ (t.parcel pid).image = some im ∧ im.core = p.core ∧ im.place = a ∧ im.room = n ∧
      (∀ k, k < p.scrSize → im.scratch.get 0 k = (s.core p.core).scratch.get 0 (p.base + k)) ∧
      (∀ z ∈ s.teamsOf pid, ∃ y ∈ im.teams, y.team = { s.team p.core z.1 z.2 with late := [], busy := [] } ∧
        y.entries.length = ((s.slot p.core z.1).entriesOf z.2).length) ∧
      (∀ sl tm y, (t.slot p.core sl).teams.look tm = some y → y.pid ≠ pid))) ∧
  (∀ (s : State) (pid since : Nat) (p : Parcel) (im : Image), s.parcels.look pid = some p → p.st = .saving true since → s.imageBusy im = false →
    p.image = some im → (s.imageBytes p im).length ≤ im.room →
    ∃ t, exec (.parcelSave pid) s = .next t ∧ (t.parcel pid).st = .saved ∧ (t.parcel pid).image = some im ∧
      SameMemory (s.writeSave (s.ctxOf (s.launchOf p.lid).ctx).desc im.place (s.imageBytes p im)) t) ∧
  (∀ (s : State) (pid i : Nat) (r : Req) (l : Leaf) (id ln a n : Nat), AtLeaf s r l → near l → r.src = .away pid i →
    r.kind = .copyIn id [(ln, a, n)] → ((chosen s r).readG l r.va 32).2.1 = false → r.va ≤ a → a < r.va + 32 → a + n ≤ r.va + 32 →
    r.va % 32 = 0 →
    ∃ t q, exec (.savedArrival pid r.id) s = .next t ∧ t.parcels = s.parcels ∧ t.cores = s.cores ∧ q ∈ t.reqs ∧ q.id = r.id ∧ q.src = r.src ∧
      (torn s r = [] → q.st = .sent ∧ q.kind = .arrive id [(ln, (List.range n).map fun k => seen (chosen s r) r l (a + k))]) ∧
      (torn s r ≠ [] → q.kind = r.kind ∧ ∀ b, b / 4 ∈ torn s r → (b, memByte (chosen s r) l b) ∈ q.got)) ∧
  (∀ (s : State) (pid i : Nat) (r : Req) (id ln : Nat) (bs : List Byte) (k : Copy) (y : LaneBlk) (im : Image), s.req? r.id = some r →
    s.canServe r = true → r.src = .away pid i → r.kind = .arrive id [(ln, bs)] → (s.copiesOf r.src).find? (fun k => k.id == id) = some k →
    k.blks.find? (fun y => y.lane == ln) = some y → (s.parcel pid).image = some im → y.offs.Nodup → bs.length ≤ y.offs.length →
    ∃ t im', exec (.savedArrival pid r.id) s = .next t ∧ Gone t r ∧ (t.parcel pid).image = some im' ∧
      (∀ q o, y.offs[q]? = some o → im'.scratch.get 0 o = bs.getD q 0) ∧
      (∀ o, o ∉ y.offs → im'.scratch.get 0 o = im.scratch.get 0 o)) ∧
  (∀ (s : State) (pid since k : Nat) (p : Parcel), s.parcels.look pid = some p → p.st = .saving true since → k < 8 → s.wh.trainReq = [k] →
    p.streamsTo k = true →
    (let d := (s.ctxOf (s.launchOf p.lid).ctx).desc
     since + (if d.savedl = 0 then 2000 else d.savedl) * s.wh.clock ≤ (s.core p.core).cycle) →
    ∃ t, exec (.saveDeadlineExpiry pid) s = .next t ∧ t.wh.trainReq = [] ∧ (∀ i, i < 8 → (t.part (8 * k + i)).training = true) ∧
      t.parcels = s.parcels) ∧
  (∀ (s : State) (pid core base b : Nat) (p : Parcel) (im : Image) (y : SavedTeam), s.parcels.look pid = some p → p.pid = pid → p.st = .saved →
    p.image = some im → im.control = none → im.teams = [y] → im.tarn = [] → im.log = [] → (∀ i, i < 16 → ∀ w ∈ (s.port i).ring, w.pid ≠ pid) → im.scratch.rising = true →
    (∀ z ∈ im.scratch, z.1 < p.scrSize) → p.tarn = 0 → core < 256 →
    (let l := s.launchOf p.lid
     (s.kernel l.kid).hasControl = false → (s.kernel l.kid).tarn = 0 → (s.ctxOf l.ctx).stopped = false → s.wh.stopped = false → l.ended = none →
     s.imageDone pid = true → s.goesBack p core = true → s.kept core (some pid) = false →
     s.takesWith l core (im.needs (s.kernel l.kid).teams) = some (base, b) → s.claimed l.cls core = false → (s.core core).scratch.rising = true →
     (∀ e ∈ y.entries, ∀ w, e.st ≠ .asleep w) →
     ∃ t sl pos, exec (.parcelRestore pid core) s = .next t ∧ (t.parcel pid).st = .resident ∧ (t.parcel pid).core = core ∧
       (t.parcel pid).base = base ∧ (t.parcel pid).image = none ∧ t.scan = scanPast core ∧
       (∀ k, k < p.scrSize → (t.core core).scratch.get 0 (base + k) = im.scratch.get 0 k) ∧
       (t.team core sl pos).v = y.team.v ∧ (t.team core sl pos).s = y.team.s ∧ (t.team core sl pos).p = y.team.p ∧
       (t.team core sl pos).fpctl = y.team.fpctl ∧ (t.team core sl pos).index = y.team.index))

/-! ### Events of the ports and of the host (chapters 21 and 24) -/

/-- R139, R163, R359, R387, R388: a peer's load leaves with the bytes of its sector, a store and an atomic change memory at
the routed partition, a packed addition its low half first; a `TX.ST.peer` write lands in its parcel's scratchpad, in its
port's bounce ring where the parcel is away, or is refused, and a full ring withholds the credit of its traffic class; a
host access through the aperture reads or writes memory; a dirty line that leaves the Basin is written back, merged with
the bytes of memory that it does not hold. That a peer and the host pass no window check is the model's reading (log entry
49). That a line is written back under the key that it has kept since it was taken is the model's choice (log entry 77).
That a packed addition waits for its second beat as a request of its own is how the model holds it. -/
def Obligations.AgentsOutsideReachMemory : Prop :=
  (∀ (s s1 : State) (n ctx va : Nat) (l : Leaf), n < 16 → (s.port n).up = true → (s.port n).training = false → s.wh.stopped = false →
    (s.ctxOf ctx).traffic ∉ (s.port n).withheld → near l →
    (∀ g : List Byte, s.agentLeaf ctx (va / 32 * 32) 32 .r = (.ok g, l, s1) → (s1.readG l (va / 32 * 32) 32).2.1 = false →
      ∃ t, exec (.peerAccess n ctx va none none) s = .next t ∧
        (t.port n).out = (s1.port n).out ++ [.data (va / 32 * 32) ((List.range 32).map fun q => memByte s1 l (va / 32 * 32 + q))]) ∧
    (∀ (g bs : List Byte), bs ≠ [] → va % 32 + bs.length ≤ 32 → s.agentLeaf ctx va bs.length .w = (.ok g, l, s1) → Whole s1 l va →
      ∃ t, exec (.peerAccess n ctx va (some bs) none) s = .next t ∧ 0 ∈ (t.port n).acks ∧
        MemWrote s1 t l va (fun a => if va ≤ a then bs[a - va]? else none)) ∧
    (∀ (g bs : List Byte) (op : AOp) (ty : Ty), op ≠ .cas → ty ∈ op.types → va % ty.bytes = 0 → bs.length = ty.bytes →
      s.agentLeaf ctx va ty.bytes .rwa = (.ok g, l, s1) → (s1.readG l va ty.bytes).2.1 = false → Whole s1 l va →
      (let old : Dword := BitVec.ofNat 64 (little ty.bytes fun q => memByte s1 l (va + q))
       let new := atomicAny op ty old (BitVec.ofNat 64 (natOfBytes bs)) 0
       let wrote := fun (t : State) (k : Nat) =>
         MemWrote s1 t l va (fun a => if va ≤ a ∧ a < va + k then some ((new >>> (8 * (a - va))).setWidth 8) else none) ∧
         ∃ z, (t.port n).out = z ++ [.data va ((List.range ty.bytes).map fun q => memByte s1 l (va + q))]
       (ty ≠ .bx2 → ty ≠ .hx2 → ∃ t, exec (.peerAccess n ctx va (some bs) (some (op, ty))) s = .next t ∧ wrote t ty.bytes) ∧
       ((ty = .bx2 ∨ ty = .hx2) → ∃ t q, exec (.peerAccess n ctx va (some bs) (some (op, ty))) s = .next t ∧ wrote t 2 ∧ q ∈ t.reqs ∧
         q.tgt = .part (partOf va) ∧ q.ctx = ctx ∧ q.src = .gone ∧ q.st = .sent ∧
         q.kind = .atomic op ty [(va, [(0, BitVec.ofNat 64 (natOfBytes bs), 0)])] none 1 [(0, old)])))) ∧
  (∀ (s : State) (n ctx parcel off : Nat) (data : List Byte), n < 16 → (s.port n).up = true → (s.port n).training = false → data ≠ [] →
    data.length ≤ 256 → s.wh.stopped = false → (s.ctxOf ctx).traffic ∉ (s.port n).withheld →
    (∀ e, (s.port n).ptt.find? (fun e => e.ctx == ctx && e.parcel == parcel) = some e → off + data.length ≤ (s.parcel e.pid).scrSize →
      (e.absent = false → (s.parcel e.pid).image = none →
        ∃ t, exec (.peerScratchWrite n ctx parcel off data 0xFFFF) s = .next t ∧ (t.port n).acks = (s.port n).acks ++ [0] ∧ SameMemory s t ∧
          ∀ a, (t.core (s.parcel e.pid).core).scratch.get 0 a =
            if (s.parcel e.pid).base + off ≤ a ∧ a < (s.parcel e.pid).base + off + data.length then data.getD (a - ((s.parcel e.pid).base + off)) 0
            else (s.core (s.parcel e.pid).core).scratch.get 0 a) ∧
      (e.absent = true →
        ∃ t, exec (.peerScratchWrite n ctx parcel off data 0xFFFF) s = .next t ∧ t.cores = s.cores ∧
          ((s.port n).ring.length < Config.bounceCap →
            (t.port n).acks = (s.port n).acks ++ [0] ∧ (t.port n).ring = (s.port n).ring ++ [⟨e.pid, off, data, none⟩]) ∧
          (Config.bounceCap ≤ (s.port n).ring.length → t = { s with ports := t.ports } ∧
            t.port n = { s.port n with withheld := (s.port n).withheld ++ [(s.ctxOf ctx).traffic] }))) ∧
    ((s.port n).ptt.find? (fun e => e.ctx == ctx && e.parcel == parcel) = none →
      ∃ t, exec (.peerScratchWrite n ctx parcel off data 0xFFFF) s = .next t ∧ (t.port n).acks = (s.port n).acks ++ [0x03] ∧ t.cores = s.cores ∧
        t.parcels = s.parcels)) ∧
  (∀ (s s1 : State) (va len : Nat) (l : Leaf) (g : List Byte), s.wh.aperture ≠ 0 → s.wh.stopped = false → 0 < len → va % 32 + len ≤ 32 →
    va + len ≤ 2 ^ 39 →
    (let s0 := s.countPort 20 0 1
     near l →
    (s0.agentLeaf s.wh.aperture va len .r = (.ok g, l, s1) → (s1.readG l va len).2.1 = false →
      ∃ t, exec (.hostAccess va len none) s = .next t ∧
        (t.port 20).out = (s1.port 20).out ++ [.data va ((List.range len).map fun q => memByte s1 l (va + q))]) ∧
    (∀ bs : List Byte, bs.length = len → s0.agentLeaf s.wh.aperture va len .w = (.ok g, l, s1) → Whole s1 l va →
      ∃ t, exec (.hostAccess va len (some bs)) s = .next t ∧ MemWrote s1 t l va (fun a => if va ≤ a then bs[a - va]? else none)))) ∧
  (∀ (s : State) (part frame half : Nat) (x : Line), part < 64 → frame < 2 ^ 23 → half < 2 →
    (let k := (part * 2 ^ 23 + frame) * 2 + half
     let at_ := part * 2 ^ 33 + frame * 1024 + half * 512
     s.basin.look k = some x → x.dirty = true → x.elide = false → x.bytes.length = 512 → x.fresh.length = 512 → (s.part part).training = false →
     ∃ t, exec (.basinEvict k) s = .next t ∧ t.basin.look k = none ∧ (∀ j, j ≠ k → t.basin.look j = s.basin.look j) ∧ t.cores = s.cores ∧
       t.blockKey.get 0 k = x.key ∧
       ((x.filled = true ∨ x.fresh.all id = true) →
         (∀ i, i < 512 → t.dram.get 0 (at_ + i) = x.bytes.getD i 0) ∧ t.badBlk.get false k = x.bad) ∧
       (x.filled = false → (s.elisionOf part frame).code half = 0 → s.blockKey.get 0 k = x.key →
         ∀ i, i < 512 → t.dram.get 0 (at_ + i) = if x.fresh.getD i false then x.bytes.getD i 0 else s.dram.get 0 (at_ + i))))

/-- R137, R380, R387, R391, R407, R408, R410, R415: a retry is counted and logged; a port that goes down is disabled and
retrained; a retraining holds its unit and ends with it up again, and after its third failure leaves a port disabled; a
stack waits while a save streams to it; an uncorrectable fabric error stops the module. R397 to R399, R404 to R406, R411,
R413: the scrubber counts a block it meets, logs and keeps a correctable one, and makes one of more than 24 errors bad and
retires its frame; the controller steps the clock by 25 MHz between 875 and 1,750; a junction of 110 degrees stops the
module; a reset wipes the device, leaves DEBUG, verifies and measures both stages and enters recovery where the copies of
one fail; HBM is wiped physically once. Details of retraining (log entry 45) and the inputs of the module (log entry 26)
are the model's readings. That a reset out of DEBUG extends MR2 with the change of state before the boot extends it is the
model's choice (log entry 86). -/
def Obligations.LinksModuleAndHbmRecover : Prop :=
 ((∀ (s : State) (n k : Nat), n < 22 → 0 < k →
    ∃ t r, exec (.linkFlitRetry n k) s = .next t ∧ (t.port n).retries = (s.port n).retries + BitVec.ofNat 48 k ∧ t.wh.log.getLast? = some r ∧
      r.cls = 3 ∧ r.index = n ∧ r.count = BitVec.ofNat 32 k) ∧
  (∀ (s : State) (n : Nat), n < 18 → (s.port n).up = true → (s.port n).training = false → s.reqs = [] →
    ∃ t, exec (.portDown n) s = .next t ∧ (t.port n).up = false ∧ (t.port n).training = true ∧ (t.port n).trains = (s.port n).trains + 1) ∧
  (∀ (s : State) (n : Nat), n < 18 → (s.port n).training = false →
    ∃ t r, exec (.retrainStart n) s = .next t ∧ (t.port n).training = true ∧ (t.port n).up = (s.port n).up ∧
      (t.port n).trains = (s.port n).trains + 1 ∧ t.wh.log.getLast? = some r ∧ r.cls = 5) ∧
  (∀ (s : State) (k : Nat), k < 8 → s.wh.stopped = false → (s.part (8 * k)).training = false → k ∉ s.wh.trainReq →
    (s.streamsTo k = false → ∃ t, exec (.retrainStart (32 + k)) s = .next t ∧ ∀ i, i < 8 → (t.part (8 * k + i)).training = true) ∧
    (s.streamsTo k = true → ∃ t, exec (.retrainStart (32 + k)) s = .next t ∧ t = { s with wh := { s.wh with trainReq := s.wh.trainReq ++ [k] } })) ∧
  (∀ (s : State) (n : Nat), n < 18 → (s.port n).training = true →
    (∃ t, exec (.retrainEnd n true) s = .next t ∧ (t.port n).training = false ∧ (t.port n).up = true) ∧
    ((s.port n).tries < 2 → ∃ t, exec (.retrainEnd n false) s = .next t ∧ (t.port n).training = true ∧ (t.port n).tries = (s.port n).tries + 1) ∧
    (2 ≤ (s.port n).tries → s.reqs = [] →
      ∃ t, exec (.retrainEnd n false) s = .next t ∧ (t.port n).training = false ∧ (t.port n).up = false)) ∧
  (∀ (s : State), s.wh.stopped = false →
    ∃ t r, exec .uncorrectableFabricError s = .next t ∧ t.wh.stopped = true ∧ t.wh.dumps = s.wh.dumps + 1 ∧ t.reqs = [] ∧ t.parcels = [] ∧
      t.wh.log.getLast? = some r ∧ r.cls = 10 ∧ ∀ z ∈ t.ctxs, z.2.stopped = true)) ∧
 ((∀ (s : State) (part frame half errors : Nat), part < 64 → frame < 2 ^ 23 → half < 2 → s.wh.stopped = false →
    (let k := (part * 2 ^ 23 + frame) * 2 + half
     (s.elisionOf part frame).code half = 0 → s.basin.look k = none → (s.part part).training = false →
     ∃ t, exec (.scrubBlock part frame half errors) s = .next t ∧ (t.part part).scrubs = (s.part part).scrubs + 1 ∧ t.dram = s.dram ∧
       (errors = 0 → s.badBlk.get false k = false → t.wh = s.wh ∧ t.badBlk = s.badBlk) ∧
       (0 < errors → errors ≤ 24 → s.badBlk.get false k = false → (t.part part).ce = (s.part part).ce + 1 ∧ t.badBlk = s.badBlk ∧
         (12 ≤ errors → frame ∈ t.wh.retired)) ∧
       (24 < errors → (t.part part).uce = (s.part part).uce + 1 ∧ t.badBlk.get false k = true ∧ frame ∈ t.wh.retired))) ∧
  (∀ (s : State) (watts : Nat), s.wh.stopped = false →
    ∃ t, exec (.powerSample watts) s = .next t ∧ t.wh.power = watts ∧ t.wh.samples = s.wh.samples + 1 ∧
      t.wh.clock = (if s.wh.limit < watts ∨ 95 ≤ s.wh.junction then max 875 (s.wh.clock - 25)
        else if 100 * watts < 95 * s.wh.limit then min 1750 (s.wh.clock + 25) else s.wh.clock)) ∧
  (∀ (s : State) (c : Nat), s.wh.stopped = false →
    ∃ t, exec (.thermalEvent c) s = .next t ∧ t.wh.junction = c ∧
      (110 ≤ c → t.wh.stopped = true ∧ t.reqs = [] ∧ t.parcels = [] ∧ ∀ z ∈ t.ctxs, z.2.stopped = true) ∧
      (95 ≤ c → c < 110 → t.wh.clock = max 875 (s.wh.clock - 25) ∧ t.wh.stopped = false) ∧ (c < 95 → t.wh.clock = s.wh.clock)) ∧
  (∀ (s : State) (root : Bool) (flash image : BitVec 2),
    (let mr := fun (old d : BitVec 256) => Config.sha256 (bytesOfNat 32 old.toNat ++ bytesOfNat 32 d.toNat)
     let life : Life := if s.wh.life = .debug then .deployed else s.wh.life
     let mr2 : BitVec 256 := if s.wh.life = .debug then mr 0 (Config.sha256 [3, 2]) else 0
     let first := [0, 1].find? fun c => !flash.getLsbD c && imageOk 1 (Config.flash c)
     let usable (c : Nat) : Bool := decide (c < 2) && !image.getLsbD c && imageOk 2 (s.imageCopy c)
     ∃ t, exec (.reset root flash image) s = .next t ∧ t.cores = [] ∧ t.ctls = [] ∧ t.ctxs = [] ∧ t.queues = [] ∧ t.launches = [] ∧ t.reqs = [] ∧
       t.basin = [] ∧ t.pond = [] ∧ t.hostMem = s.hostMem ∧ t.farMem = s.farMem ∧ t.wh.keys = [] ∧ t.wh.callver = none ∧ t.wh.wiped = false ∧
       t.wh.life = life ∧ t.wh.booted = true ∧ (first = none → t.wh.recovery = true ∧ t.wh.mr.get 0 0 = 0 ∧ t.wh.mr.get 0 1 = 0) ∧
       (∀ a, first = some a → t.wh.mr.get 0 0 = mr 0 (imageDigest (Config.flash a)) ∧
         ((∀ c, usable c = false) → t.wh.recovery = true ∧ t.wh.mr.get 0 1 = 0) ∧
         (∀ c, usable c = true → t.wh.recovery = false ∧
           usable t.wh.active = true ∧ t.wh.mr.get 0 1 = mr 0 (imageDigest (s.imageCopy t.wh.active)) ∧
           t.wh.mr.get 0 2 = mr mr2 (Config.sha256 [BitVec.ofNat 8 life.code]))))) ∧
  (∀ (s : State), s.wh.booted = true → s.wh.wiped = false → s.wh.recovery = false → s.wh.stopped = false →
    ∃ t, exec .hbmWipeComplete s = .next t ∧ t = { s with dram := [], badBlk := [], blockKey := [], wh := { s.wh with wiped := true } }))

/-! ### Mailboxes (chapters 21 to 23) -/

/-- R116, R126, R361, R367, R373, R375, R376, R390, R393 to R396, R419: the driver's writes of a mailbox page, and the
functions of contexts, frames, leaves, queues and reserved cores: each answers its request with OK and does what its rule
says. The layouts of the bodies of `HELLO`, `GRANT`, `QUEUE_MAP`, `QUEUE_RESUME` and `RESERVE` are the model's (log entry
27), as is the pool of tables (log entry 25). That `MAP` of a frame of a pool or a save area answers REFUSED (log entry
85), and that BADVER is answered before BADMSG for an OP that is not known (log entry 46), is the model's choice: its
reading of the rules. -/
def Obligations.MailboxManagesContexts : Prop :=
  (∀ (s : State) (page : Nat) (v : Dword), page < 8 →
    (let m := s.mbox page
     (v ≠ m.rspseq + 1 → ∃ t, exec (.registerWrite page 0 v) s = .next t ∧ t.mbox page = { m with ignored := m.ignored + 1 }) ∧
     (v = m.rspseq + 1 → (opPage (natOfBytes (readBytes m.view 0 2))).isSome →
       ∃ t, exec (.registerWrite page 0 v) s = .next t ∧ t.mbox page = { m with reqseq := v }) ∧
     (v = m.rspseq + 1 → opPage (natOfBytes (readBytes m.view 0 2)) = none → s.wh.booted = true → s.wh.stopped = false →
       ∃ t, exec (.registerWrite page 0 v) s = .next t ∧ (t.mbox page).rspseq = v ∧
         natOfBytes (readBytes (t.mbox page).rsp 0 8) / 2 ^ 32 =
           if s.wh.callver = some (BitVec.ofNat 16 (natOfBytes (readBytes m.view 4 2))) then 1 else 2) ∧
     (∃ t, exec (.registerWrite page 16 v) s = .next t ∧ t.mbox page = { m with irq := v.getLsbD 0 }) ∧
     (∀ off, 1024 ≤ off → off < 2048 → off % 8 = 0 → m.reqseq = m.rspseq →
       ∃ t, exec (.registerWrite page off v) s = .next t ∧ natOfBytes (readBytes (t.mbox page).req (off - 1024) 8) = v.toNat ∧
         (t.mbox page).reqseq = m.reqseq) ∧
     (∀ off, 1024 ≤ off → off < 2048 → off % 8 = 0 → m.reading = true →
       ∃ t, exec (.registerWrite page off v) s = .next t ∧ (t.mbox page).taken = m.taken ∧ (t.mbox page).reqseq = m.reqseq))) ∧
  (∀ (s : State) (m : Msg), Asked s m 0x01 7 4 →
    (s.ctxs = [] →
      (let best := bestVersion s.served (BitVec.ofNat 16 (field m 0 16)) (BitVec.ofNat 16 (field m 16 16))
       ∃ t, exec .hello s = .next t ∧ (∀ v, best = some v → Answered s t m 0 (bytesOfNat 2 v.toNat) ∧ t.wh.callver = some v) ∧
         (best = none → Answered s t m 2 [] ∧ t.wh.callver = s.wh.callver))) ∧
    (s.ctxs ≠ [] → ∃ t, exec .hello s = .next t ∧ Answered s t m 3 [] ∧ t.wh.callver = s.wh.callver)) ∧
  (∀ (s : State) (m : Msg), Asked s m 0x10 3 64 →
    (let d := CtxDesc.decode (natOfBytes m.body)
     let raw := fun i => natOfBytes (readBytes s.hostMem (d.windows + 16 * i) 16)
     s.wh.wiped = true → s.ctxs.look d.ctxid = none → descBad (natOfBytes m.body) = false → (∀ i, i < 64 → windowBad (raw i) = false) →
     (∀ i j, i < j → j < 64 → (Window.decode (raw i)).meets (Window.decode (raw j)) = false) →
     d.pond + s.ctxs.foldl (fun n c => n + c.2.desc.pond) 0 ≤ 2 →
     ∃ t x, exec .ctxCreate s = .next t ∧ Answered s t m 0 [] ∧ t.ctxs.look d.ctxid = some x ∧ x.desc = d ∧ x.stopped = false ∧ x.granted = [] ∧
       (∀ i, i < 64 → x.wins.look i = if (Window.decode (raw i)).v then some (Window.decode (raw i)) else none) ∧
       (∀ n, n ≠ d.ctxid → t.ctxs.look n = s.ctxs.look n))) ∧
  (∀ (s : State) (m : Msg) (op : Nat) (i : Instr), ((op = 0x12 ∧ i = .ctxStop ∧ Asked s m op 2 2) ∨ (op = 0x11 ∧ i = .ctxDestroy ∧ Asked s m op 3 2)) →
    (let c := field m 0 16
     (s.ctxs.look c).isSome →
     ((s.ctxOf c).stopped = false → (∀ p ∈ s.parcels, s.ofCtx c p.2.lid = false) →
       ∃ t, exec i s = .next t ∧ (t.ctxOf c).stopped = true ∧ t.wh = (s.readRequest m.page).wh ∧ t.cores = s.cores) ∧
     ((s.ctxOf c).stopped = true → s.stopDone c = true → i = .ctxStop → ∃ t, exec i s = .next t ∧ Answered s t m 0 [] ∧ t.ctxs = s.ctxs) ∧
     ((s.ctxOf c).stopped = true → s.stopDone c = true → i = .ctxDestroy →
       ∃ t, exec i s = .next t ∧ Answered s t m 0 [] ∧ t.ctxs.look c = none ∧ (∀ k ∈ t.kernels, k.2.ctx ≠ c) ∧ (∀ q ∈ t.queues, q.2.ctx ≠ c) ∧
         (∀ r ∈ t.reqs, r.ctx ≠ c) ∧ ∀ k ∈ t.wh.keys, k.2.ctx ≠ c))) ∧
  (∀ (s : State) (m : Msg), Asked s m 0x13 3 12 →
    (let c := field m 0 16
     let fs := (List.range (field m 64 32)).map (field m 32 32 + ·)
     field m 16 16 = 0 → (s.ctxs.look c).isSome → 0 < field m 64 32 → field m 32 32 + field m 64 32 ≤ 2 ^ 23 →
     (∀ f ∈ fs, s.rawFrame f = false ∧ ∀ z ∈ s.ctxs, f ∉ z.2.granted) →
     ∃ t, exec .grant s = .next t ∧ Answered s t m 0 [] ∧ t.ctxs = (s.setCtx c { s.ctxOf c with granted := (t.ctxOf c).granted }).ctxs ∧
       (t.ctxOf c).granted = (s.ctxOf c).granted ++ fs.filter fun f => !s.wh.retired.contains f)) ∧
  (∀ (s s1 : State) (m : Msg), Asked s m 0x14 3 24 →
    (let c := field m 32 16
     let level := field m 48 2
     let va := field m 64 64
     let leaf : Leaf := BitVec.ofNat 64 (field m 128 64)
     let s0 := s.readRequest m.page
     field m 50 14 = 0 → (s.ctxs.look c).isSome → level < 3 → va % levelBytes level = 0 → va < 2 ^ 52 → s0.mapLeafBad c level leaf = false →
     field m 0 32 = 0xFFFFFFFF → (s.ctxOf c).leases = [] → s0.installLeaf c va level leaf = (.done, s1) → (∀ l ∈ s.launches, l.2.st ≠ .leasing) →
     s1.launches = s.launches →
     ∃ t, exec .map s = .next t ∧ Answered s1 t m 0 [] ∧ t.basin = s1.basin ∧ t.parts = s1.parts ∧
       (∀ r ∈ (t.ctxOf c).fqOpen, r.va.toNat < va ∨ va + levelBytes level ≤ r.va.toNat ∨ (leaf.getLsbD 0 = false ∧ r.kind = 3)) ∧
       (∀ y ∈ t.reports, y.ctx = c → va / 65536 ≤ y.page → y.page < (va + levelBytes level) / 65536 → y.replay = true))) ∧
  (∀ (s : State) (m : Msg) (f n : Nat), Asked s m 0x14 3 24 → field m 50 14 = 0 → (s.ctxs.look (field m 32 16)).isSome →
    BitVec.getLsbD (BitVec.ofNat 64 (field m 128 64) : Leaf) 0 = true → Leaf.far (BitVec.ofNat 64 (field m 128 64)) = false →
    (∃ x ∈ s.ctxs, (x.2.desc.pool = f ∧ x.2.desc.pooln = n) ∨ (x.2.desc.savef = f ∧ x.2.desc.saven = n)) →
    f ≤ Leaf.frame (BitVec.ofNat 64 (field m 128 64)) → Leaf.frame (BitVec.ofNat 64 (field m 128 64)) < f + n →
    ∃ t, exec .map s = .next t ∧ Answered s t m 4 [] ∧ t.ctxs = s.ctxs) ∧
  (∀ (s : State) (m : Msg) (r : FqRec), Asked s m 0x15 3 8 → field m 56 8 = 0 → (field m 48 8 = 3 ∨ field m 48 8 = 8) →
    (s.ctxOf (field m 32 16)).fqOpen.find? (fun r => r.seq.toNat == field m 0 32) = some r → r.kind ≠ 3 →
    ∃ t, exec .deny s = .next t ∧ Answered s t m 0 [] ∧ (∀ z ∈ (t.ctxOf (field m 32 16)).fqOpen, z.seq ≠ r.seq) ∧
      ∀ y ∈ t.reports, y.ctx = field m 32 16 → y.page = r.va.toNat / 65536 → y.deny = some (BitVec.ofNat 8 (field m 48 8))) ∧
  (∀ (s : State) (m : Msg) (c w : Nat), Asked s m 0x16 1 8 → field m 0 64 % 64 = 0 → (s.readRequest m.page).descAt (field m 0 64) = some (c, w) →
    (let s0 := s.readRequest m.page
     let n := w / 2 ^ 64 % 16 + 4
     let base := w % 2 ^ 64
     let q := w / 2 ^ 96 % 2 ^ 12
     base % 4096 = 0 → n ≤ 16 → w.testBit 71 = false → w / 2 ^ 108 % 2 ^ 20 = 0 → w / 2 ^ 256 % 2 ^ 256 = 0 → s0.windowOk c base (64 * 2 ^ n) .r = true →
     s0.windowOk c base (64 * 2 ^ n) .w = true → s.queues.look q = none →
     ∃ t x, exec .queueMap s = .next t ∧ Answered s t m 0 [] ∧ t.queues.look q = some x ∧ x.qid = q ∧ x.ctx = c ∧ x.base.toNat = base ∧ x.n = n ∧
       x.cls = w / 2 ^ 68 % 4 ∧ x.wptr = 0 ∧ x.rptr = 0 ∧ x.err = 0 ∧ x.st = .unmapped)) ∧
  (∀ (s : State) (m : Msg) (q : Queue), Asked s m 0x17 1 4 → s.queues.look (field m 16 16) = some q → q.ctx = field m 0 16 →
    ∃ t, exec .queueResume s = .next t ∧ Answered s t m 0 [] ∧ t.queue (field m 16 16) = { q with err := 0 } ∧
      (q.st = .unmapped → q.rptr < q.wptr → field m 16 16 ∈ t.wake)) ∧
  (∀ (s : State) (m : Msg), Asked s m 0x18 2 1 → field m 0 8 ≤ 16 →
    ∃ t, exec .reserve s = .next t ∧ Answered s t m 0 [] ∧ t.wh.reserve = some (field m 0 8)) ∧
  (∀ (s : State) (m : Msg), Asked s m 0x31 7 2 → (s.ctxs.look (field m 0 16)).isSome →
    ∃ t, exec .aperture s = .next t ∧ Answered s t m 0 [] ∧ t.wh.aperture = field m 0 16)

/-- R334 to R337, R395, R398 to R403, R407, R409, R411, R414, R421: `LOAD` and `UNLOAD` add and remove an object with its
kernels and windows; the key, attestation, debug, lifecycle, staging, telemetry, power and log functions answer with OK
and do what their rules say. The layouts of some bodies (log entry 27), the cryptographic functions (log entry 8) and the
loader's choices (log entry 70) are the model's. -/
def Obligations.MailboxSecuresAndReports : Prop :=
  (∀ (s s1 : State) (m : Msg) (p : Plan), Asked s m 0x19 5 48 → field m 135 57 = 0 → (s.ctxs.look (field m 96 16)).isSome →
    (let c := field m 96 16
     let o := readBytes s.hostMem (field m 0 64) (field m 64 32)
     let s0 := s.readRequest m.page
     s0.plan m o s.ids (s.ids + 1) = some p → (∀ z ∈ s.objs, z.2.ctx ≠ c) →
     ({ s0.countPort 20 1 1 with ids := s.ids + 1 + p.kerns.length } : State).backAll c (field m 128 7) p.mine = (.done, s1) →
     ∃ t body, exec .load s = .next t ∧ Answered s t m 0 body ∧ body.take 8 = bytesOfNat 8 p.obj.handle ∧
       t.objs.look p.obj.handle = some p.obj ∧ (t.ctxOf c).wins = p.wins ∧
       (∀ k ∈ p.kerns, (∀ z ∈ p.kerns, z.kid = k.kid → z = k) → t.kernels.look k.kid = some k) ∧
       t.wh.mr.get 0 3 = Config.sha256 (bytesOfNat 32 (s.wh.mr.get 0 3).toNat ++ bytesOfNat 32 (Config.sha256 o).toNat))) ∧
  (∀ (s : State) (m : Msg) (o : Obj), Asked s m 0x1A 5 8 → s.objs.look (field m 0 64) = some o → o.handle = field m 0 64 → o.wins = [] →
    (∀ z ∈ s.objs, z.2.ctx = o.ctx → z.2.handle = o.handle) → s.objBusy o.handle = false →
    ∃ t, exec .unload s = .next t ∧ Answered s t m 0 [] ∧ t.objs.look o.handle = none ∧ ∀ k ∈ t.kernels, k.2.obj ≠ o.handle) ∧
  (∀ (s : State) (m : Msg), Asked s m 0x20 0 144 →
    (let slot := field m 0 8
     let kek := Config.sha256 (Config.ecdh ((m.body.drop 8).take 64) ++ [BitVec.ofNat 8 slot] ++ bytesOfNat 16 Config.devid.toNat)
     field m 8 8 = 0 → field m 32 32 = 0 → 1 ≤ slot → slot ≤ 127 → s.wh.life ≠ .manufacture → s.wh.life ≠ .debug → s.wh.keys.look slot = none →
     ∃ t, exec .keySet s = .next t ∧
       (∀ k, Config.aesUnwrap kek ((m.body.drop 72).take 72) = some k →
         Answered s t m 0 [] ∧ ∃ z, t.wh.keys.look slot = some z ∧ z.ctx = field m 16 16 ∧ z.key = k) ∧
       (Config.aesUnwrap kek ((m.body.drop 72).take 72) = none → Answered s t m 6 [] ∧ t.wh.keys = s.wh.keys))) ∧
  (∀ (s : State) (m : Msg), Asked s m 0x21 0 1 → 1 ≤ field m 0 8 → field m 0 8 ≤ 127 →
    (∀ k, s.wh.keys.look (field m 0 8) = some k → s.ctxs.look k.ctx = none) →
    ∃ t, exec .keyClear s = .next t ∧ Answered s t m 0 [] ∧ t.wh.keys.look (field m 0 8) = none) ∧
  (∀ (s : State) (m : Msg), Asked s m 0x22 0 32 →
    (let w := s.wh
     ∃ t r, exec .attest s = .next t ∧ r.length = 256 ∧ natOfBytes r = 1 + 2 ^ 8 * w.life.code + 2 ^ 16 * (w.callver.getD 0).toNat +
         2 ^ 32 * w.unlocks.toNat + 2 ^ 64 * Config.devid.toNat + 2 ^ 192 * Config.svn.toNat + 2 ^ 256 * field m 0 256 +
         2 ^ 512 * (w.mr.get 0 0).toNat + 2 ^ 768 * (w.mr.get 0 1).toNat + 2 ^ 1024 * (w.mr.get 0 2).toNat + 2 ^ 1280 * (w.mr.get 0 3).toNat ∧
       Answered s t m 0 (r ++ bytesOfNat 64 (Config.ecdsaSign (Config.sha256 r)).toNat ++ bytesOfNat 8 Config.chain.length ++
         Config.chain.take 688))) ∧
  (∀ (s : State) (m : Msg), Asked s m 0x27 0 4 →
    ∃ t, exec .attestChain s = .next t ∧
      (field m 0 32 < Config.chain.length →
        Answered s t m 0 (bytesOfNat 8 Config.chain.length ++ (Config.chain.drop (field m 0 32)).take 1008)) ∧
      (Config.chain.length ≤ field m 0 32 → Answered s t m 4 [])) ∧
  (∀ (s : State) (m : Msg), Asked s m 0x23 0 0 →
    ∃ t bs, exec .debugNonce s = .next t ∧ Answered s t m 0 bs ∧ bs.length = 32 ∧ t.wh.nonce = some (BitVec.ofNat 256 (natOfBytes bs))) ∧
  (∀ (s : State) (m : Msg), Asked s m 0x24 0 180 → field m 144 16 = 0 → s.wh.life = .deployed →
    (let check := (s.tokenCheck m 3 (fun k => Config.sha256 k == Config.debugHash)).1
     ∃ t, exec .debugUnlock s = .next t ∧
       (Config.debugDisabled = false → check = none → Answered s t m 0 [] ∧ t.wh.life = .debug ∧ t.wh.life.portOpen = true ∧ t.wh.unlocks = s.wh.unlocks + 1 ∧
         t.wh.nonce = none ∧ t.wh.keys = [] ∧ t.basin = [] ∧ t.pond = []) ∧
       (Config.debugDisabled = false → ∀ e, check = some e → Answered s t m e [] ∧ t.wh.life = .deployed) ∧
       (Config.debugDisabled = true → Answered s t m 7 [] ∧ t.wh.life = .deployed))) ∧
  (∀ (s : State) (m : Msg) (dest : Life), Asked s m 0x25 0 180 → field m 144 16 = 0 → lifeOf (field m 136 8) = some dest →
    fused s.wh.life dest = true →
    (let check := (s.tokenCheck m dest.code rootKey).1
     ∃ t, exec .lifecycle s = .next t ∧
       (check = none → Answered s t m 0 [] ∧ t.wh.life = dest ∧ t.wh.keys = [] ∧ t.basin = [] ∧ t.pond = [] ∧ t.wh.wiped = false) ∧
       ∀ e, check = some e → Answered s t m e [] ∧ t.wh.life = s.wh.life)) ∧
  (∀ (s : State) (m : Msg) (n : Nat), Asked s m 0x26 0 n → 8 ≤ n → n ≤ 1016 →
    ∃ t, exec .fwStage s = .next t ∧ Answered s t m 0 [] ∧ t.wh.active = s.wh.active ∧
      readBytes (t.wh.copies.get [] (1 - s.wh.active)) (field m 0 64) (n - 8) = m.body.drop 8) ∧
  (∀ (s : State) (m : Msg) (n : Nat), Asked s m 0x30 6 4 → field m 0 32 = 0x1000 + n → n < 64 →
    (let p := s.part n
     ∃ t, exec .telemetry s = .next t ∧
       Answered s t m 0 ([p.ce, p.uce, p.scrubs, p.hits, p.misses, p.parks, p.elided].flatMap fun v => bytesOfNat 8 v.toNat))) ∧
  (∀ (s : State) (m : Msg), Asked s m 0x30 6 8 → field m 0 32 = 0x8000 → 700 ≤ field m 32 32 → field m 32 32 ≤ 2100 →
    ∃ t, exec .powerLimitSet s = .next t ∧ Answered s t m 0 (bytesOfNat 8 (field m 32 32)) ∧ t.wh.limit = field m 32 32) ∧
  (∀ (s : State) (m : Msg) (k : Nat), Asked s m 0x40 4 4 → k ≤ s.wh.log.length → s.wh.log.length ≤ 4096 →
    BitVec.ofNat 32 (field m 0 32) = s.wh.logSeq - BitVec.ofNat 32 s.wh.log.length + BitVec.ofNat 32 k →
    (let out := (s.wh.log.drop k).take 31
     ∃ t, exec .logRead s = .next t ∧ t.wh.log = s.wh.log ∧
       Answered s t m 0 (bytesOfNat 8 (out.length + 2 ^ 32 * (s.wh.logSeq - BitVec.ofNat 32 s.wh.log.length).toNat) ++ out.flatMap fun r =>
         bytesOfNat 32 (r.cls + 2 ^ 8 * r.unit + 2 ^ 12 * r.index + 2 ^ 32 * r.count.toNat + 2 ^ 64 * r.addr.toNat + 2 ^ 128 * r.ctx +
           2 ^ 160 * r.seq.toNat + 2 ^ 192 * r.wcyc.toNat))))

/-! ### A step, the encodings, reset, and what every step keeps (chapters 01, 03, 05 and 08) -/

/-- R61, R165, R182: a step on an issue slot runs, at the entry that the slot selects, the instruction that the fetched words
decode to, and words that are no instruction as `unassignedOpcode`; a control core's step runs its stream's instruction;
an event's turn runs the event. The turn then passes on (log entry 1). -/
def Obligations.StepRunsTheDecodedInstruction : Prop :=
  (∀ (s : State) (c sl e : Nat) (ws : List Word), s.turn = .issue c sl →
    (let u := s.settle c sl
     u.chosen c sl = some e → (u.entry c sl e).ibuf = some (.words ws) → (u.entry c sl e).st ≠ .xfer → u.comparatorHit c sl e = false →
     u.readiness c sl e ≠ .xfer →
     ∀ i t, (decode ws = .ok i ∨ ((∀ j, decode ws ≠ .ok j) ∧ i = .unassignedOpcode ws)) →
       exec i { u.begins c sl e i with cur := .team c sl e } = .next t → step s = .next t.passTurn)) ∧
  (∀ (s : State) (cl : Nat) (ws : List Word), s.turn = .control cl →
    (let u := s.settleCtl cl
     u.ctlReady cl = true → (u.ctl cl).ibuf = some (.words ws) →
     ∀ i t, (decode ws = .ok i ∨ ((∀ j, decode ws ≠ .ok j) ∧ i = .unassignedOpcode ws)) →
       exec i { u with cur := .control cl } = .next t → step s = .next t.passTurn)) ∧
  (∀ (s : State) (i : Instr) (t : State), s.turn = .event i → i.isEvent = true → exec i { s with cur := .none } = .next t →
    step s = .next t.passTurn)

/-- R164 to R181: words written out from the encodings of the spec decode to the instructions they stand for, and a word with
an unassigned MAJ6 to none. -/
def Obligations.WrittenOutWordsDecode : Prop :=
  (let h : Hdr := { stall := 0, yld := false, pred := 0, neg := false }
   let o : Alu := { ty := .f32, rnd := .none, sat := false, as := false, bs := false, bi := false, opx := false, d := 16, a := 8, b := 12,
                    c := 0, ext := 1, lit := none }
   decode [0x000104C4] = .ok (.srdShort { stall := 1, yld := false, pred := 0, neg := false } 1 0) ∧
   decode [0x01807085, 0x00010002, 0] = .ok (.srd { h with stall := 1 } 0x018 true 2) ∧
   decode [0x017070C1, 0x00000600, 0] = .ok (.swr h 0x017 6) ∧
   decode [0x00805201, 0x00000A00, 0] = .ok (.qpush h 8 10) ∧
   decode [0x02403401, 0x00000302, 0x0000000C] = .ok (.cvt h { o with ty := .i32, rnd := .rz, d := 2, a := 3, b := 0, ext := 12 }) ∧
   decode [0x00C03601, 0x000C0810, 0x00000001] = .ok (.algMul h o) ∧
   decode [0x03F04141, 0x14000A00, 0x00004000] =
     .ok (.red h { space := .g, ty := .bx2, sb := false, ix := false, var := .none, op := .add, d := 0, a := 10, b := 0, c := 20, off := 64 }) ∧
   decode [0x00906481, 0x01070605, 0x00000001] =
     .ok (.mxStrm h { alg := 1, lst := true, acc := false, d := 5, a := 6, b := 7, c := 1, m1 := 1 }) ∧
   decode [0x40006201, 0x01000204, 0x00000100] =
     .ok (.txLd h { ty := .b32, mc := true, d := 4, a := 2, b := 0, c := 1, bobj := 16 }) ∧
   ∀ i, decode [0x01030D40] ≠ .ok i)

/-- R164 to R181: decoding an encoded well-formed instruction gives it back, with every operand that its encoding admits, from
its words and from its bytes whatever follows them. -/
def Obligations.DecodingUndoesEncoding : Prop :=
  ∀ (i : Instr) (r : List Byte), i.wf = true → i.isEvent = false → (∀ ws, i ≠ .unassignedOpcode ws) →
    decode (encode i) = .ok i ∧ decodeBytes ((encode i).flatMap bytesOfWord ++ r) = (.ok i, r)

/-- R14, R149, R166, R187, R266, R397, R399, R400: right after reset no firmware runs yet, no context, launch, queue, request
or resident team exists and no key is set, the caches hold nothing, every c register and engine command number is 0, and
every byte of memory reads 0 in the form of log entry 6. The values that the spec does not give are the model's (log entry
4). -/
def Obligations.ResetLeavesTheDeviceClear : Prop :=
  (let s := State.reset
   MemoryForm s ∧ s.wh.booted = false ∧ s.ctxs = [] ∧ s.launches = [] ∧ s.parcels = [] ∧ s.queues = [] ∧ s.reqs = [] ∧ s.wh.keys = [] ∧ s.basin = [] ∧
   (∀ c, (s.core c).l1 = [] ∧ (s.core c).icache = [] ∧ ∀ a, (s.core c).scratch.get 0 a = 0) ∧
   (∀ c sl e, s.entry? c sl e = none) ∧
   (∀ cl, (s.ctl cl).st = .off ∧ (s.ctl cl).dcache = [] ∧ (s.ctl cl).eseq = 0 ∧ ∀ r, creg s cl r = 0) ∧
   ∀ a, s.dram.get 0 a = 0 ∧ s.pond.get 0 a = 0)

/-- R48, R268, R345 (log entry 88): a sample record has 32 bytes. That of a slot's sub-team has the slot's leaf, kind 0, the
version of its code, the core, the slot, its PC, the global team number `%parcel` times the teams of a parcel plus
`%team`, and the core's cycle; that of an engine command has 0x40, kind 1, the cluster, the control-core PC, its sequence
number and the control core's cycle. -/
def Obligations.SamplesNameTheirWork : Prop :=
  (∀ (s : State) (c sl e : Nat), c < 2 ^ 8 → sl < 4 →
    (let x := s.entry c sl e
     let t := s.team c sl x.team
     let p := s.parcel t.pid
     let w := natOfBytes (s.teamSample c sl e).encode
     (s.teamSample c sl e).encode.length = 32 ∧ w % 2 ^ 8 = s.leafNow c sl % 2 ^ 8 ∧ w / 2 ^ 8 % 2 = 0 ∧ w / 2 ^ 9 % 2 ^ 3 = x.version.toNat ∧
     w / 2 ^ 12 % 2 ^ 4 = 0 ∧ w / 2 ^ 16 % 2 ^ 8 = c ∧ w / 2 ^ 24 % 2 ^ 2 = sl ∧ w / 2 ^ 26 % 2 ^ 6 = 0 ∧ w / 2 ^ 32 % 2 ^ 32 = x.pc.toNat ∧
     w / 2 ^ 64 % 2 ^ 64 = (p.index * (s.kernel (s.launchOf p.lid).kid).teams + t.index) % 2 ^ 64 ∧
     w / 2 ^ 128 = (s.core c).cycle % 2 ^ 64)) ∧
  (∀ (s : State) (cl : Nat) (m : Cmd), cl < 16 →
    (let w := natOfBytes (s.engineSample cl m).encode
     (s.engineSample cl m).encode.length = 32 ∧ w % 2 ^ 8 = 0x40 ∧ w / 2 ^ 8 % 2 = 1 ∧ w / 2 ^ 9 % 2 ^ 7 = 0 ∧ w / 2 ^ 16 % 2 ^ 8 = cl ∧
     w / 2 ^ 24 % 2 ^ 8 = 0 ∧ w / 2 ^ 32 % 2 ^ 32 = m.pc.toNat ∧ w / 2 ^ 64 % 2 ^ 64 = m.eseq.toNat ∧
     w / 2 ^ 128 = (s.ctl cl).cycle % 2 ^ 64))

/-- R4, R139 (log entry 6): every step keeps the form of memory, from every state that has it: equal memories stay equal data,
and no line of the Basin changes its size. -/
def Obligations.EveryStepKeepsMemoryForm : Prop :=
  ∀ (s t : State), MemoryForm s → step s = .next t → MemoryForm t
end

