-- ==== Sys2Proof/Laws/Store.lean ====
section
/-! SUPPORT. Sparse arrays: what a read gives after a write, for any list, and that every operation keeps the canonical
form of a byte memory. -/

namespace Sys2Proof.Machine

variable {α : Type}

/-! ### Reads after writes -/

@[simp] theorem Store.look_nil (k : Nat) : Store.look ([] : Store α) k = none := rfl

@[simp] theorem Store.look_put_same (m : Store α) (k : Nat) (v : α) : (m.put k v).look k = some v := by
  induction m with
  | nil => simp [Store.put, Store.look]
  | cons x r ih =>
    obtain ⟨a, w⟩ := x
    simp only [Store.put]
    split
    · next h => simp only [Store.look, ih]; rw [if_neg (by omega), if_neg (by omega)]
    · split <;> simp [Store.look]

theorem Store.look_put_other (m : Store α) (k j : Nat) (v : α) (h : j ≠ k) : (m.put k v).look j = m.look j := by
  induction m with
  | nil =>
    simp only [Store.put, Store.look]
    split <;> simp [Ne.symm h]
  | cons x r ih =>
    obtain ⟨a, w⟩ := x
    simp only [Store.put]
    split
    · simp only [Store.look, ih]
    · split
      · next h1 h2 => subst h2; simp only [Store.look, if_neg (Ne.symm h)]
      · next h1 h2 =>
        simp only [Store.look]
        by_cases hj : j < k
        · rw [if_pos hj, if_pos (by omega)]
        · rw [if_neg hj, if_neg (Ne.symm h)]

theorem Store.look_of_lt_head (m : Store α) (k j : Nat) (h : j ≤ k) :
    Store.look (List.dropWhile (fun x : Nat × α => decide (x.1 ≤ k)) m) j = none := by
  induction m with
  | nil => rfl
  | cons x r ih =>
    obtain ⟨a, w⟩ := x
    simp only [List.dropWhile]
    split
    · exact ih
    · next hx => simp only [decide_eq_false_iff_not] at hx; simp only [Store.look]; rw [if_pos (by omega)]

theorem Store.look_dropWhile (m : Store α) (k j : Nat) (h : k < j) :
    Store.look (List.dropWhile (fun x : Nat × α => decide (x.1 ≤ k)) m) j = m.look j := by
  induction m with
  | nil => rfl
  | cons x r ih =>
    obtain ⟨a, w⟩ := x
    simp only [List.dropWhile]
    split
    · next hx =>
      simp only [decide_eq_true_eq] at hx
      rw [ih]
      simp only [Store.look]
      rw [if_neg (by omega), if_neg (by omega)]
    · rfl

@[simp] theorem Store.look_erase_same (m : Store α) (k : Nat) : (m.erase k).look k = none := by
  induction m with
  | nil => rfl
  | cons x r ih =>
    obtain ⟨a, w⟩ := x
    simp only [Store.erase]
    split
    · next h => simp only [Store.look, ih]; rw [if_neg (by omega), if_neg (by omega)]
    · split
      · exact Store.look_of_lt_head r k k (Nat.le_refl k)
      · next h1 h2 => simp only [Store.look]; rw [if_pos (by omega)]

theorem Store.look_erase_other (m : Store α) (k j : Nat) (h : j ≠ k) : (m.erase k).look j = m.look j := by
  induction m with
  | nil => rfl
  | cons x r ih =>
    obtain ⟨a, w⟩ := x
    simp only [Store.erase]
    split
    · simp only [Store.look, ih]
    · split
      · next h1 h2 =>
        subst h2
        simp only [Store.look]
        by_cases hj : j < a
        · rw [if_pos hj]; exact Store.look_of_lt_head r a j (by omega)
        · rw [if_neg hj, if_neg (Ne.symm h)]; exact Store.look_dropWhile r a j (by omega)
      · rfl

@[simp] theorem Store.get_nil (d : α) (k : Nat) : Store.get d ([] : Store α) k = d := rfl

@[simp] theorem Store.get_put_same (d : α) (m : Store α) (k : Nat) (v : α) : Store.get d (m.put k v) k = v := by
  simp [Store.get]

theorem Store.get_put_other (d : α) (m : Store α) (k j : Nat) (v : α) (h : j ≠ k) :
    Store.get d (m.put k v) j = Store.get d m j := by
  simp [Store.get, Store.look_put_other m k j v h]

theorem Store.get_put (d : α) (m : Store α) (k j : Nat) (v : α) :
    Store.get d (m.put k v) j = if j = k then v else Store.get d m j := by
  split
  · next h => subst h; simp
  · next h => exact Store.get_put_other d m k j v h

@[simp] theorem Store.get_set_same [DecidableEq α] (d : α) (m : Store α) (k : Nat) (v : α) :
    Store.get d (m.set d k v) k = v := by
  simp only [Store.set]
  split
  · next h => simp [Store.get, h]
  · simp

theorem Store.get_set_other [DecidableEq α] (d : α) (m : Store α) (k j : Nat) (v : α) (h : j ≠ k) :
    Store.get d (m.set d k v) j = Store.get d m j := by
  simp only [Store.set]
  split
  · simp [Store.get, Store.look_erase_other m k j h]
  · exact Store.get_put_other d m k j v h

theorem Store.get_set [DecidableEq α] (d : α) (m : Store α) (k j : Nat) (v : α) :
    Store.get d (m.set d k v) j = if j = k then v else Store.get d m j := by
  split
  · next h => subst h; simp
  · next h => exact Store.get_set_other d m k j v h

/-! ### The canonical form -/

/-- The keys of a list are strictly rising and above a bound. -/
def Store.above : Nat → Store α → Prop
  | _, [] => True
  | b, (a, _) :: r => b < a ∧ Store.above a r

theorem Store.above_weaken {b c : Nat} {m : Store α} (h : Store.above b m) (hc : c ≤ b) : Store.above c m := by
  cases m with
  | nil => trivial
  | cons x r => exact ⟨by have := h.1; omega, h.2⟩

theorem Store.rising_cons (a : Nat) (w : α) (r : Store α) : Store.rising ((a, w) :: r) = true ↔ Store.above a r := by
  induction r generalizing a w with
  | nil => simp [Store.rising, Store.above]
  | cons x r ih =>
    obtain ⟨b, v⟩ := x
    simp [Store.rising, Store.above, ih]

theorem Store.rising_iff (m : Store α) : m.rising = true ↔ m = [] ∨ ∃ a w r, m = (a, w) :: r ∧ Store.above a r := by
  cases m with
  | nil => simp [Store.rising]
  | cons x r =>
    obtain ⟨a, w⟩ := x
    rw [Store.rising_cons]
    constructor
    · intro h; exact Or.inr ⟨a, w, r, rfl, h⟩
    · rintro (h | ⟨a', w', r', h, h'⟩)
      · simp at h
      · simp only [List.cons.injEq, Prod.mk.injEq] at h
        obtain ⟨⟨rfl, rfl⟩, rfl⟩ := h
        exact h'

theorem Store.above_put {b k : Nat} {m : Store α} (h : Store.above b m) (hk : b < k) (v : α) :
    Store.above b (m.put k v) := by
  induction m generalizing b with
  | nil => exact ⟨hk, trivial⟩
  | cons x r ih =>
    obtain ⟨a, w⟩ := x
    simp only [Store.put]
    split
    · next h1 => exact ⟨h.1, ih h.2 h1⟩
    · split
      · next h1 h2 => subst h2; exact ⟨hk, h.2⟩
      · next h1 h2 => exact ⟨hk, by omega, h.2⟩

theorem Store.dropWhile_above {a k : Nat} {r : Store α} (h : Store.above a r) (hk : k ≤ a) :
    r.dropWhile (fun x : Nat × α => decide (x.1 ≤ k)) = r := by
  cases r with
  | nil => rfl
  | cons x r =>
    have : ¬ x.1 ≤ k := by have := h.1; omega
    simp [List.dropWhile, this]

theorem Store.above_erase {b : Nat} {m : Store α} (h : Store.above b m) (k : Nat) : Store.above b (m.erase k) := by
  induction m generalizing b with
  | nil => trivial
  | cons x r ih =>
    obtain ⟨a, w⟩ := x
    simp only [Store.erase]
    split
    · exact ⟨h.1, ih h.2⟩
    · split
      · next h1 h2 =>
        rw [Store.dropWhile_above h.2 (by omega)]
        exact Store.above_weaken h.2 (Nat.le_of_lt h.1)
      · exact h

theorem Store.rising_put {m : Store α} (h : m.rising = true) (k : Nat) (v : α) : (m.put k v).rising = true := by
  rcases (Store.rising_iff m).1 h with rfl | ⟨a, w, r, rfl, ha⟩
  · rfl
  · simp only [Store.put]
    split
    · next h1 => rw [Store.rising_cons]; exact Store.above_put ha h1 v
    · split
      · next h1 h2 => subst h2; rw [Store.rising_cons]; exact ha
      · next h1 h2 => rw [Store.rising_cons]; exact ⟨by omega, ha⟩

theorem Store.rising_of_above {a : Nat} {r : Store α} (h : Store.above a r) : r.rising = true := by
  cases r with
  | nil => rfl
  | cons x r => obtain ⟨b, w⟩ := x; rw [Store.rising_cons]; exact h.2

theorem Store.rising_erase {m : Store α} (h : m.rising = true) (k : Nat) : (m.erase k).rising = true := by
  rcases (Store.rising_iff m).1 h with rfl | ⟨a, w, r, rfl, ha⟩
  · rfl
  · simp only [Store.erase]
    split
    · rw [Store.rising_cons]; exact Store.above_erase ha k
    · split
      · next h1 h2 => rw [Store.dropWhile_above ha (by omega)]; exact Store.rising_of_above ha
      · rw [Store.rising_cons]; exact ha

theorem Store.mem_put {m : Store α} {k : Nat} {v : α} {x : Nat × α} (h : x ∈ m.put k v) : x = (k, v) ∨ x ∈ m := by
  induction m with
  | nil => simp only [Store.put, List.mem_singleton] at h; exact Or.inl h
  | cons y r ih =>
    obtain ⟨a, w⟩ := y
    simp only [Store.put] at h
    split at h
    · rcases List.mem_cons.1 h with rfl | h
      · simp
      · rcases ih h with h | h
        · exact Or.inl h
        · exact Or.inr (List.mem_cons_of_mem _ h)
    · split at h
      · rcases List.mem_cons.1 h with h | h
        · exact Or.inl h
        · exact Or.inr (List.mem_cons_of_mem _ h)
      · rcases List.mem_cons.1 h with h | h
        · exact Or.inl h
        · exact Or.inr h

theorem Store.mem_erase {m : Store α} {k : Nat} {x : Nat × α} (h : x ∈ m.erase k) : x ∈ m := by
  induction m with
  | nil => exact h
  | cons y r ih =>
    obtain ⟨a, w⟩ := y
    simp only [Store.erase] at h
    split at h
    · rcases List.mem_cons.1 h with rfl | h
      · simp
      · exact List.mem_cons_of_mem _ (ih h)
    · split at h
      · exact List.mem_cons_of_mem _ ((List.dropWhile_sublist _).subset h)
      · exact h

theorem Store.wf_iff [DecidableEq α] (d : α) (m : Store α) :
    m.wf d = true ↔ m.rising = true ∧ ∀ x ∈ m, x.2 ≠ d := by
  simp [Store.wf, List.all_eq_true]

/-- Writing a value at a key keeps the canonical form. -/
theorem Store.wf_set [DecidableEq α] {d : α} {m : Store α} (h : m.wf d = true) (k : Nat) (v : α) :
    (m.set d k v).wf d = true := by
  rw [Store.wf_iff] at h ⊢
  simp only [Store.set]
  split
  · exact ⟨Store.rising_erase h.1 k, fun x hx => h.2 x (Store.mem_erase hx)⟩
  · next hv =>
    refine ⟨Store.rising_put h.1 k v, fun x hx => ?_⟩
    rcases Store.mem_put hx with rfl | hx
    · exact hv
    · exact h.2 x hx

/-- Removing an entry keeps the canonical form. -/
theorem Store.wf_erase [DecidableEq α] {d : α} {m : Store α} (h : m.wf d = true) (k : Nat) :
    (m.erase k).wf d = true := by
  rw [Store.wf_iff] at h ⊢
  exact ⟨Store.rising_erase h.1 k, fun x hx => h.2 x (Store.mem_erase hx)⟩

/-- Writing several values keeps the canonical form. -/
theorem Store.wf_setAll [DecidableEq α] {d : α} {m : Store α} (h : m.wf d = true) (xs : List (Nat × α)) :
    (m.setAll d xs).wf d = true := by
  simp only [Store.setAll]
  induction xs generalizing m with
  | nil => exact h
  | cons x r ih => exact ih (Store.wf_set h x.1 x.2)

theorem Store.above_filter {b : Nat} {m : Store α} (h : Store.above b m) (p : Nat × α → Bool) :
    Store.above b (m.filter p) := by
  induction m generalizing b with
  | nil => trivial
  | cons x r ih =>
    obtain ⟨a, w⟩ := x
    simp only [List.filter]
    split
    · exact ⟨h.1, ih h.2⟩
    · exact ih (Store.above_weaken h.2 (Nat.le_of_lt h.1))

/-- Dropping entries keeps the canonical form. -/
theorem Store.wf_filter [DecidableEq α] {d : α} {m : Store α} (h : m.wf d = true) (p : Nat × α → Bool) :
    Store.wf d (m.filter p) = true := by
  rw [Store.wf_iff] at h ⊢
  refine ⟨?_, fun x hx => h.2 x (List.mem_filter.1 hx).1⟩
  rcases (Store.rising_iff m).1 h.1 with rfl | ⟨a, w, r, rfl, ha⟩
  · rfl
  · simp only [List.filter]
    split
    · rw [Store.rising_cons]; exact Store.above_filter ha p
    · exact Store.rising_of_above (Store.above_filter ha p)

/-- Writing bytes keeps the canonical form of a byte memory. -/
theorem wf_writeBytes {m : Store Byte} (h : m.wf 0 = true) (a : Nat) (bs : List Byte) :
    (writeBytes m a bs).wf 0 = true := Store.wf_setAll h _

/-- A byte outside those written reads as before. -/
theorem Store.get_setAll_other [DecidableEq α] {d : α} {m : Store α} {xs : List (Nat × α)} {k : Nat}
    (h : ∀ x ∈ xs, x.1 ≠ k) : Store.get d (m.setAll d xs) k = Store.get d m k := by
  simp only [Store.setAll]
  induction xs generalizing m with
  | nil => rfl
  | cons x r ih =>
    simp only [List.foldl]
    rw [ih (fun y hy => h y (List.mem_cons_of_mem _ hy))]
    exact Store.get_set_other d m x.1 k x.2 (fun e => h x (by simp) e.symm)

/-- A byte of memory outside the bytes written reads as before. -/
theorem get_writeBytes_other (m : Store Byte) (a : Nat) (bs : List Byte) (k : Nat)
    (h : k < a ∨ a + bs.length ≤ k) : Store.get 0 (writeBytes m a bs) k = Store.get 0 m k := by
  apply Store.get_setAll_other
  intro x hx
  simp only [List.mem_map] at hx
  obtain ⟨⟨b, i⟩, hy, rfl⟩ := hx
  have := List.mem_zipIdx hy
  simp only [Nat.zero_add] at this
  simp only
  omega

/-- The byte written at an address is the byte read there. -/
theorem get_writeBytes_at (m : Store Byte) (a : Nat) (bs : List Byte) (i : Nat) (h : i < bs.length) :
    Store.get 0 (writeBytes m a bs) (a + i) = bs[i] := by
  have key : ∀ (bs : List Byte) (m : Store Byte) (n i : Nat) (hi : i < bs.length),
      Store.get 0 (Store.setAll 0 m ((bs.zipIdx n).map fun x => (a + x.2, x.1))) (a + (n + i)) = bs[i] := by
    intro bs
    induction bs with
    | nil => intro m n i hi; simp at hi
    | cons b r ih =>
      intro m n i hi
      simp only [List.zipIdx_cons, List.map_cons]
      show Store.get 0 (Store.setAll 0 (m.set 0 (a + n) b) _) _ = _
      cases i with
      | zero =>
        rw [Store.get_setAll_other]
        · simp
        · intro x hx
          simp only [List.mem_map] at hx
          obtain ⟨⟨y, j⟩, hy, rfl⟩ := hx
          have := List.mem_zipIdx hy
          simp only
          omega
      | succ i =>
        have := ih (m.set 0 (a + n) b) (n + 1) i (by simpa using hi)
        rw [show a + (n + (i + 1)) = a + (n + 1 + i) by omega, this]
        simp
  have := key bs m 0 i h
  simpa [writeBytes] using this

end Sys2Proof.Machine
end

