-- ==== Sys2Proof/Laws/State.lean ====
section
/-! SUPPORT. One lemma per field of the state and per update of a unit; reads of a unit after an update of a unit. -/

namespace Sys2Proof.Machine

variable (s : State)

/-! ### setCore -/

@[simp] theorem State.setCore_ctls (c : Nat) (k : Core) : (s.setCore c k).ctls = s.ctls := rfl
@[simp] theorem State.setCore_reqs (c : Nat) (k : Core) : (s.setCore c k).reqs = s.reqs := rfl
@[simp] theorem State.setCore_parts (c : Nat) (k : Core) : (s.setCore c k).parts = s.parts := rfl
@[simp] theorem State.setCore_basin (c : Nat) (k : Core) : (s.setCore c k).basin = s.basin := rfl
@[simp] theorem State.setCore_dram (c : Nat) (k : Core) : (s.setCore c k).dram = s.dram := rfl
@[simp] theorem State.setCore_elision (c : Nat) (k : Core) : (s.setCore c k).elision = s.elision := rfl
@[simp] theorem State.setCore_blockKey (c : Nat) (k : Core) : (s.setCore c k).blockKey = s.blockKey := rfl
@[simp] theorem State.setCore_badBlk (c : Nat) (k : Core) : (s.setCore c k).badBlk = s.badBlk := rfl
@[simp] theorem State.setCore_pond (c : Nat) (k : Core) : (s.setCore c k).pond = s.pond := rfl
@[simp] theorem State.setCore_farMem (c : Nat) (k : Core) : (s.setCore c k).farMem = s.farMem := rfl
@[simp] theorem State.setCore_hostMem (c : Nat) (k : Core) : (s.setCore c k).hostMem = s.hostMem := rfl
@[simp] theorem State.setCore_reports (c : Nat) (k : Core) : (s.setCore c k).reports = s.reports := rfl
@[simp] theorem State.setCore_ctxs (c : Nat) (k : Core) : (s.setCore c k).ctxs = s.ctxs := rfl
@[simp] theorem State.setCore_kernels (c : Nat) (k : Core) : (s.setCore c k).kernels = s.kernels := rfl
@[simp] theorem State.setCore_objs (c : Nat) (k : Core) : (s.setCore c k).objs = s.objs := rfl
@[simp] theorem State.setCore_launches (c : Nat) (k : Core) : (s.setCore c k).launches = s.launches := rfl
@[simp] theorem State.setCore_parcels (c : Nat) (k : Core) : (s.setCore c k).parcels = s.parcels := rfl
@[simp] theorem State.setCore_queues (c : Nat) (k : Core) : (s.setCore c k).queues = s.queues := rfl
@[simp] theorem State.setCore_hwslots (c : Nat) (k : Core) : (s.setCore c k).hwslots = s.hwslots := rfl
@[simp] theorem State.setCore_wake (c : Nat) (k : Core) : (s.setCore c k).wake = s.wake := rfl
@[simp] theorem State.setCore_rr (c : Nat) (k : Core) : (s.setCore c k).rr = s.rr := rfl
@[simp] theorem State.setCore_scan (c : Nat) (k : Core) : (s.setCore c k).scan = s.scan := rfl
@[simp] theorem State.setCore_hwAlg (c : Nat) (k : Core) : (s.setCore c k).hwAlg = s.hwAlg := rfl
@[simp] theorem State.setCore_ports (c : Nat) (k : Core) : (s.setCore c k).ports = s.ports := rfl
@[simp] theorem State.setCore_wh (c : Nat) (k : Core) : (s.setCore c k).wh = s.wh := rfl
@[simp] theorem State.setCore_msix (c : Nat) (k : Core) : (s.setCore c k).msix = s.msix := rfl
@[simp] theorem State.setCore_ids (c : Nat) (k : Core) : (s.setCore c k).ids = s.ids := rfl
@[simp] theorem State.setCore_fresh (c : Nat) (k : Core) : (s.setCore c k).fresh = s.fresh := rfl
@[simp] theorem State.setCore_tick (c : Nat) (k : Core) : (s.setCore c k).tick = s.tick := rfl
@[simp] theorem State.setCore_turn (c : Nat) (k : Core) : (s.setCore c k).turn = s.turn := rfl
@[simp] theorem State.setCore_cur (c : Nat) (k : Core) : (s.setCore c k).cur = s.cur := rfl

/-! ### setCtl -/

@[simp] theorem State.setCtl_cores (c : Nat) (x : Control) : (s.setCtl c x).cores = s.cores := rfl
@[simp] theorem State.setCtl_reqs (c : Nat) (x : Control) : (s.setCtl c x).reqs = s.reqs := rfl
@[simp] theorem State.setCtl_parts (c : Nat) (x : Control) : (s.setCtl c x).parts = s.parts := rfl
@[simp] theorem State.setCtl_basin (c : Nat) (x : Control) : (s.setCtl c x).basin = s.basin := rfl
@[simp] theorem State.setCtl_dram (c : Nat) (x : Control) : (s.setCtl c x).dram = s.dram := rfl
@[simp] theorem State.setCtl_elision (c : Nat) (x : Control) : (s.setCtl c x).elision = s.elision := rfl
@[simp] theorem State.setCtl_blockKey (c : Nat) (x : Control) : (s.setCtl c x).blockKey = s.blockKey := rfl
@[simp] theorem State.setCtl_badBlk (c : Nat) (x : Control) : (s.setCtl c x).badBlk = s.badBlk := rfl
@[simp] theorem State.setCtl_pond (c : Nat) (x : Control) : (s.setCtl c x).pond = s.pond := rfl
@[simp] theorem State.setCtl_farMem (c : Nat) (x : Control) : (s.setCtl c x).farMem = s.farMem := rfl
@[simp] theorem State.setCtl_hostMem (c : Nat) (x : Control) : (s.setCtl c x).hostMem = s.hostMem := rfl
@[simp] theorem State.setCtl_reports (c : Nat) (x : Control) : (s.setCtl c x).reports = s.reports := rfl
@[simp] theorem State.setCtl_ctxs (c : Nat) (x : Control) : (s.setCtl c x).ctxs = s.ctxs := rfl
@[simp] theorem State.setCtl_kernels (c : Nat) (x : Control) : (s.setCtl c x).kernels = s.kernels := rfl
@[simp] theorem State.setCtl_objs (c : Nat) (x : Control) : (s.setCtl c x).objs = s.objs := rfl
@[simp] theorem State.setCtl_launches (c : Nat) (x : Control) : (s.setCtl c x).launches = s.launches := rfl
@[simp] theorem State.setCtl_parcels (c : Nat) (x : Control) : (s.setCtl c x).parcels = s.parcels := rfl
@[simp] theorem State.setCtl_queues (c : Nat) (x : Control) : (s.setCtl c x).queues = s.queues := rfl
@[simp] theorem State.setCtl_hwslots (c : Nat) (x : Control) : (s.setCtl c x).hwslots = s.hwslots := rfl
@[simp] theorem State.setCtl_wake (c : Nat) (x : Control) : (s.setCtl c x).wake = s.wake := rfl
@[simp] theorem State.setCtl_rr (c : Nat) (x : Control) : (s.setCtl c x).rr = s.rr := rfl
@[simp] theorem State.setCtl_scan (c : Nat) (x : Control) : (s.setCtl c x).scan = s.scan := rfl
@[simp] theorem State.setCtl_hwAlg (c : Nat) (x : Control) : (s.setCtl c x).hwAlg = s.hwAlg := rfl
@[simp] theorem State.setCtl_ports (c : Nat) (x : Control) : (s.setCtl c x).ports = s.ports := rfl
@[simp] theorem State.setCtl_wh (c : Nat) (x : Control) : (s.setCtl c x).wh = s.wh := rfl
@[simp] theorem State.setCtl_msix (c : Nat) (x : Control) : (s.setCtl c x).msix = s.msix := rfl
@[simp] theorem State.setCtl_ids (c : Nat) (x : Control) : (s.setCtl c x).ids = s.ids := rfl
@[simp] theorem State.setCtl_fresh (c : Nat) (x : Control) : (s.setCtl c x).fresh = s.fresh := rfl
@[simp] theorem State.setCtl_tick (c : Nat) (x : Control) : (s.setCtl c x).tick = s.tick := rfl
@[simp] theorem State.setCtl_turn (c : Nat) (x : Control) : (s.setCtl c x).turn = s.turn := rfl
@[simp] theorem State.setCtl_cur (c : Nat) (x : Control) : (s.setCtl c x).cur = s.cur := rfl

/-! ### setParcel -/

@[simp] theorem State.setParcel_cores (n : Nat) (x : Parcel) : (s.setParcel n x).cores = s.cores := rfl
@[simp] theorem State.setParcel_ctls (n : Nat) (x : Parcel) : (s.setParcel n x).ctls = s.ctls := rfl
@[simp] theorem State.setParcel_reqs (n : Nat) (x : Parcel) : (s.setParcel n x).reqs = s.reqs := rfl
@[simp] theorem State.setParcel_parts (n : Nat) (x : Parcel) : (s.setParcel n x).parts = s.parts := rfl
@[simp] theorem State.setParcel_basin (n : Nat) (x : Parcel) : (s.setParcel n x).basin = s.basin := rfl
@[simp] theorem State.setParcel_dram (n : Nat) (x : Parcel) : (s.setParcel n x).dram = s.dram := rfl
@[simp] theorem State.setParcel_elision (n : Nat) (x : Parcel) : (s.setParcel n x).elision = s.elision := rfl
@[simp] theorem State.setParcel_blockKey (n : Nat) (x : Parcel) : (s.setParcel n x).blockKey = s.blockKey := rfl
@[simp] theorem State.setParcel_badBlk (n : Nat) (x : Parcel) : (s.setParcel n x).badBlk = s.badBlk := rfl
@[simp] theorem State.setParcel_pond (n : Nat) (x : Parcel) : (s.setParcel n x).pond = s.pond := rfl
@[simp] theorem State.setParcel_farMem (n : Nat) (x : Parcel) : (s.setParcel n x).farMem = s.farMem := rfl
@[simp] theorem State.setParcel_hostMem (n : Nat) (x : Parcel) : (s.setParcel n x).hostMem = s.hostMem := rfl
@[simp] theorem State.setParcel_reports (n : Nat) (x : Parcel) : (s.setParcel n x).reports = s.reports := rfl
@[simp] theorem State.setParcel_ctxs (n : Nat) (x : Parcel) : (s.setParcel n x).ctxs = s.ctxs := rfl
@[simp] theorem State.setParcel_kernels (n : Nat) (x : Parcel) : (s.setParcel n x).kernels = s.kernels := rfl
@[simp] theorem State.setParcel_objs (n : Nat) (x : Parcel) : (s.setParcel n x).objs = s.objs := rfl
@[simp] theorem State.setParcel_launches (n : Nat) (x : Parcel) : (s.setParcel n x).launches = s.launches := rfl
@[simp] theorem State.setParcel_queues (n : Nat) (x : Parcel) : (s.setParcel n x).queues = s.queues := rfl
@[simp] theorem State.setParcel_hwslots (n : Nat) (x : Parcel) : (s.setParcel n x).hwslots = s.hwslots := rfl
@[simp] theorem State.setParcel_wake (n : Nat) (x : Parcel) : (s.setParcel n x).wake = s.wake := rfl
@[simp] theorem State.setParcel_rr (n : Nat) (x : Parcel) : (s.setParcel n x).rr = s.rr := rfl
@[simp] theorem State.setParcel_scan (n : Nat) (x : Parcel) : (s.setParcel n x).scan = s.scan := rfl
@[simp] theorem State.setParcel_hwAlg (n : Nat) (x : Parcel) : (s.setParcel n x).hwAlg = s.hwAlg := rfl
@[simp] theorem State.setParcel_ports (n : Nat) (x : Parcel) : (s.setParcel n x).ports = s.ports := rfl
@[simp] theorem State.setParcel_wh (n : Nat) (x : Parcel) : (s.setParcel n x).wh = s.wh := rfl
@[simp] theorem State.setParcel_msix (n : Nat) (x : Parcel) : (s.setParcel n x).msix = s.msix := rfl
@[simp] theorem State.setParcel_ids (n : Nat) (x : Parcel) : (s.setParcel n x).ids = s.ids := rfl
@[simp] theorem State.setParcel_fresh (n : Nat) (x : Parcel) : (s.setParcel n x).fresh = s.fresh := rfl
@[simp] theorem State.setParcel_tick (n : Nat) (x : Parcel) : (s.setParcel n x).tick = s.tick := rfl
@[simp] theorem State.setParcel_turn (n : Nat) (x : Parcel) : (s.setParcel n x).turn = s.turn := rfl
@[simp] theorem State.setParcel_cur (n : Nat) (x : Parcel) : (s.setParcel n x).cur = s.cur := rfl

/-! ### setLaunch -/

@[simp] theorem State.setLaunch_cores (n : Nat) (x : Launch) : (s.setLaunch n x).cores = s.cores := rfl
@[simp] theorem State.setLaunch_ctls (n : Nat) (x : Launch) : (s.setLaunch n x).ctls = s.ctls := rfl
@[simp] theorem State.setLaunch_reqs (n : Nat) (x : Launch) : (s.setLaunch n x).reqs = s.reqs := rfl
@[simp] theorem State.setLaunch_parts (n : Nat) (x : Launch) : (s.setLaunch n x).parts = s.parts := rfl
@[simp] theorem State.setLaunch_basin (n : Nat) (x : Launch) : (s.setLaunch n x).basin = s.basin := rfl
@[simp] theorem State.setLaunch_dram (n : Nat) (x : Launch) : (s.setLaunch n x).dram = s.dram := rfl
@[simp] theorem State.setLaunch_elision (n : Nat) (x : Launch) : (s.setLaunch n x).elision = s.elision := rfl
@[simp] theorem State.setLaunch_blockKey (n : Nat) (x : Launch) : (s.setLaunch n x).blockKey = s.blockKey := rfl
@[simp] theorem State.setLaunch_badBlk (n : Nat) (x : Launch) : (s.setLaunch n x).badBlk = s.badBlk := rfl
@[simp] theorem State.setLaunch_pond (n : Nat) (x : Launch) : (s.setLaunch n x).pond = s.pond := rfl
@[simp] theorem State.setLaunch_farMem (n : Nat) (x : Launch) : (s.setLaunch n x).farMem = s.farMem := rfl
@[simp] theorem State.setLaunch_hostMem (n : Nat) (x : Launch) : (s.setLaunch n x).hostMem = s.hostMem := rfl
@[simp] theorem State.setLaunch_reports (n : Nat) (x : Launch) : (s.setLaunch n x).reports = s.reports := rfl
@[simp] theorem State.setLaunch_ctxs (n : Nat) (x : Launch) : (s.setLaunch n x).ctxs = s.ctxs := rfl
@[simp] theorem State.setLaunch_kernels (n : Nat) (x : Launch) : (s.setLaunch n x).kernels = s.kernels := rfl
@[simp] theorem State.setLaunch_objs (n : Nat) (x : Launch) : (s.setLaunch n x).objs = s.objs := rfl
@[simp] theorem State.setLaunch_parcels (n : Nat) (x : Launch) : (s.setLaunch n x).parcels = s.parcels := rfl
@[simp] theorem State.setLaunch_queues (n : Nat) (x : Launch) : (s.setLaunch n x).queues = s.queues := rfl
@[simp] theorem State.setLaunch_hwslots (n : Nat) (x : Launch) : (s.setLaunch n x).hwslots = s.hwslots := rfl
@[simp] theorem State.setLaunch_wake (n : Nat) (x : Launch) : (s.setLaunch n x).wake = s.wake := rfl
@[simp] theorem State.setLaunch_rr (n : Nat) (x : Launch) : (s.setLaunch n x).rr = s.rr := rfl
@[simp] theorem State.setLaunch_scan (n : Nat) (x : Launch) : (s.setLaunch n x).scan = s.scan := rfl
@[simp] theorem State.setLaunch_hwAlg (n : Nat) (x : Launch) : (s.setLaunch n x).hwAlg = s.hwAlg := rfl
@[simp] theorem State.setLaunch_ports (n : Nat) (x : Launch) : (s.setLaunch n x).ports = s.ports := rfl
@[simp] theorem State.setLaunch_wh (n : Nat) (x : Launch) : (s.setLaunch n x).wh = s.wh := rfl
@[simp] theorem State.setLaunch_msix (n : Nat) (x : Launch) : (s.setLaunch n x).msix = s.msix := rfl
@[simp] theorem State.setLaunch_ids (n : Nat) (x : Launch) : (s.setLaunch n x).ids = s.ids := rfl
@[simp] theorem State.setLaunch_fresh (n : Nat) (x : Launch) : (s.setLaunch n x).fresh = s.fresh := rfl
@[simp] theorem State.setLaunch_tick (n : Nat) (x : Launch) : (s.setLaunch n x).tick = s.tick := rfl
@[simp] theorem State.setLaunch_turn (n : Nat) (x : Launch) : (s.setLaunch n x).turn = s.turn := rfl
@[simp] theorem State.setLaunch_cur (n : Nat) (x : Launch) : (s.setLaunch n x).cur = s.cur := rfl

/-! ### setCtx -/

@[simp] theorem State.setCtx_cores (n : Nat) (x : Ctx) : (s.setCtx n x).cores = s.cores := rfl
@[simp] theorem State.setCtx_ctls (n : Nat) (x : Ctx) : (s.setCtx n x).ctls = s.ctls := rfl
@[simp] theorem State.setCtx_reqs (n : Nat) (x : Ctx) : (s.setCtx n x).reqs = s.reqs := rfl
@[simp] theorem State.setCtx_parts (n : Nat) (x : Ctx) : (s.setCtx n x).parts = s.parts := rfl
@[simp] theorem State.setCtx_basin (n : Nat) (x : Ctx) : (s.setCtx n x).basin = s.basin := rfl
@[simp] theorem State.setCtx_dram (n : Nat) (x : Ctx) : (s.setCtx n x).dram = s.dram := rfl
@[simp] theorem State.setCtx_elision (n : Nat) (x : Ctx) : (s.setCtx n x).elision = s.elision := rfl
@[simp] theorem State.setCtx_blockKey (n : Nat) (x : Ctx) : (s.setCtx n x).blockKey = s.blockKey := rfl
@[simp] theorem State.setCtx_badBlk (n : Nat) (x : Ctx) : (s.setCtx n x).badBlk = s.badBlk := rfl
@[simp] theorem State.setCtx_pond (n : Nat) (x : Ctx) : (s.setCtx n x).pond = s.pond := rfl
@[simp] theorem State.setCtx_farMem (n : Nat) (x : Ctx) : (s.setCtx n x).farMem = s.farMem := rfl
@[simp] theorem State.setCtx_hostMem (n : Nat) (x : Ctx) : (s.setCtx n x).hostMem = s.hostMem := rfl
@[simp] theorem State.setCtx_reports (n : Nat) (x : Ctx) : (s.setCtx n x).reports = s.reports := rfl
@[simp] theorem State.setCtx_kernels (n : Nat) (x : Ctx) : (s.setCtx n x).kernels = s.kernels := rfl
@[simp] theorem State.setCtx_objs (n : Nat) (x : Ctx) : (s.setCtx n x).objs = s.objs := rfl
@[simp] theorem State.setCtx_launches (n : Nat) (x : Ctx) : (s.setCtx n x).launches = s.launches := rfl
@[simp] theorem State.setCtx_parcels (n : Nat) (x : Ctx) : (s.setCtx n x).parcels = s.parcels := rfl
@[simp] theorem State.setCtx_queues (n : Nat) (x : Ctx) : (s.setCtx n x).queues = s.queues := rfl
@[simp] theorem State.setCtx_hwslots (n : Nat) (x : Ctx) : (s.setCtx n x).hwslots = s.hwslots := rfl
@[simp] theorem State.setCtx_wake (n : Nat) (x : Ctx) : (s.setCtx n x).wake = s.wake := rfl
@[simp] theorem State.setCtx_rr (n : Nat) (x : Ctx) : (s.setCtx n x).rr = s.rr := rfl
@[simp] theorem State.setCtx_scan (n : Nat) (x : Ctx) : (s.setCtx n x).scan = s.scan := rfl
@[simp] theorem State.setCtx_hwAlg (n : Nat) (x : Ctx) : (s.setCtx n x).hwAlg = s.hwAlg := rfl
@[simp] theorem State.setCtx_ports (n : Nat) (x : Ctx) : (s.setCtx n x).ports = s.ports := rfl
@[simp] theorem State.setCtx_wh (n : Nat) (x : Ctx) : (s.setCtx n x).wh = s.wh := rfl
@[simp] theorem State.setCtx_msix (n : Nat) (x : Ctx) : (s.setCtx n x).msix = s.msix := rfl
@[simp] theorem State.setCtx_ids (n : Nat) (x : Ctx) : (s.setCtx n x).ids = s.ids := rfl
@[simp] theorem State.setCtx_fresh (n : Nat) (x : Ctx) : (s.setCtx n x).fresh = s.fresh := rfl
@[simp] theorem State.setCtx_tick (n : Nat) (x : Ctx) : (s.setCtx n x).tick = s.tick := rfl
@[simp] theorem State.setCtx_turn (n : Nat) (x : Ctx) : (s.setCtx n x).turn = s.turn := rfl
@[simp] theorem State.setCtx_cur (n : Nat) (x : Ctx) : (s.setCtx n x).cur = s.cur := rfl

/-! ### setPart -/

@[simp] theorem State.setPart_cores (n : Nat) (x : Partn) : (s.setPart n x).cores = s.cores := rfl
@[simp] theorem State.setPart_ctls (n : Nat) (x : Partn) : (s.setPart n x).ctls = s.ctls := rfl
@[simp] theorem State.setPart_reqs (n : Nat) (x : Partn) : (s.setPart n x).reqs = s.reqs := rfl
@[simp] theorem State.setPart_basin (n : Nat) (x : Partn) : (s.setPart n x).basin = s.basin := rfl
@[simp] theorem State.setPart_dram (n : Nat) (x : Partn) : (s.setPart n x).dram = s.dram := rfl
@[simp] theorem State.setPart_elision (n : Nat) (x : Partn) : (s.setPart n x).elision = s.elision := rfl
@[simp] theorem State.setPart_blockKey (n : Nat) (x : Partn) : (s.setPart n x).blockKey = s.blockKey := rfl
@[simp] theorem State.setPart_badBlk (n : Nat) (x : Partn) : (s.setPart n x).badBlk = s.badBlk := rfl
@[simp] theorem State.setPart_pond (n : Nat) (x : Partn) : (s.setPart n x).pond = s.pond := rfl
@[simp] theorem State.setPart_farMem (n : Nat) (x : Partn) : (s.setPart n x).farMem = s.farMem := rfl
@[simp] theorem State.setPart_hostMem (n : Nat) (x : Partn) : (s.setPart n x).hostMem = s.hostMem := rfl
@[simp] theorem State.setPart_reports (n : Nat) (x : Partn) : (s.setPart n x).reports = s.reports := rfl
@[simp] theorem State.setPart_ctxs (n : Nat) (x : Partn) : (s.setPart n x).ctxs = s.ctxs := rfl
@[simp] theorem State.setPart_kernels (n : Nat) (x : Partn) : (s.setPart n x).kernels = s.kernels := rfl
@[simp] theorem State.setPart_objs (n : Nat) (x : Partn) : (s.setPart n x).objs = s.objs := rfl
@[simp] theorem State.setPart_launches (n : Nat) (x : Partn) : (s.setPart n x).launches = s.launches := rfl
@[simp] theorem State.setPart_parcels (n : Nat) (x : Partn) : (s.setPart n x).parcels = s.parcels := rfl
@[simp] theorem State.setPart_queues (n : Nat) (x : Partn) : (s.setPart n x).queues = s.queues := rfl
@[simp] theorem State.setPart_hwslots (n : Nat) (x : Partn) : (s.setPart n x).hwslots = s.hwslots := rfl
@[simp] theorem State.setPart_wake (n : Nat) (x : Partn) : (s.setPart n x).wake = s.wake := rfl
@[simp] theorem State.setPart_rr (n : Nat) (x : Partn) : (s.setPart n x).rr = s.rr := rfl
@[simp] theorem State.setPart_scan (n : Nat) (x : Partn) : (s.setPart n x).scan = s.scan := rfl
@[simp] theorem State.setPart_hwAlg (n : Nat) (x : Partn) : (s.setPart n x).hwAlg = s.hwAlg := rfl
@[simp] theorem State.setPart_ports (n : Nat) (x : Partn) : (s.setPart n x).ports = s.ports := rfl
@[simp] theorem State.setPart_wh (n : Nat) (x : Partn) : (s.setPart n x).wh = s.wh := rfl
@[simp] theorem State.setPart_msix (n : Nat) (x : Partn) : (s.setPart n x).msix = s.msix := rfl
@[simp] theorem State.setPart_ids (n : Nat) (x : Partn) : (s.setPart n x).ids = s.ids := rfl
@[simp] theorem State.setPart_fresh (n : Nat) (x : Partn) : (s.setPart n x).fresh = s.fresh := rfl
@[simp] theorem State.setPart_tick (n : Nat) (x : Partn) : (s.setPart n x).tick = s.tick := rfl
@[simp] theorem State.setPart_turn (n : Nat) (x : Partn) : (s.setPart n x).turn = s.turn := rfl
@[simp] theorem State.setPart_cur (n : Nat) (x : Partn) : (s.setPart n x).cur = s.cur := rfl

/-! ### setPort -/

@[simp] theorem State.setPort_cores (n : Nat) (x : Port) : (s.setPort n x).cores = s.cores := rfl
@[simp] theorem State.setPort_ctls (n : Nat) (x : Port) : (s.setPort n x).ctls = s.ctls := rfl
@[simp] theorem State.setPort_reqs (n : Nat) (x : Port) : (s.setPort n x).reqs = s.reqs := rfl
@[simp] theorem State.setPort_parts (n : Nat) (x : Port) : (s.setPort n x).parts = s.parts := rfl
@[simp] theorem State.setPort_basin (n : Nat) (x : Port) : (s.setPort n x).basin = s.basin := rfl
@[simp] theorem State.setPort_dram (n : Nat) (x : Port) : (s.setPort n x).dram = s.dram := rfl
@[simp] theorem State.setPort_elision (n : Nat) (x : Port) : (s.setPort n x).elision = s.elision := rfl
@[simp] theorem State.setPort_blockKey (n : Nat) (x : Port) : (s.setPort n x).blockKey = s.blockKey := rfl
@[simp] theorem State.setPort_badBlk (n : Nat) (x : Port) : (s.setPort n x).badBlk = s.badBlk := rfl
@[simp] theorem State.setPort_pond (n : Nat) (x : Port) : (s.setPort n x).pond = s.pond := rfl
@[simp] theorem State.setPort_farMem (n : Nat) (x : Port) : (s.setPort n x).farMem = s.farMem := rfl
@[simp] theorem State.setPort_hostMem (n : Nat) (x : Port) : (s.setPort n x).hostMem = s.hostMem := rfl
@[simp] theorem State.setPort_reports (n : Nat) (x : Port) : (s.setPort n x).reports = s.reports := rfl
@[simp] theorem State.setPort_ctxs (n : Nat) (x : Port) : (s.setPort n x).ctxs = s.ctxs := rfl
@[simp] theorem State.setPort_kernels (n : Nat) (x : Port) : (s.setPort n x).kernels = s.kernels := rfl
@[simp] theorem State.setPort_objs (n : Nat) (x : Port) : (s.setPort n x).objs = s.objs := rfl
@[simp] theorem State.setPort_launches (n : Nat) (x : Port) : (s.setPort n x).launches = s.launches := rfl
@[simp] theorem State.setPort_parcels (n : Nat) (x : Port) : (s.setPort n x).parcels = s.parcels := rfl
@[simp] theorem State.setPort_queues (n : Nat) (x : Port) : (s.setPort n x).queues = s.queues := rfl
@[simp] theorem State.setPort_hwslots (n : Nat) (x : Port) : (s.setPort n x).hwslots = s.hwslots := rfl
@[simp] theorem State.setPort_wake (n : Nat) (x : Port) : (s.setPort n x).wake = s.wake := rfl
@[simp] theorem State.setPort_rr (n : Nat) (x : Port) : (s.setPort n x).rr = s.rr := rfl
@[simp] theorem State.setPort_scan (n : Nat) (x : Port) : (s.setPort n x).scan = s.scan := rfl
@[simp] theorem State.setPort_hwAlg (n : Nat) (x : Port) : (s.setPort n x).hwAlg = s.hwAlg := rfl
@[simp] theorem State.setPort_wh (n : Nat) (x : Port) : (s.setPort n x).wh = s.wh := rfl
@[simp] theorem State.setPort_msix (n : Nat) (x : Port) : (s.setPort n x).msix = s.msix := rfl
@[simp] theorem State.setPort_ids (n : Nat) (x : Port) : (s.setPort n x).ids = s.ids := rfl
@[simp] theorem State.setPort_fresh (n : Nat) (x : Port) : (s.setPort n x).fresh = s.fresh := rfl
@[simp] theorem State.setPort_tick (n : Nat) (x : Port) : (s.setPort n x).tick = s.tick := rfl
@[simp] theorem State.setPort_turn (n : Nat) (x : Port) : (s.setPort n x).turn = s.turn := rfl
@[simp] theorem State.setPort_cur (n : Nat) (x : Port) : (s.setPort n x).cur = s.cur := rfl

/-! ### setQueue -/

@[simp] theorem State.setQueue_cores (n : Nat) (x : Queue) : (s.setQueue n x).cores = s.cores := rfl
@[simp] theorem State.setQueue_ctls (n : Nat) (x : Queue) : (s.setQueue n x).ctls = s.ctls := rfl
@[simp] theorem State.setQueue_reqs (n : Nat) (x : Queue) : (s.setQueue n x).reqs = s.reqs := rfl
@[simp] theorem State.setQueue_parts (n : Nat) (x : Queue) : (s.setQueue n x).parts = s.parts := rfl
@[simp] theorem State.setQueue_basin (n : Nat) (x : Queue) : (s.setQueue n x).basin = s.basin := rfl
@[simp] theorem State.setQueue_dram (n : Nat) (x : Queue) : (s.setQueue n x).dram = s.dram := rfl
@[simp] theorem State.setQueue_elision (n : Nat) (x : Queue) : (s.setQueue n x).elision = s.elision := rfl
@[simp] theorem State.setQueue_blockKey (n : Nat) (x : Queue) : (s.setQueue n x).blockKey = s.blockKey := rfl
@[simp] theorem State.setQueue_badBlk (n : Nat) (x : Queue) : (s.setQueue n x).badBlk = s.badBlk := rfl
@[simp] theorem State.setQueue_pond (n : Nat) (x : Queue) : (s.setQueue n x).pond = s.pond := rfl
@[simp] theorem State.setQueue_farMem (n : Nat) (x : Queue) : (s.setQueue n x).farMem = s.farMem := rfl
@[simp] theorem State.setQueue_hostMem (n : Nat) (x : Queue) : (s.setQueue n x).hostMem = s.hostMem := rfl
@[simp] theorem State.setQueue_reports (n : Nat) (x : Queue) : (s.setQueue n x).reports = s.reports := rfl
@[simp] theorem State.setQueue_ctxs (n : Nat) (x : Queue) : (s.setQueue n x).ctxs = s.ctxs := rfl
@[simp] theorem State.setQueue_kernels (n : Nat) (x : Queue) : (s.setQueue n x).kernels = s.kernels := rfl
@[simp] theorem State.setQueue_objs (n : Nat) (x : Queue) : (s.setQueue n x).objs = s.objs := rfl
@[simp] theorem State.setQueue_launches (n : Nat) (x : Queue) : (s.setQueue n x).launches = s.launches := rfl
@[simp] theorem State.setQueue_parcels (n : Nat) (x : Queue) : (s.setQueue n x).parcels = s.parcels := rfl
@[simp] theorem State.setQueue_hwslots (n : Nat) (x : Queue) : (s.setQueue n x).hwslots = s.hwslots := rfl
@[simp] theorem State.setQueue_wake (n : Nat) (x : Queue) : (s.setQueue n x).wake = s.wake := rfl
@[simp] theorem State.setQueue_rr (n : Nat) (x : Queue) : (s.setQueue n x).rr = s.rr := rfl
@[simp] theorem State.setQueue_scan (n : Nat) (x : Queue) : (s.setQueue n x).scan = s.scan := rfl
@[simp] theorem State.setQueue_hwAlg (n : Nat) (x : Queue) : (s.setQueue n x).hwAlg = s.hwAlg := rfl
@[simp] theorem State.setQueue_ports (n : Nat) (x : Queue) : (s.setQueue n x).ports = s.ports := rfl
@[simp] theorem State.setQueue_wh (n : Nat) (x : Queue) : (s.setQueue n x).wh = s.wh := rfl
@[simp] theorem State.setQueue_msix (n : Nat) (x : Queue) : (s.setQueue n x).msix = s.msix := rfl
@[simp] theorem State.setQueue_ids (n : Nat) (x : Queue) : (s.setQueue n x).ids = s.ids := rfl
@[simp] theorem State.setQueue_fresh (n : Nat) (x : Queue) : (s.setQueue n x).fresh = s.fresh := rfl
@[simp] theorem State.setQueue_tick (n : Nat) (x : Queue) : (s.setQueue n x).tick = s.tick := rfl
@[simp] theorem State.setQueue_turn (n : Nat) (x : Queue) : (s.setQueue n x).turn = s.turn := rfl
@[simp] theorem State.setQueue_cur (n : Nat) (x : Queue) : (s.setQueue n x).cur = s.cur := rfl

/-! ### setSlot -/

@[simp] theorem State.setSlot_ctls (c sl : Nat) (x : Slot) : (s.setSlot c sl x).ctls = s.ctls := rfl
@[simp] theorem State.setSlot_reqs (c sl : Nat) (x : Slot) : (s.setSlot c sl x).reqs = s.reqs := rfl
@[simp] theorem State.setSlot_parts (c sl : Nat) (x : Slot) : (s.setSlot c sl x).parts = s.parts := rfl
@[simp] theorem State.setSlot_basin (c sl : Nat) (x : Slot) : (s.setSlot c sl x).basin = s.basin := rfl
@[simp] theorem State.setSlot_dram (c sl : Nat) (x : Slot) : (s.setSlot c sl x).dram = s.dram := rfl
@[simp] theorem State.setSlot_elision (c sl : Nat) (x : Slot) : (s.setSlot c sl x).elision = s.elision := rfl
@[simp] theorem State.setSlot_blockKey (c sl : Nat) (x : Slot) : (s.setSlot c sl x).blockKey = s.blockKey := rfl
@[simp] theorem State.setSlot_badBlk (c sl : Nat) (x : Slot) : (s.setSlot c sl x).badBlk = s.badBlk := rfl
@[simp] theorem State.setSlot_pond (c sl : Nat) (x : Slot) : (s.setSlot c sl x).pond = s.pond := rfl
@[simp] theorem State.setSlot_farMem (c sl : Nat) (x : Slot) : (s.setSlot c sl x).farMem = s.farMem := rfl
@[simp] theorem State.setSlot_hostMem (c sl : Nat) (x : Slot) : (s.setSlot c sl x).hostMem = s.hostMem := rfl
@[simp] theorem State.setSlot_reports (c sl : Nat) (x : Slot) : (s.setSlot c sl x).reports = s.reports := rfl
@[simp] theorem State.setSlot_ctxs (c sl : Nat) (x : Slot) : (s.setSlot c sl x).ctxs = s.ctxs := rfl
@[simp] theorem State.setSlot_kernels (c sl : Nat) (x : Slot) : (s.setSlot c sl x).kernels = s.kernels := rfl
@[simp] theorem State.setSlot_objs (c sl : Nat) (x : Slot) : (s.setSlot c sl x).objs = s.objs := rfl
@[simp] theorem State.setSlot_launches (c sl : Nat) (x : Slot) : (s.setSlot c sl x).launches = s.launches := rfl
@[simp] theorem State.setSlot_parcels (c sl : Nat) (x : Slot) : (s.setSlot c sl x).parcels = s.parcels := rfl
@[simp] theorem State.setSlot_queues (c sl : Nat) (x : Slot) : (s.setSlot c sl x).queues = s.queues := rfl
@[simp] theorem State.setSlot_hwslots (c sl : Nat) (x : Slot) : (s.setSlot c sl x).hwslots = s.hwslots := rfl
@[simp] theorem State.setSlot_wake (c sl : Nat) (x : Slot) : (s.setSlot c sl x).wake = s.wake := rfl
@[simp] theorem State.setSlot_rr (c sl : Nat) (x : Slot) : (s.setSlot c sl x).rr = s.rr := rfl
@[simp] theorem State.setSlot_scan (c sl : Nat) (x : Slot) : (s.setSlot c sl x).scan = s.scan := rfl
@[simp] theorem State.setSlot_hwAlg (c sl : Nat) (x : Slot) : (s.setSlot c sl x).hwAlg = s.hwAlg := rfl
@[simp] theorem State.setSlot_ports (c sl : Nat) (x : Slot) : (s.setSlot c sl x).ports = s.ports := rfl
@[simp] theorem State.setSlot_wh (c sl : Nat) (x : Slot) : (s.setSlot c sl x).wh = s.wh := rfl
@[simp] theorem State.setSlot_msix (c sl : Nat) (x : Slot) : (s.setSlot c sl x).msix = s.msix := rfl
@[simp] theorem State.setSlot_ids (c sl : Nat) (x : Slot) : (s.setSlot c sl x).ids = s.ids := rfl
@[simp] theorem State.setSlot_fresh (c sl : Nat) (x : Slot) : (s.setSlot c sl x).fresh = s.fresh := rfl
@[simp] theorem State.setSlot_tick (c sl : Nat) (x : Slot) : (s.setSlot c sl x).tick = s.tick := rfl
@[simp] theorem State.setSlot_turn (c sl : Nat) (x : Slot) : (s.setSlot c sl x).turn = s.turn := rfl
@[simp] theorem State.setSlot_cur (c sl : Nat) (x : Slot) : (s.setSlot c sl x).cur = s.cur := rfl

/-! ### setEntry -/

@[simp] theorem State.setEntry_ctls (c sl e : Nat) (x : Entry) : (s.setEntry c sl e x).ctls = s.ctls := rfl
@[simp] theorem State.setEntry_reqs (c sl e : Nat) (x : Entry) : (s.setEntry c sl e x).reqs = s.reqs := rfl
@[simp] theorem State.setEntry_parts (c sl e : Nat) (x : Entry) : (s.setEntry c sl e x).parts = s.parts := rfl
@[simp] theorem State.setEntry_basin (c sl e : Nat) (x : Entry) : (s.setEntry c sl e x).basin = s.basin := rfl
@[simp] theorem State.setEntry_dram (c sl e : Nat) (x : Entry) : (s.setEntry c sl e x).dram = s.dram := rfl
@[simp] theorem State.setEntry_elision (c sl e : Nat) (x : Entry) : (s.setEntry c sl e x).elision = s.elision := rfl
@[simp] theorem State.setEntry_blockKey (c sl e : Nat) (x : Entry) : (s.setEntry c sl e x).blockKey = s.blockKey := rfl
@[simp] theorem State.setEntry_badBlk (c sl e : Nat) (x : Entry) : (s.setEntry c sl e x).badBlk = s.badBlk := rfl
@[simp] theorem State.setEntry_pond (c sl e : Nat) (x : Entry) : (s.setEntry c sl e x).pond = s.pond := rfl
@[simp] theorem State.setEntry_farMem (c sl e : Nat) (x : Entry) : (s.setEntry c sl e x).farMem = s.farMem := rfl
@[simp] theorem State.setEntry_hostMem (c sl e : Nat) (x : Entry) : (s.setEntry c sl e x).hostMem = s.hostMem := rfl
@[simp] theorem State.setEntry_reports (c sl e : Nat) (x : Entry) : (s.setEntry c sl e x).reports = s.reports := rfl
@[simp] theorem State.setEntry_ctxs (c sl e : Nat) (x : Entry) : (s.setEntry c sl e x).ctxs = s.ctxs := rfl
@[simp] theorem State.setEntry_kernels (c sl e : Nat) (x : Entry) : (s.setEntry c sl e x).kernels = s.kernels := rfl
@[simp] theorem State.setEntry_objs (c sl e : Nat) (x : Entry) : (s.setEntry c sl e x).objs = s.objs := rfl
@[simp] theorem State.setEntry_launches (c sl e : Nat) (x : Entry) : (s.setEntry c sl e x).launches = s.launches := rfl
@[simp] theorem State.setEntry_parcels (c sl e : Nat) (x : Entry) : (s.setEntry c sl e x).parcels = s.parcels := rfl
@[simp] theorem State.setEntry_queues (c sl e : Nat) (x : Entry) : (s.setEntry c sl e x).queues = s.queues := rfl
@[simp] theorem State.setEntry_hwslots (c sl e : Nat) (x : Entry) : (s.setEntry c sl e x).hwslots = s.hwslots := rfl
@[simp] theorem State.setEntry_wake (c sl e : Nat) (x : Entry) : (s.setEntry c sl e x).wake = s.wake := rfl
@[simp] theorem State.setEntry_rr (c sl e : Nat) (x : Entry) : (s.setEntry c sl e x).rr = s.rr := rfl
@[simp] theorem State.setEntry_scan (c sl e : Nat) (x : Entry) : (s.setEntry c sl e x).scan = s.scan := rfl
@[simp] theorem State.setEntry_hwAlg (c sl e : Nat) (x : Entry) : (s.setEntry c sl e x).hwAlg = s.hwAlg := rfl
@[simp] theorem State.setEntry_ports (c sl e : Nat) (x : Entry) : (s.setEntry c sl e x).ports = s.ports := rfl
@[simp] theorem State.setEntry_wh (c sl e : Nat) (x : Entry) : (s.setEntry c sl e x).wh = s.wh := rfl
@[simp] theorem State.setEntry_msix (c sl e : Nat) (x : Entry) : (s.setEntry c sl e x).msix = s.msix := rfl
@[simp] theorem State.setEntry_ids (c sl e : Nat) (x : Entry) : (s.setEntry c sl e x).ids = s.ids := rfl
@[simp] theorem State.setEntry_fresh (c sl e : Nat) (x : Entry) : (s.setEntry c sl e x).fresh = s.fresh := rfl
@[simp] theorem State.setEntry_tick (c sl e : Nat) (x : Entry) : (s.setEntry c sl e x).tick = s.tick := rfl
@[simp] theorem State.setEntry_turn (c sl e : Nat) (x : Entry) : (s.setEntry c sl e x).turn = s.turn := rfl
@[simp] theorem State.setEntry_cur (c sl e : Nat) (x : Entry) : (s.setEntry c sl e x).cur = s.cur := rfl

/-! ### delEntry -/

@[simp] theorem State.delEntry_ctls (c sl e : Nat) : (s.delEntry c sl e).ctls = s.ctls := rfl
@[simp] theorem State.delEntry_reqs (c sl e : Nat) : (s.delEntry c sl e).reqs = s.reqs := rfl
@[simp] theorem State.delEntry_parts (c sl e : Nat) : (s.delEntry c sl e).parts = s.parts := rfl
@[simp] theorem State.delEntry_basin (c sl e : Nat) : (s.delEntry c sl e).basin = s.basin := rfl
@[simp] theorem State.delEntry_dram (c sl e : Nat) : (s.delEntry c sl e).dram = s.dram := rfl
@[simp] theorem State.delEntry_elision (c sl e : Nat) : (s.delEntry c sl e).elision = s.elision := rfl
@[simp] theorem State.delEntry_blockKey (c sl e : Nat) : (s.delEntry c sl e).blockKey = s.blockKey := rfl
@[simp] theorem State.delEntry_badBlk (c sl e : Nat) : (s.delEntry c sl e).badBlk = s.badBlk := rfl
@[simp] theorem State.delEntry_pond (c sl e : Nat) : (s.delEntry c sl e).pond = s.pond := rfl
@[simp] theorem State.delEntry_farMem (c sl e : Nat) : (s.delEntry c sl e).farMem = s.farMem := rfl
@[simp] theorem State.delEntry_hostMem (c sl e : Nat) : (s.delEntry c sl e).hostMem = s.hostMem := rfl
@[simp] theorem State.delEntry_reports (c sl e : Nat) : (s.delEntry c sl e).reports = s.reports := rfl
@[simp] theorem State.delEntry_ctxs (c sl e : Nat) : (s.delEntry c sl e).ctxs = s.ctxs := rfl
@[simp] theorem State.delEntry_kernels (c sl e : Nat) : (s.delEntry c sl e).kernels = s.kernels := rfl
@[simp] theorem State.delEntry_objs (c sl e : Nat) : (s.delEntry c sl e).objs = s.objs := rfl
@[simp] theorem State.delEntry_launches (c sl e : Nat) : (s.delEntry c sl e).launches = s.launches := rfl
@[simp] theorem State.delEntry_parcels (c sl e : Nat) : (s.delEntry c sl e).parcels = s.parcels := rfl
@[simp] theorem State.delEntry_queues (c sl e : Nat) : (s.delEntry c sl e).queues = s.queues := rfl
@[simp] theorem State.delEntry_hwslots (c sl e : Nat) : (s.delEntry c sl e).hwslots = s.hwslots := rfl
@[simp] theorem State.delEntry_wake (c sl e : Nat) : (s.delEntry c sl e).wake = s.wake := rfl
@[simp] theorem State.delEntry_rr (c sl e : Nat) : (s.delEntry c sl e).rr = s.rr := rfl
@[simp] theorem State.delEntry_scan (c sl e : Nat) : (s.delEntry c sl e).scan = s.scan := rfl
@[simp] theorem State.delEntry_hwAlg (c sl e : Nat) : (s.delEntry c sl e).hwAlg = s.hwAlg := rfl
@[simp] theorem State.delEntry_ports (c sl e : Nat) : (s.delEntry c sl e).ports = s.ports := rfl
@[simp] theorem State.delEntry_wh (c sl e : Nat) : (s.delEntry c sl e).wh = s.wh := rfl
@[simp] theorem State.delEntry_msix (c sl e : Nat) : (s.delEntry c sl e).msix = s.msix := rfl
@[simp] theorem State.delEntry_ids (c sl e : Nat) : (s.delEntry c sl e).ids = s.ids := rfl
@[simp] theorem State.delEntry_fresh (c sl e : Nat) : (s.delEntry c sl e).fresh = s.fresh := rfl
@[simp] theorem State.delEntry_tick (c sl e : Nat) : (s.delEntry c sl e).tick = s.tick := rfl
@[simp] theorem State.delEntry_turn (c sl e : Nat) : (s.delEntry c sl e).turn = s.turn := rfl
@[simp] theorem State.delEntry_cur (c sl e : Nat) : (s.delEntry c sl e).cur = s.cur := rfl

/-! ### setTeam -/

@[simp] theorem State.setTeam_ctls (c sl n : Nat) (x : Team) : (s.setTeam c sl n x).ctls = s.ctls := rfl
@[simp] theorem State.setTeam_reqs (c sl n : Nat) (x : Team) : (s.setTeam c sl n x).reqs = s.reqs := rfl
@[simp] theorem State.setTeam_parts (c sl n : Nat) (x : Team) : (s.setTeam c sl n x).parts = s.parts := rfl
@[simp] theorem State.setTeam_basin (c sl n : Nat) (x : Team) : (s.setTeam c sl n x).basin = s.basin := rfl
@[simp] theorem State.setTeam_dram (c sl n : Nat) (x : Team) : (s.setTeam c sl n x).dram = s.dram := rfl
@[simp] theorem State.setTeam_elision (c sl n : Nat) (x : Team) : (s.setTeam c sl n x).elision = s.elision := rfl
@[simp] theorem State.setTeam_blockKey (c sl n : Nat) (x : Team) : (s.setTeam c sl n x).blockKey = s.blockKey := rfl
@[simp] theorem State.setTeam_badBlk (c sl n : Nat) (x : Team) : (s.setTeam c sl n x).badBlk = s.badBlk := rfl
@[simp] theorem State.setTeam_pond (c sl n : Nat) (x : Team) : (s.setTeam c sl n x).pond = s.pond := rfl
@[simp] theorem State.setTeam_farMem (c sl n : Nat) (x : Team) : (s.setTeam c sl n x).farMem = s.farMem := rfl
@[simp] theorem State.setTeam_hostMem (c sl n : Nat) (x : Team) : (s.setTeam c sl n x).hostMem = s.hostMem := rfl
@[simp] theorem State.setTeam_reports (c sl n : Nat) (x : Team) : (s.setTeam c sl n x).reports = s.reports := rfl
@[simp] theorem State.setTeam_ctxs (c sl n : Nat) (x : Team) : (s.setTeam c sl n x).ctxs = s.ctxs := rfl
@[simp] theorem State.setTeam_kernels (c sl n : Nat) (x : Team) : (s.setTeam c sl n x).kernels = s.kernels := rfl
@[simp] theorem State.setTeam_objs (c sl n : Nat) (x : Team) : (s.setTeam c sl n x).objs = s.objs := rfl
@[simp] theorem State.setTeam_launches (c sl n : Nat) (x : Team) : (s.setTeam c sl n x).launches = s.launches := rfl
@[simp] theorem State.setTeam_parcels (c sl n : Nat) (x : Team) : (s.setTeam c sl n x).parcels = s.parcels := rfl
@[simp] theorem State.setTeam_queues (c sl n : Nat) (x : Team) : (s.setTeam c sl n x).queues = s.queues := rfl
@[simp] theorem State.setTeam_hwslots (c sl n : Nat) (x : Team) : (s.setTeam c sl n x).hwslots = s.hwslots := rfl
@[simp] theorem State.setTeam_wake (c sl n : Nat) (x : Team) : (s.setTeam c sl n x).wake = s.wake := rfl
@[simp] theorem State.setTeam_rr (c sl n : Nat) (x : Team) : (s.setTeam c sl n x).rr = s.rr := rfl
@[simp] theorem State.setTeam_scan (c sl n : Nat) (x : Team) : (s.setTeam c sl n x).scan = s.scan := rfl
@[simp] theorem State.setTeam_hwAlg (c sl n : Nat) (x : Team) : (s.setTeam c sl n x).hwAlg = s.hwAlg := rfl
@[simp] theorem State.setTeam_ports (c sl n : Nat) (x : Team) : (s.setTeam c sl n x).ports = s.ports := rfl
@[simp] theorem State.setTeam_wh (c sl n : Nat) (x : Team) : (s.setTeam c sl n x).wh = s.wh := rfl
@[simp] theorem State.setTeam_msix (c sl n : Nat) (x : Team) : (s.setTeam c sl n x).msix = s.msix := rfl
@[simp] theorem State.setTeam_ids (c sl n : Nat) (x : Team) : (s.setTeam c sl n x).ids = s.ids := rfl
@[simp] theorem State.setTeam_fresh (c sl n : Nat) (x : Team) : (s.setTeam c sl n x).fresh = s.fresh := rfl
@[simp] theorem State.setTeam_tick (c sl n : Nat) (x : Team) : (s.setTeam c sl n x).tick = s.tick := rfl
@[simp] theorem State.setTeam_turn (c sl n : Nat) (x : Team) : (s.setTeam c sl n x).turn = s.turn := rfl
@[simp] theorem State.setTeam_cur (c sl n : Nat) (x : Team) : (s.setTeam c sl n x).cur = s.cur := rfl

/-! ### Units after an update -/

@[simp] theorem State.setCore_cores (c : Nat) (k : Core) : (s.setCore c k).cores = s.cores.put c k := rfl
@[simp] theorem State.setCtl_ctls (c : Nat) (x : Control) : (s.setCtl c x).ctls = s.ctls.put c x := rfl
@[simp] theorem State.setParcel_parcels (n : Nat) (x : Parcel) : (s.setParcel n x).parcels = s.parcels.put n x := rfl
@[simp] theorem State.setLaunch_launches (n : Nat) (x : Launch) : (s.setLaunch n x).launches = s.launches.put n x := rfl
@[simp] theorem State.setCtx_ctxs (n : Nat) (x : Ctx) : (s.setCtx n x).ctxs = s.ctxs.put n x := rfl
@[simp] theorem State.setPart_parts (n : Nat) (x : Partn) : (s.setPart n x).parts = s.parts.put n x := rfl
@[simp] theorem State.setPort_ports (n : Nat) (x : Port) : (s.setPort n x).ports = s.ports.put n x := rfl
@[simp] theorem State.setQueue_queues (n : Nat) (x : Queue) : (s.setQueue n x).queues = s.queues.put n x := rfl

theorem State.ctl_setCtl (n m : Nat) (x : Control) : (s.setCtl n x).ctl m = if m = n then x else s.ctl m := Store.get_put _ _ _ _ _
@[simp] theorem State.ctl_setCtl_same (n : Nat) (x : Control) : (s.setCtl n x).ctl n = x := Store.get_put_same _ _ _ _
theorem State.parcel_setParcel (n m : Nat) (x : Parcel) : (s.setParcel n x).parcel m = if m = n then x else s.parcel m := Store.get_put _ _ _ _ _
@[simp] theorem State.parcel_setParcel_same (n : Nat) (x : Parcel) : (s.setParcel n x).parcel n = x := Store.get_put_same _ _ _ _
theorem State.launchOf_setLaunch (n m : Nat) (x : Launch) : (s.setLaunch n x).launchOf m = if m = n then x else s.launchOf m := Store.get_put _ _ _ _ _
@[simp] theorem State.launchOf_setLaunch_same (n : Nat) (x : Launch) : (s.setLaunch n x).launchOf n = x := Store.get_put_same _ _ _ _
theorem State.ctxOf_setCtx (n m : Nat) (x : Ctx) : (s.setCtx n x).ctxOf m = if m = n then x else s.ctxOf m := Store.get_put _ _ _ _ _
@[simp] theorem State.ctxOf_setCtx_same (n : Nat) (x : Ctx) : (s.setCtx n x).ctxOf n = x := Store.get_put_same _ _ _ _
theorem State.part_setPart (n m : Nat) (x : Partn) : (s.setPart n x).part m = if m = n then x else s.part m := Store.get_put _ _ _ _ _
@[simp] theorem State.part_setPart_same (n : Nat) (x : Partn) : (s.setPart n x).part n = x := Store.get_put_same _ _ _ _
theorem State.port_setPort (n m : Nat) (x : Port) : (s.setPort n x).port m = if m = n then x else s.port m := Store.get_put _ _ _ _ _
@[simp] theorem State.port_setPort_same (n : Nat) (x : Port) : (s.setPort n x).port n = x := Store.get_put_same _ _ _ _
theorem State.queue_setQueue (n m : Nat) (x : Queue) : (s.setQueue n x).queue m = if m = n then x else s.queue m := Store.get_put _ _ _ _ _
@[simp] theorem State.queue_setQueue_same (n : Nat) (x : Queue) : (s.setQueue n x).queue n = x := Store.get_put_same _ _ _ _
theorem State.core_setCore (n m : Nat) (x : Core) : (s.setCore n x).core m = if m = n then x else s.core m := Store.get_put _ _ _ _ _
@[simp] theorem State.core_setCore_same (n : Nat) (x : Core) : (s.setCore n x).core n = x := Store.get_put_same _ _ _ _

theorem State.core_setSlot (c sl n : Nat) (x : Slot) :
    (s.setSlot c sl x).core n = if n = c then { s.core c with slots := (s.core c).slots.put sl x } else s.core n :=
  State.core_setCore s c n _

theorem State.slot_setSlot (c sl c' sl' : Nat) (x : Slot) :
    (s.setSlot c sl x).slot c' sl' = if c' = c ∧ sl' = sl then x else s.slot c' sl' := by
  simp only [State.slot, State.core_setSlot]
  by_cases hc : c' = c
  · subst hc
    simp only [if_true, true_and]
    exact Store.get_put _ _ _ _ _
  · simp [hc]

@[simp] theorem State.slot_setSlot_same (c sl : Nat) (x : Slot) : (s.setSlot c sl x).slot c sl = x := by
  simp [State.slot_setSlot]

theorem State.team_setTeam (c sl n c' sl' n' : Nat) (x : Team) :
    (s.setTeam c sl n x).team c' sl' n' = if c' = c ∧ sl' = sl ∧ n' = n then x else s.team c' sl' n' := by
  simp only [State.team, State.setTeam, State.slot_setSlot]
  by_cases h : c' = c ∧ sl' = sl
  · obtain ⟨rfl, rfl⟩ := h
    simp only [and_self, if_true, true_and]
    exact Store.get_put _ _ _ _ _
  · rw [if_neg h, if_neg (fun k => h ⟨k.1, k.2.1⟩)]

@[simp] theorem State.team_setTeam_same (c sl n : Nat) (x : Team) : (s.setTeam c sl n x).team c sl n = x := by
  simp [State.team_setTeam]

theorem State.entry?_setTeam (c sl n c' sl' e : Nat) (x : Team) :
    (s.setTeam c sl n x).entry? c' sl' e = s.entry? c' sl' e := by
  simp only [State.entry?, State.setTeam, State.slot_setSlot]
  by_cases h : c' = c ∧ sl' = sl
  · obtain ⟨rfl, rfl⟩ := h; simp
  · rw [if_neg h]

@[simp] theorem State.entry_setTeam (c sl n c' sl' e : Nat) (x : Team) :
    (s.setTeam c sl n x).entry c' sl' e = s.entry c' sl' e := by
  simp only [State.entry, State.setTeam, State.slot_setSlot]
  by_cases h : c' = c ∧ sl' = sl
  · obtain ⟨rfl, rfl⟩ := h; simp
  · rw [if_neg h]

theorem State.entry_setEntry (c sl e c' sl' e' : Nat) (x : Entry) :
    (s.setEntry c sl e x).entry c' sl' e' = if c' = c ∧ sl' = sl ∧ e' = e then x else s.entry c' sl' e' := by
  simp only [State.entry, State.setEntry, State.slot_setSlot]
  by_cases h : c' = c ∧ sl' = sl
  · obtain ⟨rfl, rfl⟩ := h
    simp only [and_self, if_true, true_and]
    exact Store.get_put _ _ _ _ _
  · rw [if_neg h, if_neg (fun k => h ⟨k.1, k.2.1⟩)]

@[simp] theorem State.entry_setEntry_same (c sl e : Nat) (x : Entry) : (s.setEntry c sl e x).entry c sl e = x := by
  simp [State.entry_setEntry]

theorem State.entry?_setEntry (c sl e c' sl' e' : Nat) (x : Entry) :
    (s.setEntry c sl e x).entry? c' sl' e' = if c' = c ∧ sl' = sl ∧ e' = e then some x else s.entry? c' sl' e' := by
  simp only [State.entry?, State.setEntry, State.slot_setSlot]
  by_cases h : c' = c ∧ sl' = sl
  · obtain ⟨rfl, rfl⟩ := h
    simp only [and_self, if_true, true_and]
    by_cases he : e' = e
    · subst he; simp
    · rw [if_neg he]; exact Store.look_put_other _ _ _ _ he
  · rw [if_neg h, if_neg (fun k => h ⟨k.1, k.2.1⟩)]

@[simp] theorem State.team_setEntry (c sl e c' sl' n : Nat) (x : Entry) :
    (s.setEntry c sl e x).team c' sl' n = s.team c' sl' n := by
  simp only [State.team, State.setEntry, State.slot_setSlot]
  by_cases h : c' = c ∧ sl' = sl
  · obtain ⟨rfl, rfl⟩ := h; simp
  · rw [if_neg h]

/-! ### Counters -/

@[simp] theorem State.newId_fst : (s.newId).1 = s.ids := rfl
@[simp] theorem State.free64_fst : (s.free64).1 = Config.freeBits s.fresh := rfl
@[simp] theorem State.freeBool_fst : (s.freeBool).1 = Config.freeBool s.fresh := rfl

/-- The memories and the current unit in canonical form at reset. -/
theorem State.reset_memories : State.reset.dram = [] ∧ State.reset.pond = [] ∧ State.reset.farMem = [] ∧
    State.reset.hostMem = [] := ⟨rfl, rfl, rfl, rfl⟩

end Sys2Proof.Machine
end

