-- ==== Sys2Proof/Laws/Issue.lean ====
section
/-! SUPPORT. What the issue of a team instruction does when its work only writes registers: reads with nothing under way, the
writes of an effect, the charge of its passes, and all of it together. -/

namespace Sys2Proof.Machine

open Sys2Proof.Said

/-! ### Reads with nothing under way (R185) -/

theorem lateRead_quiet {late : List Late} {cyc : Nat} (h : ∀ r ∈ late, r.avail ≤ cyc) (cls : RCls) (reg lane : Nat)
    (cur : Dword) : lateRead late cls reg lane cyc cur = cur := by
  have : late.find? (fun r => r.of cls reg lane && decide (cyc < r.avail)) = none := by
    rw [List.find?_eq_none]
    intro r hr
    have := h r hr
    simp [show ¬ cyc < r.avail by omega]
  simp only [lateRead, this]

theorem occ_pos (k : Nat) (i : Instr) : 1 ≤ occupancyOf k i := by
  unfold occupancyOf
  split
  · omega
  · split <;> first | omega | (split <;> omega)

/-- No pass issues before the cycle in which its instruction does. -/
theorem Iss.pass_ge (s : State) (c sl e : Nat) (i : Instr) : ∀ q ∈ (s.iss c sl e i).pass, (s.core c).cycle ≤ q.2 := by
  intro q hq
  simp only [State.iss, List.mem_map] at hq
  obtain ⟨y, _, rfl⟩ := hq
  have := occ_pos (algebraOf s (s.launchOf (s.parcel (s.team c sl (s.entry c sl e).team).pid).lid).ctx (clusterOf c) i) i
  revert this
  generalize occupancyOf _ _ = n
  intro this
  have : n * (y.2 + 1) = n * y.2 + n := by ring
  show _ ≤ _ + n * (y.2 + 1) - 1
  omega

theorem Iss.at_ge (s : State) (c sl e : Nat) (i : Instr) (lane : Nat) :
    (s.core c).cycle ≤ (s.iss c sl e i).at lane := by
  simp only [Iss.at, passAt]
  generalize hf : List.find? _ _ = o
  cases o with
  | none => exact Nat.le_refl _
  | some r => exact Iss.pass_ge s c sl e i r (List.mem_of_find?_eq_some hf)

theorem Iss.first_ge (s : State) (c sl e : Nat) (i : Instr) : (s.core c).cycle ≤ (s.iss c sl e i).first := by
  simp only [Iss.first]
  cases hf : (s.iss c sl e i).pass.head? with
  | none => exact Nat.le_refl _
  | some r => exact Iss.pass_ge s c sl e i r (List.mem_of_mem_head? hf)

section Reads

variable {s : State} {c sl e : Nat} {i : Instr}

theorem readV_quiet {t : Team} {cyc : Nat} (h : ∀ r ∈ t.late, r.avail ≤ cyc) (l r : Nat) :
    t.readV cyc l r = t.v.get 0 (l * 256 + r) := by
  simp [Team.readV, lateRead_quiet h]

theorem readS_quiet {t : Team} {cyc : Nat} (h : ∀ r ∈ t.late, r.avail ≤ cyc) (r : Nat) :
    t.readS cyc r = t.s.get 0 r := by
  simp [Team.readS, lateRead_quiet h]

theorem readP_quiet {t : Team} {cyc : Nat} (h : ∀ r ∈ t.late, r.avail ≤ cyc) (l r : Nat) :
    t.readP cyc l r = (r == 0 || (t.p.get 0 l).getLsbD r) := by
  simp only [Team.readP, lateRead_quiet h]
  by_cases hr : r = 0
  · simp [hr]
  · cases (t.p.get 0 l).getLsbD r <;> simp [hr]

theorem rv_eq (h : Clear s c sl e i) (l r : Nat) : (s.iss c sl e i).rv l r = vreg s c sl e l r :=
  readV_quiet (fun x hx => Nat.le_trans (h.quiet x hx) (Iss.at_ge s c sl e i l)) l r

theorem rs_eq (h : Clear s c sl e i) (r : Nat) : (s.iss c sl e i).rs r = sreg s c sl e r :=
  readS_quiet (fun x hx => Nat.le_trans (h.quiet x hx) (Iss.first_ge s c sl e i)) r

theorem rp_eq (h : Clear s c sl e i) (l r : Nat) : (s.iss c sl e i).rp l r = preg s c sl e l r :=
  readP_quiet (fun x hx => Nat.le_trans (h.quiet x hx) (Iss.at_ge s c sl e i l)) l r

theorem pair_eq (a b : Word) : BitVec.ofNat 64 (a.toNat + 2 ^ 32 * b.toNat) = (b ++ a : Dword) := by
  apply BitVec.eq_of_toNat_eq
  have ha := a.isLt
  have hb := b.isLt
  rw [BitVec.toNat_append, BitVec.toNat_ofNat, Nat.mod_eq_of_lt (by omega), ← Nat.shiftLeft_add_eq_or_of_lt ha,
    Nat.shiftLeft_eq]
  omega

theorem rv2_eq (h : Clear s c sl e i) (l r : Nat) : (s.iss c sl e i).rv2 l r = vpair s c sl e l r := by
  have h1 := rv_eq h l r
  have h2 := rv_eq h l (r + 1)
  simp only [Iss.rv] at h1 h2
  simp only [Iss.rv2, Team.readV2, h1, h2, pair_eq, vpair]

theorem rs2_eq (h : Clear s c sl e i) (r : Nat) : (s.iss c sl e i).rs2 r = spair s c sl e r := by
  have h1 := rs_eq h r
  have h2 := rs_eq h (r + 1)
  simp only [Iss.rs] at h1 h2
  simp only [Iss.rs2, Team.readS2, h1, h2, pair_eq, spair]

theorem act_eq (h : Clear s c sl e i) : (s.iss c sl e i).act = lanes s c sl e i := by
  have key : (s.iss c sl e i).act = (lanesOf (s.entry c sl e).mask).filter
      (fun l => (s.iss c sl e i).rp l (hdrOf i).pred.toNat != (hdrOf i).neg) := rfl
  rw [key, lanes, lanesOf, List.filter_filter]
  apply List.filter_congr
  intro l _
  rw [rp_eq h]
  simp [active, Bool.and_comm]

theorem width_eq (s : State) (c sl e : Nat) (i : Instr) : (s.iss c sl e i).width = width s c sl e := rfl

theorem mem_lanes (l : Nat) : l ∈ lanes s c sl e i ↔ active s c sl e i l = true := by
  simp only [lanes, List.mem_filter, List.mem_range, and_iff_right_iff_imp]
  intro h
  by_contra hl
  simp only [active, Bool.and_eq_true, inMask] at h
  rw [List.getD_eq_default _ _ (by omega)] at h
  simp at h

theorem lanes_nodup : (lanes s c sl e i).Nodup := List.Nodup.filter _ List.nodup_range

theorem undef_eq (h : Clear s c sl e i) (hst : (streamsOf (op9Of i)).1 = true) : (s.iss c sl e i).undef = false := by
  have key : (s.iss c sl e i).undef = (!(streamsOf (op9Of i)).1 ||
      (usesOf (s.iss c sl e i).alg false i).any fun u => u.cls == .v && decide ((version s c sl e).regs < u.reg + u.n)) := rfl
  rw [key, hst]
  simp only [Bool.not_true, Bool.false_or, List.any_eq_false, Bool.and_eq_true, beq_iff_eq, decide_eq_true_eq, not_and]
  intro u hu hc
  have := h.regs u hu hc
  omega

theorem early_eq (h : Clear s c sl e i) : (s.iss c sl e i).early = none := by
  simp only [Iss.early]
  split
  · rfl
  · rw [Option.map_eq_none_iff, List.find?_eq_none]
    intro r hr
    have hq : r.avail ≤ (s.core c).cycle := h.quiet r hr
    have hf := Iss.first_ge s c sl e i
    have hp : ∀ j, ((s.iss c sl e i).pass.any fun q => q.1 == r.lane / 32 &&
        decide (q.2 + j * (rowsOf (s.iss c sl e i).e.mask).length < r.avail)) = false := by
      intro j
      simp only [List.any_eq_false, Bool.and_eq_true, decide_eq_true_eq, not_and]
      intro q hq' _ hlt
      have := Iss.pass_ge s c sl e i q hq'
      omega
    simp only [List.any_eq_true, Bool.and_eq_true, not_exists, not_and, Bool.not_eq_true]
    intro u _ _
    split
    · rfl
    · simp only [decide_eq_false_iff_not]; omega
    · simp only [decide_eq_false_iff_not]; omega
    · exact hp _

/-- The checks of R183 fail in none. -/
theorem checks_eq (h : Clear s c sl e i) (hst : (streamsOf (op9Of i)).1 = true) :
    (s.iss c sl e i).checks false false = none := by
  simp [Iss.checks, undef_eq h hst, early_eq h, h.marks]

end Reads


/-! ### Writes of an effect -/

/-- The value that a list of writes gives to a register of a lane. -/
def vput (ws : List (Nat × Nat × Word)) (l r : Nat) : Option Word :=
  (ws.find? fun w => w.1 == l && w.2.1 == r).map fun w => w.2.2
def pput (ws : List (Nat × Nat × Bool)) (l r : Nat) : Option Bool :=
  if r = 0 then none else (ws.find? fun w => w.1 == l && w.2.1 == r).map fun w => w.2.2
def sput (ws : List (Nat × Dword)) (r : Nat) : Option Word :=
  if r = 0 then none else (ws.find? fun w => w.1 == r).map fun w => w.2.setWidth 32

/-- No record under way is of one of the given registers: register and lane. -/
def Untouched (late : List Late) (cls : RCls) (ks : List (Nat × Nat)) : Prop :=
  ∀ r ∈ late, ∀ k ∈ ks, r.of cls k.1 k.2 = false

theorem Untouched.nil (cls : RCls) (ks : List (Nat × Nat)) : Untouched [] cls ks := by
  intro r hr
  simp at hr

/-- A list of records that holds nothing but an earlier one and records of another class leaves a register untouched. -/
theorem Untouched.other {late late' : List Late} {cls : RCls} {ks : List (Nat × Nat)} (h : Untouched late cls ks)
    (k : ∀ r ∈ late', r ∈ late ∨ r.cls ≠ cls) : Untouched late' cls ks := by
  intro r hr q hq
  rcases k r hr with h' | h'
  · exact h r h' q hq
  · simp [Late.of, h']

/-- A write to a register with nothing under way: the value is the written one, and at most a record of it is added. -/
theorem Iss.late_free (x : Iss) {late : List Late} {cls : RCls} {reg lane : Nat} (h : ∀ r ∈ late, r.of cls reg lane = false)
    (at_ fr : Nat) (old val : Dword) (own : Bool) :
    (x.late late cls reg lane at_ fr old val own).2 = val ∧
      ∀ r ∈ (x.late late cls reg lane at_ fr old val own).1, r ∈ late ∨ (r.cls = cls ∧ r.reg = reg ∧ r.lane = lane) := by
  unfold Iss.late
  split
  · exact ⟨rfl, fun r hr => Or.inl (List.mem_of_mem_filter hr)⟩
  · next n _ =>
    have : late.find? (Late.clash { cls := cls, reg := reg, lane := lane, avail := at_ + n, old := old, pc := x.e.pc, ent := x.entry })
        = none := by
      rw [List.find?_eq_none]
      intro r hr
      simp [Late.clash, h r hr]
    simp only [lateWrite, this]
    refine ⟨trivial, fun r hr => ?_⟩
    rcases List.mem_append.1 hr with h' | h'
    · exact Or.inl h'
    · simp only [List.mem_singleton] at h'
      subst h'
      exact Or.inr ⟨rfl, rfl, rfl⟩

/-- The records after a write leave the later writes' registers untouched, where each register is written once. -/
theorem Untouched.step {late late' : List Late} {cls : RCls} {k : Nat × Nat} {ks : List (Nat × Nat)}
    (h : Untouched late cls (k :: ks)) (hn : k ∉ ks)
    (hl : ∀ r ∈ late', r ∈ late ∨ (r.cls = cls ∧ r.reg = k.1 ∧ r.lane = k.2)) : Untouched late' cls ks := by
  intro r hr q hq
  rcases hl r hr with h' | ⟨h1, h2, h3⟩
  · exact h r h' q (List.mem_cons_of_mem _ hq)
  · simp only [Late.of, h2, h3, Bool.and_eq_false_iff, beq_eq_false_iff_ne]
    by_cases e1 : k.1 = q.1
    · by_cases e2 : k.2 = q.2
      · exact absurd (show k = q from Prod.ext e1 e2 ▸ rfl) (fun e => hn (e ▸ hq))
      · simp [e2]
    · simp [e1]

theorem Iss.stepV_free (x : Iss) (fr : Nat) (a : Store Word × List Late) (w : Nat × Nat × Word)
    (h : ∀ r ∈ a.2, r.of .v w.2.1 w.1 = false) :
    (x.stepV fr a w).1 = a.1.set 0 (w.1 * 256 + w.2.1) w.2.2 ∧
      ∀ r ∈ (x.stepV fr a w).2, r ∈ a.2 ∨ (r.cls = .v ∧ r.reg = w.2.1 ∧ r.lane = w.1) := by
  have k := x.late_free h (x.at w.1) (fr + 32 * w.2.1 + w.1 / 32) ((a.1.get 0 (w.1 * 256 + w.2.1)).setWidth 64)
    (w.2.2.setWidth 64) true
  refine ⟨?_, k.2⟩
  simp only [Iss.stepV, k.1]
  simp

theorem swap_notMem {ws : List (Nat × Nat × α)} {w : Nat × Nat × α} (h : ∀ z ∈ ws, ¬ (z.1 = w.1 ∧ z.2.1 = w.2.1)) :
    (w.2.1, w.1) ∉ ws.map fun w => (w.2.1, w.1) := by
  simp only [List.mem_map, not_exists, not_and, Prod.mk.injEq]
  exact fun z hz h1 h2 => h z hz ⟨h2, h1⟩

/-- The lane registers after a list of writes, each of a lane's register once. -/
theorem Iss.foldV (x : Iss) (fr : Nat) (ws : List (Nat × Nat × Word)) (a : Store Word × List Late)
    (hn : (ws.map fun w => (w.1, w.2.1)).Nodup) (hr : ∀ w ∈ ws, w.2.1 < 256)
    (hl : Untouched a.2 .v (ws.map fun w => (w.2.1, w.1))) :
    (∀ l r, r < 256 → (ws.foldl (x.stepV fr) a).1.get 0 (l * 256 + r) = (vput ws l r).getD (a.1.get 0 (l * 256 + r))) ∧
      ∀ r ∈ (ws.foldl (x.stepV fr) a).2, r ∈ a.2 ∨ r.cls = .v := by
  induction ws generalizing a with
  | nil => exact ⟨fun _ _ _ => rfl, fun r hr => Or.inl hr⟩
  | cons w ws ih =>
    simp only [List.map_cons, List.nodup_cons, List.mem_map, not_exists, not_and] at hn
    have hn' : ∀ z ∈ ws, ¬ (z.1 = w.1 ∧ z.2.1 = w.2.1) := fun z hz hh => hn.1 z hz (by rw [hh.1, hh.2])
    obtain ⟨hstep, hrec⟩ := x.stepV_free fr a w (fun r h => hl r h (w.2.1, w.1) (by simp))
    obtain ⟨i1, i2⟩ := ih (x.stepV fr a w) hn.2 (fun z hz => hr z (List.mem_cons_of_mem _ hz))
      (Untouched.step (k := (w.2.1, w.1)) hl (swap_notMem hn') hrec)
    refine ⟨?_, fun r h => ?_⟩
    swap
    · rcases i2 r h with h' | h'
      · rcases hrec r h' with h'' | h''
        · exact Or.inl h''
        · exact Or.inr h''.1
      · exact Or.inr h'
    intro l r h
    rw [List.foldl_cons, i1 l r h, hstep]
    have hw := hr w (by simp)
    simp only [vput, List.find?_cons]
    by_cases hk : w.1 = l ∧ w.2.1 = r
    · obtain ⟨rfl, rfl⟩ := hk
      have : ws.find? (fun z => z.1 == w.1 && z.2.1 == w.2.1) = none := by
        rw [List.find?_eq_none]
        intro z hz hh
        simp only [Bool.and_eq_true, beq_iff_eq] at hh
        exact hn' z hz hh
      simp [this]
    · have hb : (w.1 == l && w.2.1 == r) = false := by
        simp only [Bool.and_eq_false_iff, beq_eq_false_iff_ne]
        by_cases e : w.1 = l
        · exact Or.inr (fun e' => hk ⟨e, e'⟩)
        · exact Or.inl e
      rw [hb, Store.get_set_other]
      intro e
      exact hk (by constructor <;> omega)

theorem one_bit (n r : Nat) (hn : n < 16) (hr : r < 16) : (BitVec.ofNat 16 (2 ^ n)).getLsbD r = decide (r = n) := by
  interval_cases n <;> interval_cases r <;> rfl

theorem set_bit (old : BitVec 16) (b : Bool) (n r : Nat) (hn : n < 16) (hr : r < 16) :
    (if b then old ||| BitVec.ofNat 16 (2 ^ n) else old &&& ~~~BitVec.ofNat 16 (2 ^ n)).getLsbD r =
      if r = n then b else old.getLsbD r := by
  have h1 := one_bit n r hn hr
  cases b
  · simp only [Bool.false_eq_true, if_false, BitVec.getLsbD_and, BitVec.getLsbD_not, h1, hr, decide_true, Bool.true_and]
    by_cases h : r = n <;> simp [h]
  · simp only [if_true, BitVec.getLsbD_or, h1]
    by_cases h : r = n <;> simp [h]

theorem Iss.stepP_free (x : Iss) (fr : Nat) (a : Store (BitVec 16) × List Late) (w : Nat × Nat × Bool)
    (h : ∀ r ∈ a.2, r.of .p w.2.1 w.1 = false) :
    (x.stepP fr a w).1 = (if w.2.1 = 0 then a.1 else a.1.set 0 w.1
        (if w.2.2 then a.1.get 0 w.1 ||| BitVec.ofNat 16 (2 ^ w.2.1) else a.1.get 0 w.1 &&& ~~~BitVec.ofNat 16 (2 ^ w.2.1))) ∧
      ∀ r ∈ (x.stepP fr a w).2, r ∈ a.2 ∨ (r.cls = .p ∧ r.reg = w.2.1 ∧ r.lane = w.1) := by
  unfold Iss.stepP
  split
  · exact ⟨rfl, fun r hr => Or.inl hr⟩
  · have k := x.late_free h (x.at w.1) (fr + 8192 + 32 * w.2.1 + w.1 / 32)
      (if (a.1.get 0 w.1).getLsbD w.2.1 then 1 else 0) (if w.2.2 then 1 else 0) true
    refine ⟨?_, k.2⟩
    simp only [k.1]
    cases w.2.2 <;> simp

/-- The predicates after a list of writes, each of a lane's predicate once. -/
theorem Iss.foldP (x : Iss) (fr : Nat) (ws : List (Nat × Nat × Bool)) (a : Store (BitVec 16) × List Late)
    (hn : (ws.map fun w => (w.1, w.2.1)).Nodup) (hr : ∀ w ∈ ws, w.2.1 < 16)
    (hl : Untouched a.2 .p (ws.map fun w => (w.2.1, w.1))) :
    (∀ l r, r < 16 → r ≠ 0 →
      ((ws.foldl (x.stepP fr) a).1.get 0 l).getLsbD r = (pput ws l r).getD ((a.1.get 0 l).getLsbD r)) ∧
      ∀ r ∈ (ws.foldl (x.stepP fr) a).2, r ∈ a.2 ∨ r.cls = .p := by
  induction ws generalizing a with
  | nil => exact ⟨fun _ r _ h0 => by simp [pput, h0], fun r hr => Or.inl hr⟩
  | cons w ws ih =>
    simp only [List.map_cons, List.nodup_cons, List.mem_map, not_exists, not_and] at hn
    have hn' : ∀ z ∈ ws, ¬ (z.1 = w.1 ∧ z.2.1 = w.2.1) := fun z hz hh => hn.1 z hz (by rw [hh.1, hh.2])
    obtain ⟨hstep, hrec⟩ := x.stepP_free fr a w (fun r h => hl r h (w.2.1, w.1) (by simp))
    obtain ⟨i1, i2⟩ := ih (x.stepP fr a w) hn.2 (fun z hz => hr z (List.mem_cons_of_mem _ hz))
      (Untouched.step (k := (w.2.1, w.1)) hl (swap_notMem hn') hrec)
    refine ⟨?_, fun r h => ?_⟩
    swap
    · rcases i2 r h with h' | h'
      · rcases hrec r h' with h'' | h''
        · exact Or.inl h''
        · exact Or.inr h''.1
      · exact Or.inr h'
    intro l r h h0
    rw [List.foldl_cons, i1 l r h h0, hstep]
    have hw := hr w (by simp)
    simp only [pput, h0, if_false, List.find?_cons]
    by_cases hk : w.1 = l ∧ w.2.1 = r
    · obtain ⟨rfl, rfl⟩ := hk
      have : ws.find? (fun z => z.1 == w.1 && z.2.1 == w.2.1) = none := by
        rw [List.find?_eq_none]
        intro z hz hh
        simp only [Bool.and_eq_true, beq_iff_eq] at hh
        exact hn' z hz hh
      simp only [this, Option.map_none, Option.getD_none, beq_self_eq_true, Bool.and_self, Option.map_some, Option.getD_some,
        h0, if_false, Store.get_set_same, set_bit _ _ _ _ hw hw, if_true]
    · have hb : (w.1 == l && w.2.1 == r) = false := by
        simp only [Bool.and_eq_false_iff, beq_eq_false_iff_ne]
        by_cases e : w.1 = l
        · exact Or.inr (fun e' => hk ⟨e, e'⟩)
        · exact Or.inl e
      rw [hb]
      congr 1
      split
      · rfl
      · simp only [Store.get_set]
        split
        · next e =>
          have : r ≠ w.2.1 := fun e' => hk ⟨e.symm, e'.symm⟩
          subst e
          rw [set_bit _ _ _ _ hw h, if_neg this]
        · rfl

theorem Iss.stepS_free (x : Iss) (fr : Nat) (a : Store Word × List Late) (w : Nat × Dword)
    (h : ∀ r ∈ a.2, r.of .s w.1 0 = false) :
    (x.stepS fr a w).1 = (if w.1 = 0 then a.1 else a.1.set 0 w.1 (w.2.setWidth 32)) ∧
      ∀ r ∈ (x.stepS fr a w).2, r ∈ a.2 ∨ (r.cls = .s ∧ r.reg = w.1 ∧ r.lane = 0) := by
  unfold Iss.stepS
  split
  · exact ⟨rfl, fun r hr => Or.inl hr⟩
  · have k := x.late_free h x.first (fr + 8704 + w.1) ((a.1.get 0 w.1).setWidth 64) ((w.2.setWidth 32).setWidth 64)
      (a.2.all fun r => !(r.of .s w.1 0 && decide (x.first + (latencyOf x.i).getD 0 ≤ r.avail)) || r.ent == x.entry)
    refine ⟨?_, k.2⟩
    simp only [k.1]
    simp

/-- The uniform registers after a list of writes, each register once. -/
theorem Iss.foldS (x : Iss) (fr : Nat) (ws : List (Nat × Dword)) (a : Store Word × List Late) (hn : (ws.map Prod.fst).Nodup)
    (hl : Untouched a.2 .s (ws.map fun w => (w.1, 0))) (r : Nat) :
    (ws.foldl (x.stepS fr) a).1.get 0 r = (sput ws r).getD (a.1.get 0 r) := by
  induction ws generalizing a with
  | nil => simp [sput]
  | cons w ws ih =>
    simp only [List.map_cons, List.nodup_cons, List.mem_map, not_exists, not_and] at hn
    obtain ⟨hstep, hrec⟩ := x.stepS_free fr a w (fun r h => hl r h (w.1, 0) (by simp))
    have hk' : (w.1, 0) ∉ ws.map fun w => (w.1, 0) := by
      simp only [List.mem_map, not_exists, not_and, Prod.mk.injEq]
      exact fun z hz e _ => hn.1 z hz e
    rw [List.foldl_cons, ih (x.stepS fr a w) hn.2 (Untouched.step (k := (w.1, 0)) hl hk' hrec), hstep]
    by_cases hk : w.1 = r
    · subst hk
      by_cases h0 : w.1 = 0
      · simp [sput, h0]
      · have : ws.find? (fun z => z.1 == w.1) = none := by
          rw [List.find?_eq_none]
          intro z hz hh
          simp only [beq_iff_eq] at hh
          exact hn.1 z hz hh
        simp [sput, h0, this]
    · simp only [sput, List.find?_cons]
      have hb : (w.1 == r) = false := by simpa using hk
      rw [hb]
      congr 1
      split
      · rfl
      · exact Store.get_set_other _ _ _ _ _ (Ne.symm hk)

/-! ### The charge of the passes (R50, R164, R217) -/

theorem leavesOf_length (rows : List Nat) (occ last : Nat) (h : 1 ≤ occ) :
    (leavesOf rows occ [] last).length = rows.length * occ := by
  have : ∀ (rows : List Nat) (n : Nat), (List.flatMap (fun r : Nat × Nat => List.replicate (([] : List Nat).getD r.2 0) 0x10 ++
      List.replicate (occ - 1) 0x11 ++ [last]) (rows.zipIdx n)).length = rows.length * occ := by
    intro rows
    induction rows with
    | nil => simp
    | cons a r ih =>
      intro n
      simp only [List.zipIdx_cons, List.flatMap_cons, List.length_append, ih]
      simp only [List.getD_nil, List.replicate_zero, List.length_nil, List.length_replicate, List.length_cons]
      have : (r.length + 1) * occ = r.length * occ + occ := by ring
      omega
  exact this rows 0

section Finish

variable {s : State} {c sl e : Nat} {i : Instr}

/-- A state that differs in the team alone, charged: the sub-team goes on at `pc`. -/
theorem charge_eq (x : Iss) (s1 : State) (pc : Word) :
    x.charge s1 [] pc none =
      (let total := max 1 (leavesOf (rowsOf x.e.mask) x.occ [] 0x01).length
       let s2 := s1.setSlot x.core x.slot
         { s1.slot x.core x.slot with free := x.cyc + total, leaves := leavesOf (rowsOf x.e.mask) x.occ [] 0x01 }
       let y := s2.entry x.core x.slot x.entry
       s2.setEntry x.core x.slot x.entry
         { y with
           pc := pc, npc := pc, ibuf := none, ustep := 0, till := x.cyc + total + x.h.stall.toNat,
           st := .stalled (x.cyc + total + x.h.stall.toNat), brkSkip := false, yielded := y.yielded || x.h.yld }) := rfl

/-- The state after the writes of an effect: the team alone and the counter of open values. -/
theorem commit_eq (x : Iss) (s : State) (f : Eff) :
    x.commit s f =
      (let t0 := s.team x.core x.slot x.e.team
       let late := t0.late.filter fun r => decide (x.cyc < r.avail)
       let rv := f.v.foldl (x.stepV s.fresh) (t0.v, late)
       let rp := f.p.foldl (x.stepP s.fresh) (t0.p, rv.2)
       let rs := f.s.foldl (x.stepS s.fresh) (t0.s, rp.2)
       State.setTeam { s with fresh := if late.isEmpty && (x.busyOf s.fresh f).isEmpty then s.fresh else s.fresh + 32768 }
         x.core x.slot x.e.team
         { t0 with
           v := rv.1, p := rp.1, s := rs.1, late := rs.2, fpctl := t0.fpctl ||| f.union.setWidth 32,
           marks := t0.marks.filter fun m => !(m.cls == .v && f.v.any fun w => w.1 == m.lane && w.2.1 == m.reg),
           busy := (t0.busy.filter fun b => decide (x.cyc < b.till)) ++ x.busyOf s.fresh f }) := rfl

theorem State.core_setSlot_self (s : State) (c sl : Nat) (x : Slot) :
    (s.setSlot c sl x).core c = { s.core c with slots := ((s.setSlot c sl x).core c).slots } := by
  rw [State.core_setSlot, if_pos rfl]

/-- A team and an entry set one after the other change nothing else. -/
theorem onlyEntry_of (s : State) (c sl e fr : Nat) (tm : Team) (y : Slot → Entry → Entry) (g : Slot → Slot)
    (hg : ∀ z, (g z).entries = z.entries ∧ (g z).teams = z.teams ∧ (g z).ctr = z.ctr) :
    let s1 := State.setTeam { s with fresh := fr } c sl (s.entry c sl e).team tm
    let s2 := s1.setSlot c sl (g (s1.slot c sl))
    let t := s2.setEntry c sl e (y (s2.slot c sl) (s.entry c sl e))
    OnlyEntry s t c sl e ∧ t.entry c sl e = y (s2.slot c sl) (s.entry c sl e) ∧ s2.entry c sl e = s.entry c sl e ∧
      t.team c sl (s.entry c sl e).team = tm := by
  intro s1 s2 t
  have hslot1 : s1.slot c sl = { s.slot c sl with teams := (s.slot c sl).teams.put (s.entry c sl e).team tm } := by
    show State.slot (State.setSlot _ c sl _) c sl = _
    rw [State.slot_setSlot_same]
    rfl
  have hslot2 : s2.slot c sl = g (s1.slot c sl) := State.slot_setSlot_same _ _ _ _
  have he2 : s2.entry c sl e = s.entry c sl e := by
    simp only [State.entry, hslot2, (hg _).1, hslot1]
  have hslott : t.slot c sl = { s2.slot c sl with entries := (s2.slot c sl).entries.put e (y (s2.slot c sl) (s.entry c sl e)) } :=
    State.slot_setSlot_same _ _ _ _
  have hother : ∀ n, n ≠ c → t.core n = s.core n := by
    intro n hn
    show State.core (State.setSlot _ c sl _) n = _
    rw [State.core_setSlot, if_neg hn]
    show State.core (State.setSlot s1 c sl _) n = _
    rw [State.core_setSlot, if_neg hn]
    show State.core (State.setSlot _ c sl _) n = _
    rw [State.core_setSlot, if_neg hn]
    rfl
  refine ⟨⟨rfl, hother, ?_, ?_, ?_, ?_, ?_⟩, ?_, he2, ?_⟩
  · have h1 : s1.core c = { s.core c with slots := (s1.core c).slots } := State.core_setSlot_self _ c sl _
    have h2 : s2.core c = { s1.core c with slots := (s2.core c).slots } := State.core_setSlot_self s1 c sl _
    have h3 : t.core c = { s2.core c with slots := (t.core c).slots } := State.core_setSlot_self s2 c sl _
    rw [h2, h1] at h3
    exact h3
  · intro n hn
    show State.slot (State.setSlot _ c sl _) c n = _
    rw [State.slot_setSlot, if_neg (fun k => hn k.2)]
    show State.slot (State.setSlot s1 c sl _) c n = _
    rw [State.slot_setSlot, if_neg (fun k => hn k.2)]
    show State.slot (State.setSlot _ c sl _) c n = _
    rw [State.slot_setSlot, if_neg (fun k => hn k.2)]
    rfl
  · rw [hslott]
    show (s2.slot c sl).ctr = _
    rw [hslot2, (hg _).2.2, hslot1]
  · intro n hn
    simp only [State.team]
    rw [hslott]
    show (s2.slot c sl).teams.get {} n = _
    rw [hslot2, (hg _).2.1, hslot1]
    exact Store.get_put_other _ _ _ _ _ hn
  · intro n hn
    simp only [State.entry?]
    rw [hslott]
    show ((s2.slot c sl).entries.put e _).look n = _
    rw [Store.look_put_other _ _ _ _ hn, hslot2, (hg _).1, hslot1]
  · simp only [State.entry]
    rw [hslott]
    exact Store.get_put_same _ _ _ _
  · simp only [State.team]
    rw [hslott]
    show (s2.slot c sl).teams.get {} _ = _
    rw [hslot2, (hg _).2.1, hslot1]
    exact Store.get_put_same _ _ _ _

theorem wrote_mk {t : State} {E : Entry} {tm : Team} {n : Nat} {v : Nat → Nat → Option Word} {p : Nat → Nat → Option Bool}
    {u : Nat → Option Word} {fl : BitVec 6} (k1 : OnlyEntry s t c sl e) (k2 : t.entry c sl e = E)
    (k4 : t.team c sl (s.entry c sl e).team = tm)
    (hE : E = { s.entry c sl e with
      pc := nextPc s c sl e i, npc := nextPc s c sl e i, ibuf := none, ustep := 0, brkSkip := false,
      yielded := (s.entry c sl e).yielded || (hdrOf i).yld, till := n, st := .stalled n })
    (hn : n = (s.core c).cycle + max 1 ((rowsOf (s.entry c sl e).mask).length * (s.iss c sl e i).occ) + (hdrOf i).stall.toNat)
    (hv : ∀ l r, r < 256 → tm.v.get 0 (l * 256 + r) = (v l r).getD (vreg s c sl e l r))
    (hp : ∀ l r, r < 16 → (r == 0 || (tm.p.get 0 l).getLsbD r) = (p l r).getD (preg s c sl e l r))
    (hs : ∀ r, tm.s.get 0 r = (u r).getD (sreg s c sl e r))
    (hr : tm = { team s c sl e with
      v := tm.v, p := tm.p, s := tm.s, late := tm.late, busy := tm.busy, marks := tm.marks,
      fpctl := (team s c sl e).fpctl ||| fl.setWidth 32 }) :
    Wrote s t c sl e i v p u fl := by
  have kt : team t c sl e = tm := by
    rw [← k4]
    unfold Said.team
    rw [k2, hE]
  have ktill : (t.entry c sl e).till = n := by rw [k2, hE]
  refine ⟨k1, ⟨?_, ?_⟩, ⟨?_, ?_, ?_, ?_⟩⟩
  · rw [ktill, k2, hE]
  · rw [ktill, hn]
  · intro l r h; rw [vreg, kt]; exact hv l r h
  · intro l r h; rw [preg, kt]; exact hp l r h
  · intro r; rw [sreg, kt]; exact hs r
  · rw [kt]; exact hr

/-- The writes of an effect with nothing under way, each register once, then the charge: what R185, R192 and R50 say. -/
theorem finish_wrote (h : Clear s c sl e i) (f : Eff)
    (hv : (f.v.map fun w => (w.1, w.2.1)).Nodup) (hv' : ∀ w ∈ f.v, w.2.1 < 256)
    (hp : (f.p.map fun w => (w.1, w.2.1)).Nodup) (hp' : ∀ w ∈ f.p, w.2.1 < 16)
    (hs : (f.s.map Prod.fst).Nodup) :
    Wrote s ((s.iss c sl e i).charge ((s.iss c sl e i).commit s f) [] (s.iss c sl e i).npc none) c sl e i
      (vput f.v) (pput f.p) (sput f.s) f.union := by
  have hlate : (s.team c sl (s.entry c sl e).team).late.filter (fun r => decide ((s.core c).cycle < r.avail)) = [] := by
    rw [List.filter_eq_nil_iff]
    intro r hr
    have := h.quiet r hr
    simp only [decide_eq_true_eq]
    omega
  have hlen : (leavesOf (rowsOf (s.entry c sl e).mask) (s.iss c sl e i).occ [] 0x01).length =
      (rowsOf (s.entry c sl e).mask).length * (s.iss c sl e i).occ := leavesOf_length _ _ _ (occ_pos _ _)
  rw [charge_eq, commit_eq]
  have ec : (s.iss c sl e i).core = c := rfl
  have es : (s.iss c sl e i).slot = sl := rfl
  have ee : (s.iss c sl e i).entry = e := rfl
  have eE : (s.iss c sl e i).e = s.entry c sl e := rfl
  have ecy : (s.iss c sl e i).cyc = (s.core c).cycle := rfl
  have eh : (s.iss c sl e i).h = hdrOf i := rfl
  simp only [ec, es, ee, eE, ecy, eh, hlen, hlate]
  generalize hbz : (s.iss c sl e i).busyOf s.fresh f = bz
  generalize hrv : f.v.foldl ((s.iss c sl e i).stepV s.fresh) ((s.team c sl (s.entry c sl e).team).v, []) = rv
  generalize hrp : f.p.foldl ((s.iss c sl e i).stepP s.fresh) ((s.team c sl (s.entry c sl e).team).p, rv.2) = rp
  generalize hrs : f.s.foldl ((s.iss c sl e i).stepS s.fresh) ((s.team c sl (s.entry c sl e).team).s, rp.2) = rs
  have kv := Iss.foldV (s.iss c sl e i) s.fresh f.v ((s.team c sl (s.entry c sl e).team).v, []) hv hv' (Untouched.nil _ _)
  rw [hrv] at kv
  have cv : ∀ r ∈ rv.2, r.cls = .v := fun r h => (kv.2 r h).resolve_left (by simp)
  have kp := Iss.foldP (s.iss c sl e i) s.fresh f.p ((s.team c sl (s.entry c sl e).team).p, rv.2) hp hp'
    (Untouched.other (Untouched.nil _ _) (fun r h => Or.inr (by rw [cv r h]; decide)))
  rw [hrp] at kp
  have ks := Iss.foldS (s.iss c sl e i) s.fresh f.s ((s.team c sl (s.entry c sl e).team).s, rp.2) hs
    (Untouched.other (Untouched.nil _ _) (fun r h => Or.inr (by rcases kp.2 r h with h' | h' <;> [rw [cv r h']; rw [h']] <;> decide)))
  rw [hrs] at ks
  generalize htot : max 1 ((rowsOf (s.entry c sl e).mask).length * (s.iss c sl e i).occ) = total
  generalize hlv : leavesOf (rowsOf (s.entry c sl e).mask) (s.iss c sl e i).occ [] 0x01 = lv
  generalize hfr : (if ([] : List Late).isEmpty && bz.isEmpty then s.fresh else s.fresh + 32768) = fr
  generalize htm : ({ s.team c sl (s.entry c sl e).team with
      v := rv.1, p := rp.1, s := rs.1, late := rs.2,
      fpctl := (s.team c sl (s.entry c sl e).team).fpctl ||| f.union.setWidth 32,
      marks := (s.team c sl (s.entry c sl e).team).marks.filter fun m =>
        !(m.cls == .v && f.v.any fun w => w.1 == m.lane && w.2.1 == m.reg),
      busy := ((s.team c sl (s.entry c sl e).team).busy.filter fun b => decide ((s.core c).cycle < b.till)) ++ bz } : Team) = tm
  have key := onlyEntry_of s c sl e fr tm
    (fun _ y => { y with
      pc := (s.iss c sl e i).npc, npc := (s.iss c sl e i).npc, ibuf := none, ustep := 0,
      till := (s.core c).cycle + total + (hdrOf i).stall.toNat,
      st := .stalled ((s.core c).cycle + total + (hdrOf i).stall.toNat), brkSkip := false,
      yielded := y.yielded || (hdrOf i).yld })
    (fun z => { z with free := (s.core c).cycle + total, leaves := lv }) (fun z => ⟨rfl, rfl, rfl⟩)
  simp only at key
  obtain ⟨k1, k2, k3, k4⟩ := key
  rw [k3]
  refine wrote_mk k1 k2 k4 rfl ?_ ?_ ?_ ?_ ?_
  · simp only [htot]
  · intro l r hr
    rw [← htm]
    exact kv.1 l r hr
  · intro l r hr
    rw [← htm]
    show (r == 0 || (rp.1.get 0 l).getLsbD r) = _
    by_cases h0 : r = 0
    · simp [h0, pput, preg]
    · have h0' : (r == 0) = false := by simpa using h0
      simp only [preg]
      rw [h0', Bool.false_or, Bool.false_or]
      exact kp.1 l r hr h0
  · intro r
    rw [← htm]
    exact ks r
  · rw [← htm]
    rfl

/-! ### A result in each active lane -/

theorem vput_flatMap (ls : List Nat) (wide : Bool) (d : BitVec 8) (lo hi : Nat → Word) (l r : Nat) :
    vput (ls.flatMap fun m => (m, d.toNat, lo m) :: (if wide then [(m, d.toNat + 1, hi m)] else [])) l r =
      if l ∈ ls then (if r = d.toNat then some (lo l) else if wide && r == d.toNat + 1 then some (hi l) else none)
      else none := by
  induction ls with
  | nil => rfl
  | cons m ls ih =>
    simp only [vput] at ih ⊢
    rw [List.flatMap_cons, List.find?_append, Option.map_or, ih]
    by_cases hm : l = m
    · subst hm
      simp only [List.mem_cons, true_or, if_true]
      by_cases hr : r = d.toNat
      · simp [hr]
      · have hr' : (d.toNat == r) = false := by simpa using Ne.symm hr
        cases wide
        · simp [hr, hr']
        · by_cases hr2 : r = d.toNat + 1
          · subst hr2; simp
          · have hr2' : (d.toNat + 1 == r) = false := by simpa using Ne.symm hr2
            simp [hr, hr', hr2, hr2']
    · have hm' : (m == l) = false := by simpa using Ne.symm hm
      have : List.find? (fun w : Nat × Nat × Word => w.1 == l && w.2.1 == r)
          ((m, d.toNat, lo m) :: (if wide then [(m, d.toNat + 1, hi m)] else [])) = none := by
        cases wide <;> simp [Ne.symm hm]
      rw [this]
      simp [hm]

theorem foldl_flags {α : Type} (ls : List Nat) (g : Nat → α × Flags) (b : BitVec 6) :
    ((((ls.map fun l => (l, g l)).filter fun r => r.2.2 != 0).map fun r => (r.1, r.2.2)).foldl (fun b y => b ||| y.2) b) =
      ls.foldl (fun b l => b ||| (g l).2) b := by
  induction ls generalizing b with
  | nil => rfl
  | cons l ls ih =>
    simp only [List.map_cons, List.foldl_cons]
    by_cases h : (g l).2 = 0
    · rw [List.filter_cons_of_neg (by simp [h]), ih, h]
      simp
    · rw [List.filter_cons_of_pos (by simpa using h)]
      simp only [List.map_cons, List.foldl_cons]
      exact ih _

theorem low_word (n : Nat) : BitVec.ofNat 32 n = (BitVec.ofNat 64 n).setWidth 32 := by
  apply BitVec.eq_of_toNat_eq
  simp only [BitVec.toNat_setWidth, BitVec.toNat_ofNat]
  omega

theorem high_word (n : Nat) : BitVec.ofNat 32 (n / 2 ^ 32) = (BitVec.ofNat 64 n >>> 32).setWidth 32 := by
  apply BitVec.eq_of_toNat_eq
  simp only [BitVec.toNat_setWidth, BitVec.toNat_ofNat, BitVec.toNat_ushiftRight, Nat.shiftRight_eq_div_pow]
  omega

/-- The effect of an instruction that gives each active lane a result of a type, with flags. -/
theorem each_eff (h : Clear s c sl e i) (ty : Ty) (d : BitVec 8) (hd : d.toNat + (if ty.is64 then 2 else 1) ≤ 256)
    (g : Nat → Nat × Flags) (z : Nat → Dword)
    (hz : ∀ l, active s c sl e i l = true →
      if ty.is64 then BitVec.ofNat 64 (g l).1 = z l else BitVec.ofNat 32 (extend ty 32 (g l).1) = (z l).setWidth 32) :
    let f := (s.iss c sl e i).each ty d g
    (f.v.map fun w => (w.1, w.2.1)).Nodup ∧ (∀ w ∈ f.v, w.2.1 < 256) ∧ f.p = [] ∧ f.s = [] ∧
      vput f.v = dest s c sl e i ty.is64 d z ∧ f.union = raised s c sl e i (fun l => (g l).2) ∧
      (calm s c sl e i (fun l => (g l).2) → (s.iss c sl e i).fpe f = none) := by
  intro f
  have hf : f.v = (lanes s c sl e i).flatMap fun m => (m, d.toNat, (z m).setWidth 32) ::
      (if ty.is64 then [(m, d.toNat + 1, ((z m) >>> 32).setWidth 32)] else []) := by
    show ((s.iss c sl e i).act.map fun l => (l, g l)).flatMap (fun r => resV ty d r.1 r.2.1) = _
    rw [act_eq h, List.flatMap_map]
    apply List.flatMap_congr
    intro l hl
    have := hz l ((mem_lanes l).1 hl)
    simp only [resV]
    split
    · next h64 =>
      rw [if_pos h64] at this
      rw [← this]
      rw [low_word, high_word]
    · next h64 => rw [if_neg h64] at this; rw [this]
  refine ⟨?_, ?_, rfl, rfl, ?_, ?_, ?_⟩
  · rw [hf, List.map_flatMap, List.nodup_flatMap]
    refine ⟨?_, ?_⟩
    · intro m _
      cases ty.is64 <;> simp
    · refine List.Pairwise.imp ?_ (lanes_nodup (s := s) (c := c) (sl := sl) (e := e) (i := i))
      intro a b hab
      simp only [Function.onFun, List.disjoint_left]
      intro w hw hw'
      cases ty.is64 <;> simp at hw hw' <;> aesop
  · intro w hw
    rw [hf, List.mem_flatMap] at hw
    obtain ⟨m, _, hw⟩ := hw
    cases h64 : ty.is64 <;> simp [h64] at hw hd
    · rw [hw]; exact d.isLt
    · rcases hw with rfl | rfl <;> simp <;> omega
  · funext l r
    rw [hf, vput_flatMap]
    simp only [dest, mem_lanes]
  · show ((((s.iss c sl e i).act.map fun l => (l, g l)).filter (fun r => r.2.2 != 0)).map (fun r => (r.1, r.2.2))).foldl
      (fun b y => b ||| y.2) 0 = _
    rw [act_eq h]
    exact foldl_flags _ _ _
  · intro hc
    simp only [Iss.fpe]
    have : f.flags.filter (fun y => decide (y.2 &&& (((s.iss c sl e i).t.fpctl >>> 8).setWidth 6 &&& 0b011111) ≠ 0)) = [] := by
      rw [List.filter_eq_nil_iff]
      intro y hy
      have hy : y ∈ (((s.iss c sl e i).act.map fun l => (l, g l)).filter (fun r => r.2.2 != 0)).map (fun r => (r.1, r.2.2)) := hy
      rw [act_eq h] at hy
      simp only [List.mem_map, List.mem_filter] at hy
      obtain ⟨_, ⟨⟨l, hl, rfl⟩, _⟩, rfl⟩ := hy
      have := hc l ((mem_lanes l).1 hl)
      simp only [decide_eq_true_eq, ne_eq, not_not]
      exact this
    rw [this]

/-- Without bank cycles every pass keeps its cycle. -/
@[simp] theorem Iss.stretched_noBank (x : Iss) : x.stretched noBank = (x, []) := rfl

/-- An instruction that gives each active lane a result, in full: R9, R50, R80, R91, R92, R192. -/
theorem pureOp_each (h : Clear s c sl e i) (hst : (streamsOf (op9Of i)).1 = true) (ty : Ty) (d : BitVec 8)
    (hd : d.toNat + (if ty.is64 then 2 else 1) ≤ 256) (f : Iss → Eff) (g : Nat → Nat × Flags)
    (hf : f (s.iss c sl e i) = (s.iss c sl e i).each ty d g) (z : Nat → Dword)
    (hz : ∀ l, active s c sl e i l = true →
      if ty.is64 then BitVec.ofNat 64 (g l).1 = z l else BitVec.ofNat 32 (extend ty 32 (g l).1) = (z l).setWidth 32)
    (hc : calm s c sl e i (fun l => (g l).2)) :
    ∃ t, pureOp i s never f = .next t ∧
      Wrote s t c sl e i (dest s c sl e i ty.is64 d z) noP noS (raised s c sl e i (fun l => (g l).2)) := by
  obtain ⟨k1, k2, k3, k4, k5, k6, k7⟩ := each_eff h ty d hd g z hz
  have hw := finish_wrote h ((s.iss c sl e i).each ty d g) k1 k2 (by rw [k3]; simp) (by rw [k3]; simp) (by rw [k4]; simp)
  refine ⟨(s.iss c sl e i).charge ((s.iss c sl e i).commit s ((s.iss c sl e i).each ty d g)) [] (s.iss c sl e i).npc none,
    ?_, ?_⟩
  · simp only [pureOp, teamOnly, h.cur, State.issueTeam]
    have hra : (s.iss c sl e i).e.ra = none := h.plain
    simp only [hra, never, Iss.stretched_noBank, checks_eq h hst, hf, Iss.finish, k7 hc]
  · rw [k3, k4, k5, k6] at hw
    have e1 : pput [] = noP := by funext l r; simp [pput, noP]
    have e2 : sput [] = noS := by funext r; simp [sput, noS]
    rw [e1, e2] at hw
    exact hw

end Finish

end Sys2Proof.Machine
end

