-- ==== Sys2Proof/Safety.lean ====
section
/-! DEFINITION. What counts as a safe run: a step that answers a next state, and states from which every further step does. -/

namespace Sys2Proof.Machine

/-- The step from a state answers a next state. -/
def Steps (s : State) : Prop := ∃ t, step s = .next t

/-- The device does not stop within `n` steps. -/
def RunsFor : Nat → State → Prop
  | 0, _ => True
  | n + 1, s => ∃ t, step s = .next t ∧ RunsFor n t

end Sys2Proof.Machine
end

