-- ==== Sys2Proof/Tests/Slice0.lean ====
section
/-! SUPPORT. Tests: an ill-formed term for each check of WellFormed, words of the spec decoded, and single steps whose results the
spec works out. -/

namespace Sys2Proof.Tests

open Sys2Proof Sys2Proof.Machine

-- One test at a time: each asks the kernel, which keeps a thread waiting.
set_option Elab.async false

/-! ### A small state -/

def hd : Hdr := { stall := 0, yld := false, pred := 0, neg := false }
def hb : HdrB := { stall := 0, yld := false, pred := 0, neg := false }
/-- Operands in v registers, or an immediate B. -/
def alu (ty : Ty) (d a b : BitVec 8) : Alu :=
  { ty := ty, rnd := .none, sat := false, as := false, bs := false, bi := false, opx := false, d := d, a := a, b := b, c := 0, ext := 0, lit := none }
def mem (sp : Space) (ty : Ty) (r a : BitVec 8) : Mem :=
  { space := sp, ty := ty, count := .x1, sb := false, ix := false, r := r, a := a, b := 0, off := 0 }
def atm (sp : Space) (op : AOp) (ty : Ty) : Atm :=
  { space := sp, ty := ty, sb := false, ix := false, var := .none, op := op, d := 4, a := 2, b := 0, c := 6, off := 0 }
def barb (a b : BitVec 8) : Barb := { space := .l, sb := true, a := a, b := b, off := 0 }
def tx (ty : Ty) : Tx := { ty := ty, mc := false, d := 4, a := 2, b := 0, c := 1, bobj := 0xFFFF }
def setp (ty : Ty) (cmp : Cmp) : Setp :=
  { ty := ty, cmp := cmp, as := false, bs := false, bi := false, d := 3, a := 4, b := 6, ext := 0, lit := none }
def shfl (ty : Ty) (d a : BitVec 8) : Shfl := { ty := ty, bi := false, leg := false, d := d, a := a, b := 6, ext := 0 }

/-- One window of 1 MiB with every right. -/
def window : Window := { base := 0, size := 16, r := true, w := true, x := true, a := true, cls := 1, v := true }

/-- One team with lanes 0 to 3 on core 0, in a context with one window, about to issue; a control stream runs in its cluster. -/
def bench (t : Team) (x : Entry) : State :=
  let s := State.reset.withFetched [0x00000001, 0, 0]
  { s with
    cores := [(0, { cycle := 10, slots := [(0, { teams := [(0, t)], entries := [(0, x)] })] })]
    ctls := [(0, { lid := 1, st := .ready, cycle := 10, tvec := 0xFFFFFFFF })]
    ctxs := [(1, { desc := { ctxid := 1, pond := 1 }, wins := [(0, window)], own := [(0, window)] })]
    cur := .team 0 0 0 }
def team0 : Team := { pid := 1, tvec := 0xFFFFFFFF }
def entry0 : Entry := { mask := [0xF], pc := 0x100 }
/-- Lane registers given as (lane, register, value), rising. -/
def vs (xs : List (Nat × Nat × Word)) : Store Word := xs.map fun x => (x.1 * 256 + x.2.1, x.2.2)
/-- The bench with some registers. -/
def regs (v : List (Nat × Nat × Word)) (sr : Store Word) (p : Store (BitVec 16)) : State :=
  bench { team0 with v := vs v, s := sr, p := p } entry0
/-- The state after an instruction; reset where it stops. -/
def after (i : Instr) (s : State) : State := match exec i s with | .next t => t | _ => State.reset
def v_ (s : State) (l r : Nat) : Word := Said.vreg s 0 0 0 l r
/-- The control core of the bench issues. -/
def ctl (s : State) (x : Control) : State := { s with ctls := [(0, x)], cur := .control 0 }

/-! ### Ill-formed terms (R170 to R181) -/

theorem test_refuses_type : (Instr.iadd hd (alu .f32 1 2 3)).wf = false := by decide
theorem test_refuses_rounding : (Instr.fadd hd { alu .f32 1 2 3 with rnd := .rna }).wf = false := by decide
theorem test_refuses_sat : (Instr.imin hd { alu .i32 1 2 3 with sat := true }).wf = false := by decide
theorem test_refuses_opx : (Instr.iadd hd { alu .i32 1 2 3 with opx := true }).wf = false := by decide
theorem test_refuses_scalar_a : (Instr.algMul hd { alu .f32 4 4 4 with as := true }).wf = false := by decide
theorem test_refuses_odd_pair : (Instr.iadd hd (alu .i64 2 3 4)).wf = false ∧ (Instr.iadd hd (alu .i64 3 2 4)).wf = false := by decide
theorem test_refuses_s64 : (Instr.iadd hd { alu .i32 1 2 64 with bs := true }).wf = false := by decide
theorem test_refuses_bs_with_bi : (Instr.shl hd { alu .b32 2 1 0 with bs := true, bi := true, ext := 2 }).wf = false := by decide
theorem test_refuses_b_operand : (Instr.not hd (alu .b32 1 2 3)).wf = false ∧ (Instr.iadd hd { alu .i32 1 2 3 with bi := true }).wf = false := by decide
theorem test_refuses_c_operand : (Instr.iadd hd { alu .i32 1 2 3 with c := 1 }).wf = false := by decide
theorem test_refuses_ext : (Instr.iadd hd { alu .i32 1 2 3 with ext := 1 }).wf = false := by decide
theorem test_refuses_half_immediate : (Instr.fadd hd { alu .bf16 1 2 0 with bi := true, ext := 65536 }).wf = false := by decide
theorem test_refuses_literal : (Instr.iadd hd { alu .i32 1 2 0 with bi := true, lit := some 1 }).wf = false := by decide
theorem test_refuses_scalar_form : (Instr.sadd hd { alu .i32 1 2 3 with as := true }).wf = false ∧ (Instr.smul hd { alu .i32 1 2 3 with sat := true }).wf = false := by decide
theorem test_refuses_movi : (Instr.movi hd (alu .i32 1 0 0)).wf = false ∧ (Instr.movi hd (alu .b64 1 0 0)).wf = false := by decide
theorem test_refuses_short_range : (Instr.smovShort hb 64 0).wf = false ∧ (Instr.iaddLit hb 3 2 0).wf = false ∧ (Instr.moviLit hb false 1 0x100000000).wf = false := by decide
theorem test_refuses_bit_field : (Instr.bfx hd { alu .n32 1 2 0 with ext := 0x1010 + 0x1000 }).wf = false ∧ (Instr.bfi hd (alu .b32 1 2 3)).wf = false := by decide
theorem test_refuses_cvt : (Instr.cvt hd { alu .i32 1 2 0 with ext := 0 }).wf = false ∧ (Instr.cvt hd { alu .f64 2 3 0 with ext := 12, rnd := .rz }).wf = false := by decide
theorem test_refuses_redux : (Instr.redux hd { alu .f32 1 2 0 with ext := 3 }).wf = false ∧ (Instr.redux hd { alu .b32 1 2 0 with ext := 7 }).wf = false := by decide
theorem test_refuses_algebra : (Instr.algMul hd { alu .f32 4 4 4 with ext := 8 }).wf = false := by decide
theorem test_refuses_setp : (Instr.setp hd (setp .b32 .lt)).wf = false ∧ (Instr.setp hd (setp .i32 .nan)).wf = false ∧ (Instr.setp hd { setp .i32 .eq with d := 16 }).wf = false := by decide
theorem test_refuses_predicate : (Instr.plop hd 1 2 3 16 0x88).wf = false ∧ (Instr.voteMask hd true 5 1).wf = false := by decide
theorem test_refuses_shuffle : (Instr.shflIdx hd (shfl .i32 2 4)).wf = false ∧ (Instr.shflIdx hd (shfl .b64 3 4)).wf = false := by decide
theorem test_refuses_guard : (Instr.join { hd with pred := 1 } 5).wf = false ∧ (Instr.join hd 0).wf = false ∧ (Instr.retShort { hb with neg := true }).wf = false := by decide
theorem test_refuses_address : (Instr.ld hd { mem .g .b32 4 6 with ix := true }).wf = false ∧ (Instr.ld hd (mem .g .b32 4 7)).wf = false ∧
    (Instr.ld hd { mem .l .b32 4 6 with b := 1 }).wf = false := by decide
theorem test_refuses_space : (Instr.ldAcq hd (mem .l .b32 4 6)).wf = false ∧ (Instr.ldShort hb .g 4 7).wf = false := by decide
theorem test_refuses_memory_type : (Instr.ld hd (mem .l .f32 4 6)).wf = false ∧ (Instr.pfh hd (mem .g .b64 0 6)).wf = false := by decide
theorem test_refuses_atomic : (Instr.atom hd (atm .g .add .b32)).wf = false ∧ (Instr.atom hd { atm .l .add .i32 with var := .acq }).wf = false ∧
    (Instr.red hd { atm .g .exch .b32 with d := 0 }).wf = false := by decide
theorem test_refuses_copy : (Instr.acp hd { space := .l, ty := .b32, count := .x1, sb := false, tag := 0, out := false, d := 1, a := 2, c := 3, off := 0 }).wf = false := by decide
theorem test_refuses_object : (Instr.barSync hd 32).wf = false ∧ (Instr.qpush hd 16 2).wf = false ∧ (Instr.barInitb hd { barb 1 2 with space := .g }).wf = false := by decide
theorem test_refuses_control_register : (Instr.cld hd .i32 false 32 1 0).wf = false ∧ (Instr.cbr hd 2 .b64 1 2 0).wf = false ∧ (Instr.cbr hd 6 .n64 1 2 0).wf = false := by decide
theorem test_refuses_engine : (Instr.txLd hd { tx .b32 with a := 8 }).wf = false ∧ (Instr.txLdq hd (tx .b32) 1).wf = false ∧ (Instr.txSt hd { tx .b32 with mc := true }).wf = false ∧
    (Instr.shpSet hd 1 2 7).wf = false ∧ (Instr.algLdt hd 0 1).wf = false := by decide
theorem test_refuses_system : (Instr.srd hd 0 true 64).wf = false ∧ (Instr.xfer { hd with neg := true } 1).wf = false ∧ (Instr.progress hd 64).wf = false := by decide
theorem test_refuses_forerunner : (Instr.oldx hd 3 8 9 0).wf = false ∧ (Instr.oldx hd 3 8 10 0).wf = false ∧ (Instr.omma8 hd true true 8 14 2).wf = false := by decide
theorem test_refuses_words : (Instr.unassignedOpcode []).wf = false ∧ (Instr.unassignedOpcode [1]).wf = false := by decide

/-! ### Words that the spec writes out -/

/-- R183, Decoding of sample words. -/
theorem test_decode_samples :
    decode [0x01030540] = .ok (.stShort hb .l 3 2) ∧
    decode [0xFFFD0084] = .ok (.braShort { hb with stall := 1 } (-3)) ∧
    decode [0x40002381, 0x00000102, 0x00000002] = .ok (.shl hd { alu .b32 2 1 0 with bi := true, ext := 2 }) ∧
    (∀ i, decode [0x00000000] ≠ .ok i) ∧ (∀ i, decode [0x60002381, 0x00000102, 0x00000002] ≠ .ok i) := by
  refine ⟨by decide, by decide, by decide, ?_, ?_⟩ <;> intro i h <;> (cases h)
/-- R216: `IADD.sat.i32 v4, v5, s3 ^1`; R243: `LD.g.b32 v4, [v6+16] ^0`; R258: `BAR.SYNC b3`. -/
theorem test_decode_vector_memory_barrier :
    decode [0x28402005, 0x00030504, 0] = .ok (.iadd { hd with stall := 1 } { alu .i32 4 5 3 with sat := true, bs := true }) ∧
    decode [0x00304001, 0x00000604, 0x00000010] = .ok (.ld hd { mem .g .b32 4 6 with off := 16 }) ∧
    decode [0x00305001, 0, 0] = .ok (.barSync hd 3) := by decide
/-- R297: `SRD v1, %lane ^1`; R232: `CVT.rz.i32.f32 v2, v3 ^0`; R248: `RED.g.add.bx2 [v10+64], v20`. -/
theorem test_decode_system_convert_reduce :
    decode [0x000104C4] = .ok (.srdShort { hb with stall := 1 } 1 0) ∧
    decode [0x02403401, 0x00000302, 0x0000000C] = .ok (.cvt hd { alu .i32 2 3 0 with rnd := .rz, ext := 12 }) ∧
    decode [0x03F04141, 0x14000A00, 0x00004000] = .ok (.red hd { atm .g .add .bx2 with d := 0, a := 10, c := 20, off := 64 }) := by decide
/-- R264: `QPUSH q8, s10`; R291: `MX.STRM.lstat c5, c6, c7, c1, a1, 2 ^0`. -/
theorem test_decode_queue_engine :
    decode [0x00805201, 0x00000A00, 0] = .ok (.qpush hd 8 10) ∧
    decode [0x00906481, 0x01070605, 0x00000001] =
      .ok (.mxStrm hd { alg := 1, lst := true, acc := false, d := 5, a := 6, b := 7, c := 1, m1 := 1 }) := by decide
/-- R201: `EXIT` placed where the next step fetches is what the step runs. -/
theorem test_step_runs_exit : ∃ t, step (State.reset.withFetchWord 96 0x241) = .next t := ⟨_, rfl⟩

/-! ### Single steps, with the results that the spec works out -/

/-- R213: `SADD.sat.n32 s5, s6, 10` with s6 = 0xFFFF_FFF8; without `.sat` 2. -/
theorem test_scalar_add_saturates :
    (let s := regs [] [(6, 0xFFFFFFF8)] []
     let o := { alu .n32 5 6 0 with bi := true, ext := 10 }
     Said.sreg (after (.sadd hd { o with sat := true }) s) 0 0 0 5 = 0xFFFFFFFF ∧
     Said.sreg (after (.sadd hd o) s) 0 0 0 5 = 2) := by decide +kernel
/-- R206: table 0x88 gives A and B. -/
theorem test_plop_and :
    (let s := regs [] [] [(0, 6), (1, 2)]
     let t := after (.plop hd 3 1 2 0 0x88) s
     Said.preg t 0 0 0 0 3 = true ∧ Said.preg t 0 0 0 1 3 = false) := by decide +kernel
/-- R209: lanes 0 to 7 active, p2 one in lanes 0, 1 and 5. -/
theorem test_vote_mask :
    (let s := bench { team0 with p := [(0, 4), (1, 4), (5, 4), (9, 4)] } { entry0 with mask := [0xFF] }
     let t := after (.voteMask hd false 4 2) s
     v_ t 0 4 = 0x23 ∧ v_ t 7 4 = 0x23 ∧ v_ t 8 4 = 0) := by decide +kernel
/-- R210: `SHFL.xor.b32 v2, v1, 16` in a team of 32 active lanes. -/
theorem test_shuffle_xor :
    (let s := bench { team0 with v := vs [(3, 1, 33), (19, 1, 44)] } { entry0 with mask := [0xFFFFFFFF] }
     let t := after (.shflXor hd { shfl .b32 2 1 with bi := true, b := 0, ext := 16 }) s
     v_ t 3 2 = 44 ∧ v_ t 19 2 = 33) := by decide +kernel
/-- R220: the first two steps of the requantisation of 1,000 and −1,001. -/
theorem test_requantise_multiply :
    (let s := regs [(0, 5, 1000), (1, 5, -1001)] [(4, 0x40000000)] []
     let t := after (.imulq hd { alu .i32 6 5 4 with bs := true }) s
     v_ t 0 6 = 500 ∧ v_ t 1 6 = -500) := by decide +kernel
theorem test_requantise_shift :
    (let s := regs [(0, 6, 500), (1, 6, -500)] [] []
     let t := after (.rshr hd { alu .i32 6 6 0 with bi := true, ext := 3 }) s
     v_ t 0 6 = 63 ∧ v_ t 1 6 = -62) := by decide +kernel
/-- R232: `CVT.rz.i32.f32` of −2.75, and of 3.0e9, which raises NV. -/
theorem test_convert_toward_zero :
    (let s := regs [(0, 3, 0xC0300000), (1, 3, 0x4F32D05E)] [] []
     let t := after (.cvt hd { alu .i32 2 3 0 with rnd := .rz, ext := 12 }) s
     v_ t 0 2 = -2 ∧ v_ t 1 2 = 0x7FFFFFFF ∧ (Said.team t 0 0 0).fpctl.getLsbD 0 = true) := by decide +kernel
/-- R86: two ties to even of binary32 to bfloat16. -/
theorem test_bfloat16_ties_to_even :
    (let s := regs [(0, 3, 0x3F808000), (1, 3, 0x3F818000)] [] []
     let t := after (.cvt hd { alu .bf16 2 3 0 with rnd := .rn, ext := 12 }) s
     v_ t 0 2 = 0x3F80 ∧ v_ t 1 2 = 0x3F82) := by decide +kernel
/-- R236: lane 0 holds 0x8000_0001. -/
theorem test_bit_plane_transpose :
    (let s := bench { team0 with v := vs [(0, 3, 0x80000001)] } { entry0 with mask := [0xFFFFFFFF] }
     let t := after (.bpt hd (alu .b32 2 3 0)) s
     v_ t 28 2 = 1 ∧ v_ t 0 2 = 8 ∧ v_ t 4 2 = 0) := by decide +kernel
/-- The `quat` record that chapter 04 works out. -/
def quat : Algebra :=
  (Algebra.ofRecord (0x08454B000004C26A0000092E09000005A928 * 2 ^ 192 + 0x0E04 * 2 ^ 64 + 0x74617571)).getD {}
/-- R238: i · j = k and j · i = −k with the `quat` table. -/
theorem test_quaternion_product :
    (let s0 := regs [(0, 9, 0x3F800000), (0, 14, 0x3F800000)] [] []
     let s := { s0 with ctxs := s0.ctxs.map fun x => (x.1, { x.2 with alg := [(1, quat)] }) }
     let t := after (.algMul hd { alu .f32 16 8 12 with ext := 1 }) s
     let u := after (.algMul hd { alu .f32 16 12 8 with ext := 1 }) s
     v_ t 0 19 = 0x3F800000 ∧ v_ t 0 17 = 0 ∧ v_ u 0 19 = 0xBF800000) := by decide +kernel
/-- R122: the routing of 0x12_3456_7A00. -/
theorem test_routing : partOf 0x1234567A00 = 60 := by decide +kernel
/-- R4, R245: a store and a load of the scratchpad, lowest byte first. -/
theorem test_scratchpad_bytes :
    (let s := regs [(0, 2, 64), (0, 3, 0x11223344), (1, 2, 68), (2, 2, 72), (3, 2, 76)] [] []
     let t := after (.stShort hb .l 3 2) s
     (t.core 0).scratch.get 0 64 = 0x44 ∧ (t.core 0).scratch.get 0 67 = 0x11 ∧
     v_ (after (.ldShort hb .l 5 2) { t with cur := .team 0 0 0 }) 0 5 = 0x11223344) := by decide +kernel
/-- R194: a branch that lanes 0 and 1 alone take. -/
theorem test_branch_splits :
    (let s := bench { team0 with p := [(0, 2), (1, 2)] } entry0
     let t := after (.bra { hd with pred := 1 } 5 16) s
     (t.entry 0 0 0).mask = [3] ∧ (t.entry 0 0 0).pc = 0x140 ∧ (t.entry 0 0 1).mask = [0xC] ∧ (t.entry 0 0 1).pc = 0x10C ∧
     (t.entry 0 0 1).stack.map StkEntry.k = [5]) := by decide +kernel
/-- R304: the word 0x0103_0D40 at PC 0x120 is no instruction: CAUSE 1, PC, NPC and WORDS of its frame. -/
theorem test_undefined_word_traps :
    (let t0 : Team := { team0 with tvec := 0x800, stkbase := 0x1000, stklim := 0x4000 }
     let s := bench t0 { entry0 with pc := 0x120 }
     let t := after (.unassignedOpcode [0x01030D40]) s
     let f := fun o n => Said.framed t.reqs 0x1000 o n
     (t.entry 0 0 0).pc = 0x800 ∧ f 0 1 = 1 ∧ f 4 4 = 0x120 ∧ f 8 4 = 0x124 ∧ f 48 4 = 0x01030D40) := by decide +kernel
/-- R68: an arrival of 5 bytes at an object with REMAIN 4 and EXPECT 4 completes one phase. -/
theorem test_byte_barrier_rounds :
    (let s0 := bench { team0 with s := [(2, 32), (3, 5)] } entry0
     let s := { s0 with cores := s0.cores.map fun x => (x.1, { x.2 with scratch := [(32, 4), (36, 4)] }) }
     let t := after (.barArriveb hd (barb 2 3)) s
     Said.word t 0 32 = 3 ∧ Said.word t 0 40 = 1) := by decide +kernel
/-- R265: `FLAG.SET 7` of a team, and R264: an entry pushed to q8. -/
theorem test_flag_and_queue :
    (let s := bench { team0 with s := [(10, 7), (11, 9)] } entry0
     ((after (.flagSet hd 7) s).ctl 0).flags = 128 ∧
     ((after (.qpush hd 8 10) s).ctl 0).queues.get [] 8 = [0x900000007]) := by decide +kernel
/-- R278: field group 1 of h1. -/
theorem test_shape_extents :
    (let s := ctl (bench team0 entry0) { lid := 1, st := .ready, tvec := 0xFFFFFFFF, c := [(4, 0x000300020001)] }
     let x := Said.shape (after (.shpSet hd 1 4 1) s) 0 1
     x.e0m = 1 ∧ x.e1m = 2 ∧ x.e2m = 3) := by decide +kernel
/-- R276: `CBR.lt.n64 c3, c4` is taken while c3 < c4. -/
theorem test_control_branch :
    (let s := ctl (bench team0 entry0) { lid := 1, st := .ready, pc := 0x40, c := [(3, 1), (4, 2)] }
     ((after (.cbr hd 2 .n64 3 4 (-4)) s).ctl 0).pc = 0x30 ∧ ((after (.cbr hd 2 .n64 4 3 (-4)) s).ctl 0).pc = 0x4C) := by decide +kernel
/-- R345: the sample of a sub-team of version 5 at PC 0x100 on issue slot 0 of core 0 at cycle 10. -/
theorem test_team_sample :
    ((bench team0 { entry0 with version := 5 }).teamSample 0 0 0).encode.drop 1 =
      ([0x0A, 0, 0, 0, 1, 0, 0] ++ List.replicate 8 0 ++ [10] ++ List.replicate 15 0 : List Byte) := by decide +kernel
/-- R345: the sample of engine command 7 of cluster 9, issued at PC 0x48. -/
theorem test_engine_sample :
    (let s := { bench team0 entry0 with ctls := [(9, { lid := 1, cycle := 513 })] }
     (s.engineSample 9 { lid := 1, eseq := 7, pc := 0x48, op9 := 0x188, cores := [0], parcels := [], op := .swap }).encode =
       ([0x40, 1, 9, 0, 0x48, 0, 0, 0, 7, 0, 0, 0, 0, 0, 0, 0, 1, 2] ++ List.replicate 14 0 : List Byte)) := by decide +kernel

end Sys2Proof.Tests
end

