-- ==== Sys2Proof/Tests/Meets.lean ====
section
/-! SUPPORT. Witnesses: for each statement with hypotheses, a concrete state and operands that meet them together, clause by
clause. First the instructions that compute and the control flow. -/

namespace Sys2Proof.Tests

open Sys2Proof Sys2Proof.Machine Sys2Proof.Said

-- One test at a time: each asks the kernel, which keeps a thread waiting.
set_option Elab.async false

/-! ### The hypotheses as checks -/

def clearB (s : State) (c sl e : Nat) (i : Instr) : Bool :=
  decide (s.cur = .team c sl e) && (s.entry c sl e).ra.isNone && i.wf &&
  (team s c sl e).late.all (fun r => decide (r.avail ≤ (s.core c).cycle)) &&
  (usesOf (s.iss c sl e i).alg false i).all (fun u => u.cls != .v || decide (u.reg + u.n ≤ min 256 (version s c sl e).regs)) &&
  (s.iss c sl e i).marked.isNone

theorem clear_of {s : State} {c sl e : Nat} {i : Instr} (h : clearB s c sl e i = true) : Clear s c sl e i := by
  simp only [clearB, Bool.and_eq_true, decide_eq_true_eq, List.all_eq_true, Option.isNone_iff_eq_none, Bool.or_eq_true,
    bne_iff_ne] at h
  obtain ⟨⟨⟨⟨⟨h1, h2⟩, h3⟩, h4⟩, h5⟩, h6⟩ := h
  exact ⟨h1, h2, h3, h4, fun u hu hc => (h5 u hu).resolve_left (fun hn => hn hc), h6⟩

def cclearB (s : State) (cl : Nat) (i : Instr) : Bool :=
  decide (s.cur = .control cl) && i.wf && decide ((hdrOf i).pred = 0) && decide ((hdrOf i).neg = false) &&
  (s.ctl cl).late.all (fun r => decide (r.avail ≤ (s.ctl cl).cycle)) &&
  (usesOf 1 true i).all (fun u => (u.cls == .s && decide (u.reg + u.n ≤ 32)) || u.cls == .h) && (s.ciss cl i).marked.isNone

theorem cclear_of {s : State} {cl : Nat} {i : Instr} (h : cclearB s cl i = true) : CClear s cl i := by
  simp only [cclearB, Bool.and_eq_true, decide_eq_true_eq, List.all_eq_true, Option.isNone_iff_eq_none, Bool.or_eq_true,
    beq_iff_eq] at h
  obtain ⟨⟨⟨⟨⟨⟨h1, h2⟩, h3⟩, h3'⟩, h4⟩, h5⟩, h6⟩ := h
  exact ⟨h1, h2, ⟨h3, h3'⟩, h4, h5, h6⟩

/-- A property of the active lanes is one of the listed lanes. -/
theorem act_of {s : State} {c sl e : Nat} {i : Instr} {P : Nat → Prop} (h : ∀ l ∈ lanes s c sl e i, P l) :
    ∀ l, active s c sl e i l = true → P l := fun l hl => h l ((mem_lanes l).2 hl)

/-- The bench with nothing in its registers. -/
def plain : State := bench team0 entry0
/-- The control core of the bench with some c registers. -/
def cplain (c : Store Dword) : State := ctl plain { lid := 1, st := .ready, cycle := 10, tvec := 0xFFFFFFFF, c := c }

/-! ### Computing instructions -/

theorem meets_IntegerArithmetic : ∃ s c sl e i o sat f, arith i = some (o, sat, f) ∧ Clear s c sl e i :=
  ⟨plain, 0, 0, 0, .iadd hd (alu .i64 2 4 254), _, _, _, rfl, clear_of (by decide +kernel)⟩
theorem meets_BitInstruction : ∃ s c sl e i o wide f, bitwise i = some (o, wide, f) ∧ Clear s c sl e i :=
  ⟨plain, 0, 0, 0, .shl hd { alu .b32 255 1 0 with bi := true, ext := 2 }, _, _, _, rfl, clear_of (by decide +kernel)⟩
theorem meets_DotProducts :
    (∃ s c sl e i o f, dot i = some (o, f) ∧ Clear s c sl e i) ∧
    (∃ s c sl e h nat d a b x, Clear s c sl e (.odot4 h nat d a b x) ∧ (s.entry c sl e).ustep = 0) ∧
    (∃ s c sl e h na nb d a b, Clear s c sl e (.omma8 h na nb d a b) ∧ (s.entry c sl e).ustep = 0) :=
  ⟨⟨plain, 0, 0, 0, .dp4 hd (alu .i8 1 2 3), _, _, rfl, clear_of (by decide +kernel)⟩,
   ⟨plain, 0, 0, 0, hd, true, 1, 2, 3, 4, clear_of (by decide +kernel), rfl⟩,
   ⟨plain, 0, 0, 0, hd, true, false, 248, 2, 4, clear_of (by decide +kernel), rfl⟩⟩
theorem meets_FloatInstruction : ∃ s c sl e i o ty f, floating (mode s c sl e 1) i = some (o, ty, f) ∧ Clear s c sl e i ∧
    calm s c sl e i (fun l => (f (opA s c sl e o o.ty.is64 l).toNat (opB s c sl e o o.ty.is64 l).toNat
      (opC s c sl e o o.ty.is64 l).toNat).2) :=
  ⟨plain, 0, 0, 0, .fadd hd (alu .f32 1 2 3), _, _, _, rfl, clear_of (by decide +kernel), act_of (by decide +kernel)⟩
theorem meets_Conversions :
    (∃ s c sl e i o wideA ty f, converting (mode s c sl e 1) (mode s c sl e 2) i = some (o, wideA, ty, f) ∧ Clear s c sl e i ∧
      calm s c sl e i fun l => (f (opA s c sl e o wideA l).toNat (opB32 s c sl e o l) (vreg s c sl e l o.d.toNat).toNat).2) ∧
    (∃ s c sl e h o, Clear s c sl e (.unpk h o) ∧ calm s c sl e (.unpk h o) fun l =>
      (Fmt.f32.fin .rn (mode s c sl e 1) (((fmtOf o.ty).opnd (mode s c sl e 1) ((opA s c sl e o false l).toNat / 2 ^ 0 % 65536)).ex)).2 |||
      (Fmt.f32.fin .rn (mode s c sl e 1) (((fmtOf o.ty).opnd (mode s c sl e 1) ((opA s c sl e o false l).toNat / 2 ^ 16 % 65536)).ex)).2) :=
  ⟨⟨plain, 0, 0, 0, .cvt hd { alu .i32 2 3 0 with rnd := .rz, ext := 12 }, _, _, _, _, rfl, clear_of (by decide +kernel), act_of (by decide +kernel)⟩,
   ⟨plain, 0, 0, 0, hd, alu .bx2 2 4 0, clear_of (by decide +kernel), act_of (by decide +kernel)⟩⟩
theorem meets_TransposeAndReduction :
    (∃ s c sl e h o, Clear s c sl e (.bpt h o)) ∧
    (∃ s c sl e h o, o.ty ≠ .f32 ∧ (∃ n, (s.entry c sl e).mask.length = 2 ^ n) ∧ Clear s c sl e (.redux h o)) ∧
    (∃ s c sl e h o, o.ty = .f32 ∧ Clear s c sl e (.redux h o)) :=
  ⟨⟨plain, 0, 0, 0, hd, alu .b32 2 3 0, clear_of (by decide +kernel)⟩,
   ⟨plain, 0, 0, 0, hd, alu .i32 2 3 0, by decide, ⟨0, rfl⟩, clear_of (by decide +kernel)⟩,
   ⟨plain, 0, 0, 0, hd, { alu .f32 2 3 0 with ext := 6 }, rfl, clear_of (by decide +kernel)⟩⟩
/-- The `.f32` reduction of the statement, for values that raise nothing of their own. -/
def tree (s : State) (c sl e : Nat) (h : Hdr) (o : Alu) (l : Nat) : Nat × Flags :=
  let n := if o.opx then 5 else Nat.log2 (width s c sl e)
  let leaf := fun l => if active s c sl e (.redux h o) l then
      some (let w := Fmt.f32.flush (mode s c sl e 1) (opA s c sl e o false l).toNat
            if o.ext = 6 then (if (Fmt.f32.dec w).isNan then Fmt.f32.nan else w % 2 ^ 31) else w) else none
  let z := reduxTree o.ext.toNat .f32 o.rnd n ((List.range (2 ^ n)).map fun j => leaf (l / 2 ^ n * 2 ^ n + j)) 0
  let w := z.1.getD 0
  if (Fmt.f32.dec w).isNan then (Fmt.f32.nan, z.2)
  else if mode s c sl e 1 = true ∧ Fmt.f32.subnormal w = true then (Fmt.f32.flush true w, z.2 ||| fUF ||| fNX)
  else (w, z.2)
theorem meets_ReductionTree : ∃ (s : State) (c sl e : Nat) (h : Hdr) (o : Alu) (r : Nat → Nat × Flags),
    o.ty = .f32 ∧ o.ext ≠ 6 ∧ Clear s c sl e (.redux h o) ∧ (∀ l, r l = tree s c sl e h o l) ∧ calm s c sl e (.redux h o) fun l => (r l).2 :=
  ⟨plain, 0, 0, 0, hd, { alu .f32 2 3 0 with ext := 1 }, tree plain 0 0 0 hd { alu .f32 2 3 0 with ext := 1 }, rfl, by decide,
   clear_of (by decide +kernel), fun _ => rfl, act_of (by decide +kernel)⟩
def quatState : State := { plain with ctxs := plain.ctxs.map fun x => (x.1, { x.2 with alg := [(7, quat)] }) }
theorem meets_Algebra : ∃ s c sl e h o,
    (let a := s.algebra (launch s c sl e).ctx (clusterOf c) (o.ext.toNat % 8)
     a.k = 4 ∧ o.d.toNat % a.k = 0 ∧ o.a.toNat % a.k = 0 ∧ o.b.toNat % a.k = 0) ∧
    Clear s c sl e (.algMul h o) ∧ Clear s c sl e (.algConj h { o with b := 0 }) ∧ Clear s c sl e (.algNorm h { o with b := 0 }) ∧
    (∀ l ∈ lanes s c sl e (.algMul h o), (team s c sl e).fpctl = 0) :=
  ⟨quatState, 0, 0, 0, hd, { alu .f32 252 8 12 with ext := 7 }, by decide +kernel, clear_of (by decide +kernel), clear_of (by decide +kernel),
   clear_of (by decide +kernel), by decide +kernel⟩
theorem meets_Predicates :
    (∃ s c sl e h o, o.ty.isFloat = false ∧ Clear s c sl e (.setp h o)) ∧
    (∃ s c sl e h o, o.ty.isFloat = true ∧ Clear s c sl e (.setp h o) ∧ calm s c sl e (.setp h o) fun l =>
      (cmpFloat o.cmp ((fmtOf o.ty).opnd (mode s c sl e 1) (setpA s c sl e o l).toNat) ((fmtOf o.ty).opnd (mode s c sl e 1) (setpB s c sl e o l).toNat)).2) ∧
    (∃ (s : State) (c sl e : Nat) (i : Instr) (d : BitVec 8), Clear s c sl e i ∧ ∀ l, (predicate s c sl e i l).map Prod.fst = some d) :=
  ⟨⟨plain, 0, 0, 0, hd, setp .i64 .lt, rfl, clear_of (by decide +kernel)⟩,
   ⟨plain, 0, 0, 0, hd, setp .f32 .lt, rfl, clear_of (by decide +kernel), act_of (by decide +kernel)⟩,
   ⟨plain, 0, 0, 0, .plop hd 15 1 2 0 0x88, 15, clear_of (by decide +kernel), fun _ => rfl⟩⟩
theorem meets_CrossLane :
    (∃ s c sl e i m g wide d a x, shuffle s c sl e i = some (m, g, wide, d, a, x) ∧ (s.entry c sl e).ustep = 0 ∧ Clear s c sl e i) ∧
    (∃ s c sl e h leg d a, Clear s c sl e (.voteMask h leg d a)) ∧ (∃ s c sl e h d a, Clear s c sl e (.ltos h d a)) ∧
    (∃ s c sl e h d a b, Clear s c sl e (.stol h d a b)) :=
  ⟨⟨plain, 0, 0, 0, .shflXor hd (shfl .b64 2 4), _, _, _, _, _, _, rfl, rfl, clear_of (by decide +kernel)⟩,
   ⟨plain, 0, 0, 0, hd, true, 254, 15, clear_of (by decide +kernel)⟩, ⟨plain, 0, 0, 0, hd, 63, 255, clear_of (by decide +kernel)⟩,
   ⟨plain, 0, 0, 0, hd, 255, 63, 63, clear_of (by decide +kernel)⟩⟩
theorem meets_Scalar :
    (∃ s c sl e i z, scalar i = some z ∧ z.ty.is64 = false ∧ Clear s c sl e i) ∧ (∃ s cl i z, scalar i = some z ∧ CClear s cl i) :=
  ⟨⟨plain, 0, 0, 0, .sadd hd (alu .i32 63 62 61), _, rfl, rfl, clear_of (by decide +kernel)⟩,
   ⟨cplain [], 0, .sadd hd (alu .i64 31 30 29), _, rfl, cclear_of (by decide +kernel)⟩⟩

/-! ### Control flow -/

/-- A bench whose entry has a stack; p1 is one in lanes 0 and 1. -/
def stacked (y : List StkEntry) : State := bench { team0 with p := [(0, 2), (1, 2)] } { entry0 with stack := y }
/-- Two sub-teams of one split. -/
def split (one : EState) : State :=
  let j : StkEntry := { kind := 0, k := 5, split := 9, words := [0x10] }
  let s := stacked [j]
  s.setEntry 0 0 1 { entry0 with mask := [0xF0], stack := [j], st := one }

/-- The second of them waits at the `JOIN` that the first issues. -/
def met : State :=
  let s := split .atJoin
  s.setEntry 0 0 1 { s.entry 0 0 1 with npc := nextPc s 0 0 0 (.join hd 5) }

theorem meets_Branches :
    (∃ s c sl e i pc, flow s c sl e i = some pc ∧ Clear s c sl e i) ∧
    (∃ s c sl e n h k off, (let i := Instr.bra h k off
      let x := s.entry c sl e
      let rest := (lanesOf x.mask).filter fun l => !active s c sl e i l
      Clear s c sl e i ∧ s.entry? c sl e = some x ∧ lanes s c sl e i ≠ [] ∧ rest ≠ [] ∧ x.pc + off * 4 ≠ nextPc s c sl e i ∧
      (s.slot c sl).teams.look x.team = some (team s c sl e) ∧ s.entryFree c sl x.team = true ∧ (s.slot c sl).freeIndex = n ∧
      s.entry? c sl n = none ∧ (team s c sl e).w = 0 ∧ x.stack.length < 8)) :=
  ⟨⟨plain, 0, 0, 0, .bra hd 5 16, _, rfl, clear_of (by decide +kernel)⟩,
   ⟨stacked [], 0, 0, 0, 1, { hd with pred := 1 }, 4095, 16, clear_of (by decide +kernel), rfl, by decide +kernel, by decide +kernel,
    by decide +kernel, rfl, by decide +kernel, by decide +kernel, by decide +kernel, rfl, by decide⟩⟩
theorem meets_Calls :
    (∃ s c sl e h k off, Clear s c sl e (.call h k off) ∧ lanes s c sl e (.call h k off) ≠ [] ∧
      lanes s c sl e (.call h k off) = lanesOf (s.entry c sl e).mask ∧ (s.entry c sl e).stack.length < 8) ∧
    (∃ s c sl e h y r, Clear s c sl e (.ret h) ∧ (s.entry c sl e).stack = y :: r ∧ y.kind = 1 ∧ y.spill = false) ∧
    (∃ s c sl e h y r, Clear s c sl e (.rett h) ∧ (s.entry c sl e).stack = y :: r ∧ y.kind = 2 ∧ y.spill = false ∧ y.holds.isSome = true ∧
      ∃ n ∈ (s.slot c sl).entriesOf (s.entry c sl e).team, n ≠ e ∧ (s.entry c sl n).held = [y.holds.getD 0, 9]) :=
  ⟨⟨plain, 0, 0, 0, hd, 0, 8, clear_of (by decide +kernel), by decide +kernel, by decide +kernel, by decide +kernel⟩,
   ⟨stacked [{ kind := 1, pc := 64 }], 0, 0, 0, hd, _, _, clear_of (by decide +kernel), rfl, rfl, rfl⟩,
   ⟨(stacked [{ kind := 2, pc := 64, holds := some 7 }]).setEntry 0 0 1 { entry0 with mask := [0xF0], held := [7, 9] }, 0, 0, 0, hd, _, _,
    clear_of (by decide +kernel), rfl, rfl, rfl, rfl, 1, by decide +kernel, by decide, rfl⟩⟩
theorem meets_SafePoints :
    (∃ s c sl e h k, Clear s c sl e (.safept h k) ∧ (s.entry c sl e).target = none) ∧
    (∃ s c sl e h k, (s.entry c sl e).stack = [] ∧ Clear s c sl e (.join h k) ∧ (s.entry c sl e).target = none) ∧
    (∃ s c sl e h d r, Clear s c sl e (.yield h) ∧ lanes s c sl e (.yield h) ≠ [] ∧ (s.entry c sl e).stack = d :: r ∧ d.kind = 3 ∧ d.spill = false) :=
  ⟨⟨plain, 0, 0, 0, hd, 4095, clear_of (by decide +kernel), by decide +kernel⟩, ⟨plain, 0, 0, 0, hd, 1, rfl, clear_of (by decide +kernel), by decide +kernel⟩,
   ⟨stacked [{ kind := 3, pc := 64, words := [0xF0] }], 0, 0, 0, hd, _, _, clear_of (by decide +kernel), by decide +kernel, rfl, rfl, rfl⟩⟩
theorem meets_Join :
    (∃ s c sl e h k j r, Clear s c sl e (.join h k) ∧ s.entry? c sl e = some (s.entry c sl e) ∧ (s.entry c sl e).stack = j :: r ∧ j.kind = 0 ∧
      j.k = k ∧ (s.entry c sl e).pend = none ∧ s.waiting c sl (s.entry c sl e).team j.split = [] ∧
      ∃ n ∈ s.siblings c sl (s.entry c sl e).team j.split, n ≠ e) ∧
    (∃ s c sl e h k j r, Clear s c sl e (.join h k) ∧ s.entry? c sl e = some (s.entry c sl e) ∧ (s.entry c sl e).stack = j :: r ∧ j.kind = 0 ∧
      j.k = k ∧ (∀ y ∈ j :: r, y.spill = false) ∧ (s.entry c sl e).pend = none ∧ s.waiting c sl (s.entry c sl e).team j.split = [] ∧
      s.siblings c sl (s.entry c sl e).team j.split = [e] ∧ BitVec.ofNat 3 j.pc.toNat = (s.entry c sl e).version ∧ j.words ≠ []) ∧
    (∃ s c sl e n a b h k j ja r ra, Clear s c sl e (.join h k) ∧ s.entry? c sl e = some (s.entry c sl e) ∧ (s.entry c sl e).stack = j :: r ∧ j.kind = 0 ∧
      j.k = k ∧ n ≠ e ∧ ((a, b) = (e, n) ∨ (a, b) = (n, e)) ∧ s.siblings c sl (s.entry c sl e).team j.split = [a, b] ∧
      s.waiting c sl (s.entry c sl e).team j.split = [n] ∧ (∀ m, (m = e ∨ m = n) → (s.entry c sl m).pend = none ∧ ∀ y ∈ (s.entry c sl m).stack, y.spill = false) ∧
      (s.entry c sl n).version = (s.entry c sl e).version ∧ (s.entry c sl n).npc = nextPc s c sl e (.join h k) ∧ (s.entry c sl a).stack = ja :: ra ∧
      BitVec.ofNat 3 ja.pc.toNat = (s.entry c sl e).version ∧ (s.entry c sl n).mask.length = (s.entry c sl e).mask.length ∧
      (ja.words = [] ∨ ja.words.length = (s.entry c sl e).mask.length)) :=
  ⟨⟨split .ready, 0, 0, 0, hd, 5, _, _, clear_of (by decide +kernel), rfl, rfl, rfl, rfl, rfl, by decide +kernel, by decide +kernel⟩,
   ⟨stacked [{ kind := 0, k := 5, split := 9, words := [0x10] }], 0, 0, 0, hd, 5, _, _, clear_of (by decide +kernel), rfl, rfl, rfl, rfl,
    by decide +kernel, rfl, by decide +kernel, by decide +kernel, by decide, by decide⟩,
   ⟨met, 0, 0, 0, 1, 0, 1, hd, 5, _, _, _, _, clear_of (by decide +kernel), rfl, rfl, rfl, rfl, by decide, Or.inl rfl, by decide +kernel, by decide +kernel,
    by rintro m (rfl | rfl) <;> decide +kernel, rfl, rfl, rfl, by decide, by decide +kernel, by decide +kernel⟩⟩
theorem meets_Exit :
    (∃ s c sl e h, Clear s c sl e (.exit h) ∧ s.released (.team c sl (s.entry c sl e).team) e = true ∧
      maskEmpty (maskAndNot (s.entry c sl e).mask (maskOfLanes (s.entry c sl e).mask.length (lanes s c sl e (.exit h)))) = false) ∧
    (∃ s c sl e h, Clear s c sl e (.exit h) ∧ s.released (.team c sl (s.entry c sl e).team) e = true ∧
      maskEmpty (maskAndNot (s.entry c sl e).mask (maskOfLanes (s.entry c sl e).mask.length (lanes s c sl e (.exit h)))) = true ∧
      (s.entry c sl e).stack = [] ∧
      ∃ n x, n ≠ e ∧ (n, x) ∈ (s.slot c sl).entries ∧ s.entry? c sl n = some x ∧ x.team = (s.entry c sl e).team) :=
  ⟨⟨stacked [], 0, 0, 0, { hd with pred := 1 }, clear_of (by decide +kernel), by decide +kernel, by decide +kernel⟩,
   ⟨plain.setEntry 0 0 1 { entry0 with mask := [0xF0] }, 0, 0, 0, hd, clear_of (by decide +kernel), by decide +kernel, by decide +kernel, rfl,
    1, { entry0 with mask := [0xF0] }, by decide, by decide +kernel, by decide +kernel, rfl⟩⟩
theorem meets_ControlStreamFlow :
    (∃ s cl i pc ret, ctlFlow s cl i = some (pc, ret) ∧ CClear s cl i) ∧
    (∃ s cl h, CClear s cl (.exit h) ∧ (∀ m ∈ (s.ctl cl).cmds, m.lid = (s.ctl cl).lid → m.finished = true ∧ m.failed = none) ∧
      s.released (.control cl) 0 = true) :=
  ⟨⟨cplain [(3, 1)], 0, .cbr hd 2 .n64 3 4 (-4), _, _, rfl, cclear_of (by decide +kernel)⟩,
   ⟨cplain [], 0, hd, cclear_of (by decide +kernel), by decide +kernel, by decide +kernel⟩⟩

end Sys2Proof.Tests
end

