-- ==== Sys2Proof/Tests/MeetsMem.lean ====
section
/-! SUPPORT. Witnesses for the statements about memory and synchronisation: states and operands that meet their hypotheses. -/

namespace Sys2Proof.Tests

open Sys2Proof Sys2Proof.Machine Sys2Proof.Said

-- One test at a time: each asks the kernel, which keeps a thread waiting.
set_option Elab.async false

def awakeB (s : State) (c sl e : Nat) : Bool := match (s.entry c sl e).st with | .asleep _ => false | _ => true
theorem awake_of {s : State} {c sl e : Nat} (h : awakeB s c sl e = true) : Awake s c sl e := by
  intro w hw
  rw [awakeB, hw] at h
  simp at h
def cawakeB (s : State) (cl : Nat) : Bool := match (s.ctl cl).st with | .asleep _ => false | _ => true
theorem cawake_of {s : State} {cl : Nat} (h : cawakeB s cl = true) : CAwake s cl := by
  intro w hw
  rw [cawakeB, hw] at h
  simp at h

/-- Lanes 0 to 3 with address pairs in v2 and v3: lane `l` at `a l`. -/
def addressed (a : Nat → Nat) : State :=
  bench { team0 with v := (List.range 4).map (fun l => (l * 256 + 2, BitVec.ofNat 32 (a l))), s := [(2, 64), (3, 9), (4, 64)] } entry0
/-- Lane 0 alone active, its address at `a`. -/
def one (a : Nat) : State := bench { team0 with v := [(2, BitVec.ofNat 32 a)], s := [(2, 64), (3, 9), (4, 64)] } { entry0 with mask := [1] }
/-- A context with doorbells at 0x8000. -/
def belled (s : State) : State :=
  { s with ctxs := s.ctxs.map fun x => (x.1, { x.2 with desc := { x.2.desc with dbell := 0x8000 } }) }

def legalB (s : State) (c sl e : Nat) (i : Instr) (sp : Space) (at_ : Nat → Int) (size : Nat) (k : Right) : Bool :=
  (lanes s c sl e i).all fun l => decide (at_ l % size = 0) &&
    (match sp with
     | .l => decide (0 ≤ at_ l) && decide ((at_ l).toNat + size ≤ (version s c sl e).scratch)
     | .c => decide (0 ≤ at_ l) && (tarn s c sl e (at_ l).toNat size).isSome
     | .p => decide (0 ≤ at_ l) && decide ((at_ l).toNat + size ≤ 64 * (s.ctxOf (ctx s c sl e)).desc.pond * 2 ^ 20)
     | .g => s.windowOk (ctx s c sl e) (place .g (at_ l)) size k && !s.watched c (place .g (at_ l)) size)
theorem legal_of {s : State} {c sl e : Nat} {i : Instr} {sp : Space} {at_ : Nat → Int} {size : Nat} {k : Right}
    (h : legalB s c sl e i sp at_ size k = true) : Legal s c sl e i sp at_ size k := by
  refine act_of fun l hl => ?_
  have h1 := List.all_eq_true.1 h l hl
  cases sp <;> simpa using h1

theorem meets_OwnLoadAndOldx :
    (∃ s c sl e i o, loadOf i = some o ∧ Clear s c sl e i ∧ Legal s c sl e i o.space (memAt s c sl e o) (spanOf o) .r ∧
      ∀ l, active s c sl e i l = true → (nearByte s c sl e o.space (memAt s c sl e o l) (spanOf o)).isSome) ∧
    (∃ s c sl e h n1 d a off, (let i := Instr.oldx h n1 d a off
      let at_ := fun (j l : Nat) => address s c sl e .g false false a 0 (off.toInt + 4 * j) l
      Clear s c sl e i ∧ (s.entry c sl e).ustep = 0 ∧ (∀ j, j < n1.toNat + 1 → Legal s c sl e i .g (at_ j) 4 .r) ∧
      ∀ j, j < n1.toNat + 1 → ∀ l, active s c sl e i l = true → (s.core c).l1.look (sectorKey (ctx s c sl e) (place .g (at_ j l))) = none)) := by
  refine ⟨⟨addressed fun l => 4080 + 4 * l, 0, 0, 0, .ldShort hb .l 4 2, _, rfl, clear_of (by decide +kernel), legal_of (by decide +kernel),
    act_of (by decide +kernel)⟩, addressed fun l => 64 * l, 0, 0, 0, hd, 7, 8, 2, -4 + 4, clear_of (by decide +kernel), rfl, ?_, ?_⟩
  · intro j hj
    have : j < 8 := hj
    interval_cases j <;> exact legal_of (by decide +kernel)
  · intro j hj
    have : j < 8 := hj
    interval_cases j <;> exact act_of (by decide +kernel)
theorem meets_LoadRequests :
    (∃ s c sl e i o, loadOf i = some o ∧ Clear s c sl e i ∧ Legal s c sl e i o.space (memAt s c sl e o) (spanOf o) .r ∧
      ∀ l, active s c sl e i l = true → nearByte s c sl e o.space (memAt s c sl e o l) (spanOf o) = none ∧
        (s.core c).l1.look (sectorKey (ctx s c sl e) (place .g (memAt s c sl e o l))) = none) ∧
    (∃ s c sl e h o, Clear s c sl e (.ldAcq h o) ∧ Legal s c sl e (.ldAcq h o) o.space (memAt s c sl e o) (spanOf o) .r ∧
      ∀ l, active s c sl e (.ldAcq h o) l = true → nearByte s c sl e o.space (memAt s c sl e o l) (spanOf o) = none) :=
  ⟨⟨addressed fun l => 1048544 + 8 * l, 0, 0, 0, .ld hd (mem .g .i64 4 2), _, rfl, clear_of (by decide +kernel), legal_of (by decide +kernel),
    act_of (by decide +kernel)⟩,
   ⟨addressed fun l => 16 * l, 0, 0, 0, hd, mem .g .n8 4 2, clear_of (by decide +kernel), legal_of (by decide +kernel), act_of (by decide +kernel)⟩⟩
theorem meets_OwnStore : ∃ s c sl e i o, storeOf i = some o ∧ Clear s c sl e i ∧ Legal s c sl e i o.space (memAt s c sl e o) (spanOf o) .plainW ∧
      ∀ l, active s c sl e i l = true → (nearByte s c sl e o.space (memAt s c sl e o l) (spanOf o)).isSome :=
  ⟨addressed fun l => 4092 - 8 * l, 0, 0, 0, .stShort hb .l 3 2, _, rfl, clear_of (by decide +kernel), legal_of (by decide +kernel), act_of (by decide +kernel)⟩
theorem meets_StoreRequests :
    (∃ s c sl e i o, storeOf i = some o ∧ Clear s c sl e i ∧ (launch s c sl e).grid.pair = false ∧
      Legal s c sl e i o.space (memAt s c sl e o) (spanOf o) .plainW ∧
      ∀ l, active s c sl e i l = true → nearByte s c sl e o.space (memAt s c sl e o l) (spanOf o) = none) ∧
    (∃ s c sl e h o, Clear s c sl e (.stRel h o) ∧ (launch s c sl e).grid.pair = false ∧
      Legal s c sl e (.stRel h o) o.space (memAt s c sl e o) (spanOf o) .w ∧
      ∀ l, active s c sl e (.stRel h o) l = true → nearByte s c sl e o.space (memAt s c sl e o l) (spanOf o) = none ∧
        s.bellOf (ctx s c sl e) (place .g (memAt s c sl e o l)) = none) ∧
    (∃ s c sl e l h o, Clear s c sl e (.stRel h o) ∧ lanes s c sl e (.stRel h o) = [l] ∧ o.ty = .b64 ∧ o.count = .x1 ∧
      Legal s c sl e (.stRel h o) .g (memAt s c sl e o) 8 .w ∧ (s.bellOf (ctx s c sl e) (place .g (memAt s c sl e o l))).isSome) :=
  ⟨⟨addressed fun l => 128 * l, 0, 0, 0, .st hd (mem .p .b32 4 2), _, rfl, clear_of (by decide +kernel), rfl, legal_of (by decide +kernel), act_of (by decide +kernel)⟩,
   ⟨addressed fun l => 32 * l, 0, 0, 0, hd, mem .g .b32 4 2, clear_of (by decide +kernel), rfl, legal_of (by decide +kernel), act_of (by decide +kernel)⟩,
   ⟨belled (one (0x8000 + 24)), 0, 0, 0, 0, hd, mem .g .b64 4 2, clear_of (by decide +kernel), by decide +kernel, rfl, rfl, legal_of (by decide +kernel),
    by decide +kernel⟩⟩
theorem meets_OwnAtomic :
    (∃ s c sl e h o, Clear s c sl e (.atom h o) ∧ Legal s c sl e (.atom h o) o.space (atmAt s c sl e o) o.ty.bytes .rwa ∧ inexactType o.ty = false ∧
      ∀ l, active s c sl e (.atom h o) l = true → (nearByte s c sl e o.space (atmAt s c sl e o l) o.ty.bytes).isSome) ∧
    (∃ s c sl e h o, Clear s c sl e (.red h o) ∧ Legal s c sl e (.red h o) o.space (atmAt s c sl e o) o.ty.bytes .rwa ∧ inexactType o.ty = true ∧
      (∀ l, active s c sl e (.red h o) l = true → (nearByte s c sl e o.space (atmAt s c sl e o l) o.ty.bytes).isSome) ∧
      ∃ l m, l ≠ m ∧ active s c sl e (.red h o) l = true ∧ active s c sl e (.red h o) m = true ∧
        nearByte s c sl e o.space (atmAt s c sl e o l) o.ty.bytes = nearByte s c sl e o.space (atmAt s c sl e o m) o.ty.bytes) :=
  ⟨⟨addressed fun _ => 64, 0, 0, 0, hd, atm .l .add .i32, clear_of (by decide +kernel), legal_of (by decide +kernel), rfl, act_of (by decide +kernel)⟩,
   ⟨addressed fun l => 4 * (l / 2), 0, 0, 0, hd, { atm .l .add .f32 with d := 0 }, clear_of (by decide +kernel), legal_of (by decide +kernel), rfl,
    act_of (by decide +kernel), 2, 3, by decide, by decide +kernel, by decide +kernel, by decide +kernel⟩⟩
theorem meets_AtomicRequests :
    (∃ s c sl e h o, Clear s c sl e (.atom h o) ∧ Legal s c sl e (.atom h o) o.space (atmAt s c sl e o) o.ty.bytes .rwa ∧
      ∀ l, active s c sl e (.atom h o) l = true → nearByte s c sl e o.space (atmAt s c sl e o l) o.ty.bytes = none) ∧
    (∃ s c sl e h o, Clear s c sl e (.red h o) ∧ Legal s c sl e (.red h o) o.space (atmAt s c sl e o) o.ty.bytes .rwa ∧
      ∀ l, active s c sl e (.red h o) l = true → nearByte s c sl e o.space (atmAt s c sl e o l) o.ty.bytes = none) :=
  ⟨⟨addressed fun _ => 64, 0, 0, 0, hd, { atm .g .cas .b64 with var := .acq }, clear_of (by decide +kernel), legal_of (by decide +kernel), act_of (by decide +kernel)⟩,
   ⟨addressed fun l => 4 * (l / 2), 0, 0, 0, hd, { atm .p .add .bx2 with d := 0 }, clear_of (by decide +kernel), legal_of (by decide +kernel), act_of (by decide +kernel)⟩⟩
theorem meets_HintsAndMonwait :
    (∃ s c sl e h o, Clear s c sl e (.pfh h o) ∧ lanes s c sl e (.pfh h o) ≠ []) ∧ (∃ s c sl e h o, Clear s c sl e (.pfw h o)) ∧
    (∃ s c sl e h d a, (let i := Instr.monwait h d a
      let va := (spair s c sl e a.toNat).toNat
      Clear s c sl e i ∧ Awake s c sl e ∧ lanes s c sl e i ≠ [] ∧ s.windowOk (ctx s c sl e) va 1 .r = true ∧ (s.entry c sl e).serialised = false ∧
      (ctx s c sl e, va / 32) ∉ (s.core c).monitors ∧ (s.core c).monitors.length < 32)) ∧
    (∃ s c sl e h d a, (let i := Instr.monwait h d a
      let va := (spair s c sl e a.toNat).toNat
      Clear s c sl e i ∧ Awake s c sl e ∧ lanes s c sl e i ≠ [] ∧ s.windowOk (ctx s c sl e) va 1 .r = true ∧ (s.entry c sl e).serialised = false ∧
      (ctx s c sl e, va / 32) ∉ (s.core c).monitors ∧ 32 ≤ (s.core c).monitors.length)) :=
  ⟨⟨plain, 0, 0, 0, hd, mem .g .b32 0 2, clear_of (by decide +kernel), by decide +kernel⟩, ⟨plain, 0, 0, 0, hd, mem .g .b32 0 2, clear_of (by decide +kernel)⟩,
   ⟨plain, 0, 0, 0, hd, 15, 62, clear_of (by decide +kernel), awake_of (by decide +kernel), by decide +kernel, by decide +kernel, rfl, by decide +kernel, by decide +kernel⟩,
   ⟨{ plain with cores := plain.cores.map fun x => (x.1, { x.2 with monitors := List.replicate 32 (1, 7) }) }, 0, 0, 0, hd, 15, 62, clear_of (by decide +kernel),
    awake_of (by decide +kernel), by decide +kernel, by decide +kernel, rfl, by decide +kernel, by decide +kernel⟩⟩
theorem meets_Fences :
    (∃ s c sl e h, Clear s c sl e (.fenceAr h) ∧ lanes s c sl e (.fenceAr h) ≠ [] ∧ s.released (.team c sl (s.entry c sl e).team) e = true) ∧
    (∃ s cl h, CClear s cl (.fenceAr h) ∧ s.released (.control cl) 0 = true) :=
  ⟨⟨plain, 0, 0, 0, hd, clear_of (by decide +kernel), by decide +kernel, by decide +kernel⟩, ⟨cplain [], 0, hd, cclear_of (by decide +kernel), by decide +kernel⟩⟩
/-- Lane `l` copies `n l` bytes to scratchpad byte 512 + 16 l. -/
def copying (n : Nat → Nat) : State :=
  bench { team0 with v := (List.range 4).flatMap fun l => [(l * 256 + 2, BitVec.ofNat 32 (64 * l)), (l * 256 + 5, BitVec.ofNat 32 (512 + 16 * l)),
    (l * 256 + 6, BitVec.ofNat 32 (n l))] } entry0
def acp (out : Bool) : Acp := { space := .g, ty := .b32, count := .x4, sb := false, tag := 1, out := out, d := 5, a := 2, c := 6, off := 0 }
theorem meets_LaneCopies :
    (∃ s c sl e h o, (let i := Instr.acp h o
      let n := o.ty.bytes * o.count.num
      let at_ := address s c sl e o.space o.sb false o.a 0 o.off.toInt
      let to_ := fun l => (vreg s c sl e l o.d.toNat).toNat
      let valid := fun l => min (vreg s c sl e l o.c.toNat).toNat n
      Clear s c sl e i ∧ o.space = .g ∧
      (∀ l, active s c sl e i l = true → at_ l % n = 0 ∧ to_ l % n = 0 ∧ to_ l + n ≤ (version s c sl e).scratch ∧
        s.windowOk (ctx s c sl e) (place .g (at_ l)) (valid l) (if o.out then .w else .r) = true ∧ s.watched c (place .g (at_ l)) (valid l) = false) ∧
      ∃ l, active s c sl e i l = true ∧ 0 < valid l)) ∧
    (∃ s c sl e h tag n, (let i := Instr.acwait h tag n
      let under := (team s c sl e).copies.filter fun k => k.tag == tag.toNat
      Clear s c sl e i ∧ lanes s c sl e i ≠ [] ∧ (s.entry c sl e).serialised = false ∧ (∀ k ∈ under.take (under.length - n.toNat), k.failed = none) ∧ under ≠ [])) :=
  ⟨⟨copying fun l => if l = 1 then 0 else 16, 0, 0, 0, hd, acp false, clear_of (by decide +kernel), rfl, act_of (by decide +kernel), 0, by decide +kernel, by decide +kernel⟩,
   ⟨bench { team0 with copies := [{ id := 1, tag := 3, out := false, space := .g, size := 16, pc := 0, blks := [] }] } entry0, 0, 0, 0, hd, 3, 0,
    clear_of (by decide +kernel), by decide +kernel, rfl, by decide +kernel, by decide +kernel⟩⟩

/-! ### Synchronisation -/

/-- The bench's parcel with barrier 31 in a given state, and a sleeper on it in a second team. -/
def barred (b : Bar) : State :=
  let s := plain.setTeam 0 0 1 team0
  let s := s.setEntry 0 0 1 { entry0 with team := 1, st := .asleep (.bar 31), npc := 0x200 }
  { s with parcels := s.parcels.map fun x => (x.1, { x.2 with bars := x.2.bars.set 31 b }) }
theorem meets_NamedBarriers :
    (∃ s c sl e i n b, (let bit : BitVec 128 := BitVec.ofNat 128 (2 ^ (32 * sl + (s.entry c sl e).team))
      Clear s c sl e i ∧ Awake s c sl e ∧ lanes s c sl e i ≠ [] ∧ (parcel s c sl e).bars[n.toNat]? = some b ∧
      32 * sl + (s.entry c sl e).team < 128 ∧ (s.entry c sl e).serialised = false ∧ (s.entry c sl e).arrived = false ∧
      (∃ h, i = .barSync h n) ∧ b.expected &&& (b.arrived ||| bit) = b.expected ∧ b.expected ≠ 0)) ∧
    (∃ s c sl e i n b, Clear s c sl e i ∧ Awake s c sl e ∧ lanes s c sl e i ≠ [] ∧ (parcel s c sl e).bars[(n : BitVec 6).toNat]? = some b ∧
      32 * sl + (s.entry c sl e).team < 128 ∧ (s.entry c sl e).serialised = false ∧ (s.entry c sl e).arrived = false ∧
      (∃ h, i = .barWait h n) ∧ b.arrived ≠ 0) :=
  ⟨⟨barred { expected := 3, arrived := 2 }, 0, 0, 0, .barSync hd 31, 31, _, clear_of (by decide +kernel), awake_of (by decide +kernel), by decide +kernel, rfl, by decide, rfl, rfl,
    ⟨hd, rfl⟩, by decide, by decide⟩,
   ⟨barred { expected := 3, arrived := 1 }, 0, 0, 0, .barWait hd 31, 31, _, clear_of (by decide +kernel), awake_of (by decide +kernel), by decide +kernel, rfl, by decide, rfl, rfl,
    ⟨hd, rfl⟩, by decide⟩⟩
/-- A second core of the launch's cluster with a parcel of it that has a Tarn region. -/
def tarned : State :=
  let s := one 0
  { s with parcels := [(1, { pid := 1, lid := 1, core := 0, scrSize := 4096, tarn := 64 }), (2, { pid := 2, lid := 1, core := 1, base := 4096, scrSize := 4096, tarn := 64 })] }
/-- The same with v3 and s registers for the barrier instructions, whose object address is s2. -/
def objected (a v : Word) : State :=
  let s := bench { team0 with s := [(2, a), (3, v)] } entry0
  { s with parcels := tarned.parcels, cores := s.cores.map fun x => (x.1, { x.2 with scratch := [(32, 4), (36, 4)] }) }
def crossed : Barb := { barb 2 3 with space := .c }
theorem meets_TeamByteBarriers :
    (∃ s c sl e o co a h, Clear s c sl e (.barArriveb h o) ∧ Awake s c sl e ∧ lanes s c sl e (.barArriveb h o) ≠ [] ∧
      objPlace s c sl e (.barArriveb h o) o = some (co, a) ∧ (s.entry c sl e).serialised = false ∧ co = c) ∧
    (∃ s c sl e o co a h, Clear s c sl e (.barInitb h o) ∧ Awake s c sl e ∧ lanes s c sl e (.barInitb h o) ≠ [] ∧
      objPlace s c sl e (.barInitb h o) o = some (co, a) ∧ (s.entry c sl e).serialised = false ∧ co ≠ c) ∧
    (∃ s c sl e o co a h, Clear s c sl e (.barWaitb h o) ∧ Awake s c sl e ∧ lanes s c sl e (.barWaitb h o) ≠ [] ∧
      objPlace s c sl e (.barWaitb h o) o = some (co, a) ∧ (s.entry c sl e).serialised = false ∧
      ∀ r ∈ s.reqs, ¬ (r.src = .team c sl (s.entry c sl e).team ∧ r.tgt = .bank co)) :=
  ⟨⟨objected 32 5, 0, 0, 0, barb 2 3, 0, 32, hd, clear_of (by decide +kernel), awake_of (by decide +kernel), by decide +kernel, by decide +kernel, rfl, rfl⟩,
   ⟨objected (2 ^ 18 + 48) 5, 0, 0, 0, crossed, 1, 786416, hd, clear_of (by decide +kernel), awake_of (by decide +kernel), by decide +kernel, by decide +kernel, rfl, by decide⟩,
   ⟨objected (2 ^ 18 + 48) 5, 0, 0, 0, crossed, 1, 786416, hd, clear_of (by decide +kernel), awake_of (by decide +kernel), by decide +kernel, by decide +kernel, rfl, by decide +kernel⟩⟩
/-- The control core with an object address in c2 and a value in c3. -/
def cobjected (a v : Dword) : State := { cplain [(2, a), (3, v)] with parcels := tarned.parcels }
theorem meets_ControlByteBarriers : ∃ s cl o co a h, CClear s cl (.barArriveb h o) ∧ o.sb = true ∧ o.space = .l ∧ ctlPlace s cl o = some (co, a) ∧
    CClear s cl (.barInitb h o) ∧ CClear s cl (.barWaitb h o) :=
  ⟨cobjected (2 ^ 20 + 4080) 5, 0, barb 2 3, 1, 8176, hd, cclear_of (by decide +kernel), rfl, rfl, by decide +kernel, cclear_of (by decide +kernel),
   cclear_of (by decide +kernel)⟩
/-- A queue of the bench's cluster with some entries. -/
def queued (q : Nat) (x : List Dword) : State := { plain with ctls := plain.ctls.map fun y => (y.1, { y.2 with queues := [(q, x)] }) }
theorem meets_Queues :
    (∀ x ∈ [[], [5], List.replicate 64 5], ∃ s c sl e q h a, ((s.ctl (clusterOf c)).queues.get [] q.toNat = x ∧ Clear s c sl e (.qpush h q a) ∧
      lanes s c sl e (.qpush h q a) ≠ [] ∧ (s.ctl (clusterOf c)).st ≠ .off ∧ (s.ctl (clusterOf c)).lid = (parcel s c sl e).lid ∧
      (s.entry c sl e).serialised = false ∧ s.queueSleepers (clusterOf c) q.toNat = [] ∧ Awake s c sl e ∧ 8 ≤ q.toNat ∧ q.toNat < 16 ∧ a.toNat % 2 = 0)) ∧
    (∀ x ∈ [[], [5], List.replicate 64 5], ∃ s c sl e q h d, ((s.ctl (clusterOf c)).queues.get [] q.toNat = x ∧ Clear s c sl e (.qpop h q d) ∧
      lanes s c sl e (.qpop h q d) ≠ [] ∧ (s.ctl (clusterOf c)).st ≠ .off ∧ (s.ctl (clusterOf c)).lid = (parcel s c sl e).lid ∧
      (s.entry c sl e).serialised = false ∧ s.queueSleepers (clusterOf c) q.toNat = [] ∧ Awake s c sl e ∧ q.toNat < 8 ∧ d.toNat % 2 = 0)) ∧
    (∃ s cl q h a, CClear s cl (.qpush h q a) ∧ s.queueSleepers cl q.toNat = [] ∧ CAwake s cl ∧ q.toNat < 8) ∧
    (∃ s cl q h d, CClear s cl (.qpop h q d) ∧ s.queueSleepers cl q.toNat = [] ∧ CAwake s cl ∧ 8 ≤ q.toNat ∧ q.toNat < 16) := by
  refine ⟨fun x hx => ⟨queued 15 x, 0, 0, 0, 15, hd, 62, ?_⟩, fun x hx => ⟨queued 7 x, 0, 0, 0, 7, hd, 62, ?_⟩,
    ⟨cplain [], 0, 7, hd, 31, cclear_of (by decide +kernel), by decide +kernel, cawake_of (by decide +kernel), by decide⟩,
    ⟨cplain [], 0, 15, hd, 31, cclear_of (by decide +kernel), by decide +kernel, cawake_of (by decide +kernel), by decide, by decide⟩⟩
  all_goals
    simp only [List.mem_cons, List.not_mem_nil, or_false] at hx
    rcases hx with rfl | rfl | rfl
  all_goals
    refine ⟨by decide +kernel, clear_of (by decide +kernel), by decide +kernel, by decide +kernel, by decide +kernel, rfl, by decide +kernel, awake_of (by decide +kernel), ?_⟩
    decide
theorem meets_Flags :
    (∃ s c sl e i f, Clear s c sl e i ∧ Awake s c sl e ∧ lanes s c sl e i ≠ [] ∧ (s.ctl (clusterOf c)).st ≠ .off ∧
      (s.ctl (clusterOf c)).lid = (parcel s c sl e).lid ∧ ∃ h, i = .flagSet h f) ∧
    (∃ s cl i f, CClear s cl i ∧ CAwake s cl ∧ ∃ h, i = .flagWait h f) :=
  ⟨⟨plain, 0, 0, 0, .flagSet hd 63, 63, clear_of (by decide +kernel), awake_of (by decide +kernel), by decide +kernel, by decide +kernel, rfl, hd, rfl⟩,
   ⟨cplain [], 0, .flagWait hd 0, 0, cclear_of (by decide +kernel), cawake_of (by decide +kernel), hd, rfl⟩⟩

end Sys2Proof.Tests
end

