-- ==== Sys2Proof/Tests/MeetsCtl.lean ====
section
/-! SUPPORT. Witnesses for the statements about the control core, its engines, traps, special registers and transfers. -/

namespace Sys2Proof.Tests

open Sys2Proof Sys2Proof.Machine Sys2Proof.Said

-- One test at a time: each asks the kernel, which keeps a thread waiting.
set_option Elab.async false

/-! ### The control core -/

/-- A readable, writable, atomic leaf of an HBM frame. -/
def leaf5 : Leaf := 0x5001F
/-- The translation of an address at its partition. -/
def mapped (s : State) (va : Nat) (l : Leaf) : State :=
  s.setPart (partOf va) { s.part (partOf va) with tlb := [(tlbKey 1 va, l)] }

theorem meets_ControlAccesses :
    (∃ s cl h ty o x a off, (let va := (creg s cl a + off.signExtend 64).toNat
      CClear s cl (.cld h ty o x a off) ∧ va % ty.bytes = 0 ∧ s.windowOk (ctlCtx s cl) va ty.bytes .r = true ∧
      (o = true ∨ (s.ctl cl).dcache.look (sectorKey (ctlCtx s cl) va) = none))) ∧
    (∃ s cl h ty o x a off, (let va := (creg s cl a + off.signExtend 64).toNat
      CClear s cl (.cst h ty o a x off) ∧ va % ty.bytes = 0 ∧ s.windowOk (ctlCtx s cl) va ty.bytes (if o then .w else .plainW) = true)) :=
  ⟨⟨cplain [(2, 64)], 0, hd, .i64, false, 31, 2, -8, cclear_of (by decide +kernel), by decide +kernel, by decide +kernel, .inr (by decide +kernel)⟩,
   ⟨cplain [(2, 64)], 0, hd, .n16, true, 31, 2, -2, cclear_of (by decide +kernel), by decide +kernel, by decide +kernel⟩⟩
/-- A record of `quat` at 0x10000 in the Basin. -/
def recorded : State :=
  let s := mapped (cplain [(2, 0x10000)]) 0x10000 leaf5
  let bs := bytesOfNat 512 (0x08454B000004C26A0000092E09000005A928 * 2 ^ 192 + 0x0E04 * 2 ^ 64 + 0x74617571)
  { s with basin := [(blockNo (partOf 0x10000) leaf5 (halfOf leaf5 0x10000), { bytes := bs, dirty := true, bad := false, fresh := List.replicate 512 true, elide := false, key := 0 })] }
theorem meets_ShapesAndSlots :
    (∃ s cl h d a field, CClear s cl (.shpSet h d a field)) ∧ (∃ s cl h, CClear s cl (.wfi h)) ∧
    (∃ s s1 cl h d a bs, (let va := (creg s cl a).toNat
      CClear s cl (.algLdt h d a) ∧ va % 64 = 0 ∧ s.windowOk (ctlCtx s cl) va 64 .r = true ∧ (s.ctl cl).ldt = none ∧ s.reqs = [] ∧
      s.engineRead (ctlCtx s cl) va 64 { pc := (s.ctl cl).pc, team := (s.ctl cl).eseq.toNat, version := (s.ctl cl).version } = (.ok bs, s1) ∧ (Algebra.ofRecord (little 64 fun q => bs.getD q 0)).isSome)) :=
  ⟨⟨cplain [], 0, hd, 7, 31, 6, cclear_of (by decide +kernel)⟩, ⟨cplain [], 0, hd, cclear_of (by decide +kernel)⟩,
   ⟨recorded, _, 0, hd, 7, 2, _, cclear_of (by decide +kernel), by decide +kernel, by decide +kernel, rfl, rfl, rfl, by decide +kernel⟩⟩
def shape2 : ShapeReg := { base := 0x8000, e0m := 3, esz := 2, s0 := 4, pitch := 16 }
/-- The control core of the bench with a mask of core 0, a shape and some commands. -/
def engined (cmds : List Cmd) : State :=
  ctl { plain with kernels := plain.kernels.map fun x => (x.1, { x.2 with vers := x.2.vers.map fun v => { v with scratch := 65536 } }) }
    { lid := 1, st := .ready, cycle := 10, tvec := 0xFFFFFFFF, c := [(1, 1), (4, 512), (6, 1024), (7, 256), (8, 0x00030000)], h := [(2, shape2)], cmds := cmds }
def unfinished (k : Nat) : Cmd := { lid := 1, eseq := BitVec.ofNat 32 k, pc := 0, op9 := 0x188, cores := [0], parcels := [(0, 1)], op := .swap }
/-- The control core with no commands issues a command at the cores of a mask register. -/
def Issues (i : Instr) (r : BitVec 8) (copy : Bool) : Prop :=
  let s := engined []
  ∃ op, command s 0 i = some (r, copy, op) ∧ CClear s 0 i ∧ (∀ z ∈ (s.ctl 0).hLate, z.2.1 ≤ (s.ctl 0).cycle) ∧ commandOk s 0 i ∧
    roomFor s 0 copy (cores s 0 r)
theorem issues_of {i : Instr} {r : BitVec 8} {copy : Bool} (hc : ((command (engined []) 0 i).map fun x => (x.1, x.2.1)) = some (r, copy))
    (hi : cclearB (engined []) 0 i = true) (hk : commandOk (engined []) 0 i) (hr : roomFor (engined []) 0 copy (cores (engined []) 0 r)) :
    Issues i r copy := by
  obtain ⟨⟨r', k', op⟩, h, he⟩ := Option.map_eq_some_iff.1 hc
  cases he
  exact ⟨op, h, cclear_of hi, by decide +kernel, hk, hr⟩
/-- The product of a stream of the statement. -/
def strm1 : Strm := { alg := 0, lst := true, acc := false, d := 9, a := 6, b := 7, c := 1, m1 := 1 }
theorem meets_EngineCommands :
    (Issues (.txLd hd (tx .b32)) 1 true ∧ Issues (.txSt hd (tx .b32)) 1 true ∧ Issues (.mxSwap hd 1) 1 false ∧
      Issues (.mxLds hd true 6 7 1) 1 false ∧ Issues (.mxStrm hd strm1) 1 false ∧ Issues (.mxZero hd 8 1) 1 false ∧
      Issues (.mxDrn hd { tx .f32 with d := 8, a := 6, b := 7 }) 1 false ∧ Issues (.txLd hd { tx .b32 with c := 9 }) 9 true) ∧
    (∃ s cl i r op, command s cl i = some (r, false, op) ∧ CClear s cl i ∧ (∀ z ∈ (s.ctl cl).hLate, z.2.1 ≤ (s.ctl cl).cycle) ∧ commandOk s cl i ∧ ¬ roomFor s cl false (cores s cl r)) ∧
    (∃ s cl i, (∃ h, i = .txFence h) ∧ CClear s cl i ∧ ∃ m ∈ (s.ctl cl).cmds, m.lid = (s.ctl cl).lid ∧ m.finished = false) ∧
    (∃ s cl h c, maskOk s cl c ∧ CClear s cl (.mxWait h c) ∧ (s.ctl cl).cmds = []) := by
  refine ⟨?_, ⟨engined ((List.range 16).map unfinished), 0, .mxSwap hd 1, 1, .swap, rfl, cclear_of (by decide +kernel), by decide +kernel, ?_, ?_⟩,
    ⟨engined [unfinished 3], 0, .txFence hd, ⟨hd, rfl⟩, cclear_of (by decide +kernel), by decide +kernel⟩,
    ⟨engined [], 0, hd, 1, ?_, cclear_of (by decide +kernel), rfl⟩⟩
  · repeat' apply And.intro
    all_goals
      refine issues_of rfl (by decide +kernel) ?_ ?_
      · simp only [commandOk, maskOk, regionOk, typeOk, sideOk, rowsOk]; decide +kernel
      · simp only [roomFor]; decide +kernel
  · simp only [commandOk, maskOk]; decide +kernel
  · simp only [roomFor]; decide +kernel
  · simp only [maskOk]; decide +kernel

/-! ### Traps and special registers -/

/-- A sub-team with a handler and a stack area. -/
def handled (x : Entry) : State := bench { team0 with tvec := 0x800, stkbase := 0x1000, stklim := 0x4000, s := [(5, 0x1F3F), (6, 0x40)] } x
theorem canTrap : CanTrap (handled entry0) 0 0 0 0 := by
  refine ⟨by decide +kernel, by decide +kernel, by decide +kernel, by decide +kernel, ⟨[0], by decide +kernel⟩, by decide, ?_⟩
  intro k hk
  rcases hk with rfl | rfl <;> decide +kernel
/-- The same with misaligned addresses in lanes 1 and 2, and all exceptions enabled. -/
def misaligned : State := handledWith [(256 + 2, 5), (512 + 2, 6)] 0x1F00
where handledWith (v : Store Word) (f : Word) : State :=
  bench { team0 with tvec := 0x800, stkbase := 0x1000, stklim := 0x4000, v := v, fpctl := f } entry0
theorem canTrap_misaligned : CanTrap misaligned 0 0 0 0 := by
  refine ⟨by decide +kernel, by decide +kernel, by decide +kernel, by decide +kernel, ⟨[0], by decide +kernel⟩, by decide, ?_⟩
  intro k hk
  rcases hk with rfl | rfl <;> decide +kernel
/-- Signalling NaNs in lanes 2 and 3. -/
def invalid : State := misaligned.handledWith [(512 + 2, 0x7F800001), (768 + 2, 0x7F800001)] 0x1F00
theorem canTrap_invalid : CanTrap invalid 0 0 0 0 := by
  refine ⟨by decide +kernel, by decide +kernel, by decide +kernel, by decide +kernel, ⟨[0], by decide +kernel⟩, by decide, ?_⟩
  intro k hk
  rcases hk with rfl | rfl <;> decide +kernel
theorem lowestOf_bounded {who : Nat → Bool} {n row low : Nat} (hw : ∀ l, who l = true → l < n)
    (h : who low = true ∧ low / 32 = row ∧ ∀ l, l < n → who l = true → row ≤ l / 32 ∧ (l / 32 = row → low ≤ l)) : LowestOf who row low :=
  ⟨h.1, h.2.1, fun l hl => h.2.2 l (hw l hl) hl⟩
theorem active_lt {s : State} {c sl e : Nat} {i : Instr} {l : Nat} (h : active s c sl e i l = true) : l < 32 * (s.entry c sl e).mask.length := by
  have := (mem_lanes l).2 h
  simp only [lanes, List.mem_filter, List.mem_range] at this
  exact this.1
theorem meets_Traps :
    (∃ s c sl e o i, CanTrap s c sl e o ∧ (∃ h code, i = .trap h code) ∧ Clear s c sl e i ∧ lanes s c sl e i ≠ []) ∧
    (∃ s c sl e o, CanTrap s c sl e o ∧ s.cur = .team c sl e ∧ (s.entry c sl e).ra = none) ∧
    (∃ s c sl e o i m row low, CanTrap s c sl e o ∧ loadOf i = some m ∧ Clear s c sl e i ∧
      LowestOf (fun l => active s c sl e i l && decide (memAt s c sl e m l % spanOf m ≠ 0)) row low) ∧
    (∃ s c sl e o h d, CanTrap s c sl e o ∧ Clear s c sl e (.srd h 0x018 false d) ∧ d.toNat % 2 = 0 ∧ ∀ y ∈ (s.entry c sl e).stack, y.kind ≠ 2) ∧
    (∃ s c sl e o h v code, CanTrap s c sl e o ∧ Clear s c sl e (.xfer h v) ∧ (s.entry c sl e).target = none ∧ (∀ y ∈ (s.entry c sl e).stack, y.spill = false) ∧
      v ≠ (s.entry c sl e).version ∧ s.transferFail c sl e v (s.entry c sl e).safept = some code) ∧
    (∃ s c sl e o i q ty f row low, CanTrap s c sl e o ∧ floating (mode s c sl e 1) i = some (q, ty, f) ∧ Clear s c sl e i ∧
      LowestOf (fun l => active s c sl e i l && decide ((f (opA s c sl e q q.ty.is64 l).toNat (opB s c sl e q q.ty.is64 l).toNat (opC s c sl e q q.ty.is64 l).toNat).2 &&&
        (((team s c sl e).fpctl >>> 8).setWidth 6 &&& 0b011111) ≠ 0)) row low) := by
  refine ⟨⟨handled entry0, 0, 0, 0, 0, .trap hd 77, canTrap, ⟨hd, 77, rfl⟩, clear_of (by decide +kernel), by decide +kernel⟩,
    ⟨handled entry0, 0, 0, 0, 0, canTrap, rfl, rfl⟩,
    ⟨misaligned, 0, 0, 0, 0, .ldShort hb .l 4 2, _, 0, 1, canTrap_misaligned, rfl, clear_of (by decide +kernel), ?_⟩,
    ⟨handled entry0, 0, 0, 0, 0, hd, 254, canTrap, clear_of (by decide +kernel), by decide, by decide +kernel⟩,
    ⟨handled entry0, 0, 0, 0, 0, hd, 7, _, canTrap, clear_of (by decide +kernel), by decide +kernel, by decide +kernel, by decide +kernel, rfl⟩,
    ⟨invalid, 0, 0, 0, 0, .fadd hd (alu .f32 1 2 3), _, _, _, 0, 2, canTrap_invalid, rfl, clear_of (by decide +kernel), ?_⟩⟩
  · refine lowestOf_bounded (n := 32) (fun l hl => ?_) (by decide +kernel)
    simp only [Bool.and_eq_true] at hl
    exact active_lt hl.1
  · refine lowestOf_bounded (n := 32) (fun l hl => ?_) (by decide +kernel)
    simp only [Bool.and_eq_true] at hl
    exact active_lt hl.1
def chandled (hdl : Bool) : State :=
  ctl plain { lid := 1, st := .ready, cycle := 10, pc := 0x40, tvec := 0x900, stkbase := 0x1000, handler := hdl, tpc := 0x80, c := [(6, 0x44)] }
theorem meets_ControlTraps :
    (∃ s cl i, (∃ h code, i = .trap h code) ∧ CClear s cl i ∧ (s.ctl cl).handler = false ∧ (s.ctl cl).tvec ≠ 0xFFFFFFFF ∧
      ∀ k, (k = .r ∨ k = .w) → s.windowOk (ctlCtx s cl) (s.ctl cl).stkbase.toNat 128 k = true) := by
  refine ⟨chandled false, 0, .trap hd 5, ⟨hd, 5, rfl⟩, cclear_of (by decide +kernel), rfl, by decide +kernel, ?_⟩
  intro k hk
  rcases hk with rfl | rfl <;> decide +kernel
/-- In handler state. -/
def handling : State := handled { entry0 with stack := [{ kind := 2, pc := 0x60, aux := 0x40 }] }
theorem meets_SpecialReads :
    (∃ s c sl e h reg sd d, Clear s c sl e (.srd h reg sd d) ∧ (∀ l, (special s c sl e reg.toNat l).isSome) ∧ (wideReg reg.toNat = true → d.toNat % 2 = 0) ∧
      (sd = true → laneReg reg.toNat = false)) ∧
    (∃ s cl h reg d v, CClear s cl (.srd h reg true d) ∧ ctlSpecial? s cl reg.toNat = some v) :=
  ⟨⟨handling, 0, 0, 0, hd, 0x018, true, 62, clear_of (by decide +kernel), fun _ => rfl, by decide, by decide⟩,
   ⟨chandled true, 0, hd, 0x017, 31, _, cclear_of (by decide +kernel), rfl⟩⟩
theorem meets_SpecialWrites :
    (∃ s c sl e h reg a, Clear s c sl e (.swr h reg a) ∧ lanes s c sl e (.swr h reg a) ≠ [] ∧ reg = 0x011) ∧
    (∃ s c sl e h reg a y r, Clear s c sl e (.swr h reg a) ∧ lanes s c sl e (.swr h reg a) ≠ [] ∧ (s.entry c sl e).stack = y :: r ∧ y.kind = 2 ∧ y.spill = false ∧ reg = 0x017 ∧
      (sreg s c sl e a.toNat).toNat % 4 = 0) ∧
    (∃ s cl h reg a, CClear s cl (.swr h reg a) ∧ reg = 0x017 ∧ (s.ctl cl).handler = true ∧ ((creg s cl a).setWidth 32 : Word).toNat % 4 = 0) ∧
    (∃ s c sl e h a, Clear s c sl e (.progress h a)) :=
  ⟨⟨handled entry0, 0, 0, 0, hd, 0x011, 5, clear_of (by decide +kernel), by decide +kernel, rfl⟩,
   ⟨handling, 0, 0, 0, hd, 0x017, 6, _, _, clear_of (by decide +kernel), by decide +kernel, rfl, rfl, rfl, rfl, by decide +kernel⟩,
   ⟨chandled true, 0, hd, 0x017, 6, cclear_of (by decide +kernel), rfl, rfl, by decide +kernel⟩, ⟨plain, 0, 0, 0, hd, 63, clear_of (by decide +kernel)⟩⟩
/-- A kernel of two versions whose point 9 keeps one slot in v4 and in v6. -/
def versioned : State :=
  let s := bench { team0 with v := vs [(0, 4, 44), (1, 4, 55)] } { entry0 with safept := 9 }
  let k := s.kernel 1
  let v0 := k.vers.headD {}
  { s with kernels := [(1, { k with
      vers := [v0, { v0 with regs := 8 }]
      frames := [{ k := 9, slots := [{ slot := 0, ty := 0, u := false, live := true }] }]
      maps := [{ k := 9, version := 0, isJoin := false, pc := 0x0F4, ents := [{ slot := 0, kind := 0, reg := 4, arg := 0, value := 0 }], recipes := [] },
               { k := 9, version := 1, isJoin := false, pc := 0x300, ents := [{ slot := 0, kind := 0, reg := 6, arg := 0, value := 0 }], recipes := [] }] })] }
theorem meets_Transfer : ∃ s c sl e h v ma mb, (let x := s.entry c sl e
    let k := s.kernelOf (team s c sl e)
    let ds := k.slotsAt x.safept
    Clear s c sl e (.xfer h v) ∧ x.target = none ∧ v ≠ x.version ∧ (∀ y ∈ x.stack, y.spill = false) ∧
    s.transferFail c sl e v x.safept = none ∧ s.transferMark c sl e v x.safept = none ∧ k.mapOf x.version x.safept = some ma ∧
    k.mapOf v x.safept = some mb ∧ neededSlots ds mb ≠ [] ∧ (∀ z ∈ neededSlots ds mb, z.bits = 32 ∧ z.u = false)) :=
  ⟨versioned, 0, 0, 0, hd, 1, _, _, clear_of (by decide +kernel), by decide +kernel, by decide +kernel, by decide +kernel, by decide +kernel, by decide +kernel, rfl, rfl, by decide +kernel, by decide +kernel⟩
def debugged : State :=
  let s := handled { entry0 with debug := true, stack := [{ kind := 2, pc := 0x60, aux := 0x40 }] }
  { s with wh := { s.wh with life := .debug }, cur := .none }
theorem meets_DebugFunction :
    (∃ (s : State) (c sl e : Nat) (x : Entry) (y : StkEntry) (r : List StkEntry), s.entry? c sl e = some x ∧ s.wh.life = .debug ∧ x.debug = true ∧ x.st = .ready ∧ x.stack = y :: r ∧ y.kind = 2) ∧
    (∃ (s : State) (co k : Nat), s.wh.life = .debug ∧ co < 256 ∧ k < 4) :=
  ⟨⟨debugged, 0, 0, 0, _, _, _, rfl, rfl, rfl, rfl, rfl, rfl⟩, ⟨debugged, 255, 3, rfl, by decide, by decide⟩⟩

end Sys2Proof.Tests
end

