-- ==== Sys2Proof/Tests/MeetsEvents.lean ====
section
/-! SUPPORT. Witnesses for the statements about the events of the slots, the memory system and the engines. -/

namespace Sys2Proof.Tests

open Sys2Proof Sys2Proof.Machine Sys2Proof.Said

-- One test at a time: each asks the kernel, which keeps a thread waiting.
set_option Elab.async false

/-! ### Slots and control cores -/

/-- The bench with its entry in a given state, the core's clock at 70,000. -/
def waiting (st : EState) : State :=
  let s := bench team0 { entry0 with st := st, npc := 0x10C }
  { s with cores := s.cores.map fun x => (x.1, { x.2 with cycle := 70000 }), cur := .none }
def cwaiting (x : Control) : State := { ctl plain x with cur := .none }
theorem meets_StallsAndSleeps :
    (∃ (s : State) (c sl e n : Nat) (x : Entry), c < 256 ∧ s.entry? c sl e = some x ∧ x.st = .stalled n ∧ n ≤ (s.core c).cycle) ∧
    (∃ (s : State) (cl n : Nat), (s.ctl cl).st = .stalled n ∧ n ≤ (s.ctl cl).cycle) ∧
    (∃ (s : State) (c sl e d since sec : Nat), (s.entry c sl e).st = .asleep (.mon sec d since) ∧ since + 65536 = (s.core c).cycle ∧ 1 ≤ d ∧ d < 16) ∧
    (∃ (s : State) (c sl e d since : Nat), (s.entry c sl e).st = .asleep (.noMon d since) ∧ since + 1024 = (s.core c).cycle ∧ 1 ≤ d ∧ d < 16) ∧
    (∃ (s : State) (cl since : Nat), (s.ctl cl).st = .asleep (.wfi since) ∧ since + 65536 = (s.ctl cl).cycle) ∧
    (∃ (s : State) (cl since : Nat), (s.ctl cl).st = .asleep (.wfi since) ∧ (s.ctl cl).cycle + 1 = since + 65536) :=
  ⟨⟨waiting (.stalled 70000), 0, 0, 0, _, _, by decide, rfl, rfl, by decide +kernel⟩, ⟨cwaiting { st := .stalled 7, cycle := 7 }, 0, _, rfl, by decide +kernel⟩,
   ⟨waiting (.asleep (.mon 3 15 4464)), 0, 0, 0, 15, 4464, 3, rfl, by decide +kernel, by decide, by decide⟩,
   ⟨waiting (.asleep (.noMon 1 68976)), 0, 0, 0, 1, 68976, rfl, by decide +kernel, by decide, by decide⟩,
   ⟨cwaiting { st := .asleep (.wfi 5), cycle := 65541 }, 0, 5, rfl, by decide +kernel⟩,
   ⟨cwaiting { st := .asleep (.wfi 5), cycle := 65540 }, 0, 5, rfl, by decide +kernel⟩⟩
/-- An executable page of code at 0x10100, with the short words of `SRD v1, %lane` in the Basin. -/
def coded (pc : Word) : State :=
  let s := bench team0 { entry0 with pc := pc }
  let l : Leaf := 0x5001F
  let bs := (List.replicate 128 (bytesOfNat 4 0x000104C4)).flatten
  { mapped s 0x10100 l with
    cur := .none
    ctls := [(0, { lid := 1, st := .ready, pc := pc, cycle := 10 })]
    basin := [(blockNo (partOf 0x10100) l (halfOf l 0x10100), { bytes := bs, dirty := true, bad := false, fresh := List.replicate 512 true, elide := false, key := 0 })]
    kernels := s.kernels.map fun x => (x.1, { x.2 with vers := x.2.vers.map fun v => { v with control := some (65536, 65536) } }) }
/-- The request of a fetch, as its entry names it. -/
def fetcher (s : State) (c sl e : Nat) (x : Entry) : Met := { pc := x.pc, team := s.gteam (team s c sl e), version := x.version }
/-- The same code with a write parked on its page. -/
def codedHeld : State :=
  { coded 0x100 with reqs := [{ id := 7, kind := .store [(0, 1)], src := .gone, port := 0, owners := [], ctx := 1, lid := 1, tgt := .part (partOf 0x10100), va := 0x10100, pc := 0,
                                version := 0, row := 0, gteam := 0, lanes := 1, st := .parked 0 }] }
theorem meets_Fetch :
    (∃ (s : State) (c sl e : Nat) (x : Entry), ∃ b s1, c < 256 ∧ s.entry? c sl e = some x ∧ x.ibuf = none ∧ x.st = .ready ∧
      s.fetchAt c (ctx s c sl e) (version s c sl e).team (fetcher s c sl e x) = (.got b, s1)) ∧
    (∃ (s : State) (c sl e : Nat) (x : Entry), ∃ s1, c < 256 ∧ s.entry? c sl e = some x ∧ x.ibuf = none ∧ x.st = .ready ∧
      s.fetchAt c (ctx s c sl e) (version s c sl e).team (fetcher s c sl e x) = (.wait, s1)) ∧
    (∃ (s : State) (c sl e : Nat) (x : Entry), c < 256 ∧ s.entry? c sl e = some x ∧ x.ibuf = none ∧ x.st = .ready ∧ (version s c sl e).team.2 = x.pc.toNat) ∧
    (∃ (s : State) (c sl e : Nat) (x : Entry), ∃ w y s1, c < 256 ∧ s.entry? c sl e = some x ∧ x.ibuf = none ∧ x.st = .ready ∧
      x.pc.toNat < (version s c sl e).team.2 ∧ wordCount w = 1 ∧ s.fetchWord c (ctx s c sl e) ((version s c sl e).team.1 + x.pc.toNat) (fetcher s c sl e x) none = (.word w y, s1)) ∧
    (∃ (s : State) (cl : Nat), ∃ code b s1, (s.ctl cl).ibuf = none ∧ (s.ctl cl).st = .ready ∧
      ((s.kernel (s.launchOf (s.ctl cl).lid).kid).version (s.ctl cl).version).control = some code ∧
      s.fetchAt (256 + cl) (ctlCtx s cl) code { pc := (s.ctl cl).pc, team := (s.ctl cl).eseq.toNat, version := (s.ctl cl).version } = (.got b, s1)) :=
  ⟨⟨coded 0x100, 0, 0, 0, _, _, _, by decide, rfl, rfl, rfl, rfl⟩, ⟨codedHeld, 0, 0, 0, _, _, by decide, rfl, rfl, rfl, rfl⟩, ⟨coded 0x10000, 0, 0, 0, _, by decide, rfl, rfl, rfl, by decide +kernel⟩,
   ⟨coded 0x1FC, 0, 0, 0, _, _, _, _, by decide, rfl, rfl, rfl, by decide +kernel, by decide +kernel, rfl⟩,
   ⟨coded 0x100, 0, _, _, _, rfl, rfl, rfl, rfl⟩⟩

theorem some_of {α β : Type} {p : Option α × β} (h : p.1.isSome = true) : ∃ a b, p = (some a, b) := by
  obtain ⟨x, y⟩ := p
  cases x
  · simp at h
  · exact ⟨_, _, rfl⟩
/-- A sub-team with a stack area and a given convergence stack. -/
def stackFrom (st : List StkEntry) : State :=
  { bench { team0 with stkbase := 0x1000, stklim := 0x4000 } { entry0 with stack := st, st := .asleep .fill } with cur := .none }
def joinAt (place : Option Nat) (spill : Bool) : StkEntry := { kind := 0, k := 9, split := 3, pc := 0x40, words := [0xF], place := place, spill := spill }
theorem meets_StackSpillAndFill :
    (∃ (s : State) (c sl e j o : Nat) (x : Entry) (y : StkEntry), s.entry? c sl e = some x ∧ 8 ≤ j ∧ x.stack[j]? = some y ∧ y.place = some o ∧ y.spill = false ∧
      (∀ n z, 8 ≤ n → n < j → x.stack[n]? = some z → z.place = none ∨ z.spill = true) ∧ ∀ r, y.recAt = some r → o + 16 ≤ r ∨ r + 4 * y.words.length ≤ o) ∧
    (∃ (s s1 : State) (c sl e j : Nat) (x : Entry) (y : StkEntry) (bs : List Byte), s.entry? c sl e = some x ∧ j < 8 ∧ x.stack[j]? = some y ∧ y.spill = true ∧
      (∀ n z, n < j → x.stack[n]? = some z → z.spill = false) ∧ y.recAt = none ∧
      s.readView c (ctx s c sl e) ((team s c sl e).stkbase.toNat + y.place.getD 0) 16 = (some bs, s1)) := by
  refine ⟨⟨stackFrom (List.replicate 8 (joinAt none false) ++ [joinAt (some 64) false]), 0, 0, 0, 8, 64, _, _, rfl, by decide, rfl, rfl, rfl, ?_, by decide⟩,
    ?_⟩
  · intro n z h1 h2
    omega
  · obtain ⟨bs, s1, h⟩ := some_of (p := (mapped (stackFrom [joinAt none false, joinAt (some 64) true]) 0x1000 leaf5).readView 0 1 0x1040 16) (by decide +kernel)
    refine ⟨mapped (stackFrom [joinAt none false, joinAt (some 64) true]) 0x1000 leaf5, s1, 0, 0, 0, 1, _, _, bs, rfl, by decide, rfl, rfl, ?_, rfl, h⟩
    intro n z h1 h2
    obtain rfl : n = 0 := by omega
    injection h2 with h2
    rw [← h2]
    rfl
/-- A load of the bench's team under way to v2 of lanes 0 to 3. -/
def loading (id : Nat) : Req :=
  { id := id, kind := .load { reg := 2, ty := .b32, n := 1, lanes := [(0, 0x10000), (1, 0x10004), (2, 0x10008), (3, 0x1001C)] } false, src := .team 0 0 0, port := 0, owners := [0],
    ctx := 1, lid := 1, tgt := .part (partOf 0x10000), va := 0x10000, pc := 0x80, version := 0, row := 0, gteam := 0, lanes := 0xF }
def episode (x : Entry) (rs : List Req) : State :=
  let s := bench { team0 with v := vs [(0, 2, 7)] } x
  { s with cur := .none, reqs := rs, launches := s.launches.map fun y => (y.1, { y.2 with grid := { y.2.grid with runahead := true } }) }
def ahead : RunAhead := { pc := 0x80, v := [(2, 5), (259, 6)], p := [(3, 0)], saved := [(.v, 2, 0)], bad := [], count := 3, block := [4] }
theorem meets_RunAhead :
    (∃ (s0 s : State) (c sl e : Nat) (x : Entry) (ws : List Word) (r : Req), s0.settle c sl = s ∧ s.entry? c sl e = some x ∧ x.ibuf = some (.words ws) ∧
      (launch s c sl e).grid.runahead = true ∧ x.st = .ready ∧ r ∈ s.pendingReqs c sl e (instrOf ws) ∧ s.longLoad r = true ∧ s.normals c sl = [] ∧
      s.xferWaits c sl = false ∧ x.pend = none ∧ (parcel s c sl e).st = .resident ∧ x.held = [] ∧ (s.slot c sl).free ≤ (s.core c).cycle ∧
      ∀ y ∈ (s.slot c sl).entries, y.2.ra = none) ∧
    (∃ (s : State) (c sl e : Nat) (x : Entry) (ra : RunAhead), s.entry? c sl e = some x ∧ x.st = .restore ∧ x.ra = some ra ∧ (∀ q ∈ s.reqs, q.id ∉ ra.block) ∧
      s.xferWaits c sl = false ∧ (s.slot c sl).free ≤ (s.core c).cycle ∧ ra.v.rising = true ∧ ra.p.rising = true) :=
  ⟨⟨episode { entry0 with ibuf := some (.words (encode (.iadd hd (alu .i32 1 2 3)))) } [loading 4], _, 0, 0, 0, _, _, loading 4, rfl, rfl, rfl, by decide +kernel, rfl, by decide +kernel,
    by decide +kernel, by decide +kernel, by decide +kernel, rfl, by decide +kernel, rfl, by decide +kernel, by decide +kernel⟩,
   ⟨episode { entry0 with st := .restore, ra := some ahead } [loading 9], 0, 0, 0, _, _, rfl, rfl, rfl, by decide +kernel, by decide +kernel, by decide +kernel, rfl, rfl⟩⟩

/-! ### The memory system -/

/-- The bench with one request under way, the leaf of its page at its partition and the block of the page in the Basin. -/
def serving (r : Req) : State :=
  let s := mapped (bench team0 { entry0 with st := .asleep (.writes [7]), npc := 0x10C }) r.va leaf5
  { s with
    cur := .none
    reqs := [r]
    basin := [(blockNo (partOf r.va) leaf5 (halfOf leaf5 r.va), { bytes := (List.range 512).map fun k => BitVec.ofNat 8 (k * k + 3), dirty := false, bad := false, fresh := List.replicate 512 false, elide := true, key := 0, filled := true })] }
def request (k : ReqKind) (src : Src) : Req :=
  { id := 7, kind := k, src := src, port := 0, owners := [0], ctx := 1, lid := 1, tgt := .part (partOf 0x10020), va := 0x10020, pc := 0x100, version := 0, row := 0, gteam := 0,
    lanes := 0xF }
/-- `Whole` as a check. -/
def wholeB (s : State) (l : Leaf) (va : Nat) : Bool :=
  let k := blockOf l va
  (match s.basin.look k with | some x => x.bytes.length == 512 && x.fresh.length == 512 | none => true) &&
  ((s.basin.look k).isSome || decide ((s.setMates k).length < 16)) &&
  (s.lineHit k || l.far || decide ((s.elisionOf (blkPart k) (blkFrame k)).code (blkHalf k) ≠ 0) ||
    decide (s.blockKey.get 0 k = ((s.basin.look k).map Line.key).getD (s.keyGenOf l)))
theorem whole_of {s : State} {l : Leaf} {va : Nat} (h : wholeB s l va = true) : Whole s l va := by
  simp only [wholeB, Bool.and_eq_true, Bool.or_eq_true, decide_eq_true_eq, or_assoc] at h
  obtain ⟨⟨h1, h2⟩, h3⟩ := h
  refine ⟨fun x hx => ?_, h2, h3⟩
  rw [hx] at h1
  simpa using h1
def roomB (s : State) (l : Leaf) (va : Nat) : Bool := (s.basin.look (blockOf l va)).isSome || decide ((s.setMates (blockOf l va)).length < 16)
theorem room_of {s : State} {l : Leaf} {va : Nat} (h : roomB s l va = true) : Room s l va := by
  simpa [roomB, Room] using h
def atLeafB (s : State) (r : Req) (l : Leaf) : Bool :=
  decide (s.req? r.id = some r) && decide (r.tgt = .part (partOf r.va)) && s.canServe r && !s.pageHeld r &&
  decide ((s.part (partOf r.va)).tlb.look (tlbKey r.ctx r.va) = some l) && decide (s.bellOf r.ctx r.va = none) && s.grants r.ctx r.va l r.kind.right && !s.linkDown l && !s.retraining l r.va
theorem atLeaf_of {s : State} {r : Req} {l : Leaf} (h : atLeafB s r l = true) : AtLeaf s r l := by
  simp only [atLeafB, Bool.and_eq_true, decide_eq_true_eq, Bool.not_eq_true'] at h
  obtain ⟨⟨⟨⟨⟨⟨⟨⟨h1, h2⟩, h3⟩, h4⟩, h5⟩, h6⟩, h7⟩, h8⟩, h9⟩ := h
  exact ⟨h1, h2, h3, h4, h5, h6, h7, h8, h9⟩
def noJoinB (s : State) (c sl tm : Nat) : Bool := (s.slot c sl).entries.all fun y => y.2.team != tm || y.2.st != .atJoin
theorem noJoin_of {s : State} {c sl tm : Nat} (h : noJoinB s c sl tm = true) : NoJoin s c sl tm := by
  intro y hy ht
  have := List.all_eq_true.1 h y hy
  simp only [Bool.or_eq_true, bne_iff_ne] at this
  exact this.resolve_left fun hn => hn ht
def landing : Dest := { reg := 252, ty := .b64, n := 2, lanes := [(0, 0x10020), (3, 0x10030)] }
def clanding : Dest := { cls := .s, reg := 31, ty := .n16, n := 1, lanes := [(0, 0x1003E)] }
def inbound : ReqKind := .copyIn 3 [(1, 0x10028, 8)]
def inblock : LaneBlk := { lane := 1, offs := (List.range 12).map (512 + ·), addr := 0x10028, c := 8, done := false, version := 0 }
def incopy : Copy := { id := 3, tag := 1, out := false, space := .g, size := 12, pc := 0x100, blks := [inblock] }
def receiving : State :=
  let s := serving (request inbound (.team 0 0 0))
  s.setTeam 0 0 0 { team0 with copies := [incopy] }
theorem near_of {l : Leaf} (h : (l.far && decide (l.target = 3)) = false) : near l := by
  simp only [near]
  intro hn
  simp [hn.1, hn.2] at h
/-- A leaf of a peer's memory, and windows of class FAR. -/
def peerLeaf : Leaf := 0x5003F + 3 * 2 ^ 45
def farWindows (s : State) : State :=
  { s with ctxs := s.ctxs.map fun x => (x.1, { x.2 with wins := [(0, { window with cls := 2 })], own := [(0, { window with cls := 2 })] }) }
def peering (r : Req) : State := mapped (farWindows (serving r)) r.va peerLeaf
/-- A request at the Pond or at a bank. -/
def placed (tgt : Tgt) (k : ReqKind) (src : Src) : Req := { request k src with tgt := tgt }
def atPlaceB (s : State) (r : Req) : Bool :=
  decide (s.req? r.id = some r) && s.canServe r && (match r.tgt with | .part _ => false | .pond _ => true | .bank _ => true)
theorem atPlace_of {s : State} {r : Req} (h : atPlaceB s r = true) : AtPlace s r := by
  simp only [atPlaceB, Bool.and_eq_true, decide_eq_true_eq] at h
  refine ⟨h.1.1, h.1.2, ?_⟩
  cases ht : r.tgt with
  | part n => simp [ht] at h
  | pond n => exact .inl ⟨n, rfl⟩
  | bank c => exact .inr ⟨c, rfl⟩
/-- A load of one word, which is never taken apart. -/
def oneWord : ReqKind := .load { reg := 252, ty := .n16, n := 1, lanes := [(0, 0x1003E)] } false
def arriving : ReqKind := .arrive 3 [(1, [1, 2, 3, 4, 5, 6, 7, 8])]
def receivingNow : State :=
  let s := serving (request arriving (.team 0 0 0))
  s.setTeam 0 0 0 { team0 with copies := [incopy] }
theorem meets_LoadDataArrives :
    (∃ s r l d acq c sl tm, AtLeaf s r l ∧ r.va % 32 = 0 ∧ near l ∧ Room s l r.va ∧ r.kind = .load d acq ∧ r.src = .team c sl tm ∧
      ((chosen s r).readG l r.va 32).2.1 = false ∧ NoJoin s c sl tm ∧ (d.lanes.map Prod.fst).Nodup ∧
      (∀ y ∈ d.lanes, r.va ≤ y.2 ∧ y.2 + d.n * d.ty.bytes ≤ r.va + 32) ∧ d.reg + (if d.ty.is64 then 2 else 1) * d.n ≤ 256) ∧
    (∃ s r l d acq c sl tm, AtLeaf s r l ∧ r.va % 32 = 0 ∧ near l ∧ Room s l r.va ∧ r.kind = .load d acq ∧ r.src = .team c sl tm ∧
      ((chosen s r).readG l r.va 32).2.1 = false ∧ NoJoin s c sl tm ∧ (d.lanes.map Prod.fst).Nodup ∧
      (∀ y ∈ d.lanes, r.va ≤ y.2 ∧ y.2 + d.n * d.ty.bytes ≤ r.va + 32) ∧ d.reg + (if d.ty.is64 then 2 else 1) * d.n ≤ 256 ∧ torn s r = []) ∧
    (∃ s r l d acq cl a, AtLeaf s r l ∧ r.va % 32 = 0 ∧ near l ∧ Room s l r.va ∧ r.kind = .load d acq ∧ r.src = .control cl ∧
      ((chosen s r).readG l r.va 32).2.1 = false ∧ d.lanes = [(0, a)] ∧ d.n = 1 ∧ d.reg ≠ 0 ∧ r.va ≤ a ∧ a + d.ty.bytes ≤ r.va + 32 ∧ torn s r = []) ∧
    (∃ s r l id ln a n, AtLeaf s r l ∧ r.va % 32 = 0 ∧ near l ∧ Room s l r.va ∧ r.kind = .copyIn id [(ln, a, n)] ∧
      ((chosen s r).readG l r.va 32).2.1 = false ∧ r.va ≤ a ∧ a < r.va + 32 ∧ a + n ≤ r.va + 32) ∧
    (∃ s r l fill, AtLeaf s r l ∧ r.va % 32 = 0 ∧ near l ∧ Room s l r.va ∧ r.kind = .hint fill ∧ r.src = .gone) ∧
    (∃ (s : State) (r : Req) (id c sl tm ln : Nat) (bs : List Byte) (k : Copy) (y : LaneBlk), s.req? r.id = some r ∧ s.canServe r = true ∧
      r.kind = .arrive id [(ln, bs)] ∧ r.src = .team c sl tm ∧ NoJoin s c sl tm ∧ (s.team c sl tm).copies.find? (fun k => k.id == id) = some k ∧
      k.blks.find? (fun y => y.lane == ln) = some y ∧ y.offs.Nodup ∧ bs.length ≤ y.offs.length) ∧
    (∃ s r l d acq c sl tm, AtLeaf s r l ∧ ¬ near l ∧ r.kind = .load d acq ∧ r.src = .team c sl tm ∧ torn s r = [] ∧ NoJoin s c sl tm) ∧
    (∃ s r d acq c sl tm n, AtPlace s r ∧ r.tgt = .pond n ∧ r.kind = .load d acq ∧ r.src = .team c sl tm ∧ NoJoin s c sl tm ∧ (d.lanes.map Prod.fst).Nodup ∧
      d.reg + (if d.ty.is64 then 2 else 1) * d.n ≤ 256 ∧ torn s r = []) ∧
    (∃ s r d acq c sl tm k, AtPlace s r ∧ r.tgt = .bank k ∧ r.kind = .load d acq ∧ r.src = .team c sl tm ∧ NoJoin s c sl tm ∧ (d.lanes.map Prod.fst).Nodup ∧
      d.reg + (if d.ty.is64 then 2 else 1) * d.n ≤ 256) ∧
    (∃ s r d acq cl a, AtPlace s r ∧ r.kind = .load d acq ∧ r.src = .control cl ∧ d.lanes = [(0, a)] ∧ d.n = 1 ∧ d.reg ≠ 0 ∧ torn s r = []) ∧
    (∃ s r id ln a n, AtPlace s r ∧ r.kind = .copyIn id [(ln, a, n)]) :=
  ⟨⟨serving (request (.load landing true) (.team 0 0 0)), request (.load landing true) (.team 0 0 0), leaf5, landing, true, 0, 0, 0, atLeaf_of (by decide +kernel), by decide,
    near_of (by decide), room_of (by decide +kernel), rfl, rfl, by decide +kernel, noJoin_of (by decide +kernel), by decide, by decide, by decide⟩,
   ⟨serving (request oneWord (.team 0 0 0)), request oneWord (.team 0 0 0), leaf5, _, false, 0, 0, 0, atLeaf_of (by decide +kernel), by decide,
    near_of (by decide), room_of (by decide +kernel), rfl, rfl, by decide +kernel, noJoin_of (by decide +kernel), by decide, by decide, by decide, by decide +kernel⟩,
   ⟨serving (request (.load clanding false) (.control 0)), request (.load clanding false) (.control 0), leaf5, clanding, false, 0, 0x1003E, atLeaf_of (by decide +kernel), by decide,
    near_of (by decide), room_of (by decide +kernel), rfl, rfl, by decide +kernel, rfl, rfl, by decide, by decide, by decide, by decide +kernel⟩,
   ⟨receiving, request inbound (.team 0 0 0), leaf5, 3, 1, 0x10028, 8, atLeaf_of (by decide +kernel), by decide, near_of (by decide), room_of (by decide +kernel), rfl,
    by decide +kernel, by decide, by decide, by decide⟩,
   ⟨serving (request (.hint true) .gone), request (.hint true) .gone, leaf5, true, atLeaf_of (by decide +kernel), by decide, near_of (by decide), room_of (by decide +kernel), rfl, rfl⟩,
   ⟨receivingNow, request arriving (.team 0 0 0), 3, 0, 0, 0, 1, _, incopy, inblock, rfl, by decide +kernel, rfl, rfl, noJoin_of (by decide +kernel), rfl, rfl,
    by decide +kernel, by decide⟩,
   ⟨peering (request oneWord (.team 0 0 0)), request oneWord (.team 0 0 0), peerLeaf, _, false, 0, 0, 0, atLeaf_of (by decide +kernel), not_not_intro (by decide), rfl, rfl,
    by decide +kernel, noJoin_of (by decide +kernel)⟩,
   ⟨serving (placed (.pond 3) oneWord (.team 0 0 0)), placed (.pond 3) oneWord (.team 0 0 0), _, false, 0, 0, 0, 3, atPlace_of (by decide +kernel), rfl, rfl, rfl, noJoin_of (by decide +kernel),
    by decide, by decide, by decide +kernel⟩,
   ⟨serving (placed (.bank 17) (.load landing false) (.team 0 0 0)), placed (.bank 17) (.load landing false) (.team 0 0 0), landing, false, 0, 0, 0, 17, atPlace_of (by decide +kernel), rfl, rfl, rfl,
    noJoin_of (by decide +kernel), by decide, by decide⟩,
   ⟨serving (placed (.pond 3) (.load clanding false) (.control 0)), placed (.pond 3) (.load clanding false) (.control 0), clanding, false, 0, 0x1003E, atPlace_of (by decide +kernel), rfl, rfl, rfl, rfl,
    by decide, by decide +kernel⟩,
   ⟨serving (placed (.pond 3) inbound (.team 0 0 0)), placed (.pond 3) inbound (.team 0 0 0), 3, 1, 0x10028, 8, atPlace_of (by decide +kernel), rfl⟩⟩
/-- The block of an address through a leaf, as its key and a line of given bytes. -/
def lineAt (l : Leaf) (va : Nat) (bs : List Byte) : Nat × Line :=
  (blockNo (partOf va) l (halfOf l va), { bytes := (bs ++ List.replicate 512 0).take 512, dirty := true, bad := false, fresh := List.replicate 512 true, elide := false, key := 0 })
def writing : ReqKind := .store [(31, 0xAB), (0, 0xCD)]
/-- A mapped queue with its doorbell. -/
def rung : State :=
  let s := serving { request (.doorbell 21) (.team 0 0 0) with va := 0x8008 }
  { s with
    ctxs := s.ctxs.map fun x => (x.1, { x.2 with desc := { x.2.desc with dbell := 0x8000 } })
    queues := [(1, { qid := 1, ctx := 1, base := 0x20000, n := 4, wptr := 3, rptr := 2 })] }
/-- An object of a core's scratchpad with REMAIN, EXPECT and PHASE. -/
def objectAt (r : Req) (remain expect phase : Nat) : State :=
  let s := serving r
  { s with cores := s.cores.map fun x => (x.1, { x.2 with scratch := writeBytes [] 64 (bytesOfNat 4 remain ++ bytesOfNat 4 expect ++ bytesOfNat 4 phase) }) }
def message (op : Nat) (v : Word) : Req := { request (.barb op v) (.team 0 0 0) with tgt := .bank 0, va := 64 }
def nearStore : Req := { request (.store [(0, 1), (7, 2)]) (.control 0) with tgt := .bank 0, va := 64 }
theorem unjoined_of {s : State} {r : Req} {c sl tm : Nat} (h : r.src = .team c sl tm) (hj : NoJoin s c sl tm) : Unjoined s r := by
  intro c' sl' tm' h'
  rw [h] at h'
  injection h' with h1 h2 h3
  subst h1 h2 h3
  exact hj
def outbound : ReqKind := .copyOut 3 [(1, 0x10028, 8)]
def outcopy : Copy := { incopy with out := true }
/-- An outbound copy of the bench's team under way to a place. -/
def sending (tgt : Tgt) : State :=
  let s := serving (placed tgt outbound (.team 0 0 0))
  s.setTeam 0 0 0 { team0 with copies := [outcopy] }
theorem meets_WritesArePerformed :
    (∃ (s : State) (r : Req) (l : Leaf) (bs : List (Nat × Byte)), AtLeaf s r l ∧ r.kind = .store bs ∧ near l ∧ Whole s l r.va ∧
      Unjoined s r ∧ (∀ p i, r.src ≠ .away p i) ∧ r.va % 32 = 0 ∧ (bs.map Prod.fst).Nodup ∧ ∀ b ∈ bs, b.1 < 32) ∧
    (∃ (s : State) (r : Req) (bs : List (Nat × Byte)) (c : Nat), s.req? r.id = some r ∧ s.canServe r = true ∧ r.tgt = .bank c ∧ r.kind = .store bs ∧
      (∀ p i, r.src ≠ .away p i) ∧ Unjoined s r ∧ (bs.map Prod.fst).Nodup) ∧
    (∃ (s : State) (r : Req) (v : Dword) (n q : Nat) (x : Queue), s.req? r.id = some r ∧ s.canServe r = true ∧ r.tgt = .part n ∧ r.kind = .doorbell v ∧
      (∀ p i, r.src ≠ .away p i) ∧ s.bellOf r.ctx r.va = some q ∧ s.queues.look q = some x) ∧
    (∀ op ∈ [0, 1], ∃ (s : State) (r : Req) (v : Word) (c : Nat), s.req? r.id = some r ∧ s.canServe r = true ∧ r.tgt = .bank c ∧ r.kind = .barb op v ∧
      (∀ p i, r.src ≠ .away p i) ∧ Unjoined s r) ∧
    (∃ (s : State) (r : Req) (bs : List (Nat × Byte)) (n : Nat), s.req? r.id = some r ∧ s.canServe r = true ∧ r.tgt = .pond n ∧ r.kind = .store bs ∧
      (∀ p i, r.src ≠ .away p i) ∧ Unjoined s r ∧ (bs.map Prod.fst).Nodup) ∧
    (∀ tgt ∈ [Tgt.part (partOf 0x10020), .pond 3, .bank 17], ∃ (s : State) (r : Req) (id c sl tm ln a n : Nat) (k : Copy) (y : LaneBlk), r.tgt = tgt ∧ r.kind = .copyOut id [(ln, a, n)] ∧
      r.src = .team c sl tm ∧ NoJoin s c sl tm ∧ (s.team c sl tm).copies.find? (fun k => k.id == id) = some k ∧ k.blks.find? (fun y => y.lane == ln) = some y ∧ y.addr ≤ a ∧ r.va ≤ a ∧
      (tgt = .part (partOf 0x10020) → AtLeaf s r leaf5 ∧ near leaf5 ∧ Whole s leaf5 r.va ∧ r.va % 32 = 0 ∧ a + n ≤ r.va + 32) ∧
      (tgt ≠ .part (partOf 0x10020) → AtPlace s r)) := by
  refine ⟨⟨serving (request writing (.team 0 0 0)), request writing (.team 0 0 0), leaf5, _, atLeaf_of (by decide +kernel), rfl, near_of (by decide), whole_of (by decide +kernel), ?_,
      fun _ _ h => (nomatch h), by decide, by decide, by decide⟩,
    ⟨serving nearStore, nearStore, _, 0, rfl, by decide +kernel, rfl, rfl, fun _ _ h => (nomatch h), fun _ _ _ h => (nomatch h), by decide⟩,
    ⟨rung, { request (.doorbell 21) (.team 0 0 0) with va := 0x8008 }, 21, _, 1, _, rfl, by decide +kernel, rfl, rfl, fun _ _ h => (nomatch h), by decide +kernel, rfl⟩,
    fun op h => ⟨objectAt (message op 5) 3 4 9, message op 5, 5, 0, rfl, ?_, rfl, rfl, fun _ _ h => (nomatch h), unjoined_of rfl (noJoin_of ?_)⟩,
    ⟨serving (placed (.pond 3) writing (.team 0 0 0)), placed (.pond 3) writing (.team 0 0 0), _, 3, rfl, by decide +kernel, rfl, rfl, fun _ _ h => (nomatch h),
      unjoined_of rfl (noJoin_of (by decide +kernel)), by decide⟩, ?_⟩
  · exact unjoined_of rfl (noJoin_of (by decide +kernel))
  · simp only [List.mem_cons, List.not_mem_nil, or_false] at h
    rcases h with rfl | rfl <;> decide +kernel
  · simp only [List.mem_cons, List.not_mem_nil, or_false] at h
    rcases h with rfl | rfl <;> decide +kernel
  · intro tgt h
    refine ⟨sending tgt, placed tgt outbound (.team 0 0 0), 3, 0, 0, 0, 1, 0x10028, 8, outcopy, inblock, rfl, rfl, rfl, noJoin_of ?_, ?_, rfl, by decide,
      (show 0x10020 ≤ 0x10028 by decide), ?_, ?_⟩
    all_goals
      simp only [List.mem_cons, List.not_mem_nil, or_false] at h
      rcases h with rfl | rfl | rfl
    all_goals first
      | decide +kernel
      | exact fun _ => ⟨atLeaf_of (by decide +kernel), near_of (by decide), whole_of (by decide +kernel), by decide, by decide⟩
      | exact fun _ => atPlace_of (by decide +kernel)
      | exact fun hn => absurd hn (by decide)
/-- An addition of some lanes' values, at its first or second beat. -/
abbrev Addition := Ty × List (Nat × Dword × Dword) × Option Nat × Nat
/-- The words that come after the first one. -/
def others : List (Nat × ALanes) := [(0x10038, [(4, 1, 0)])]
def adding (x : Addition) : Req := request (.atomic .add x.1 ((0x10020, x.2.1) :: others) x.2.2.1 x.2.2.2 [(0, 0x00C10002)]) (.team 0 0 0)
theorem meets_AtomicsArePerformed : (∀ x ∈ ([(.i64, [(2, 5, 0), (9, 0xFFFFFFFFFFFFFFFF, 0)], some 254, 0), (.bx2, [(3, 0x3F803F80, 0), (5, 0x3F80, 0)], none, 0),
      (.hx2, [(3, 0x3C003C00, 0)], none, 1)] : List Addition),
    ∃ (s : State) (r : Req) (l : Leaf) (op : AOp) (a0 : Nat) (vals : List (Nat × Dword)) (c sl tm : Nat),
      op = .add ∧ AtLeaf s r l ∧ r.kind = .atomic op x.1 ((a0, x.2.1) :: others) x.2.2.1 x.2.2.2 vals ∧ near l ∧ Whole s l a0 ∧ (s.readG l a0 x.1.bytes).2.1 = false ∧
      r.src = .team c sl tm ∧ NoJoin s c sl tm ∧ a0 % x.1.bytes = 0 ∧ (x.2.1.map Prod.fst).Nodup ∧ x.2.1 ≠ [] ∧
      (∀ d, x.2.2.1 = some d → d + (if x.1.is64 then 2 else 1) ≤ 256) ∧ x.1 ∈ op.types) ∧
    (∀ x ∈ ([(.pond 3, .i64, [(2, 5, 0), (9, 0xFFFFFFFFFFFFFFFF, 0)], some 254, 0), (.bank 17, .bx2, [(3, 0x3F803F80, 0), (5, 0x3F80, 0)], none, 0),
      (.pond 3, .hx2, [(3, 0x3C003C00, 0)], none, 0), (.pond 3, .hx2, [(3, 0x3C003C00, 0)], none, 1)] : List (Tgt × Addition)),
    ∃ (s : State) (r : Req) (op : AOp) (a0 : Nat) (vals : List (Nat × Dword)) (c sl tm : Nat),
      op = .add ∧ AtPlace s r ∧ r.tgt = x.1 ∧ r.kind = .atomic op x.2.1 ((a0, x.2.2.1) :: others) x.2.2.2.1 x.2.2.2.2 vals ∧ r.src = .team c sl tm ∧ NoJoin s c sl tm ∧
      (x.2.2.1.map Prod.fst).Nodup ∧ x.2.2.1 ≠ [] ∧ (∀ d, x.2.2.2.1 = some d → d + (if x.2.1.is64 then 2 else 1) ≤ 256) ∧ x.2.1 ∈ op.types) := by
  refine ⟨?_, ?_⟩
  swap
  · intro x h
    refine ⟨serving { adding x.2 with tgt := x.1 }, { adding x.2 with tgt := x.1 }, .add, 0x10020, _, 0, 0, 0, rfl, atPlace_of ?_, rfl, rfl, rfl, noJoin_of ?_, ?_, ?_, ?_, ?_⟩
    all_goals
      simp only [List.mem_cons, List.not_mem_nil, or_false] at h
      rcases h with rfl | rfl | rfl | rfl
    all_goals decide +kernel
  intro x h
  refine ⟨serving (adding x), adding x, leaf5, .add, 0x10020, _, 0, 0, 0, rfl, atLeaf_of ?_, rfl, near_of (by decide), whole_of ?_, ?_, rfl, noJoin_of ?_, ?_, ?_, ?_, ?_, ?_⟩
  all_goals
    simp only [List.mem_cons, List.not_mem_nil, or_false] at h
    rcases h with rfl | rfl | rfl
  all_goals decide +kernel
/-- A release of the bench waits at FENCE.ar, or holds a write. -/
def releasing (w : List Nat) (rs : List Req) : State :=
  let s := bench team0 { entry0 with st := .asleep (.release w true none), npc := 0x10C }
  { s with cur := .none, reqs := rs, cores := s.cores.map fun x => (x.1, { x.2 with l1 := [(0, [1])] }) }
def creleasing (w : List Nat) (rs : List Req) : State := { cwaiting { lid := 1, st := .asleep (.release w true false), npc := 0x10C } with reqs := rs }
def held (src : Src) : Req := { request writing src with st := .held }
def copyOf (id tag : Nat) (done counted : Bool) : Copy :=
  { id := id, tag := tag, out := false, space := .g, size := 16, pc := 0, blks := [{ lane := 0, offs := [], addr := 0, c := 0, done := done, version := 0 }], counted := counted }
theorem meets_ReleasesAndCopies :
    (∀ w ∈ [[], [7]], ∃ (s : State) (c sl e : Nat) (x : Entry) (acq : Bool), c < 256 ∧ s.entry? c sl e = some x ∧ x.st = .asleep (.release w acq none) ∧
      s.teamWrites (.team c sl x.team) = [] ∧ s.teamRefused (.team c sl x.team) = [] ∧ s.entryLoads (.team c sl x.team) e = []) ∧
    (∀ w ∈ [[], [7]], ∃ (s : State) (cl : Nat) (acq : Bool), (s.ctl cl).st = .asleep (.release w acq false) ∧ s.teamWrites (.control cl) = [] ∧ s.teamRefused (.control cl) = [] ∧
      s.entryLoads (.control cl) 0 = []) ∧
    (∃ (s : State) (c sl tm : Nat) (tag : BitVec 2) (y : Team) (k : Copy) (pre post : List Copy), (s.slot c sl).teams.look tm = some y ∧ y.copies = pre ++ k :: post ∧
      (∀ z ∈ pre, z.tag = tag.toNat → z.counted = true) ∧ k.tag = tag.toNat ∧ k.counted = false ∧ (∀ z ∈ k.blks, z.done = true) ∧
      (∀ x ∈ (s.slot c sl).entries, ∀ g n, x.2.st ≠ .asleep (.copies g n)) ∧ ∀ z ∈ post, z.tag = tag.toNat → z.counted = false ∧ ∃ b ∈ z.blks, b.done = false) ∧
    (∃ (s : State) (c sl e tm n : Nat) (tag : BitVec 2) (x : Entry) (y : Team) (k : Copy) (pre post : List Copy), (s.slot c sl).teams.look tm = some y ∧ y.copies = pre ++ k :: post ∧
      (∀ z ∈ pre, z.tag = tag.toNat → z.counted = true) ∧ k.tag = tag.toNat ∧ k.counted = false ∧ (∀ z ∈ k.blks, z.done = true) ∧
      (∀ z ∈ post, z.tag = tag.toNat → z.counted = false ∧ ∃ b ∈ z.blks, b.done = false) ∧ s.entry? c sl e = some x ∧ x.team = tm ∧ x.st = .asleep (.copies tag.toNat n) ∧
      (∀ z ∈ (s.slot c sl).entries, z.2.team = tm → z.1 ≠ e → ∀ g m, z.2.st ≠ .asleep (.copies g m)) ∧
      (y.copies.filter fun z => z.tag == tag.toNat && !z.counted).length = n + 1 ∧ (∀ z ∈ y.copies, z.failed = none) ∧ (y.copies.map Copy.id).Nodup) := by
  refine ⟨?_, ?_, ⟨bench { team0 with copies := [copyOf 1 3 true true, copyOf 2 2 false false] ++ copyOf 3 3 true false :: [copyOf 4 3 false false, copyOf 5 1 true false] } entry0, 0, 0, 0, 3, _, _, _, _,
    rfl, rfl, by decide, rfl, rfl, by decide, ?_, by decide⟩,
    bench { team0 with copies := [copyOf 1 3 true true, copyOf 2 2 false false] ++ copyOf 3 3 true false :: [copyOf 4 3 false false, copyOf 5 1 true false] }
      { entry0 with st := .asleep (.copies 3 1) }, 0, 0, 0, 0, 1, 3, _, _, _, _, _,
    rfl, rfl, by decide, rfl, rfl, by decide, by decide, rfl, rfl, rfl, ?_, by decide, by decide, by decide⟩
  · intro w h
    simp only [List.mem_cons, List.not_mem_nil, or_false] at h
    rcases h with rfl | rfl
    · exact ⟨releasing [] [], 0, 0, 0, _, true, by decide, rfl, rfl, rfl, rfl, rfl⟩
    · exact ⟨releasing [7] [held (.team 0 0 0)], 0, 0, 0, _, true, by decide, rfl, rfl, by decide +kernel, by decide +kernel, by decide +kernel⟩
  · intro w h
    simp only [List.mem_cons, List.not_mem_nil, or_false] at h
    rcases h with rfl | rfl
    · exact ⟨creleasing [] [], 0, true, rfl, rfl, rfl, rfl⟩
    · exact ⟨creleasing [7] [held (.control 0)], 0, true, rfl, by decide +kernel, by decide +kernel, by decide +kernel⟩
  · intro x hx g n
    obtain rfl : x = (0, entry0) := by simpa [bench, State.slot, State.core, Store.get, Store.look] using hx
    exact nofun
  · intro z hz _ hn
    obtain rfl : z = (0, { entry0 with st := .asleep (.copies 3 1) }) := by simpa [bench, State.slot, State.core, Store.get, Store.look] using hz
    exact absurd rfl hn

/-! ### Translations, parks and timeouts -/

/-- Page tables in frame 9: page 1 has a given entry, and the window its class. -/
def paged (e : Leaf) (cls : Nat) (s : State) : State :=
  let w : Window := { window with cls := cls }
  let bs (x : Nat × Nat) : List Byte := bytesOfNat 512 x.2
  { s with
    ctxs := [(1, { desc := { ctxid := 1, pool := 9, pooln := 1 }, wins := [(0, w)], own := [(0, w)] })]
    basin := [(0, 2 ^ 16 + 1), (4096, 2 * 2 ^ 16 + 1), (8192, 3 * 2 ^ 16 + 1), (12288, e.toNat * 2 ^ 64)].foldl (fun m x => let y := lineAt (poolLeaf 9) x.1 (bs x); m.put y.1 y.2)
      (s.basin.put (lineAt leaf5 0x10020 []).1 (lineAt leaf5 0x10020 []).2) }
def unmappedReq (k : ReqKind) : Req := request k (.team 0 0 0)
/-- The bench with requests under way and no translation. -/
def missing (rs : List Req) : State := { bench team0 entry0 with cur := .none, reqs := rs }
theorem walk_of {p : Walk × State} {w : Walk} {f : State → Bool} (h : p.1 = w) (h2 : f p.2 = true) : ∃ s, p = (w, s) ∧ f s = true := ⟨p.2, by rw [← h], h2⟩
theorem meets_Walks :
    (∃ (s s1 : State) (r : Req) (l : Leaf), s.req? r.id = some r ∧ r.tgt = .part (partOf r.va) ∧ s.canServe r = true ∧ (s.part (partOf r.va)).tlb.look (tlbKey r.ctx r.va) = none ∧
      s.pageHeld r = false ∧ r.kind.isHint = false ∧ (∀ id xs, r.kind ≠ .arrive id xs) ∧ s.bellOf r.ctx r.va = none ∧ s.walk r.ctx r.va = (.leaf l, s1) ∧
      s1.synonym l r.va = false) ∧
    (∃ (s s1 : State) (r : Req), s.req? r.id = some r ∧ r.tgt = .part (partOf r.va) ∧ s.canServe r = true ∧ (s.part (partOf r.va)).tlb.look (tlbKey r.ctx r.va) = none ∧
      s.pageHeld r = false ∧ r.kind.isHint = false ∧ (∀ id xs, r.kind ≠ .arrive id xs) ∧ s.bellOf r.ctx r.va = none ∧ s.walk r.ctx r.va = (.absent, s1)) := by
  obtain ⟨s1, h1, h3⟩ := walk_of (p := (paged leaf5 1 (missing [unmappedReq writing])).walk 1 0x10020) (w := .leaf leaf5) (f := fun s => !s.synonym leaf5 0x10020) (by decide +kernel)
    (by decide +kernel)
  obtain ⟨s2, h2, -⟩ := walk_of (p := (paged 0 1 (missing [unmappedReq writing])).walk 1 0x10020) (w := .absent) (f := fun _ => true) (by decide +kernel) rfl
  exact ⟨⟨_, s1, unmappedReq writing, leaf5, rfl, rfl, by decide +kernel, by decide +kernel, by decide +kernel, rfl, nofun, by decide +kernel, h1, Bool.eq_false_of_not_eq_true' h3⟩,
    _, s2, unmappedReq writing, rfl, rfl, by decide +kernel, by decide +kernel, by decide +kernel, rfl, nofun, by decide +kernel, h2⟩
/-- A page's absence report. -/
def reported (cls : Nat) (deny : Option (BitVec 8)) : Report :=
  { id := 4, ctx := 1, page := 1, cls := cls, win := 0, part := 3, pc := 0x80, team := 0, version := 0, write := true, lids := [(1, 0x80, 0, 0)], deny := deny }
def parkedReq : Req := { unmappedReq writing with st := .parked 5 }
def recordOf : FqRec := { kind := 2, win := 63, ctx := 1, va := 0x10000, pc := 0x80, team := 7, version := 3, part := 63, cause := 8, ocause := 0xFF, seq := 9 }
/-- The bench with a page's report, one parked write on it and a queue of its launch. -/
def faulting (e : Leaf) (cls : Nat) (deny : Option (BitVec 8)) : State :=
  { paged e cls (missing [parkedReq]) with
    reports := [reported cls deny], queues := [(0, { ctx := 1, n := 4 })] }
/-- The same, the page's report answered by a replay. -/
def replaying (e : Leaf) : State := { faulting e 1 none with reports := [{ reported 1 none with replay := true }] }
def posting : State :=
  let s := missing []
  { s with ctxs := s.ctxs.map fun x => (x.1, { x.2 with desc := { x.2.desc with fq := 0x1000 }, fqHeld := [recordOf, recordOf], fqW := 70, fqSeq := 11 }), hostMem := writeBytes [] 0x1008 (bytesOfNat 8 7) }
theorem meets_AbsentPages :
    (∃ (s s1 : State) (n : Nat) (y : Report), s.reports.find? (fun r => r.id == n) = some y ∧ y.cls ≠ 0 ∧ y.posted = false ∧ y.replay = false ∧ y.deny = none ∧
      s.walk y.ctx (y.page * 65536) = (.absent, s1) ∧ (y.cls = 2 ∨ (s1.ctxOf y.ctx).desc.policy = true)) ∧
    (∃ (s : State) (ctx : Nat) (r : FqRec) (rest : List FqRec), (let x := s.ctxOf ctx
      x.fqHeld = r :: rest ∧ x.fqW - natOfBytes (readBytes s.hostMem (x.desc.fq + 8) 8) < 2 ^ (x.desc.fqlog2 + 6) ∧ x.fqW + 1 < 2 ^ 64 ∧ r.kind < 256 ∧ r.win < 256 ∧
      r.ctx < 2 ^ 16 ∧ r.part < 64)) ∧
    (∃ (s s1 s2 : State) (ctx page c sl tm : Nat) (l0 l : Leaf) (r : Req) (bs : List (Nat × Byte)) (k : Nat), (∃ y ∈ s.reports, y.ctx = ctx ∧ y.page = page ∧ y.replay = true) ∧
      s.walk ctx (page * 65536) = (.leaf l0, s1) ∧ s1.parkedOn ctx page = [r] ∧ s1.translate ctx r.va r.met = (.ok l, s2) ∧ r.kind = .store bs ∧ r.src = .team c sl tm ∧ r.st = .parked k ∧ r.tgt = .part (partOf r.va) ∧
      r.va % 32 = 0 ∧ (bs.map Prod.fst).Nodup ∧ (∀ b ∈ bs, b.1 < 32) ∧ NoJoin s2 c sl tm ∧ near l ∧ Whole s2 l r.va ∧ s2.retraining l r.va = false ∧
      s2.grants ctx r.va l .w = true ∧ s2.linkDown l = false) ∧
    (∃ (s : State) (ctx page : Nat) (y : Report) (cause : BitVec 8), s.reports.find? (fun r => r.ctx == ctx && r.page == page) = some y ∧ y.deny = some cause ∧
      s.parkedOn ctx page ≠ []) ∧
    (∃ (s : State) (ctx page : Nat) (y : Report), s.reports.find? (fun r => r.ctx == ctx && r.page == page && r.cls == 0) = some y ∧ y.lids ≠ [] ∧
      (s.queues.look (s.launchOf 1).qid).isSome) := by
  refine ⟨?_, ⟨posting, 1, recordOf, [recordOf], rfl, by decide +kernel, by decide, by decide, by decide, by decide, by decide⟩, ?_,
    ⟨faulting 0 1 (some 3), 1, 1, _, 3, rfl, rfl, by decide +kernel⟩, faulting 0 0 none, 1, 1, _, rfl, by decide +kernel, by decide +kernel⟩
  · obtain ⟨s1, h, -⟩ := walk_of (p := (faulting 0 2 none).walk 1 65536) (w := .absent) (f := fun _ => true) (by decide +kernel) rfl
    exact ⟨faulting 0 2 none, s1, 4, reported 2 none, rfl, by decide, rfl, rfl, rfl, h, .inl rfl⟩
  · let a := (replaying leaf5).walk 1 65536
    obtain ⟨s1, h, h1⟩ := walk_of (p := a) (w := .leaf leaf5) (f := fun s => decide (s.parkedOn 1 1 = [parkedReq]) &&
      decide ((s.translate 1 0x10020 parkedReq.met).1 = .ok leaf5) &&
      (let s2 := (s.translate 1 0x10020 parkedReq.met).2
       noJoinB s2 0 0 0 && wholeB s2 leaf5 0x10020 && !s2.retraining leaf5 0x10020 && s2.grants 1 0x10020 leaf5 .w && !s2.linkDown leaf5))
      (by decide +kernel) (by decide +kernel)
    simp only [Bool.and_eq_true, decide_eq_true_eq, Bool.not_eq_true'] at h1
    obtain ⟨⟨h1, h2⟩, ⟨⟨⟨h3, h4⟩, h6⟩, h7⟩, h8⟩ := h1
    exact ⟨replaying leaf5, s1, (s1.translate 1 0x10020 parkedReq.met).2, 1, 1, 0, 0, 0, leaf5, leaf5, parkedReq, _, 5, ⟨_, List.mem_singleton_self _, rfl, rfl, rfl⟩, h, h1, Prod.ext h2 rfl, rfl, rfl, rfl, rfl,
      by decide, by decide, by decide, noJoin_of h3, near_of (by decide), whole_of h4, h6, h7, h8⟩
/-- A leaf of the far memory behind port 16. -/
def farLeaf : Leaf := 0x5003F
def farReq (k : ReqKind) : Req := request k (.team 0 0 0)
/-- The second of the last far timeout is this one or none. -/
def farState (k : ReqKind) (sec : Option Nat) : State :=
  let s := farWindows (mapped (missing [farReq k]) 0x10020 farLeaf)
  { s with ctxs := s.ctxs.map fun x => (x.1, { x.2 with farSec := sec }) }
theorem meets_FarTimeout : ∀ x ∈ [(ReqKind.load landing false, none), (writing, none), (writing, some 0)],
    ∃ (s : State) (r : Req) (l : Leaf) (n c sl tm : Nat), r.kind = x.1 ∧ s.req? r.id = some r ∧ r.tgt = .part n ∧ (s.part n).tlb.look (tlbKey r.ctx r.va) = some l ∧ Leaf.far l = true ∧
      s.canServe r = true ∧ s.grants r.ctx r.va l r.kind.right = true ∧ s.pageHeld r = false ∧ s.bellOf r.ctx r.va = none ∧ s.lineHit (blockNo n l (halfOf l r.va)) = false ∧
      r.src = .team c sl tm ∧ NoJoin s c sl tm ∧ (s.ctxOf r.ctx).farSec = x.2 ∧ s.second = 0 := by
  intro x h
  refine ⟨farState x.1 x.2, farReq x.1, farLeaf, partOf 0x10020, 0, 0, 0, rfl, ?_, rfl, ?_, by decide, ?_, ?_, ?_, ?_, ?_, rfl, noJoin_of ?_, ?_, ?_⟩
  all_goals
    simp only [List.mem_cons, List.not_mem_nil, or_false] at h
    rcases h with rfl | rfl | rfl
  all_goals decide +kernel

/-! ### Engines -/

def cmdOf (op : EngOp) (vals : Store (List Byte)) : Cmd :=
  { lid := 1, eseq := 9, pc := 0, op9 := 0x188, cores := [0], parcels := [(0, 1)], op := op, vals := vals }
/-- The bench's cluster with one command under way, the block of 0x10020 at hand. -/
def working (m : Cmd) : State :=
  let s := mapped (bench team0 entry0) 0x10020 leaf5
  let bs := (List.range 512).map fun k => BitVec.ofNat 8 (7 * k + 1)
  { s with
    cur := .none
    basin := [lineAt leaf5 0x10020 bs]
    ctls := [(0, { lid := 1, st := .ready, cycle := 10, cmds := [m] })]
    cores := s.cores.map fun x => (x.1, { x.2 with
      scratch := writeBytes [] 512 (bs.take 300)
      mx := { active := { el := [(0, 0x3F80), (65, 0x4000)] }, shadow := { el := [(3, 5)] }, acc := [(64, 7), (130, 0x40000000)] } }) }
def shape3 : ShapeReg := { base := 0x10020, e0m := 1, esz := 3, s0 := 16, pitch := 16 }
/-- One lane of the algebra of the real numbers. -/
def reals : Algebra := {}
/-- The hypotheses on a command and its next unit that the clauses share. -/
def unitB (s : State) (cl k u pid : Nat) (m : Cmd) (pre post : List Cmd) : Bool :=
  decide ((s.ctl cl).cmds = pre ++ m :: post) && pre.all (fun x => x.eseq != m.eseq && !x.cores.contains k) && !m.finished &&
  decide (m.parcels.find? (fun p => p.1 == k) = some (k, pid)) && decide (u = (m.done.filter fun d => d.1 == k).length) && !m.done.contains (k, u) &&
  s.reqs.all (fun r => r.src != .engine cl m.lid m.eseq) && decide ((s.parcel pid).core = 16 * cl + k) && (s.parcel pid).image.isNone
theorem unit_of {s : State} {cl k u pid : Nat} {m : Cmd} {pre post : List Cmd} (h : unitB s cl k u pid m pre post = true) :
    (s.ctl cl).cmds = pre ++ m :: post ∧ (∀ x ∈ pre, x.eseq ≠ m.eseq ∧ k ∉ x.cores) ∧ m.finished = false ∧ m.parcels.find? (fun p => p.1 == k) = some (k, pid) ∧
    u = (m.done.filter fun d => d.1 == k).length ∧ (k, u) ∉ m.done ∧ (∀ r ∈ s.reqs, r.src ≠ .engine cl m.lid m.eseq) ∧ (s.parcel pid).core = 16 * cl + k ∧
    (s.parcel pid).image = none := by
  simp only [unitB, Bool.and_eq_true, decide_eq_true_eq, Bool.not_eq_true', List.all_eq_true, bne_iff_ne, Option.isNone_iff_eq_none] at h
  obtain ⟨⟨⟨⟨⟨⟨⟨⟨h1, h2⟩, h3⟩, h4⟩, h5⟩, h6⟩, h7⟩, h8⟩, h9⟩ := h
  refine ⟨h1, fun x hx => ⟨(h2 x hx).1, ?_⟩, h3, h4, h5, ?_, h7, h8, h9⟩
  · simpa using (h2 x hx).2
  · simpa using h6
theorem meets_EngineUnits :
    (∀ op ∈ [EngOp.swap, .zero 1023 1, .strm reals true true 2 512 128 1, .lds true 512 256, .drn .f32 1 1 2048 256 none, .ld shape3 .b32 1024 none, .st shape3 .b32 512 none],
      ∃ (s : State) (cl k u pid : Nat) (m : Cmd) (pre post : List Cmd), m.op = op ∧ (s.ctl cl).cmds = pre ++ m :: post ∧ (∀ x ∈ pre, x.eseq ≠ m.eseq ∧ k ∉ x.cores) ∧
        m.finished = false ∧ m.parcels.find? (fun p => p.1 == k) = some (k, pid) ∧ u = (m.done.filter fun d => d.1 == k).length ∧ (k, u) ∉ m.done ∧
        (∀ r ∈ s.reqs, r.src ≠ .engine cl m.lid m.eseq) ∧ (s.parcel pid).core = 16 * cl + k ∧ (s.parcel pid).image = none ∧ u = 0 ∧ m.vals.look u = none ∧ m.denied = [] ∧
        (s.core (16 * cl + k)).mx.acc.rising = true ∧ (s.core (16 * cl + k)).mx.active.hasMeta = false) ∧
    (reals.k = 1 ∧ reals.tab.get 0 0 = 0b01000 ∧ 0 < shape3.count) ∧
    (∃ (s s1 : State) (bs : List Byte), s = working (cmdOf (.ld shape3 .b32 1024 none) []) ∧ bs.length = 2 ^ shape3.esz.toNat ∧
      s.engineRead (s.launchOf 1).ctx (shape3.global 0) (2 ^ shape3.esz.toNat) (cmdOf (.ld shape3 .b32 1024 none) []).met = (.ok bs, s1)) ∧
    (∃ (s s1 : State) (m : Cmd) (sh : ShapeReg) (o : Nat) (bs : List Byte) (l : Leaf), m.op = .st sh .b32 o none ∧ unitB s 0 0 0 1 m [] [] = true ∧ m.vals.look 0 = some bs ∧
      (let x := (s.launchOf m.lid).ctx
       let va := sh.global 0
       s.windowOk x va bs.length .plainW = true ∧ (s.launchOf (s.parcel 1).lid).grid.pair = false ∧ s.bellOf x va = none ∧ s.translate x va m.met = (.ok l, s1) ∧
       s1.grants x va l .w = true ∧ s1.linkDown l = false ∧ s1.pageWaits x va l = false ∧ s1.beatHolds va bs.length = false ∧ near l ∧ Whole s1 l va ∧ va % 32 + bs.length ≤ 32)) := by
  refine ⟨?_, ⟨rfl, rfl, by decide⟩, ⟨_, _, _, rfl, ?_, Prod.ext (x := State.engineRead _ _ _ _) (y := (.ok _, _)) ?_ rfl⟩,
    working (cmdOf (.st shape3 .b32 512 none) [(0, [1, 2, 3, 4, 5, 6, 7, 8])]), working (cmdOf (.st shape3 .b32 512 none) [(0, [1, 2, 3, 4, 5, 6, 7, 8])]),
    cmdOf (.st shape3 .b32 512 none) [(0, [1, 2, 3, 4, 5, 6, 7, 8])], shape3, 512, _, leaf5, rfl, by decide +kernel, rfl, by decide +kernel, rfl, by decide +kernel, rfl, by decide +kernel, by decide +kernel,
    by decide +kernel, by decide +kernel, near_of (by decide), whole_of (by decide +kernel), by decide +kernel⟩
  · intro op h
    refine ⟨working (cmdOf op []), 0, 0, 0, 1, cmdOf op [], [], [], rfl, ?_⟩
    have hu : unitB (working (cmdOf op [])) 0 0 0 1 (cmdOf op []) [] [] = true := by
      simp only [List.mem_cons, List.not_mem_nil, or_false] at h
      rcases h with rfl | rfl | rfl | rfl | rfl | rfl | rfl <;> decide +kernel
    obtain ⟨h1, h2, h3, h4, h5, h6, h7, h8, h9⟩ := unit_of hu
    exact ⟨h1, h2, h3, h4, h5, h6, h7, h8, h9, rfl, rfl, rfl, rfl, rfl⟩
  · exact (List.length_map ..).trans (by rfl)
  · rfl
theorem meets_EngineFinish :
    (∃ (s : State) (cl : Nat) (m : Cmd) (pre post : List Cmd), (s.ctl cl).cmds = pre ++ m :: post ∧ (∀ x ∈ pre, x.eseq ≠ m.eseq) ∧ (∀ x ∈ post, x.eseq ≠ m.eseq) ∧ m.finished = false ∧
      m.failed = none ∧ (∀ k ∈ m.cores, m.units ≤ (m.done.filter fun d => d.1 == k).length) ∧ (∀ mask leave, (s.ctl cl).st ≠ .asleep (.fence mask leave)) ∧ pre ≠ [] ∧ post ≠ []) ∧
    (∃ (s : State) (cl : Nat) (m : Cmd), (s.ctl cl).cmds = [m] ∧ m.finished = false ∧ m.failed = none ∧ (∀ k ∈ m.cores, m.units ≤ (m.done.filter fun d => d.1 == k).length) ∧
      (s.ctl cl).st = .asleep (.fence none false)) :=
  ⟨⟨cwaiting { lid := 1, cmds := [unfinished 3] ++ { unfinished 4 with done := [(0, 0)] } :: [unfinished 5] }, 0, _, _, _, rfl, by decide, by decide, rfl, rfl, by decide, fun _ _ h => (nomatch h),
    by decide, by decide⟩,
   ⟨cwaiting { lid := 1, st := .asleep (.fence none false), npc := 0x44, cmds := [{ unfinished 4 with done := [(0, 0)] }] }, 0, _, rfl, rfl, rfl, by decide, rfl⟩⟩

end Sys2Proof.Tests
end

