-- ==== Sys2Proof/Tests/MeetsDevice.lean ====
section
/-! SUPPORT. Witnesses for the statements about the front end, the distributor, pre-emption, the ports, the module and the mailboxes. -/

namespace Sys2Proof.Tests

open Sys2Proof Sys2Proof.Machine Sys2Proof.Said

-- One test at a time: each asks the kernel, which keeps a thread waiting.
set_option Elab.async false

/-! ### Queues and packets -/

theorem pair_of {α β : Type} {p : α × β} {a : α} (h : p.1 = a) : ∃ b, p = (a, b) := ⟨p.2, by rw [← h]⟩
/-- The bench with queue 5, its packet `rptr` and the word at 0x10100 in memory. -/
def served (rptr w word : Nat) (live : List Pkt) : State :=
  let s := mapped (bench team0 entry0) 0x10000 leaf5
  { s with
    cur := .none
    basin := [lineAt leaf5 0x10000 (bytesOfNat 512 (w * 2 ^ (512 * rptr) + word * 2 ^ 2048))]
    launches := s.launches.map fun y => (y.1, { y.2 with qid := 5, lid := 1 })
    hwslots := [(3, 5)]
    queues := [(5, { qid := 5, ctx := 1, base := 0x10000, n := 4, wptr := rptr + 1, rptr := rptr, st := .resident 3, live := live })] }
/-- The same with the queue's descriptor at an address. -/
def described (desc : Dword) : State :=
  let s := served 0 0 9 []
  { s with queues := s.queues.map fun q => (q.1, { q.2 with desc := desc }) }
/-- Queues for the slots: 5 as given, 6 unmapped. -/
def slotted (st : QState) (wake : List Nat) (full : Bool) : State :=
  { bench team0 entry0 with
    cur := .none
    wake := wake
    hwslots := if full then (List.range 64).map fun i => (i, 5) else [(3, 5)]
    queues := [(5, { qid := 5, ctx := 1, base := 0x10000, n := 4, wptr := 2, rptr := 2, st := st, cls := 1, pendwake := true }),
      (6, { qid := 6, ctx := 1, base := 0x10000, n := 4, wptr := 3, rptr := 2, cls := 1 })] }
theorem meets_DoorbellsAndSlots :
    (∃ (s : State) (offset bytes : Nat) (x : Queue), bytes = 8 ∧ offset % 8 = 0 ∧ offset < 32768 ∧ s.queues.look (offset / 8) = some x) ∧
    (∃ (offset bytes : Nat), bytes ≠ 8 ∨ offset % 8 ≠ 0 ∨ 32768 ≤ offset) ∧ (∃ (s : State) (q i : Nat), s.wakeNext = some q ∧ s.freeSlot = some i) ∧
    (∃ (s : State) (slot q : Nat), s.hwslots.look slot = some q ∧ (s.queue q).st = .unmapping) ∧
    (∃ (s : State) (slot q i w : Nat), s.hwslots.look slot = some q ∧ (s.queue q).st = .resident i ∧ s.wakeNext = some w ∧ s.freeSlot = none ∧ s.victim w = some q ∧
      ∀ y ∈ s.queues, y.2.st ≠ .unmapping) :=
  ⟨⟨slotted .unmapped [] false, 40, 8, _, rfl, by decide, by decide, rfl⟩, ⟨32768, 8, by decide⟩, ⟨slotted .unmapped [6] false, 6, 0, rfl, by decide +kernel⟩,
   ⟨slotted .unmapping [6] false, 3, 5, rfl, rfl⟩, ⟨slotted (.resident 3) [6] true, 3, 5, 3, 6, rfl, rfl, rfl, by decide +kernel, by decide +kernel, by decide +kernel⟩⟩
/-- A packet of a type at 0x10100 with a value, an operation, a target and a version. -/
def packet (ty value op tgt ver : Nat) : Nat := ty + 2 ^ 64 * 0x10100 + 2 ^ 128 * value + 2 ^ 192 * op + 2 ^ 256 * (tgt + 2 ^ 64 * ver)
theorem meets_Packets :
    (∀ w ∈ [0, 7, packet 2 3 1 0 0, packet 3 9 0 0 0, packet 4 10 2 0 0], ∃ (s s1 : State) (q : Nat), s.nextPacket q = (some w, s1) ∧ (s1.queue q).err = 0 ∧ (s1.queues.look q).isSome ∧
      (pktBad w = true ↔ w = 7)) ∧
    (∃ (s s2 : State) (w : Nat) (g : List Byte), w % 256 = 2 ∧ s.signalWord 1 (pktAddr w) (pktOp w == 1) (pktValue w) = (.ok g, s2)) ∧
    (∃ (s s2 : State) (q w : Nat) (g : List Byte) (l : Leaf), w % 256 = 2 ∧ s.signalWord 1 (pktAddr w) (pktOp w == 1) (pktValue w) = (.ok g, s2) ∧
      (let m := s2.movedOn q []
       let y := s2.queue q
       let at_ := y.desc.toNat + 24
       (m.translate y.ctx at_).1 = .ok l ∧ (m.translate y.ctx at_).2.linkDown l = false ∧ near l ∧ Whole (m.translate y.ctx at_).2 l at_ ∧ at_ % 8 = 0 ∧
         ∀ r ∈ (m.translate y.ctx at_).2.reqs, r.betweenBeats at_ 8 = false)) ∧
    (∃ (s s2 : State) (q w : Nat) (g : List Byte), w % 256 = 2 ∧ s.signalWord 1 (pktAddr w) (pktOp w == 1) (pktValue w) = (.ok g, s2) ∧
      ∀ l, ((s2.movedOn q []).translate (s2.queue q).ctx ((s2.queue q).desc.toNat + 24)).1 ≠ .ok l) ∧
    (∃ (s s2 : State) (w : Nat) (bs : List Byte), w % 256 = 3 ∧ s.engineRead 1 (pktAddr w) 8 = (.ok bs, s2) ∧ natOfBytes bs = (pktValue w).toNat) ∧
    (∃ (s s1 : State) (q : Nat) (p : Pkt) (bs : List Byte), (s.queue q).live = [p] ∧ (p.ty = 3 ∨ p.ty = 4) ∧ s.engineRead (s.queue q).ctx p.addr.toNat 8 = (.ok bs, s1)) ∧
    (∃ (s s1 : State) (ctx va : Nat) (l : Leaf), s.windowOk ctx va 8 .w = true ∧ s.bellOf ctx va = none ∧ s.translate ctx va = (.ok l, s1) ∧ s1.grants ctx va l .w = true ∧
      s1.linkDown l = false ∧ s1.pageWaits ctx va l = false ∧ s1.beatHolds va 8 = false ∧ near l ∧ Whole s1 l va ∧ va % 8 = 0) ∧
    (∃ (s s1 : State) (ctx va : Nat) (l : Leaf), s.windowOk ctx va 8 .rwa = true ∧ s1.windowOk ctx va 8 .rwa = true ∧ s1.bellOf ctx va = none ∧
      s.translate ctx va = (.ok l, s1) ∧ s1.grants ctx va l .rwa = true ∧ s1.linkDown l = false ∧ s1.pageWaits ctx va l = false ∧ s1.beatHolds va 8 = false ∧
      near l ∧ Whole s1 l va ∧ (s1.readG l va 8).2.1 = false ∧ va % 8 = 0) := by
  refine ⟨?_, ?_, ?_, ?_, ?_, ?_, ⟨served 0 0 9 [], served 0 0 9 [], 1, 0x101F8, leaf5, by decide +kernel, by decide +kernel, rfl, by decide +kernel, by decide +kernel, by decide +kernel,
    by decide +kernel, near_of (by decide), whole_of (by decide +kernel), by decide⟩,
    ⟨served 0 0 9 [], served 0 0 9 [], 1, 0x101F8, leaf5, by decide +kernel, by decide +kernel, by decide +kernel, rfl, by decide +kernel, by decide +kernel, by decide +kernel,
    by decide +kernel, near_of (by decide), whole_of (by decide +kernel), by decide +kernel, by decide⟩⟩
  · intro w h
    obtain ⟨s1, h1⟩ := pair_of (p := (served 1 w 9 []).nextPacket 5) (a := some w) (by
      simp only [List.mem_cons, List.not_mem_nil, or_false] at h
      rcases h with rfl | rfl | rfl | rfl | rfl <;> decide +kernel)
    refine ⟨_, s1, 5, h1, ?_⟩
    have h2 : s1 = ((served 1 w 9 []).nextPacket 5).2 := by rw [h1]
    have h3 : (((served 1 w 9 []).nextPacket 5).2.queue 5).err = 0 ∧ (((served 1 w 9 []).nextPacket 5).2.queues.look 5).isSome = true ∧ (pktBad w = true ↔ w = 7) := by
      simp only [List.mem_cons, List.not_mem_nil, or_false] at h
      rcases h with rfl | rfl | rfl | rfl | rfl <;> decide +kernel
    rw [h2]
    exact h3
  · obtain ⟨s1, h1⟩ := pair_of (p := (served 0 0 9 []).signalWord 1 0x10100 true 3) (a := .ok []) (by decide +kernel)
    exact ⟨_, s1, packet 2 3 1 0 0, [], by decide +kernel, h1⟩
  · obtain ⟨s1, h1⟩ := pair_of (p := (described 0x10180).signalWord 1 0x10100 true 3) (a := .ok []) (by decide +kernel)
    refine ⟨described 0x10180, s1, 5, packet 2 3 1 0 0, [], leaf5, by decide +kernel, h1, ?_⟩
    have e : s1 = ((described 0x10180).signalWord 1 0x10100 true 3).2 := by rw [h1]
    subst e
    exact ⟨by decide +kernel, by decide +kernel, near_of (by decide), whole_of (by decide +kernel), by decide +kernel, by decide +kernel⟩
  · obtain ⟨s1, h1⟩ := pair_of (p := (described 0x20000).signalWord 1 0x10100 true 3) (a := .ok []) (by decide +kernel)
    refine ⟨described 0x20000, s1, 5, packet 2 3 1 0 0, [], by decide +kernel, h1, ?_⟩
    have e : s1 = ((described 0x20000).signalWord 1 0x10100 true 3).2 := by rw [h1]
    subst e
    intro l
    rw [show (((((described 0x20000).signalWord 1 0x10100 true 3).2).movedOn 5 []).translate ((((described 0x20000).signalWord 1 0x10100 true 3).2).queue 5).ctx
      (((((described 0x20000).signalWord 1 0x10100 true 3).2).queue 5).desc.toNat + 24)).1 = .malformed by decide +kernel]
    exact nofun
  · obtain ⟨s1, h1⟩ := pair_of (p := (served 0 0 9 []).engineRead 1 0x10100 8) (a := .ok [9, 0, 0, 0, 0, 0, 0, 0]) (by decide +kernel)
    exact ⟨_, s1, packet 3 9 0 0 0, _, by decide +kernel, h1, by decide +kernel⟩
  · obtain ⟨s1, h1⟩ := pair_of (p := (served 1 0 9 [{ index := 0, ty := 4, addr := 0x10100, value := 9, op := 1 }]).engineRead 1 0x10100 8) (a := .ok [9, 0, 0, 0, 0, 0, 0, 0])
      (by decide +kernel)
    exact ⟨served 1 0 9 [{ index := 0, ty := 4, addr := 0x10100, value := 9, op := 1 }], s1, 5, { index := 0, ty := 4, addr := 0x10100, value := 9, op := 1 }, _, rfl, .inr rfl, h1⟩
/-- The record of `quat` (R99) as a number. -/
def quatRecord : Nat := 0x08454B000004C26A0000092E09000005A928 * 2 ^ 192 + 0x0E04 * 2 ^ 64 + 0x74617571
def transferPkt : Pkt := { index := 0, ty := 5, lid := 1, addr := 0x10100, value := 4, op := 1, count := 3 }
def algebraPkt (cs : List Nat) : Pkt := { index := 0, ty := 6, lid := 1, slot := 3, clusters := cs }
theorem meets_TransferAndAlgebraPackets :
    (∃ (s s1 : State) (q w : Nat) (l : Launch) (b : BitVec 3), s.nextPacket q = (some w, s1) ∧ pktBad w = false ∧ w % 256 = 5 ∧ b = BitVec.ofNat 3 (pktVer w) ∧
      pktTgt w < (s1.queue q).rptr ∧ s1.launchAt q (pktTgt w) = some l ∧ ((s1.kernel l.kid).version b).present = true ∧ l.st ≠ .complete ∧ l.st ≠ .refused) ∧
    (∃ (s s1 s2 : State) (q w : Nat) (bs : List Byte) (a : Algebra), s.nextPacket q = (some w, s1) ∧ pktBad w = false ∧ w % 256 = 6 ∧
      s1.readSpan (s1.queue q).ctx (pieces (pktAddr w) 64) = (.ok bs, s2) ∧ Algebra.ofRecord (natOfBytes bs) = some a) ∧
    (∃ (s s1 : State) (q n : Nat) (p : Pkt) (g : List Byte), (s.queue q).live.find? (fun p => p.ty == 5 && p.index == n) = some p ∧ s.stillPending q n = false ∧
      s.transferSignal (s.queue q).ctx p.addr.toNat (p.op == 1) p.value p.count = (.ok g, s1)) ∧
    (∀ cs ∈ [[], List.range 15], ∃ (s : State) (q cl : Nat) (p : Pkt), (s.queue q).live.find? (fun p => p.ty == 6) = some p ∧ p.clusters = cs ∧ cl < 16 ∧ cl ∉ p.clusters ∧
      s.ctxOnCluster (s.queue q).ctx cl = false ∧ ∀ l ∈ s.launches, l.2.ctx = (s.queue q).ctx → p.lid ≤ l.2.lid ∨ l.2.st = .complete ∨ l.2.st = .refused) := by
  refine ⟨?_, ?_, ?_, ?_⟩
  · obtain ⟨s1, h1⟩ := pair_of (p := (served 1 (packet 5 4 1 0 0) 0 []).nextPacket 5) (a := some (packet 5 4 1 0 0)) (by decide +kernel)
    have h2 : s1 = ((served 1 (packet 5 4 1 0 0) 0 []).nextPacket 5).2 := by rw [h1]
    refine ⟨_, s1, 5, packet 5 4 1 0 0, ((served 1 0 0 []).launchOf 1), 0, h1, by decide +kernel, by decide +kernel, by decide +kernel, ?_, ?_, ?_, by decide +kernel, by decide +kernel⟩
    all_goals
      rw [h2]
      decide +kernel
  · obtain ⟨s1, h1⟩ := pair_of (p := (served 1 (packet 6 0 0 3 0) quatRecord []).nextPacket 5) (a := some (packet 6 0 0 3 0)) (by decide +kernel)
    have h2 : s1 = ((served 1 (packet 6 0 0 3 0) quatRecord []).nextPacket 5).2 := by rw [h1]
    obtain ⟨s2, h3⟩ := pair_of (p := ((served 1 (packet 6 0 0 3 0) quatRecord []).nextPacket 5).2.readSpan 1 (pieces 0x10100 64)) (a := .ok (bytesOfNat 64 quatRecord)) (by decide +kernel)
    obtain ⟨a, h4⟩ := Option.isSome_iff_exists.1 (show (Algebra.ofRecord (natOfBytes (bytesOfNat 64 quatRecord))).isSome = true by decide +kernel)
    refine ⟨_, s1, s2, 5, packet 6 0 0 3 0, bytesOfNat 64 quatRecord, a, h1, by decide +kernel, by decide +kernel, ?_, h4⟩
    have hq : (s1.queue 5).ctx = 1 ∧ pktAddr (packet 6 0 0 3 0) = 0x10100 := by
      rw [h2]
      decide +kernel
    rw [hq.1, hq.2, h2]
    exact h3
  · obtain ⟨s1, h1⟩ := pair_of (p := (served 1 0 9 [transferPkt]).transferSignal 1 0x10100 true 4 3) (a := .ok []) (by decide +kernel)
    exact ⟨served 1 0 9 [transferPkt], s1, 5, 0, transferPkt, [], rfl, by decide +kernel, h1⟩
  · intro cs h
    refine ⟨served 1 0 9 [algebraPkt cs], 5, 15, algebraPkt cs, rfl, rfl, by decide, ?_, ?_, ?_⟩
    all_goals
      simp only [List.mem_cons, List.not_mem_nil, or_false] at h
      rcases h with rfl | rfl
    all_goals decide +kernel
/-- A LAUNCH packet of kernel 1 with grid 2 × 1 × z. -/
def launchPkt (z : Nat) : Nat := 1 + 2 ^ 32 + 2 ^ 64 * 2 + 2 ^ 96 + 2 ^ 128 * z + 2 ^ 192 * 0x77
/-- A launch of 2 × 3 parcels with one placed, a free device before it. -/
def admitting (g : Grid) (l : Launch) : State :=
  let s := served 1 0 9 [{ index := 0, ty := 1, lid := 1 }]
  { s with
    cores := [], ctls := [], parcels := []
    kernels := s.kernels.map fun k => (k.1, { k.2 with vers := k.2.vers.map fun v => { v with control := none } })
    launches := [(1, { l with lid := 1, ctx := 1, qid := 5, kid := 1, grid := g, st := .admitting })] }
def grid6 : Grid := { x := 2, y := 3 }
/-- A launch whose one parcel has exited. -/
def exited (l : Launch) : State := { admitting { x := 1 } { l with next := 1 } with parcels := [(1, { pid := 1, lid := 1, st := .ended })] }
/-- A launch of a pair with both signatures in. -/
def paired (v w : Dword) : State := admitting { x := 1, pair := true } { sigs := [(0, false, v), (3, true, 1), (0, true, w)] }
theorem meets_Launches :
    (∀ z ∈ [0, 1], ∃ (s s1 : State) (q w : Nat), s.nextPacket q = (some w, s1) ∧ pktBad w = false ∧ w % 256 = 1 ∧ (s1.queue q).err = 0 ∧ (s1.queues.look q).isSome ∧
      s1.launchBad (s1.queue q) (pktLaunch (s1.queue q) w s1.ids (pktGrid w (s1.kernel (bitsOf w 63 32)))) = decide (z = 0)) ∧
    (∃ (s t : State) (lid : Nat) (l : Launch), s.launches.look lid = some l ∧ (s.ctxOf l.ctx).stopped = false ∧ s.wh.stopped = false ∧ l.ended = none ∧ l.st = .admitting ∧
      s.algHeld l = false ∧ (∀ p ∈ s.parcels, p.2.lid = lid → p.2.st ≠ .flushed) ∧ l.next < l.grid.total ∧ s.returning l.ctx = false ∧ s.group l = [l] ∧
      s.corNext l.qid (l.pkt + 1) = false ∧ s.placeNext lid none = some t ∧ l.grid.order = 0 ∧ l.grid.swz = 1 ∧ l.grid.pair = false ∧ 0 < l.grid.x ∧ 0 < l.grid.y) ∧
    (∃ (s : State) (lid : Nat) (l : Launch), s.launches.look lid = some l ∧ l.st = .admitting ∧ s.allExited lid = true ∧ l.leased = [] ∧ l.ended = none ∧ l.bad = false ∧ l.sigaddr = 0) ∧
    (∃ (s s1 : State) (lid : Nat) (l : Launch) (g : List Byte), s.launches.look lid = some l ∧ l.st = .admitting ∧ s.allExited lid = true ∧ l.leased = [] ∧ l.ended = none ∧ l.bad = false ∧
      l.sigaddr ≠ 0 ∧ s.signalWord l.ctx l.sigaddr.toNat l.sigadd l.sigval = (.ok g, s1) ∧ s1.launches = s.launches) ∧
    (∃ (s : State) (lid : Nat) (l : Launch) (why : Nat) (q : Queue), s.launches.look lid = some l ∧ l.st = .admitting ∧ s.allExited lid = true ∧ l.leased = [] ∧ l.ended = some why ∧ 0 < why ∧
      why < 256 ∧ why ≠ 6 ∧ s.queues.look l.qid = some q ∧ q.err = 0) ∧
    (∃ (s : State) (lid : Nat) (l : Launch), s.launches.look lid = some l ∧ l.st = .admitting ∧ s.allExited lid = true ∧ l.leased = [] ∧ l.ended = some 6 ∧ s.reqs ≠ [] ∧
      ∀ r ∈ s.reqs, r.lid = lid → r.kind.isWrite = false) ∧
    (∃ (s : State) (lid : Nat) (l : Launch), s.launches.look lid = some l ∧ l.st = .admitting ∧ s.allExited lid = true ∧ l.leased = [] ∧ l.ended = some 6 ∧
      ∃ r ∈ s.reqs, r.lid = lid ∧ r.kind.isWrite = true ∧ r.st = .sent) ∧
    (∀ w ∈ [(5 : Dword), 6], ∃ (s : State) (lid n : Nat) (a b : Nat × Bool × Dword), (s.launchOf lid).sigs.find? (fun x => x.1 == n && !x.2.1) = some a ∧
      (s.launchOf lid).sigs.find? (fun x => x.1 == n && x.2.1) = some b ∧ a.2.2 = 5 ∧ b.2.2 = w) := by
  refine ⟨?_, ?_, ⟨exited {}, 1, _, rfl, rfl, by decide +kernel, rfl, rfl, rfl, rfl⟩, ?_,
    ⟨exited { ended := some 8 }, 1, _, 8, _, rfl, rfl, by decide +kernel, rfl, rfl, by decide, by decide, by decide, rfl, rfl⟩,
    ⟨{ exited { ended := some 6 } with reqs := [request oneWord .gone] }, 1, _, rfl, rfl, by decide +kernel, rfl, rfl, by decide, by decide +kernel⟩,
    ⟨{ exited { ended := some 6 } with reqs := [request writing .gone] }, 1, _, rfl, rfl, by decide +kernel, rfl, rfl, request writing .gone, List.mem_singleton_self _, rfl, rfl, rfl⟩,
    fun w _ => ⟨paired 5 w, 1, 0, (0, false, 5), (0, true, w), rfl, rfl, rfl, rfl⟩⟩
  · intro z h
    obtain ⟨s1, h1⟩ := pair_of (p := (served 1 (launchPkt z) 0 []).nextPacket 5) (a := some (launchPkt z)) (by
      simp only [List.mem_cons, List.not_mem_nil, or_false] at h
      rcases h with rfl | rfl <;> decide +kernel)
    have h2 : s1 = ((served 1 (launchPkt z) 0 []).nextPacket 5).2 := by rw [h1]
    refine ⟨_, s1, 5, launchPkt z, h1, ?_⟩
    rw [h2]
    simp only [List.mem_cons, List.not_mem_nil, or_false] at h
    rcases h with rfl | rfl <;> decide +kernel
  · obtain ⟨t, ht⟩ := Option.isSome_iff_exists.1 (show ((admitting grid6 { next := 3 }).placeNext 1 none).isSome = true by decide +kernel)
    exact ⟨admitting grid6 { next := 3 }, t, 1, _, rfl, rfl, rfl, rfl, rfl, by decide +kernel, by decide +kernel, by decide +kernel, by decide +kernel, by decide +kernel, by decide +kernel, ht,
      rfl, rfl, rfl, by decide, by decide⟩
  · obtain ⟨s1, h1⟩ := pair_of (p := (exited { sigaddr := 0x10100, sigval := 7 }).signalWord 1 0x10100 false 7) (a := .ok []) (by decide +kernel)
    have h2 : s1 = ((exited { sigaddr := 0x10100, sigval := 7 }).signalWord 1 0x10100 false 7).2 := by rw [h1]
    refine ⟨exited { sigaddr := 0x10100, sigval := 7 }, s1, 1, _, [], rfl, rfl, by decide +kernel, rfl, rfl, rfl, by decide, h1, ?_⟩
    rw [h2]
    decide +kernel

/-! ### Pre-emption -/

/-- The bench's parcel, of a kernel without a control stream, its context stopped or not, with a launch of class 0 that finds no core. -/
def crowded (stopped idemp : Bool) (report : BitVec 16) (x : Entry) : State :=
  let s := bench { team0 with report := some report } x
  let k := { oneKernel with vers := oneKernel.vers.map fun v => { v with control := none } }
  { s with
    cur := .none
    cores := s.cores.map fun y => (y.1, { y.2 with cycle := 500000, scratch := [(0, 7), (4095, 9)] })
    kernels := [(1, k), (2, { k with kid := 2, nbar := 33 })]
    ctxs := s.ctxs.map fun y => (y.1, { y.2 with stopped := stopped })
    launches := [(1, { lid := 1, ctx := 1, kid := 1, next := 1, st := .admitting, cls := 1, grid := { idemp := idemp } }), (2, { lid := 2, ctx := if stopped then 9 else 1, kid := 2, st := .admitting })] }
/-- The parcel asleep in `MONWAIT`, and a flushed parcel of its context that finds no core. -/
def making : State :=
  let s := crowded false false 9 { entry0 with st := .asleep (.mon 3 1 400000) }
  { s with
    parcels := s.parcels ++ [(2, { pid := 2, lid := 2, st := .flushed })]
    launches := s.launches.map fun y => (y.1, { y.2 with cls := 1 }) }
theorem meets_SwitchOut :
    (∃ (s : State) (pid : Nat) (p : Parcel), s.parcels.look pid = some p ∧ p.st = .resident ∧ p.onCore = true ∧ (s.ctxOf (s.launchOf p.lid).ctx).stopped = true ∧
      (s.launchOf p.lid).grid.idemp = false) ∧
    (∃ (s : State) (pid : Nat) (p : Parcel), s.parcels.look pid = some p ∧ p.st = .resident ∧ p.onCore = true ∧ (s.ctxOf (s.launchOf p.lid).ctx).stopped = true ∧
      (s.launchOf p.lid).grid.idemp = true ∧ s.estimate pid < 8192 ∧ p.busy = false) ∧
    (∃ (s : State) (pid : Nat) (p : Parcel) (y : Launch), s.parcels.look pid = some p ∧ p.st = .resident ∧ p.onCore = true ∧ (s.ctxOf (s.launchOf p.lid).ctx).stopped = false ∧
      y ∈ s.starved ∧ y.cls < (s.launchOf p.lid).cls ∧ 57344 ≤ s.estimate pid) ∧
    (∃ (s : State) (pid : Nat) (p : Parcel) (sl e : Nat) (x : Entry), s.parcels.look pid = some p ∧ p.st = .resident ∧ p.onCore = true ∧ s.entry? p.core sl e = some x ∧
      (s.team p.core sl x.team).pid = pid ∧ x.st = .parked ∧ (∃ y ∈ s.starved, s.wantsCore y p.core = true) ∧
      (let d := (s.ctxOf (s.launchOf p.lid).ctx).desc
       x.since + (if d.parkt = 0 then 50 else d.parkt) * s.wh.clock < (s.core p.core).cycle) ∧ (s.launchOf p.lid).grid.idemp = false ∧ s.estimate pid < 57344) ∧
    (∃ (s : State) (pid w : Nat) (p : Parcel), s.parcels.look pid = some p ∧ p.st = .resident ∧ p.onCore = true ∧ (s.ctxOf (s.launchOf p.lid).ctx).stopped = false ∧
      (∀ y ∈ s.starved, (s.launchOf p.lid).cls ≤ y.cls) ∧ s.makesRoom p = some w ∧ w ≠ pid ∧ (s.launchOf p.lid).grid.idemp = false ∧ s.estimate pid < 57344) ∧
    (∃ (s : State) (pid since : Nat) (p : Parcel), s.parcels.look pid = some p ∧ p.st = .draining since ∧ since + 200 * s.wh.clock ≤ (s.core p.core).cycle) := by
  refine ⟨⟨crowded true false 9 entry0, 1, _, rfl, rfl, rfl, rfl, rfl⟩, ⟨crowded true true 8191 entry0, 1, _, rfl, rfl, rfl, rfl, rfl, by decide +kernel, rfl⟩, ?_,
    ⟨crowded false false 57343 { entry0 with st := .parked, since := 500000 - 50 * 1750 - 1 }, 1, _, 0, 0, _, rfl, rfl, rfl, rfl, rfl, rfl,
      ⟨(crowded false false 57343 { entry0 with st := .parked, since := 500000 - 50 * 1750 - 1 }).launchOf 2, ?_, by decide +kernel⟩, by decide +kernel, rfl, by decide +kernel⟩,
    ⟨making, 1, 2, _, rfl, rfl, rfl, rfl, by decide +kernel, by decide +kernel, by decide, rfl, by decide +kernel⟩,
    ⟨{ crowded false false 9 entry0 with parcels := [(1, { pid := 1, lid := 1, st := .draining 150000 })] }, 1, 150000, _, rfl, rfl, by decide +kernel⟩⟩
  · refine ⟨crowded false true 57344 entry0, 1, _, (crowded false true 57344 entry0).launchOf 2, rfl, rfl, rfl, rfl, ?_, by decide, by decide +kernel⟩
    rw [show (crowded false true 57344 entry0).starved = [(crowded false true 57344 entry0).launchOf 2] by decide +kernel]
    exact List.mem_singleton.2 rfl
  · rw [show (crowded false false 57343 { entry0 with st := .parked, since := 500000 - 50 * 1750 - 1 }).starved = [(crowded false false 57343 { entry0 with st := .parked, since := 500000 - 50 * 1750 - 1 }).launchOf 2] by decide +kernel]
    exact List.mem_singleton.2 rfl
/-- The crowded device with its parcel, of a small kernel, in a state of a save. -/
def saving (st : PState) (im : Option Image) (rs : List Req) : State :=
  let s := crowded false false 9 entry0
  { s with
    kernels := s.kernels.map fun k => (k.1, { k.2 with vers := k.2.vers.map fun v => { v with regs := 8, scratch := 64 } })
    parcels := [(1, { pid := 1, lid := 1, scrSize := 64, st := st, image := im })], reqs := rs }
/-- A parcel away with an inbound copy under way. -/
def awayReq : Req := request inbound (.away 1 0)
def awayImage : Image := { teams := [{ team := { team0 with copies := [incopy] }, entries := [entry0] }], scratch := [(512, 3), (600, 4)] }
def arrivingAway (r : Req) : State :=
  let s := serving r
  { s with parcels := [(1, { pid := 1, lid := 1, scrSize := 4096, st := .saving true 5, image := some awayImage })] }
def savedTeam : SavedTeam :=
  { team := { team0 with v := [(2, 5)], s := [(6, 7)], p := [(3, 9)], fpctl := 0x1F3F }, entries := [{ entry0 with st := .ready }] }
def savedImage : Image := { teams := [savedTeam], scratch := [(0, 3), (63, 4)], group := 1 }
/-- A saved parcel that can come back to core 17. -/
def returning : State :=
  let s := saving .saved (some savedImage) []
  { s with cores := [(17, { cycle := 9, scratch := [(5, 1), (5000, 2)] })], launches := [((1 : Nat), s.launchOf 1)] }
/-- A parcel about to be captured in a context with a save area of 64 KiB or of 1 KiB. -/
def saved4 (room : Bool) : State :=
  let s := saving (.saving false 7) none []
  { s with ctxs := s.ctxs.map fun x => (x.1, { x.2 with desc := { x.2.desc with savef := 40, saven := if room then 1 else 0 } }) }
theorem meets_SavesAndRestore :
    (∀ b ∈ [false, true], ∃ (s : State) (pid since : Nat) (p : Parcel), s.parcels.look pid = some p ∧ p.st = .saving false since ∧ s.groupOf pid = [pid] ∧ (s.kernel (s.launchOf p.lid).kid).hasControl = false ∧
      s.refusedTeam [pid] = none ∧ s.quiet pid = true ∧ s.ctlQuiet p.lid (clusterOf p.core) = true ∧ (s.core p.core).scratch.rising = true ∧
      (s.saveRoom (s.launchOf p.lid).ctx pid (s.imageBytes p (s.capture pid pid)).length).isSome = b) ∧
    (∃ (s : State) (pid since : Nat) (p : Parcel) (im : Image), s.parcels.look pid = some p ∧ p.st = .saving true since ∧ s.imageBusy im = false ∧ p.image = some im ∧
      (s.imageBytes p im).length ≤ im.room) ∧
    (∃ (s : State) (pid i : Nat) (r : Req) (l : Leaf) (id ln a n : Nat), AtLeaf s r l ∧ near l ∧ r.src = .away pid i ∧ r.kind = .copyIn id [(ln, a, n)] ∧
      ((chosen s r).readG l r.va 32).2.1 = false ∧ r.va ≤ a ∧ a < r.va + 32 ∧ a + n ≤ r.va + 32 ∧ r.va % 32 = 0) ∧
    (∃ (s : State) (pid i : Nat) (r : Req) (id ln : Nat) (bs : List Byte) (k : Copy) (y : LaneBlk) (im : Image), s.req? r.id = some r ∧ s.canServe r = true ∧ r.src = .away pid i ∧
      r.kind = .arrive id [(ln, bs)] ∧ (s.copiesOf r.src).find? (fun k => k.id == id) = some k ∧ k.blks.find? (fun y => y.lane == ln) = some y ∧ (s.parcel pid).image = some im ∧
      y.offs.Nodup ∧ bs.length ≤ y.offs.length) ∧
    (∃ (s : State) (pid since k : Nat) (p : Parcel), s.parcels.look pid = some p ∧ p.st = .saving true since ∧ k < 8 ∧ s.wh.trainReq = [k] ∧ p.streamsTo k = true ∧
      (let d := (s.ctxOf (s.launchOf p.lid).ctx).desc
       since + (if d.savedl = 0 then 2000 else d.savedl) * s.wh.clock ≤ (s.core p.core).cycle)) ∧
    (∃ (s : State) (pid core base b : Nat) (p : Parcel) (im : Image) (y : SavedTeam), s.parcels.look pid = some p ∧ p.pid = pid ∧ p.st = .saved ∧ p.image = some im ∧ im.control = none ∧
      im.teams = [y] ∧ im.tarn = [] ∧ im.log = [] ∧ (∀ i, i < 16 → ∀ w ∈ (s.port i).ring, w.pid ≠ pid) ∧ im.scratch.rising = true ∧ (∀ z ∈ im.scratch, z.1 < p.scrSize) ∧ p.tarn = 0 ∧ core < 256 ∧
      (let l := s.launchOf p.lid
       (s.kernel l.kid).hasControl = false ∧ (s.kernel l.kid).tarn = 0 ∧ (s.ctxOf l.ctx).stopped = false ∧ s.wh.stopped = false ∧ l.ended = none ∧ s.imageDone pid = true ∧
       s.goesBack p core = true ∧ s.kept core (some pid) = false ∧ s.takesWith l core (im.needs (s.kernel l.kid).teams) = some (base, b) ∧ s.claimed l.cls core = false ∧
       (s.core core).scratch.rising = true ∧ ∀ e ∈ y.entries, ∀ w, e.st ≠ .asleep w)) := by
  refine ⟨?_,
    ⟨saving (.saving true 7) (some { room := 8192 }) [], 1, 7, _, { room := 8192 }, rfl, rfl, by decide +kernel, rfl, by decide +kernel⟩,
    ⟨arrivingAway awayReq, 1, 0, awayReq, leaf5, 3, 1, 0x10028, 8, atLeaf_of (by decide +kernel), near_of (by decide), rfl, rfl, by decide +kernel, by decide, by decide, by decide, by decide⟩,
    ⟨arrivingAway (request arriving (.away 1 0)), 1, 0, request arriving (.away 1 0), 3, 1, _, incopy, inblock, awayImage, rfl, by decide +kernel, rfl, rfl, by decide +kernel, rfl, rfl,
      by decide +kernel, by decide⟩,
    ⟨{ saving (.saving true 7) (some { room := 32768 }) [] with
        ctxs := [(1, { desc := { savedl := 3 } })]
        wh := { trainReq := [7] } }, 1, 7, 7, _, rfl, rfl, by decide, rfl, by decide +kernel, by decide +kernel⟩,
    ⟨returning, 1, 17, 0, 0,
      { pid := 1, lid := 1, scrSize := 64, st := .saved, image := some savedImage }, savedImage, savedTeam, rfl, rfl, rfl, rfl, rfl, rfl, rfl, rfl, ?_, rfl, by decide, rfl, by decide, rfl, rfl, rfl, rfl, rfl, by decide +kernel, by decide +kernel,
      by decide +kernel, by decide +kernel, by decide +kernel, rfl, ?_⟩⟩
  · intro b h
    refine ⟨saved4 b, 1, 7, { pid := 1, lid := 1, scrSize := 64, st := .saving false 7 }, ?_, rfl, ?_, ?_, ?_, ?_, ?_, ?_, ?_⟩
    all_goals
      simp only [List.mem_cons, List.not_mem_nil, or_false] at h
      rcases h with rfl | rfl
    all_goals decide +kernel
  · decide +kernel
  · intro e he w hw
    rw [List.mem_singleton.1 he] at hw
    cases hw

/-! ### The ports and the host -/

theorem leaf_of {α β γ : Type} {p : α × β × γ} {a : α} {b : β} (h1 : p.1 = a) (h2 : p.2.1 = b) : p = (a, b, p.2.2) := by rw [← h1, ← h2]
/-- The page at 0x10000 mapped, its first block in the Basin, and port 0 up. -/
def reachable : State :=
  let s := mapped (bench team0 entry0) 0x10020 leaf5
  { s with
    cur := .none
    ports := [(0, { up := true })]
    basin := [lineAt leaf5 0x10020 (List.replicate 64 7)]
    wh := { s.wh with aperture := 1 } }
/-- A parcel-table entry for the bench's parcel, resident or absent. -/
def tabled (absent : Bool) : State :=
  { reachable with
    ports := [(15, { up := true, ptt := [{ ctx := 1, parcel := 9, core := 0, pid := 1, absent := absent }] })]
    parcels := [(1, { pid := 1, lid := 1, base := 384, scrSize := 64, image := if absent then some {} else none })] }
/-- A dirty line whose other bytes have been read or, half written, not. -/
def dirtyLine (filled : Bool) : Line :=
  { bytes := List.replicate 512 9, dirty := true, bad := false, fresh := List.replicate 256 true ++ List.replicate 256 false, elide := false, key := 0, filled := filled }
def dirtied (filled : Bool) : State :=
  { reachable with basin := [((63 * 2 ^ 23 + 5) * 2 + 1, dirtyLine filled)], elision := [(63 * 2 ^ 23 + 5, { c0 := 0, c1 := 0 })] }
theorem meets_AgentsOutsideReachMemory :
    (∃ (s s1 : State) (n ctx va : Nat) (l : Leaf) (g : List Byte), n < 16 ∧ (s.port n).up = true ∧ (s.port n).training = false ∧ s.wh.stopped = false ∧
      (s.ctxOf ctx).traffic ∉ (s.port n).withheld ∧ near l ∧ s.agentLeaf ctx (va / 32 * 32) 32 .r = (.ok g, l, s1) ∧ (s1.readG l (va / 32 * 32) 32).2.1 = false) ∧
    (∃ (s s1 : State) (n ctx va : Nat) (l : Leaf) (g bs : List Byte), n < 16 ∧ (s.port n).up = true ∧ (s.port n).training = false ∧ s.wh.stopped = false ∧ (s.ctxOf ctx).traffic ∉ (s.port n).withheld ∧ bs ≠ [] ∧ va % 32 + bs.length ≤ 32 ∧
      s.agentLeaf ctx va bs.length .w = (.ok g, l, s1) ∧ near l ∧ Whole s1 l va) ∧
    (∀ ty ∈ [Ty.b64, Ty.bx2], ∃ (s s1 : State) (n ctx va : Nat) (l : Leaf) (g bs : List Byte) (op : AOp), n < 16 ∧ (s.port n).up = true ∧ (s.port n).training = false ∧ s.wh.stopped = false ∧ (s.ctxOf ctx).traffic ∉ (s.port n).withheld ∧ op ≠ .cas ∧ ty ∈ op.types ∧
      va % ty.bytes = 0 ∧ bs.length = ty.bytes ∧ s.agentLeaf ctx va ty.bytes .rwa = (.ok g, l, s1) ∧ (s1.readG l va ty.bytes).2.1 = false ∧ near l ∧ Whole s1 l va) ∧
    (∀ absent ∈ [false, true], ∃ (s : State) (n ctx parcel off : Nat) (data : List Byte) (e : Ptt), n < 16 ∧ (s.port n).up = true ∧ (s.port n).training = false ∧ data ≠ [] ∧ data.length ≤ 256 ∧ s.wh.stopped = false ∧ (s.ctxOf ctx).traffic ∉ (s.port n).withheld ∧
      (s.port n).ptt.find? (fun e => e.ctx == ctx && e.parcel == parcel) = some e ∧ off + data.length ≤ (s.parcel e.pid).scrSize ∧ e.absent = absent ∧
      ((s.parcel e.pid).image).isSome = absent) ∧
    (∃ (s : State) (n ctx parcel : Nat), n < 16 ∧ (s.port n).up = true ∧ (s.port n).training = false ∧ s.wh.stopped = false ∧ (s.ctxOf ctx).traffic ∉ (s.port n).withheld ∧
      (s.port n).ptt.find? (fun e => e.ctx == ctx && e.parcel == parcel) = none) ∧
    (∀ k ∈ [Right.r, Right.w], ∃ (s s1 : State) (va len : Nat) (l : Leaf) (g bs : List Byte), s.wh.aperture ≠ 0 ∧ s.wh.stopped = false ∧ 0 < len ∧ va % 32 + len ≤ 32 ∧ va + len ≤ 2 ^ 39 ∧
      (s.countPort 20 0 1).agentLeaf s.wh.aperture va len k = (.ok g, l, s1) ∧ (s1.readG l va len).2.1 = false ∧ bs.length = len ∧ near l ∧ Whole s1 l va) ∧
    (∀ b ∈ [false, true], ∃ (s : State) (part frame half : Nat) (x : Line), part < 64 ∧ frame < 2 ^ 23 ∧ half < 2 ∧
      s.basin.look ((part * 2 ^ 23 + frame) * 2 + half) = some x ∧ x.dirty = true ∧ x.elide = false ∧ x.bytes.length = 512 ∧ x.fresh.length = 512 ∧ (s.part part).training = false ∧
      (x.filled = true ∨ x.fresh.all id = true ↔ b = true) ∧
      (b = false → x.filled = false ∧ (s.elisionOf part frame).code half = 0 ∧ s.blockKey.get 0 ((part * 2 ^ 23 + frame) * 2 + half) = x.key)) := by
  refine ⟨⟨reachable, _, 0, 1, 0x1003F, leaf5, [], by decide, rfl, rfl, rfl, by decide +kernel, near_of (by decide), leaf_of (by decide +kernel) (by decide +kernel), by decide +kernel⟩,
    ⟨reachable, _, 0, 1, 0x1003F, leaf5, [], [5], by decide, rfl, rfl, rfl, by decide +kernel, by decide, by decide, leaf_of (by decide +kernel) (by decide +kernel), near_of (by decide), whole_of (by decide +kernel)⟩,
    ?_, ?_, ⟨tabled false, 15, 1, 8, by decide, rfl, rfl, rfl, by decide +kernel, rfl⟩, ?_, ?_⟩
  · intro ty h
    refine ⟨reachable, (reachable.agentLeaf 1 0x10038 ty.bytes .rwa).2.2, 0, 1, 0x10038, leaf5, [], List.replicate ty.bytes 5, if ty = .b64 then .xor else .add, by decide, rfl, rfl, rfl,
      by decide +kernel, ?_, ?_, ?_, ?_, leaf_of ?_ ?_, ?_, near_of (by decide), whole_of ?_⟩
    all_goals
      simp only [List.mem_cons, List.not_mem_nil, or_false] at h
      rcases h with rfl | rfl <;> decide +kernel
  · intro absent h
    refine ⟨tabled absent, 15, 1, 9, 60, [1, 2, 3, 4], { ctx := 1, parcel := 9, core := 0, pid := 1, absent := absent }, by decide, rfl, rfl, by decide, by decide, rfl, ?_, rfl, ?_, rfl, ?_⟩
    all_goals
      simp only [List.mem_cons, List.not_mem_nil, or_false] at h
      rcases h with rfl | rfl <;> decide +kernel
  · intro k h
    refine ⟨reachable, ((reachable.countPort 20 0 1).agentLeaf 1 0x1003E 2 k).2.2, 0x1003E, 2, leaf5, [], [1, 2], by decide, rfl, by decide, by decide, by decide, leaf_of ?_ ?_, ?_, rfl, near_of (by decide), whole_of ?_⟩
    all_goals
      simp only [List.mem_cons, List.not_mem_nil, or_false] at h
      rcases h with rfl | rfl <;> decide +kernel
  · intro b h
    refine ⟨dirtied b, 63, 5, 1, dirtyLine b, by decide, by decide, by decide, ?_, rfl, rfl, ?_, ?_, ?_, ?_, ?_⟩
    all_goals
      simp only [List.mem_cons, List.not_mem_nil, or_false] at h
      rcases h with rfl | rfl <;> decide +kernel

/-! ### The module -/

/-- A device without work, port `n` in a state. -/
def idle (n : Nat) (p : Port) : State := { State.reset with ports := [(n, p)] }
/-- A device with the partitions of stack 7 in a state, streaming a save or not. -/
def restacked (streams : Bool) : State := { State.reset with parcels := if streams then [(1, { pid := 1, lid := 1, st := .saving true 5, image := some { room := 32768 } })] else [] }
theorem meets_LinksModuleAndHbmRecover :
    (∃ (s : State) (n : Nat), n < 18 ∧ (s.port n).up = true ∧ (s.port n).training = false ∧ s.reqs = []) ∧
    (∀ b ∈ [false, true], ∃ (s : State) (k : Nat), k < 8 ∧ s.wh.stopped = false ∧ (s.part (8 * k)).training = false ∧ k ∉ s.wh.trainReq ∧ s.streamsTo k = b) ∧
    (∀ k ∈ [0, 1, 2], ∃ (s : State) (n : Nat), n < 18 ∧ (s.port n).training = true ∧ (s.port n).tries = k ∧ s.reqs = []) ∧
    (∀ b ∈ [false, true], ∃ (s : State) (part frame half : Nat), part < 64 ∧ frame < 2 ^ 23 ∧ half < 2 ∧ s.wh.stopped = false ∧ (s.elisionOf part frame).code half = 0 ∧
      s.basin.look ((part * 2 ^ 23 + frame) * 2 + half) = none ∧ s.badBlk.get false ((part * 2 ^ 23 + frame) * 2 + half) = b ∧ (s.part part).training = false) ∧
    (∃ (s : State), s.wh.booted = true ∧ s.wh.wiped = false ∧ s.wh.recovery = false ∧ s.wh.stopped = false) := by
  refine ⟨⟨idle 17 { up := true }, 17, by decide, rfl, rfl, rfl⟩, ?_, fun k _ => ⟨idle 17 { up := true, training := true, tries := k }, 17, by decide, rfl, rfl, rfl⟩, ?_,
    ⟨{ State.reset with wh := { State.reset.wh with booted := true } }, rfl, rfl, rfl, rfl⟩⟩
  · intro b h
    refine ⟨restacked b, 7, by decide, rfl, rfl, ?_, ?_⟩
    · exact List.not_mem_nil
    · simp only [List.mem_cons, List.not_mem_nil, or_false] at h
      rcases h with rfl | rfl <;> decide +kernel
  · intro b h
    refine ⟨{ State.reset with badBlk := if b then [(2 ^ 30 - 1, true)] else [], elision := [(63 * 2 ^ 23 + 2 ^ 23 - 1, { c0 := 0, c1 := 0 })] }, 63, 2 ^ 23 - 1, 1, by decide, by decide, by decide, rfl, ?_, rfl, ?_, ?_⟩
    all_goals
      simp only [List.mem_cons, List.not_mem_nil, or_false] at h
      rcases h with rfl | rfl <;> decide +kernel

/-! ### Mailboxes -/

/-- A request of `n` bytes on a page, of call version 1, to a device at work. -/
def mailed (s : State) (page op n body : Nat) : State :=
  { s with
    cur := .none
    wh := { s.wh with
      callver := some 1
      booted := true
      mbox := [(page, { reqseq := 1, irq := true, req := writeBytes [] 0 (bytesOfNat 8 (op + 2 ^ 16 * n + 2 ^ 32) ++ bytesOfNat n body) })] } }
/-- The request outstanding on a page. -/
def msgOn (s : State) (page : Nat) : Msg := (s.requestOn page).getD default
def askedB (s : State) (op page n : Nat) : Bool :=
  (s.requestOn page).isSome && decide ((msgOn s page).op = op) && decide (opPage op = some page) && decide ((msgOn s page).len = n) && decide ((msgOn s page).res = 0) &&
  decide (s.wh.callver = some (msgOn s page).ver) && !s.wh.stopped && s.wh.booted && decide (s.wh.life ≠ .retired) && !s.wh.recovery
theorem asked_of {s : State} {op page n : Nat} (h : askedB s op page n = true) : Asked s (msgOn s page) op page n := by
  simp only [askedB, Bool.and_eq_true, decide_eq_true_eq, Bool.not_eq_true'] at h
  obtain ⟨⟨⟨⟨⟨⟨⟨⟨⟨h1, h2⟩, h3⟩, h4⟩, h5⟩, h6⟩, h7⟩, h7'⟩, h8⟩, h9⟩ := h
  obtain ⟨m, hm⟩ := Option.isSome_iff_exists.1 h1
  have e : msgOn s page = m := by rw [msgOn, hm]; rfl
  rw [e] at h2 h4 h5 h6 ⊢
  exact ⟨hm, h2, h3, h4, h5, .inr h6, h7, h7', h8, h9⟩
/-- The bench with a state of its context. -/
def hosted (x : Ctx) : State := { bench team0 entry0 with ctxs := [(1, x)] }
/-- A descriptor of context 5 with a pool at frame 9, a Pond page and a window table at 0x400, and that table with its last window. -/
def descBody : Nat := 5 + 2 ^ 16 + 2 ^ 19 + 2 ^ 64 * 9 + 2 ^ 128 * 0x400
def creating : State :=
  let s := mailed (hosted { desc := { ctxid := 1, pond := 1 } }) 3 0x10 64 descBody
  { s with
    hostMem := writeBytes [] (0x400 + 16 * 63) (bytesOfNat 16 (7 + 2 ^ 64 * 3 + 2 ^ 100 + 2 ^ 107))
    wh := { s.wh with wiped := true } }
/-- A stop of context 1 asked for: not begun and with no parcel, or at its cut. -/
def stopping (page op : Nat) (begun : Bool) : State := { mailed (hosted { stopped := begun }) page op 2 1 with parcels := [], ctls := [] }
def mapping (leaf : Nat) : State := mailed (paged 0 1 (bench team0 entry0)) 3 0x14 24 (0xFFFFFFFF + 2 ^ 32 + 2 ^ 64 * 0x10000 + 2 ^ 128 * leaf)
/-- The request read, with a leaf that names frame 5. -/
def mapping5 : State := mapping 0x5001F
def openRec : FqRec := { kind := 1, va := 0x10000, seq := 8 }
/-- A queue descriptor of context 1 for queue 4095 with a ring of 64 packets at 0x20000, in memory at 0x10100. -/
def queueDesc : Nat := 0x20000 + 2 ^ 64 * 2 + 2 ^ 68 * 3 + 2 ^ 80 + 2 ^ 96 * 4095
def queueing : State := mailed (served 0 0 queueDesc []) 1 0x16 8 0x10100
def resuming (st : QState) : State := { mailed (slotted st [] false) 1 0x17 4 (1 + 2 ^ 16 * 6) with queues := [(6, { qid := 6, ctx := 1, n := 4, wptr := 3, rptr := 2, err := 3, st := st })] }
theorem meets_MailboxManagesContexts :
    (∃ (s : State) (page : Nat) (v : Dword) (off : Nat), page < 8 ∧ v = (s.mbox page).rspseq + 1 ∧ (opPage (natOfBytes (readBytes (s.mbox page).view 0 2))).isSome ∧ 1024 ≤ off ∧ off < 2048 ∧
      off % 8 = 0 ∧ (s.mbox page).reqseq = (s.mbox page).rspseq) ∧
    (∃ (s : State) (page : Nat) (v : Dword), page < 8 ∧ v = (s.mbox page).rspseq + 1 ∧ opPage (natOfBytes (readBytes (s.mbox page).view 0 2)) = none ∧ s.wh.booted = true ∧
      s.wh.stopped = false) ∧
    (∃ (s : State) (page : Nat), page < 8 ∧ (s.mbox page).reading = true) ∧
    (∀ b ∈ [false, true], ∃ (s : State), Asked s (msgOn s 7) 0x01 7 4 ∧ (s.ctxs = [] ↔ b = true)) ∧
    (∃ (s : State), (let m := msgOn s 3
      let d := CtxDesc.decode (natOfBytes m.body)
      let raw := fun i => natOfBytes (readBytes s.hostMem (d.windows + 16 * i) 16)
      Asked s m 0x10 3 64 ∧ s.wh.wiped = true ∧ s.ctxs.look d.ctxid = none ∧ descBad (natOfBytes m.body) = false ∧ (∀ i, i < 64 → windowBad (raw i) = false) ∧
        (∀ i j, i < j → j < 64 → (Window.decode (raw i)).meets (Window.decode (raw j)) = false) ∧ d.pond + s.ctxs.foldl (fun n c => n + c.2.desc.pond) 0 ≤ 2)) ∧
    (∀ x ∈ [(2, 0x12), (3, 0x11)], ∀ b ∈ [false, true], ∃ (s : State), (let m := msgOn s x.1
      let c := field m 0 16
      Asked s m x.2 x.1 2 ∧ (s.ctxs.look c).isSome ∧ (s.ctxOf c).stopped = b ∧ (∀ p ∈ s.parcels, s.ofCtx c p.2.lid = false) ∧ s.stopDone c = true)) ∧
    (∃ (s : State), (let m := msgOn s 3
      let c := field m 0 16
      Asked s m 0x13 3 12 ∧ field m 16 16 = 0 ∧ (s.ctxs.look c).isSome ∧ 0 < field m 64 32 ∧ field m 32 32 + field m 64 32 ≤ 2 ^ 23 ∧
        ∀ f ∈ (List.range (field m 64 32)).map (field m 32 32 + ·), s.rawFrame f = false ∧ ∀ z ∈ s.ctxs, f ∉ z.2.granted)) ∧
    (∃ (s s1 : State), (let m := msgOn s 3
      let c := field m 32 16
      let level := field m 48 2
      let va := field m 64 64
      let leaf : Leaf := BitVec.ofNat 64 (field m 128 64)
      Asked s m 0x14 3 24 ∧ field m 50 14 = 0 ∧ (s.ctxs.look c).isSome ∧ level < 3 ∧ va % levelBytes level = 0 ∧ va < 2 ^ 52 ∧
        (s.readRequest m.page).mapLeafBad c level leaf = false ∧
        field m 0 32 = 0xFFFFFFFF ∧ (s.ctxOf c).leases = [] ∧ (s.readRequest m.page).installLeaf c va level leaf = (.done, s1) ∧ (∀ l ∈ s.launches, l.2.st ≠ .leasing) ∧ s1.launches = s.launches)) ∧
    (∃ (s : State) (f n : Nat), (let m := msgOn s 3
      let leaf : Leaf := BitVec.ofNat 64 (field m 128 64)
      Asked s m 0x14 3 24 ∧ field m 50 14 = 0 ∧ (s.ctxs.look (field m 32 16)).isSome ∧ leaf.getLsbD 0 = true ∧ Leaf.far leaf = false ∧
        (∃ x ∈ s.ctxs, (x.2.desc.pool = f ∧ x.2.desc.pooln = n) ∨ (x.2.desc.savef = f ∧ x.2.desc.saven = n)) ∧ f ≤ Leaf.frame leaf ∧ Leaf.frame leaf < f + n)) ∧
    (∀ cause ∈ [3, 8], ∃ (s : State) (r : FqRec), (let m := msgOn s 3
      Asked s m 0x15 3 8 ∧ field m 56 8 = 0 ∧ field m 48 8 = cause ∧
        (s.ctxOf (field m 32 16)).fqOpen.find? (fun r => r.seq.toNat == field m 0 32) = some r ∧ r.kind ≠ 3)) ∧
    (∃ (s : State) (c w : Nat), (let m := msgOn s 1
      let n := w / 2 ^ 64 % 16 + 4
      let base := w % 2 ^ 64
      Asked s m 0x16 1 8 ∧ field m 0 64 % 64 = 0 ∧ (s.readRequest m.page).descAt (field m 0 64) = some (c, w) ∧ base % 4096 = 0 ∧ n ≤ 16 ∧ w.testBit 71 = false ∧ w / 2 ^ 108 % 2 ^ 20 = 0 ∧
        w / 2 ^ 256 % 2 ^ 256 = 0 ∧ (s.readRequest m.page).windowOk c base (64 * 2 ^ n) .r = true ∧ (s.readRequest m.page).windowOk c base (64 * 2 ^ n) .w = true ∧ s.queues.look (w / 2 ^ 96 % 2 ^ 12) = none)) ∧
    (∀ st ∈ [QState.unmapped, .resident 3], ∃ (s : State) (q : Queue), (let m := msgOn s 1
      Asked s m 0x17 1 4 ∧ s.queues.look (field m 16 16) = some q ∧ q.ctx = field m 0 16 ∧ q.st = st ∧ q.rptr < q.wptr)) ∧
    (∀ n ∈ [0, 16], ∃ (s : State), Asked s (msgOn s 2) 0x18 2 1 ∧ field (msgOn s 2) 0 8 = n) ∧
    (∃ (s : State), Asked s (msgOn s 7) 0x31 7 2 ∧ (s.ctxs.look (field (msgOn s 7) 0 16)).isSome) := by
  refine ⟨⟨{ State.reset with wh := { mbox := [(7, { reqseq := 4, rspseq := 4, req := [(0, 0x31)] })] } }, 7, 5, 2040, by decide, by decide, by decide, by decide, by decide, by decide, rfl⟩,
    ⟨{ State.reset with wh := { booted := true, mbox := [(0, { reqseq := 4, rspseq := 4, req := [(0, 0x99)] })] } }, 0, 5, by decide, by decide, by decide, rfl, rfl⟩,
    ⟨(stopping 2 0x12 false).readRequest 2, 2, by decide, by decide +kernel⟩, ?_, ?_, ?_,
    ⟨mailed (hosted {}) 3 0x13 12 (1 + 2 ^ 32 * (2 ^ 23 - 3) + 2 ^ 64 * 3), asked_of (by decide +kernel), by decide +kernel, by decide +kernel, by decide +kernel, by decide +kernel, by decide +kernel⟩,
    ?_, ⟨mapping 0x9001F, 9, 1, asked_of (by decide +kernel), by decide +kernel, by decide +kernel, by decide +kernel, by decide +kernel,
      ⟨_, List.mem_singleton_self _, .inl ⟨rfl, rfl⟩⟩, by decide +kernel, by decide +kernel⟩, ?_, ⟨queueing, 1, queueDesc, asked_of (by decide +kernel), by decide +kernel, by decide +kernel, by decide, by decide, by decide, by decide, by decide, by decide +kernel, by decide +kernel,
      by decide +kernel⟩, ?_, ?_, ⟨mailed (hosted {}) 7 0x31 2 1, asked_of (by decide +kernel), by decide +kernel⟩⟩
  · intro b h
    simp only [List.mem_cons, List.not_mem_nil, or_false] at h
    rcases h with rfl | rfl
    · exact ⟨mailed (hosted {}) 7 0x01 4 (1 + 2 ^ 16), asked_of (by decide +kernel), by decide⟩
    · exact ⟨mailed State.reset 7 0x01 4 (1 + 2 ^ 16), asked_of (by decide +kernel), by decide⟩
  · refine ⟨creating, asked_of (by decide +kernel), rfl, by decide +kernel, by decide +kernel, by decide +kernel, ?_, by decide +kernel⟩
    have h : ∀ j, j < 64 → ∀ i, i < j → (Window.decode (natOfBytes (readBytes creating.hostMem ((CtxDesc.decode (natOfBytes (msgOn creating 3).body)).windows + 16 * i) 16))).meets
        (Window.decode (natOfBytes (readBytes creating.hostMem ((CtxDesc.decode (natOfBytes (msgOn creating 3).body)).windows + 16 * j) 16))) = false := by
      have w : (CtxDesc.decode (natOfBytes (msgOn creating 3).body)).windows = 0x400 := by decide +kernel
      have v : ∀ i, i < 63 → (Window.decode (natOfBytes (readBytes creating.hostMem (0x400 + 16 * i) 16))).v = false := by decide +kernel
      intro j hj i hi
      rw [w, Window.meets, v i (by omega)]
      rfl
    exact fun i j hi hj => h j hj i hi
  · intro x h b hb
    refine ⟨stopping x.1 x.2 b, asked_of ?_, ?_, ?_, ?_, ?_⟩
    all_goals
      simp only [List.mem_cons, List.not_mem_nil, or_false] at h hb
      rcases h with rfl | rfl
    all_goals
      rcases hb with rfl | rfl
    all_goals decide +kernel
  · have w : (msgOn mapping5 3).page = 3 := by decide +kernel
    obtain ⟨s1, h1⟩ := pair_of (p := (mapping5.readRequest 3).installLeaf 1 0x10000 0 leaf5) (a := .done) (by decide +kernel)
    have h2 : ((mapping5.readRequest 3).installLeaf 1 0x10000 0 leaf5).2.launches = mapping5.launches := by decide +kernel
    rw [h1] at h2
    have e : field (msgOn mapping5 3) 32 16 = 1 ∧ field (msgOn mapping5 3) 64 64 = 0x10000 ∧ field (msgOn mapping5 3) 48 2 = 0 ∧ (BitVec.ofNat 64 (field (msgOn mapping5 3) 128 64) : Leaf) = leaf5 := by
      decide +kernel
    refine ⟨mapping5, s1, asked_of (by decide +kernel), by decide +kernel, by decide +kernel, by decide +kernel, by decide +kernel, by decide +kernel, by decide +kernel, by decide +kernel,
      by decide +kernel, ?_, by decide +kernel, h2⟩
    rw [e.1, e.2.1, e.2.2.1, e.2.2.2, w]
    exact h1
  · intro cause h
    refine ⟨mailed (hosted { fqOpen := [openRec] }) 3 0x15 8 (8 + 2 ^ 32 + 2 ^ 48 * cause), openRec, asked_of ?_, ?_, ?_, ?_, by decide⟩
    all_goals
      simp only [List.mem_cons, List.not_mem_nil, or_false] at h
      rcases h with rfl | rfl <;> decide +kernel
  · intro st h
    refine ⟨resuming st, { qid := 6, ctx := 1, n := 4, wptr := 3, rptr := 2, err := 3, st := st }, asked_of ?_, ?_, ?_, rfl, Nat.lt_succ_self 2⟩
    all_goals
      simp only [List.mem_cons, List.not_mem_nil, or_false] at h
      rcases h with rfl | rfl <;> decide +kernel
  · intro n h
    refine ⟨mailed (hosted {}) 2 0x18 1 n, asked_of ?_, ?_⟩
    all_goals
      simp only [List.mem_cons, List.not_mem_nil, or_false] at h
      rcases h with rfl | rfl <;> decide +kernel
/-- An object file of some sections: name, type, flags, alignment, bytes. -/
def objectFile (xs : List (String × Nat × Nat × Nat × List Byte)) : List Byte :=
  let names := (xs.flatMap fun x => ascii x.1 ++ [0]) ++ ascii ".shstrtab" ++ [0]
  let secs := xs.map (·.2) ++ [(3, 0, 1, names)]
  let body := secs.flatMap fun y => y.2.2.2
  let head (i : Nat) (y : Nat × Nat × Nat × List Byte) : List Byte :=
    bytesOfNat 4 ((xs.take i).map fun x => x.1.length + 1).sum ++ bytesOfNat 4 y.1 ++ bytesOfNat 8 y.2.1 ++ bytesOfNat 8 0 ++
      bytesOfNat 8 (64 + ((secs.take i).map fun y => y.2.2.2.length).sum) ++ bytesOfNat 8 y.2.2.2.length ++ bytesOfNat 8 0 ++ bytesOfNat 8 y.2.2.1 ++ bytesOfNat 8 0
  bytesOfNat 16 0x10102464C457F ++ bytesOfNat 2 3 ++ bytesOfNat 2 0x9A2D ++ bytesOfNat 4 1 ++ bytesOfNat 16 0 ++ bytesOfNat 8 (64 + body.length) ++ bytesOfNat 4 1 ++
    bytesOfNat 2 64 ++ bytesOfNat 4 0 ++ bytesOfNat 2 64 ++ bytesOfNat 2 secs.length ++ bytesOfNat 2 (secs.length - 1) ++ body ++
    (secs.zipIdx.flatMap fun y => head y.2 y.1)
/-- An object of 8 bytes of data. -/
def smallObject : List Byte := objectFile [(".data", 1, 3, 64, [1, 2, 3, 4, 5, 6, 7, 8])]
def loadBody (o : List Byte) : Nat := 0x1000 + 2 ^ 64 * o.length + 2 ^ 96 + 2 ^ 192 * 0x200000 + 2 ^ 256 * 0x210000 + 2 ^ 320 * 0x220000 + 2 ^ 112
def loading1 : State :=
  let s := mailed (paged 0 1 (bench team0 entry0)) 5 0x19 48 (loadBody smallObject)
  { s with
    hostMem := writeBytes [] 0x1000 smallObject
    ctxs := s.ctxs.map fun x => (x.1, { x.2 with granted := [700, 701], tables := [0, 1, 2, 3] }) }
/-- A device with one object of context 1. -/
def holding (o : Obj) : State :=
  let s := mailed (hosted {}) 5 0x1A 8 o.handle
  { s with objs := [(o.handle, o)], launches := [], kernels := [(4, { oneKernel with kid := 4, obj := o.handle })] }
def oneObj : Obj := { handle := 7, ctx := 1, wins := [], kids := [4], syms := [], relocs := [] }
/-- A request for the security functions to a device in a lifecycle state. -/
def guarded (life : Life) (op n body : Nat) : State := let s := mailed State.reset 0 op n body; { s with wh := { s.wh with life := life } }
def logged (k : Nat) : State :=
  let s := mailed State.reset 4 0x40 4 (2 ^ 32 - 2 + k)
  { s with wh := { s.wh with log := [{ cls := 3, unit := 3, seq := 2 ^ 32 - 2 }, { cls := 5, unit := 1, seq := 2 ^ 32 - 1 }, { cls := 8, unit := 5 }], logSeq := 1 } }
def planOf (s : State) : Option Plan := (s.readRequest (msgOn s 5).page).plan (msgOn s 5) (readBytes s.hostMem (field (msgOn s 5) 0 64) (field (msgOn s 5) 64 32)) s.ids (s.ids + 1)
def loadB (s : State) : Bool :=
  askedB s 0x19 5 48 && decide (field (msgOn s 5) 135 57 = 0) && (s.ctxs.look (field (msgOn s 5) 96 16)).isSome && decide (∀ z ∈ s.objs, z.2.ctx ≠ field (msgOn s 5) 96 16) &&
  (match planOf s with
   | some p => (({ (s.readRequest (msgOn s 5).page).countPort 20 1 1 with ids := s.ids + 1 + p.kerns.length } : State).backAll (field (msgOn s 5) 96 16) (field (msgOn s 5) 128 7) p.mine).1 == .done && decide (p.mine.length = 2)
   | none => false)
theorem load_of {s : State} (h : loadB s = true) : ∃ (s1 : State) (p : Plan), (let m := msgOn s 5
      let c := field m 96 16
      Asked s m 0x19 5 48 ∧ field m 135 57 = 0 ∧ (s.ctxs.look c).isSome ∧ (s.readRequest m.page).plan m (readBytes s.hostMem (field m 0 64) (field m 64 32)) s.ids (s.ids + 1) = some p ∧
        (∀ z ∈ s.objs, z.2.ctx ≠ c) ∧ ({ (s.readRequest m.page).countPort 20 1 1 with ids := s.ids + 1 + p.kerns.length } : State).backAll c (field m 128 7) p.mine = (.done, s1) ∧
        p.mine.length = 2) := by
  rw [loadB] at h
  cases hp : planOf s with
  | none => simp [hp] at h
  | some p =>
    simp only [hp, Bool.and_eq_true, decide_eq_true_eq, beq_iff_eq] at h
    obtain ⟨⟨⟨⟨h1, h2⟩, h3⟩, h4⟩, h5, h7⟩ := h
    obtain ⟨s1, h8⟩ := pair_of h5
    exact ⟨s1, p, asked_of h1, h2, h3, hp, h4, h8, h7⟩
theorem meets_Load : loadB loading1 = true := by decide +kernel
/-- The other functions of security and reports. -/
theorem meets_MailboxSecuresAndReports :
    (∃ (s s1 : State) (p : Plan), (let m := msgOn s 5
      let c := field m 96 16
      Asked s m 0x19 5 48 ∧ field m 135 57 = 0 ∧ (s.ctxs.look c).isSome ∧ (s.readRequest m.page).plan m (readBytes s.hostMem (field m 0 64) (field m 64 32)) s.ids (s.ids + 1) = some p ∧
        (∀ z ∈ s.objs, z.2.ctx ≠ c) ∧ ({ (s.readRequest m.page).countPort 20 1 1 with ids := s.ids + 1 + p.kerns.length } : State).backAll c (field m 128 7) p.mine = (.done, s1) ∧
        p.mine.length = 2)) ∧
    (∃ (s : State) (o : Obj), Asked s (msgOn s 5) 0x1A 5 8 ∧ s.objs.look (field (msgOn s 5) 0 64) = some o ∧ o.handle = field (msgOn s 5) 0 64 ∧ o.wins = [] ∧
      (∀ z ∈ s.objs, z.2.ctx = o.ctx → z.2.handle = o.handle) ∧ s.objBusy o.handle = false) ∧
    (∀ slot ∈ [1, 127], ∃ (s : State), (let m := msgOn s 0
      Asked s m 0x20 0 144 ∧ field m 0 8 = slot ∧ field m 8 8 = 0 ∧ field m 32 32 = 0 ∧ s.wh.life ≠ .manufacture ∧ s.wh.life ≠ .debug ∧ s.wh.keys.look slot = none)) ∧
    (∃ (s : State), Asked s (msgOn s 0) 0x21 0 1 ∧ field (msgOn s 0) 0 8 = 127 ∧ ∃ k, s.wh.keys.look 127 = some k ∧ s.ctxs.look k.ctx = none) ∧
    (∃ (s : State), Asked s (msgOn s 0) 0x22 0 32) ∧ (∃ (s : State), Asked s (msgOn s 0) 0x27 0 4) ∧ (∃ (s : State), Asked s (msgOn s 0) 0x23 0 0) ∧
    (∃ (s : State), Asked s (msgOn s 0) 0x24 0 180 ∧ field (msgOn s 0) 144 16 = 0 ∧ s.wh.life = .deployed) ∧
    (∃ (s : State) (dest : Life), Asked s (msgOn s 0) 0x25 0 180 ∧ field (msgOn s 0) 144 16 = 0 ∧ lifeOf (field (msgOn s 0) 136 8) = some dest ∧ fused s.wh.life dest = true) ∧
    (∀ n ∈ [8, 1016], ∃ (s : State), Asked s (msgOn s 0) 0x26 0 n) ∧
    (∀ n ∈ [0, 63], ∃ (s : State), Asked s (msgOn s 6) 0x30 6 4 ∧ field (msgOn s 6) 0 32 = 0x1000 + n) ∧
    (∀ n ∈ [700, 2100], ∃ (s : State), Asked s (msgOn s 6) 0x30 6 8 ∧ field (msgOn s 6) 0 32 = 0x8000 ∧ field (msgOn s 6) 32 32 = n) ∧
    (∀ k ∈ [0, 3], ∃ (s : State), Asked s (msgOn s 4) 0x40 4 4 ∧ k ≤ s.wh.log.length ∧ s.wh.log.length ≤ 4096 ∧
      BitVec.ofNat 32 (field (msgOn s 4) 0 32) = s.wh.logSeq - BitVec.ofNat 32 s.wh.log.length + BitVec.ofNat 32 k) := by
  refine ⟨⟨loading1, load_of meets_Load⟩, ⟨holding oneObj, oneObj, asked_of (by decide +kernel), by decide +kernel, by decide +kernel, rfl, by decide +kernel, by decide +kernel⟩, ?_,
    ⟨let s := guarded .provisioned 0x21 1 127; { s with wh := { s.wh with keys := [(127, { ctx := 9, key := 5, gen := 1 })] } }, asked_of (by decide +kernel), by decide +kernel, _, rfl, rfl⟩,
    ⟨guarded .manufacture 0x22 32 5, asked_of (by decide +kernel)⟩, ⟨guarded .deployed 0x27 4 0, asked_of (by decide +kernel)⟩, ⟨guarded .deployed 0x23 0 0, asked_of (by decide +kernel)⟩,
    ⟨guarded .deployed 0x24 180 5, asked_of (by decide +kernel), by decide +kernel, rfl⟩,
    ⟨guarded .debug 0x25 180 (2 ^ 136 * 4), .retired, asked_of (by decide +kernel), by decide +kernel, by decide +kernel, rfl⟩, ?_, ?_, ?_, ?_⟩
  · intro slot h
    refine ⟨guarded .deployed 0x20 144 slot, asked_of ?_, ?_, ?_, ?_, nofun, nofun, rfl⟩
    all_goals
      simp only [List.mem_cons, List.not_mem_nil, or_false] at h
      rcases h with rfl | rfl <;> decide +kernel
  · intro n h
    refine ⟨guarded .deployed 0x26 n 5, asked_of ?_⟩
    simp only [List.mem_cons, List.not_mem_nil, or_false] at h
    rcases h with rfl | rfl <;> decide +kernel
  · intro n h
    refine ⟨mailed State.reset 6 0x30 4 (0x1000 + n), asked_of ?_, ?_⟩
    all_goals
      simp only [List.mem_cons, List.not_mem_nil, or_false] at h
      rcases h with rfl | rfl <;> decide +kernel
  · intro n h
    refine ⟨mailed State.reset 6 0x30 8 (0x8000 + 2 ^ 32 * n), asked_of ?_, ?_, ?_⟩
    all_goals
      simp only [List.mem_cons, List.not_mem_nil, or_false] at h
      rcases h with rfl | rfl <;> decide +kernel
  · intro k h
    refine ⟨logged k, asked_of ?_, ?_, ?_, ?_⟩
    all_goals
      simp only [List.mem_cons, List.not_mem_nil, or_false] at h
      rcases h with rfl | rfl <;> decide +kernel

/-! ### A step, the encodings, and what every step keeps -/

/-- Reset with an instruction of 96 bits fetched where the next step issues. -/
def fetched (w : Nat) : State := State.reset.withFetchWord 96 w
def turned (i : Instr) : State := { State.reset with turn := .event i }
def goesOn (o : Host.Outcome State Fault Refusal) : Bool := match o with | .next _ => true | _ => false
theorem goesOn_next {o : Host.Outcome State Fault Refusal} (h : goesOn o = true) : ∃ t, o = .next t := by
  cases o
  · exact ⟨_, rfl⟩
  all_goals simp [goesOn] at h
/-- The instruction that words stand for. -/
def decoded (ws : List Word) : Instr := match decode ws with | .ok i => i | _ => .unassignedOpcode ws
theorem decoded_of (ws : List Word) : decode ws = .ok (decoded ws) ∨ ((∀ j, decode ws ≠ .ok j) ∧ decoded ws = .unassignedOpcode ws) := by
  unfold decoded
  split <;> simp_all
/-- What the step on an issue slot needs: the entry and words given, nothing that waits. -/
def stepB (s : State) (c sl e : Nat) (ws : List Word) : Bool :=
  let u := s.settle c sl
  decide (s.turn = .issue c sl) && decide (u.chosen c sl = some e) && decide ((u.entry c sl e).ibuf = some (.words ws)) && decide ((u.entry c sl e).st ≠ .xfer) && !u.comparatorHit c sl e &&
  decide (u.readiness c sl e ≠ .xfer) &&
  goesOn (exec (decoded ws) { u.begins c sl e (decoded ws) with cur := .team c sl e })
theorem step_of {s : State} {c sl e : Nat} {ws : List Word} (h : stepB s c sl e ws = true) :
    s.turn = .issue c sl ∧ (let u := s.settle c sl
      u.chosen c sl = some e ∧ (u.entry c sl e).ibuf = some (.words ws) ∧ (u.entry c sl e).st ≠ .xfer ∧ u.comparatorHit c sl e = false ∧ u.readiness c sl e ≠ .xfer ∧
      ∃ i t, (decode ws = .ok i ∨ ((∀ j, decode ws ≠ .ok j) ∧ i = .unassignedOpcode ws)) ∧ exec i { u.begins c sl e i with cur := .team c sl e } = .next t) := by
  simp only [stepB, Bool.and_eq_true, decide_eq_true_eq, Bool.not_eq_true'] at h
  obtain ⟨⟨⟨⟨⟨⟨h1, h2⟩, h3⟩, h4⟩, h5⟩, h6⟩, h7⟩ := h
  obtain ⟨t, ht⟩ := goesOn_next h7
  exact ⟨h1, h2, h3, h4, h5, h6, decoded ws, t, decoded_of ws, ht⟩
theorem meets_StepRunsTheDecodedInstruction :
    (∀ ws ∈ [encode (.iadd hd (alu .i32 1 2 3)), [0x01030D40]], ∃ (s : State) (c sl e : Nat), s.turn = .issue c sl ∧ (let u := s.settle c sl
      u.chosen c sl = some e ∧ (u.entry c sl e).ibuf = some (.words ws) ∧ (u.entry c sl e).st ≠ .xfer ∧ u.comparatorHit c sl e = false ∧ u.readiness c sl e ≠ .xfer ∧
      ∃ i t, (decode ws = .ok i ∨ ((∀ j, decode ws ≠ .ok j) ∧ i = .unassignedOpcode ws)) ∧ exec i { u.begins c sl e i with cur := .team c sl e } = .next t)) ∧
    (∃ (s t : State) (cl : Nat) (ws : List Word) (i : Instr), s.turn = .control cl ∧ (let u := s.settleCtl cl
      u.ctlReady cl = true ∧ (u.ctl cl).ibuf = some (.words ws) ∧ decode ws = .ok i ∧ exec i { u with cur := .control cl } = .next t)) ∧
    (∃ (s t : State) (i : Instr), s.turn = .event i ∧ i.isEvent = true ∧ exec i { s with cur := .none } = .next t) := by
  refine ⟨?_, ⟨State.reset.withFetched (encode (.cbr hd 0 .i64 1 2 12)), _, 0, encode (.cbr hd 0 .i64 1 2 12), .cbr hd 0 .i64 1 2 12, rfl, by decide +kernel, rfl, by decide +kernel, rfl⟩,
    ⟨turned (.powerSample 5), _, .powerSample 5, rfl, rfl, rfl⟩⟩
  intro ws h
  refine ⟨State.reset.withFetched ws, 0, 0, 0, step_of ?_⟩
  simp only [List.mem_cons, List.not_mem_nil, or_false] at h
  rcases h with rfl | rfl <;> decide +kernel
theorem meets_DecodingUndoesEncoding : ∃ i : Instr, i.wf = true ∧ i.isEvent = false ∧ ∀ ws, i ≠ .unassignedOpcode ws := ⟨.iadd hd (alu .i32 1 2 3), by decide, rfl, fun _ h => nomatch h⟩
theorem meets_SamplesNameTheirWork : (∃ (s : State) (c sl : Nat), c < 2 ^ 8 ∧ sl < 4 ∧ c = 255 ∧ sl = 3 ∧ (s.teamSample c sl 0).unit = 255) ∧
    ∃ (s : State) (cl : Nat) (m : Cmd), cl < 16 ∧ cl = 15 ∧ (s.engineSample cl m).name = 7 :=
  ⟨⟨State.reset, 255, 3, by decide, by decide, rfl, rfl, rfl⟩,
   ⟨State.reset, 15, { lid := 1, eseq := 7, pc := 0, op9 := 0, cores := [], parcels := [], op := .swap }, by decide, rfl, rfl⟩⟩
theorem meets_EveryStepKeepsMemoryForm : ∃ s t : State, MemoryForm s ∧ step s = .next t :=
  ⟨turned (.powerSample 5), _, ⟨rfl, rfl, rfl, rfl, fun _ => rfl, fun _ _ h => nomatch h⟩, rfl⟩

end Sys2Proof.Tests
end

