-- ==== Sys2Proof/Tests/Words.lean ====
section
/-! SUPPORT. For every instruction a word written out from the encodings of chapter 07 (R167 to R180), field by field, with the instruction it
stands for: distinct values in every field, the widest where a field has a bound. -/

namespace Sys2Proof.Tests

open Sys2Proof Sys2Proof.Machine

-- One test at a time: each asks the kernel, which keeps a thread waiting.
set_option Elab.async false

/-- Stall 5, yield, guard !p9; the same without a guard; and for short forms stall 3, yield, guard !p6, or no guard. -/
def hq : Hdr := { stall := 5, yld := true, pred := 9, neg := true }
def hn : Hdr := { stall := 5, yld := true, pred := 0, neg := false }
def hs : HdrB := { stall := 3, yld := true, pred := 6, neg := true }
def hsn : HdrB := { stall := 3, yld := true, pred := 0, neg := false }

/-- Control flow, part 1. -/
def controlWords1 : List (List Word × Instr) :=
  [([0x000C8035, 0x00000000, 0x00000000], .nop hq),
   ([0x000C8275, 0x00000000, 0x00000000], .exit hq),
   ([0x000002B5, 0x00000000, 0x00000000], .yield hn),
   ([0x123C8075, 0x00000000, 0xFFFFFFF1], .bra hq 0x123 0xFFFFFFF1),
   ([0x123C80B5, 0x00000000, 0xFFFFFFF1], .brl hq 0x123 0xFFFFFFF1),
   ([0x123C81F5, 0x00000000, 0xFFFFFFF1], .call hq 0x123 0xFFFFFFF1),
   ([0x123C80F5, 0x00010500, 0x00000000], .brx hq 0x123 5 true),
   ([0x12300135, 0x00000500, 0x00000007], .brz hn 0x123 5 7),
   ([0x12300175, 0x00000500, 0x00000007], .brnz hn 0x123 5 7),
   ([0xABC001B5, 0x00000000, 0x00000000], .join hn 0xABC),
   ([0x00000235, 0x00000000, 0x00000000], .pop hn),
   ([0x00100235, 0x00000000, 0x00000000], .ret hn)]
/-- Control flow, part 2. -/
def controlWords2 : List (List Word × Instr) :=
  [([0x00200235, 0x00000000, 0x00000000], .rett hn),
   ([0x000C82F5, 0x00001403, 0x00000000], .monwait hq 3 20),
   ([0x0000E06C], .nopShort hs),
   ([0x0000E1AC], .exitShort hs),
   ([0x000001EC], .yieldShort hsn),
   ([0xFFF1E0AC], .braShort hs 0xFFF1),
   ([0xFFF1E0EC], .brlShort hs 0xFFF1),
   ([0xFFF1E12C], .callShort hs 0xFFF1),
   ([0x0000016C], .popShort hsn),
   ([0x4000016C], .retShort hsn),
   ([0x8000016C], .rettShort hsn),
   ([0x0ABC022C], .joinShort hsn 0xABC)]
theorem test_control_words : ∀ x ∈ controlWords1 ++ controlWords2, x.2.wf = true ∧ decode x.1 = .ok x.2 ∧ encode x.2 = x.1 := by decide +kernel
/-- Predicates and cross-lane instructions, part 1. -/
def lanesWords1 : List (List Word × Instr) :=
  [([0x27DC8335, 0x00201403, 0x00000000], .setp hq { setp .f64 .nan with bs := true, d := 3, a := 20, b := 32 }),
   ([0x000C8375, 0x04030201, 0x00000096], .plop hq 1 2 3 4 0x96),
   ([0x800C83B5, 0x00090807, 0x00000000], .psel hq true 7 8 9),
   ([0x800C8435, 0x00000904, 0x00000000], .voteAnd hq true 4 9),
   ([0x801C8435, 0x00000904, 0x00000000], .voteOr hq true 4 9),
   ([0x802C8435, 0x00000904, 0x00000000], .voteEq hq true 4 9),
   ([0x003C8435, 0x00000904, 0x00000000], .voteMask hq false 4 9),
   ([0xC01C8535, 0x0000140C, 0x00000011], .shflIdx hq { ty := .b64, bi := true, leg := true, d := 12, a := 20, b := 0, ext := 17 }),
   ([0xC01C8575, 0x0000140C, 0x00000011], .shflUp hq { ty := .b64, bi := true, leg := true, d := 12, a := 20, b := 0, ext := 17 }),
   ([0xC01C85B5, 0x0000140C, 0x00000011], .shflDn hq { ty := .b64, bi := true, leg := true, d := 12, a := 20, b := 0, ext := 17 }),
   ([0xC01C85F5, 0x0000140C, 0x00000011], .shflXor hq { ty := .b64, bi := true, leg := true, d := 12, a := 20, b := 0, ext := 17 }),
   ([0x000C8635, 0x00001409, 0x00000000], .ltos hq 9 20)]
/-- Predicates and cross-lane instructions, part 2. -/
def lanesWords2 : List (List Word × Instr) :=
  [([0x000C8675, 0x00060509, 0x00000000], .stol hq 9 5 6)]
theorem test_lanes_words : ∀ x ∈ lanesWords1 ++ lanesWords2, x.2.wf = true ∧ decode x.1 = .ok x.2 ∧ encode x.2 = x.1 := by decide +kernel
/-- The scalar group, part 1. -/
def scalarWords1 : List (List Word × Instr) :=
  [([0x08401001, 0x000B0A09, 0x00000000], .sadd hd { alu .i32 9 10 11 with sat := true }),
   ([0x08401041, 0x000B0A09, 0x00000000], .ssub hd { alu .i32 9 10 11 with sat := true }),
   ([0x000010C1, 0x000B0A09, 0x00000000], .sand hd (alu .b32 9 10 11)),
   ([0x00001101, 0x000B0A09, 0x00000000], .sor hd (alu .b32 9 10 11)),
   ([0x00001141, 0x000B0A09, 0x00000000], .sxor hd (alu .b32 9 10 11)),
   ([0x00001181, 0x000B0A09, 0x00000000], .sshl hd (alu .b32 9 10 11)),
   ([0x000011C1, 0x000B0A09, 0x00000000], .sshr hd (alu .b32 9 10 11)),
   ([0x00001201, 0x000B0A09, 0x00000000], .ssra hd (alu .b32 9 10 11)),
   ([0x00801081, 0x000B0A09, 0x00000000], .smul hd (alu .n32 9 10 11)),
   ([0x00001241, 0x00000A09, 0x00000000], .smov hd (alu .b32 9 10 0)),
   ([0x00001281, 0x00000009, 0x0000FEDC], .smovi hd { alu .b32 9 0 0 with ext := 65244 }),
   ([0x034012C1, 0x000B0A09, 0x00000000], .scmp hd { alu .i32 9 10 11 with rnd := .rd })]
/-- The scalar group, part 2. -/
def scalarWords2 : List (List Word × Instr) :=
  [([0x0509E4AC], .smovShort hs 9 10),
   ([0x4009E5EE, 0x9ABCDEF0, 0x12345678], .smoviLit hs true 9 0x123456789ABCDEF0)]
theorem test_scalar_words : ∀ x ∈ scalarWords1 ++ scalarWords2, x.2.wf = true ∧ decode x.1 = .ok x.2 ∧ encode x.2 = x.1 := by decide +kernel
/-- Integer and bitwise instructions, part 1. -/
def integerWords1 : List (List Word × Instr) :=
  [([0x084CA035, 0x0020140C, 0x00000000], .iadd hq { alu .i32 12 20 32 with sat := true }),
   ([0x084CA075, 0x0020140C, 0x00000000], .isub hq { alu .i32 12 20 32 with sat := true }),
   ([0x004CA0B5, 0x0020140C, 0x00000000], .imul hq (alu .i32 12 20 32)),
   ([0x004CA0F5, 0x0020140C, 0x00000000], .imulh hq (alu .i32 12 20 32)),
   ([0x004CA135, 0x0020140C, 0x00000000], .imulq hq (alu .i32 12 20 32)),
   ([0x104CA1B5, 0x0020070C, 0x00000000], .imin hq { alu .i32 12 7 32 with as := true }),
   ([0x204CA1F5, 0x0007140C, 0x00000000], .imax hq { alu .i32 12 20 7 with bs := true }),
   ([0x004CA175, 0x2C20140C, 0x00000000], .imad hq { alu .i32 12 20 32 with c := 44 }),
   ([0x005CA235, 0x0000140C, 0x00000000], .iabs hq (alu .i64 12 20 0)),
   ([0x005CA275, 0x0000140C, 0x00000000], .ineg hq (alu .i64 12 20 0)),
   ([0x001CA2B5, 0x0020140C, 0x00000000], .and hq (alu .b64 12 20 32)),
   ([0x001CA2F5, 0x0020140C, 0x00000000], .or hq (alu .b64 12 20 32))]
/-- Integer and bitwise instructions, part 2. -/
def integerWords2 : List (List Word × Instr) :=
  [([0x001CA335, 0x0020140C, 0x00000000], .xor hq (alu .b64 12 20 32)),
   ([0x001CA3B5, 0x0020140C, 0x00000000], .shl hq (alu .b64 12 20 32)),
   ([0x001CA3F5, 0x0020140C, 0x00000000], .shr hq (alu .b64 12 20 32)),
   ([0x001CA435, 0x0020140C, 0x00000000], .sra hq (alu .b64 12 20 32)),
   ([0x001CA375, 0x0000140C, 0x00000000], .not hq (alu .b64 12 20 0)),
   ([0x004CA475, 0x0000140C, 0x00000805], .bfx hq { alu .i32 12 20 0 with ext := 2053 }),
   ([0x000CA4B5, 0x0020140C, 0x00000805], .bfi hq { alu .b32 12 20 32 with ext := 2053 }),
   ([0x001CA4F5, 0x0000140C, 0x00000000], .popc hq (alu .b64 12 20 0)),
   ([0x001CA535, 0x0000140C, 0x00000000], .clz hq (alu .b64 12 20 0)),
   ([0x001CA575, 0x2C20140C, 0x00000000], .sel hq { alu .b64 12 20 32 with c := 44 }),
   ([0x001CA5B5, 0x0000140C, 0x00000000], .mov hq (alu .b64 12 20 0)),
   ([0x000CA5F5, 0x0000000C, 0x0000FEDC], .movi hq { alu .b32 12 0 0 with ext := 65244 })]
/-- Integer and bitwise instructions, part 3. -/
def integerWords3 : List (List Word × Instr) :=
  [([0x004CA6F5, 0x2C20140C, 0x00000000], .clamp hq { alu .i32 12 20 32 with c := 44 }),
   ([0x002CA635, 0x0020140C, 0x00000000], .dp4 hq (alu .i8 12 20 32)),
   ([0x00FCA675, 0x0020140C, 0x00000000], .dp2 hq (alu .bx2 12 20 32)),
   ([0x004CA6B5, 0x0020140C, 0x00000000], .rshr hq (alu .i32 12 20 32)),
   ([0x0508E62E, 0x9ABCDEF0, 0x12345678], .iaddLit hs 8 10 0x123456789ABCDEF0),
   ([0x4008E5AE, 0x9ABCDEF0, 0x12345678], .moviLit hs true 8 0x123456789ABCDEF0),
   ([0x3A89E2AC], .movShort hs 9 117),
   ([0x3A89E2EC], .notShort hs 9 117),
   ([0x3A89E32C], .inegShort hs 9 117),
   ([0x3A89E36C], .iabsShort hs 9 117),
   ([0x3A89E3AC], .fnegShort hs 9 117),
   ([0x3A89E3EC], .fabsShort hs 9 117)]
/-- Integer and bitwise instructions, part 4. -/
def integerWords4 : List (List Word × Instr) :=
  [([0x3A89E42C], .popcShort hs 9 117),
   ([0x3A89E46C], .clzShort hs 9 117)]
theorem test_integer_words : ∀ x ∈ integerWords1 ++ integerWords2 ++ integerWords3 ++ integerWords4, x.2.wf = true ∧ decode x.1 = .ok x.2 ∧ encode x.2 = x.1 := by decide +kernel
/-- Floating point, conversions and algebra, part 1. -/
def floatWords1 : List (List Word × Instr) :=
  [([0x02DCB035, 0x0020140C, 0x00000000], .fadd hq { alu .f64 12 20 32 with rnd := .rz }),
   ([0x02DCB075, 0x0020140C, 0x00000000], .fsub hq { alu .f64 12 20 32 with rnd := .rz }),
   ([0x02DCB0B5, 0x0020140C, 0x00000000], .fmul hq { alu .f64 12 20 32 with rnd := .rz }),
   ([0x04DCB0F5, 0x2C20140C, 0x00000000], .ffma hq { alu .f64 12 20 32 with rnd := .ru, c := 44 }),
   ([0x00DCB135, 0x0020140C, 0x00000000], .fmin hq (alu .f64 12 20 32)),
   ([0x00DCB175, 0x0020140C, 0x00000000], .fmax hq (alu .f64 12 20 32)),
   ([0x00DCB1B5, 0x0000140C, 0x00000000], .fabs hq (alu .f64 12 20 0)),
   ([0x00DCB1F5, 0x0000140C, 0x00000000], .fneg hq (alu .f64 12 20 0)),
   ([0x00CCB235, 0x0000140C, 0x00000000], .frcp hq (alu .f32 12 20 0)),
   ([0x00CCB275, 0x0000140C, 0x00000000], .frsq hq (alu .f32 12 20 0)),
   ([0x00CCB2B5, 0x0000140C, 0x00000000], .fsqrt hq (alu .f32 12 20 0)),
   ([0x00CCB2F5, 0x0000140C, 0x00000000], .fexp2 hq (alu .f32 12 20 0))]
/-- Floating point, conversions and algebra, part 2. -/
def floatWords2 : List (List Word × Instr) :=
  [([0x00CCB335, 0x0000140C, 0x00000000], .flog2 hq (alu .f32 12 20 0)),
   ([0x00CCB375, 0x0000140C, 0x00000000], .fsin hq (alu .f32 12 20 0)),
   ([0x00CCB3B5, 0x0000140C, 0x00000000], .fcos hq (alu .f32 12 20 0)),
   ([0x025CB435, 0x0000140C, 0x0000000D], .cvt hq { alu .i64 12 20 0 with rnd := .rz, ext := 13 }),
   ([0x00ECB475, 0x0020140C, 0x00000000], .pack hq (alu .hx2 12 20 32)),
   ([0x00FCB4B5, 0x0000140C, 0x00000000], .unpk hq (alu .bx2 12 20 0)),
   ([0x00BCB4F5, 0x0000140C, 0x00000000], .qscale hq (alu .bf16 12 20 0)),
   ([0x05BCB535, 0x0020140C, 0x00000000], .qcvt hq { alu .bf16 12 20 32 with rnd := .rna }),
   ([0x000CB575, 0x0000140C, 0x00000000], .bpt hq (alu .b32 12 20 0)),
   ([0x004CB5B5, 0x0000140C, 0x00000001], .redux hq { alu .i32 12 20 0 with ext := 1 }),
   ([0x00CCB635, 0x00201810, 0x00000002], .algMul hq { alu .f32 16 24 32 with ext := 2 }),
   ([0x00CCB675, 0x00001810, 0x00000002], .algConj hq { alu .f32 16 24 0 with ext := 2 })]
/-- Floating point, conversions and algebra, part 3. -/
def floatWords3 : List (List Word × Instr) :=
  [([0x00CCB6B5, 0x00001810, 0x00000002], .algNorm hq { alu .f32 16 24 0 with ext := 2 })]
theorem test_float_words : ∀ x ∈ floatWords1 ++ floatWords2 ++ floatWords3, x.2.wf = true ∧ decode x.1 = .ok x.2 ∧ encode x.2 = x.1 := by decide +kernel
/-- Memory, part 1. -/
def memoryWords1 : List (List Word × Instr) :=
  [([0x347CC035, 0x0021140C, 0xFFFFFFF8], .ld hq { space := .g, ty := .b64, count := .x2, sb := true, ix := true, r := 12, a := 20, b := 33, off := 0xFFFFFFF8 }),
   ([0x39FCC075, 0x0C211400, 0xFFFFFFF8], .st hq { space := .g, ty := .n16, count := .x4, sb := true, ix := true, r := 12, a := 20, b := 33, off := 0xFFFFFFF8 }),
   ([0x007CC0B5, 0x0000140C, 0xFFFFFFF8], .ldAcq hq { space := .g, ty := .b64, count := .x1, sb := false, ix := false, r := 12, a := 20, b := 0, off := 0xFFFFFFF8 }),
   ([0x003CC0F5, 0x0C001400, 0xFFFFFFF8], .stRel hq { space := .g, ty := .b32, count := .x1, sb := false, ix := false, r := 12, a := 20, b := 0, off := 0xFFFFFFF8 }),
   ([0x003CC1B5, 0x00001400, 0x00000040], .pfh hq { space := .g, ty := .b32, count := .x1, sb := false, ix := false, r := 0, a := 20, b := 0, off := 0x40 }),
   ([0x003CC1F5, 0x00001400, 0x00000040], .pfw hq { space := .g, ty := .b32, count := .x1, sb := false, ix := false, r := 0, a := 20, b := 0, off := 0x40 }),
   ([0x407CC135, 0x2800140C, 0xFFFFF007], .atom hq { space := .g, ty := .b64, sb := false, ix := false, var := .acq, op := .cas, d := 12, a := 20, b := 0, c := 40, off := 0xFFFFF0 }),
   ([0x013CC175, 0x28001400, 0xFFFFF001], .red hq { space := .g, ty := .i32, sb := false, ix := false, var := .none, op := .min, d := 0, a := 20, b := 0, c := 40, off := 0xFFFFF0 }),
   ([0x883CC235, 0x0701140C, 0x00000040], .acp hq { space := .g, ty := .b32, count := .x4, sb := false, tag := 2, out := true, d := 12, a := 20, c := 7, off := 0x40 }),
   ([0xC0004275, 0x00000000, 0x00000025], .acwait hn 3 37),
   ([0x000042B5, 0x00000000, 0x00000000], .fenceAcq hn),
   ([0x000042F5, 0x00000000, 0x00000000], .fenceRel hn)]
/-- Memory, part 2. -/
def memoryWords2 : List (List Word × Instr) :=
  [([0x00004335, 0x00000000, 0x00000000], .fenceAr hn),
   ([0xBB09E52C], .ldShort hs .p 9 118),
   ([0xBB09E56C], .stShort hs .p 9 118),
   ([0xFB09E52C], .ldShort hs .g 9 118),
   ([0xFB09E56C], .stShort hs .g 9 118)]
theorem test_memory_words : ∀ x ∈ memoryWords1 ++ memoryWords2, x.2.wf = true ∧ decode x.1 = .ok x.2 ∧ encode x.2 = x.1 := by decide +kernel
/-- Synchronisation, part 1. -/
def synchWords1 : List (List Word × Instr) :=
  [([0x01F05035, 0x00000000, 0x00000000], .barSync hn 31),
   ([0x01F05075, 0x00000000, 0x00000000], .barArrive hn 31),
   ([0x01F050B5, 0x00000000, 0x00000000], .barWait hn 31),
   ([0x01F050F5, 0x00000000, 0x00000000], .barJoin hn 31),
   ([0x01F05135, 0x00000000, 0x00000000], .barLeave hn 31),
   ([0x14005175, 0x00201400, 0x00000040], .barInitb hn { space := .c, sb := true, a := 20, b := 32, off := 0x40 }),
   ([0x140051B5, 0x00201400, 0x00000040], .barArriveb hn { space := .c, sb := true, a := 20, b := 32, off := 0x40 }),
   ([0x140051F5, 0x00201400, 0x00000040], .barWaitb hn { space := .c, sb := true, a := 20, b := 32, off := 0x40 }),
   ([0x00F05235, 0x00001400, 0x00000000], .qpush hn 15 20),
   ([0x00F05275, 0x00000014, 0x00000000], .qpop hn 15 20),
   ([0x03F052B5, 0x00000000, 0x00000000], .flagSet hn 63),
   ([0x03F052F5, 0x00000000, 0x00000000], .flagClr hn 63)]
/-- Synchronisation, part 2. -/
def synchWords2 : List (List Word × Instr) :=
  [([0x03F05335, 0x00000000, 0x00000000], .flagWait hn 63)]
theorem test_synch_words : ∀ x ∈ synchWords1 ++ synchWords2, x.2.wf = true ∧ decode x.1 = .ok x.2 ∧ encode x.2 = x.1 := by decide +kernel
/-- The control core and the engines, part 1. -/
def engineWords1 : List (List Word × Instr) :=
  [([0x8C006001, 0x0000140C, 0xFFFFFFF8], .cld hd .i16 true 12 20 0xFFFFFFF8),
   ([0x84006041, 0x0C001400, 0xFFFFFFF8], .cst hd .b64 true 20 12 0xFFFFFFF8),
   ([0x24306081, 0x00151400, 0xFFFFFFF8], .cbr hd 3 .n64 20 21 0xFFFFFFF8),
   ([0x000060C1, 0x00000000, 0x00000000], .wfi hd),
   ([0x000062C1, 0x00000000, 0x00000000], .txFence hd),
   ([0x00006101, 0x00001406, 0x00000005], .shpSet hd 6 20 5),
   ([0x6C006201, 0x07000204, 0x00012340], .txLd hd { ty := .bf16, mc := true, d := 4, a := 2, b := 0, c := 7, bobj := 0x1234 }),
   ([0x40006241, 0x07050204, 0x00012345], .txLdq hd { ty := .b32, mc := true, d := 4, a := 2, b := 5, c := 7, bobj := 0x1234 } 5),
   ([0x30006281, 0x07000204, 0x00012340], .txSt hd { ty := .f32, mc := false, d := 4, a := 2, b := 0, c := 7, bobj := 0x1234 }),
   ([0x80006281, 0x07060204, 0x00012340], .txStPeer hd { ty := .b32, mc := false, d := 4, a := 2, b := 6, c := 7, bobj := 0x1234 }),
   ([0x300064C1, 0x07050204, 0x00012340], .mxDrn hd { ty := .f32, mc := false, d := 4, a := 2, b := 5, c := 7, bobj := 0x1234 }),
   ([0x02006401, 0x07050200, 0x00000000], .mxLds hd true 2 5 7)]
/-- The control core and the engines, part 2. -/
def engineWords2 : List (List Word × Instr) :=
  [([0x00006441, 0x07000000, 0x00000000], .mxSwap hd 7),
   ([0x01D06481, 0x08070605, 0x000003FE], .mxStrm hd { alg := 5, lst := true, acc := true, d := 5, a := 6, b := 7, c := 8, m1 := 1022 }),
   ([0x00006501, 0x07000005, 0x00000000], .mxZero hd 5 7),
   ([0x00006541, 0x07000000, 0x00000000], .mxWait hd 7),
   ([0x00006601, 0x00001406, 0x00000000], .algLdt hd 6 20)]
theorem test_engine_words : ∀ x ∈ engineWords1 ++ engineWords2, x.2.wf = true ∧ decode x.1 = .ok x.2 ∧ encode x.2 = x.1 := by decide +kernel
/-- The system group and older code, part 1. -/
def systemWords1 : List (List Word × Instr) :=
  [([0x000CF035, 0x00000000, 0x00000080], .trap hq 0x80),
   ([0x000CF075, 0x00000000, 0x00000055], .brk hq 0x55),
   ([0x01ACF0B5, 0x0001000C, 0x00000000], .srd hq 0x01A true 12),
   ([0x017CF0F5, 0x00001400, 0x00000000], .swr hq 0x017 20),
   ([0xABC07135, 0x00000000, 0x00000000], .safept hn 0xABC),
   ([0x00507175, 0x00000000, 0x00000000], .xfer hn 5),
   ([0x000071B5, 0x00001400, 0x00000000], .progress hn 20),
   ([0x001CFC35, 0x2C201409, 0x00000000], .odot4 hq true 9 20 32 44),
   ([0x002CFC75, 0x00281810, 0x00000000], .omma8 hq false true 16 24 40),
   ([0x006CFCB5, 0x00002810, 0x00000020], .oldx hq 6 16 40 0x20),
   ([0x002CFCF5, 0x00201409, 0x00000000], .oshfw hq .dn 9 20 32),
   ([0x0D09E4EC], .srdShort hs 9 0x1A)]
/-- The system group and older code, part 2. -/
def systemWords2 : List (List Word × Instr) :=
  [([0x0ABC026C], .safeptShort hsn 0xABC)]
theorem test_system_words : ∀ x ∈ systemWords1 ++ systemWords2, x.2.wf = true ∧ decode x.1 = .ok x.2 ∧ encode x.2 = x.1 := by decide +kernel

end Sys2Proof.Tests
end

section
/-! The form of memory is not kept by every step: `MemoryForm` looks a Basin line up by its key, and a look ends at the first
greater key, but nothing in it asks that the keys rise. A line listed behind a greater key is not seen; CTX_CREATE takes the
lines of the new context's pool out of the list (`State.clearFrames`), and the line behind them is then seen, whatever its size. -/

namespace Sys2Proof.Machine

open Sys2Proof Sys2Proof.Said

/-! ### The host's own writes and lines of HBM -/

/-- The host's own writes go to its memory, and to Basin lines of its memory alone (R163): those of HBM stay. -/
theorem State.hostStore_basin_of_near (s : State) (a : Nat) (bs : List Byte) (h : ∀ y ∈ s.basin, blkFar y.1 = false) :
    (s.hostStore a bs).basin = s.basin := by
  simp only [State.hostStore, State.freeBool]
  refine (List.map_congr_left fun y hy => ?_).trans (List.map_id _)
  simp [h y hy]

theorem State.hostWrites_basin_of_near (s : State) (h : ∀ y ∈ s.basin, blkFar y.1 = false) : s.hostWrites.basin = s.basin := by
  simp only [State.hostWrites]
  split
  · exact s.hostStore_basin_of_near _ _ h
  · rfl

theorem State.passTurn_basin_of_near (s : State) (h : ∀ y ∈ s.basin, blkFar y.1 = false) : s.passTurn.basin = s.basin :=
  s.hostWrites_basin_of_near h

/-- A step whose turn is an event's: its meaning, then the turn passes on. -/
theorem step_of_event {s u : State} {i : Instr} (ht : s.turn = .event i) (hi : i.isEvent = true)
    (hx : exec i { s with cur := .none } = .next u) : step s = .next u.passTurn := by
  have hm : s.move = .run i { s with cur := .none } := by simp only [State.move, ht, hi, if_true]
  simp only [step, hm, hx]

/-! ### A Basin with a short line behind a greater key -/

/-- A whole line of the Basin: 512 bytes, none of them written since it was taken. -/
def wholeLine : Line :=
  { bytes := List.replicate 512 0, dirty := false, bad := false, fresh := List.replicate 512 false, elide := false, key := 0 }

/-- A line without bytes. -/
def shortLine : Line := { bytes := [], dirty := false, bad := false, fresh := [], elide := false, key := 0 }

/-- A whole line of frame 9 (block 18) listed before a short line of frame 1 (block 2). -/
def hidingBasin : Store Line := [(18, wholeLine), (2, shortLine)]

theorem hidingBasin_look {k : Nat} {x : Line} (h : hidingBasin.look k = some x) : x = wholeLine := by
  simp only [hidingBasin, Store.look] at h
  split at h
  · cases h
  · split at h
    · exact (Option.some.inj h).symm
    · rw [if_neg (by omega), if_neg (by omega)] at h
      cases h

/-- A request of CTX_CREATE as its page's REQ holds it (R394): call version 0, a descriptor of context 1 whose pool is frame 9. -/
def createReq : Store Byte := writeBytes [] 0 (bytesOfNat 8 (0x10 + 2 ^ 16 * 64) ++ bytesOfNat 64 (1 + 2 ^ 19 + 2 ^ 64 * 9))

/-- The booted device without work, the request outstanding and about to be served, and the Basin above. -/
def hidingState : State :=
  { State.reset with
    basin := hidingBasin
    wh := { callver := some 0, booted := true, wiped := true, mbox := [(3, { reqseq := 1, req := createReq })] }
    turn := .event .ctxCreate }

theorem hidingState_memoryForm : MemoryForm hidingState := by
  refine ⟨rfl, rfl, rfl, rfl, fun _ => rfl, fun k x h => ?_⟩
  rw [hidingBasin_look h]
  exact ⟨List.length_replicate, List.length_replicate⟩

/-- The Basin that an outcome leaves. -/
def basinAfter : Out → Option (Store Line)
  | .next t => some t.basin
  | _ => none

theorem next_of_basinAfter {o : Out} {b : Store Line} (h : basinAfter o = some b) : ∃ t, o = .next t ∧ t.basin = b := by
  cases o with
  | next t => exact ⟨t, rfl, Option.some.inj h⟩
  | fault f => cases h
  | refused r => cases h

/-- Serving the request takes the line of frame 9 out and leaves the short one. -/
theorem hidingState_created : basinAfter (exec .ctxCreate { hidingState with cur := .none }) = some [(2, shortLine)] := by
  decide +kernel

/-- The step ends with the short line alone in the Basin, whatever the host writes meanwhile. -/
theorem hidingState_step : ∃ t, step hidingState = .next t ∧ t.basin = [(2, shortLine)] := by
  obtain ⟨u, hu, hb⟩ := next_of_basinAfter hidingState_created
  refine ⟨u.passTurn, step_of_event rfl rfl hu, ?_⟩
  rw [u.passTurn_basin_of_near (by simp [hb, blkFar]), hb]

/-- Refutes O60: the form of memory does not ask that the Basin's keys rise. In `hidingState` it holds, since no look finds the
short line of block 2 behind the line of block 18; one step serves CTX_CREATE, which takes block 18 out, and then the short line
is found at block 2. -/
theorem not_everyStepKeepsMemoryForm : ¬ Obligations.EveryStepKeepsMemoryForm := by
  unfold Obligations.EveryStepKeepsMemoryForm
  intro h
  obtain ⟨t, ht, hb⟩ := hidingState_step
  obtain ⟨-, -, -, -, -, hlines⟩ := h hidingState t hidingState_memoryForm ht
  have hshort : t.basin.look 2 = some shortLine := by rw [hb]; rfl
  exact absurd (hlines 2 shortLine hshort).1 (by decide)

end Sys2Proof.Machine
end

section
/-! The device right after reset. No core and no control core is listed in the reset state, so each one is the default unit; the
clauses about units follow from that. -/

namespace Sys2Proof.Machine

open Sys2Proof Sys2Proof.Said

/-! ### The units of the reset state -/

@[simp] theorem State.reset_core (c : Nat) : State.reset.core c = {} := Store.get_nil _ c

@[simp] theorem State.reset_ctl (cl : Nat) : State.reset.ctl cl = {} := Store.get_nil _ cl

@[simp] theorem State.reset_slot (c sl : Nat) : State.reset.slot c sl = {} := by
  rw [State.slot, State.reset_core]
  exact Store.get_nil _ sl

/-- No sub-team is resident in any slot. -/
theorem State.reset_entry? (c sl e : Nat) : State.reset.entry? c sl e = none := by
  rw [State.entry?, State.reset_slot]
  exact Store.look_nil e

/-- Every c register reads 0: c0 by its definition, the others because none is listed (R266). -/
theorem creg_reset (cl : Nat) (r : BitVec 8) : creg State.reset cl r = 0 := by
  rw [creg, State.reset_ctl]
  split
  · rfl
  · exact Store.get_nil _ r.toNat

/-- Empty memories and an empty Basin have the form of log entry 6. -/
theorem State.reset_memoryForm : MemoryForm State.reset := by
  obtain ⟨hdram, hpond, hfar, hhost⟩ := State.reset_memories
  have hempty : Memory.wf [] = true := rfl
  refine ⟨?_, ?_, ?_, ?_, fun c => ?_, fun k x hx => ?_⟩
  · rw [hdram, hempty]
  · rw [hpond, hempty]
  · rw [hfar, hempty]
  · rw [hhost, hempty]
  · rw [State.reset_core, hempty]
  · exact absurd ((Store.look_nil k).symm.trans hx) nofun

/-- Settles O58: nothing is listed at reset, so every core and control core is the default one and every byte of memory reads 0. -/
theorem resetLeavesTheDeviceClear : Obligations.ResetLeavesTheDeviceClear := by
  unfold Obligations.ResetLeavesTheDeviceClear
  have hcores (c : Nat) : (State.reset.core c).l1 = [] ∧ (State.reset.core c).icache = [] ∧
      ∀ a, (State.reset.core c).scratch.get 0 a = 0 := by
    rw [State.reset_core]
    exact ⟨rfl, rfl, Store.get_nil 0⟩
  have hctls (cl : Nat) : (State.reset.ctl cl).st = .off ∧ (State.reset.ctl cl).dcache = [] ∧ (State.reset.ctl cl).eseq = 0 ∧
      ∀ r, creg State.reset cl r = 0 := by
    refine ⟨?_, ?_, ?_, creg_reset cl⟩ <;> rw [State.reset_ctl]
  have hmem (a : Nat) : State.reset.dram.get 0 a = 0 ∧ State.reset.pond.get 0 a = 0 := by
    obtain ⟨hdram, hpond, -, -⟩ := State.reset_memories
    rw [hdram, hpond]
    exact ⟨Store.get_nil 0 a, Store.get_nil 0 a⟩
  exact ⟨State.reset_memoryForm, rfl, rfl, rfl, rfl, rfl, rfl, rfl, rfl, hcores, State.reset_entry?, hctls, hmem⟩

end Sys2Proof.Machine
end

section
/-! One step around `exec`: what the turn's unit runs, and that the turn passes on afterwards. -/

namespace Sys2Proof.Machine

open Sys2Proof Sys2Proof.Said

/-- A step whose turn leads to a run of an instruction that answers a next state. -/
theorem step_of_run {s u t : State} {i : Instr} (hm : s.move = .run i u) (hx : exec i u = .next t) :
    step s = .next t.passTurn := by
  rw [step, hm]
  simp only [hx]

/-- The instruction that words stand for is the one they decode to, or the unassigned opcode. -/
theorem instrOf_eq {ws : List Word} {i : Instr}
    (h : decode ws = .ok i ∨ ((∀ j, decode ws ≠ .ok j) ∧ i = .unassignedOpcode ws)) : instrOf ws = i := by
  unfold instrOf
  rcases h with h | ⟨hno, rfl⟩
  · rw [h]
  · cases hd : decode ws with
    | ok j => exact absurd hd (hno j)
    | reject r => rfl

/-- A slot whose chosen entry holds fetched words, past comparator and transfer, runs their instruction (R61). -/
theorem moveSlot_run {s : State} {c sl e : Nat} {ws : List Word} (hch : (s.settle c sl).chosen c sl = some e)
    (hbuf : ((s.settle c sl).entry c sl e).ibuf = some (.words ws))
    (hcmp : (s.settle c sl).comparatorHit c sl e = false) (hrd : (s.settle c sl).readiness c sl e ≠ .xfer) :
    s.moveSlot c sl =
      .run (instrOf ws) { (s.settle c sl).begins c sl e (instrOf ws) with cur := .team c sl e } := by
  simp only [State.moveSlot, hch, hcmp, hbuf, hrd, Bool.and_false, Bool.false_eq_true, if_false]

/-- A control core that is ready runs the instruction of its fetched words (R266). -/
theorem moveCtl_run {s : State} {cl : Nat} {ws : List Word} (hready : (s.settleCtl cl).ctlReady cl = true)
    (hbuf : ((s.settleCtl cl).ctl cl).ibuf = some (.words ws)) :
    s.moveCtl cl = .run (instrOf ws) { s.settleCtl cl with cur := .control cl } := by
  simp only [State.moveCtl, hready, hbuf, if_true]

/-- Settles O55: each turn leads to a run of the instruction at hand, and `step` lets the turn pass on after it. -/
theorem stepRunsTheDecodedInstruction : Obligations.StepRunsTheDecodedInstruction := by
  unfold Obligations.StepRunsTheDecodedInstruction
  refine ⟨?slot, ?control, ?event⟩
  case slot =>
    intro s c sl e ws hturn u hch hbuf _ hcmp hrd i t hi hx
    have hm : s.move = .run i { u.begins c sl e i with cur := .team c sl e } := by
      rw [State.move, hturn, ← instrOf_eq hi]
      exact moveSlot_run hch hbuf hcmp hrd
    exact step_of_run hm hx
  case control =>
    intro s cl ws hturn u hready hbuf i t hi hx
    have hm : s.move = .run i { u with cur := .control cl } := by
      rw [State.move, hturn, ← instrOf_eq hi]
      exact moveCtl_run hready hbuf
    exact step_of_run hm hx
  case event =>
    intro s i t hturn hev hx
    exact step_of_event hturn hev hx

end Sys2Proof.Machine
end

section
/-! The bytes of a sample record as a number, and the fields that R345 cuts it into. -/

namespace Sys2Proof.Machine

open Sys2Proof Sys2Proof.Said

/-! ### Numbers as bytes (R4) -/

@[simp] theorem bytesOfNat_length (n v : Nat) : (bytesOfNat n v).length = n := by simp [bytesOfNat]

theorem bytesOfNat_succ (n v : Nat) : bytesOfNat (n + 1) v = BitVec.ofNat 8 v :: bytesOfNat n (v / 256) := by
  simp [bytesOfNat, List.range_succ_eq_map, Nat.pow_succ', Nat.div_div_eq_div_mul, Function.comp_def]

/-- A number's `n` bytes hold it up to `256 ^ n`. -/
theorem natOfBytes_bytesOfNat (n v : Nat) : natOfBytes (bytesOfNat n v) = v % 256 ^ n := by
  induction n generalizing v with
  | zero => simp [bytesOfNat, natOfBytes, Nat.mod_one]
  | succ n ih =>
    rw [bytesOfNat_succ, natOfBytes, ih, Nat.pow_succ', Nat.mod_mul, BitVec.toNat_ofNat]

/-! ### Sample records (R345) -/

theorem Sample.encode_length (r : Sample) : r.encode.length = 32 := bytesOfNat_length _ _

/-- A record's number: its fields do not overlap, so the 32 bytes lose nothing. -/
theorem Sample.natOfBytes_encode (r : Sample) :
    natOfBytes r.encode = r.leaf.toNat + 2 ^ 8 * r.engine.toNat + 2 ^ 9 * r.version.toNat + 2 ^ 16 * r.unit.toNat +
      2 ^ 24 * r.slot.toNat + 2 ^ 32 * r.pc.toNat + 2 ^ 64 * r.name.toNat + 2 ^ 128 * r.cycles.toNat := by
  rw [Sample.encode, natOfBytes_bytesOfNat]
  apply Nat.mod_eq_of_lt
  have := r.leaf.isLt; have := r.engine.toNat_lt; have := r.version.isLt; have := r.unit.isLt
  have := r.slot.isLt; have := r.pc.isLt; have := r.name.isLt; have := r.cycles.isLt
  omega

/-- The fields at the places of R345. -/
structure Sample.FieldsAt (r : Sample) (w : Nat) : Prop where
  leaf : w % 2 ^ 8 = r.leaf.toNat
  engine : w / 2 ^ 8 % 2 = r.engine.toNat
  version : w / 2 ^ 9 % 2 ^ 3 = r.version.toNat
  gap : w / 2 ^ 12 % 2 ^ 4 = 0
  unit : w / 2 ^ 16 % 2 ^ 8 = r.unit.toNat
  slot : w / 2 ^ 24 % 2 ^ 2 = r.slot.toNat
  top : w / 2 ^ 26 % 2 ^ 6 = 0
  pc : w / 2 ^ 32 % 2 ^ 32 = r.pc.toNat
  name : w / 2 ^ 64 % 2 ^ 64 = r.name.toNat
  cycles : w / 2 ^ 128 = r.cycles.toNat

theorem Sample.encode_fields (r : Sample) : r.FieldsAt (natOfBytes r.encode) := by
  rw [Sample.natOfBytes_encode]
  have := r.leaf.isLt; have := r.engine.toNat_lt; have := r.version.isLt; have := r.unit.isLt
  have := r.slot.isLt; have := r.pc.isLt; have := r.name.isLt; have := r.cycles.isLt
  constructor <;> omega

/-- Settles O59: both kinds of sample are records, and their fields are read off the record. -/
theorem samplesNameTheirWork : Obligations.SamplesNameTheirWork := by
  unfold Obligations.SamplesNameTheirWork
  refine ⟨?team, ?engine⟩
  case team =>
    intro s c sl e hc hsl x t p w
    have f : (s.teamSample c sl e).FieldsAt w := Sample.encode_fields _
    have hunit : (s.teamSample c sl e).unit.toNat = c := by simpa [State.teamSample] using hc
    have hslot : (s.teamSample c sl e).slot.toNat = sl := by simp [State.teamSample, Nat.mod_eq_of_lt hsl]
    exact ⟨Sample.encode_length _, f.leaf, f.engine, f.version, f.gap, f.unit.trans hunit, f.slot.trans hslot, f.top, f.pc,
      f.name, f.cycles⟩
  case engine =>
    intro s cl m hcl w
    have f : (s.engineSample cl m).FieldsAt w := Sample.encode_fields _
    have hunit : (s.engineSample cl m).unit.toNat = cl := by
      simp only [State.engineSample, BitVec.toNat_ofNat]
      omega
    have hname : (s.engineSample cl m).name.toNat = m.eseq.toNat := by
      simp only [State.engineSample, BitVec.toNat_setWidth]
      have := m.eseq.isLt
      omega
    have hversion : w / 2 ^ 9 % 2 ^ 3 = 0 := f.version
    have hslot : w / 2 ^ 24 % 2 ^ 2 = 0 := f.slot
    have hgap : w / 2 ^ 9 % 2 ^ 7 = 0 := by have := f.gap; omega
    have htop : w / 2 ^ 24 % 2 ^ 8 = 0 := by have := f.top; omega
    exact ⟨Sample.encode_length _, f.leaf, f.engine, hgap, f.unit.trans hunit, htop, f.pc, f.name.trans hname, f.cycles⟩

end Sys2Proof.Machine
end

section
/-! A MONWAIT that runs out takes its sector out of the watch filter of the sector's partition (R69): that is a change outside the
core, which the timeout's statement does not allow for. -/

namespace Sys2Proof.Machine

open Sys2Proof Sys2Proof.Said

/-- Core 0's only sub-team has slept in `MONWAIT` on sector 0 of context 0 for 65,536 cycles; the sector's partition watches it. -/
def monitorExpired : State :=
  { State.reset with
    cores := [(0, { cycle := 65536, monitors := [(0, 0)], slots := [(0, { entries := [(0, { st := .asleep (.mon 0 1 0) })] })] })]
    parts := [(partOf 0, { watch := [(0, 0)] })] }

/-- The watch filter of sector 0's partition in the state that an outcome leaves. -/
def watchAfter : Out → Option (List (Nat × Nat))
  | .next t => some (t.part (partOf 0)).watch
  | _ => none

/-- Nobody sleeps on the sector any more, so the partition stops watching it. -/
theorem monitorExpired_disarms : watchAfter (exec (.monwaitTimeout 0 0 0) monitorExpired) = some [] := by
  decide +kernel

/-- The filter of the state before still watches the sector. -/
theorem monitorExpired_watches : (monitorExpired.part (partOf 0)).watch = [(0, 0)] := by
  decide +kernel

/-- Refutes O39: the clause on `MONWAIT` lets nothing change but the entry, its team and the core's monitors, but the timeout also
takes the sector that nobody waits for any more out of its partition's watch filter. -/
theorem not_stallsRunOutAndFetchBringsWords : ¬ Obligations.StallsRunOutAndFetchBringsWords := by
  unfold Obligations.StallsRunOutAndFetchBringsWords
  rintro ⟨⟨-, -, htimeout, -⟩, -⟩
  obtain ⟨t, ht, -, honly, -⟩ := htimeout monitorExpired 0 0 0 1 0 (.monwaitTimeout 0 0 0)
    (.inl ⟨0, by decide +kernel, by decide +kernel, rfl⟩) (by decide) (by decide)
  have hparts : t.part (partOf 0) = monitorExpired.part (partOf 0) := by rw [honly.rest]; rfl
  have hgone : (t.part (partOf 0)).watch = [] := Option.some.inj ((congrArg watchAfter ht).symm.trans monitorExpired_disarms)
  rw [hparts, monitorExpired_watches] at hgone
  cases hgone

end Sys2Proof.Machine
end

section
/-! Tables in a pool block whose bytes cannot be corrected (R404): the walk that reads them ends in FATAL, which empties the whole
device. What reads the global address space in the middle of an instruction or an event then finds its own sub-team gone. -/

namespace Sys2Proof.Machine

open Sys2Proof Sys2Proof.Said

/-- A Basin line that holds an uncorrectable block: no byte of it has been written since. -/
def badLine : Line :=
  { bytes := List.replicate 512 0, dirty := false, bad := true, fresh := List.replicate 512 false, elide := false, key := 0 }

/-- Context 0 has one page of page-table pool, whose first block is uncorrectable. -/
def brokenPool : State :=
  { State.reset with
    ctxs := [(0, { desc := { pooln := 1, saven := 65536 } })]
    basin := [(0, badLine)] }

/-- Entry 0 stands in a trap handler, its frame at the team's stack base. -/
def handlerEntry : Entry := { mask := [1], stack := [{ kind := 2 }] }

/-- The handler is about to return with `POP`. -/
def handlerState : State :=
  { brokenPool with
    cores := [(0, { slots := [(0, { entries := [(0, handlerEntry)], teams := [(0, {})] })] })]
    cur := .team 0 0 0 }

/-- An unguarded POP. -/
def plainPop : Instr := .pop { pred := 0, neg := false, stall := 0, yld := false }

/-- Nothing stops the POP before it is carried out. -/
theorem handlerState_clear : Clear handlerState 0 0 0 plainPop where
  cur := rfl
  plain := rfl
  wf := by decide +kernel
  quiet := by decide +kernel
  regs := by decide +kernel
  marks := by decide +kernel

/-- The lanes of entry 0 in the state that an outcome leaves. -/
def maskAfter : Out → Option (List Word)
  | .next t => some (t.entry 0 0 0).mask
  | _ => none

/-- To look for the frame's USTEP the pop walks the tables; FATAL ends every sub-team, and entry 0 has no lane left. -/
theorem handlerState_loses_lanes : maskAfter (exec plainPop handlerState) = some [] := by
  decide +kernel

/-- Refutes O12: a POP of a TRAP entry reads the trap frame through the context's page tables, and an uncorrectable block of these is
FATAL, so that the sub-team does not keep its mask. -/
theorem not_callsPushAndReturnsPop : ¬ Obligations.CallsPushAndReturnsPop := by
  unfold Obligations.CallsPushAndReturnsPop
  rintro ⟨-, hpop⟩
  obtain ⟨t, ht, -, -, -, hmask, -⟩ := hpop handlerState 0 0 0 plainPop { kind := 2 } []
    (.inr (.inr (.inl ⟨_, rfl⟩))) handlerState_clear rfl rfl rfl
  have hnone : (t.entry 0 0 0).mask = [] := Option.some.inj ((congrArg maskAfter ht).symm.trans handlerState_loses_lanes)
  rw [hnone] at hmask
  exact absurd hmask (by decide +kernel)

end Sys2Proof.Machine
end

section
/-! A capture reads the code of a sub-team that stands inside an instruction (R383); with its page tables in an uncorrectable block
(R404) that read is FATAL, and nothing is left of the save that was under way. -/

namespace Sys2Proof.Machine

open Sys2Proof Sys2Proof.Said

/-- Parcel 1 has been saving since cycle 5. -/
def savingParcel : Parcel := { pid := 1, st := .saving false 5 }

/-- Its kernel: 4,096 bytes of code at address 0 of context 0. -/
def savedKernel : Kernel := { Kernel.none with vers := [{ present := true, team := (0, 4096) }] }

/-- The parcel's one sub-team stands at step 1 of an instruction, and all it did is performed. -/
def savingState : State :=
  { brokenPool with
    cores := [(0, { slots := [(0, { entries := [(0, { mask := [1], ustep := 1 })], teams := [(0, { pid := 1 })] })] })]
    kernels := [(0, savedKernel)]
    parcels := [(1, savingParcel)] }

/-- The state of parcel 1 after an outcome. -/
def savedAfter : Out → Option PState
  | .next t => some (t.parcel 1).st
  | _ => none

/-- FATAL ends the parcel, and the capture goes on with the record of no parcel, whose save did not begin in cycle 5. -/
theorem savingState_lost : savedAfter (exec (.parcelSave 1) savingState) = some (.saving true 0) := by
  decide +kernel

/-- The save area has room for the image at its beginning. -/
theorem savingState_room :
    savingState.saveRoom (savingState.launchOf savingParcel.lid).ctx 1
      (savingState.imageBytes savingParcel (savingState.capture 1 1)).length = some 0 := by
  decide +kernel

/-- Refutes O50: a quiet parcel whose image has a place is not captured where the capture itself meets an uncorrectable page table. -/
theorem not_parcelsAreSwitchedOutAndRestored : ¬ Obligations.ParcelsAreSwitchedOutAndRestored := by
  unfold Obligations.ParcelsAreSwitchedOutAndRestored
  rintro ⟨-, -, hcapture, -⟩
  obtain ⟨-, hplaced⟩ := hcapture savingState 1 5 savingParcel rfl rfl (by decide +kernel) (by decide +kernel) (by decide +kernel)
    (by decide +kernel) (by decide +kernel) (by decide +kernel)
  obtain ⟨t, im, ht, hst, -⟩ := hplaced 0 savingState_room
  have hlost : (t.parcel 1).st = .saving true 0 := Option.some.inj ((congrArg savedAfter ht).symm.trans savingState_lost)
  rw [hlost] at hst
  cases hst

end Sys2Proof.Machine
end

section
/-! Two entries of a slot listed at one number: a search finds the first, a list of a team's entries holds both. The statement that no
sub-team of a team waits at a `JOIN` then says nothing of the entry that the end of a write fuses. -/

namespace Sys2Proof.Machine

open Sys2Proof Sys2Proof.Said

/-- A sub-team of team 9 waits at a join, its one stack entry spilled. -/
def joinedEntry : Entry := { team := 9, st := .atJoin, stack := [{ kind := 0, spill := true }] }

/-- A store of no byte to core 0's own bank, by team 0 of slot 0. -/
def emptyStore : Req :=
  { id := 1, kind := .store [], src := .team 0 0 0, port := 0, owners := [0], ctx := 0, lid := 0, tgt := .bank 0, va := 0, pc := 0,
    version := 0, row := 0, gteam := 0, lanes := 0 }

/-- Entry 0 of slot 0 is listed twice: as a sub-team of team 9 that waits at a join, then as a ready one of team 0. -/
def twiceState : State :=
  { State.reset with
    cores := [(0, { slots := [(0, { entries := [(0, joinedEntry), (0, { team := 0 })] })] })]
    parts := [(partOf 0, { tlb := [(tlbKey 0 0, poolLeaf 5)] })]
    reqs := [emptyStore] }

/-- No entry that is listed for team 0 waits at a join. -/
theorem twiceState_unjoined : Unjoined twiceState emptyStore := by
  intro c sl tm hsrc
  injection hsrc with hc hsl htm
  subst hc hsl htm
  show ∀ y ∈ [(0, joinedEntry), (0, ({ team := 0 } : Entry))], y.2.team = 0 → y.2.st ≠ .atJoin
  decide +kernel

/-- The end of the store fuses the entry found at 0; its spilled join entry is read back, and the block it lies in
comes into the Basin. -/
theorem twiceState_fills_basin : (basinAfter (exec (.writePerform 1) twiceState)).map List.length = some 1 := by
  decide +kernel

/-- Refutes O42: where the entries of a slot are not listed at distinct numbers, a store to a bank may fuse a join all the same, and
memory's caches change with it. -/
theorem not_writesArePerformed : ¬ Obligations.WritesArePerformed := by
  unfold Obligations.WritesArePerformed
  rintro ⟨-, hbank, -⟩
  obtain ⟨t, ht, ⟨-, hbasin, -⟩, -⟩ := hbank twiceState emptyStore [] 0 rfl (by decide +kernel) rfl rfl
    (by intro p i h; cases h) twiceState_unjoined List.nodup_nil
  have hfilled := twiceState_fills_basin
  rw [show exec (.writePerform 1) twiceState = .next t from ht, basinAfter, hbasin] at hfilled
  cases hfilled

end Sys2Proof.Machine
end

section
/-! SUPPORT. How an issue ends in each stream when nothing stops it: the checks of R183 pass, the instruction's own work is carried
out, and its passes and its stall count are charged. -/

namespace Sys2Proof.Said

open Sys2Proof.Machine

/-! ### A step over one entry, and two of them in a row -/

/-- One step over an entry behind another: together a step over that entry, whose team they both leave it. -/
theorem OnlyEntry.trans {s u t : State} {c sl e : Nat} (h : OnlyEntry s u c sl e) (k : OnlyEntry u t c sl e)
    (ht : (u.entry c sl e).team = (s.entry c sl e).team) : OnlyEntry s t c sl e where
  rest := by rw [k.rest, h.rest]
  cores n hn := by rw [k.cores n hn, h.cores n hn]
  core := by rw [k.core, h.core]
  slots n hn := by rw [k.slots n hn, h.slots n hn]
  ctr := by rw [k.ctr, h.ctr]
  teams n hn := by rw [k.teams n (ht ▸ hn), h.teams n hn]
  entries n hn := by rw [k.entries n hn, h.entries n hn]

theorem OnlyEntry.scratch {s t : State} {c sl e : Nat} (h : OnlyEntry s t c sl e) (n : Nat) :
    (t.core n).scratch = (s.core n).scratch := by
  by_cases hn : n = c
  · rw [hn, h.core]
  · rw [h.cores n hn]

theorem OnlyEntry.parcel {s t : State} {c sl e : Nat} (h : OnlyEntry s t c sl e) (n : Nat) : t.parcel n = s.parcel n := by
  rw [h.rest]; rfl

theorem OnlyEntry.sameMemory {s t : State} {c sl e : Nat} (h : OnlyEntry s t c sl e) : SameMemory s t := by
  rw [h.rest]
  exact ⟨rfl, rfl, rfl, rfl, rfl⟩

theorem OnlyEntry.reqs {s t : State} {c sl e : Nat} (h : OnlyEntry s t c sl e) : t.reqs = s.reqs := by rw [h.rest]

/-- An entry of the step's slot is the same as before, where another entry has been changed. -/
theorem OnlyEntry.entry {s t : State} {c sl e n : Nat} (h : OnlyEntry s t c sl e) (hn : n ≠ e) :
    t.entry c sl n = s.entry c sl n := by
  simpa only [State.entry?, State.entry, Store.get] using congrArg (fun x : Option Entry => x.getD {}) (h.entries n hn)

/-- Any entry of another slot is the same as before. -/
theorem OnlyEntry.entry_elsewhere {s t : State} {c sl e c' sl' n : Nat} (h : OnlyEntry s t c sl e)
    (hn : (c', sl', n) ≠ (c, sl, e)) : t.entry c' sl' n = s.entry c' sl' n := by
  by_cases hc : c' = c
  · subst hc
    by_cases hs : sl' = sl
    · subst hs
      exact h.entry fun he => hn (by rw [he])
    · simp only [State.entry, h.slots sl' hs]
  · simp only [State.entry, State.slot, h.cores c' hc]

end Sys2Proof.Said

namespace Sys2Proof.Machine

open Sys2Proof Sys2Proof.Said

/-! ### Slots whose pipe is charged -/

@[simp] theorem State.entry_setPipe (s : State) (c sl f : Nat) (l : List Nat) (c' sl' e : Nat) :
    (s.setSlot c sl { s.slot c sl with free := f, leaves := l }).entry c' sl' e = s.entry c' sl' e := by
  simp only [State.entry, State.slot_setSlot]
  split
  · next h => rw [h.1, h.2]
  · rfl

@[simp] theorem State.entry?_setPipe (s : State) (c sl f : Nat) (l : List Nat) (c' sl' e : Nat) :
    (s.setSlot c sl { s.slot c sl with free := f, leaves := l }).entry? c' sl' e = s.entry? c' sl' e := by
  simp only [State.entry?, State.slot_setSlot]
  split
  · next h => rw [h.1, h.2]
  · rfl

@[simp] theorem State.team_setPipe (s : State) (c sl f : Nat) (l : List Nat) (c' sl' n : Nat) :
    (s.setSlot c sl { s.slot c sl with free := f, leaves := l }).team c' sl' n = s.team c' sl' n := by
  simp only [State.team, State.slot_setSlot]
  split
  · next h => rw [h.1, h.2]
  · rfl

/-- A slot's charge changes the slot's pipe alone. -/
theorem State.onlyEntry_setPipe (s : State) (c sl f : Nat) (l : List Nat) (e : Nat) :
    OnlyEntry s (s.setSlot c sl { s.slot c sl with free := f, leaves := l }) c sl e where
  rest := rfl
  cores n hn := by rw [State.core_setSlot, if_neg hn]
  core := State.core_setSlot_self _ _ _ _
  slots n hn := by rw [State.slot_setSlot, if_neg (fun k => hn k.2)]
  ctr := by rw [State.slot_setSlot_same]
  teams n _ := State.team_setPipe _ _ _ _ _ _ _ _
  entries n _ := State.entry?_setPipe _ _ _ _ _ _ _ _

/-- An entry replaced changes that entry alone. -/
theorem State.onlyEntry_setEntry (s : State) (c sl e : Nat) (x : Entry) : OnlyEntry s (s.setEntry c sl e x) c sl e where
  rest := rfl
  cores n hn := by simp [State.setEntry, State.core_setSlot, hn]
  core := State.core_setSlot_self _ _ _ _
  slots n hn := by rw [State.setEntry, State.slot_setSlot, if_neg (fun k => hn k.2)]
  ctr := by rw [State.setEntry, State.slot_setSlot_same]
  teams n _ := State.team_setEntry _ _ _ _ _ _ _ _
  entries n hn := by rw [State.entry?_setEntry, if_neg (fun k => hn k.2.2)]

/-- The entry's team replaced, and the counter of open values set. -/
theorem State.onlyEntry_setTeam (s : State) (c sl e fr : Nat) (x : Team) :
    OnlyEntry s (State.setTeam { s with fresh := fr } c sl (s.entry c sl e).team x) c sl e where
  rest := rfl
  cores n hn := by rw [State.setTeam, State.core_setSlot, if_neg hn]; rfl
  core := State.core_setSlot_self _ _ _ _
  slots n hn := by rw [State.setTeam, State.slot_setSlot, if_neg (fun k => hn k.2)]; rfl
  ctr := by rw [State.setTeam, State.slot_setSlot_same]; rfl
  teams n hn := by rw [State.team_setTeam, if_neg (fun k => hn k.2.2)]; rfl
  entries n _ := by rw [State.entry?_setTeam]; rfl

/-! ### The team stream -/

section Team

variable {s s1 : State} {c sl e : Nat} {i : Instr}

/-- Where nothing stops it, an instruction of the team stream does its own work (R183). -/
theorem teamOnly_eq (h : Clear s c sl e i) (hst : (streamsOf (op9Of i)).1 = true) {bad : Iss → Bool}
    (hb : bad (s.iss c sl e i) = false) (work : Iss → Act) :
    teamOnly i s bad never noBank work = .next ((s.iss c sl e i).finish s [] (work (s.iss c sl e i))) := by
  have hra : (s.iss c sl e i).e.ra = none := h.plain
  simp only [teamOnly, h.cur, State.issueTeam, hra, Iss.stretched_noBank, never, hb, checks_eq h hst]

/-- So does one that both streams have. -/
theorem bothStreams_team_eq (h : Clear s c sl e i) (hst : (streamsOf (op9Of i)).1 = true) {bad : Iss → Bool}
    (hb : bad (s.iss c sl e i) = false) (work : Iss → Act) (cbad cpriv : CIss → Bool) (cwork : CIss → CAct) :
    bothStreams i s bad never work cbad cpriv cwork = .next ((s.iss c sl e i).finish s [] (work (s.iss c sl e i))) := by
  rw [← teamOnly_eq h hst hb]
  simp only [bothStreams, teamOnly, h.cur]
  rfl

/-- Some lane is active where the list of them is not empty. -/
theorem act_notEmpty (h : Clear s c sl e i) (hl : lanes s c sl e i ≠ []) : (s.iss c sl e i).act.isEmpty = false := by
  rw [act_eq h]
  cases hls : lanes s c sl e i with
  | nil => exact absurd hls hl
  | cons l ls => rfl

/-- What an issue leaves of its entry as the sub-team goes on at `pc`. -/
def Iss.onward (x : Iss) (y : Entry) (pc : Word) : Entry :=
  { y with pc := pc, npc := pc, ibuf := none, ustep := 0, till := x.till, st := .stalled x.till, brkSkip := false,
           yielded := y.yielded || x.h.yld }

/-- What an issue leaves of its entry as the sub-team falls asleep. -/
def Iss.asleep (x : Iss) (y : Entry) (w : Wait) : Entry :=
  { y with npc := x.npc, till := x.till, st := .asleep w, act := maskOfLanes x.e.mask.length x.act, yielded := y.yielded || x.h.yld }

/-- The charge takes as long as the issue's passes and its stall count (R50). -/
theorem Iss.charged_till (s : State) (c sl e : Nat) (i : Instr) :
    (s.iss c sl e i).cyc + max 1 (leavesOf (rowsOf (s.iss c sl e i).e.mask) (s.iss c sl e i).occ [] 0x01).length +
      (s.iss c sl e i).h.stall.toNat = (s.iss c sl e i).till := by
  rw [leavesOf_length _ _ _ (show 1 ≤ (s.iss c sl e i).occ from occ_pos _ _)]
  rfl

/-- The charge changes the slot's pipe and the issuing entry, which goes on. -/
theorem Iss.charge_goes (s s1 : State) (c sl e : Nat) (i : Instr) (pc : Word) :
    OnlyEntry s1 ((s.iss c sl e i).charge s1 [] pc none) c sl e ∧
      (∀ c' sl' n, ((s.iss c sl e i).charge s1 [] pc none).team c' sl' n = s1.team c' sl' n) ∧
      ((s.iss c sl e i).charge s1 [] pc none).entry c sl e = (s.iss c sl e i).onward (s1.entry c sl e) pc := by
  rw [charge_eq, Iss.onward, ← Iss.charged_till]
  refine ⟨(s1.onlyEntry_setPipe c sl _ _ e).trans (State.onlyEntry_setEntry _ _ _ _ _) (by simp), fun c' sl' n => ?_, ?_⟩
  · exact (State.team_setEntry _ _ _ _ _ _ _ _).trans (State.team_setPipe _ _ _ _ _ _ _ _)
  · refine (State.entry_setEntry_same _ _ _ _ _).trans ?_
    rw [show (s.iss c sl e i).core = c from rfl, show (s.iss c sl e i).slot = sl from rfl,
      show (s.iss c sl e i).entry = e from rfl, State.entry_setPipe]

/-- The charge of an issue that falls asleep. -/
theorem Iss.charge_sleeps (s s1 : State) (c sl e : Nat) (i : Instr) (w : Wait) :
    OnlyEntry s1 ((s.iss c sl e i).charge s1 [] (s.iss c sl e i).npc (some w)) c sl e ∧
      (∀ c' sl' n, ((s.iss c sl e i).charge s1 [] (s.iss c sl e i).npc (some w)).team c' sl' n = s1.team c' sl' n) ∧
      ((s.iss c sl e i).charge s1 [] (s.iss c sl e i).npc (some w)).entry c sl e =
        (s.iss c sl e i).asleep (s1.entry c sl e) w := by
  unfold Iss.asleep
  rw [← Iss.charged_till]
  refine ⟨(s1.onlyEntry_setPipe c sl _ _ e).trans (State.onlyEntry_setEntry _ _ _ _ _) (by simp), fun c' sl' n => ?_, ?_⟩
  · exact (State.team_setEntry _ _ _ _ _ _ _ _).trans (State.team_setPipe _ _ _ _ _ _ _ _)
  · refine (State.entry_setEntry_same _ _ _ _ _).trans ?_
    rw [show (s.iss c sl e i).core = c from rfl, show (s.iss c sl e i).slot = sl from rfl,
      show (s.iss c sl e i).entry = e from rfl, State.entry_setPipe]

/-- The team after an instruction that writes no register: what is over of earlier results goes. -/
def Iss.aged (x : Iss) (y : Team) : Team :=
  { y with late := y.late.filter fun r => decide (x.cyc < r.avail), busy := y.busy.filter fun b => decide (x.cyc < b.till) }

/-- Nothing is written by an empty effect. -/
theorem Iss.commit_idle (s s1 : State) (c sl e : Nat) (i : Instr) (ht : (s1.entry c sl e).team = (s.entry c sl e).team) :
    OnlyEntry s1 ((s.iss c sl e i).commit s1 {}) c sl e ∧
      ((s.iss c sl e i).commit s1 {}).entry c sl e = s1.entry c sl e ∧
      ((s.iss c sl e i).commit s1 {}).team c sl (s.entry c sl e).team =
        (s.iss c sl e i).aged (s1.team c sl (s.entry c sl e).team) := by
  have key : (s.iss c sl e i).commit s1 {} =
      State.setTeam { s1 with fresh := ((s.iss c sl e i).commit s1 {}).fresh } c sl (s1.entry c sl e).team
        ((s.iss c sl e i).aged (s1.team c sl (s.entry c sl e).team)) := by
    have hbusy : (s.iss c sl e i).busyOf s1.fresh {} = [] := by simp [Iss.busyOf]
    have hflags : Eff.union {} = 0 := rfl
    rw [commit_eq, ht]
    simp [hbusy, hflags, Iss.aged, show (s.iss c sl e i).core = c from rfl, show (s.iss c sl e i).slot = sl from rfl,
      show (s.iss c sl e i).e.team = (s.entry c sl e).team from rfl]
  refine ⟨?_, ?_, ?_⟩
  · rw [key]
    exact State.onlyEntry_setTeam _ _ _ _ _ _
  · rw [key, State.entry_setTeam]
    rfl
  · rw [key, ht, State.team_setTeam_same]

/-- An instruction that writes no register, over a state in which its entry is as it was: the sub-team goes on. -/
theorem finish_go (hy : s1.entry c sl e = s.entry c sl e) :
    let t := (s.iss c sl e i).finish s [] (.go s1 {})
    OnlyEntry s1 t c sl e ∧ t.entry c sl e = (s.iss c sl e i).onward (s.entry c sl e) (s.iss c sl e i).npc ∧
      team t c sl e = (s.iss c sl e i).aged (s1.team c sl (s.entry c sl e).team) := by
  intro t
  obtain ⟨hco, hce, hct⟩ := Iss.commit_idle s s1 c sl e i (by rw [hy])
  obtain ⟨hgo, hgt, hge⟩ := Iss.charge_goes s ((s.iss c sl e i).commit s1 {}) c sl e i (s.iss c sl e i).npc
  have ht : t = (s.iss c sl e i).charge ((s.iss c sl e i).commit s1 {}) [] (s.iss c sl e i).npc none := rfl
  have hent : t.entry c sl e = (s.iss c sl e i).onward (s.entry c sl e) (s.iss c sl e i).npc := by rw [ht, hge, hce, hy]
  refine ⟨ht ▸ hco.trans hgo (by rw [hce]), hent, ?_⟩
  rw [Said.team, hent, ht, hgt]
  exact hct

/-- An instruction that falls asleep, over a state in which its entry is as it was. -/
theorem finish_sleep (w : Wait) (hy : s1.entry c sl e = s.entry c sl e) :
    let t := (s.iss c sl e i).finish s [] (.sleep s1 w)
    OnlyEntry s1 t c sl e ∧ t.entry c sl e = (s.iss c sl e i).asleep (s.entry c sl e) w ∧
      team t c sl e = s1.team c sl (s.entry c sl e).team := by
  intro t
  obtain ⟨hso, hst, hse⟩ := Iss.charge_sleeps s s1 c sl e i w
  have hent : t.entry c sl e = (s.iss c sl e i).asleep (s.entry c sl e) w := by rw [← hy]; exact hse
  refine ⟨hso, hent, ?_⟩
  rw [Said.team, hent]
  exact hst _ _ _

theorem goes_of_onward {t : State} (h : t.entry c sl e = (s.iss c sl e i).onward (s.entry c sl e) (s.iss c sl e i).npc) :
    Goes s t c sl e i := by
  simp only [Goes, h]
  exact ⟨rfl, rfl, rfl, rfl⟩

theorem sleeps_of_asleep {t : State} {w : Wait} (h : t.entry c sl e = (s.iss c sl e i).asleep (s.entry c sl e) w) :
    Sleeps s t c sl e i w := by
  simp only [Sleeps, h]
  exact ⟨rfl, rfl, rfl, rfl⟩

theorem sameTeam_of_aged {t : State} (h : team t c sl e = (s.iss c sl e i).aged (team s c sl e)) : SameTeam s t c sl e := by
  simp only [SameTeam, h]
  exact ⟨rfl, rfl, rfl, rfl, rfl, rfl⟩

theorem sameTeam_of_eq {t : State} (h : team t c sl e = team s c sl e) : SameTeam s t c sl e := by
  simp only [SameTeam, h, and_self]

end Team

/-! ### The control stream -/

section Ctl

variable {s : State} {cl : Nat} {i : Instr}

/-- c registers with nothing under way (R185). -/
theorem rc_eq (h : CClear s cl i) (r : BitVec 8) : (s.ciss cl i).rc r = creg s cl r := by
  have hq : ∀ cur, lateRead (s.ctl cl).late .s r.toNat 0 (s.ctl cl).cycle cur = cur := lateRead_quiet h.quiet _ _ _
  have hz : r.toNat = 0 ↔ r = 0 := by rw [← BitVec.toNat_inj]; rfl
  simp only [CIss.rc, State.ciss, Control.readC, hq, creg, hz]

/-- The checks of the control stream fail in none (R183). -/
theorem CIss.checks_eq (h : CClear s cl i) (hst : (streamsOf (op9Of i)).2 = true) : (s.ciss cl i).checks false false = none := by
  have hundef : (s.ciss cl i).undef = false := by
    simp only [CIss.undef, State.ciss, hst, h.guard, Bool.not_true, Bool.false_or, ne_eq, not_true, decide_false, List.any_eq_false]
    intro u hu
    rcases h.regs u hu with ⟨hs, hle⟩ | hh
    · simp [hs, hle]
    · simp [hh]
  have hearly : (s.ciss cl i).early = none := by
    unfold CIss.early
    split
    · rfl
    · rw [Option.map_eq_none_iff, List.find?_eq_none]
      intro r hr
      have hq : r.avail ≤ (s.ciss cl i).x.cycle := h.quiet r hr
      simp [show ¬ (s.ciss cl i).x.cycle < r.avail by omega]
  simp [CIss.checks, hundef, hearly, h.marks]

/-- Where nothing stops it, an instruction of both streams does its own work in the control stream (R183). -/
theorem bothStreams_ctl_eq (h : CClear s cl i) (hst : (streamsOf (op9Of i)).2 = true) (bad priv : Iss → Bool) (work : Iss → Act)
    {cbad : CIss → Bool} (hb : cbad (s.ciss cl i) = false) (cwork : CIss → CAct) :
    bothStreams i s bad priv work cbad never cwork = .next ((s.ciss cl i).finish s (cwork (s.ciss cl i))) := by
  have hchecks : (s.ciss cl i).checks (cbad (s.ciss cl i)) (never (s.ciss cl i)) = none := by
    rw [hb, never, CIss.checks_eq h hst]
  unfold bothStreams State.issueCtl
  rw [h.cur]
  dsimp only
  rw [hchecks]

/-- The stream goes on at `pc` after its pass and its stall count (R50). -/
theorem CIss.charge_goes (y : CIss) (s1 : State) (pc : Word) :
    y.charge s1 pc none = s1.setCtl y.cl { s1.ctl y.cl with
      pc := pc, npc := pc, ibuf := none, till := y.x.cycle + 1 + y.h.stall.toNat, free := y.x.cycle + 1,
      st := .stalled (y.x.cycle + 1 + y.h.stall.toNat) } := rfl

/-- Without a c register to write, only what is over of earlier results goes. -/
theorem CIss.commit_idle (y : CIss) (s1 : State) :
    y.commit s1 [] = s1.setCtl y.cl { s1.ctl y.cl with late := (s1.ctl y.cl).late.filter fun r => decide (y.x.cycle < r.avail) } := by
  simp [CIss.commit]

/-- An instruction that writes no c register goes on. -/
theorem CIss.finish_go_goes (s1 : State) : CGoes s ((s.ciss cl i).finish s (.go s1 [])) cl i := by
  simp only [CIss.finish, CIss.charge_goes, CGoes, show (s.ciss cl i).cl = cl from rfl, State.ctl_setCtl_same]
  exact ⟨rfl, trivial⟩

end Ctl

end Sys2Proof.Machine
end

section
/-! Fusion at a join (R55, R199): which entries are siblings, what an unspilled stack gives, and the two ways in which a JOIN ends. -/

namespace Sys2Proof.Machine

open Sys2Proof Sys2Proof.Said

/-! ### Entries replaced in place -/

/-- A listed value replaced by one that a test does not tell from it: the same keys pass the test. -/
theorem Store.filter_keys_put {α : Type} (p : Nat × α → Bool) {m : Store α} {k : Nat} {v w : α} (hv : Store.look m k = some v)
    (hp : p (k, w) = p (k, v)) : ((Store.put m k w).filter p).map Prod.fst = (m.filter p).map Prod.fst := by
  induction m with
  | nil => cases hv
  | cons x r ih =>
    obtain ⟨a, b⟩ := x
    simp only [Store.look] at hv
    simp only [Store.put]
    split at hv
    · cases hv
    · split at hv
      · next hak =>
        subst hak
        obtain rfl := Option.some.inj hv
        simp only [Nat.lt_irrefl, if_false, if_true, List.filter_cons, hp]
        split <;> rfl
      · next hka hak =>
        rw [if_pos (by omega), List.filter_cons, List.filter_cons]
        split
        · rw [List.map_cons, List.map_cons, ih hv]
        · exact ih hv

/-- An entry replaced by one of its team leaves every team its entries. -/
theorem State.entriesOf_setEntry {s : State} {c sl e : Nat} {y x : Entry} (hy : s.entry? c sl e = some y) (hx : x.team = y.team)
    (t : Nat) : ((s.setEntry c sl e x).slot c sl).entriesOf t = (s.slot c sl).entriesOf t := by
  rw [State.setEntry, State.slot_setSlot_same]
  exact Store.filter_keys_put (w := x) (fun z => z.2.team == t) hy (by simp only [hx])

theorem State.entriesOf_setPipe (s : State) (c sl f : Nat) (l : List Nat) (t : Nat) :
    ((s.setSlot c sl { s.slot c sl with free := f, leaves := l }).slot c sl).entriesOf t = (s.slot c sl).entriesOf t := by
  rw [State.slot_setSlot_same]
  rfl

/-- The siblings stay the same where the entries of the team and their stacks do. -/
theorem State.siblings_congr {s u : State} {c sl t : Nat} (hids : (u.slot c sl).entriesOf t = (s.slot c sl).entriesOf t)
    (hst : ∀ n, (u.entry c sl n).stack = (s.entry c sl n).stack) (id : BitVec 16) : u.siblings c sl t id = s.siblings c sl t id := by
  simp only [State.siblings, hids, hst]

/-! ### Waiting at the join of a split -/

/-- Whether an entry waits at the join of a split. -/
def Entry.waitsAt (x : Entry) (id : BitVec 16) : Bool :=
  x.st == .atJoin && (match x.stack with | y :: _ => y.isJoin && y.split == id | [] => false)

theorem State.waiting_eq (s : State) (c sl t : Nat) (id : BitVec 16) :
    s.waiting c sl t id = (s.siblings c sl t id).filter fun n => (s.entry c sl n).waitsAt id := rfl

/-- Siblings of which one does not wait do not fuse. -/
theorem State.fusable_of_absent {s : State} {c sl t n : Nat} {id : BitVec 16} (hn : n ∈ s.siblings c sl t id)
    (hw : (s.entry c sl n).waitsAt id = false) : s.fusable c sl t id = false := by
  have hlt : (s.waiting c sl t id).length < (s.siblings c sl t id).length := by
    rw [State.waiting_eq, List.length_filter_lt_length_iff_exists]
    exact ⟨n, hn, by simp [hw]⟩
  unfold State.fusable
  split
  · rfl
  · next m rest hs =>
    rw [hs, List.length_cons] at hlt
    simp [show (s.waiting c sl t id).length ≠ rest.length + 1 by omega]

/-- Siblings that all wait, in one version and before one PC, fuse. -/
theorem State.fusable_of_all {s : State} {c sl t n : Nat} {rest : List Nat} {id : BitVec 16} (hs : s.siblings c sl t id = n :: rest)
    (hw : ∀ m ∈ n :: rest, (s.entry c sl m).waitsAt id = true)
    (hr : ∀ m ∈ rest, (s.entry c sl m).version = (s.entry c sl n).version ∧ (s.entry c sl m).npc = (s.entry c sl n).npc) :
    s.fusable c sl t id = true := by
  have hall : s.waiting c sl t id = n :: rest := by rw [State.waiting_eq, hs, List.filter_eq_self.2 hw]
  simp only [State.fusable, hs, hall, List.length_cons, beq_self_eq_true, Bool.true_and, List.all_eq_true, Bool.and_eq_true, beq_iff_eq]
  exact hr

/-! ### The parts of a fusion -/

theorem State.tryFuse_waits {s : State} {c sl t till : Nat} {id : BitVec 16} (h : s.fusable c sl t id = false) :
    s.tryFuse c sl t id till = s := by
  unfold State.tryFuse
  simp only [h, Bool.not_false, if_true]
  split <;> rfl

/-- A stack of which no entry is spilled is at hand as it is. -/
theorem State.loadStack_resident {s : State} {c sl e : Nat} (h : ∀ y ∈ (s.entry c sl e).stack, y.spill = false) (n : Nat) :
    s.loadStack c sl e n = s := by
  unfold State.loadStack
  induction List.range n with
  | nil => rfl
  | cons j js ih =>
    rw [List.foldl_cons]
    split
    · next y hy => simpa [h y (List.mem_of_getElem? hy)] using ih
    · exact ih

theorem State.popTop_entry (s : State) (c sl e : Nat) :
    (s.popTop c sl e).entry c sl e =
      { s.entry c sl e with stack := (s.entry c sl e).stack.drop 1, segs := ((s.popTop c sl e).entry c sl e).segs } := by
  simp only [State.popTop, State.entry_setEntry_same]

theorem State.entry?_delEntry (s : State) (c sl e n : Nat) :
    (s.delEntry c sl e).entry? c sl n = if n = e then none else s.entry? c sl n := by
  simp only [State.entry?, State.delEntry, State.slot_setSlot_same]
  split
  · next h => rw [h, Store.look_erase_same]
  · next h => exact Store.look_erase_other _ _ _ h

theorem State.entry_delEntry_other (s : State) {c sl e n : Nat} (h : n ≠ e) :
    (s.delEntry c sl e).entry c sl n = s.entry c sl n := by
  simp only [State.entry, Store.get, State.delEntry, State.slot_setSlot_same]
  rw [Store.look_erase_other _ _ _ h]

theorem State.team_delEntry (s : State) (c sl e t : Nat) : (s.delEntry c sl e).team c sl t = s.team c sl t := by
  simp only [State.team, State.delEntry, State.slot_setSlot_same]

/-- The freed siblings of a fusion: each is gone, and its loads are the staying entry's. -/
def State.absorb (s : State) (c sl t n : Nat) (rest : List Nat) : State :=
  rest.foldl (fun s i => (s.moveOwners (.team c sl t) i n).delEntry c sl i) s

theorem State.absorb_spec {c sl t n : Nat} {rest : List Nat} (s : State) (hn : n ∉ rest) :
    (s.absorb c sl t n rest).entry c sl n = s.entry c sl n ∧
      (∀ m, (s.absorb c sl t n rest).team c sl m = s.team c sl m) ∧
      (∀ i, i ∈ rest ∨ s.entry? c sl i = none → (s.absorb c sl t n rest).entry? c sl i = none) := by
  unfold State.absorb
  induction rest generalizing s with
  | nil => exact ⟨rfl, fun _ => rfl, fun i hi => hi.resolve_left (by simp)⟩
  | cons b rest ih =>
    rw [List.mem_cons, not_or] at hn
    obtain ⟨hent, hteam, hgone⟩ := ih ((s.moveOwners (.team c sl t) b n).delEntry c sl b) hn.2
    rw [List.foldl_cons]
    refine ⟨?_, fun m => ?_, fun i hi => hgone i ?_⟩
    · rw [hent, State.entry_delEntry_other _ hn.1]
      rfl
    · rw [hteam, State.team_delEntry]
      rfl
    · rw [State.entry?_delEntry]
      rw [List.mem_cons] at hi
      by_cases hib : i = b
      · exact .inr (if_pos hib)
      · rw [if_neg hib]
        exact hi.imp_left fun h => h.resolve_left hib

/-- A search of a list in which every step finds nothing. -/
theorem foldl_none {α β : Type} {f : Option α → β → Option α} (l : List β) (h : ∀ i ∈ l, f none i = none) : l.foldl f none = none := by
  induction l with
  | nil => rfl
  | cons i l ih => rw [List.foldl_cons, h i (by simp), ih fun k hk => h k (by simp [hk])]

/-- The lanes of a fusion: those accumulated in the join entry, and those of each sibling. -/
def State.fusedMask (s : State) (c sl n : Nat) (j : StkEntry) (all : List Nat) : List Word :=
  all.foldl (fun m i => maskOr m (s.entry c sl i).mask)
    (if j.words.isEmpty then List.replicate (s.entry c sl n).mask.length 0 else j.words)

/-- The lowest sibling with the lanes of all, its join entry popped. -/
def State.gather (s : State) (c sl n : Nat) (mask : List Word) : State :=
  (s.setEntry c sl n { s.entry c sl n with mask := mask, pend := none, preqs := [] }).popTop c sl n

/-- A sub-team set behind its join, at a PC. -/
def State.pastJoin (s : State) (c sl n : Nat) (pc : Word) (till : Nat) : State :=
  let s1 := s.setEntry c sl n { s.entry c sl n with pc := pc, npc := pc, ibuf := none, st := .ready, ustep := 0 }
  s1.stallTo c sl n (max till (s1.slot c sl).free)

/-- Siblings with resident stacks, none of them pending, in the version in which their split was made, fuse without a transfer. -/
theorem State.tryFuse_eq {s : State} {c sl t n till : Nat} {rest : List Nat} {id : BitVec 16} {j : StkEntry} {below : List StkEntry}
    (hs : s.siblings c sl t id = n :: rest) (hf : s.fusable c sl t id = true) (hstk : (s.entry c sl n).stack = j :: below)
    (hres : ∀ y ∈ (s.entry c sl n).stack, y.spill = false) (hver : BitVec.ofNat 3 j.pc.toNat = (s.entry c sl n).version)
    (hpend : ∀ i ∈ n :: rest, (s.entry c sl i).pend = none) :
    s.tryFuse c sl t id till =
      ((s.absorb c sl t n rest).gather c sl n (s.fusedMask c sl n j (n :: rest))).pastJoin c sl n (s.entry c sl n).npc till := by
  unfold State.tryFuse
  simp only [hs, hf, Bool.not_true, Bool.false_eq_true, if_false, State.loadStack_resident hres, hstk]
  rw [foldl_none _ fun i hi => hpend i hi]
  simp only [hver, ne_eq, not_true, decide_false, Bool.false_eq_true, if_false, Option.isSome_none]
  rfl

/-- What a fusion without a transfer leaves: the lowest sibling goes on past the join with everybody's lanes, the others are freed. -/
structure Fused (s u : State) (c sl n : Nat) (rest : List Nat) (mask : List Word) (below : List StkEntry) : Prop where
  pc : (u.entry c sl n).pc = (s.entry c sl n).npc
  mask : (u.entry c sl n).mask = mask
  stack : (u.entry c sl n).stack = below
  version : (u.entry c sl n).version = (s.entry c sl n).version
  safept : (u.entry c sl n).safept = (s.entry c sl n).safept
  stalled : (u.entry c sl n).st = .stalled (u.entry c sl n).till
  freed : ∀ i ∈ rest, u.entry? c sl i = none
  teams : ∀ m, u.team c sl m = s.team c sl m

theorem State.tryFuse_fuses {s : State} {c sl t n till : Nat} {rest : List Nat} {id : BitVec 16} {j : StkEntry} {below : List StkEntry}
    (hs : s.siblings c sl t id = n :: rest) (hn : n ∉ rest) (hf : s.fusable c sl t id = true) (hstk : (s.entry c sl n).stack = j :: below)
    (hres : ∀ y ∈ (s.entry c sl n).stack, y.spill = false) (hver : BitVec.ofNat 3 j.pc.toNat = (s.entry c sl n).version)
    (hpend : ∀ i ∈ n :: rest, (s.entry c sl i).pend = none) :
    Fused s (s.tryFuse c sl t id till) c sl n rest (s.fusedMask c sl n j (n :: rest)) below := by
  obtain ⟨hent, hteam, hgone⟩ := s.absorb_spec (c := c) (sl := sl) (t := t) hn
  rw [State.tryFuse_eq hs hf hstk hres hver hpend]
  constructor
  case freed =>
    intro i hi
    have hne : i ≠ n := fun h => hn (h ▸ hi)
    simp [State.pastJoin, State.stallTo, State.gather, State.popTop, State.entry?_setEntry, hne, hgone i (.inl hi)]
  all_goals simp [State.pastJoin, State.stallTo, State.gather, State.popTop, hent, hteam, hstk]

/-! ### JOIN with its join entry on top (R199) -/

section Join

variable {s : State} {c sl e : Nat} {i : Instr} {k : BitVec 12} {j : StkEntry} {r : List StkEntry}

/-- The entry of a sub-team that has come to its join. -/
def Iss.joinEntry (x : Iss) (k : BitVec 12) : Entry :=
  { x.e with safept := k, npc := x.npc, till := x.till, st := .atJoin, brkSkip := false, yielded := x.e.yielded || x.h.yld }

/-- The state in which the sub-team stands at its join, its passes charged. -/
def Iss.standing (x : Iss) (s : State) (k : BitVec 12) : State :=
  (x.passes (s.setEntry x.core x.slot x.entry { x.e with safept := k })).setEntry x.core x.slot x.entry (x.joinEntry k)

theorem Iss.standing_entry (s : State) (c sl e : Nat) (i : Instr) (k : BitVec 12) (n : Nat) :
    ((s.iss c sl e i).standing s k).entry c sl n = if n = e then (s.iss c sl e i).joinEntry k else s.entry c sl n := by
  simp only [Iss.standing, Iss.passes, show (s.iss c sl e i).core = c from rfl, show (s.iss c sl e i).slot = sl from rfl,
    show (s.iss c sl e i).entry = e from rfl, State.entry_setEntry, State.entry_setPipe, true_and]
  split <;> rfl

theorem Iss.standing_team (s : State) (c sl e : Nat) (i : Instr) (k : BitVec 12) (n : Nat) :
    ((s.iss c sl e i).standing s k).team c sl n = s.team c sl n := by
  simp only [Iss.standing, Iss.passes, State.team_setEntry]
  exact (State.team_setPipe _ _ _ _ _ _ _ _).trans (State.team_setEntry _ _ _ _ _ _ _ _)

theorem Iss.standing_siblings (hy : s.entry? c sl e = some (s.entry c sl e)) (i : Instr) (k : BitVec 12) (t : Nat) (id : BitVec 16) :
    ((s.iss c sl e i).standing s k).siblings c sl t id = s.siblings c sl t id := by
  apply State.siblings_congr
  · have hp : ((s.iss c sl e i).passes (s.setEntry c sl e { s.entry c sl e with safept := k })).entry? c sl e =
        some { s.entry c sl e with safept := k } := by
      rw [Iss.passes]
      exact (State.entry?_setPipe _ _ _ _ _ _ _ _).trans (by simp [State.entry?_setEntry])
    refine (State.entriesOf_setEntry (x := (s.iss c sl e i).joinEntry k) hp rfl t).trans ?_
    rw [Iss.passes]
    refine Eq.trans ?_ (State.entriesOf_setEntry (x := { s.entry c sl e with safept := k }) hy rfl t)
    exact State.entriesOf_setPipe _ _ _ _ _ _
  · intro n
    rw [Iss.standing_entry]
    split
    · next hn => rw [hn]; rfl
    · rfl

/-- A JOIN whose join entry is on top, with no transfer to make first, comes to its join and fuses where it can. -/
theorem Iss.join_eq (hstk : (s.entry c sl e).stack = j :: r) (hj : j.kind = 0) (hk : j.k = k)
    (htgt : (s.setEntry c sl e { s.entry c sl e with safept := k }).joinTarget c sl e k = none) :
    (s.iss c sl e i).join s k =
      .done (((s.iss c sl e i).standing s k).tryFuse c sl (s.entry c sl e).team j.split (s.iss c sl e i).till) := by
  have hstk' : (s.iss c sl e i).e.stack = j :: r := hstk
  have htgt' : (s.setEntry (s.iss c sl e i).core (s.iss c sl e i).slot (s.iss c sl e i).entry
    { (s.iss c sl e i).e with safept := k }).joinTarget (s.iss c sl e i).core (s.iss c sl e i).slot (s.iss c sl e i).entry k = none := htgt
  have hjoin : (j.isJoin && j.k == k) = true := by simp [StkEntry.isJoin, hj, hk]
  have hent : ((s.iss c sl e i).passes (s.setEntry c sl e { s.entry c sl e with safept := k })).entry c sl e =
      { s.entry c sl e with safept := k } := by
    rw [Iss.passes]
    exact (State.entry_setPipe _ _ _ _ _ _ _ _).trans (State.entry_setEntry_same _ _ _ _ _)
  unfold Iss.join
  split
  · next hnil => rw [hstk'] at hnil; cases hnil
  · next j' below hcons =>
    rw [hstk'] at hcons
    obtain ⟨rfl, rfl⟩ := List.cons.inj hcons
    rw [if_pos hjoin]
    dsimp only
    rw [htgt']
    dsimp only [Iss.atJoin]
    simp only [show (s.iss c sl e i).core = c from rfl, show (s.iss c sl e i).slot = sl from rfl,
      show (s.iss c sl e i).entry = e from rfl, show (s.iss c sl e i).e = s.entry c sl e from rfl, hent]
    rfl

/-- The target of a JOIN where nothing is pending: none, unless a sibling of another version waits at the join. -/
theorem joinTarget_none (hstk : (s.entry c sl e).stack = j :: r) (hj : j.kind = 0) (hk : j.k = k) (hpend : (s.entry c sl e).pend = none)
    (hw : ∀ n ∈ s.waiting c sl (s.entry c sl e).team j.split, (s.entry c sl n).version = (s.entry c sl e).version) :
    s.joinTarget c sl e k = none := by
  have hjoin : (j.isJoin && j.k == k) = true := by simp [StkEntry.isJoin, hj, hk]
  simp only [State.joinTarget, hstk, hjoin, if_true]
  split
  · next n l hl => rw [if_pos (hw n (by rw [hl]; simp))]
  · simp [Entry.target, hpend]

/-- JOIN as the stream issues it. -/
theorem exec_join_eq (h : Clear s c sl e i) (hi : (∃ h, i = .join h k) ∨ (∃ h, i = .joinShort h k)) :
    exec i s = .next ((s.iss c sl e i).finish s [] ((s.iss c sl e i).join s k)) := by
  rcases hi with ⟨hd, rfl⟩ | ⟨hd, rfl⟩
  · exact teamOnly_eq h rfl rfl fun x => x.join s k
  · exact teamOnly_eq h rfl rfl fun x => x.join s k

end Join

/-! ### The statement -/

section Statement

variable {s : State} {c sl e : Nat} {i : Instr} {k : BitVec 12} {j : StkEntry} {r : List StkEntry}

/-- The sub-team that stands at its join waits at the join of the split on top of its stack. -/
theorem Iss.standing_waitsAt_self (hstk : (s.entry c sl e).stack = j :: r) (hj : j.kind = 0) :
    (((s.iss c sl e i).standing s k).entry c sl e).waitsAt j.split = true := by
  have hstk' : (s.iss c sl e i).e.stack = j :: r := hstk
  rw [Iss.standing_entry, if_pos rfl]
  simp [Entry.waitsAt, Iss.joinEntry, hstk', StkEntry.isJoin, hj]

/-- Replacing the safe point of an entry changes neither the siblings nor who waits. -/
theorem waiting_setSafept (hy : s.entry? c sl e = some (s.entry c sl e)) (k : BitVec 12) (t : Nat) (id : BitVec 16) :
    (s.setEntry c sl e { s.entry c sl e with safept := k }).waiting c sl t id = s.waiting c sl t id := by
  have hent : ∀ n, (s.setEntry c sl e { s.entry c sl e with safept := k }).entry c sl n =
      if n = e then { s.entry c sl e with safept := k } else s.entry c sl n := by
    intro n
    rw [State.entry_setEntry]
    simp only [true_and]
  have hsib : (s.setEntry c sl e { s.entry c sl e with safept := k }).siblings c sl t id = s.siblings c sl t id := by
    refine State.siblings_congr (State.entriesOf_setEntry (x := { s.entry c sl e with safept := k }) hy rfl t) (fun n => ?_) id
    rw [hent]
    split
    · next hn => rw [hn]
    · rfl
  rw [State.waiting_eq, State.waiting_eq, hsib]
  refine List.filter_congr fun n _ => ?_
  rw [hent]
  split
  · next hn => rw [hn]; rfl
  · rfl

/-- Where nothing is pending and no sibling of another version waits, a JOIN comes to its join and fuses where it can. -/
theorem exec_join_fuses (h : Clear s c sl e i) (hi : (∃ h, i = .join h k) ∨ (∃ h, i = .joinShort h k))
    (hy : s.entry? c sl e = some (s.entry c sl e)) (hstk : (s.entry c sl e).stack = j :: r) (hj : j.kind = 0) (hk : j.k = k)
    (hpend : (s.entry c sl e).pend = none)
    (hw : ∀ n ∈ s.waiting c sl (s.entry c sl e).team j.split, n ≠ e ∧ (s.entry c sl n).version = (s.entry c sl e).version) :
    exec i s = .next (((s.iss c sl e i).standing s k).tryFuse c sl (s.entry c sl e).team j.split (s.iss c sl e i).till) := by
  rw [exec_join_eq h hi, Iss.join_eq hstk hj hk]
  · rfl
  · apply joinTarget_none (j := j) (r := r) (by rw [State.entry_setEntry_same]; exact hstk) hj hk
      (by rw [State.entry_setEntry_same]; exact hpend)
    rw [State.entry_setEntry_same, waiting_setSafept hy]
    intro n hn
    obtain ⟨hne, hv⟩ := hw n hn
    rw [State.entry_setEntry, if_neg fun h => hne h.2.2, hv]

/-- A JOIN with a sibling that is not there waits. -/
theorem exec_join_waits (h : Clear s c sl e i) (hi : (∃ h, i = .join h k) ∨ (∃ h, i = .joinShort h k))
    (hy : s.entry? c sl e = some (s.entry c sl e)) (hstk : (s.entry c sl e).stack = j :: r) (hj : j.kind = 0) (hk : j.k = k)
    (hpend : (s.entry c sl e).pend = none) (hw : s.waiting c sl (s.entry c sl e).team j.split = []) {n : Nat}
    (hn : n ∈ s.siblings c sl (s.entry c sl e).team j.split) (hne : n ≠ e) :
    exec i s = .next ((s.iss c sl e i).standing s k) := by
  rw [exec_join_fuses h hi hy hstk hj hk hpend (by simp [hw]), State.tryFuse_waits]
  have habsent : (s.entry c sl n).waitsAt j.split = false := by
    rw [State.waiting_eq, List.filter_eq_nil_iff] at hw
    simpa using hw n hn
  refine State.fusable_of_absent (n := n) ?_ ?_
  · rw [Iss.standing_siblings hy]
    exact hn
  · rw [Iss.standing_entry, if_neg hne]
    exact habsent

/-- The lanes of two masks of one length together. -/
theorem inMask_maskOr {a b : List Word} (h : a.length = b.length) (l : Nat) : inMask (maskOr a b) l = (inMask a l || inMask b l) := by
  simp only [inMask, maskOr, List.getD_eq_getElem?_getD, List.getElem?_zipWith]
  by_cases hl : l / 32 < a.length
  · rw [List.getElem?_eq_getElem hl, List.getElem?_eq_getElem (h ▸ hl)]
    simp
  · rw [List.getElem?_eq_none (by omega), List.getElem?_eq_none (by omega)]
    simp

theorem maskOr_length {a b : List Word} (h : a.length = b.length) : (maskOr a b).length = a.length := by
  simp [maskOr, h]

/-- The lanes of two siblings joined to those accumulated in their join entry. -/
theorem inMask_fused {w a b : List Word} (hw : w = [] ∨ w.length = a.length) (hb : b.length = a.length) (l : Nat) :
    inMask (maskOr (maskOr (if w.isEmpty then List.replicate a.length 0 else w) a) b) l = (inMask w l || inMask a l || inMask b l) := by
  have hlen : (if w.isEmpty then List.replicate a.length 0 else w).length = a.length := by
    rcases hw with rfl | hw
    · simp
    · split <;> simp [hw]
  have hbase : inMask (if w.isEmpty then List.replicate a.length 0 else w) l = inMask w l := by
    split
    · next hnil => simp [List.isEmpty_iff.1 hnil, inMask]
    · rfl
  rw [inMask_maskOr (by rw [maskOr_length hlen, hlen, hb]), inMask_maskOr hlen, hbase]

end Statement

/-- Two siblings of one version before one PC, of which one waits as the other comes to the join, both there. -/
structure BothThere (s : State) (c sl e : Nat) (i : Instr) (k : BitVec 12) (id : BitVec 16) (m : Nat) : Prop where
  stack : (((s.iss c sl e i).standing s k).entry c sl m).stack = (s.entry c sl m).stack
  mask : (((s.iss c sl e i).standing s k).entry c sl m).mask = (s.entry c sl m).mask
  version : (((s.iss c sl e i).standing s k).entry c sl m).version = (s.entry c sl e).version
  npc : (((s.iss c sl e i).standing s k).entry c sl m).npc = nextPc s c sl e i
  pend : (((s.iss c sl e i).standing s k).entry c sl m).pend = (s.entry c sl m).pend
  waits : (((s.iss c sl e i).standing s k).entry c sl m).waitsAt id = true

theorem bothThere {s : State} {c sl e n m : Nat} {i : Instr} {k : BitVec 12} {j : StkEntry} {r : List StkEntry}
    (hstk : (s.entry c sl e).stack = j :: r) (hj : j.kind = 0) (hne : n ≠ e)
    (hw : s.waiting c sl (s.entry c sl e).team j.split = [n]) (hver : (s.entry c sl n).version = (s.entry c sl e).version)
    (hnpc : (s.entry c sl n).npc = nextPc s c sl e i) (hm : m = e ∨ m = n) : BothThere s c sl e i k j.split m := by
  rcases hm with rfl | rfl
  · have hent : ((s.iss c sl m i).standing s k).entry c sl m = (s.iss c sl m i).joinEntry k := by rw [Iss.standing_entry, if_pos rfl]
    refine ⟨?_, ?_, ?_, ?_, ?_, Iss.standing_waitsAt_self hstk hj⟩ <;> (rw [hent]; rfl)
  · have hent : ((s.iss c sl e i).standing s k).entry c sl m = s.entry c sl m := by rw [Iss.standing_entry, if_neg hne]
    have hwait : (s.entry c sl m).waitsAt j.split = true := by
      have hmem : m ∈ s.waiting c sl (s.entry c sl e).team j.split := by rw [hw]; simp
      rw [State.waiting_eq, List.mem_filter] at hmem
      exact hmem.2
    constructor <;> rw [hent]
    exacts [hver, hnpc, hwait]

/-- Settles O14: a JOIN comes to its join in one way only (`exec_join_fuses`); a sibling that is not there keeps the team from fusing,
and siblings that all wait fuse into the lowest one (`State.tryFuse_fuses`). -/
theorem joinWaitsOrFuses : Obligations.JoinWaitsOrFuses := by
  unfold Obligations.JoinWaitsOrFuses
  refine ⟨fun s c sl e i k j r hi h hy hstk hj hk hres hpend hw => ⟨fun hother => ?_, fun hlast hver hwords => ?_⟩,
    fun s c sl e n a b i k j ja r ra hi h hy hstk hj hk hne hab hsib hw hmem hver hnpc hstka hvera hlen hlena => ?_⟩
  · obtain ⟨n, hn, hne⟩ := hother
    refine ⟨_, exec_join_waits h hi hy hstk hj hk hpend hw hn hne, ?_⟩
    rw [Iss.standing_entry, if_pos rfl]
    exact ⟨rfl, rfl, rfl, hstk, rfl⟩
  · have hent : ((s.iss c sl e i).standing s k).entry c sl e = (s.iss c sl e i).joinEntry k := by rw [Iss.standing_entry, if_pos rfl]
    have hs : ((s.iss c sl e i).standing s k).siblings c sl (s.entry c sl e).team j.split = e :: [] := by
      rw [Iss.standing_siblings hy, hlast]
    have hfused := State.tryFuse_fuses (till := (s.iss c sl e i).till) hs (by simp)
      (State.fusable_of_all hs (by simpa using Iss.standing_waitsAt_self hstk hj) (by simp)) (j := j) (below := r)
      (by rw [hent]; exact hstk) (by rw [hent]; exact hstk ▸ hres) (by rw [hent]; exact hver) (fun m hm => by rw [List.mem_singleton.1 hm, hent]; exact hpend)
    refine ⟨_, exec_join_fuses h hi hy hstk hj hk hpend (by simp [hw]), ?_, ?_, hfused.stack, ?_, hfused.stalled⟩
    · rw [hfused.pc, hent]; rfl
    · rw [hfused.safept, hent]; rfl
    · rw [hfused.mask]
      simp only [State.fusedMask, hent, List.foldl_cons, List.foldl_nil, List.isEmpty_iff, if_neg hwords]
      rfl
  · have ha : a = e ∨ a = n := by rcases hab with h | h <;> simp only [Prod.mk.injEq] at h <;> simp [h.1]
    have hb : b = e ∨ b = n := by rcases hab with h | h <;> simp only [Prod.mk.injEq] at h <;> simp [h.2]
    have hba : b ≠ a := by rcases hab with h | h <;> simp only [Prod.mk.injEq] at h <;> rw [h.1, h.2] <;> simp [hne, Ne.symm hne]
    have ua := bothThere (k := k) hstk hj hne hw hver hnpc ha
    have ub := bothThere (k := k) hstk hj hne hw hver hnpc hb
    have hs : ((s.iss c sl e i).standing s k).siblings c sl (s.entry c sl e).team j.split = a :: [b] := by
      rw [Iss.standing_siblings hy, hsib]
    have hfused := State.tryFuse_fuses (till := (s.iss c sl e i).till) (j := ja) (below := ra) hs (by simp [Ne.symm hba])
      (State.fusable_of_all hs (by simp [ua.waits, ub.waits]) (by simp [ua.version, ub.version, ua.npc, ub.npc]))
      (by rw [ua.stack, hstka]) (by rw [ua.stack]; exact (hmem a ha).2) (by rw [ua.version, hvera])
      (by simp [ua.pend, ub.pend, (hmem a ha).1, (hmem b hb).1])
    refine ⟨_, exec_join_fuses h hi hy hstk hj hk (hmem e (.inl rfl)).1 (by simp [hw, hne, hver]), hfused.freed b (by simp), ?_,
      hfused.stack, fun l => ?_, ?_, hfused.stalled, ?_⟩
    · rw [hfused.pc, ua.npc]
    · rw [hfused.mask]
      simp only [State.fusedMask, List.foldl_cons, List.foldl_nil, ua.mask, ub.mask]
      rcases hab with hab | hab <;> obtain ⟨rfl, rfl⟩ := Prod.mk.inj hab
      · rw [inMask_fused hlena hlen]
      · rw [inMask_fused (hlen ▸ hlena) hlen.symm, Bool.or_right_comm]
    · rw [hfused.version, ua.version]
    · rw [hfused.teams, Iss.standing_team]
      rfl

end Sys2Proof.Machine
end

section
/-! SUPPORT. Sleepers that a step wakes on the way (R61): what it changes is what waking changes, and no entry is woken but one that
slept. -/

namespace Sys2Proof.Machine

open Sys2Proof Sys2Proof.Said

/-! ### A list that is written at a key twice, and a key that is listed -/

theorem Store.put_put {α : Type} (m : Store α) (k : Nat) (v w : α) : Store.put (Store.put m k v) k w = Store.put m k w := by
  induction m with
  | nil => simp [Store.put]
  | cons x r ih =>
    obtain ⟨a, u⟩ := x
    simp only [Store.put]
    split
    · next h => simp [Store.put, h, ih]
    · split
      · simp [Store.put]
      · simp [Store.put]

theorem Store.mem_of_look {α : Type} {m : Store α} {k : Nat} {v : α} (h : Store.look m k = some v) : (k, v) ∈ m := by
  induction m with
  | nil => cases h
  | cons x r ih =>
    obtain ⟨a, u⟩ := x
    simp only [Store.look] at h
    split at h
    · cases h
    · split at h
      · next hak => rw [hak, Option.some.inj h]; exact List.mem_cons_self
      · exact List.mem_cons_of_mem _ (ih h)

/-- An entry that a slot of a core lists has its place among those of the core. -/
theorem State.mem_placesOn {s : State} {c sl e : Nat} {x : Entry} (h : s.entry? c sl e = some x) : (c, sl, e) ∈ s.placesOn c := by
  have hslot : ∃ y, Store.look (s.core c).slots sl = some y ∧ y.entries.look e = some x := by
    simp only [State.entry?, State.slot, Store.get] at h
    cases hl : Store.look (s.core c).slots sl with
    | none => rw [hl] at h; cases h
    | some y => exact ⟨y, rfl, by rw [hl] at h; exact h⟩
  obtain ⟨y, hy, hx⟩ := hslot
  simp only [State.placesOn, List.mem_flatMap, List.mem_map, Prod.mk.injEq]
  exact ⟨(sl, y), Store.mem_of_look hy, (e, x), Store.mem_of_look hx, by simp⟩

/-! ### Waking -/

@[simp] theorem State.cycle_setEntry (s : State) (c sl e : Nat) (x : Entry) (n : Nat) :
    ((s.setEntry c sl e x).core n).cycle = (s.core n).cycle := by
  rw [State.setEntry, State.core_setSlot]
  split
  · next h => rw [h]
  · rfl

/-- An entry as it is woken (R50, R61): at its next PC, ready or still stalled. -/
def Entry.woken (x : Entry) (now : Nat) : Entry :=
  if x.till ≤ now then { x with pc := x.npc, ibuf := none, ustep := 0, st := .ready, since := now, stamp := now }
  else { x with pc := x.npc, ibuf := none, ustep := 0, st := .stalled x.till }

/-- A control stream as it is woken. -/
def Control.woken (x : Control) : Control :=
  { x with pc := x.npc, ibuf := none, st := if x.till ≤ x.cycle then .ready else .stalled x.till }

theorem Entry.woken_pc (x : Entry) (now : Nat) : (x.woken now).pc = x.npc := by unfold Entry.woken; split <;> rfl

theorem Entry.woken_awake (x : Entry) (now : Nat) (w : Wait) : (x.woken now).st ≠ .asleep w := by
  unfold Entry.woken
  split <;> exact fun h => nomatch h

theorem Control.woken_awake (x : Control) (w : CWait) : x.woken.st ≠ .asleep w := by
  unfold Control.woken
  split <;> exact fun h => nomatch h

/-- Nothing has changed but entries and control streams that slept, which have been woken. -/
structure Woken (s t : State) : Prop where
  rest : t = { s with cores := t.cores, ctls := t.ctls }
  cores : ∀ n, t.core n = { s.core n with slots := (t.core n).slots }
  teams : ∀ c sl n, t.team c sl n = s.team c sl n
  entries : ∀ c sl e, t.entry c sl e = s.entry c sl e ∨
    ((∃ w, (s.entry c sl e).st = .asleep w) ∧ t.entry c sl e = (s.entry c sl e).woken (s.core c).cycle)
  ctls : ∀ cl, t.ctl cl = s.ctl cl ∨ ((∃ w, (s.ctl cl).st = .asleep w) ∧ t.ctl cl = (s.ctl cl).woken)

theorem Woken.refl (s : State) : Woken s s := ⟨rfl, fun _ => rfl, fun _ _ _ => rfl, fun _ _ _ => .inl rfl, fun _ => .inl rfl⟩

/-- An entry that does not sleep stays as it is. -/
theorem Woken.entry_awake {s t : State} (h : Woken s t) {c sl e : Nat} (ha : ∀ w, (s.entry c sl e).st ≠ .asleep w) :
    t.entry c sl e = s.entry c sl e := by
  rcases h.entries c sl e with he | ⟨⟨w, hw⟩, -⟩
  · exact he
  · exact absurd hw (ha w)

theorem Woken.ctl_awake {s t : State} (h : Woken s t) {cl : Nat} (ha : ∀ w, (s.ctl cl).st ≠ .asleep w) : t.ctl cl = s.ctl cl := by
  rcases h.ctls cl with he | ⟨⟨w, hw⟩, -⟩
  · exact he
  · exact absurd hw (ha w)

theorem Woken.trans {s u t : State} (h : Woken s u) (k : Woken u t) : Woken s t where
  rest := by rw [k.rest, h.rest]
  cores n := by rw [k.cores, h.cores]
  teams c sl n := by rw [k.teams, h.teams]
  entries c sl e := by
    have hcyc : (u.core c).cycle = (s.core c).cycle := by rw [h.cores]
    rcases h.entries c sl e with he | ⟨hs, he⟩
    · rw [← he, ← hcyc]
      exact k.entries c sl e
    · rw [k.entry_awake fun w => by rw [he]; exact Entry.woken_awake _ _ w]
      exact .inr ⟨hs, he⟩
  ctls cl := by
    rcases h.ctls cl with he | ⟨hs, he⟩
    · rw [← he]
      exact k.ctls cl
    · rw [k.ctl_awake fun w => by rw [he]; exact Control.woken_awake _ w]
      exact .inr ⟨hs, he⟩

theorem Woken.foldl {α : Type} {f : State → α → State} (hf : ∀ s x, Woken s (f s x)) (l : List α) (s : State) :
    Woken s (l.foldl f s) := by
  induction l generalizing s with
  | nil => exact Woken.refl s
  | cons x l ih => exact (hf s x).trans (ih _)

/-- An entry that one of many wakings is for is woken in the end. -/
theorem Woken.foldl_wakes {α : Type} {f : State → α → State} (hf : ∀ s x, Woken s (f s x)) {l : List α} {s : State} {q : α}
    {c sl e : Nat} (hq : q ∈ l) (hwake : ∀ u, Woken s u → u.entry c sl e = s.entry c sl e →
      (f u q).entry c sl e = (s.entry c sl e).woken (s.core c).cycle) :
    (l.foldl f s).entry c sl e = (s.entry c sl e).woken (s.core c).cycle := by
  obtain ⟨l₁, l₂, rfl⟩ := List.append_of_mem hq
  rw [List.foldl_append, List.foldl_cons]
  have hbefore := Woken.foldl hf l₁ s
  have hat : (f (l₁.foldl f s) q).entry c sl e = (s.entry c sl e).woken (s.core c).cycle := by
    rcases hbefore.entries c sl e with he | ⟨-, he⟩
    · exact hwake _ hbefore he
    · rw [(hf _ q).entry_awake fun w => by rw [he]; exact Entry.woken_awake _ _ w, he]
  rw [(Woken.foldl hf l₂ _).entry_awake fun w => by rw [hat]; exact Entry.woken_awake _ _ w, hat]

theorem State.wakeEnt_entry (s : State) (c sl e : Nat) :
    (s.wakeEnt c sl e).entry c sl e = (s.entry c sl e).woken (s.core c).cycle := by
  simp only [State.wakeEnt, State.makeReady, Entry.woken]
  split <;> simp

theorem State.wakeEnt_onlyEntry (s : State) (c sl e : Nat) : OnlyEntry s (s.wakeEnt c sl e) c sl e := by
  simp only [State.wakeEnt, State.makeReady]
  split <;> exact (s.onlyEntry_setEntry c sl e _).trans (State.onlyEntry_setEntry _ _ _ _ _) (by simp)

theorem State.wakeEnt_team (s : State) (c sl e c' sl' n : Nat) : (s.wakeEnt c sl e).team c' sl' n = s.team c' sl' n := by
  simp only [State.wakeEnt, State.makeReady]
  split <;> simp

/-- Waking a sleeper. -/
theorem State.wakeEnt_woken {s : State} {c sl e : Nat} {w : Wait} (h : (s.entry c sl e).st = .asleep w) : Woken s (s.wakeEnt c sl e) where
  rest := by
    have hfresh : (s.wakeEnt c sl e).fresh = s.fresh := by simp only [State.wakeEnt, State.makeReady]; split <;> rfl
    have hctls : (s.wakeEnt c sl e).ctls = s.ctls := by simp only [State.wakeEnt, State.makeReady]; split <;> rfl
    have hrest := (s.wakeEnt_onlyEntry c sl e).rest
    rw [hfresh] at hrest
    rw [hctls]
    exact hrest
  cores n := by
    by_cases hn : n = c
    · rw [hn]; exact (s.wakeEnt_onlyEntry c sl e).core
    · rw [(s.wakeEnt_onlyEntry c sl e).cores n hn]
  teams := s.wakeEnt_team c sl e
  entries c' sl' e' := by
    by_cases hp : (c', sl', e') = (c, sl, e)
    · simp only [Prod.mk.injEq] at hp
      obtain ⟨rfl, rfl, rfl⟩ := hp
      exact .inr ⟨⟨w, h⟩, s.wakeEnt_entry _ _ _⟩
    · exact .inl ((s.wakeEnt_onlyEntry c sl e).entry_elsewhere hp)
  ctls cl := by simp only [State.wakeEnt, State.makeReady, State.ctl]; split <;> exact .inl rfl

/-- Waking a control stream that sleeps. -/
theorem State.wakeCtl_woken {s : State} {cl : Nat} {w : CWait} (h : (s.ctl cl).st = .asleep w) : Woken s (s.wakeCtl cl) where
  rest := rfl
  cores _ := rfl
  teams _ _ _ := rfl
  entries _ _ _ := .inl rfl
  ctls n := by
    by_cases hn : n = cl
    · subst hn
      exact .inr ⟨⟨w, h⟩, State.ctl_setCtl_same _ _ _⟩
    · exact .inl (by rw [State.wakeCtl, State.ctl_setCtl, if_neg hn])

theorem sameMemory_trans {s u t : State} (h : SameMemory s u) (k : SameMemory u t) : SameMemory s t := by
  obtain ⟨h1, h2, h3, h4, h5⟩ := h
  obtain ⟨k1, k2, k3, k4, k5⟩ := k
  exact ⟨k1.trans h1, k2.trans h2, k3.trans h3, k4.trans h4, k5.trans h5⟩

theorem Woken.sameMemory {s t : State} (h : Woken s t) : SameMemory s t := by
  rw [h.rest]
  exact ⟨rfl, rfl, rfl, rfl, rfl⟩

theorem Woken.scratch {s t : State} (h : Woken s t) (n : Nat) : (t.core n).scratch = (s.core n).scratch := by rw [h.cores]

theorem Woken.parcel {s t : State} (h : Woken s t) (n : Nat) : t.parcel n = s.parcel n := by rw [h.rest]; rfl

end Sys2Proof.Machine
end

section
/-! Named barriers (R64 to R66): what a change of a barrier's sets brings, and the five instructions that change or wait for one. -/

namespace Sys2Proof.Machine

open Sys2Proof Sys2Proof.Said

/-! ### Barriers -/

/-- A set lies within another exactly where their meet is the first. -/
theorem andNot_eq_zero_iff {w : Nat} (x y : BitVec w) : x &&& ~~~y = 0 ↔ x &&& y = x := by
  constructor
  · intro h
    refine BitVec.eq_of_getLsbD_eq fun i hi => ?_
    have hbit : (x &&& ~~~y).getLsbD i = (0#w).getLsbD i := congrArg (BitVec.getLsbD · i) h
    simp only [BitVec.getLsbD_and, BitVec.getLsbD_not, hi, decide_true, Bool.true_and, BitVec.getLsbD_zero] at hbit ⊢
    cases hx : x.getLsbD i <;> simp_all
  · intro h
    refine BitVec.eq_of_getLsbD_eq fun i hi => ?_
    have hbit : (x &&& y).getLsbD i = x.getLsbD i := congrArg (BitVec.getLsbD · i) h
    simp only [BitVec.ofNat_eq_ofNat, BitVec.getLsbD_and, BitVec.getLsbD_not, hi, decide_true, Bool.true_and, BitVec.getLsbD_zero] at hbit ⊢
    cases hx : x.getLsbD i <;> simp_all

/-- A barrier is complete where a non-empty expected set lies within the arrival set (R65). -/
theorem Bar.complete_iff (b : Bar) : b.complete = true ↔ b.expected ≠ 0 ∧ b.expected &&& b.arrived = b.expected := by
  rw [Bar.complete, Bool.and_eq_true, decide_eq_true_iff, decide_eq_true_iff, andNot_eq_zero_iff]

/-- A parcel's barrier replaced. -/
def State.setBar (s : State) (pid n : Nat) (b : Bar) : State :=
  s.setParcel pid { s.parcel pid with bars := (s.parcel pid).bars.set n b }

theorem State.setBar_bars (s : State) (pid n : Nat) (b : Bar) :
    ((s.setBar pid n b).parcel pid).bars = (s.parcel pid).bars.set n b := by
  rw [State.setBar, State.parcel_setParcel_same]

theorem State.setBar_setBar (s : State) (pid n : Nat) (b b' : Bar) : (s.setBar pid n b).setBar pid n b' = s.setBar pid n b' := by
  unfold State.setBar
  rw [State.parcel_setParcel_same]
  simp only [State.setParcel, Store.put_put, List.set_set]

/-- A place of the parcel woken if it sleeps on barrier `n`. -/
def State.wakeBar (pid n : Nat) (s : State) (q : Nat × Nat × Nat) : State :=
  if (s.team q.1 q.2.1 (s.entry q.1 q.2.1 q.2.2).team).pid = pid then
    (match (s.entry q.1 q.2.1 q.2.2).st with
     | .asleep (.bar m) => if m = n then s.wakeEnt q.1 q.2.1 q.2.2 else s
     | _ => s)
  else s

theorem State.wakeBar_woken (pid n : Nat) (s : State) (q : Nat × Nat × Nat) : Woken s (s.wakeBar pid n q) := by
  unfold State.wakeBar
  split
  · split
    · next m hst =>
      split
      · exact State.wakeEnt_woken hst
      · exact Woken.refl s
    · exact Woken.refl s
  · exact Woken.refl s

theorem State.wakeBar_of_sleeper {s : State} {pid n c sl e : Nat} (hpid : (s.team c sl (s.entry c sl e).team).pid = pid)
    (hst : (s.entry c sl e).st = .asleep (.bar n)) : s.wakeBar pid n (c, sl, e) = s.wakeEnt c sl e := by
  simp only [State.wakeBar, hpid, hst, if_true]

/-- A barrier that is complete empties its arrival set and lets its sleepers go. -/
theorem State.checkBar_complete {s : State} {pid n : Nat} {b : Bar} (hb : (s.parcel pid).bars[n]? = some b) (hc : b.complete = true) :
    s.checkBar pid n = (s.placesOn (s.parcel pid).core).foldl (State.wakeBar pid n) (s.setBar pid n { b with arrived := 0 }) := by
  unfold State.checkBar
  simp only [hb, hc, if_true]
  rfl

theorem State.checkBar_waits {s : State} {pid n : Nat} {b : Bar} (hb : (s.parcel pid).bars[n]? = some b) (hc : b.complete = false) :
    s.checkBar pid n = s := by
  unfold State.checkBar
  simp [hb, hc]

theorem State.updateBar_eq {s : State} {pid n : Nat} {b : Bar} (hb : (s.parcel pid).bars[n]? = some b) (f : Bar → Bar) :
    s.updateBar pid n f = (s.setBar pid n (f b)).checkBar pid n := by
  simp only [State.updateBar, hb]
  rfl

theorem State.setBar_getElem? {s : State} {pid n : Nat} {b : Bar} (hb : (s.parcel pid).bars[n]? = some b) (b' : Bar) :
    ((s.setBar pid n b').parcel pid).bars[n]? = some b' := by
  obtain ⟨hlt, -⟩ := List.getElem?_eq_some_iff.1 hb
  rw [State.setBar_bars, List.getElem?_set_self hlt]

theorem State.updateBar_complete {s : State} {pid n : Nat} {b : Bar} (hb : (s.parcel pid).bars[n]? = some b) {f : Bar → Bar}
    (hc : (f b).complete = true) :
    Woken (s.setBar pid n { f b with arrived := 0 }) (s.updateBar pid n f) ∧
      ∀ c sl e, (c, sl, e) ∈ s.placesOn (s.parcel pid).core → (s.team c sl (s.entry c sl e).team).pid = pid →
        (s.entry c sl e).st = .asleep (.bar n) → (s.updateBar pid n f).entry c sl e = (s.entry c sl e).woken (s.core c).cycle := by
  have hcore : ((s.setBar pid n (f b)).parcel pid).core = (s.parcel pid).core := by rw [State.setBar, State.parcel_setParcel_same]
  rw [State.updateBar_eq hb, State.checkBar_complete (State.setBar_getElem? hb _) hc, State.setBar_setBar, hcore]
  refine ⟨Woken.foldl (State.wakeBar_woken pid n) _ _, fun c sl e hq hpid hst => ?_⟩
  refine Woken.foldl_wakes (s := s.setBar pid n { f b with arrived := 0 }) (State.wakeBar_woken pid n) hq fun u hu he => ?_
  have hent : u.entry c sl e = s.entry c sl e := he
  rw [State.wakeBar_of_sleeper (by rw [hent, hu.teams]; exact hpid) (by rw [hent, hst]), State.wakeEnt_entry, hent, hu.cores]
  rfl

theorem State.updateBar_waits {s : State} {pid n : Nat} {b : Bar} (hb : (s.parcel pid).bars[n]? = some b) {f : Bar → Bar}
    (hc : (f b).complete = false) : s.updateBar pid n f = s.setBar pid n (f b) := by
  rw [State.updateBar_eq hb, State.checkBar_waits (State.setBar_getElem? hb _) hc]

/-! ### What a named-barrier instruction leaves -/

section Change

variable {s : State} {c sl e : Nat} {i : Instr} {n : Nat} {b : Bar} {f : Bar → Bar}

/-- A barrier that the change does not complete holds the changed sets; the others stay. -/
def barAfter (b : Bar) : Bar := if b.complete then { b with arrived := 0 } else b

theorem barAfter_of_complete (h : b.complete = true) : barAfter b = { b with arrived := 0 } := by rw [barAfter, if_pos h]
theorem barAfter_of_waits (h : b.complete = false) : barAfter b = b := by simp [barAfter, h]

/-- A change of a barrier's sets replaces them and wakes sleepers. -/
theorem State.updateBar_woken {pid : Nat} (hb : (s.parcel pid).bars[n]? = some b) (f : Bar → Bar) :
    Woken (s.setBar pid n (barAfter (f b))) (s.updateBar pid n f) := by
  cases hc : (f b).complete with
  | true => rw [barAfter_of_complete hc]; exact (State.updateBar_complete hb hc).1
  | false => rw [barAfter_of_waits hc, State.updateBar_waits hb hc]; exact Woken.refl _

/-- What the issuing sub-team finds after the change: itself, its team, memory and the scratchpads as they were. -/
structure BarUpdated (s t : State) (c sl e n : Nat) (b : Bar) : Prop where
  entry : t.entry c sl e = s.entry c sl e
  team : t.team c sl (s.entry c sl e).team = team s c sl e
  memory : SameMemory s t
  scratch : SameScratch s t
  bars : (t.parcel (Said.team s c sl e).pid).bars = (Said.parcel s c sl e).bars.set n b

theorem barUpdated (ha : Awake s c sl e) (hb : (parcel s c sl e).bars[n]? = some b) (f : Bar → Bar) :
    BarUpdated s (s.updateBar (team s c sl e).pid n f) c sl e n (barAfter (f b)) := by
  have hw := State.updateBar_woken hb f
  exact ⟨hw.entry_awake (s := s.setBar _ _ _) ha, hw.teams _ _ _, hw.sameMemory, hw.scratch,
    by rw [hw.parcel]; exact State.setBar_bars _ _ _ _⟩

/-- A barrier instruction with an active lane, on a barrier that its parcel has. -/
theorem barOp_eq (h : Clear s c sl e i) (hst : (streamsOf (op9Of i)).1 = true) (hl : lanes s c sl e i ≠ []) (m : BitVec 6)
    (hb : (parcel s c sl e).bars[m.toNat]? = some b) (work : Iss → Act) :
    barOp i m s work = .next ((s.iss c sl e i).finish s [] (work (s.iss c sl e i))) := by
  obtain ⟨hlt, -⟩ := List.getElem?_eq_some_iff.1 hb
  have hcount : decide ((s.iss c sl e i).p.bars.length ≤ m.toNat) = false := decide_eq_false (Nat.not_le.2 hlt)
  unfold barOp
  rw [teamOnly_eq h hst hcount]
  simp only [act_notEmpty h hl, Bool.false_eq_true, if_false]

/-- The rest of an instruction that has changed a barrier: the sub-team goes on or sleeps, and nothing else changes any more. -/
structure BarEnds (s s1 t : State) (c sl e n : Nat) (b : Bar) : Prop where
  only : OnlyEntry s1 t c sl e
  team : SameTeam s t c sl e
  memory : SameMemory s t
  scratch : SameScratch s t
  bars : (t.parcel (Said.team s c sl e).pid).bars = (s.parcel (Said.team s c sl e).pid).bars.set n b

theorem BarUpdated.ends {s1 t : State} (hu : BarUpdated s s1 c sl e n b) (ho : OnlyEntry s1 t c sl e) (ht : SameTeam s t c sl e) :
    BarEnds s s1 t c sl e n b :=
  ⟨ho, ht, sameMemory_trans hu.memory ho.sameMemory, fun k => (ho.scratch k).trans (hu.scratch k), by rw [ho.parcel]; exact hu.bars⟩

theorem BarUpdated.goes {s1 : State} (hu : BarUpdated s s1 c sl e n b) (i : Instr) :
    BarEnds s s1 ((s.iss c sl e i).finish s [] (.go s1 {})) c sl e n b ∧
      Goes s ((s.iss c sl e i).finish s [] (.go s1 {})) c sl e i := by
  obtain ⟨ho, hent, hteam⟩ := finish_go (i := i) hu.entry
  exact ⟨hu.ends ho (sameTeam_of_aged (i := i) (by rw [hteam, hu.team])), goes_of_onward hent⟩

theorem BarUpdated.sleeps {s1 : State} (hu : BarUpdated s s1 c sl e n b) (i : Instr) (w : Wait) :
    BarEnds s s1 ((s.iss c sl e i).finish s [] (.sleep s1 w)) c sl e n b ∧
      Sleeps s ((s.iss c sl e i).finish s [] (.sleep s1 w)) c sl e i w := by
  obtain ⟨ho, hent, hteam⟩ := finish_sleep (i := i) w hu.entry
  exact ⟨hu.ends ho (sameTeam_of_eq (by rw [hteam, hu.team])), sleeps_of_asleep hent⟩

/-- Whether the issuing team's bit is in a barrier's arrival set. -/
theorem Iss.arrivedAt_eq {s1 : State} (hb : (s1.parcel (team s c sl e).pid).bars[n]? = some b) :
    (s.iss c sl e i).arrivedAt s1 n = decide (b.arrived &&& teamBit sl (s.entry c sl e).team ≠ 0) := by
  have hb' : (s1.parcel (s.iss c sl e i).t.pid).bars[n]? = some b := hb
  simp only [Iss.arrivedAt, hb']
  rfl

theorem teamBit_ne_zero {sl m : Nat} (h : 32 * sl + m < 128) : teamBit sl m ≠ 0 := by
  intro hz
  have hval : (teamBit sl m).toNat = 0 := by rw [hz]; rfl
  rw [teamBit, BitVec.toNat_ofNat, Nat.mod_eq_of_lt (Nat.pow_lt_pow_right (by omega) h)] at hval
  exact absurd hval (by positivity)

theorem or_and_self_right {w : Nat} (x y : BitVec w) : (x ||| y) &&& y = y := by
  refine BitVec.eq_of_getLsbD_eq fun i _ => ?_
  rw [BitVec.getLsbD_and, BitVec.getLsbD_or]
  cases x.getLsbD i <;> cases y.getLsbD i <;> rfl

/-- After an arrival the barrier holds the team's bit just where the arrival did not complete it. -/
theorem arrivedAt_updated (hb : (parcel s c sl e).bars[n]? = some b) (hbit : 32 * sl + (s.entry c sl e).team < 128) {s1 : State}
    (hf : (f b).arrived = b.arrived ||| teamBit sl (s.entry c sl e).team) (hu : BarUpdated s s1 c sl e n (barAfter (f b))) :
    (s.iss c sl e i).arrivedAt s1 n = !(f b).complete := by
  have hget : (s1.parcel (team s c sl e).pid).bars[n]? = some (barAfter (f b)) := by
    obtain ⟨hlt, -⟩ := List.getElem?_eq_some_iff.1 hb
    rw [hu.bars, List.getElem?_set_self hlt]
  rw [Iss.arrivedAt_eq hget]
  cases hc : (f b).complete with
  | true => simp [barAfter_of_complete hc]
  | false => rw [barAfter_of_waits hc, hf, or_and_self_right, decide_eq_true (teamBit_ne_zero hbit), Bool.not_false]

/-- A sleeper of the parcel on its barrier, elsewhere in the core, goes on where the barrier completes. -/
theorem sleeper_goes_on {s1 t : State} (hb : (parcel s c sl e).bars[n]? = some b) (hc : (f b).complete = true)
    (hs1 : s1 = s.updateBar (team s c sl e).pid n f) (ho : OnlyEntry s1 t c sl e) {sl' n' : Nat} {x : Entry}
    (hne : (sl', n') ≠ (sl, e)) (hcore : (parcel s c sl e).core = c) (hx : s.entry? c sl' n' = some x)
    (hpid : (s.team c sl' x.team).pid = (team s c sl e).pid) (hst : x.st = .asleep (.bar n)) :
    (t.entry c sl' n').pc = x.npc ∧ ∀ w, (t.entry c sl' n').st ≠ .asleep w := by
  have hent : s.entry c sl' n' = x := by
    simp only [State.entry, Store.get]
    rw [show (s.slot c sl').entries.look n' = some x from hx]
    rfl
  have hplace : (c, sl', n') ∈ s.placesOn (s.parcel (team s c sl e).pid).core := by
    rw [show (s.parcel (team s c sl e).pid).core = c from hcore]
    exact State.mem_placesOn hx
  have hwoken : s1.entry c sl' n' = x.woken (s.core c).cycle := by
    rw [hs1, (State.updateBar_complete hb hc).2 c sl' n' hplace (by rw [hent]; exact hpid) (by rw [hent]; exact hst), hent]
  rw [ho.entry_elsewhere (by simpa using hne), hwoken]
  exact ⟨Entry.woken_pc _ _, Entry.woken_awake _ _⟩

end Change

/-- BAR.SYNC sleeps just where its arrival does not complete the barrier. -/
theorem Iss.barSync_eq {s : State} {c sl e n : Nat} {i : Instr} {b : Bar} (ha : Awake s c sl e)
    (hb : (parcel s c sl e).bars[n]? = some b) (hbit : 32 * sl + (s.entry c sl e).team < 128)
    (hser : (s.entry c sl e).serialised = false) (harr : (s.entry c sl e).arrived = false) {f : Bar → Bar}
    (hf : f = fun x => { x with arrived := x.arrived ||| teamBit sl (s.entry c sl e).team }) :
    (s.iss c sl e i).barSync s n =
      if (f b).complete then .go (s.updateBar (team s c sl e).pid n f) {} else .sleep (s.updateBar (team s c sl e).pid n f) (.bar n) := by
  have harr' : (s.iss c sl e i).e.arrived = false := harr
  have hser' : (s.iss c sl e i).e.serialised = false := hser
  have hcond := arrivedAt_updated (i := i) hb hbit (by rw [hf]) (barUpdated ha hb f)
  have hs1 : (s.updateBar (s.iss c sl e i).t.pid n fun x => { x with arrived := x.arrived ||| (s.iss c sl e i).bit }) =
      s.updateBar (team s c sl e).pid n f := by rw [hf]; rfl
  simp only [Iss.barSync, harr', hser', hs1, hcond, Bool.not_not, Bool.false_eq_true, if_false]

/-- The four instructions that change a barrier's sets, with the change each makes for the issuing team. -/
def BarChange (i : Instr) (n : BitVec 6) (bit : BitVec 128) (f : Bar → Bar) : Prop :=
  (∃ h, i = .barArrive h n ∧ f = fun x => { x with arrived := x.arrived ||| bit }) ∨
  (∃ h, i = .barSync h n ∧ f = fun x => { x with arrived := x.arrived ||| bit }) ∨
  (∃ h, i = .barJoin h n ∧ f = fun x => { x with expected := x.expected ||| bit }) ∨
  (∃ h, i = .barLeave h n ∧ f = fun x => { x with expected := x.expected &&& ~~~bit })

/-- Each makes its change, and the sub-team goes on; after BAR.SYNC only where its arrival has completed the barrier. -/
theorem exec_barChange {s : State} {c sl e : Nat} {i : Instr} {n : BitVec 6} {b : Bar} {f : Bar → Bar} (h : Clear s c sl e i)
    (ha : Awake s c sl e) (hl : lanes s c sl e i ≠ []) (hb : (parcel s c sl e).bars[n.toNat]? = some b)
    (hbit : 32 * sl + (s.entry c sl e).team < 128) (hser : (s.entry c sl e).serialised = false)
    (harr : (s.entry c sl e).arrived = false) (hi : BarChange i n (teamBit sl (s.entry c sl e).team) f) :
    ∃ t, exec i s = .next t ∧
      BarEnds s (s.updateBar (team s c sl e).pid n.toNat f) t c sl e n.toNat (barAfter (f b)) ∧
      ((f b).complete = false → (∃ h, i = .barSync h n) → Sleeps s t c sl e i (.bar n.toNat)) ∧
      ((f b).complete = true ∨ (∀ h, i ≠ .barSync h n) → Goes s t c sl e i) := by
  have hu := barUpdated ha hb f
  obtain ⟨hends, hgoes⟩ := hu.goes i
  rcases hi with ⟨hd, rfl, rfl⟩ | ⟨hd, rfl, hf⟩ | ⟨hd, rfl, rfl⟩ | ⟨hd, rfl, rfl⟩
  · exact ⟨_, barOp_eq h rfl hl n hb _, hends, fun _ ⟨_, hx⟩ => (nomatch hx), fun _ => hgoes⟩
  · have hexec := barOp_eq h rfl hl n hb fun x => x.barSync s n.toNat
    rw [Iss.barSync_eq ha hb hbit hser harr hf] at hexec
    cases hc : (f b).complete with
    | true =>
      rw [if_pos hc] at hexec
      exact ⟨_, hexec, hends, fun k => (nomatch k), fun _ => hgoes⟩
    | false =>
      rw [hc, if_neg Bool.false_ne_true] at hexec
      obtain ⟨hends, hsleeps⟩ := hu.sleeps (.barSync hd n) (.bar n.toNat)
      exact ⟨_, hexec, hends, fun _ _ => hsleeps, fun k => (k.resolve_left (by simp) hd rfl).elim⟩
  · exact ⟨_, barOp_eq h rfl hl n hb _, hends, fun _ ⟨_, hx⟩ => (nomatch hx), fun _ => hgoes⟩
  · exact ⟨_, barOp_eq h rfl hl n hb _, hends, fun _ ⟨_, hx⟩ => (nomatch hx), fun _ => hgoes⟩

/-- BAR.WAIT sleeps just where the team's arrival is in the set. -/
theorem exec_barWait {s : State} {c sl e : Nat} {hd : Hdr} {n : BitVec 6} {b : Bar} (h : Clear s c sl e (.barWait hd n))
    (hl : lanes s c sl e (.barWait hd n) ≠ []) (hb : (parcel s c sl e).bars[n.toNat]? = some b)
    (hser : (s.entry c sl e).serialised = false) :
    exec (.barWait hd n) s = .next ((s.iss c sl e (.barWait hd n)).finish s []
      (if b.arrived &&& teamBit sl (s.entry c sl e).team = 0 then .eff {} else .sleep s (.bar n.toNat))) := by
  have hser' : (s.iss c sl e (.barWait hd n)).e.serialised = false := hser
  refine (barOp_eq h rfl hl n hb _).trans ?_
  simp only [Iss.arrivedAt_eq (s1 := s) hb, hser', Bool.false_eq_true, if_false, Bool.not_eq_true', decide_eq_false_iff_not, not_not]

/-- Settles O26: a change of a barrier's sets is `updateBar`, which leaves `barAfter` in the parcel and wakes the sleepers of a
complete barrier; the issuing sub-team then sleeps just where its arrival is still in the set. -/
theorem namedBarriersArriveAndComplete : Obligations.NamedBarriersArriveAndComplete := by
  unfold Obligations.NamedBarriersArriveAndComplete
  intro s c sl e i n b pid bit full h ha hl hb hbit hser harr
  refine ⟨fun f hi => ?_, fun ⟨hd, hi⟩ => ?_⟩
  · obtain ⟨t, ht, hends, hsleep, hgo⟩ := exec_barChange h ha hl hb hbit hser harr hi
    refine ⟨t, ht, hends.team, hends.memory, hends.scratch, fun hfull => ?_, fun hfull => ?_⟩
    · have hc : (f b).complete = true := (Bar.complete_iff _).2 hfull
      exact ⟨hgo (.inl hc), barAfter_of_complete hc ▸ hends.bars, fun sl' n' x hne hcore hx _ hpid hst =>
        sleeper_goes_on hb hc rfl hends.only hne hcore hx hpid hst⟩
    · have hc : (f b).complete = false := Bool.eq_false_iff.2 fun k => hfull ((Bar.complete_iff _).1 k)
      exact ⟨barAfter_of_waits hc ▸ hends.bars, hsleep hc, fun hne => hgo (.inr hne)⟩
  · subst hi
    have hexec := exec_barWait h hl hb hser
    by_cases hout : b.arrived &&& bit = 0
    · obtain ⟨ho, hent, hteam⟩ := finish_go (i := .barWait hd n) (s := s) (s1 := s) (c := c) (sl := sl) (e := e) rfl
      rw [show b.arrived &&& teamBit sl (s.entry c sl e).team = 0 from hout, if_pos rfl] at hexec
      exact ⟨_, hexec, ho, sameTeam_of_aged hteam, by rw [if_pos hout]; exact goes_of_onward hent⟩
    · obtain ⟨ho, hent, hteam⟩ := finish_sleep (i := .barWait hd n) (s := s) (s1 := s) (c := c) (sl := sl) (e := e) (.bar n.toNat) rfl
      rw [if_neg (show ¬ b.arrived &&& teamBit sl (s.entry c sl e).team = 0 from hout)] at hexec
      exact ⟨_, hexec, ho, sameTeam_of_eq hteam, by rw [if_neg hout]; exact sleeps_of_asleep hent⟩

end Sys2Proof.Machine
end

section
/-! SUPPORT. Branches, calls, returns and the end of a control stream (O16). -/

namespace Sys2Proof.Machine
open Sys2Proof Sys2Proof.Said

/-- An integer type's value of a word is the number the specification's text names (R220). -/
theorem valOf_eq_num (ty : Ty) (w : Dword) : valOf ty w.toNat = num ty w := by
  have hpos : 0 < ty.bits := by cases ty <;> decide
  have htwo : 2 * 2 ^ (ty.bits - 1) = 2 ^ ty.bits := by rw [← Nat.pow_succ', Nat.succ_eq_add_one, Nat.sub_add_cancel hpos]
  cases hs : ty.isSigned
  · simp [valOf, num, intOf, hs]
  · simp only [valOf, num, intOf, hs, Bool.true_and, decide_eq_true_eq, if_true, BitVec.toInt_eq_toNat_cond,
      BitVec.toNat_setWidth]
    split <;> split <;> omega

section Ctl

variable {s s1 : State} {cl : Nat} {i : Instr} {ret : List Word} {handler : Bool}

/-- The checks let a control stream's own instruction do its work (R183). -/
theorem ctlOnly_eq (h : CClear s cl i) (hst : (streamsOf (op9Of i)).2 = true) {bad : CIss → Bool}
    (hb : bad (s.ciss cl i) = false) (work : CIss → CAct) :
    ctlOnly i s bad work = .next ((s.ciss cl i).finish s (work (s.ciss cl i))) := by
  have hchecks : (s.ciss cl i).checks (bad (s.ciss cl i)) false = none := by rw [hb, CIss.checks_eq h hst]
  unfold ctlOnly State.issueCtl
  rw [h.cur]
  dsimp only
  rw [hchecks]

theorem State.ctl_setCtl_other (s : State) {n m : Nat} (x : Control) (h : m ≠ n) : (s.setCtl n x).ctl m = s.ctl m := by
  rw [State.ctl_setCtl, if_neg h]

/-- Only control stream `cl` has changed: its return stack and handler state are the given ones, its registers are as before. -/
structure CtlMoved (s s1 : State) (cl : Nat) (ret : List Word) (handler : Bool) : Prop where
  rest : s1 = { s with ctls := s1.ctls }
  others : ∀ n, n ≠ cl → s1.ctl n = s.ctl n
  ret : (s1.ctl cl).ret = ret
  handler : (s1.ctl cl).handler = handler
  c : (s1.ctl cl).c = (s.ctl cl).c
  h : (s1.ctl cl).h = (s.ctl cl).h

theorem CtlMoved.refl (s : State) (cl : Nat) : CtlMoved s s cl (s.ctl cl).ret (s.ctl cl).handler := ⟨rfl, fun _ _ => rfl, rfl, rfl, rfl, rfl⟩

theorem CtlMoved.setCtl (s : State) (cl : Nat) (x : Control) (hc : x.c = (s.ctl cl).c := by rfl) (hh : x.h = (s.ctl cl).h := by rfl) :
    CtlMoved s (s.setCtl cl x) cl x.ret x.handler :=
  ⟨rfl, fun _ hn => State.ctl_setCtl_other _ _ hn, by simp, by simp, by simp [hc], by simp [hh]⟩

/-- A control stream goes on at `pc` with its return stack and handler state, after its stall count (R50). -/
def CtlGoesOn (s t : State) (cl : Nat) (i : Instr) (pc : Word) (ret : List Word) (handler : Bool) : Prop :=
  t = { s with ctls := t.ctls } ∧ (∀ n, n ≠ cl → t.ctl n = s.ctl n) ∧ (t.ctl cl).pc = pc ∧ (t.ctl cl).ret = ret ∧
    (t.ctl cl).handler = handler ∧ (t.ctl cl).c = (s.ctl cl).c ∧ (t.ctl cl).h = (s.ctl cl).h ∧
    (t.ctl cl).st = .stalled (t.ctl cl).till ∧ (t.ctl cl).till = (s.ctl cl).cycle + 1 + (hdrOf i).stall.toNat

theorem CtlMoved.charge (m : CtlMoved s s1 cl ret handler) (pc : Word) :
    CtlGoesOn s ((s.ciss cl i).charge s1 pc none) cl i pc ret handler := by
  rw [CIss.charge_goes, show (s.ciss cl i).cl = cl from rfl]
  refine ⟨?_, fun n hn => (State.ctl_setCtl_other _ _ hn).trans (m.others n hn), ?_⟩
  · conv_lhs => rw [m.rest]
    rfl
  · rw [State.ctl_setCtl_same]
    exact ⟨rfl, m.ret, m.handler, m.c, m.h, rfl, rfl⟩

/-- A jump that changes nothing else. -/
theorem ctlJump_goesOn (pc : Word) :
    CtlGoesOn s ((s.ciss cl i).finish s (.jump s pc)) cl i pc (s.ctl cl).ret (s.ctl cl).handler := (CtlMoved.refl s cl).charge pc

/-- A jump that changes the return stack or ends handler state as well. -/
theorem ctlJump_setCtl_goesOn (x : Control) (pc : Word) (hc : x.c = (s.ctl cl).c := by rfl) (hh : x.h = (s.ctl cl).h := by rfl) :
    CtlGoesOn s ((s.ciss cl i).finish s (.jump (s.setCtl cl x) pc)) cl i pc x.ret x.handler := (CtlMoved.setCtl s cl x hc hh).charge pc

/-- An instruction with nothing to do goes on at the next address. -/
theorem ctlIdle_goesOn :
    CtlGoesOn s ((s.ciss cl i).finish s (.eff [])) cl i ((s.ctl cl).pc + BitVec.ofNat 32 (4 * (encode i).length))
      (s.ctl cl).ret (s.ctl cl).handler := by
  rw [CIss.finish, CIss.commit_idle]
  exact (CtlMoved.setCtl s cl _).charge _

/-- But for `RETT`, the handler state stays as it was. -/
theorem CtlGoesOn.of_not_rett {o : Out} {pc : Word} (hn : isRett i = false)
    (hg : ∃ t, o = .next t ∧ CtlGoesOn s t cl i pc ret (s.ctl cl).handler) :
    ∃ t, o = .next t ∧ CtlGoesOn s t cl i pc ret ((s.ctl cl).handler && !isRett i) := by
  simpa only [hn, Bool.not_false, Bool.and_true] using hg

theorem braOp_ctl (h : CClear s cl i) (hst : (streamsOf (op9Of i)).2 = true) (k : BitVec 12) (off : Word) :
    ∃ t, braOp i k off s = .next t ∧ CtlGoesOn s t cl i ((s.ctl cl).pc + off * 4) (s.ctl cl).ret (s.ctl cl).handler :=
  ⟨_, bothStreams_ctl_eq h hst _ _ _ rfl _, ctlJump_goesOn _⟩

theorem brzOp_ctl (h : CClear s cl i) (hst : (streamsOf (op9Of i)).2 = true) (zero : Bool) (a : BitVec 8) (off : Word) {pc : Word}
    (hpc : (if (creg s cl a == 0) == zero then (s.ctl cl).pc + off * 4
      else (s.ctl cl).pc + BitVec.ofNat 32 (4 * (encode i).length)) = pc) :
    ∃ t, brzOp i zero a off s = .next t ∧ CtlGoesOn s t cl i pc (s.ctl cl).ret (s.ctl cl).handler := by
  refine ⟨_, bothStreams_ctl_eq h hst _ _ _ rfl _, ?_⟩
  rw [rc_eq h, ← hpc]
  exact ctlJump_goesOn _

/-- A call with room in the return stack pushes the next address (R194, R197). -/
theorem callOp_ctl (h : CClear s cl i) (hst : (streamsOf (op9Of i)).2 = true) (k : BitVec 12) (off : Word)
    (hroom : (s.ctl cl).ret.length < 32) :
    ∃ t, callOp i k off s = .next t ∧ CtlGoesOn s t cl i ((s.ctl cl).pc + off * 4)
      (((s.ctl cl).pc + BitVec.ofNat 32 (4 * (encode i).length)) :: (s.ctl cl).ret) (s.ctl cl).handler := by
  refine ⟨_, bothStreams_ctl_eq h hst _ _ _ rfl _, ?_⟩
  rw [if_neg (show ¬ 32 ≤ (s.ciss cl i).x.ret.length from Nat.not_le.mpr hroom)]
  exact ctlJump_setCtl_goesOn _ _

/-- A return takes the top of the return stack (R197). -/
theorem popOp_ctl (h : CClear s cl i) (hst : (streamsOf (op9Of i)).2 = true) {kind : Nat} (hk : kind ≠ 2) {r : Word} {rs : List Word}
    (htop : (s.ctl cl).ret = r :: rs) :
    ∃ t, popOp i kind s = .next t ∧ CtlGoesOn s t cl i r rs (s.ctl cl).handler := by
  refine ⟨_, bothStreams_ctl_eq h hst _ _ _ rfl _, ?_⟩
  rw [CIss.pop, if_neg hk, show (s.ciss cl i).x.ret = r :: rs from htop]
  exact ctlJump_setCtl_goesOn _ _

/-- `RETT` in handler state leaves it and goes to `%tpc` (R313). -/
theorem popOp_handler_ctl (h : CClear s cl i) (hst : (streamsOf (op9Of i)).2 = true) (hh : (s.ctl cl).handler = true) :
    ∃ t, popOp i 2 s = .next t ∧ CtlGoesOn s t cl i (s.ctl cl).tpc (s.ctl cl).ret false := by
  refine ⟨_, bothStreams_ctl_eq h hst _ _ _ rfl _, ?_⟩
  rw [CIss.pop, if_pos rfl, if_pos (show (s.ciss cl i).x.handler = true from hh)]
  exact ctlJump_setCtl_goesOn _ _

/-- Control flow of a control stream, an instruction at a time (R193, R194, R197, R276, R313). -/
theorem ctlFlow_goesOn {pc : Word} (hf : ctlFlow s cl i = some (pc, ret)) (h : CClear s cl i) :
    ∃ t, exec i s = .next t ∧ CtlGoesOn s t cl i pc ret ((s.ctl cl).handler && !isRett i) := by
  cases i
  case nop hd | nopShort hd =>
    obtain ⟨rfl, rfl⟩ := Prod.mk.inj (Option.some.inj hf)
    exact CtlGoesOn.of_not_rett rfl ⟨_, bothStreams_ctl_eq h rfl _ _ _ rfl _, ctlIdle_goesOn⟩
  case bra hd k off =>
    obtain ⟨rfl, rfl⟩ := Prod.mk.inj (Option.some.inj hf)
    exact CtlGoesOn.of_not_rett rfl (braOp_ctl h rfl k off)
  case braShort hd off =>
    obtain ⟨rfl, rfl⟩ := Prod.mk.inj (Option.some.inj hf)
    exact CtlGoesOn.of_not_rett rfl (braOp_ctl h rfl 0 (off.signExtend 32))
  case brz hd k a off =>
    obtain ⟨rfl, rfl⟩ := Prod.mk.inj (Option.some.inj hf)
    exact CtlGoesOn.of_not_rett rfl (brzOp_ctl h rfl true a off (by simp [creg]))
  case brnz hd k a off =>
    obtain ⟨rfl, rfl⟩ := Prod.mk.inj (Option.some.inj hf)
    refine CtlGoesOn.of_not_rett rfl (brzOp_ctl h rfl false a off ?_)
    change _ = if creg s cl a = 0 then _ else _
    by_cases hz : creg s cl a = 0 <;> simp [hz]
  case cbr hd cmp ty a b off =>
    obtain ⟨rfl, rfl⟩ := Prod.mk.inj (Option.some.inj hf)
    refine ⟨_, ctlOnly_eq h rfl rfl _, ?_⟩
    simp only [rc_eq h, valOf_eq_num, isRett, Bool.not_false, Bool.and_true]
    exact ctlJump_goesOn _
  case call hd k off =>
    obtain ⟨hroom, hv⟩ := Option.ite_none_right_eq_some.mp hf
    obtain ⟨rfl, rfl⟩ := Prod.mk.inj (Option.some.inj hv)
    exact CtlGoesOn.of_not_rett rfl (callOp_ctl h rfl k off hroom)
  case callShort hd off =>
    obtain ⟨hroom, hv⟩ := Option.ite_none_right_eq_some.mp hf
    obtain ⟨rfl, rfl⟩ := Prod.mk.inj (Option.some.inj hv)
    exact CtlGoesOn.of_not_rett rfl (callOp_ctl h rfl 0 (off.signExtend 32) hroom)
  case pop hd | popShort hd =>
    cases htop : (s.ctl cl).ret with
    | nil => simp [ctlFlow, htop] at hf
    | cons r rs =>
      obtain ⟨rfl, rfl⟩ : r = pc ∧ rs = ret := by simpa [ctlFlow, htop] using hf
      exact CtlGoesOn.of_not_rett rfl (popOp_ctl h rfl (kind := 0) (by decide) htop)
  case ret hd | retShort hd =>
    cases htop : (s.ctl cl).ret with
    | nil => simp [ctlFlow, htop] at hf
    | cons r rs =>
      obtain ⟨rfl, rfl⟩ : r = pc ∧ rs = ret := by simpa [ctlFlow, htop] using hf
      exact CtlGoesOn.of_not_rett rfl (popOp_ctl h rfl (kind := 1) (by decide) htop)
  case rett hd | rettShort hd =>
    obtain ⟨hh, hv⟩ := Option.ite_none_right_eq_some.mp hf
    obtain ⟨rfl, rfl⟩ := Prod.mk.inj (Option.some.inj hv)
    change ∃ t, _ ∧ CtlGoesOn _ _ _ _ _ _ ((s.ctl cl).handler && false)
    rw [Bool.and_false]
    exact popOp_handler_ctl h rfl hh
  all_goals exact absurd hf (by simp [ctlFlow])

/-- With every covered command finished, a fence without a mask has nothing to wait for. -/
theorem fenced_of_finished (hm : ∀ m ∈ (s.ctl cl).cmds, m.lid = (s.ctl cl).lid → m.finished = true ∧ m.failed = none) :
    s.fenced cl none = true := by
  simp only [State.fenced, List.all_eq_true]
  intro m hmem
  cases hc : m.coveredBy (s.ctl cl).lid none
  · simp
  · have hl : m.lid = (s.ctl cl).lid := by simpa [Cmd.coveredBy] using hc
    simp [(hm m hmem hl).1]

/-- Without a failed command, it delivers no trap. -/
theorem fenceTrap_of_unfailed (hm : ∀ m ∈ (s.ctl cl).cmds, m.lid = (s.ctl cl).lid → m.finished = true ∧ m.failed = none) :
    s.fenceTrap cl none = none := by
  have hnil : ((s.ctl cl).cmds.filter fun m => m.coveredBy (s.ctl cl).lid none).filterMap Cmd.failed = [] := by
    rw [List.filterMap_eq_nil_iff]
    intro m hmem
    obtain ⟨hin, hc⟩ := List.mem_filter.mp hmem
    have hl : m.lid = (s.ctl cl).lid := by simpa [Cmd.coveredBy] using hc
    exact (hm m hin hl).2
  simp only [State.fenceTrap, hnil]

/-- `EXIT` of a control stream with nothing to wait for ends its run (R71, R201, R285). -/
theorem exitOp_ctl (h : CClear s cl i) (hst : (streamsOf (op9Of i)).2 = true)
    (hm : ∀ m ∈ (s.ctl cl).cmds, m.lid = (s.ctl cl).lid → m.finished = true ∧ m.failed = none)
    (hr : s.released (.control cl) 0 = true) : exitOp i s = .next (s.endControl cl) := by
  have hexit : (s.ciss cl i).exit s = .stop (s.endControl cl) := by
    simp only [CIss.exit, show (s.ciss cl i).cl = cl from rfl, CIss.src, fenced_of_finished hm, fenceTrap_of_unfailed hm, hr,
      Bool.not_true, if_true, Bool.false_eq_true, if_false]
  rw [exitOp, bothStreams_ctl_eq h hst _ _ _ rfl _, hexit, CIss.finish]

end Ctl

/-- Settles O16: each instruction of `ctlFlow` is a jump of the stream after its stall count, which changes the return stack and
handler state and nothing else; an `EXIT` whose fence and release have nothing to wait for is `endControl`. -/
theorem controlStreamFlowsAndEnds : Obligations.ControlStreamFlowsAndEnds := by
  unfold Obligations.ControlStreamFlowsAndEnds
  constructor
  · intro s cl i pc ret hf h
    obtain ⟨t, ht, hrest, hother, hpc, hret, hhandler, hc, hh, hst, htill⟩ := ctlFlow_goesOn hf h
    exact ⟨t, ht, hrest, hother, hpc, hret, hhandler, hc, hh, hst, htill⟩
  · intro s cl i hi h hm hr
    have hexec : exec i s = .next (s.endControl cl) := by
      rcases hi with ⟨hd, rfl⟩ | ⟨hd, rfl⟩ <;> exact exitOp_ctl h rfl hm hr
    refine ⟨_, hexec, ?_, ?_, ?_, fun n hn => ?_, rfl, ⟨rfl, rfl, rfl, rfl, rfl⟩⟩
    · simp [State.endControl]
    · simp [State.endControl]
    · simp [State.endControl]; rfl
    · exact State.ctl_setCtl_other (s.orphan (.control cl)) _ hn

end Sys2Proof.Machine
end

section
/-! SUPPORT. Reads of special registers (O35). -/

namespace Sys2Proof.Machine
open Sys2Proof Sys2Proof.Said

/-! ### The values (R298) -/

/-- A core mask's bits are a sum of powers. -/
theorem maskBits_eq_sum (cs : List Nat) : maskBits cs = (cs.map (2 ^ ·)).sum := by
  have hfold : ∀ m, cs.foldl (fun m i => m + 2 ^ i) m = m + (cs.map (2 ^ ·)).sum := by
    induction cs with
    | nil => simp
    | cons a cs ih => intro m; simp [ih, Nat.add_assoc]
  rw [maskBits, hfold, Nat.zero_add]

theorem wideSpecial_eq_wideReg (n : Nat) : wideSpecial n = wideReg n := by
  simp only [wideSpecial, wideReg, beq_eq_decide]

theorem laneSpecial_eq_laneReg (n : Nat) : laneSpecial n = laneReg n := rfl

section Values

variable {s : State} {c sl e : Nat} {i : Instr} {n l v : Nat}

/-- Outside the registers of a trap frame the stack plays no part. -/
theorem frameTop_none (hn : ¬ (0x016 ≤ n ∧ n ≤ 0x018)) (stk : List StkEntry) :
    (stk.find? fun y => y.isTrap && decide (0x016 ≤ n ∧ n ≤ 0x018)) = none := by
  simp [List.find?_eq_none, hn]

/-- In the registers of a trap frame the top TRAP entry counts. -/
theorem frameTop_eq (hn : 0x016 ≤ n ∧ n ≤ 0x018) (stk : List StkEntry) :
    (stk.find? fun y => y.isTrap && decide (0x016 ≤ n ∧ n ≤ 0x018)) = stk.find? fun y => y.kind == 2 := by
  simp [hn, StkEntry.isTrap]

/-- A resident entry is read where it stands. -/
theorem State.loadEntry_resident (s : State) (c sl e : Nat) {y : StkEntry} (hy : y.spill = false) : s.loadEntry c sl e y = (y, s) := by
  simp [State.loadEntry, hy]

/-- The value that the text gives is the one that the instruction reads, and reading it changes nothing: outside a trap frame's
registers. -/
theorem Iss.special?_plain (hn : ¬ (0x016 ≤ n ∧ n ≤ 0x018)) (h : Said.special s c sl e n l = some v) :
    (s.iss c sl e i).special? s n l = (v, s) := by
  unfold Iss.special?
  rw [frameTop_none hn]
  unfold Said.special at h
  split at h
  case h_12 => exact Prod.ext ((maskBits_eq_sum _).trans (Option.some.inj h)) rfl
  case h_22 | h_23 | h_24 => exact absurd (by decide) hn
  case h_29 => exact absurd h (by simp)
  all_goals exact Prod.ext (Option.some.inj h) rfl

/-- A value taken of the top TRAP entry, where there is one and it is resident. -/
theorem frameValue_some {stk : List StkEntry} {f : StkEntry → Nat}
    (h : ((stk.find? fun y => y.kind == 2).filter fun y => !y.spill).map f = some v) :
    ∃ y, (stk.find? fun y => y.kind == 2) = some y ∧ y.spill = false ∧ f y = v := by
  obtain ⟨y, hy, hv⟩ := Option.map_eq_some_iff.mp h
  obtain ⟨htop, hres⟩ := Option.filter_eq_some_iff.mp hy
  exact ⟨y, htop, by simpa using hres, hv⟩

/-- `%tpc` and `%tframe` have a value in handler state alone. -/
theorem special_handler (hn : handlerOnly n = true) (h : Said.special s c sl e n l = some v) : (s.entry c sl e).handler = true := by
  have htop : ∃ y, ((s.entry c sl e).stack.find? fun y => y.kind == 2) = some y := by
    rcases (show n = 0x017 ∨ n = 0x018 by simpa [handlerOnly] using hn) with rfl | rfl
    · obtain ⟨y, hy, -, -⟩ := frameValue_some h
      exact ⟨y, hy⟩
    · obtain ⟨y, hy, -, -⟩ := frameValue_some h
      exact ⟨y, hy⟩
  obtain ⟨y, hy⟩ := htop
  exact List.any_eq_true.mpr ⟨y, List.mem_of_find?_eq_some hy, List.find?_some hy⟩

/-- The value that the text gives is the one that the instruction reads, and reading it changes nothing. -/
theorem Iss.special?_eq (h : Said.special s c sl e n l = some v) : (s.iss c sl e i).special? s n l = (v, s) := by
  by_cases hn : 0x016 ≤ n ∧ n ≤ 0x018
  case neg => exact Iss.special?_plain hn h
  unfold Iss.special?
  rw [frameTop_eq hn]
  rcases (show n = 0x016 ∨ n = 0x017 ∨ n = 0x018 by omega) with rfl | rfl | rfl
  · obtain ⟨htop, hv⟩ := Option.ite_none_right_eq_some.mp h
    rw [show (s.iss c sl e i).e.stack.find? _ = _ from htop]
    exact Prod.ext (Option.some.inj hv) rfl
  · obtain ⟨y, htop, hres, hv⟩ := frameValue_some h
    rw [show (s.iss c sl e i).e.stack.find? _ = _ from htop]
    dsimp only
    rw [State.loadEntry_resident _ _ _ _ hres]
    exact Prod.ext hv rfl
  · obtain ⟨y, htop, hres, hv⟩ := frameValue_some h
    rw [show (s.iss c sl e i).e.stack.find? _ = _ from htop]
    dsimp only
    rw [State.loadEntry_resident _ _ _ _ hres]
    exact Prod.ext hv rfl

/-- Only registers of the team stream have a value in it. -/
theorem teamSpecial_of_special (h : Said.special s c sl e n l = some v) : teamSpecial n = true := by
  unfold Said.special at h
  split at h
  case h_29 => exact absurd h (by simp)
  all_goals rfl

/-- But for `%lane` and `%row`, every lane has the same value. -/
theorem special_uniform (hn : laneReg n = false) (l m : Nat) : Said.special s c sl e n l = Said.special s c sl e n m := by
  unfold Said.special
  split
  case h_1 | h_2 => exact absurd hn (by decide)
  all_goals rfl

end Values

/-! ### The instruction (R297, R299) -/

section Read

variable {s : State} {c sl e : Nat} {i : Instr}

/-- An instruction of both streams whose checks let it through does its work in the team stream (R183). -/
theorem bothStreams_team_clear (h : Clear s c sl e i) (hst : (streamsOf (op9Of i)).1 = true) {bad priv : Iss → Bool}
    (hb : bad (s.iss c sl e i) = false) (hp : priv (s.iss c sl e i) = false) (work : Iss → Act) (cbad cpriv : CIss → Bool)
    (cwork : CIss → CAct) :
    bothStreams i s bad priv work cbad cpriv cwork = .next ((s.iss c sl e i).finish s [] (work (s.iss c sl e i))) := by
  have hra : (s.iss c sl e i).e.ra = none := h.plain
  have hstr : (s.iss c sl e i).stretched (fun _ => []) = (s.iss c sl e i, []) := Iss.stretched_noBank _
  simp only [bothStreams, h.cur, State.issueTeam, hra, hstr, hp, hb, checks_eq h hst]

/-- The effect of registers that are all written once, without flags, is what the writes say. -/
theorem wrote_of_go (h : Clear s c sl e i) {f : Eff} {v : Nat → Nat → Option Word} {u : Nat → Option Word}
    (hflags : f.flags = []) (hv : (f.v.map fun w => (w.1, w.2.1)).Nodup) (hv' : ∀ w ∈ f.v, w.2.1 < 256) (hp : f.p = [])
    (hs : (f.s.map Prod.fst).Nodup) (ev : vput f.v = v) (es : sput f.s = u) :
    Wrote s ((s.iss c sl e i).finish s [] (.go s f)) c sl e i v noP u 0 := by
  have hw := finish_wrote h f hv hv' (by simp [hp]) (by simp [hp]) hs
  have hfpe : (s.iss c sl e i).fpe f = none := by simp [Iss.fpe, hflags]
  have hunion : f.union = 0 := by simp [Eff.union, hflags]
  have hpput : pput f.p = noP := by funext l r; simp [hp, pput, noP]
  rw [ev, es, hpput, hunion] at hw
  simpa only [Iss.finish, hfpe] using hw

theorem Iss.eachI_flags (x : Iss) (ty : Ty) (d : BitVec 8) (f : Nat → Nat) : (x.eachI ty d f).flags = [] := by
  simp only [Iss.eachI, Iss.each, List.map_eq_nil_iff, List.filter_eq_nil_iff, List.mem_map]
  rintro _ ⟨l, -, rfl⟩
  exact (by decide : ¬ ((0 : Flags) != 0) = true)

/-- A value in each active lane. -/
theorem wrote_eachI (h : Clear s c sl e i) (wide : Bool) (d : BitVec 8) (hd : d.toNat + (if wide then 2 else 1) ≤ 256)
    (f g : Nat → Nat) (hfg : ∀ l, f l = g l) :
    Wrote s ((s.iss c sl e i).finish s [] (.go s ((s.iss c sl e i).eachI (if wide then .b64 else .b32) d f))) c sl e i
      (dest s c sl e i wide d fun l => BitVec.ofNat 64 (g l)) noP noS 0 := by
  have hty : (if wide then Ty.b64 else Ty.b32).is64 = wide := by cases wide <;> rfl
  obtain ⟨hn, hlt, hp, hs, hv, -, -⟩ := each_eff h (if wide then .b64 else .b32) d (by rw [hty]; exact hd) (fun l => (f l, 0))
    (fun l => BitVec.ofNat 64 (g l)) (by
      intro l _
      rw [hty, hfg]
      cases wide
      · refine Eq.trans ?_ (low_word (g l))
        exact BitVec.eq_of_toNat_eq (by simp [extend, Ty.isSigned, Ty.bits])
      · rfl)
  rw [hty] at hv
  exact wrote_of_go h (Iss.eachI_flags _ _ _ _) hn hlt hp (by rw [Iss.eachI, hs]; simp) hv
    (by funext r; rw [Iss.eachI, hs]; simp [sput, noS])

/-- The writes of a special register's value in an s register, a pair where it is wide. -/
def specialWrites (wide : Bool) (d v : Nat) : List (Nat × Dword) :=
  if wide then [(d, BitVec.ofNat 64 (v % 2 ^ 32)), (d + 1, BitVec.ofNat 64 (v / 2 ^ 32))] else [(d, BitVec.ofNat 64 v)]

theorem specialWrites_nodup (wide : Bool) (d v : Nat) : ((specialWrites wide d v).map Prod.fst).Nodup := by
  cases wide <;> simp [specialWrites]

/-- What a write of one register or of a pair leaves in a register. -/
theorem sput_pair {wide : Bool} {lo x hi : Dword} {y z : Word} (hlo : lo.setWidth 32 = y) (hx : x.setWidth 32 = y)
    (hhi : hi.setWidth 32 = z) (d r : Nat) :
    sput (if wide then [(d, lo), (d + 1, hi)] else [(d, x)]) r =
      if r ≠ 0 then (if r = d then some y else if wide = true ∧ r = d + 1 then some z else none) else none := by
  by_cases h0 : r = 0
  · simp [sput, h0]
  by_cases hd : r = d
  · subst hd
    cases wide <;> simp [sput, h0, hlo, hx]
  by_cases hd1 : r = d + 1
  · subst hd1
    cases wide <;> simp [sput, hhi]
  · cases wide <;> simp [sput, h0, hd, hd1, Ne.symm hd, Ne.symm hd1]

theorem sput_specialWrites (wide : Bool) (d v r : Nat) :
    sput (specialWrites wide d v) r =
      if r ≠ 0 then
        (if r = d then some ((BitVec.ofNat 64 v).setWidth 32)
         else if wide = true ∧ r = d + 1 then some ((BitVec.ofNat 64 v >>> 32).setWidth 32) else none)
      else none := by
  refine sput_pair ?_ rfl ?_ d r
  · rw [← low_word, ← low_word]
    exact BitVec.eq_of_toNat_eq (by simp)
  · rw [← low_word, high_word]

/-- The two encodings of `SRD` (R297). -/
def SrdForm (i : Instr) (reg : BitVec 12) (sd : Bool) (d : BitVec 8) : Prop :=
  (∃ h, i = .srd h reg sd d) ∨ (∃ h d7 a7, i = .srdShort h d7 a7 ∧ reg = a7.setWidth 12 ∧ sd = false ∧ d = d7.setWidth 8)

variable {reg : BitVec 12} {sd : Bool} {d : BitVec 8}

theorem SrdForm.exec_eq (hi : SrdForm i reg sd d) (s : State) : exec i s = srdOp i reg.toNat sd d s := by
  rcases hi with ⟨h, rfl⟩ | ⟨h, d7, a7, rfl, rfl, rfl, rfl⟩
  · rfl
  · rw [BitVec.toNat_setWidth_of_le (by decide)]
    rfl

theorem SrdForm.team (hi : SrdForm i reg sd d) : (streamsOf (op9Of i)).1 = true := by
  rcases hi with ⟨h, rfl⟩ | ⟨h, d7, a7, rfl, rfl, rfl, rfl⟩ <;> rfl

/-- A destination in the v registers is below the register count (R172). -/
theorem SrdForm.dest_le (hi : SrdForm i reg false d) (h : Clear s c sl e i) :
    d.toNat + (if wideReg reg.toNat then 2 else 1) ≤ 256 := by
  have huse : (uvs false d (if wideReg reg.toNat then 2 else 1)).w ∈ usesOf (s.iss c sl e i).alg false i := by
    rcases hi with ⟨h, rfl⟩ | ⟨h, d7, a7, rfl, rfl, -, rfl⟩
    · simp [usesOf, longOf, wideSpecial_eq_wideReg]
    · simp [usesOf, longOf, wideSpecial_eq_wideReg]
  exact (h.regs _ huse rfl).trans (min_le_left _ _)

/-- Without an active lane no destination is written. -/
theorem dest_idle (hl : lanes s c sl e i = []) (wide : Bool) (d : BitVec 8) (z : Nat → Dword) : dest s c sl e i wide d z = noV := by
  funext l r
  have hoff : ¬ active s c sl e i l = true := fun ha => by simpa [hl] using (mem_lanes l).2 ha
  rw [dest, if_neg hoff, noV]

/-- The checks of `SRD` (R298, R299) pass. -/
theorem srd_legal {n : Nat} (hspec : teamSpecial n = true) (heven : wideReg n = true → d.toNat % 2 = 0)
    (hlane : sd = true → laneReg n = false) :
    (!teamSpecial n || (sd && laneSpecial n) || (wideSpecial n && decide (d.toNat % 2 = 1))) = false := by
  have hlane' : (sd && laneSpecial n) = false := by
    rw [Bool.and_eq_false_imp]
    exact hlane
  have hodd : (wideSpecial n && decide (d.toNat % 2 = 1)) = false := by
    rw [wideSpecial_eq_wideReg, Bool.and_eq_false_imp]
    exact fun hw => by simp [heven hw]
  rw [hspec, hlane', hodd]
  rfl

/-- `SRD` in the team stream (R47, R297 to R299). -/
theorem srdOp_team (hi : SrdForm i reg sd d) (h : Clear s c sl e i) {val : Nat → Nat}
    (hv : ∀ l, Said.special s c sl e reg.toNat l = some (val l))
    (heven : wideReg reg.toNat = true → d.toNat % 2 = 0) (hlane : sd = true → laneReg reg.toNat = false) :
    ∃ t, srdOp i reg.toNat sd d s = .next t ∧
      Wrote s t c sl e i (if sd then noV else dest s c sl e i (wideReg reg.toNat) d fun l => BitVec.ofNat 64 (val l)) noP
        (fun r => if sd = true ∧ lanes s c sl e i ≠ [] ∧ r ≠ 0 then
            (if r = d.toNat then some ((BitVec.ofNat 64 (val 0)).setWidth 32)
             else if wideReg reg.toNat = true ∧ r = d.toNat + 1 then some ((BitVec.ofNat 64 (val 0) >>> 32).setWidth 32) else none)
          else none) 0 := by
  have hval : ∀ l, (s.iss c sl e i).special? s reg.toNat l = (val l, s) := fun l => Iss.special?_eq (hv l)
  have hpriv : (handlerOnly reg.toNat && !(s.iss c sl e i).e.handler) = false := by
    rw [Bool.and_eq_false_imp]
    exact fun hn => by simpa [State.iss] using special_handler hn (hv 0)
  refine ⟨_, bothStreams_team_clear h hi.team (srd_legal (teamSpecial_of_special (hv 0)) heven hlane) hpriv _ _ _ _, ?_⟩
  by_cases hl : lanes s c sl e i = []
  · have hempty : (s.iss c sl e i).act.isEmpty = true := by rw [act_eq h, hl]; rfl
    rw [hempty, if_pos rfl, dest_idle hl, ite_self]
    exact wrote_of_go (f := {}) h rfl (by simp) (by simp) rfl (by simp) (by funext l r; rfl)
      (by funext r; rw [if_neg fun hr => hr.2.1 hl]; simp [sput])
  · rw [act_notEmpty h hl]
    simp only [hval, Bool.false_eq_true, if_false, wideSpecial_eq_wideReg]
    cases sd with
    | true =>
      have hsame : val ((s.iss c sl e i).act.headD 0) = val 0 :=
        Option.some.inj ((hv _).symm.trans ((special_uniform (hlane rfl) _ _).trans (hv 0)))
      rw [hsame]
      refine wrote_of_go h rfl (by simp) (by simp) rfl (specialWrites_nodup _ _ _) (by funext l r; rfl) ?_
      funext r
      simp only [hl, ne_eq, not_false_eq_true, true_and]
      exact sput_specialWrites _ _ _ r
    | false =>
      have hsame : ∀ l, (if laneSpecial reg.toNat then val l else val ((s.iss c sl e i).act.headD 0)) = val l := by
        intro l
        cases hr : laneReg reg.toNat
        · rw [laneSpecial_eq_laneReg, hr]
          exact Option.some.inj ((hv _).symm.trans ((special_uniform hr _ _).trans (hv l)))
        · rw [laneSpecial_eq_laneReg, hr, if_pos rfl]
      have hnoS : (fun r : Nat => if false = true ∧ lanes s c sl e i ≠ [] ∧ r ≠ 0 then
            (if r = d.toNat then some ((BitVec.ofNat 64 (val 0)).setWidth 32)
             else if wideReg reg.toNat = true ∧ r = d.toNat + 1 then some ((BitVec.ofNat 64 (val 0) >>> 32).setWidth 32) else none)
          else none) = noS := by
        funext r
        simp [noS]
      rw [hnoS]
      exact wrote_eachI h (wideReg reg.toNat) d (hi.dest_le h) _ val hsame

end Read

/-! ### The control stream (R313) -/

section Ctl

variable {s : State} {cl : Nat} {i : Instr} {n v : Nat}

/-- The value that the text gives is the one that the control stream reads. -/
theorem CIss.special_eq (h : ctlSpecial? s cl n = some v) : (s.ciss cl i).special s n = v := by
  unfold ctlSpecial? at h
  split at h
  case h_2 => exact (maskBits_eq_sum _).trans (Option.some.inj h)
  case h_6 | h_7 => exact Option.some.inj (Option.ite_none_right_eq_some.mp h).2
  case h_11 => exact absurd h (by simp)
  all_goals exact Option.some.inj h

/-- The registers that have a value there are its own, and those of handler state have one in it alone. -/
theorem ctlSpecial_of_value (h : ctlSpecial? s cl n = some v) :
    ctlSpecial n = true ∧ (handlerOnly n && !(s.ctl cl).handler) = false := by
  unfold ctlSpecial? at h
  split at h
  case h_6 | h_7 => exact ⟨rfl, by simpa [handlerOnly] using (Option.ite_none_right_eq_some.mp h).1⟩
  case h_11 => exact absurd h (by simp)
  all_goals exact ⟨rfl, rfl⟩

/-- With nothing under way, a write of a c register stands at once for the readers that R185 speaks of. -/
theorem CIss.step_quiet (y : CIss) (fr : Nat) (st : Store Dword) (w : Nat × Dword) :
    (y.step fr (st, []) w).1 = if w.1 = 0 then st else st.set 0 w.1 w.2 := by
  unfold CIss.step
  split
  · rfl
  · split <;> rfl

/-- With nothing under way, an instruction that writes one c register is what its write says (R267). -/
theorem CIss.finish_cwrote (h : CClear s cl i) (d : Nat) (w : Dword) :
    CWrote s ((s.ciss cl i).finish s (.eff [(d, w)])) cl i (fun r => if r = d ∧ r ≠ 0 then some w else none) := by
  have hlate : (s.ctl cl).late.filter (fun r => decide ((s.ciss cl i).x.cycle < r.avail)) = [] := by
    rw [List.filter_eq_nil_iff]
    intro r hr
    have hq : r.avail ≤ (s.ciss cl i).x.cycle := h.quiet r hr
    simpa using hq
  rw [CIss.finish, CIss.commit, show (s.ciss cl i).cl = cl from rfl, hlate, CIss.charge_goes, show (s.ciss cl i).cl = cl from rfl]
  refine ⟨rfl, fun n hn => ?_, fun r => ?_, ?_⟩
  · rw [State.ctl_setCtl_other _ _ hn, State.ctl_setCtl_other _ _ hn]
    rfl
  · simp only [State.ctl_setCtl_same, List.foldl_cons, List.foldl_nil, CIss.step_quiet]
    by_cases hd : d = 0
    · have hr : ¬ (r = d ∧ r ≠ 0) := fun hr => hr.2 (hr.1.trans hd)
      rw [if_pos hd, if_neg hr]
      rfl
    · rw [if_neg hd, Store.get_set]
      by_cases hr : r = d
      · rw [if_pos hr, if_pos ⟨hr, fun h0 => hd (hr.symm.trans h0)⟩]
        rfl
      · rw [if_neg hr, if_neg fun h0 => hr h0.1]
        rfl
  · simp only [State.ctl_setCtl_same]
    rfl

/-- An instruction of both streams whose checks let it through does its work in the control stream (R183). -/
theorem bothStreams_ctl_clear (h : CClear s cl i) (hst : (streamsOf (op9Of i)).2 = true) {cbad cpriv : CIss → Bool}
    (hb : cbad (s.ciss cl i) = false) (hp : cpriv (s.ciss cl i) = false) (bad priv : Iss → Bool) (work : Iss → Act)
    (cwork : CIss → CAct) :
    bothStreams i s bad priv work cbad cpriv cwork = .next ((s.ciss cl i).finish s (cwork (s.ciss cl i))) := by
  have hchecks : (s.ciss cl i).checks (cbad (s.ciss cl i)) (cpriv (s.ciss cl i)) = none := by
    rw [hb, hp, CIss.checks_eq h hst]
  unfold bothStreams State.issueCtl
  rw [h.cur]
  dsimp only
  rw [hchecks]

/-- `SRD` in the control stream. -/
theorem srdOp_ctl {hd : Hdr} {reg : BitVec 12} {d : BitVec 8} (h : CClear s cl (.srd hd reg true d))
    (hv : ctlSpecial? s cl reg.toNat = some v) :
    ∃ t, exec (.srd hd reg true d) s = .next t ∧
      CWrote s t cl (.srd hd reg true d) (fun r => if r = d.toNat ∧ r ≠ 0 then some (BitVec.ofNat 64 v) else none) := by
  obtain ⟨hspec, hpriv⟩ := ctlSpecial_of_value hv
  refine ⟨_, bothStreams_ctl_clear h rfl (by rw [hspec]; rfl) hpriv _ _ _ _, ?_⟩
  rw [CIss.special_eq hv]
  exact CIss.finish_cwrote h d.toNat (BitVec.ofNat 64 v)

end Ctl

/-- Settles O35: the value that the instruction reads is the text's, register by register, and its writes are those of a result
in each active lane, of an s register or pair, or of a c register. -/
theorem specialRegistersRead : Obligations.SpecialRegistersRead := by
  unfold Obligations.SpecialRegistersRead
  refine ⟨fun s c sl e i reg sd d hi h hv heven hlane => ?_, fun s cl hd reg d v h hv => srdOp_ctl h hv⟩
  rw [SrdForm.exec_eq hi]
  refine srdOp_team hi h (fun l => ?_) heven hlane
  obtain ⟨v, hl⟩ := Option.isSome_iff_exists.mp (hv l)
  rw [hl]
  rfl

end Sys2Proof.Machine
end

section
/-! SUPPORT. Byte-count objects: the words of a scratchpad, the rounds of R68, and what an operation on an object changes. -/

namespace Sys2Proof.Machine
open Sys2Proof Sys2Proof.Said

/-! ### Words of a scratchpad -/

/-- A byte list's number is the text's value of those bytes (R4). -/
theorem natOfBytes_map_range (f : Nat → Byte) (n : Nat) : natOfBytes ((List.range n).map f) = little n f := by
  induction n generalizing f with
  | zero => rfl
  | succ n ih =>
    rw [List.range_succ_eq_map, List.map_cons, List.map_map, natOfBytes, ih, little, little, List.range_succ_eq_map, List.map_cons,
      List.sum_cons, List.map_map, ← List.sum_map_mul_left]
    simp [Function.comp_def, Nat.pow_succ', Nat.mul_left_comm]

theorem natOfBytes_readBytes (m : Store Byte) (a n : Nat) : natOfBytes (readBytes m a n) = little n fun q => m.get 0 (a + q) :=
  natOfBytes_map_range _ _

theorem natOfBytes_readScr (s : State) (core a : Nat) : natOfBytes (s.readScr core a 4) = word s core a := natOfBytes_readBytes _ _ _

theorem natOfBytes_lt (bs : List Byte) : natOfBytes bs < 256 ^ bs.length := by
  induction bs with
  | nil => simp [natOfBytes]
  | cons b bs ih =>
    have hb := b.isLt
    rw [natOfBytes, List.length_cons, Nat.pow_succ]
    omega

theorem word_lt (s : State) (core a : Nat) : word s core a < 2 ^ 32 := by
  rw [← natOfBytes_readScr]
  exact (natOfBytes_lt _).trans_eq (by rw [State.readScr, readBytes, List.length_map, List.length_range]; norm_num)

theorem word_congr {s t : State} {core : Nat} (h : (t.core core).scratch = (s.core core).scratch) (a : Nat) :
    word t core a = word s core a := by rw [word, word, h]

/-- Bytes read from within those written. -/
theorem readBytes_writeBytes (m : Store Byte) (a k n : Nat) (bs : List Byte) (h : k + n ≤ bs.length) :
    readBytes (writeBytes m a bs) (a + k) n = (bs.drop k).take n := by
  apply List.ext_getElem
  · simp [readBytes]; omega
  · intro q hq _
    have hq' : q < n := by simpa [readBytes] using hq
    simp only [readBytes, List.getElem_map, List.getElem_range, List.getElem_take, List.getElem_drop, Nat.add_assoc]
    exact get_writeBytes_at m a bs (k + q) (by omega)

/-- Bytes read from behind those written. -/
theorem readBytes_writeBytes_above (m : Store Byte) (a k n : Nat) (bs : List Byte) (h : bs.length ≤ k) :
    readBytes (writeBytes m a bs) (a + k) n = readBytes m (a + k) n := by
  simp only [readBytes]
  refine List.map_congr_left fun q _ => get_writeBytes_other m a bs _ (.inr (by omega))

/-! ### The rounds of R68 -/

/-- The rounds of R68 by division. -/
theorem arriving_full (k n x p : Nat) (hx : 0 < x) (hk : n < k) (hp : p < 2 ^ 32) :
    arriving k n x x p = (x - n % x, (p + n / x) % 2 ^ 32) := by
  induction k generalizing n p with
  | zero => omega
  | succ k ih =>
    rw [arriving]
    split
    · next hle =>
      rw [ih (n - x) ((p + 1) % 2 ^ 32) (by omega) (Nat.mod_lt _ (by decide)), ← Nat.mod_eq_sub_mod hle, Nat.mod_add_mod,
        Nat.div_eq_sub_div hx hle]
      congr 2
      omega
    · next hlt =>
      rw [Nat.mod_eq_of_lt (by omega), Nat.div_eq_of_lt (by omega), Nat.add_zero, Nat.mod_eq_of_lt hp]

/-- The model's closed form of an arrival is the loop of R68. -/
theorem arriveAt_eq_arriving {n r x p : Nat} (hx : x ≠ 0) (hn : n ≠ 0) :
    ((arriveAt n r x p).1, (arriveAt n r x p).2.2) = arriving (n + 2) n r x p := by
  have hskip : (decide (x = 0) || decide (n = 0)) = false := by simp [hx, hn]
  rw [arriveAt, hskip, if_neg Bool.false_ne_true, arriving]
  split
  · next hlt => rw [if_neg (by omega)]
  · next hle =>
    rw [if_pos (by omega), arriving_full _ _ _ _ (by omega) (by omega) (Nat.mod_lt _ (by decide)), Nat.mod_add_mod]

/-- An arrival's results are words again, and EXPECT stays. -/
theorem arriveAt_bounds {n r x p : Nat} (hr : r < 2 ^ 32) (hx : x < 2 ^ 32) (hp : p < 2 ^ 32) :
    (arriveAt n r x p).1 < 2 ^ 32 ∧ (arriveAt n r x p).2.1 = x ∧ (arriveAt n r x p).2.2 < 2 ^ 32 := by
  unfold arriveAt
  split
  · exact ⟨hr, rfl, hp⟩
  · split
    · exact ⟨by simp only; omega, rfl, hp⟩
    · exact ⟨by simp only; omega, rfl, Nat.mod_lt _ (by decide)⟩

/-! ### Scratchpad bytes written, with the sleepers that they wake -/

/-- What a write into a core's scratchpad changes, as far as awake sub-teams, teams and that scratchpad go. -/
structure Scratched (s u : State) (core a : Nat) : Prop where
  entry : ∀ c sl e, Awake s c sl e → u.entry c sl e = s.entry c sl e
  team : ∀ c sl n, u.team c sl n = s.team c sl n
  kept : ∀ q, q < a ∨ a + 16 ≤ q → (u.core core).scratch.get 0 q = (s.core core).scratch.get 0 q

theorem Scratched.refl (s : State) (core a : Nat) : Scratched s s core a := ⟨fun _ _ _ _ => rfl, fun _ _ _ => rfl, fun _ _ => rfl⟩

theorem foldl_ctls {α : Type} {f : State → α → State} (hf : ∀ s x, f s x = { s with ctls := (f s x).ctls }) (l : List α) (s : State) :
    l.foldl f s = { s with ctls := (l.foldl f s).ctls } := by
  induction l generalizing s with
  | nil => rfl
  | cons x l ih =>
    rw [List.foldl_cons, ih, hf]

/-- A check of the phases wakes sleepers and does nothing else; of the control streams it changes nothing that a team sees. -/
theorem State.phaseCheck_woken (s : State) (core a n : Nat) :
    ∃ u, Woken s u ∧ s.phaseCheck core a n = { u with ctls := (s.phaseCheck core a n).ctls } := by
  refine ⟨_, ?_, foldl_ctls ?_ _ _⟩
  · refine Woken.foldl (fun s p => ?_) _ _
    split
    · next hst =>
      split
      · exact State.wakeEnt_woken hst
      · exact Woken.refl _
    · exact Woken.refl _
  · intro s c
    split
    · split <;> rfl
    · rfl

@[simp] theorem State.slots_writeScr (s : State) (core a : Nat) (bs : List Byte) (n : Nat) :
    ((s.writeScr core a bs).core n).slots = (s.core n).slots := by
  rw [State.writeScr, State.core_setCore]
  split
  · next h => rw [h]
  · rfl

/-- Up to 16 bytes written at an object. -/
theorem State.storeScr_spec (s : State) (core a : Nat) {bs : List Byte} (hbs : bs.length ≤ 16) :
    Scratched s (s.storeScr core a bs) core a ∧
      ((s.storeScr core a bs).core core).scratch = writeBytes (s.core core).scratch a bs := by
  obtain ⟨u, hu, ht⟩ := (s.writeScr core a bs).phaseCheck_woken core a bs.length
  have hscr : ((s.storeScr core a bs).core core).scratch = writeBytes (s.core core).scratch a bs := by
    rw [State.storeScr, ht]
    refine (hu.scratch core).trans ?_
    rw [State.writeScr, State.core_setCore_same]
  have hentry : ∀ c sl e, (s.writeScr core a bs).entry c sl e = s.entry c sl e := fun c sl e => by
    simp only [State.entry, State.slot, State.slots_writeScr]
  refine ⟨⟨fun c sl e ha => ?_, fun c sl n => ?_, fun q hq => ?_⟩, hscr⟩
  · rw [State.storeScr, ht]
    refine (hu.entry_awake fun w => ?_).trans (hentry c sl e)
    rw [hentry]
    exact ha w
  · rw [State.storeScr, ht]
    refine (hu.teams c sl n).trans ?_
    simp only [State.team, State.slot, State.slots_writeScr]
  · rw [hscr]
    exact get_writeBytes_other _ _ _ _ (hq.imp_right fun h => by omega)

/-- The word `k` bytes into what has been written. -/
theorem word_storeScr (s : State) (core a : Nat) {bs : List Byte} (hbs : bs.length ≤ 16) {k : Nat} (hk : k + 4 ≤ bs.length) :
    word (s.storeScr core a bs) core (a + k) = natOfBytes ((bs.drop k).take 4) := by
  rw [← natOfBytes_readScr, State.readScr, (s.storeScr_spec core a hbs).2, readBytes_writeBytes _ _ _ _ _ hk]

/-- A word behind it. -/
theorem word_storeScr_above (s : State) (core a : Nat) {bs : List Byte} (hbs : bs.length ≤ 16) {k : Nat} (hk : bs.length ≤ k) :
    word (s.storeScr core a bs) core (a + k) = word s core (a + k) := by
  rw [← natOfBytes_readScr, State.readScr, (s.storeScr_spec core a hbs).2, readBytes_writeBytes_above _ _ _ _ _ hk, ← State.readScr,
    natOfBytes_readScr]

/-! ### The operations on an object (R68, R262) -/

/-- The new object of `BAR.INITB`: REMAIN and EXPECT are the given count (R262). -/
theorem State.initObj_words (s : State) (core a : Nat) (b : Word) :
    word (s.initObj core a b) core a = b.toNat ∧ word (s.initObj core a b) core (a + 4) = b.toNat ∧
      word (s.initObj core a b) core (a + 8) = 0 ∧ word (s.initObj core a b) core (a + 12) = 0 := by
  have hlen : (bytesOfNat 4 b.toNat ++ bytesOfNat 4 b.toNat ++ bytesOfNat 8 0).length ≤ 16 := by simp
  have hb : b.toNat % 256 ^ 4 = b.toNat := Nat.mod_eq_of_lt (b.isLt.trans_eq (by norm_num))
  have hzero : bytesOfNat 8 0 = bytesOfNat 4 0 ++ bytesOfNat 4 0 := by decide
  refine ⟨?_, ?_, ?_, ?_⟩
  · refine (word_storeScr s core a hlen (k := 0) (by simp)).trans ?_
    rw [List.drop_zero, List.append_assoc, List.take_left' (bytesOfNat_length _ _), natOfBytes_bytesOfNat, hb]
  · refine (word_storeScr s core a hlen (by simp)).trans ?_
    rw [List.append_assoc, List.drop_left' (bytesOfNat_length _ _), List.take_left' (bytesOfNat_length _ _), natOfBytes_bytesOfNat, hb]
  · refine (word_storeScr s core a hlen (by simp)).trans ?_
    rw [List.drop_left' (by simp), hzero, List.take_left' (bytesOfNat_length _ _), natOfBytes_bytesOfNat]
    rfl
  · refine (word_storeScr s core a hlen (by simp)).trans ?_
    rw [hzero, ← List.append_assoc, List.drop_left' (by simp), List.take_of_length_le (by simp), natOfBytes_bytesOfNat]
    rfl

/-- What an arrival of `n` bytes leaves of REMAIN and PHASE (R68). -/
def afterArrival (s : State) (core a n : Nat) : Nat × Nat :=
  if word s core (a + 4) = 0 ∨ n = 0 then (word s core a, word s core (a + 8))
  else arriving (n + 2) n (word s core a) (word s core (a + 4)) (word s core (a + 8))

/-- An arrival in terms of the object's words. -/
theorem State.arrive_eq (s : State) (core a n : Nat) :
    s.arrive core a n =
      if word s core (a + 4) = 0 ∨ n = 0 then s
      else
        let z := arriveAt n (word s core a) (word s core (a + 4)) (word s core (a + 8))
        s.storeScr core a (bytesOfNat 4 z.1 ++ bytesOfNat 4 z.2.1 ++ bytesOfNat 4 z.2.2) := by
  have h0 : natOfBytes (s.readScr core (a + 4 * 0) 4) = word s core a := natOfBytes_readScr _ _ _
  have h1 : natOfBytes (s.readScr core (a + 4 * 1) 4) = word s core (a + 4) := natOfBytes_readScr _ _ _
  have h2 : natOfBytes (s.readScr core (a + 4 * 2) 4) = word s core (a + 8) := natOfBytes_readScr _ _ _
  rw [State.arrive]
  beta_reduce
  rw [h0, h1, h2]
  generalize arriveAt n (word s core a) (word s core (a + 4)) (word s core (a + 8)) = z
  obtain ⟨r, e, p⟩ := z
  by_cases hskip : word s core (a + 4) = 0 ∨ n = 0
  · have hor : (decide (word s core (a + 4) = 0) || decide (n = 0)) = true := by simpa using hskip
    rw [if_pos hskip]
    exact if_pos hor
  · have hor : ¬ (decide (word s core (a + 4) = 0) || decide (n = 0)) = true := by simpa using hskip
    rw [if_neg hskip]
    exact if_neg hor

theorem State.arrive_words (s : State) (core a n : Nat) :
    (word (s.arrive core a n) core a, word (s.arrive core a n) core (a + 8)) = afterArrival s core a n ∧
      word (s.arrive core a n) core (a + 4) = word s core (a + 4) ∧ word (s.arrive core a n) core (a + 12) = word s core (a + 12) := by
  rw [State.arrive_eq, afterArrival]
  split
  · exact ⟨rfl, rfl, rfl⟩
  next hskip =>
  obtain ⟨hx, hn⟩ := not_or.mp hskip
  obtain ⟨hrl, hxl, hpl⟩ := arriveAt_bounds (n := n) (word_lt s core a) (word_lt s core (a + 4)) (word_lt s core (a + 8))
  rw [← arriveAt_eq_arriving hx hn]
  generalize arriveAt n (word s core a) (word s core (a + 4)) (word s core (a + 8)) = z at hrl hxl hpl ⊢
  have hlen : (bytesOfNat 4 z.1 ++ bytesOfNat 4 z.2.1 ++ bytesOfNat 4 z.2.2).length ≤ 16 := by simp
  have hmod : ∀ v, v < 2 ^ 32 → natOfBytes (bytesOfNat 4 v) = v := fun v hv => by
    rw [natOfBytes_bytesOfNat, Nat.mod_eq_of_lt (hv.trans_eq (by norm_num))]
  refine ⟨congrArg₂ Prod.mk ?_ ?_, ?_, ?_⟩
  · refine (word_storeScr s core a hlen (k := 0) (by simp)).trans ?_
    rw [List.drop_zero, List.append_assoc, List.take_left' (bytesOfNat_length _ _), hmod _ hrl]
  · refine (word_storeScr s core a hlen (by simp)).trans ?_
    rw [List.drop_left' (by simp), List.take_of_length_le (by simp), hmod _ hpl]
  · refine (word_storeScr s core a hlen (by simp)).trans ?_
    rw [List.append_assoc, List.drop_left' (bytesOfNat_length _ _), List.take_left' (bytesOfNat_length _ _), hxl, hmod _ (word_lt _ _ _)]
  · exact word_storeScr_above s core a hlen (by simp)

theorem State.arrive_scratched (s : State) (core a n : Nat) : Scratched s (s.arrive core a n) core a := by
  rw [State.arrive_eq]
  split
  · exact Scratched.refl _ _ _
  · exact (s.storeScr_spec core a (by simp)).1

theorem State.barbAct_scratched (s : State) (op core a : Nat) (v : Word) : Scratched s (s.barbAct op core a v) core a := by
  unfold State.barbAct
  split
  · exact (s.storeScr_spec core a (by simp)).1
  · exact s.arrive_scratched core a _

end Sys2Proof.Machine
end

section
/-! SUPPORT. Byte-count barrier instructions of both streams (O27). -/

namespace Sys2Proof.Machine
open Sys2Proof Sys2Proof.Said

/-! ### The object that an instruction names (R261) -/

section Team

variable {s : State} {c sl e : Nat} {i : Instr} {o : Barb} {co a : Nat}

/-- Where the text finds an object, the instruction does. -/
theorem Iss.object_eq (h : Clear s c sl e i) (hobj : objPlace s c sl e i o = some (co, a)) :
    (s.iss c sl e i).object s o = .inr (co, a) := by
  have haddr : (s.iss c sl e i).objAddr o = Said.objAddr s c sl e i o := by
    simp only [Iss.objAddr, Said.objAddr, rs_eq h, rv_eq h, act_eq h]
  obtain ⟨hlegal, hplace⟩ := Option.ite_none_left_eq_some.mp hobj
  obtain ⟨halign, hsign⟩ := not_or.mp hlegal
  simp only [Iss.object, haddr]
  rw [if_neg halign, if_neg hsign]
  by_cases hsp : o.space = .l
  · rw [if_pos hsp] at hplace ⊢
    obtain ⟨hfit, hp⟩ := Option.ite_none_right_eq_some.mp hplace
    rw [if_pos (show _ ≤ (s.iss c sl e i).ver.scratch from hfit)]
    exact congrArg Sum.inr (Option.some.inj hp)
  · rw [if_neg hsp] at hplace ⊢
    rw [show s.tarnAt (clusterOf (s.iss c sl e i).core) (s.iss c sl e i).p.lid _ 16 = some (co, a) from hplace]

/-- PHASE differs from a word's value. -/
theorem phaseOf_bne (s : State) (co a : Nat) (v : Word) : (s.phaseOf co a != v) = !decide (word s co (a + 8) = v.toNat) := by
  have hval : s.phaseOf co a = v ↔ word s co (a + 8) = v.toNat := by
    rw [State.phaseOf, natOfBytes_readScr, ← BitVec.toNat_inj, BitVec.toNat_ofNat, Nat.mod_eq_of_lt (word_lt _ _ _)]
  by_cases h : s.phaseOf co a = v
  · simp [h, hval.mp h]
  · rw [decide_eq_false (fun hw => h (hval.mpr hw))]
    simpa using h

/-- The operands' space is one of those of an object (R261). -/
theorem barbBad_of_ok (h : o.ok = true) : barbBad o = false := by
  simp only [Barb.ok, Bool.and_eq_true] at h
  simp [barbBad, h.1.1]

/-- An operation on an object of this core acts at once (R262). -/
theorem barbOp_here (h : Clear s c sl e i) (hst : (streamsOf (op9Of i)).1 = true) (hok : o.ok = true) (hl : lanes s c sl e i ≠ [])
    (hobj : objPlace s c sl e i o = some (c, a)) (op : Nat) :
    barbOp i o op s = .next ((s.iss c sl e i).finish s [] (.go (s.barbAct op c a (sreg s c sl e o.b.toNat)) {})) := by
  rw [barbOp, bothStreams_team_eq h hst (barbBad_of_ok hok), act_notEmpty h hl, if_neg Bool.false_ne_true, Iss.object_eq h hobj, rs_eq h]
  dsimp only
  rw [if_pos (show c = (s.iss c sl e i).core from rfl)]

/-- One on an object of another core is a message (R262). -/
theorem barbOp_away (h : Clear s c sl e i) (hst : (streamsOf (op9Of i)).1 = true) (hok : o.ok = true) (hl : lanes s c sl e i ≠ [])
    (hobj : objPlace s c sl e i o = some (co, a)) (hco : co ≠ c) (op : Nat) :
    barbOp i o op s = .next ((s.iss c sl e i).finish s []
      (.go (s.addReq ((s.iss c sl e i).req s (.barb op (sreg s c sl e o.b.toNat)) (.bank co) a
        ((rowsOf (s.iss c sl e i).e.mask).headD 0) (s.iss c sl e i).act)).2 {})) := by
  rw [barbOp, bothStreams_team_eq h hst (barbBad_of_ok hok), act_notEmpty h hl, if_neg Bool.false_ne_true, Iss.object_eq h hobj, rs_eq h]
  dsimp only
  rw [if_neg (show ¬ co = (s.iss c sl e i).core from hco)]

/-- After an operation on its own core's object the sub-team goes on, with its registers as they were and the object as the operation
leaves it. -/
theorem finish_barbAct (ha : Awake s c sl e) (op : Nat) (v : Word) :
    let u := s.barbAct op c a v
    let t := (s.iss c sl e i).finish s [] (.go u {})
    Goes s t c sl e i ∧ SameTeam s t c sl e ∧
      (∀ q, q < a ∨ a + 16 ≤ q → (t.core c).scratch.get 0 q = (s.core c).scratch.get 0 q) ∧ ∀ b, word t c b = word u c b := by
  intro u t
  have hu := s.barbAct_scratched op c a v
  obtain ⟨honly, hent, hteam⟩ := finish_go (i := i) (hu.entry c sl e ha)
  refine ⟨goes_of_onward hent, sameTeam_of_aged (i := i) ?_, fun q hq => ?_, word_congr (honly.scratch c)⟩
  · rw [hteam, hu.team]
    rfl
  · rw [honly.scratch]
    exact hu.kept q hq

/-- A message is the one request that its issue sends. -/
theorem finish_message (kind : ReqKind) (tgt : Tgt) (va row : Nat) (ls : List Nat) :
    let r := { (s.iss c sl e i).req s kind tgt va row ls with id := s.ids, age := s.ids }
    let t := (s.iss c sl e i).finish s [] (.go (s.addReq ((s.iss c sl e i).req s kind tgt va row ls)).2 {})
    Said.Sent s t c sl e .sent [r] ∧ Goes s t c sl e i := by
  intro r t
  obtain ⟨honly, hent, hteam⟩ := finish_go (s := s) (s1 := (s.addReq ((s.iss c sl e i).req s kind tgt va row ls)).2) (c := c) (sl := sl)
    (e := e) (i := i) rfl
  exact ⟨⟨honly.reqs, by simp [Said.MyRequests]; exact ⟨rfl, rfl, rfl, rfl, rfl, rfl⟩, sameTeam_of_aged hteam, honly.sameMemory, honly.scratch⟩,
    goes_of_onward hent⟩

/-- `BAR.WAITB` with no message of its team on the way (R263). -/
theorem execBarWaitb_team {h : Hdr} (hc : Clear s c sl e (.barWaitb h o)) (hl : lanes s c sl e (.barWaitb h o) ≠ [])
    (hobj : objPlace s c sl e (.barWaitb h o) o = some (co, a)) (hser : (s.entry c sl e).serialised = false)
    (hbusy : co = c ∨ ∀ r ∈ s.reqs, ¬ (r.src = .team c sl (s.entry c sl e).team ∧ r.tgt = .bank co)) :
    ∃ t, exec (.barWaitb h o) s = .next t ∧ OnlyEntry s t c sl e ∧ SameTeam s t c sl e ∧
      (if word s co (a + 8) = (sreg s c sl e o.b.toNat).toNat then
        Sleeps s t c sl e (.barWaitb h o) (.phase co a (sreg s c sl e o.b.toNat))
       else Goes s t c sl e (.barWaitb h o)) := by
  have hnobusy : (co != (s.iss c sl e (.barWaitb h o)).core && s.bankBusy (s.iss c sl e (.barWaitb h o)).src co) = false := by
    rcases hbusy with rfl | hnone
    · exact Bool.and_eq_false_iff.mpr (.inl (bne_self_eq_false _))
    · refine Bool.and_eq_false_iff.mpr (.inr ?_)
      simp only [State.bankBusy, List.any_eq_false, Bool.and_eq_true, decide_eq_true_eq]
      exact hnone
  have hexec : exec (.barWaitb h o) s = .next ((s.iss c sl e (.barWaitb h o)).finish s []
      (if word s co (a + 8) = (sreg s c sl e o.b.toNat).toNat then .sleep s (.phase co a (sreg s c sl e o.b.toNat)) else .eff {})) := by
    refine (bothStreams_team_eq hc rfl (barbBad_of_ok hc.wf) _ _ _ _).trans ?_
    rw [act_notEmpty hc hl, if_neg Bool.false_ne_true, Iss.object_eq hc hobj, rs_eq hc]
    dsimp only
    rw [hnobusy, phaseOf_bne, show (s.iss c sl e (.barWaitb h o)).e.serialised = false from hser]
    by_cases hw : word s co (a + 8) = (sreg s c sl e o.b.toNat).toNat <;> simp [hw]
  refine ⟨_, hexec, ?_⟩
  split
  · obtain ⟨honly, hent, hteam⟩ := finish_sleep (i := .barWaitb h o) (.phase co a (sreg s c sl e o.b.toNat))
      (rfl : s.entry c sl e = s.entry c sl e)
    exact ⟨honly, sameTeam_of_eq hteam, sleeps_of_asleep hent⟩
  · obtain ⟨honly, hent, hteam⟩ := finish_go (i := .barWaitb h o) (rfl : s.entry c sl e = s.entry c sl e)
    exact ⟨honly, sameTeam_of_aged hteam, goes_of_onward hent⟩

end Team

section Ctl

variable {s : State} {cl : Nat} {i : Instr} {o : Barb} {co a : Nat}

/-- Where the text finds an object, the control stream does. -/
theorem CIss.object_eq (h : CClear s cl i) (hobj : ctlPlace s cl o = some (co, a)) : (s.ciss cl i).object s o = .inr (co, a) := by
  obtain ⟨hlegal, hplace⟩ := Option.ite_none_left_eq_some.mp hobj
  obtain ⟨halign, hrange⟩ := not_or.mp hlegal
  simp only [CIss.object, rc_eq h]
  rw [if_neg halign, if_neg hrange]
  cases hp : s.parcelOn (16 * cl + (creg s cl o.a + o.off.signExtend 64).toNat / 2 ^ 20) (s.ctl cl).lid with
  | none => rw [hp] at hplace; exact absurd hplace (by simp)
  | some p =>
    rw [hp] at hplace
    obtain ⟨hfit, hv⟩ := Option.ite_none_right_eq_some.mp hplace
    rw [show s.parcelOn (16 * (s.ciss cl i).cl + _) (s.ciss cl i).x.lid = some p from hp]
    dsimp only
    rw [if_pos (show _ ≤ (s.ciss cl i).ver.scratch from hfit)]
    exact congrArg Sum.inr (Option.some.inj hv)

/-- The operands of the control stream's form are legal (R261). -/
theorem barbCtlBad_of_regs (hsb : o.sb = true) (hsp : o.space = .l) (ha : o.a.toNat + 1 ≤ 32) (hb : o.b.toNat + 1 ≤ 32) :
    barbCtlBad o = false := by
  have hcReg : ∀ r : BitVec 8, r.toNat + 1 ≤ 32 → cReg r = true := fun r hr => by
    simp only [cReg, decide_eq_true_eq]
    omega
  simp [barbCtlBad, hsb, hsp, hcReg _ ha, hcReg _ hb]

/-- The registers of an object's operands, as the checks see them. -/
theorem barbCtlBad_of_clear (h : CClear s cl i) (hu : us o.a ∈ usesOf 1 true i ∧ us o.b ∈ usesOf 1 true i) (hsb : o.sb = true) (hsp : o.space = .l) :
    barbCtlBad o = false := by
  have hreg : ∀ r : BitVec 8, us r ∈ usesOf 1 true i → r.toNat + 1 ≤ 32 := fun r hr => by
    rcases h.regs _ hr with ⟨-, hle⟩ | hcls
    · exact hle
    · exact absurd hcls (by simp [us])
  exact barbCtlBad_of_regs hsb hsp (hreg o.a hu.1) (hreg o.b hu.2)

/-- In the control stream an operation acts at once, wherever the object is. -/
theorem barbOp_ctl (h : CClear s cl i) (hst : (streamsOf (op9Of i)).2 = true) (hlegal : barbCtlBad o = false)
    (hobj : ctlPlace s cl o = some (co, a)) (op : Nat) :
    barbOp i o op s = .next ((s.ciss cl i).finish s (.go (s.barbAct op co a ((creg s cl o.b).setWidth 32)) [])) := by
  rw [barbOp, bothStreams_ctl_eq h hst _ _ _ hlegal, CIss.object_eq h hobj, rc_eq h]

/-- Such an operation leaves the object as it says, and the stream goes on. -/
theorem finish_ctl_words (u : State) :
    CGoes s ((s.ciss cl i).finish s (.go u [])) cl i ∧ ∀ co b, word ((s.ciss cl i).finish s (.go u [])) co b = word u co b :=
  ⟨CIss.finish_go_goes u, fun _ _ => rfl⟩

/-- `BAR.WAITB` in the control stream (R263). -/
theorem execBarWaitb_ctl {h : Hdr} (hc : CClear s cl (.barWaitb h o)) (hlegal : barbCtlBad o = false)
    (hobj : ctlPlace s cl o = some (co, a)) :
    ∃ t, exec (.barWaitb h o) s = .next t ∧ t = { s with ctls := t.ctls } ∧
      (if word s co (a + 8) = ((creg s cl o.b).setWidth 32).toNat then CSleeps s t cl (.phase co a ((creg s cl o.b).setWidth 32))
       else CGoes s t cl (.barWaitb h o)) := by
  have hexec : exec (.barWaitb h o) s = .next ((s.ciss cl (.barWaitb h o)).finish s
      (if word s co (a + 8) = ((creg s cl o.b).setWidth 32).toNat then .sleep s (.phase co a ((creg s cl o.b).setWidth 32))
       else .eff [])) := by
    refine (bothStreams_ctl_eq hc rfl _ _ _ hlegal _).trans ?_
    rw [CIss.object_eq hc hobj, rc_eq hc]
    dsimp only
    rw [phaseOf_bne]
    by_cases hw : word s co (a + 8) = ((creg s cl o.b).setWidth 32).toNat <;> simp [hw]
  refine ⟨_, hexec, ?_⟩
  split
  · refine ⟨rfl, ?_⟩
    simp only [CIss.finish, CIss.charge, CSleeps, show (s.ciss cl (.barWaitb h o)).cl = cl from rfl, State.ctl_setCtl_same, and_self]
  · refine ⟨?_, CIss.finish_go_goes s⟩
    rw [CIss.finish, CIss.commit_idle]
    rfl

end Ctl

/-- Settles O27: an object of the issuing core, and any object that a control stream names, is acted on at once; its bytes are then
those of the new object or of the closed form of R68's rounds. -/
theorem byteBarriersInBothStreams : Obligations.ByteBarriersInBothStreams := by
  unfold Obligations.ByteBarriersInBothStreams
  refine ⟨fun s c sl e o co a => ⟨?init, ?arrive, ?message, ?wait⟩, fun s cl o co a => ⟨?cinit, ?carrive, ?cwait⟩⟩
  case init =>
    rintro h ⟨hc, ha, hl, hobj, -⟩ rfl
    obtain ⟨hg, ht, hk, hw⟩ := finish_barbAct (i := .barInitb h o) (a := a) ha 0 (sreg s co sl e o.b.toNat)
    refine ⟨_, barbOp_here hc rfl hc.wf hl hobj 0, hg, ht, hk, ?_⟩
    simp only [hw]
    exact s.initObj_words co a _
  case arrive =>
    rintro h ⟨hc, ha, hl, hobj, -⟩ rfl
    obtain ⟨hg, ht, hk, hw⟩ := finish_barbAct (i := .barArriveb h o) (a := a) ha 1 (sreg s co sl e o.b.toNat)
    refine ⟨_, barbOp_here hc rfl hc.wf hl hobj 1, hg, ht, hk, ?_⟩
    simp only [hw]
    exact s.arrive_words co a _
  case message =>
    rintro i op hi ⟨hc, ha, hl, hobj, -⟩ hco
    have hexec : exec i s = barbOp i o op s ∧ (streamsOf (op9Of i)).1 = true ∧ o.ok = true := by
      rcases hi with ⟨h, rfl, rfl⟩ | ⟨h, rfl, rfl⟩ <;> exact ⟨rfl, rfl, hc.wf⟩
    obtain ⟨hop, hst, hok⟩ := hexec
    obtain ⟨hsent, hg⟩ := finish_message (s := s) (c := c) (sl := sl) (e := e) (i := i) (.barb op (sreg s c sl e o.b.toNat)) (.bank co) a
      ((rowsOf (s.iss c sl e i).e.mask).headD 0) (s.iss c sl e i).act
    exact ⟨_, _, hop.trans (barbOp_away hc hst hok hl hobj hco op), hsent, hg, rfl, rfl, rfl⟩
  case wait =>
    rintro h ⟨hc, -, hl, hobj, hser⟩ hbusy
    exact execBarWaitb_team hc hl hobj hser hbusy
  case cinit =>
    rintro h ⟨hc, hsb, hsp, hobj⟩
    obtain ⟨hg, hw⟩ := finish_ctl_words (s := s) (cl := cl) (i := .barInitb h o) (s.barbAct 0 co a ((creg s cl o.b).setWidth 32))
    refine ⟨_, barbOp_ctl hc rfl (barbCtlBad_of_clear hc (by simp [usesOf, longOf, uvs]) hsb hsp) hobj 0, hg, ?_⟩
    simp only [hw]
    exact s.initObj_words co a _
  case carrive =>
    rintro h ⟨hc, hsb, hsp, hobj⟩
    obtain ⟨hg, hw⟩ := finish_ctl_words (s := s) (cl := cl) (i := .barArriveb h o) (s.barbAct 1 co a ((creg s cl o.b).setWidth 32))
    refine ⟨_, barbOp_ctl hc rfl (barbCtlBad_of_clear hc (by simp [usesOf, longOf, uvs]) hsb hsp) hobj 1, hg, ?_⟩
    simp only [hw]
    obtain ⟨hpair, hexpect, -⟩ := s.arrive_words co a ((creg s cl o.b).setWidth 32).toNat
    exact ⟨hpair, hexpect⟩
  case cwait =>
    rintro h ⟨hc, hsb, hsp, hobj⟩
    exact execBarWaitb_ctl hc (barbCtlBad_of_clear hc (by simp [usesOf, longOf, uvs]) hsb hsp) hobj

end Sys2Proof.Machine
end

section
/-! SUPPORT. Bytes that microcode sends to memory: the requests of `sendBytes`, the bytes that they carry, and the fields of a frame
that they hold. -/

namespace Sys2Proof.Machine
open Sys2Proof Sys2Proof.Said

/-! ### The requests (R138) -/

/-- What a store request carries, and where. -/
def Req.cargo (r : Req) : ReqKind × Nat := (r.kind, r.va)

/-- What a request of these carries for an address. -/
def cargoByte (x : ReqKind × Nat) (a : Nat) : Option Byte :=
  match x.1 with
  | .store bs => (bs.find? fun b => x.2 + b.1 == a).map Prod.snd
  | _ => none

/-- Of the requests, what they carry and where counts. -/
theorem sentByte_eq_cargo (news : List Req) (a : Nat) : sentByte news a = (news.map Req.cargo).findSome? (cargoByte · a) := by
  rw [List.findSome?_map]
  rfl

/-- What writing through an L1 leaves as it was (R149). -/
structure SameButCaches (s t : State) : Prop where
  slots : ∀ n, (t.core n).slots = (s.core n).slots
  memory : SameMemory s t

theorem SameButCaches.refl (s : State) : SameButCaches s s := ⟨fun _ => rfl, rfl, rfl, rfl, rfl, rfl⟩

theorem SameButCaches.trans {s u t : State} (h : SameButCaches s u) (k : SameButCaches u t) : SameButCaches s t :=
  ⟨fun n => (k.slots n).trans (h.slots n), sameMemory_trans h.memory k.memory⟩

theorem SameButCaches.entry {s t : State} (h : SameButCaches s t) (c sl e : Nat) : t.entry c sl e = s.entry c sl e := by
  simp only [State.entry, State.slot, h.slots]

theorem SameButCaches.team {s t : State} (h : SameButCaches s t) (c sl n : Nat) : t.team c sl n = s.team c sl n := by
  simp only [State.team, State.slot, h.slots]

theorem State.cacheStore_same (s : State) (port ctx va : Nat) (bs : List (Nat × Byte)) :
    SameButCaches s (s.cacheStore port ctx va bs) ∧ (s.cacheStore port ctx va bs).reqs = s.reqs := by
  unfold State.cacheStore
  split
  · unfold State.setCache
    split
    · refine ⟨⟨fun n => ?_, rfl, rfl, rfl, rfl, rfl⟩, rfl⟩
      rw [State.core_setCore]
      split
      · next h => rw [h]
      · rfl
    · exact ⟨⟨fun _ => rfl, rfl, rfl, rfl, rfl, rfl⟩, rfl⟩
  · exact ⟨SameButCaches.refl s, rfl⟩

/-- One sector of `sendBytes`. -/
def sendSector (r : Req) (acc : List Nat × State) (x : Nat × List (Nat × Byte)) : List Nat × State :=
  let (id, s1) := acc.2.addReq { r with kind := .store x.2, tgt := .part (partOf x.1), va := x.1 }
  (acc.1 ++ [id], s1.cacheStore r.port r.ctx x.1 x.2)

theorem sendSector_spec (r : Req) (acc : List Nat × State) (x : Nat × List (Nat × Byte)) :
    SameButCaches acc.2 (sendSector r acc x).2 ∧
      ∃ q, (sendSector r acc x).2.reqs = acc.2.reqs ++ [q] ∧ q.cargo = (.store x.2, x.1) := by
  obtain ⟨hsame, hreqs⟩ := State.cacheStore_same
    (acc.2.addReq { r with kind := .store x.2, tgt := .part (partOf x.1), va := x.1 }).2 r.port r.ctx x.1 x.2
  exact ⟨SameButCaches.trans (u := (acc.2.addReq { r with kind := .store x.2, tgt := .part (partOf x.1), va := x.1 }).2)
    ⟨fun _ => rfl, rfl, rfl, rfl, rfl, rfl⟩ hsame, _, hreqs, rfl⟩

theorem foldl_sendSector_spec (r : Req) (xs : List (Nat × List (Nat × Byte))) (acc : List Nat × State) :
    SameButCaches acc.2 (xs.foldl (sendSector r) acc).2 ∧
      ∃ news, (xs.foldl (sendSector r) acc).2.reqs = acc.2.reqs ++ news ∧ news.map Req.cargo = xs.map fun x => (.store x.2, x.1) := by
  induction xs generalizing acc with
  | nil => exact ⟨SameButCaches.refl _, [], by simp⟩
  | cons x xs ih =>
    obtain ⟨hsame, q, hq, hcargo⟩ := sendSector_spec r acc x
    obtain ⟨hrest, news, hnews, hcargos⟩ := ih (sendSector r acc x)
    refine ⟨hsame.trans hrest, q :: news, ?_, ?_⟩
    · rw [List.foldl_cons, hnews, hq, List.append_assoc, List.singleton_append]
    · rw [List.map_cons, List.map_cons, hcargo, hcargos]

/-- The requests of `sendBytes` carry the sectors in order, and nothing else changes but the caches. -/
theorem State.sendBytes_spec (s : State) (src : Src) (port ctx lid va : Nat) (pc : Word) (version : BitVec 3) (gteam : Nat)
    (bs : List Byte) :
    SameButCaches s (s.sendBytes src port ctx lid va pc version gteam bs).2 ∧
      ∃ news, (s.sendBytes src port ctx lid va pc version gteam bs).2.reqs = s.reqs ++ news ∧
        news.map Req.cargo = (sectorsOf va bs).map fun x => (.store x.2, x.1) :=
  foldl_sendSector_spec
    { id := 0, kind := .store [], src := src, port := port, owners := [], ctx := ctx, lid := lid, tgt := .part 0, va := 0, pc := pc,
      version := version, row := 0, gteam := gteam, lanes := 0 } (sectorsOf va bs) ([], s)

/-! ### The bytes (R138) -/

/-- A search in which every hit is the same. -/
theorem findSome?_eq_of_unique {α β : Type} {l : List α} {f : α → Option β} {v : β} {x : α} (hx : x ∈ l) (hv : f x = some v)
    (hu : ∀ y ∈ l, f y = none ∨ f y = some v) : l.findSome? f = some v := by
  induction l with
  | nil => cases hx
  | cons y l ih =>
    rw [List.findSome?_cons]
    rcases hu y List.mem_cons_self with hy | hy
    · rw [hy]
      refine ih ?_ fun z hz => hu z (List.mem_cons_of_mem _ hz)
      rcases List.mem_cons.mp hx with rfl | hx
      · rw [hv] at hy; cases hy
      · exact hx
    · rw [hy]

/-- A search among the values that a function gives. -/
theorem find?_filterMap_map {α β γ : Type} (l : List α) (f : α → Option β) (p : β → Bool) (g : β → γ) :
    ((l.filterMap f).find? p).map g = l.findSome? fun x => ((f x).filter p).map g := by
  induction l with
  | nil => rfl
  | cons x l ih =>
    rw [List.findSome?_cons, List.filterMap_cons]
    cases hf : f x with
    | none => simpa using ih
    | some y =>
      rw [List.find?_cons]
      cases hp : p y
      · simpa [Option.filter, hp] using ih
      · simp [Option.filter, hp]

/-- The bytes of a sector of some bytes written from `va` on. -/
def sectorBytes (va : Nat) (bs : List Byte) (sec : Nat) : List (Nat × Byte) :=
  (List.range 32).filterMap fun o =>
    if va ≤ sec + o && sec + o < va + bs.length then some (o, bs.getD (sec + o - va) 0) else none

/-- What a sector's request carries for an address: the byte written there, if the address is one of the sector's. -/
theorem cargoByte_sector (va sec a : Nat) (bs : List Byte) :
    cargoByte (.store (sectorBytes va bs sec), sec) a =
      if (sec ≤ a ∧ a < sec + 32) ∧ va ≤ a ∧ a < va + bs.length then some (bs.getD (a - va) 0) else none := by
  have hhit : ∀ o : Nat, (((if va ≤ sec + o && sec + o < va + bs.length then some (o, bs.getD (sec + o - va) 0) else none) :
      Option (Nat × Byte)).filter fun b => sec + b.1 == a).map Prod.snd =
        if sec + o = a ∧ va ≤ a ∧ a < va + bs.length then some (bs.getD (a - va) 0) else none := by
    intro o
    by_cases ho : sec + o = a
    · subst ho
      by_cases hin : va ≤ sec + o ∧ sec + o < va + bs.length <;> simp [hin, Option.filter]
    · split <;> simp [Option.filter, ho]
  rw [cargoByte, sectorBytes]
  dsimp only
  rw [find?_filterMap_map]
  simp only [hhit]
  split
  · next h =>
    obtain ⟨⟨hlo, hhi⟩, hin⟩ := h
    refine findSome?_eq_of_unique (x := a - sec) (List.mem_range.mpr (by omega)) (if_pos ⟨by omega, hin⟩) fun o _ => ?_
    by_cases ho : sec + o = a ∧ va ≤ a ∧ a < va + bs.length
    · exact .inr (if_pos ho)
    · exact .inl (if_neg ho)
  · next h =>
    refine List.findSome?_eq_none_iff.mpr fun o ho => if_neg fun hso => h ⟨?_, hso.2⟩
    have hlt := List.mem_range.mp ho
    omega

/-- The requests of some bytes carry, of every address, the byte written there. -/
theorem sectors_byte (va a : Nat) (bs : List Byte) :
    ((sectorsOf va bs).map fun x => ((.store x.2, x.1) : ReqKind × Nat)).findSome? (cargoByte · a) =
      if va ≤ a ∧ a < va + bs.length then some (bs.getD (a - va) 0) else none := by
  cases bs with
  | nil => simp [sectorsOf]
  | cons b bs =>
    have hsec : (sectorsOf va (b :: bs)).map (fun x => ((.store x.2, x.1) : ReqKind × Nat)) =
        (List.range ((va + (b :: bs).length - 1) / 32 + 1 - va / 32)).map fun i =>
          (.store (sectorBytes va (b :: bs) ((va / 32 + i) * 32)), (va / 32 + i) * 32) := by
      simp only [sectorsOf, List.isEmpty_cons, Bool.false_eq_true, if_false, List.map_map]
      rfl
    rw [hsec, List.findSome?_map]
    simp only [Function.comp_def, cargoByte_sector]
    split
    · next h =>
      obtain ⟨hlo, hhi⟩ := h
      have hrange : a / 32 - va / 32 ∈ List.range ((va + (b :: bs).length - 1) / 32 + 1 - va / 32) := List.mem_range.mpr (by omega)
      refine findSome?_eq_of_unique hrange (if_pos ⟨by omega, hlo, hhi⟩) fun i _ => ?_
      by_cases hi : ((va / 32 + i) * 32 ≤ a ∧ a < (va / 32 + i) * 32 + 32) ∧ va ≤ a ∧ a < va + (b :: bs).length
      · exact .inr (if_pos hi)
      · exact .inl (if_neg hi)
    · next h => exact List.findSome?_eq_none_iff.mpr fun i _ => if_neg fun hi => h hi.2

/-- What the requests of some bytes carry. -/
theorem sentByte_of_cargo {news : List Req} {va : Nat} {bs : List Byte}
    (h : news.map Req.cargo = (sectorsOf va bs).map fun x => (.store x.2, x.1)) (a : Nat) :
    sentByte news a = if va ≤ a ∧ a < va + bs.length then some (bs.getD (a - va) 0) else none := by
  rw [sentByte_eq_cargo, h, sectors_byte]

/-! ### Fields of a frame -/

/-- A field of a number's bytes. -/
theorem little_bytesOfNat (m v off n : Nat) (h : off + n ≤ m) :
    (little n fun q => (bytesOfNat m v).getD (off + q) 0) = v / 256 ^ off % 256 ^ n := by
  rw [← natOfBytes_bytesOfNat, ← natOfBytes_map_range, bytesOfNat]
  congr 1
  refine List.map_congr_left fun q hq => ?_
  have hlt := List.mem_range.mp hq
  rw [List.getD_eq_getElem _ _ (by simp; omega)]
  simp [Nat.div_div_eq_div_mul, Nat.pow_add]

end Sys2Proof.Machine
end

section
/-! SUPPORT. Stack entries written to the stack area (R58, R59). -/

namespace Sys2Proof.Machine
open Sys2Proof Sys2Proof.Said

/-! ### The entry that is due -/

/-- Of a stretch of a list with its positions, the first that a test holds of. -/
theorem find?_positions {α : Type} {xs : List (α × Nat)} {l : List α} {p : α → Bool} {k j : Nat} {y : α}
    (hxs : ∀ (i : Nat) (h : i < xs.length), ∃ h', xs[i] = (l[k + i]'h', k + i)) (hk : k ≤ j) (hlt : j - k < xs.length)
    (hj : l[j]? = some y) (hp : p y = true) (hfirst : ∀ n z, k ≤ n → n < j → l[n]? = some z → p z = false) :
    (xs.find? fun x => p x.1) = some (y, j) := by
  obtain ⟨hj', hy⟩ := List.getElem?_eq_some_iff.mp hj
  rw [List.find?_eq_some_iff_getElem]
  refine ⟨hp, j - k, hlt, ?_, fun n hn => ?_⟩
  · obtain ⟨_, hget⟩ := hxs (j - k) hlt
    simp only [hget, Nat.add_sub_cancel' hk, hy]
  · obtain ⟨hn', hget⟩ := hxs n (by omega)
    rw [hget, hfirst (k + n) _ (by omega) (by omega) (List.getElem?_eq_getElem hn')]
    rfl

/-- The uppermost entry below the top eight that has a place and is not there is due to be written. -/
theorem spillDue_eq {st : List StkEntry} {j o : Nat} {y : StkEntry} (h8 : 8 ≤ j) (hj : st[j]? = some y) (hplace : y.place = some o)
    (hspill : y.spill = false) (hfirst : ∀ n z, 8 ≤ n → n < j → st[n]? = some z → z.place = none ∨ z.spill = true) :
    spillDue st = some (j, y) := by
  have hlt := (List.getElem?_eq_some_iff.mp hj).1
  have hfind : ((st.zipIdx.drop 8).find? fun x => x.1.place.isSome && !x.1.spill) = some (y, j) := by
    refine find?_positions (l := st) (p := fun y => y.place.isSome && !y.spill) (k := 8) (fun i hi => ?_) h8 ?_ hj ?_ fun n z h hn hz => ?_
    · have hi' : 8 + i < st.length := by simpa [Nat.lt_sub_iff_add_lt'] using hi
      exact ⟨hi', by simp⟩
    · simp only [List.length_drop, List.length_zipIdx]; omega
    · simp [hplace, hspill]
    · rcases hfirst n z h hn hz with h | h <;> simp [h]
  rw [spillDue, hfind]
  rfl

/-- The uppermost spilled entry among the top eight is due to be read back. -/
theorem fillDue_eq {st : List StkEntry} {j : Nat} {y : StkEntry} (h8 : j < 8) (hj : st[j]? = some y) (hspill : y.spill = true)
    (hfirst : ∀ n z, n < j → st[n]? = some z → z.spill = false) : fillDue st = some (j, y) := by
  have hlt := (List.getElem?_eq_some_iff.mp hj).1
  have htake : ((st.zipIdx.take 8).find? fun x => x.1.spill) = some (y, j) := by
    refine find?_positions (l := st) (p := StkEntry.spill) (k := 0) (fun i hi => ?_) (Nat.zero_le j) ?_ hj hspill fun n z _ hn hz =>
      hfirst n z hn hz
    · have hi' : 0 + i < st.length := by simp only [List.length_take, List.length_zipIdx] at hi; omega
      exact ⟨hi', by simp⟩
    · simp only [List.length_take, List.length_zipIdx]; omega
  rw [fillDue, htake]
  rfl

/-! ### Its bytes -/

/-- A field that requests carry. -/
theorem framed_eq {news : List Req} {base : Nat} {bs : List Byte}
    (h : ∀ q, q < bs.length → sentByte news (base + q) = some (bs.getD q 0)) {off n : Nat} (hn : off + n ≤ bs.length) :
    framed news base off n = little n fun q => bs.getD (off + q) 0 := by
  rw [framed, little, little]
  refine congrArg List.sum (List.map_congr_left fun q hq => ?_)
  have hlt := List.mem_range.mp hq
  rw [Nat.add_assoc, h _ (by omega), Option.getD_some]

/-- The number whose bytes an entry is (R59). -/
def StkEntry.number (rows : Nat) (y : StkEntry) : Nat :=
  y.kind.toNat + 16 * y.k.toNat + 2 ^ 16 * y.split.toNat + 2 ^ 32 * y.pc.toNat +
    2 ^ 64 * (if y.isJoin || y.isDefer then (rowMask y.words).toNat else 0) +
    2 ^ 96 * (if y.isJoin || y.isDefer then (if rows = 1 then (y.words.headD 0).toNat else y.recAt.getD 0) else y.aux.toNat)

theorem StkEntry.bytes_eq (rows : Nat) (y : StkEntry) : y.bytes rows = bytesOfNat 16 (y.number rows) := rfl

/-- The fields of the number. -/
theorem StkEntry.number_fields (rows : Nat) (y : StkEntry) :
    y.number rows / 256 ^ 0 % 256 ^ 2 = y.kind.toNat + 16 * y.k.toNat ∧ y.number rows / 256 ^ 2 % 256 ^ 2 = y.split.toNat ∧
      y.number rows / 256 ^ 4 % 256 ^ 4 = y.pc.toNat ∧
      y.number rows / 256 ^ 8 % 256 ^ 4 = (if y.isJoin || y.isDefer then (rowMask y.words).toNat else 0) ∧
      y.number rows / 256 ^ 12 % 256 ^ 4 =
        (if y.isJoin || y.isDefer then (if rows = 1 then (y.words.headD 0).toNat else y.recAt.getD 0 % 2 ^ 32) else y.aux.toNat) := by
  have hkind := y.kind.isLt
  have hk := y.k.isLt
  have hsplit := y.split.isLt
  have hpc := y.pc.isLt
  have hmask : (if y.isJoin || y.isDefer then (rowMask y.words).toNat else 0) < 2 ^ 32 := by
    split
    · exact (rowMask y.words).isLt
    · decide
  have haux : (if y.isJoin || y.isDefer then (if rows = 1 then (y.words.headD 0).toNat else y.recAt.getD 0) else y.aux.toNat) % 2 ^ 32 =
      (if y.isJoin || y.isDefer then (if rows = 1 then (y.words.headD 0).toNat else y.recAt.getD 0 % 2 ^ 32) else y.aux.toNat) := by
    split
    · split
      · exact Nat.mod_eq_of_lt (y.words.headD 0).isLt
      · rfl
    · exact Nat.mod_eq_of_lt y.aux.isLt
  rw [← haux, StkEntry.number]
  generalize (if y.isJoin || y.isDefer then (rowMask y.words).toNat else 0) = m at hmask ⊢
  generalize (if y.isJoin || y.isDefer then (if rows = 1 then (y.words.headD 0).toNat else y.recAt.getD 0) else y.aux.toNat) = x
  omega

/-- The bytes of a word. -/
theorem natOfBytes_bytesOfWord (w : Word) : natOfBytes (bytesOfWord w) = w.toNat := by
  have hlt := w.isLt
  simp only [bytesOfWord, natOfBytes, BitVec.toNat_ofNat]
  omega

/-- Lane words written one after another: their bytes, and each of them. -/
theorem flatMap_bytesOfWord_length (ws : List Word) : (ws.flatMap bytesOfWord).length = 4 * ws.length := by
  induction ws with
  | nil => rfl
  | cons w ws ih => simp [ih, bytesOfWord]; omega

theorem little_bytesOfWord (ws : List Word) {k : Nat} (hk : k < ws.length) :
    (little 4 fun q => (ws.flatMap bytesOfWord).getD (4 * k + q) 0) = (ws.getD k 0).toNat := by
  induction ws generalizing k with
  | nil => cases hk
  | cons w ws ih =>
    cases k with
    | zero => rw [List.getD_cons_zero, ← natOfBytes_bytesOfWord, ← natOfBytes_map_range]; rfl
    | succ k =>
      rw [List.getD_cons_succ, ← ih (by simpa using hk)]
      congr 1
      funext q
      rw [show 4 * (k + 1) + q = 4 * k + q + 4 by omega]
      rfl

/-! ### STACK_SPILL -/

section Spill

variable {s : State} {c sl e j o : Nat} {x : Entry} {y : StkEntry}

/-- The entry's bytes at its place, then its lane words at their record. -/
def spillCargo (base o rows : Nat) (y : StkEntry) : List (ReqKind × Nat) :=
  ((sectorsOf (base + o) (y.bytes rows)).map fun x => (.store x.2, x.1)) ++
    match y.recAt with
    | some r => (sectorsOf (base + r) (y.words.flatMap bytesOfWord)).map fun x => (.store x.2, x.1)
    | none => []

theorem State.entry_of_look (hx : s.entry? c sl e = some x) : s.entry c sl e = x := by
  rw [State.entry?] at hx
  rw [State.entry, Store.get, hx]
  rfl

/-- The stack of an entry replaced after its bytes have gone out. -/
theorem setStack_spec {s2 : State} (hx : s.entry? c sl e = some x) (h : SameButCaches s s2) (st : List StkEntry) :
    let t := s2.setEntry c sl e { s2.entry c sl e with stack := st }
    t.reqs = s2.reqs ∧ t.entry c sl e = { x with stack := st } ∧ team t c sl e = team s c sl e ∧ SameMemory s t := by
  intro t
  have hent : t.entry c sl e = { x with stack := st } := by
    rw [State.entry_setEntry_same, h.entry, State.entry_of_look hx]
  refine ⟨rfl, hent, ?_, sameMemory_trans h.memory ⟨rfl, rfl, rfl, rfl, rfl⟩⟩
  rw [Said.team, Said.team, hent, State.entry_of_look hx]
  exact (State.team_setEntry _ _ _ _ _ _ _ _).trans (h.team c sl x.team)

/-- Bytes sent to a byte of the stack area of an entry's team. -/
def stackSend (s0 : State) (c sl : Nat) (x : Entry) (s : State) (o : Nat) (bs : List Byte) : State :=
  let t := s0.team c sl x.team
  let p := s0.parcel t.pid
  (s.sendBytes (.team c sl x.team) c (s0.launchOf p.lid).ctx p.lid (t.stkbase.toNat + o) x.pc x.version (s.gteam t) bs).2

theorem stackSend_spec (s0 : State) (c sl : Nat) (x : Entry) (s : State) (o : Nat) (bs : List Byte) :
    SameButCaches s (stackSend s0 c sl x s o bs) ∧
      ∃ news, (stackSend s0 c sl x s o bs).reqs = s.reqs ++ news ∧
        news.map Req.cargo = (sectorsOf ((s0.team c sl x.team).stkbase.toNat + o) bs).map fun x => (.store x.2, x.1) :=
  State.sendBytes_spec _ _ _ _ _ _ _ _ _ _

/-- The state in which an entry and its lane words have been sent. -/
def spillSent (s : State) (c sl : Nat) (x : Entry) (o : Nat) (y : StkEntry) : State :=
  let s1 := stackSend s c sl x s o (y.bytes (2 ^ (s.team c sl x.team).w))
  match y.recAt with
  | some r => stackSend s c sl x s1 r (y.words.flatMap bytesOfWord)
  | none => s1

theorem spillSent_spec (s : State) (c sl : Nat) (x : Entry) (o : Nat) (y : StkEntry) :
    SameButCaches s (spillSent s c sl x o y) ∧
      ∃ news, (spillSent s c sl x o y).reqs = s.reqs ++ news ∧
        news.map Req.cargo = spillCargo (s.team c sl x.team).stkbase.toNat o (2 ^ (s.team c sl x.team).w) y := by
  obtain ⟨h1, news1, hr1, hc1⟩ := stackSend_spec s c sl x s o (y.bytes (2 ^ (s.team c sl x.team).w))
  cases hrec : y.recAt with
  | none => exact ⟨by simpa only [spillSent, hrec] using h1, news1, by simpa only [spillSent, hrec] using hr1,
      by simpa only [spillCargo, hrec, List.append_nil] using hc1⟩
  | some r =>
    obtain ⟨h2, news2, hr2, hc2⟩ := stackSend_spec s c sl x (stackSend s c sl x s o (y.bytes (2 ^ (s.team c sl x.team).w))) r
      (y.words.flatMap bytesOfWord)
    refine ⟨by simpa only [spillSent, hrec] using h1.trans h2, news1 ++ news2, ?_, ?_⟩
    · simp only [spillSent, hrec, hr2, hr1, List.append_assoc]
    · simp only [spillCargo, hrec, List.map_append, hc1, hc2]

/-- A spill sends the entry and its lane words, and notes that it is there. -/
theorem execStackSpill_eq (hx : s.entry? c sl e = some x) (hdue : spillDue x.stack = some (j, y)) (hplace : y.place = some o) :
    exec (.stackSpill c sl e) s = .next ((spillSent s c sl x o y).setEntry c sl e
      { (spillSent s c sl x o y).entry c sl e with stack := x.stack.set j { y with spill := true } }) := by
  show execStackSpill c sl e s = _
  unfold execStackSpill
  rw [hx]
  dsimp only
  rw [hdue]
  dsimp only
  rw [hplace]
  unfold spillSent
  cases y.recAt <;> rfl

/-- What the requests of a spill carry of the entry. -/
theorem spill_byte {news : List Req} {base rows : Nat} (h : news.map Req.cargo = spillCargo base o rows y) {q : Nat} (hq : q < 16) :
    sentByte news (base + o + q) = some ((y.bytes rows).getD q 0) := by
  have hlen : (y.bytes rows).length = 16 := by rw [StkEntry.bytes_eq, bytesOfNat_length]
  rw [sentByte_eq_cargo, h, spillCargo, List.findSome?_append, sectors_byte, hlen, if_pos (by omega), Nat.add_sub_cancel_left]
  rfl

/-- What they carry of its lane words, which lie elsewhere. -/
theorem spill_wordByte {news : List Req} {base rows r : Nat} (h : news.map Req.cargo = spillCargo base o rows y) (hr : y.recAt = some r)
    (hapart : o + 16 ≤ r ∨ r + 4 * y.words.length ≤ o) {q : Nat} (hq : q < 4 * y.words.length) :
    sentByte news (base + r + q) = some ((y.words.flatMap bytesOfWord).getD q 0) := by
  have hlen : (y.bytes rows).length = 16 := by rw [StkEntry.bytes_eq, bytesOfNat_length]
  rw [sentByte_eq_cargo, h, spillCargo, List.findSome?_append, sectors_byte, hlen, if_neg (by omega), Option.none_or, hr]
  dsimp only
  rw [sectors_byte, flatMap_bytesOfWord_length, if_pos (by omega), Nat.add_sub_cancel_left]

/-- The fields of the spilled entry in memory (R59). -/
theorem spill_fields {news : List Req} {base w : Nat} (h : news.map Req.cargo = spillCargo base o (2 ^ w) y) :
    framed news (base + o) 0 2 = y.kind.toNat + 16 * y.k.toNat ∧ framed news (base + o) 2 2 = y.split.toNat ∧
      framed news (base + o) 4 4 = y.pc.toNat ∧
      framed news (base + o) 8 4 = (if y.kind = 0 ∨ y.kind = 3 then (rowMask y.words).toNat else 0) ∧
      framed news (base + o) 12 4 = (if y.kind = 0 ∨ y.kind = 3 then (if w = 0 then (y.words.headD 0).toNat else y.recAt.getD 0 % 2 ^ 32)
        else y.aux.toNat) := by
  have hfield : ∀ off n, off + n ≤ 16 → framed news (base + o) off n = y.number (2 ^ w) / 256 ^ off % 256 ^ n := fun off n hn => by
    rw [framed_eq (bs := y.bytes (2 ^ w)) (fun q hq => spill_byte h (by simpa [StkEntry.bytes_eq] using hq))
      (by simpa [StkEntry.bytes_eq] using hn), StkEntry.bytes_eq, little_bytesOfNat _ _ _ _ hn]
  obtain ⟨hkind, hsplit, hpc, hmask, haux⟩ := y.number_fields (2 ^ w)
  have hmasked : (y.isJoin || y.isDefer) = true ↔ y.kind = 0 ∨ y.kind = 3 := by
    simp [StkEntry.isJoin, StkEntry.isDefer]
  have hw : 2 ^ w = 1 ↔ w = 0 := by rw [Nat.pow_eq_one]; simp
  simp only [hmasked, hw] at hmask haux
  refine ⟨?_, ?_, ?_, ?_, ?_⟩
  · rw [hfield 0 2 (by omega), hkind]
  · rw [hfield 2 2 (by omega), hsplit]
  · rw [hfield 4 4 (by omega), hpc]
  · rw [hfield 8 4 (by omega), hmask]
  · rw [hfield 12 4 (by omega), haux]

/-- Its lane words in memory. -/
theorem spill_words {news : List Req} {base rows r : Nat} (h : news.map Req.cargo = spillCargo base o rows y) (hr : y.recAt = some r)
    (hapart : o + 16 ≤ r ∨ r + 4 * y.words.length ≤ o) {k : Nat} (hk : k < y.words.length) :
    framed news (base + r) (4 * k) 4 = (y.words.getD k 0).toNat := by
  rw [framed_eq (bs := y.words.flatMap bytesOfWord)
    (fun q hq => spill_wordByte h hr hapart (by rwa [flatMap_bytesOfWord_length] at hq)) (by rw [flatMap_bytesOfWord_length]; omega),
    little_bytesOfWord _ hk]

end Spill

end Sys2Proof.Machine
end

section
/-! SUPPORT. Reads of memory that a core's microcode makes: as long as they answer, they change no core (R139, R144). -/

namespace Sys2Proof.Machine
open Sys2Proof Sys2Proof.Said

/-! ### Reads through the Basin -/

/-- A log entry changes the log, the cycle of the fault function and its interrupts. -/
theorem State.logEvent_eq (s : State) (r : LogRec) :
    ∃ w m, s.logEvent r = { s with fresh := s.fresh + 1, wh := w, msix := m } := ⟨_, _, rfl⟩

theorem State.logEvent_cores (s : State) (r : LogRec) : (s.logEvent r).cores = s.cores := by
  obtain ⟨w, m, h⟩ := s.logEvent_eq r
  rw [h]

theorem State.retire_cores (s : State) (frame : Nat) : (s.retire frame).cores = s.cores := by
  unfold State.retire
  split <;> rfl

theorem State.logUce_cores (s : State) (part frame half : Nat) : (s.logUce part frame half).cores = s.cores := by
  unfold State.logUce
  exact (State.retire_cores _ _).trans (State.logEvent_cores _ _)

theorem State.loadBlock_cores (s : State) (blk key : Nat) : (s.loadBlock blk key).2.2.cores = s.cores := by
  unfold State.loadBlock
  dsimp only
  split
  · rfl
  · split
    · rfl
    · rfl
    · rfl
    · have hce : (if s.badBlk.get false blk || decide (24 < Config.bitErrors blk s.fresh) then
          State.logUce { s with fresh := s.fresh + 1 } (blkPart blk) (blkFrame blk) (blkHalf blk)
        else if Config.bitErrors blk s.fresh = 0 then { s with fresh := s.fresh + 1 }
        else State.setPart { s with fresh := s.fresh + 1 } (blkPart blk)
          { State.part { s with fresh := s.fresh + 1 } (blkPart blk) with
            ce := (State.part { s with fresh := s.fresh + 1 } (blkPart blk)).ce + 1 }).cores = s.cores := by
        split
        · exact State.logUce_cores _ _ _ _
        · split <;> rfl
      split
      · exact hce
      · exact hce

theorem State.fillLine_cores (s : State) (blk : Nat) (x : Line) : (s.fillLine blk x).2.cores = s.cores := by
  unfold State.fillLine
  split
  · rfl
  · exact s.loadBlock_cores blk x.key

theorem State.evict_cores (s : State) (blk : Nat) : (s.evict blk).cores = s.cores := by
  unfold State.evict
  split
  · rfl
  next x _ =>
  split
  · rfl
  have hfill : (if x.fresh.all id then (x, s) else s.fillLine blk x).2.cores = s.cores := by
    split
    · rfl
    · exact s.fillLine_cores blk x
  generalize (if x.fresh.all id then (x, s) else s.fillLine blk x) = y at hfill ⊢
  obtain ⟨x', s'⟩ := y
  dsimp only at hfill ⊢
  split
  · split <;> exact hfill
  · split
    · exact hfill
    · split <;> exact hfill

theorem State.makeWay_cores (s : State) (blk : Nat) : (s.makeWay blk).cores = s.cores := by
  unfold State.makeWay State.free64
  dsimp only
  split
  · rfl
  · exact State.evict_cores _ _

theorem State.takeLine_cores (s : State) (part : Nat) (l : Leaf) (half : Nat) : (s.takeLine part l half).2.cores = s.cores := by
  unfold State.takeLine
  dsimp only
  split
  · rfl
  · exact s.makeWay_cores _

theorem State.readG_cores (s : State) (l : Leaf) (va n : Nat) : (s.readG l va n).2.2.cores = s.cores := by
  unfold State.readG
  dsimp only
  split
  · rfl
  · exact (State.fillLine_cores _ _ _).trans (s.takeLine_cores _ _ _)

/-! ### Translations -/

/-- Entries that are read leave the cores as they were: a bad block of the pool gives none (R373, R408). -/
theorem State.readEntries_cores {s : State} {d : CtxDesc} {o n : Nat} {es : List Dword} (h : (s.readEntries d o n).1 = some es) :
    (s.readEntries d o n).2.cores = s.cores := by
  unfold State.readEntries at h ⊢
  dsimp only at h ⊢
  split at h
  · cases h
  next htrain =>
  rw [if_neg htrain]
  split at h
  · cases h
  next hbad =>
  rw [if_neg hbad]
  exact s.readG_cores _ _ _

theorem State.readPool_cores {s s1 : State} {d : CtxDesc} {o : Nat} {w : Dword} (h : s.readPool d o = (some w, s1)) : s1.cores = s.cores := by
  unfold State.readPool at h
  dsimp only at h
  obtain ⟨hr, rfl⟩ := Prod.mk.inj h
  obtain ⟨es, hes, -⟩ := Option.map_eq_some_iff.mp hr
  exact State.readEntries_cores hes

/-- A walk that finds a leaf changes no core. -/
theorem State.walkFrom_cores {s s1 : State} {ctx va level table : Nat} {l : Leaf}
    (h : s.walkFrom ctx va level table = (.leaf l, s1)) : s1.cores = s.cores := by
  induction level generalizing s table with
  | zero =>
    rw [State.walkFrom] at h
    dsimp only at h
    split at h
    · cases h
    split at h
    · cases h
    next w s2 hread =>
    split at h
    · cases h
    split at h
    · cases h
    · rw [← (Prod.mk.inj h).2]
      exact State.readPool_cores hread
  | succ n ih =>
    rw [State.walkFrom] at h
    dsimp only at h
    split at h
    · cases h
    split at h
    · cases h
    next w s2 hread =>
    split at h
    · cases h
    split at h
    · split at h
      · cases h
      · rw [← (Prod.mk.inj h).2]
        exact State.readPool_cores hread
    · exact (ih h).trans (State.readPool_cores hread)

/-- A translation that succeeds changes no core. -/
theorem State.translate_cores {s s1 : State} {ctx va : Nat} {who : Met} {l : Leaf} (h : s.translate ctx va who = (.ok l, s1)) :
    s1.cores = s.cores := by
  unfold State.translate at h
  split at h
  · rw [(Prod.mk.inj h).2]
  split at h
  · cases h
  · cases h
  · cases h
  next l' s2 hw =>
  split at h
  · cases h
  · rw [← (Prod.mk.inj h).2]
    exact (show (s2.fillTlb ctx va l').cores = s2.cores from rfl).trans (State.walkFrom_cores hw)

/-! ### What a core's own access sees -/

/-- One byte of `readView`. -/
def viewByte (ctx : Nat) (acc : Option (List Byte) × State) (a : Nat) : Option (List Byte) × State :=
  match acc.1 with
  | none => acc
  | some bs =>
    match acc.2.translate ctx a with
    | (.ok l, s1) =>
      if s1.retraining l a then (none, s1)
      else
        let (x, _, s2) := s1.readG l a 1
        (some (bs ++ x), s2)
    | (_, s1) => (none, s1)

theorem viewByte_cores {ctx a : Nat} {acc : Option (List Byte) × State} (h : (viewByte ctx acc a).1.isSome) :
    acc.1.isSome ∧ (viewByte ctx acc a).2.cores = acc.2.cores := by
  obtain ⟨r, s⟩ := acc
  cases r with
  | none => cases h
  | some bs =>
    refine ⟨rfl, ?_⟩
    simp only [viewByte] at h ⊢
    split at h
    · next l s1 ht =>
      split at h
      · cases h
      next htrain =>
      rw [if_neg htrain]
      exact (s1.readG_cores l a 1).trans (State.translate_cores ht)
    · cases h

theorem foldl_viewByte_cores {ctx : Nat} (as : List Nat) {acc : Option (List Byte) × State}
    (h : (as.foldl (viewByte ctx) acc).1.isSome) : acc.1.isSome ∧ (as.foldl (viewByte ctx) acc).2.cores = acc.2.cores := by
  induction as generalizing acc with
  | nil => exact ⟨h, rfl⟩
  | cons a as ih =>
    obtain ⟨hsome, hrest⟩ := ih h
    obtain ⟨hacc, hone⟩ := viewByte_cores hsome
    exact ⟨hacc, hrest.trans hone⟩

/-- A view that is answered has changed no core. -/
theorem State.readView_cores {s s1 : State} {port ctx va n : Nat} {bs : List Byte} (h : s.readView port ctx va n = (some bs, s1)) :
    s1.cores = s.cores := by
  obtain ⟨g, hview⟩ : ∃ g : List Byte → List Byte, s.readView port ctx va n =
      ((((List.range n).map (va + ·)).foldl (viewByte ctx) (some [], s)).1.map g,
        (((List.range n).map (va + ·)).foldl (viewByte ctx) (some [], s)).2) := ⟨_, rfl⟩
  rw [hview] at h
  obtain ⟨hr, rfl⟩ := Prod.mk.inj h
  obtain ⟨b, hb, -⟩ := Option.map_eq_some_iff.mp hr
  exact (foldl_viewByte_cores _ (by rw [hb]; rfl)).2

end Sys2Proof.Machine
end

section
/-! SUPPORT. Stacks spill and fill, run-ahead begins and is restored (O40). -/

namespace Sys2Proof.Machine
open Sys2Proof Sys2Proof.Said

section StackAndRunAhead

variable {s : State} {c sl e j : Nat} {x : Entry} {y : StkEntry}

/-! ### STACK_FILL -/

/-- The fields of an entry read back from its bytes (R59). -/
theorem StkEntry.ofBytes_fields (rows : Nat) (y : StkEntry) (bs recd : List Byte) :
    (y.ofBytes rows bs recd).kind.toNat = natOfBytes bs % 16 ∧ (y.ofBytes rows bs recd).k.toNat = natOfBytes bs / 16 % 2 ^ 12 ∧
      (y.ofBytes rows bs recd).split.toNat = natOfBytes bs / 2 ^ 16 % 2 ^ 16 ∧
      (y.ofBytes rows bs recd).pc.toNat = natOfBytes bs / 2 ^ 32 % 2 ^ 32 := by
  refine ⟨BitVec.toNat_ofNat _ _, ?_, ?_, ?_⟩
  · exact (BitVec.toNat_ofNat _ _).trans (Nat.mod_mod (natOfBytes bs / 16) (2 ^ 12))
  · exact (BitVec.toNat_ofNat _ _).trans (Nat.mod_mod (natOfBytes bs / 2 ^ 16) (2 ^ 16))
  · exact (BitVec.toNat_ofNat _ _).trans (Nat.mod_mod (natOfBytes bs / 2 ^ 32) (2 ^ 32))

/-- The state of an entry after a fill: a pop that slept for it issues again (R58). -/
def Entry.filled (x : Entry) (st : List StkEntry) (now : Nat) : Entry :=
  if x.st = .asleep .fill then { x with stack := st, brkSkip := true, st := .ready, since := now, stamp := now }
  else { x with stack := st }

/-- An entry without a record of lane words is read back. -/
theorem execStackFill_entry {s1 : State} {bs : List Byte} (hx : s.entry? c sl e = some x) (hdue : fillDue x.stack = some (j, y))
    (hrec : y.recAt = none)
    (hview : s.readView c (Said.ctx s c sl e) ((team s c sl e).stkbase.toNat + y.place.getD 0) 16 = (some bs, s1)) :
    ∃ t, exec (.stackFill c sl e) s = .next t ∧ t.entry c sl e =
      x.filled (x.stack.set j { y.ofBytes (2 ^ (team s c sl e).w) bs [] with place := none }) (s.core c).cycle := by
  have hxe := State.entry_of_look hx
  have hteam : s.team c sl x.team = team s c sl e := by rw [Said.team, hxe]
  have hcores := State.readView_cores hview
  have hx1 : s1.entry c sl e = x := by
    rw [← hxe]
    simp only [State.entry, State.slot, State.core, hcores]
  have hcyc : (s1.core c).cycle = (s.core c).cycle := by rw [State.core, State.core, hcores]
  have hexec : exec (.stackFill c sl e) s = execStackFill c sl e s := rfl
  unfold execStackFill at hexec
  rw [hx] at hexec
  dsimp only at hexec
  rw [hdue] at hexec
  dsimp only at hexec
  rw [hteam, hrec, show s.readView c (s.launchOf (s.parcel (team s c sl e).pid).lid).ctx _ 16 = _ from hview] at hexec
  dsimp only at hexec
  split at hexec
  · next hst =>
    refine ⟨_, hexec, ?_⟩
    rw [Entry.filled, if_pos hst, State.rewake, State.makeReady]
    simp only [State.entry_setEntry_same, State.cycle_setEntry, hx1, hcyc]
  · next hst =>
    refine ⟨_, hexec, ?_⟩
    rw [Entry.filled, if_neg hst, State.entry_setEntry_same, hx1]

/-! ### Run-ahead (R73, R76) -/

/-- A list whose keys all lie above a key has nothing there. -/
theorem Store.look_of_above {α : Type} {a k : Nat} {r : Store α} (h : Store.above a r) (hk : k ≤ a) : r.look k = none := by
  cases r with
  | nil => rfl
  | cons x r =>
    obtain ⟨b, w⟩ := x
    rw [Store.look, if_pos (Nat.lt_of_le_of_lt hk h.1)]

/-- The effective checkpoint of a rising list of values: each at its key. -/
theorem Store.get_setAll_rising {α : Type} [DecidableEq α] {d : α} (m : Store α) {xs : Store α} (h : xs.rising = true) (k : Nat) :
    (m.setAll d xs).get d k = (xs.look k).getD (m.get d k) := by
  induction xs generalizing m with
  | nil => rfl
  | cons x r ih =>
    obtain ⟨a, v⟩ := x
    have habove := (Store.rising_cons a v r).mp h
    have hset : Store.setAll d m ((a, v) :: r) = Store.setAll d (m.set d a v) r := rfl
    rw [hset, ih _ (Store.rising_of_above habove), Store.look, Store.get_set]
    rcases Nat.lt_trichotomy k a with hlt | rfl | hgt
    · rw [if_pos hlt, if_neg (by omega), Store.look_of_above habove (by omega)]
    · rw [if_neg (Nat.lt_irrefl k), if_pos rfl, if_pos rfl, Store.look_of_above habove (Nat.le_refl k)]
      rfl
    · rw [if_neg (by omega), if_neg (by omega), if_neg (by omega)]

theorem State.free_setEntry (s : State) (c sl e : Nat) (x : Entry) : ((s.setEntry c sl e x).slot c sl).free = (s.slot c sl).free := by
  rw [State.setEntry, State.slot_setSlot_same]

theorem State.free_setTeam (s : State) (c sl n : Nat) (x : Team) : ((s.setTeam c sl n x).slot c sl).free = (s.slot c sl).free := by
  rw [State.setTeam, State.slot_setSlot_same]

theorem State.cycle_setTeam (s : State) (c sl n : Nat) (x : Team) : ((s.setTeam c sl n x).core c).cycle = (s.core c).cycle := by
  rw [State.setTeam, State.core_setSlot, if_pos rfl]

theorem State.free_microcode (s : State) (c sl n : Nat) :
    ((s.microcode c sl n).slot c sl).free = max (s.slot c sl).free (s.core c).cycle + n := by
  rw [State.microcode, State.slot_setSlot_same]

theorem State.entry_microcode (s : State) (c sl n c' sl' e : Nat) : (s.microcode c sl n).entry c' sl' e = s.entry c' sl' e :=
  State.entry_setPipe _ _ _ _ _ _ _ _

theorem State.team_microcode (s : State) (c sl n c' sl' m : Nat) : (s.microcode c sl n).team c' sl' m = s.team c' sl' m :=
  State.team_setPipe _ _ _ _ _ _ _ _

/-- A restore gives the team its checkpointed registers back and lets the sub-team go on where the episode began. -/
theorem execRunaheadRestore_spec {ra : RunAhead} (hx : s.entry? c sl e = some x) (hst : x.st = .restore) (hra : x.ra = some ra)
    (hblock : ∀ q ∈ s.reqs, q.id ∉ ra.block) (hxfer : s.xferWaits c sl = false) (hfree : (s.slot c sl).free ≤ (s.core c).cycle) :
    ∃ t, exec (.runaheadRestore c sl e) s = .next t ∧ SameMemory s t ∧ t.reqs = s.reqs ∧
      t.entry c sl e = { x with
        pc := ra.pc, npc := ra.pc, ibuf := none, ra := none, till := (s.core c).cycle + 4 + ra.saved.length,
        st := .stalled ((s.core c).cycle + 4 + ra.saved.length) } ∧
      t.team c sl x.team = { s.team c sl x.team with
        v := (s.team c sl x.team).v.setAll 0 ra.v, p := (s.team c sl x.team).p.setAll 0 ra.p } := by
  have hxe := State.entry_of_look hx
  have hgone : s.blockGone ra = true := by
    simp only [State.blockGone, Bool.not_eq_true', List.any_eq_false, List.contains_iff_mem]
    exact hblock
  have hexec : exec (.runaheadRestore c sl e) s = execRunaheadRestore c sl e s := rfl
  unfold execRunaheadRestore at hexec
  rw [hx] at hexec
  dsimp only at hexec
  rw [hst, hra] at hexec
  dsimp only at hexec
  rw [if_pos (by simp [hgone, hxfer, hfree])] at hexec
  refine ⟨_, hexec, ⟨rfl, rfl, rfl, rfl, rfl⟩, rfl, ?_, ?_⟩
  · simp only [State.stallTo, State.entry_setEntry_same, State.entry_microcode, State.entry_setTeam, State.free_setEntry,
      State.free_microcode, State.free_setTeam, State.cycle_setTeam, Nat.max_eq_right hfree, hxe, Nat.add_assoc]
  · simp only [State.stallTo, State.team_setEntry, State.team_microcode, State.team_setTeam_same]

/-- An episode as it begins: nothing is checkpointed, and it waits for the given loads (R73). -/
def RunAhead.begun (pc : Word) (loads : List Req) : RunAhead :=
  { pc := pc, v := [], p := [], saved := [], bad := loads.flatMap Req.badLanes, count := 0, block := loads.map Req.id }

/-- A sub-team for which every condition of R73 holds enters run-ahead. -/
theorem execRunaheadEntry_spec (s0 : State) {ws : List Word} {r : Req}
    (hx : (s0.settle c sl).entry? c sl e = some x) (hbuf : x.ibuf = some (.words ws))
    (hallow : (launch (s0.settle c sl) c sl e).grid.runahead = true) (hst : x.st = .ready)
    (hr : r ∈ (s0.settle c sl).pendingReqs c sl e (instrOf ws)) (hlong : (s0.settle c sl).longLoad r = true)
    (hnormal : (s0.settle c sl).normals c sl = []) (hxfer : (s0.settle c sl).xferWaits c sl = false) (hpend : x.pend = none)
    (hres : (parcel (s0.settle c sl) c sl e).st = .resident) (hheld : x.held = [])
    (hfree : ((s0.settle c sl).slot c sl).free ≤ ((s0.settle c sl).core c).cycle)
    (hone : ∀ y ∈ ((s0.settle c sl).slot c sl).entries, y.2.ra = none) :
    exec (.runaheadEntry c sl e) s0 = .next ((s0.settle c sl).setEntry c sl e { x with
      st := .runahead, till := ((s0.settle c sl).core c).cycle,
      ra := some (RunAhead.begun x.pc ((s0.settle c sl).pendingReqs c sl e (instrOf ws))) }) := by
  show execRunaheadEntry c sl e s0 = _
  unfold execRunaheadEntry
  generalize s0.settle c sl = s at *
  have hxe := State.entry_of_look hx
  have hteam : s.team c sl x.team = team s c sl e := by rw [Said.team, hxe]
  have hp : s.parcel (s.team c sl x.team).pid = parcel s c sl e := by rw [hteam]; rfl
  have hl : s.launchOf (parcel s c sl e).lid = launch s c sl e := rfl
  have hany : (s.pendingReqs c sl e (instrOf ws)).any s.longLoad = true := List.any_eq_true.mpr ⟨r, hr, hlong⟩
  have hnone : ((s.slot c sl).entries.any fun y => y.2.ra.isSome) = false := by
    simp only [List.any_eq_false, Bool.not_eq_true, Option.isSome_eq_false_iff, Option.isNone_iff_eq_none]
    exact hone
  dsimp only
  rw [hx]
  dsimp only
  rw [hbuf]
  dsimp only
  rw [hp, hl, if_pos]
  · rfl
  · simp [hallow, hst, hany, hnormal, hxfer, hpend, hres, hheld, hfree, hnone]

end StackAndRunAhead

/-- Settles O40: the requests of a spill carry the entry's bytes and its lane words, sector by sector; a view that is answered has
changed no core, so a fill finds its entry as it was; and run-ahead saves and restores what its episode lists. -/
theorem stacksSpillAndRunAheadRestores : Obligations.StacksSpillAndRunAheadRestores := by
  unfold Obligations.StacksSpillAndRunAheadRestores
  refine ⟨⟨?spill, ?fill⟩, ?enter, ?restore⟩
  case spill =>
    intro s c sl e j o x y hx h8 hj hplace hspill hfirst at_ masked hapart
    have hxe := State.entry_of_look hx
    have hteam : s.team c sl x.team = team s c sl e := by rw [Said.team, hxe]
    obtain ⟨hsame, news, hreqs, hcargo⟩ := spillSent_spec s c sl x o y
    rw [hteam] at hcargo
    obtain ⟨hr, hent, ht, hmem⟩ := setStack_spec hx hsame (x.stack.set j { y with spill := true })
    obtain ⟨hkind, hsplit, hpc, hmask, haux⟩ := spill_fields hcargo
    exact ⟨_, news, execStackSpill_eq hx (spillDue_eq h8 hj hplace hspill hfirst) hplace, hr.trans hreqs, hent, ht, hmem,
      fun q hq => by rw [spill_byte hcargo hq]; rfl, hkind, hsplit, hpc, hmask, haux,
      fun r k hrec hk => spill_words hcargo hrec (hapart r hrec) hk⟩
  case fill =>
    intro s s1 c sl e j x y bs hx h8 hj hspill hfirst hrec hview
    obtain ⟨t, ht, hent⟩ := execStackFill_entry hx (fillDue_eq h8 hj hspill hfirst) hrec hview
    obtain ⟨hkind, hk, hsplit, hpc⟩ := y.ofBytes_fields (2 ^ (team s c sl e).w) bs []
    refine ⟨t, { y.ofBytes (2 ^ (team s c sl e).w) bs [] with place := none }, ht, ?_, rfl, hkind, hk, hsplit, hpc, ?_, ?_, ?_⟩
    all_goals
      rw [hent, Entry.filled]
      split <;> rfl
  case enter =>
    intro s0 c sl e x ws r s ld hx hbuf hallow hst hr hlong hnormal hxfer hpend hres hheld hfree hone
    have hexec := execRunaheadEntry_spec s0 hx hbuf hallow hst hr hlong hnormal hxfer hpend hres hheld hfree hone
    have hxe := State.entry_of_look hx
    refine ⟨_, RunAhead.begun x.pc ld, hexec, State.onlyEntry_setEntry _ _ _ _ _, ?_, ?_, ?_, ?_, ?_, ?_, rfl, rfl, rfl, rfl, rfl, rfl⟩
    case refine_1 =>
      rw [Said.team, Said.team, State.entry_setEntry_same, State.team_setEntry]
      show s.team c sl x.team = _
      rw [hxe]
    all_goals rw [State.entry_setEntry_same]
  case restore =>
    intro s c sl e x ra hx hst hra hblock hxfer hfree hv hp
    have hxe := State.entry_of_look hx
    obtain ⟨t, ht, hmem, hreqs, hent, hteam⟩ := execRunaheadRestore_spec hx hst hra hblock hxfer hfree
    have htm : team t c sl e = { team s c sl e with v := (team s c sl e).v.setAll 0 ra.v, p := (team s c sl e).p.setAll 0 ra.p } := by
      rw [Said.team, Said.team, hent, hxe]
      exact hteam
    refine ⟨t, ht, hmem, hreqs, fun l r _ => ?_, fun l => ?_, by rw [htm], by rw [hent], by rw [hent], by rw [hent], by rw [hent]⟩
    · rw [vreg, htm]
      exact Store.get_setAll_rising _ hv _
    · rw [htm]
      exact Store.get_setAll_rising _ hp _

end Sys2Proof.Machine
end

section
/-! A word that is no instruction names its lanes by its guard as the guard reads in its pass (R171, R185): a predicate whose new value
is still under way reads as before, and LANES of the frame is not the active lanes of the text. -/

namespace Sys2Proof.Machine

open Sys2Proof Sys2Proof.Said

/-- A window with every right that a stack needs. -/
def stackWindow : Window := { size := 16, r := true, w := true, v := true }

/-- Lane 0 has been given p1 = 1, which is available in cycle 9. -/
def lateGuardTeam : Team :=
  { tvec := 0x800, stklim := 0x4000, p := [(0, 2)], late := [{ cls := .p, reg := 1, lane := 0, avail := 9, old := 0, pc := 0 }] }

/-- The team's one sub-team issues in cycle 0. -/
def lateGuardState : State :=
  { State.reset with
    cores := [(0, { slots := [(0, { entries := [(0, { mask := [1] })], teams := [(0, lateGuardTeam)] })] })]
    ctxs := [(0, { wins := [(0, stackWindow)] })]
    cur := .team 0 0 0 }

/-- A word of an unassigned opcode, guarded by p1. -/
def guardedNothing : List Word := [0x1FC0]

/-- Its trap can be delivered, with the frame at address 0. -/
theorem lateGuardState_canTrap : CanTrap lateGuardState 0 0 0 0 where
  vector := by decide +kernel
  debug := by decide +kernel
  depth := by decide +kernel
  width := by decide +kernel
  room := ⟨[0], by decide +kernel⟩
  small := by decide
  window k hk := by rcases hk with rfl | rfl <;> decide +kernel

/-- LANES of a frame at address 0, in the state that an outcome leaves. -/
def framedLanes : Out → Option Nat
  | .next t => some (framed t.reqs 0 20 4)
  | _ => none

/-- The guard reads zero, so the frame names no lane. -/
theorem lateGuardState_frames_no_lane : framedLanes (exec (.unassignedOpcode guardedNothing) lateGuardState) = some 0 := by
  decide +kernel

/-- By the registers as they stand after the write, lane 0 is active. -/
theorem lateGuardState_active : active lateGuardState 0 0 0 (.unassignedOpcode guardedNothing) 0 = true := by
  decide +kernel

/-- Refutes O33: the clause on words that are no instruction does not ask that no result is under way. In `lateGuardState` the word's
guard is still on its way, the pass reads its old value, and the frame's LANES lacks the lane that the statement calls active. -/
theorem not_trapsEnterTheHandler : ¬ Obligations.TrapsEnterTheHandler := by
  unfold Obligations.TrapsEnterTheHandler
  intro h
  obtain ⟨-, hundef, -⟩ := h lateGuardState 0 0 0 0 lateGuardState_canTrap
  obtain ⟨t, news, ht, -, htrap⟩ := hundef guardedNothing rfl rfl (by decide)
  have hreqs : t.reqs = news := htrap.reqs
  have hbase : (team lateGuardState 0 0 0).stkbase.toNat + 0 = 0 := by decide +kernel
  have hrow : firstRow (lateGuardState.entry 0 0 0).mask = 0 := by decide +kernel
  have hlanes := htrap.flanes 0 (by decide)
  have hnone : framed t.reqs 0 20 4 = 0 := Option.some.inj ((congrArg framedLanes ht).symm.trans lateGuardState_frames_no_lane)
  rw [hbase, ← hreqs, hnone, hrow, Nat.zero_testBit, Nat.mul_zero, Nat.zero_add, lateGuardState_active] at hlanes
  cases hlanes

end Sys2Proof.Machine
end

section
/-! A packet that starts moves RPTR on in its queue's descriptor too (R358; log entry 41). That write goes through the context's page
tables, and an uncorrectable block of these is FATAL (R404, R408): no sub-team is left that could be pending. -/

namespace Sys2Proof.Machine

open Sys2Proof Sys2Proof.Said

/-- A readable page in frame 1. -/
def packetLeaf : Leaf := 0x10003

/-- A `TRANSFER_REQ` to version 0 for the launch of packet 0, without a signal. -/
def transferWord : Nat := 5

/-- The block at 0x10000: packet 1 of a queue there is the `TRANSFER_REQ`. -/
def packetLine : Line :=
  { bytes := List.replicate 64 0 ++ bytesOfNat 448 transferWord, dirty := false, bad := false, fresh := List.replicate 512 true,
    elide := false, key := 0 }

/-- Queue 0 lies at 0x10000, its descriptor at address 0; packet 1 is its next. -/
def requestQueue : Queue := { base := 0x10000, wptr := 2, rptr := 1, st := .resident 0 }

/-- The partition of the queue's packets has their page's leaf at hand; the descriptor's page is to be walked for. The launch of packet 0
has a sub-team in version 1. -/
def requestState : State :=
  { brokenPool with
    ctxs := [(0, { desc := { pooln := 1 }, wins := [(0, { size := 16, r := true, v := true })] })]
    parts := [(partOf 0x10000, { tlb := [(tlbKey 0 0x10000, packetLeaf)] })]
    basin := [(0, badLine), (blockNo (partOf 0x10000) packetLeaf 0, packetLine)]
    queues := [(0, requestQueue)]
    launches := [(0, { st := .admitting })]
    kernels := [(0, { Kernel.none with vers := [{ present := true }] })]
    cores := [(0, { slots := [(0, { entries := [(0, { mask := [1], version := 1 })], teams := [(0, {})] })] })] }

/-- The `TRANSFER_REQ` may start. -/
theorem requestState_next : (requestState.nextPacket 0).1 = some transferWord := by decide +kernel

/-- The state in which it starts. -/
def requestStarts : State := (requestState.nextPacket 0).2

/-- The pending target of the sub-team, in the state that an outcome leaves. -/
def targetAfter : Out → Option (Option (BitVec 3))
  | .next t => some (t.entry 0 0 0).pend
  | _ => none

/-- FATAL has ended the sub-team that the packet had made pending. -/
theorem requestState_loses_target : targetAfter (exec (.transferReq 0) requestState) = some none := by decide +kernel

/-- Refutes O48: the sub-teams that a `TRANSFER_REQ` makes pending do not outlive its start where the descriptor, in which RPTR follows,
is reached through an uncorrectable page table. -/
theorem not_transferAndAlgebraPackets : ¬ Obligations.TransferAndAlgebraPackets := by
  unfold Obligations.TransferAndAlgebraPackets
  rintro ⟨hstart, -⟩
  obtain ⟨hreq, -⟩ := hstart requestState requestStarts 0 transferWord (Prod.ext requestState_next rfl) (by decide +kernel)
  obtain ⟨t, p, ht, -, -, -, -, -, -, -, -, -, hpend⟩ := hreq (requestStarts.launchOf 0) 0 rfl (by decide +kernel) (by decide +kernel)
    (by decide +kernel) (by decide +kernel) (by decide +kernel) (by decide +kernel)
  have hlost : (t.entry 0 0 0).pend = none := Option.some.inj ((congrArg targetAfter ht).symm.trans requestState_loses_target)
  have htarget := hpend (0, 0, 0) (by decide +kernel) (by decide +kernel)
  rw [hlost] at htarget
  exact absurd htarget (by decide +kernel)

end Sys2Proof.Machine
end

section
/-! SUPPORT. Rounded results fit their format (R82, R86), and a flush under LDNF comes once (R88). -/

namespace Sys2Proof.Machine

open Sys2Proof

/-! ### The size of a result -/

/-- A multiple of an ulp no smaller than the leading bit asks for has at most the fraction's bits, or is the next power of two. -/
theorem roundTo_le (rnd : Rnd) (neg : Bool) {m f : Nat} {e q : Int} (hq : msb m e - f ≤ q) :
    (roundTo rnd neg m e q).1 ≤ 2 ^ (f + 1) := by
  have hlt : m < 2 ^ (Nat.log2 m + 1) := Nat.lt_log2_self
  unfold msb at hq
  unfold roundTo
  split
  · next hle =>
    have hexp : Nat.log2 m + 1 + (e - q).toNat ≤ f + 1 := by omega
    calc m * 2 ^ (e - q).toNat ≤ 2 ^ (Nat.log2 m + 1) * 2 ^ (e - q).toNat := Nat.mul_le_mul_right _ hlt.le
      _ = 2 ^ (Nat.log2 m + 1 + (e - q).toNat) := (Nat.pow_add ..).symm
      _ ≤ 2 ^ (f + 1) := Nat.pow_le_pow_right (by decide) hexp
  · next hgt =>
    have hexp : Nat.log2 m + 1 ≤ (q - e).toNat + (f + 1) := by omega
    have hdiv : m / 2 ^ (q - e).toNat < 2 ^ (f + 1) := by
      rw [Nat.div_lt_iff_lt_mul (by positivity), Nat.mul_comm, ← Nat.pow_add]
      exact hlt.trans_le (Nat.pow_le_pow_right (by decide) hexp)
    dsimp only
    split
    · exact hdiv
    · exact hdiv.le

section Format

variable {k : Fmt}

theorem Fmt.pow_width : 2 ^ k.width = 2 * (2 ^ k.e * 2 ^ k.f) := by
  rw [Fmt.width, Nat.pow_add, Nat.pow_add, Nat.pow_one, Nat.mul_assoc]

/-- Sign, an exponent field short of the greatest value, and a fraction. -/
theorem Fmt.signed_lt {s x y : Nat} (hs : s ≤ 2 ^ (k.e + k.f)) (hx : x < 2 ^ k.e) (hy : y < 2 ^ k.f) : s + (x * 2 ^ k.f + y) < 2 ^ k.width := by
  have hfield : x * 2 ^ k.f + y < 2 ^ k.e * 2 ^ k.f := by
    calc x * 2 ^ k.f + y < x * 2 ^ k.f + 2 ^ k.f := Nat.add_lt_add_left hy _
      _ = (x + 1) * 2 ^ k.f := by ring
      _ ≤ 2 ^ k.e * 2 ^ k.f := Nat.mul_le_mul_right _ hx
  rw [Nat.pow_add] at hs
  rw [Fmt.pow_width]
  omega

theorem Fmt.sign_le (neg : Bool) : (if neg then 2 ^ (k.e + k.f) else 0) ≤ 2 ^ (k.e + k.f) := by
  split <;> simp

theorem Fmt.inf_lt (neg : Bool) : k.inf neg < 2 ^ k.width := by
  have h := Fmt.signed_lt (k := k) (x := 2 ^ k.e - 1) (y := 0) (Fmt.sign_le neg) (Nat.sub_lt (by positivity) one_pos) (by positivity)
  rw [Fmt.inf]
  omega

theorem Fmt.maxFin_lt (neg : Bool) : k.maxFin neg < 2 ^ k.width := by
  have h := Fmt.inf_lt (k := k) neg
  rw [Fmt.inf] at h
  rw [Fmt.maxFin]
  omega

theorem Fmt.nan_lt (hf : 0 < k.f) : k.nan < 2 ^ k.width := by
  have h := Fmt.signed_lt (k := k) (s := 0) (x := 2 ^ k.e - 1) (y := 2 ^ (k.f - 1)) (Nat.zero_le _) (Nat.sub_lt (by positivity) one_pos)
    (Nat.pow_lt_pow_right (by decide) (by omega))
  rw [Fmt.nan]
  omega

theorem Fmt.zero_lt (neg : Bool) : k.zero neg < 2 ^ k.width := by
  have h := Fmt.signed_lt (k := k) (x := 0) (y := 0) (Fmt.sign_le neg) (by positivity) (by positivity)
  rw [Fmt.zero]
  omega

/-- A rounded value is a word of its format (R86). -/
theorem Fmt.round_lt (he : 0 < k.e) (rnd : Rnd) (ldnf neg : Bool) (m : Nat) (e : Int) : (k.round rnd ldnf neg m e).1 < 2 ^ k.width := by
  have hzero : (if neg then 2 ^ (k.e + k.f) else 0) < 2 ^ k.width := Fmt.zero_lt neg
  have hsign := Fmt.sign_le (k := k) neg
  unfold Fmt.round
  dsimp only
  generalize (if neg then 2 ^ (k.e + k.f) else 0) = s at hzero hsign ⊢
  split
  · exact hzero
  have hle := roundTo_le rnd neg (m := m) (e := e) (f := k.f) (le_max_left _ (k.emin - (k.f : Int)))
  generalize max (msb m e - (k.f : Int)) (k.emin - (k.f : Int)) = q at hle ⊢
  generalize roundTo rnd neg m e q = r at hle ⊢
  obtain ⟨n, nx⟩ := r
  dsimp only at hle ⊢
  split
  · exact hzero
  split
  · cases rnd
    case rz => exact Fmt.maxFin_lt _
    case rd => cases neg; exacts [Fmt.maxFin_lt _, Fmt.inf_lt _]
    case ru => cases neg; exacts [Fmt.inf_lt _, Fmt.maxFin_lt _]
    all_goals exact Fmt.inf_lt _
  next hbias =>
  have hexp : (msb n q + (k.bias : Int)).toNat < 2 ^ k.e := by
    have hpow : 2 ^ k.e = 2 ^ (k.e - 1) * 2 := by rw [← Nat.pow_succ, Nat.succ_eq_add_one, Nat.sub_one_add_one (by omega)]
    have hpos : 0 < 2 ^ (k.e - 1) := by positivity
    rw [Fmt.bias] at hbias ⊢
    omega
  have hsub : n < 2 ^ k.f → s + n < 2 ^ k.width := fun hn => by
    have h := Fmt.signed_lt (x := 0) hsign (by positivity) hn
    omega
  have hnorm : s + ((msb n q + (k.bias : Int)).toNat * 2 ^ k.f + ((if n = 2 ^ (k.f + 1) then 2 ^ k.f else n) - 2 ^ k.f)) < 2 ^ k.width := by
    refine Fmt.signed_lt hsign hexp ?_
    have hpos : 0 < 2 ^ k.f := by positivity
    rw [Nat.pow_succ] at hle ⊢
    split <;> omega
  split
  · exact hzero
  · dsimp only
    split
    · next hn => exact hsub hn
    · exact hnorm

/-- An exact value rounded to a format is a word of it (R84, R86). -/
theorem Fmt.fin_lt (he : 0 < k.e) (hf : 0 < k.f) (rnd : Rnd) (ldnf : Bool) (x : Ex) : (k.fin rnd ldnf x).1 < 2 ^ k.width := by
  cases x with
  | nan nv => exact Fmt.nan_lt hf
  | inf neg => exact Fmt.inf_lt neg
  | num neg m e => exact Fmt.round_lt he rnd ldnf neg m e

/-! ### The flush of LDNF (R88) -/

theorem Fmt.flush_lt (ldnf : Bool) (w : Nat) : k.flush ldnf w < 2 ^ k.width := by
  unfold Fmt.flush
  split
  · exact Fmt.zero_lt _
  · exact Nat.mod_lt _ (by positivity)

/-- A zero is not subnormal. -/
theorem Fmt.subnormal_zero (neg : Bool) : k.subnormal (k.zero neg) = false := by
  cases neg <;> simp [Fmt.subnormal, Fmt.zero, Nat.pow_add]

/-- Bits above a format's width do not matter to it. -/
theorem Fmt.subnormal_mod (w : Nat) : k.subnormal (w % 2 ^ k.width) = k.subnormal w := by
  have hlow : w % 2 ^ k.width % 2 ^ k.f = w % 2 ^ k.f :=
    Nat.mod_mod_of_dvd _ (pow_dvd_pow 2 (by unfold Fmt.width; omega))
  have hexp : w % 2 ^ k.width / 2 ^ k.f % 2 ^ k.e = w / 2 ^ k.f % 2 ^ k.e := by
    rw [show k.width = k.f + (k.e + 1) by unfold Fmt.width; omega, Nat.pow_add, Nat.mod_mul_right_div_self,
      Nat.mod_mod_of_dvd _ (pow_dvd_pow 2 (by omega))]
  rw [Fmt.subnormal, hlow, hexp, ← Fmt.subnormal]

/-- What has been flushed is not flushed again. -/
theorem Fmt.flush_flush (ldnf : Bool) (w : Nat) : k.flush ldnf (k.flush ldnf w) = k.flush ldnf w := by
  have hsub : (ldnf && k.flushed && k.subnormal (k.flush ldnf w)) = false := by
    cases hc : ldnf && k.flushed && k.subnormal w
    · simp only [Fmt.flush, hc, Bool.false_eq_true, if_false, Fmt.subnormal_mod]
    · simp only [Fmt.flush, hc, if_true, Fmt.subnormal_zero, Bool.and_false]
  conv_lhs => rw [Fmt.flush, hsub, if_neg Bool.false_ne_true, Nat.mod_eq_of_lt (Fmt.flush_lt ldnf w)]

end Format

/-! ### A changed sign (R229) -/

/-- A change of sign of what has been flushed. -/
theorem signOp_flush (k : Fmt) (ldnf inv : Bool) (w : Nat) : signOp k ldnf inv (k.flush ldnf w) = signOp k ldnf inv w := by
  rw [signOp, Fmt.flush_flush, signOp]

theorem signOp_lt {k : Fmt} (hf : 0 < k.f) (ldnf inv : Bool) (w : Nat) : (signOp k ldnf inv w).1 < 2 ^ k.width := by
  have hmag : k.flush ldnf w % 2 ^ (k.e + k.f) < 2 ^ (k.e + k.f) := Nat.mod_lt _ (by positivity)
  have hwidth : 2 ^ k.width = 2 * 2 ^ (k.e + k.f) := by rw [Fmt.pow_width, Nat.pow_add]
  unfold signOp
  dsimp only
  split
  · exact Fmt.nan_lt hf
  · dsimp only
    split
    · split <;> omega
    · omega

end Sys2Proof.Machine
end

section
/-! Algebra instructions (R238, R239): a result in each component of a group of registers, and the statement of O7. -/

namespace Sys2Proof.Machine

open Sys2Proof Sys2Proof.Said

/-! ### Flags gathered in any order (R91) -/

theorem getLsbD_foldl_or {α : Type} (f : α → Flags) (xs : List α) (b : Flags) (i : Nat) :
    (xs.foldl (fun b x => b ||| f x) b).getLsbD i = (b.getLsbD i || xs.any fun x => (f x).getLsbD i) := by
  induction xs generalizing b with
  | nil => simp
  | cons x xs ih => rw [List.foldl_cons, ih, BitVec.getLsbD_or, List.any_cons, Bool.or_assoc]

/-- Flags gathered row by row are those gathered column by column. -/
theorem foldl_or_comm {α β : Type} (f : α → β → Flags) (xs : List α) (ys : List β) :
    xs.foldl (fun b x => b ||| ys.foldl (fun b y => b ||| f x y) 0) 0 = ys.foldl (fun b y => b ||| xs.foldl (fun b x => b ||| f x y) 0) 0 := by
  refine BitVec.eq_of_getLsbD_eq fun i _ => ?_
  simp only [getLsbD_foldl_or, BitVec.ofNat_eq_ofNat, BitVec.getLsbD_zero, Bool.false_or]
  rw [Bool.eq_iff_iff]
  simp only [List.any_eq_true]
  exact ⟨fun ⟨x, hx, y, hy, h⟩ => ⟨y, hy, x, hx, h⟩, fun ⟨y, hy, x, hx, h⟩ => ⟨x, hx, y, hy, h⟩⟩

theorem foldl_or_zero {α : Type} (f : α → Flags) (xs : List α) (b : Flags) :
    xs.foldl (fun b x => b ||| f x) b = b ||| xs.foldl (fun b x => b ||| f x) 0 := by
  refine BitVec.eq_of_getLsbD_eq fun i _ => ?_
  simp only [getLsbD_foldl_or, BitVec.getLsbD_or, BitVec.ofNat_eq_ofNat, BitVec.getLsbD_zero, Bool.false_or]

/-- Flags that together raise nothing enabled raise nothing enabled each. -/
theorem and_eq_zero_of_foldl_or {α : Type} {f : α → Flags} {xs : List α} {m : Flags} (h : xs.foldl (fun b x => b ||| f x) 0 &&& m = 0)
    {x : α} (hx : x ∈ xs) : f x &&& m = 0 := by
  refine BitVec.eq_of_getLsbD_eq fun i _ => ?_
  have hi := congrArg (BitVec.getLsbD · i) h
  simp only [BitVec.getLsbD_and, getLsbD_foldl_or, BitVec.ofNat_eq_ofNat, BitVec.getLsbD_zero, Bool.false_or] at hi
  simp only [BitVec.getLsbD_and, BitVec.ofNat_eq_ofNat, BitVec.getLsbD_zero]
  cases hf : (f x).getLsbD i
  · rfl
  · rwa [List.any_eq_true.mpr ⟨x, hx, hf⟩] at hi

/-! ### A group of results (R238) -/

theorem vput_append (xs ys : List (Nat × Nat × Word)) (l r : Nat) : vput (xs ++ ys) l r = (vput xs l r).or (vput ys l r) := by
  rw [vput, List.find?_append, Option.map_or]
  rfl

/-- The writes of one register of each lane. -/
theorem vput_map (ls : List Nat) (d : BitVec 8) (z : Nat → Word) (l r : Nat) :
    vput (ls.map fun m => (m, d.toNat, z m)) l r = if l ∈ ls ∧ r = d.toNat then some (z l) else none := by
  have h := vput_flatMap ls false d z z l r
  simp only [Bool.false_eq_true, if_false, Bool.false_and] at h
  rw [show (ls.flatMap fun m => [(m, d.toNat, z m)]) = ls.map fun m => (m, d.toNat, z m) from List.flatMap_pure_eq_map _ _] at h
  rw [h]
  by_cases hl : l ∈ ls <;> simp [hl]

/-- The writes of `n` components of each lane, component by component. -/
def groupWrites (ls : List Nat) (d : BitVec 8) (n : Nat) (z : Nat → Nat → Word) : List (Nat × Nat × Word) :=
  (List.range n).flatMap fun k => ls.map fun m => (m, (d + BitVec.ofNat 8 k).toNat, z m k)

section Group

variable {ls : List Nat} {d : BitVec 8} {n : Nat} {z : Nat → Nat → Word}

theorem toNat_add_component (hn : d.toNat + n ≤ 256) {k : Nat} (hk : k < n) : (d + BitVec.ofNat 8 k).toNat = d.toNat + k := by
  rw [BitVec.toNat_add, BitVec.toNat_ofNat]
  omega

theorem vput_groupWrites (hn : d.toNat + n ≤ 256) (l r : Nat) :
    vput (groupWrites ls d n z) l r = if l ∈ ls ∧ d.toNat ≤ r ∧ r < d.toNat + n then some (z l (r - d.toNat)) else none := by
  induction n with
  | zero => rw [if_neg (by omega)]; rfl
  | succ n ih =>
    have hsplit : groupWrites ls d (n + 1) z = groupWrites ls d n z ++ ls.map fun m => (m, (d + BitVec.ofNat 8 n).toNat, z m n) := by
      simp [groupWrites, List.range_succ]
    rw [hsplit, vput_append, ih (by omega), vput_map, toNat_add_component hn (Nat.lt_succ_self n)]
    by_cases hl : l ∈ ls
    · by_cases hr : r = d.toNat + n
      · subst hr
        simp [hl]
      · by_cases hin : d.toNat ≤ r ∧ r < d.toNat + n
        · simp [hl, hin, show r < d.toNat + (n + 1) by omega]
        · simp [hl, hin, hr, show ¬ (d.toNat ≤ r ∧ r < d.toNat + (n + 1)) by omega]
    · simp [hl]

theorem groupWrites_nodup (hn : d.toNat + n ≤ 256) (hls : ls.Nodup) : ((groupWrites ls d n z).map fun w => (w.1, w.2.1)).Nodup := by
  rw [groupWrites, List.map_flatMap, List.nodup_flatMap]
  constructor
  · intro k _
    rw [List.map_map]
    exact hls.map fun a b hab => (Prod.mk.inj hab).1
  · refine List.Nodup.pairwise_of_forall_ne List.nodup_range fun a ha b hb hab => ?_
    rw [List.mem_range] at ha hb
    simp only [Function.onFun, List.disjoint_left, List.mem_map]
    rintro w ⟨_, ⟨x, -, rfl⟩, rfl⟩ ⟨_, ⟨y, -, rfl⟩, hy⟩
    have hreg := (Prod.mk.inj hy).2
    dsimp only at hreg
    rw [toNat_add_component hn ha, toNat_add_component hn hb] at hreg
    omega

end Group

/-- An effect whose parts are gathered one after another. -/
theorem foldl_eff {α : Type} (g : α → Eff) (xs : List α) (f : Eff) :
    xs.foldl (fun (f : Eff) x => { f with v := f.v ++ (g x).v, flags := f.flags ++ (g x).flags }) f =
      { f with v := f.v ++ xs.flatMap fun x => (g x).v, flags := f.flags ++ xs.flatMap fun x => (g x).flags } := by
  induction xs generalizing f with
  | nil => simp
  | cons x xs ih => rw [List.foldl_cons, ih]; simp

/-- A result in each component of a group, of every active lane. -/
def Iss.eachGroup (x : Iss) (ty : Ty) (d : BitVec 8) (n : Nat) (g : Nat → Nat → Nat × Flags) : Eff :=
  (List.range n).foldl (fun (f : Eff) k =>
    let e := x.each ty (d + BitVec.ofNat 8 k) fun l => g l k
    { f with v := f.v ++ e.v, flags := f.flags ++ e.flags }) {}

section Wrote

variable {s : State} {c sl e : Nat} {i : Instr}

/-- An instruction of the team stream that only writes registers, each of them once, and raises nothing enabled. -/
theorem teamOnly_wrote (h : Clear s c sl e i) (hst : (streamsOf (op9Of i)).1 = true) {bad : Iss → Bool}
    (hb : bad (s.iss c sl e i) = false) {work : Iss → Act} {f : Eff} (hwork : work (s.iss c sl e i) = .eff f)
    (hfpe : (s.iss c sl e i).fpe f = none) (hnodup : (f.v.map fun w => (w.1, w.2.1)).Nodup) (hreg : ∀ w ∈ f.v, w.2.1 < 256)
    (hp : f.p = []) (hs : f.s = []) :
    ∃ t, teamOnly i s bad never noBank work = .next t ∧ Wrote s t c sl e i (vput f.v) noP noS f.union := by
  have hw := finish_wrote h f hnodup hreg (by simp [hp]) (by simp [hp]) (by simp [hs])
  have hnoP : pput f.p = noP := by funext l r; simp [hp, pput, noP]
  have hnoS : sput f.s = noS := by funext r; simp [hs, sput, noS]
  rw [hnoP, hnoS] at hw
  refine ⟨_, ?_, hw⟩
  rw [teamOnly_eq h hst hb, hwork, Iss.finish, hfpe]

/-- No flag is enabled: no trap. -/
theorem Iss.fpe_eq_none {f : Eff} (hcalm : ∀ y ∈ f.flags, y.2 &&& (((team s c sl e).fpctl >>> 8).setWidth 6 &&& 0b011111) = 0) :
    (s.iss c sl e i).fpe f = none := by
  have hbad : f.flags.filter (fun y => decide (y.2 &&& (((s.iss c sl e i).t.fpctl >>> 8).setWidth 6 &&& 0b011111) ≠ 0)) = [] := by
    rw [List.filter_eq_nil_iff]
    intro y hy
    rw [decide_eq_true_eq, not_not]
    exact hcalm y hy
  unfold Iss.fpe
  dsimp only
  rw [hbad]

/-- The flags of a component, lane by lane. -/
theorem each_flags (h : Clear s c sl e i) (ty : Ty) (d : BitVec 8) (g : Nat → Nat × Flags) :
    ((s.iss c sl e i).each ty d g).flags =
      (((lanes s c sl e i).map fun l => (l, g l)).filter fun r => r.2.2 != 0).map fun r => (r.1, r.2.2) := by
  rw [← act_eq h]
  rfl

/-- What a group writes and raises. -/
theorem group_eq (h : Clear s c sl e i) {ty : Ty} (h64 : ty.is64 = false) (d : BitVec 8) (n : Nat) (g : Nat → Nat → Nat × Flags) :
    (s.iss c sl e i).eachGroup ty d n g =
      { v := groupWrites (lanes s c sl e i) d n fun l k => BitVec.ofNat 32 (extend ty 32 (g l k).1)
        flags := (List.range n).flatMap fun k =>
          (((lanes s c sl e i).map fun l => (l, g l k)).filter fun r => r.2.2 != 0).map fun r => (r.1, r.2.2) } := by
  have hv : ∀ k, ((s.iss c sl e i).each ty (d + BitVec.ofNat 8 k) fun l => g l k).v =
      (lanes s c sl e i).map fun m => (m, (d + BitVec.ofNat 8 k).toNat, BitVec.ofNat 32 (extend ty 32 (g m k).1)) := fun k => by
    simp only [Iss.each, act_eq h, resV, h64, Bool.false_eq_true, if_false]
    rw [List.flatMap_map]
    exact List.flatMap_pure_eq_map _ _
  rw [Iss.eachGroup, foldl_eff fun k => (s.iss c sl e i).each ty (d + BitVec.ofNat 8 k) fun l => g l k]
  simp only [hv, each_flags h]
  rfl

/-- The flags of a lane's components together. -/
def groupFlags (n : Nat) (g : Nat → Nat → Nat × Flags) (l : Nat) : Flags := (List.range n).foldl (fun b k => b ||| (g l k).2) 0

theorem group_union (h : Clear s c sl e i) {ty : Ty} (h64 : ty.is64 = false) (d : BitVec 8) (n : Nat) (g : Nat → Nat → Nat × Flags) :
    ((s.iss c sl e i).eachGroup ty d n g).union = raised s c sl e i (groupFlags n g) := by
  rw [group_eq h h64, Eff.union]
  dsimp only
  rw [List.foldl_flatMap]
  simp only [foldl_flags]
  rw [funext₂ fun (b : Flags) k => foldl_or_zero (fun l => (g l k).2) (lanes s c sl e i) b]
  exact foldl_or_comm (fun k l => (g l k).2) _ _

/-- A calm group traps nowhere. -/
theorem group_fpe (h : Clear s c sl e i) {ty : Ty} (h64 : ty.is64 = false) (d : BitVec 8) (n : Nat) (g : Nat → Nat → Nat × Flags)
    (hcalm : calm s c sl e i (groupFlags n g)) : (s.iss c sl e i).fpe ((s.iss c sl e i).eachGroup ty d n g) = none := by
  refine Iss.fpe_eq_none fun y hy => ?_
  rw [group_eq h h64] at hy
  obtain ⟨k, hk, hy⟩ := List.mem_flatMap.mp hy
  simp only [List.mem_map, List.mem_filter] at hy
  obtain ⟨_, ⟨⟨l, hl, rfl⟩, -⟩, rfl⟩ := hy
  exact and_eq_zero_of_foldl_or (hcalm l ((mem_lanes l).1 hl)) hk

/-- An instruction that gives each active lane a group of results, in full. -/
theorem teamOnly_group (h : Clear s c sl e i) (hst : (streamsOf (op9Of i)).1 = true) {bad : Iss → Bool}
    (hb : bad (s.iss c sl e i) = false) {ty : Ty} (h64 : ty.is64 = false) {d : BitVec 8} {n : Nat} (hd : d.toNat + n ≤ 256)
    {work : Iss → Act} {g : Nat → Nat → Nat × Flags} (hwork : work (s.iss c sl e i) = .eff ((s.iss c sl e i).eachGroup ty d n g))
    (hfit : ∀ l k, extend ty 32 (g l k).1 = (g l k).1) (hcalm : calm s c sl e i (groupFlags n g)) :
    ∃ t, teamOnly i s bad never noBank work = .next t ∧ Wrote s t c sl e i
      (fun l r => if active s c sl e i l && decide (d.toNat ≤ r) && decide (r < d.toNat + n) then
        some (BitVec.ofNat 32 (g l (r - d.toNat)).1) else none)
      noP noS (raised s c sl e i (groupFlags n g)) := by
  have heff := group_eq h h64 d n g
  have hvalues : vput ((s.iss c sl e i).eachGroup ty d n g).v = fun l r =>
      if active s c sl e i l && decide (d.toNat ≤ r) && decide (r < d.toNat + n) then
        some (BitVec.ofNat 32 (g l (r - d.toNat)).1) else none := by
    funext l r
    rw [heff, vput_groupWrites hd]
    simp only [mem_lanes, hfit, Bool.and_eq_true, decide_eq_true_eq, and_assoc]
  rw [← group_union h h64 d, ← hvalues]
  refine teamOnly_wrote h hst hb hwork (group_fpe h h64 d n g hcalm) ?_ ?_ (by rw [heff]) (by rw [heff])
  · rw [heff]
    exact groupWrites_nodup hd lanes_nodup
  · intro w hw
    rw [heff] at hw
    simp only [groupWrites, List.mem_flatMap, List.mem_map] at hw
    obtain ⟨_, -, _, -, rfl⟩ := hw
    exact BitVec.isLt _

end Wrote

/-! ### The three instructions (R239) -/

/-- The types that an algebra instruction takes: a value of the type's format is a value of the type. -/
theorem algebra_type {ty : Ty} (hty : ty = .f32 ∨ ty = .bf16) :
    ty.is64 = false ∧ 0 < (fmtOf ty).e ∧ 0 < (fmtOf ty).f ∧ (fmtOf ty).width = ty.bits ∧ ∀ v, extend ty 32 v = v % 2 ^ ty.bits := by
  rcases hty with rfl | rfl <;> exact ⟨rfl, by decide, by decide, rfl, fun _ => rfl⟩

theorem algebra_fits {ty : Ty} (hty : ty = .f32 ∨ ty = .bf16) {v : Nat} (hv : v < 2 ^ (fmtOf ty).width) : extend ty 32 v = v := by
  obtain ⟨-, -, -, hwidth, hextend⟩ := algebra_type hty
  rw [hextend, Nat.mod_eq_of_lt (hwidth ▸ hv)]

theorem algSum_fits {ty : Ty} (hty : ty = .f32 ∨ ty = .bf16) (rnd : Rnd) (ldnf : Bool) (ts : List FV) :
    extend ty 32 (algSum (fmtOf ty) rnd ldnf ts).1 = (algSum (fmtOf ty) rnd ldnf ts).1 := by
  obtain ⟨-, he, hf, -⟩ := algebra_type hty
  exact algebra_fits hty (Fmt.fin_lt he hf _ _ _)

/-- A component of a conjugate (R100, R239): its sign changed where the slot says so. -/
def conjOf (k : Fmt) (ldnf flip : Bool) (w : Nat) : Nat × Flags :=
  if flip then signOp k ldnf true w
  else (if (k.dec (k.flush ldnf w)).isNan then k.nan else k.flush ldnf w, if (k.dec (k.flush ldnf w)).isSig then fNV else 0)

/-- The model's order of the cases of a conjugate. -/
theorem conjOf_eq (k : Fmt) (ldnf flip : Bool) (w : Nat) :
    (match k.dec (k.flush ldnf w) with
     | .nan sg => (k.nan, if sg then fNV else 0)
     | _ => if flip then signOp k ldnf true (k.flush ldnf w) else (k.flush ldnf w, 0)) = conjOf k ldnf flip w := by
  rw [conjOf, signOp_flush]
  cases hdec : k.dec (k.flush ldnf w) with
  | nan sg =>
    cases flip
    · rfl
    · simp only [signOp, hdec, if_true]
  | inf n => cases flip <;> rfl
  | fin n m e => cases flip <;> rfl

theorem conjOf_fits {ty : Ty} (hty : ty = .f32 ∨ ty = .bf16) (ldnf flip : Bool) (w : Nat) :
    extend ty 32 (conjOf (fmtOf ty) ldnf flip w).1 = (conjOf (fmtOf ty) ldnf flip w).1 := by
  obtain ⟨-, -, hf, -⟩ := algebra_type hty
  refine algebra_fits hty ?_
  unfold conjOf
  split
  · exact signOp_lt hf _ _ _
  · dsimp only
    split
    · exact Fmt.nan_lt hf
    · exact Fmt.flush_lt _ _

/-- An operand type of an arithmetic shape that takes the two types of the algebra instructions. -/
theorem algebra_types {o : Alu} {sh : Shape} (h : o.ok sh = true) (hsh : sh.types = [.f32, .bf16]) : o.ty = .f32 ∨ o.ty = .bf16 := by
  simp only [Alu.ok, Bool.and_eq_true, hsh] at h
  simpa using h.1.1.1.1.1.1.1.1.1.1.1.1.1.1.1

/-- The destination group is among the registers that the static checks saw (R172). -/
theorem dest_mem_aluUses (o : Alu) (nd na nb nc : Nat) (rw' : Bool) :
    ({ cls := .v, reg := o.d.toNat, n := nd, rd := rw', wr := true } : Use) ∈ aluUses o nd na nb nc rw' :=
  List.mem_append_left _ (List.mem_append_left _ (List.mem_append_left _ List.mem_cons_self))

section Instructions

variable {s : State} {c sl e : Nat} {h : Hdr} {o : Alu}

/-- A component of an operand with nothing under way (R185). -/
theorem comp_eq {i : Instr} (hc : Clear s c sl e i) (ty : Ty) (b : Bool) (r : BitVec 8) (l k : Nat) :
    (s.iss c sl e i).comp ty b r l k = (fmtOf ty).opnd (mode s c sl e 1)
      (if b then (sreg s c sl e (r.toNat + k)).toNat else (vreg s c sl e l (r.toNat + k)).toNat) := by
  rw [Iss.comp, rs_eq hc, rv_eq hc]
  rfl

/-- The slot that an algebra instruction names (R104, R238). -/
def slotOf (s : State) (c sl e : Nat) (o : Alu) : Algebra := s.algebra (launch s c sl e).ctx (clusterOf c) (o.ext.toNat % 8)

theorem execAlgMul_wrote (hc : Clear s c sl e (.algMul h o)) (hd : o.d.toNat % (slotOf s c sl e o).k = 0)
    (ha : o.a.toNat % (slotOf s c sl e o).k = 0) (hb : o.b.toNat % (slotOf s c sl e o).k = 0) {g : Nat → Nat → Nat × Flags}
    (hg : ∀ l k, g l k = algSum (fmtOf o.ty) o.rnd (mode s c sl e 1) ((slotOf s c sl e o).terms k
      (fun j => (s.iss c sl e (.algMul h o)).comp o.ty false o.a l j) fun j => (s.iss c sl e (.algMul h o)).comp o.ty o.bs o.b l j))
    (hcalm : calm s c sl e (.algMul h o) (groupFlags (slotOf s c sl e o).k g)) :
    ∃ t, exec (.algMul h o) s = .next t ∧ Wrote s t c sl e (.algMul h o)
      (fun l r => if active s c sl e (.algMul h o) l && decide (o.d.toNat ≤ r) && decide (r < o.d.toNat + (slotOf s c sl e o).k) then
        some (BitVec.ofNat 32 (g l (r - o.d.toNat)).1) else none)
      noP noS (raised s c sl e (.algMul h o) (groupFlags (slotOf s c sl e o).k g)) := by
  have hty : o.ty = .f32 ∨ o.ty = .bf16 := algebra_types (Bool.and_eq_true_iff.mp hc.wf).1 rfl
  have hroom : o.d.toNat + (slotOf s c sl e o).k ≤ 256 :=
    (hc.regs _ (List.mem_append_right _ (dest_mem_aluUses o _ _ _ _ _)) rfl).trans (min_le_left _ _)
  have hbad : (decide (o.d.toNat % (s.iss c sl e (.algMul h o)).alg ≠ 0) || decide (o.a.toNat % (s.iss c sl e (.algMul h o)).alg ≠ 0) ||
      decide (o.b.toNat % (s.iss c sl e (.algMul h o)).alg ≠ 0)) = false := by
    rw [show (s.iss c sl e (.algMul h o)).alg = (slotOf s c sl e o).k from rfl, hd, ha, hb]
    rfl
  refine teamOnly_group hc rfl hbad (algebra_type hty).1 hroom ?_ (fun l k => ?_) hcalm
  · rw [show g = _ from funext fun l => funext fun k => hg l k]
    rfl
  · rw [hg]
    exact algSum_fits hty _ _ _

theorem execAlgConj_wrote (hc : Clear s c sl e (.algConj h o)) (hd : o.d.toNat % (slotOf s c sl e o).k = 0)
    (ha : o.a.toNat % (slotOf s c sl e o).k = 0) {g : Nat → Nat → Nat × Flags}
    (hg : ∀ l k, g l k = conjOf (fmtOf o.ty) (mode s c sl e 1) ((slotOf s c sl e o).conj.getLsbD k)
      (vreg s c sl e l (o.a.toNat + k)).toNat)
    (hcalm : calm s c sl e (.algConj h o) (groupFlags (slotOf s c sl e o).k g)) :
    ∃ t, exec (.algConj h o) s = .next t ∧ Wrote s t c sl e (.algConj h o)
      (fun l r => if active s c sl e (.algConj h o) l && decide (o.d.toNat ≤ r) && decide (r < o.d.toNat + (slotOf s c sl e o).k) then
        some (BitVec.ofNat 32 (g l (r - o.d.toNat)).1) else none)
      noP noS (raised s c sl e (.algConj h o) (groupFlags (slotOf s c sl e o).k g)) := by
  have hty : o.ty = .f32 ∨ o.ty = .bf16 := algebra_types (Bool.and_eq_true_iff.mp hc.wf).1 rfl
  have hroom : o.d.toNat + (slotOf s c sl e o).k ≤ 256 :=
    (hc.regs _ (List.mem_append_right _ (dest_mem_aluUses o _ _ _ _ _)) rfl).trans (min_le_left _ _)
  have hbad : (decide (o.d.toNat % (s.iss c sl e (.algConj h o)).alg ≠ 0) ||
      decide (o.a.toNat % (s.iss c sl e (.algConj h o)).alg ≠ 0)) = false := by
    rw [show (s.iss c sl e (.algConj h o)).alg = (slotOf s c sl e o).k from rfl, hd, ha]
    rfl
  refine teamOnly_group hc rfl hbad (algebra_type hty).1 hroom ?_ (fun l k => ?_) hcalm
  · rw [show g = _ from funext fun l => funext fun k => (hg l k).trans (conjOf_eq _ _ _ _).symm]
    simp only [← rv_eq hc]
    rfl
  · rw [hg]
    exact conjOf_fits hty _ _ _

theorem execAlgNorm_wrote (hc : Clear s c sl e (.algNorm h o)) (ha : o.a.toNat % (slotOf s c sl e o).k = 0) {g : Nat → Nat × Flags}
    (hg : ∀ l, g l = algSum (fmtOf o.ty) o.rnd (mode s c sl e 1) ((slotOf s c sl e o).terms 0
      (fun j => (s.iss c sl e (.algNorm h o)).comp o.ty false o.a l j) fun j =>
        if (slotOf s c sl e o).conj.getLsbD j then ((s.iss c sl e (.algNorm h o)).comp o.ty false o.a l j).neg?
        else (s.iss c sl e (.algNorm h o)).comp o.ty false o.a l j))
    (hcalm : calm s c sl e (.algNorm h o) fun l => (g l).2) :
    ∃ t, exec (.algNorm h o) s = .next t ∧ Wrote s t c sl e (.algNorm h o)
      (dest s c sl e (.algNorm h o) false o.d fun l => BitVec.ofNat 64 ((g l).1 % 2 ^ o.ty.bits)) noP noS
      (raised s c sl e (.algNorm h o) fun l => (g l).2) := by
  have hty : o.ty = .f32 ∨ o.ty = .bf16 := algebra_types (Bool.and_eq_true_iff.mp hc.wf).1 rfl
  obtain ⟨h64, -, -, -, hextend⟩ := algebra_type hty
  have hroom : o.d.toNat + 1 ≤ 256 :=
    (hc.regs _ (List.mem_append_right _ (dest_mem_aluUses o _ _ _ _ _)) rfl).trans (min_le_left _ _)
  have hbad : decide (o.a.toNat % (s.iss c sl e (.algNorm h o)).alg ≠ 0) = false := by
    rw [show (s.iss c sl e (.algNorm h o)).alg = (slotOf s c sl e o).k from rfl, ha]
    rfl
  obtain ⟨hnodup, hreg, hp, hs, hvalues, hunion, hfpe⟩ :=
    each_eff hc o.ty o.d (by rwa [h64]) g (fun l => BitVec.ofNat 64 ((g l).1 % 2 ^ o.ty.bits)) fun l _ => by
      rw [h64, if_neg Bool.false_ne_true, hextend, low_word]
  rw [h64] at hvalues
  rw [← hvalues, ← hunion]
  refine teamOnly_wrote hc rfl hbad ?_ (hfpe hcalm) hnodup hreg hp hs
  rw [show g = _ from funext hg]
  rfl

end Instructions

/-- Settles O7: each instruction is its arithmetic on the components of its operands, in every component of the destination. -/
theorem algebraInstructionsFollowTheSlot : Obligations.AlgebraInstructionsFollowTheSlot := by
  intro s c sl e h o
  refine ⟨fun hc hd ha hb hcalm => ?_, fun hc hd ha hcalm => ?_, fun hc ha hcalm => ?_⟩
  · exact execAlgMul_wrote hc hd ha hb (fun l k => by simp only [comp_eq hc]; rfl) hcalm
  · exact execAlgConj_wrote hc hd ha (fun l k => rfl) hcalm
  · exact execAlgNorm_wrote hc ha (fun l => by simp only [comp_eq hc]; rfl) hcalm

end Sys2Proof.Machine
end

section
/-! SUPPORT. What engines do to the units of the device: reads of memory change none (R139, R144), a write fires monitors and changes no
scratchpad (R204), a write of scratchpad wakes sleepers (R263). -/

namespace Sys2Proof.Machine

open Sys2Proof Sys2Proof.Said

/-! ### Reads of memory -/

/-- What a read of a block counts, logs and chooses is all that it changes (R140, R142, R404). -/
structure Counts (s t : State) : Prop where
  rest : t = { s with parts := t.parts, ports := t.ports, wh := t.wh, msix := t.msix, fresh := t.fresh }

theorem Counts.trans {s u t : State} (h : Counts s u) (k : Counts u t) : Counts s t := ⟨by rw [k.rest, h.rest]⟩

theorem State.retire_counts (s : State) (frame : Nat) : Counts s (s.retire frame) := by
  unfold State.retire
  split <;> exact ⟨rfl⟩

theorem State.logEvent_counts (s : State) (r : LogRec) : Counts s (s.logEvent r) := by
  obtain ⟨w, m, h⟩ := s.logEvent_eq r
  rw [h]
  exact ⟨rfl⟩

theorem State.setPart_counts (s : State) (n : Nat) (x : Partn) : Counts s (s.setPart n x) := ⟨rfl⟩

theorem State.choice_counts (s : State) (n : Nat) : Counts s { s with fresh := n } := ⟨rfl⟩

theorem State.loadBlock_counts (s : State) (blk key : Nat) : Counts s (s.loadBlock blk key).2.2 := by
  unfold State.loadBlock
  dsimp only
  split
  · exact ⟨rfl⟩
  split
  · exact ⟨rfl⟩
  · exact ⟨rfl⟩
  · exact ⟨rfl⟩
  have herrors : Counts s (if s.badBlk.get false blk || decide (24 < Config.bitErrors blk s.fresh) then
      State.logUce { s with fresh := s.fresh + 1 } (blkPart blk) (blkFrame blk) (blkHalf blk)
    else if Config.bitErrors blk s.fresh = 0 then { s with fresh := s.fresh + 1 }
    else State.setPart { s with fresh := s.fresh + 1 } (blkPart blk)
      { State.part { s with fresh := s.fresh + 1 } (blkPart blk) with
        ce := (State.part { s with fresh := s.fresh + 1 } (blkPart blk)).ce + 1 }) := by
    refine (s.choice_counts (s.fresh + 1)).trans ?_
    split
    · exact ((State.setPart_counts _ _ _).trans (State.logEvent_counts _ _)).trans (State.retire_counts _ _)
    split
    · exact ⟨rfl⟩
    · exact State.setPart_counts _ _ _
  split
  · exact herrors
  · exact herrors.trans (State.choice_counts _ _)

/-- No core, no control core and no parcel has changed. -/
structure SameUnits (s t : State) : Prop where
  cores : t.cores = s.cores
  ctls : t.ctls = s.ctls
  parcels : t.parcels = s.parcels

namespace SameUnits

theorem refl (s : State) : SameUnits s s := ⟨rfl, rfl, rfl⟩

theorem trans {s u t : State} (h : SameUnits s u) (k : SameUnits u t) : SameUnits s t :=
  ⟨k.cores.trans h.cores, k.ctls.trans h.ctls, k.parcels.trans h.parcels⟩

theorem core {s t : State} (h : SameUnits s t) (n : Nat) : t.core n = s.core n := by rw [State.core, h.cores]; rfl

theorem ctl {s t : State} (h : SameUnits s t) (n : Nat) : t.ctl n = s.ctl n := by rw [State.ctl, h.ctls]; rfl

theorem parcel {s t : State} (h : SameUnits s t) (n : Nat) : t.parcel n = s.parcel n := by rw [State.parcel, h.parcels]; rfl

theorem setPart (s : State) (n : Nat) (x : Partn) : SameUnits s (s.setPart n x) := ⟨rfl, rfl, rfl⟩

theorem choice (s : State) (n : Nat) : SameUnits s { s with fresh := n } := ⟨rfl, rfl, rfl⟩

theorem loadBlock (s : State) (blk key : Nat) : SameUnits s (s.loadBlock blk key).2.2 := by
  rw [(s.loadBlock_counts blk key).rest]
  exact ⟨rfl, rfl, rfl⟩

theorem fillLine (s : State) (blk : Nat) (x : Line) : SameUnits s (s.fillLine blk x).2 := by
  unfold State.fillLine
  split
  · exact refl s
  · exact loadBlock s blk x.key

theorem evict (s : State) (blk : Nat) : SameUnits s (s.evict blk) := by
  unfold State.evict
  split
  · exact refl s
  next x _ =>
  split
  · exact ⟨rfl, rfl, rfl⟩
  have hfill : SameUnits s (if x.fresh.all id then (x, s) else s.fillLine blk x).2 := by
    split
    · exact refl s
    · exact fillLine s blk x
  generalize (if x.fresh.all id then (x, s) else s.fillLine blk x) = y at hfill ⊢
  obtain ⟨x', s'⟩ := y
  refine trans hfill ?_
  dsimp only
  split
  · split <;> exact ⟨rfl, rfl, rfl⟩
  split
  · exact ⟨rfl, rfl, rfl⟩
  · split <;> exact ⟨rfl, rfl, rfl⟩

theorem makeWay (s : State) (blk : Nat) : SameUnits s (s.makeWay blk) := by
  unfold State.makeWay State.free64
  dsimp only
  split
  · exact refl s
  · exact (choice s _).trans (evict _ _)

theorem takeLine (s : State) (part : Nat) (l : Leaf) (half : Nat) : SameUnits s (s.takeLine part l half).2 := by
  unfold State.takeLine
  dsimp only
  split
  · exact ⟨rfl, rfl, rfl⟩
  · exact (makeWay s _).trans ⟨rfl, rfl, rfl⟩

theorem readG (s : State) (l : Leaf) (va n : Nat) : SameUnits s (s.readG l va n).2.2 := by
  unfold State.readG
  dsimp only
  split
  · exact ⟨rfl, rfl, rfl⟩
  · exact ((takeLine s _ _ _).trans (fillLine _ _ _)).trans ⟨rfl, rfl, rfl⟩

/-- Entries that are read leave the units as they were: a bad block of the pool gives none (R373, R408). -/
theorem readPool {s s1 : State} {d : CtxDesc} {o : Nat} {w : Dword} (h : s.readPool d o = (some w, s1)) : SameUnits s s1 := by
  unfold State.readPool State.readEntries at h
  dsimp only at h
  split at h
  · cases h
  split at h
  · cases h
  · rw [← (Prod.mk.inj h).2]
    exact readG s _ _ _

/-- A walk that finds a leaf changes no unit. -/
theorem walkFrom {s s1 : State} {ctx va level table : Nat} {l : Leaf}
    (h : s.walkFrom ctx va level table = (.leaf l, s1)) : SameUnits s s1 := by
  induction level generalizing s table with
  | zero =>
    rw [State.walkFrom] at h
    dsimp only at h
    split at h
    · cases h
    split at h
    · cases h
    next w s2 hread =>
    split at h
    · cases h
    split at h
    · cases h
    · rw [← (Prod.mk.inj h).2]
      exact readPool hread
  | succ n ih =>
    rw [State.walkFrom] at h
    dsimp only at h
    split at h
    · cases h
    split at h
    · cases h
    next w s2 hread =>
    split at h
    · cases h
    split at h
    · split at h
      · cases h
      · rw [← (Prod.mk.inj h).2]
        exact readPool hread
    · exact (readPool hread).trans (ih h)

theorem translate {s s1 : State} {ctx va : Nat} {who : Met} {l : Leaf} (h : s.translate ctx va who = (.ok l, s1)) : SameUnits s s1 := by
  unfold State.translate at h
  split at h
  · rw [(Prod.mk.inj h).2]
    exact refl s1
  split at h
  · cases h
  · cases h
  · cases h
  next l' s2 hw =>
  split at h
  · cases h
  · rw [← (Prod.mk.inj h).2]
    exact (walkFrom hw).trans ⟨rfl, rfl, rfl⟩

/-- An engine's read that gives its bytes changes no unit. -/
theorem engineRead {s s1 : State} {ctx va n : Nat} {who : Met} {bs : List Byte} (h : s.engineRead ctx va n who = (.ok bs, s1)) :
    SameUnits s s1 := by
  unfold State.engineRead at h
  split at h
  · cases h
  split at h
  · cases h
  · cases h
  · cases h
  · cases h
  next l s2 ht =>
  split at h
  · cases h
  split at h
  · cases h
  split at h
  · cases h
  · rw [← (Prod.mk.inj h).2]
    exact (translate ht).trans (readG s2 l va n)

end SameUnits

/-! ### Monitors that a write fires (R204) -/

/-- Nothing of memory has changed, no scratchpad and no command of an engine. -/
structure Fired (s t : State) : Prop where
  rest : t = { s with cores := t.cores, ctls := t.ctls, reqs := t.reqs, parts := t.parts }
  scratch : SameScratch s t
  cmds : ∀ cl, (t.ctl cl).cmds = (s.ctl cl).cmds

namespace Fired

theorem refl (s : State) : Fired s s := ⟨rfl, fun _ => rfl, fun _ => rfl⟩

theorem trans {s u t : State} (h : Fired s u) (k : Fired u t) : Fired s t where
  rest := by rw [k.rest, h.rest]
  scratch n := (k.scratch n).trans (h.scratch n)
  cmds cl := (k.cmds cl).trans (h.cmds cl)

/-- Control cores that change afterwards have nothing to do with it. -/
theorem rest_ctls {s t : State} (h : Fired s t) (w : Store Control) :
    { t with ctls := w } = { s with cores := t.cores, ctls := w, reqs := t.reqs, parts := t.parts } := by rw [h.rest]

theorem foldl {α : Type} {f : State → α → State} (hf : ∀ s x, Fired s (f s x)) (l : List α) (s : State) : Fired s (l.foldl f s) := by
  induction l generalizing s with
  | nil => exact refl s
  | cons x l ih => exact (hf s x).trans (ih _)

theorem setPart (s : State) (n : Nat) (x : Partn) : Fired s (s.setPart n x) := ⟨rfl, fun _ => rfl, fun _ => rfl⟩

theorem setCore (s : State) (n : Nat) {x : Core} (h : x.scratch = (s.core n).scratch) : Fired s (s.setCore n x) where
  rest := rfl
  scratch m := by
    rw [State.core_setCore]
    split
    · next hm => rw [h, hm]
    · rfl
  cmds _ := rfl

theorem setCtl (s : State) (n : Nat) {x : Control} (h : x.cmds = (s.ctl n).cmds) : Fired s (s.setCtl n x) where
  rest := rfl
  scratch _ := rfl
  cmds cl := by
    rw [State.ctl_setCtl]
    split
    · next hn => rw [h, hn]
    · rfl

theorem setTeam (s : State) (c sl n : Nat) (x : Team) : Fired s (s.setTeam c sl n x) := setCore s c rfl

theorem setEntry (s : State) (c sl e : Nat) (x : Entry) : Fired s (s.setEntry c sl e x) := setCore s c rfl

theorem wakeEnt (s : State) (c sl e : Nat) : Fired s (s.wakeEnt c sl e) := by
  unfold State.wakeEnt State.makeReady
  dsimp only
  split
  · exact (setEntry _ _ _ _ _).trans (setEntry _ _ _ _ _)
  · exact (setEntry _ _ _ _ _).trans (setEntry _ _ _ _ _)

theorem invalidate (s : State) (port : Nat) : Fired s (s.invalidate port) := by
  have hreqs : Fired s { s with reqs := s.reqs.map fun (r : Req) => if r.port = port then { r with noFill := true } else r } :=
    ⟨rfl, fun _ => rfl, fun _ => rfl⟩
  rw [State.invalidate]
  refine hreqs.trans ?_
  split
  · exact setCore _ _ rfl
  · exact setCtl _ _ rfl

theorem wakeMonitor (s : State) (c sl e d : Nat) (one : Bool) : Fired s (s.wakeMonitor c sl e d one) := by
  unfold State.wakeMonitor
  extract_lets x t p s1 s2
  have hteam : Fired s s1 := setTeam s c sl x.team _
  have hcache : Fired s1 s2 := by
    unfold s2
    split
    · exact invalidate s1 c
    · exact refl s1
  exact (hteam.trans hcache).trans (wakeEnt s2 c sl e)

theorem disarm (s : State) (m : Nat × Nat) : Fired s (s.disarm m) := by
  unfold State.disarm
  dsimp only
  split
  · exact refl s
  · exact setPart _ _ _

theorem trimMonitors (s : State) (c : Nat) : Fired s (s.trimMonitors c) := by
  unfold State.trimMonitors
  dsimp only
  refine trans ?_ (foldl disarm _ _)
  exact setCore s c rfl

theorem wakeSector (s : State) (ctx sec : Nat) (one : Bool) : Fired s (s.wakeSector ctx sec one) := by
  refine foldl (fun s p => ?_) _ s
  split
  · dsimp only
    split
    · exact (wakeMonitor _ _ _ _ _ _).trans (trimMonitors _ _)
    · exact refl s
  · exact refl s

theorem sectorWritten (s : State) (ctx va : Nat) (l : Leaf) : Fired s (s.sectorWritten ctx va l) := by
  unfold State.sectorWritten
  exact trans (setPart s _ _) (foldl (fun _ _ => wakeSector _ _ _ _) _ _)

end Fired

/-! ### Bytes written in a scratchpad (R263) -/

theorem State.wakeCtl_cmds (s : State) (n cl : Nat) : ((s.wakeCtl n).ctl cl).cmds = (s.ctl cl).cmds := by
  rw [State.wakeCtl, State.ctl_setCtl]
  split
  · next h => rw [h]
  · rfl

theorem foldl_cmds {α : Type} {f : State → α → State} (hf : ∀ s x cl, ((f s x).ctl cl).cmds = (s.ctl cl).cmds) (l : List α) (s : State)
    (cl : Nat) : ((l.foldl f s).ctl cl).cmds = (s.ctl cl).cmds := by
  induction l generalizing s with
  | nil => rfl
  | cons x l ih => exact (ih _).trans (hf s x cl)

/-- A check of the phases changes no command. -/
theorem State.phaseCheck_cmds (s : State) (core a n cl : Nat) : ((s.phaseCheck core a n).ctl cl).cmds = (s.ctl cl).cmds := by
  unfold State.phaseCheck
  dsimp only
  refine (foldl_cmds (fun s x cl => ?_) _ _ cl).trans (foldl_cmds (fun s x cl => ?_) _ _ cl)
  · split
    · split
      · exact s.wakeCtl_cmds _ cl
      · rfl
    · rfl
  · split
    · split
      · exact (Fired.wakeEnt _ _ _ _).cmds cl
      · rfl
    · rfl

/-- Bytes written into the scratchpad of a core, of any number: the sleepers aside nothing else changes. -/
structure Stored (s t : State) (c a : Nat) (bs : List Byte) : Prop where
  scratch : (t.core c).scratch = writeBytes (s.core c).scratch a bs
  mx : ∀ n, (t.core n).mx = (s.core n).mx
  memory : SameMemory s t

theorem State.storeScr_stored (s : State) (c a : Nat) (bs : List Byte) : Stored s (s.storeScr c a bs) c a bs := by
  obtain ⟨u, hu, ht⟩ := (s.writeScr c a bs).phaseCheck_woken c a bs.length
  have hcore : ∀ n, (s.storeScr c a bs).core n = u.core n := fun n => by rw [State.storeScr, ht]; rfl
  refine ⟨?_, fun n => ?_, ?_⟩
  · rw [hcore, hu.scratch, State.writeScr, State.core_setCore_same]
  · rw [hcore, hu.cores, State.writeScr, State.core_setCore]
    split
    · next h => rw [h]
    · rfl
  · rw [State.storeScr, ht]
    exact hu.sameMemory

theorem State.storeScr_cmds (s : State) (c a : Nat) (bs : List Byte) (cl : Nat) :
    ((s.storeScr c a bs).ctl cl).cmds = (s.ctl cl).cmds := by
  rw [State.storeScr, State.phaseCheck_cmds]
  rfl

/-- Commands that change afterwards have nothing to do with it. -/
theorem Stored.mapCmd {s t : State} {c a : Nat} {bs : List Byte} (h : Stored s t c a bs) (cl lid : Nat) (eseq : Word) (f : Cmd → Cmd) :
    Stored s (t.mapCmd cl lid eseq f) c a bs := ⟨h.scratch, h.mx, h.memory⟩

/-- A byte written is read. -/
theorem Stored.at {s t : State} {c a : Nat} {bs : List Byte} (h : Stored s t c a bs) {q : Nat} (hq : q < bs.length) :
    (t.core c).scratch.get 0 (a + q) = bs.getD q 0 := by
  rw [h.scratch, get_writeBytes_at _ _ _ _ hq, List.getD_eq_getElem _ _ hq]

/-- A byte outside is as it was. -/
theorem Stored.outside {s t : State} {c a : Nat} {bs : List Byte} (h : Stored s t c a bs) {k : Nat} (hk : k < a ∨ a + bs.length ≤ k) :
    (t.core c).scratch.get 0 k = (s.core c).scratch.get 0 k := by
  rw [h.scratch, get_writeBytes_other _ _ _ _ hk]

end Sys2Proof.Machine
end

section
/-! SUPPORT. A write through the Basin (R139, R140): the bytes that memory then gives. -/

namespace Sys2Proof.Machine

open Sys2Proof Sys2Proof.Said

/-! ### Values set one after another -/

theorem getD_foldl_set {α β : Type} (g : β → α) (bs : List β) (n o p : Nat) (xs : List α) (d : α) (hp : p < xs.length) :
    (((bs.zipIdx n).map fun b => (b.2, b.1)).foldl (fun (x : List α) z => x.set (o + z.1) (g z.2)) xs).getD p d =
      if o + n ≤ p then (bs[p - (o + n)]?.map g).getD (xs.getD p d) else xs.getD p d := by
  induction bs generalizing n xs with
  | nil => simp
  | cons b bs ih =>
    rw [List.zipIdx_cons, List.map_cons, List.foldl_cons, ih _ _ (by rwa [List.length_set])]
    rcases Nat.lt_trichotomy p (o + n) with hlt | rfl | hgt
    · rw [if_neg (by omega), if_neg (by omega), List.getD_eq_getElem?_getD, List.getElem?_set_ne (by omega), ← List.getD_eq_getElem?_getD]
    · rw [if_neg (by omega), if_pos (Nat.le_refl _), List.getD_eq_getElem?_getD, List.getElem?_set_self hp, Nat.sub_self]
      rfl
    · rw [if_pos (by omega), if_pos (by omega), List.getD_eq_getElem?_getD (l := xs.set _ _), List.getElem?_set_ne (by omega),
        ← List.getD_eq_getElem?_getD, show p - (o + n) = p - (o + (n + 1)) + 1 by omega, List.getElem?_cons_succ]

theorem length_foldl_set {α β : Type} (g : β → α) (o : Nat) (zs : List (Nat × β)) (xs : List α) :
    (zs.foldl (fun (x : List α) z => x.set (o + z.1) (g z.2)) xs).length = xs.length := by
  induction zs generalizing xs with
  | nil => rfl
  | cons z zs ih => rw [List.foldl_cons, ih, List.length_set]

theorem all_foldl_set_true {β : Type} (o : Nat) (zs : List (Nat × β)) {xs : List Bool} (h : xs.all id = true) :
    (zs.foldl (fun (x : List Bool) z => x.set (o + z.1) true) xs).all id = true := by
  induction zs generalizing xs with
  | nil => exact h
  | cons z zs ih =>
    refine ih ?_
    rw [List.all_eq_true] at h ⊢
    intro b hb
    rcases List.mem_or_eq_of_mem_set hb with hb | rfl
    · exact h b hb
    · rfl

/-! ### What a line shows -/

/-- Two states that read a block of memory alike. -/
structure SameBlock (s t : State) (blk : Nat) : Prop where
  far : t.farMem = s.farMem
  host : t.hostMem = s.hostMem
  dram : t.dram = s.dram
  key : t.blockKey = s.blockKey
  elision : t.elisionOf (blkPart blk) (blkFrame blk) = s.elisionOf (blkPart blk) (blkFrame blk)

/-- No byte of a block is open as a key generation reads it (R139). -/
def Sure (s : State) (blk key : Nat) : Prop :=
  blkFar blk = true ∨ (s.elisionOf (blkPart blk) (blkFrame blk)).code (blkHalf blk) ≠ 0 ∨ s.blockKey.get 0 blk = key

theorem State.loadBlock_congr {s t : State} {blk key : Nat} (h : SameBlock s t blk) (hsure : Sure s blk key) :
    (t.loadBlock blk key).1 = (s.loadBlock blk key).1 := by
  unfold State.loadBlock
  dsimp only
  rw [h.elision]
  split
  · next hfar => rw [h.host, h.far]
  next hnear =>
  split
  · rfl
  · rfl
  · rfl
  next h1 h2 h3 =>
  have hcode : (s.elisionOf (blkPart blk) (blkFrame blk)).code (blkHalf blk) = 0 := by
    refine BitVec.eq_of_toNat_eq ?_
    have hlt : ((s.elisionOf (blkPart blk) (blkFrame blk)).code (blkHalf blk)).toNat < 4 :=
      ((s.elisionOf (blkPart blk) (blkFrame blk)).code (blkHalf blk)).isLt
    interval_cases ((s.elisionOf (blkPart blk) (blkFrame blk)).code (blkHalf blk)).toNat
    · rfl
    · exact (h1 rfl).elim
    · exact (h2 rfl).elim
    · exact (h3 rfl).elim
  have hkey : s.blockKey.get 0 blk = key := by
    rcases hsure with hf | hc | hk
    · exact absurd hf hnear
    · exact absurd hcode hc
    · exact hk
  rw [h.key, if_pos hkey, if_pos hkey, h.dram]

theorem State.loadBlock_length (s : State) (blk key : Nat) : (s.loadBlock blk key).1.length = 512 := by
  unfold State.loadBlock
  dsimp only
  split
  · rw [List.length_map, List.length_range]
  split
  · exact List.length_replicate
  · rw [List.length_map, List.length_range]
  · exact List.length_replicate
  split
  · rw [List.length_map, List.length_range]
  · rw [State.freeBytes, List.length_map, List.length_range]

/-- A byte that a line of 512 bytes shows: its own, or memory's where it has none. -/
def State.shown (s : State) (blk : Nat) (x : Line) (o : Nat) : Byte :=
  if x.filled || x.fresh.getD o false then x.bytes.getD o 0 else (s.loadBlock blk x.key).1.getD o 0

theorem State.shown_fillLine (s : State) {blk : Nat} {x : Line} (hb : x.bytes.length = 512) (hf : x.fresh.length = 512) {o : Nat}
    (ho : o < 512) : (s.fillLine blk x).1.bytes.getD o 0 = s.shown blk x o := by
  unfold State.fillLine State.shown
  have hl := s.loadBlock_length blk x.key
  split
  · next h =>
    rw [if_pos]
    rcases Bool.or_eq_true_iff.mp h with h | h
    · rw [h, Bool.true_or]
    · rw [List.getD_eq_getElem _ _ (by omega), Bool.or_eq_true_iff]
      exact .inr (List.all_eq_true.mp h _ (List.getElem_mem _))
  next h =>
  obtain ⟨hfill, -⟩ := Bool.or_eq_false_iff.mp (Bool.not_eq_true _ ▸ h)
  dsimp only
  rw [hfill, Bool.false_or, List.getD_eq_getElem _ _ (by simp; omega), List.getD_eq_getElem _ _ (by omega), List.getD_eq_getElem _ _ (by omega),
    List.getD_eq_getElem _ _ (by omega), List.getElem_map, List.getElem_zip, List.getElem_zip]

theorem State.fillLine_length (s : State) {blk : Nat} {x : Line} (hb : x.bytes.length = 512) (hf : x.fresh.length = 512) :
    (s.fillLine blk x).1.bytes.length = 512 ∧ (s.fillLine blk x).1.fresh.length = 512 := by
  unfold State.fillLine
  have hl := s.loadBlock_length blk x.key
  split
  · exact ⟨hb, hf⟩
  · exact ⟨by simp; omega, hf⟩

/-- A line that has been filled shows its own bytes. -/
theorem State.fillLine_own (s : State) (blk : Nat) (x : Line) :
    (s.fillLine blk x).1.filled = true ∨ (s.fillLine blk x).1.fresh.all id = true := by
  unfold State.fillLine
  split
  · next h => exact Bool.or_eq_true_iff.mp h
  · exact .inl rfl

theorem shown_of_own {s : State} {blk : Nat} {x : Line} (hf : x.fresh.length = 512) (h : x.filled = true ∨ x.fresh.all id = true) {o : Nat}
    (ho : o < 512) : s.shown blk x o = x.bytes.getD o 0 := by
  rw [State.shown, if_pos]
  rcases h with h | h
  · rw [h, Bool.true_or]
  · rw [List.getD_eq_getElem _ _ (by omega), Bool.or_eq_true_iff]
    exact .inr (List.all_eq_true.mp h _ (List.getElem_mem _))

/-- The line of a block as an access finds it. -/
def State.lineAt (s : State) (l : Leaf) (blk : Nat) : Line :=
  (s.basin.look blk).getD { bytes := List.replicate 512 0, dirty := false, bad := false, fresh := List.replicate 512 false, elide := l.e,
                            key := s.keyGenOf l, filled := false }

/-- With room for its line, an access takes no other line away. -/
theorem State.takeLine_eq {s : State} {l : Leaf} {va : Nat} (h : Room s l va) :
    ∃ p, s.takeLine (partOf va) l (halfOf l va) = (s.lineAt l (blockOf l va), s.setPart (partOf va) p) := by
  unfold State.takeLine State.lineAt
  dsimp only
  rw [← blockOf]
  cases hl : s.basin.look (blockOf l va) with
  | some x => exact ⟨_, rfl⟩
  | none =>
    have hway : s.makeWay (blockOf l va) = s := by
      unfold State.makeWay
      dsimp only
      rw [if_pos]
      rcases h with h | h
      · rw [hl] at h
        cases h
      · rw [decide_eq_true h, Bool.true_or]
    rw [hway]
    exact ⟨_, rfl⟩

theorem lineAt_length {s : State} {l : Leaf} {blk : Nat}
    (h : ∀ x, s.basin.look blk = some x → x.bytes.length = 512 ∧ x.fresh.length = 512) :
    (s.lineAt l blk).bytes.length = 512 ∧ (s.lineAt l blk).fresh.length = 512 := by
  rw [State.lineAt]
  cases hl : s.basin.look blk with
  | some x => exact h x hl
  | none => exact ⟨List.length_replicate, List.length_replicate⟩

/-- A block's bytes are sure, or its line has its own. -/
theorem lineAt_sure {s : State} {l : Leaf} {va : Nat} (h : Whole s l va) :
    (s.lineAt l (blockOf l va)).filled = true ∨ (s.lineAt l (blockOf l va)).fresh.all id = true ∨
      Sure s (blockOf l va) (s.lineAt l (blockOf l va)).key := by
  rcases h.known with hhit | hfar | hcode | hkey
  · rw [State.lineHit] at hhit
    rw [State.lineAt]
    cases hl : s.basin.look (blockOf l va) with
    | none => rw [hl] at hhit; cases hhit
    | some x =>
      rw [hl] at hhit
      exact (Bool.or_eq_true_iff.mp hhit).imp_right .inl
  · refine .inr (.inr (.inl ?_))
    rw [blkFar, blockOf, blockNo, if_pos hfar, decide_eq_true_eq]
    exact Nat.le_add_right _ _
  · exact .inr (.inr (.inr (.inl hcode)))
  · refine .inr (.inr (.inr (.inr (hkey.trans ?_))))
    rw [State.lineAt]
    cases s.basin.look (blockOf l va) <;> rfl

theorem State.shown_congr {s t : State} {blk : Nat} {x : Line} (h : SameBlock s t blk)
    (hsure : x.filled = true ∨ x.fresh.all id = true ∨ Sure s blk x.key) (hf : x.fresh.length = 512) {o : Nat} (ho : o < 512) :
    t.shown blk x o = s.shown blk x o := by
  rcases hsure with hown | hown | hsure
  · rw [shown_of_own hf (.inl hown) ho, shown_of_own hf (.inl hown) ho]
  · rw [shown_of_own hf (.inr hown) ho, shown_of_own hf (.inr hown) ho]
  · rw [State.shown, State.shown, State.loadBlock_congr h hsure]

/-- A byte of memory, where its line has room and its bytes are sure (R139). -/
theorem memByte_eq {s : State} {l : Leaf} {a : Nat} (hn : near l) (hroom : Room s l a)
    (hsize : ∀ x, s.basin.look (blockOf l a) = some x → x.bytes.length = 512 ∧ x.fresh.length = 512)
    (hsure : (s.lineAt l (blockOf l a)).filled = true ∨ (s.lineAt l (blockOf l a)).fresh.all id = true ∨
      Sure s (blockOf l a) (s.lineAt l (blockOf l a)).key) :
    memByte s l a = s.shown (blockOf l a) (s.lineAt l (blockOf l a)) (a % 512) := by
  obtain ⟨p, htake⟩ := State.takeLine_eq hroom
  obtain ⟨hb, hf⟩ := lineAt_length (l := l) hsize
  have hpeer : (l.far && l.target == 3) = false := by
    rw [Bool.eq_false_iff]
    intro h
    exact hn ⟨(Bool.and_eq_true_iff.mp h).1, eq_of_beq (Bool.and_eq_true_iff.mp h).2⟩
  have hread : (s.readG l a 1).1 = [((s.setPart (partOf a) p).fillLine (blockOf l a) (s.lineAt l (blockOf l a))).1.bytes.getD (a % 512) 0] := by
    unfold State.readG
    dsimp only
    rw [hpeer, if_neg Bool.false_ne_true, htake]
    rfl
  rw [memByte, hread, List.headD_cons, State.shown_fillLine _ hb hf (Nat.mod_lt _ (by norm_num))]
  exact State.shown_congr (s := s) (t := s.setPart (partOf a) p) ⟨rfl, rfl, rfl, rfl, rfl⟩ hsure hf (Nat.mod_lt _ (by norm_num))

end Sys2Proof.Machine
end

section
/-! SUPPORT. A write performed at the Basin (R139, R140, R204): the block's line afterwards, and the bytes that memory then gives. -/

namespace Sys2Proof.Machine

open Sys2Proof Sys2Proof.Said

/-! ### States with the same memory behind the Basin -/

/-- Nothing that a line is filled from has changed. -/
structure SameBacking (s t : State) : Prop where
  far : t.farMem = s.farMem
  host : t.hostMem = s.hostMem
  dram : t.dram = s.dram
  key : t.blockKey = s.blockKey
  elision : t.elision = s.elision
  ctxs : t.ctxs = s.ctxs

theorem SameBacking.block {s t : State} (h : SameBacking s t) (blk : Nat) : SameBlock s t blk where
  far := h.far
  host := h.host
  dram := h.dram
  key := h.key
  elision := by rw [State.elisionOf, State.elisionOf, State.rawFrame, State.rawFrame, h.ctxs, h.elision]

theorem SameBacking.sure {s t : State} (h : SameBacking s t) {blk key : Nat} (hs : Sure s blk key) : Sure t blk key := by
  rw [Sure, (h.block blk).elision, h.key]
  exact hs

/-- A block that is read leaves every memory as it was. -/
theorem State.loadBlock_sameMemory (s : State) (blk key : Nat) : SameMemory s (s.loadBlock blk key).2.2 := by
  rw [(s.loadBlock_counts blk key).rest]
  exact ⟨rfl, rfl, rfl, rfl, rfl⟩

theorem State.fillLine_sameMemory (s : State) (blk : Nat) (x : Line) : SameMemory s (s.fillLine blk x).2 := by
  unfold State.fillLine
  split
  · exact ⟨rfl, rfl, rfl, rfl, rfl⟩
  · exact s.loadBlock_sameMemory blk x.key

/-! ### The line that a write finds (R140) -/

/-- One line shows, over one state, what another shows over another, and no byte of it is open. -/
structure Faithful (s t : State) (blk : Nat) (x y : Line) : Prop where
  bytes : y.bytes.length = 512
  fresh : y.fresh.length = 512
  sure : y.filled = true ∨ y.fresh.all id = true ∨ Sure t blk y.key
  shows : ∀ o, o < 512 → t.shown blk y o = s.shown blk x o

/-- A line whose block's code goes shows what it showed, over every state with the memory that is left behind it. -/
theorem State.unelide_faithful {s t : State} {part half : Nat} {l : Leaf} {x : Line} (hb : x.bytes.length = 512) (hf : x.fresh.length = 512)
    (hsure : x.filled = true ∨ x.fresh.all id = true ∨ Sure s (blockNo part l half) x.key)
    (ht : SameBacking (s.unelide part l half x).2 t) :
    Faithful s t (blockNo part l half) x (s.unelide part l half x).1 := by
  unfold State.unelide at ht ⊢
  dsimp only at ht ⊢
  split at ht
  · next h =>
    rw [if_pos h]
    exact ⟨hb, hf, hsure.imp_right (Or.imp_right ht.sure), fun o ho => State.shown_congr (ht.block _) hsure hf ho⟩
  · next h =>
    rw [if_neg h]
    obtain ⟨hb', hf'⟩ := s.fillLine_length (blk := blockNo part l half) hb hf
    have hown := s.fillLine_own (blockNo part l half) x
    refine ⟨hb', hf', hown.imp_right .inl, fun o ho => ?_⟩
    rw [shown_of_own hf' hown ho, s.shown_fillLine hb hf ho]

/-- The code's going leaves every memory as it was. -/
theorem State.unelide_sameMemory (s : State) (part : Nat) (l : Leaf) (half : Nat) (x : Line) :
    SameMemory s (s.unelide part l half x).2 := by
  have hcode : ∀ (u : State) m, SameMemory u { u with elision := m } := fun _ _ => ⟨rfl, rfl, rfl, rfl, rfl⟩
  unfold State.unelide
  dsimp only
  split
  · exact ⟨rfl, rfl, rfl, rfl, rfl⟩
  · exact sameMemory_trans (s.fillLine_sameMemory _ _) (hcode _ _)

theorem SameUnits.unelide (s : State) (part : Nat) (l : Leaf) (half : Nat) (x : Line) : SameUnits s (s.unelide part l half x).2 := by
  unfold State.unelide
  dsimp only
  split
  · exact SameUnits.refl s
  · exact (SameUnits.fillLine s _ _).trans ⟨rfl, rfl, rfl⟩

/-! ### The line that a write leaves (R139) -/

/-- A line with bytes written from an offset on. -/
def Line.wrote (x : Line) (o : Nat) (bs : List Byte) : Line :=
  { x with
    bytes := (bs.zipIdx.map fun b => (b.2, b.1)).foldl (fun (b : List Byte) z => b.set (o + z.1) z.2) x.bytes
    fresh := (bs.zipIdx.map fun b => (b.2, b.1)).foldl (fun (b : List Bool) z => b.set (o + z.1) true) x.fresh
    bad := x.bad && !(((bs.zipIdx.map fun b => (b.2, b.1)).foldl (fun (b : List Bool) z => b.set (o + z.1) true) x.fresh).all id)
    dirty := true }

theorem Line.wrote_length {x : Line} (hb : x.bytes.length = 512) (hf : x.fresh.length = 512) (o : Nat) (bs : List Byte) :
    (x.wrote o bs).bytes.length = 512 ∧ (x.wrote o bs).fresh.length = 512 :=
  ⟨(length_foldl_set id o _ _).trans hb, (length_foldl_set (fun _ => true) o _ _).trans hf⟩

theorem Line.wrote_sure {t : State} {blk : Nat} {x : Line} (h : x.filled = true ∨ x.fresh.all id = true ∨ Sure t blk x.key) (o : Nat)
    (bs : List Byte) : (x.wrote o bs).filled = true ∨ (x.wrote o bs).fresh.all id = true ∨ Sure t blk (x.wrote o bs).key :=
  h.imp_right (Or.imp_left (all_foldl_set_true o _))

/-- A byte written is shown, any other as before. -/
theorem Line.shown_wrote {t : State} {blk : Nat} {x : Line} (hb : x.bytes.length = 512) (hf : x.fresh.length = 512) (o : Nat) (bs : List Byte)
    {p : Nat} (hp : p < 512) : t.shown blk (x.wrote o bs) p = (if o ≤ p then bs[p - o]? else none).getD (t.shown blk x p) := by
  have hbytes : (x.wrote o bs).bytes.getD p 0 = if o ≤ p then (bs[p - o]?.map id).getD (x.bytes.getD p 0) else x.bytes.getD p 0 :=
    getD_foldl_set id bs 0 o p x.bytes 0 (by omega)
  have hfresh : (x.wrote o bs).fresh.getD p false =
      if o ≤ p then (bs[p - o]?.map fun _ => true).getD (x.fresh.getD p false) else x.fresh.getD p false :=
    getD_foldl_set (fun _ => true) bs 0 o p x.fresh false (by omega)
  rw [State.shown, State.shown, hbytes, hfresh]
  split
  · next ho =>
    cases bs[p - o]? with
    | none => rfl
    | some b => rw [Option.map_some, Option.map_some, Option.getD_some, Bool.or_true]; rfl
  · rfl

/-! ### The write -/

theorem State.writeG_eq {s : State} {l : Leaf} {va : Nat} (hn : near l) (hroom : Room s l va) (bs : List Byte) :
    ∃ p, s.writeG l va (bs.zipIdx.map fun b => (b.2, b.1)) =
      { ((s.setPart (partOf va) p).unelide (partOf va) l (halfOf l va) (s.lineAt l (blockOf l va))).2 with
        basin := ((s.setPart (partOf va) p).unelide (partOf va) l (halfOf l va) (s.lineAt l (blockOf l va))).2.basin.put (blockOf l va)
          (((s.setPart (partOf va) p).unelide (partOf va) l (halfOf l va) (s.lineAt l (blockOf l va))).1.wrote (va % 512) bs) } := by
  obtain ⟨p, htake⟩ := State.takeLine_eq hroom
  have hpeer : (l.far && l.target == 3) = false := by
    rw [Bool.eq_false_iff]
    intro h
    exact hn ⟨(Bool.and_eq_true_iff.mp h).1, eq_of_beq (Bool.and_eq_true_iff.mp h).2⟩
  refine ⟨p, ?_⟩
  unfold State.writeG
  dsimp only
  rw [hpeer, if_neg Bool.false_ne_true, htake]
  rfl

theorem SameUnits.writeG {s : State} {l : Leaf} {va : Nat} (hn : near l) (hroom : Room s l va) (bs : List Byte) :
    SameUnits s (s.writeG l va (bs.zipIdx.map fun b => (b.2, b.1))) := by
  obtain ⟨p, hp⟩ := State.writeG_eq hn hroom bs
  rw [hp]
  exact ((SameUnits.setPart s _ p).trans (SameUnits.unelide _ _ _ _ _)).trans ⟨rfl, rfl, rfl⟩

/-- The bytes of a block have one partition and one place in their frame slot (R122, R123). -/
theorem blockOf_congr {l : Leaf} {a b : Nat} (h : a / 512 = b / 512) : partOf a = partOf b ∧ halfOf l a = halfOf l b := by
  have hbits : ∀ hi lo, 9 ≤ lo → bitsOf a hi lo = bitsOf b hi lo := fun hi lo hlo => by
    rw [bitsOf, bitsOf, show 2 ^ lo = 512 * 2 ^ (lo - 9) by rw [show (512 : Nat) = 2 ^ 9 by norm_num, ← pow_add, Nat.add_sub_cancel' hlo],
      ← Nat.div_div_eq_div_mul, ← Nat.div_div_eq_div_mul, h]
  simp only [partOf, hashG, halfOf, hbits, Nat.le_refl, Nat.reduceLeDiff, and_self]

/-- A write leaves the bytes that it names, and the others of the block as they were, whoever has been woken since. -/
theorem memWrote_writeG {s t : State} {l : Leaf} {va : Nat} {bs : List Byte} (hn : near l) (hw : Whole s l va)
    (ht : t = { s.writeG l va (bs.zipIdx.map fun b => (b.2, b.1)) with cores := t.cores, ctls := t.ctls, reqs := t.reqs, parts := t.parts }) :
    MemWrote s t l va fun a => if va ≤ a then bs[a - va]? else none := by
  obtain ⟨p, hp⟩ := State.writeG_eq hn hw.room bs
  rw [hp] at ht
  obtain ⟨hb, hf⟩ := lineAt_length (l := l) hw.size
  have hsure := (lineAt_sure hw).imp_right (Or.imp_right (SameBacking.sure (t := s.setPart (partOf va) p) ⟨rfl, rfl, rfl, rfl, rfl, rfl⟩))
  have hmem := State.unelide_sameMemory (s.setPart (partOf va) p) (partOf va) l (halfOf l va) (s.lineAt l (blockOf l va))
  have hfaith : ∀ u, SameBacking ((s.setPart (partOf va) p).unelide (partOf va) l (halfOf l va) (s.lineAt l (blockOf l va))).2 u →
      Faithful (s.setPart (partOf va) p) u (blockOf l va) (s.lineAt l (blockOf l va))
        ((s.setPart (partOf va) p).unelide (partOf va) l (halfOf l va) (s.lineAt l (blockOf l va))).1 := fun u => State.unelide_faithful hb hf hsure
  generalize (s.setPart (partOf va) p).unelide (partOf va) l (halfOf l va) (s.lineAt l (blockOf l va)) = r at ht hmem hfaith
  obtain ⟨y, u⟩ := r
  dsimp only at ht hmem hfaith
  obtain ⟨hdram, hbasin, hpond, hfar, hhost⟩ := hmem
  have htb : t.basin = s.basin.put (blockOf l va) (y.wrote (va % 512) bs) := by rw [ht, hbasin]; rfl
  have hline : t.basin.look (blockOf l va) = some (y.wrote (va % 512) bs) := by rw [htb, Store.look_put_same]
  obtain ⟨hyb, hyf, hysure, hyshows⟩ := hfaith t (by rw [ht]; exact ⟨rfl, rfl, rfl, rfl, rfl, rfl⟩)
  refine ⟨fun a ha => ?_, fun k hk => ?_, ?_, ?_, ?_, ?_⟩
  · obtain ⟨hpart, hhalf⟩ := blockOf_congr (l := l) ha
    have hblk : blockOf l a = blockOf l va := by rw [blockOf, blockOf, hpart, hhalf]
    have hp512 : a % 512 < 512 := Nat.mod_lt _ (by norm_num)
    have hlt : t.lineAt l (blockOf l a) = y.wrote (va % 512) bs := by rw [State.lineAt, hblk, hline]; rfl
    rw [memByte_eq hn (by rw [Room, hblk, hline]; exact .inl rfl)
        (fun x hx => by rw [hblk, hline] at hx; rw [← Option.some.inj hx]; exact Line.wrote_length hyb hyf _ _)
        (by rw [hlt, hblk]; exact Line.wrote_sure hysure _ _),
      memByte_eq (s := s) hn (by rw [Room, hblk]; exact hw.room) (by rw [hblk]; exact hw.size) (by rw [hblk]; exact lineAt_sure hw),
      hlt, hblk, Line.shown_wrote hyb hyf _ _ hp512]
    have hplace : (if va % 512 ≤ a % 512 then bs[a % 512 - va % 512]? else none) = if va ≤ a then bs[a - va]? else none := by
      by_cases h : va ≤ a
      · rw [if_pos (by omega), if_pos h, show a % 512 - va % 512 = a - va by omega]
      · rw [if_neg (by omega), if_neg h]
    rw [hplace, hyshows _ hp512,
      State.shown_congr (s := s) (t := s.setPart (partOf va) p) ⟨rfl, rfl, rfl, rfl, rfl⟩ (lineAt_sure hw) hf hp512]
  · rw [htb, Store.look_put_other _ (blockOf l va) k _ hk]
  · rw [ht]; exact hdram
  · rw [ht]; exact hpond
  · rw [ht]; exact hfar
  · rw [ht]; exact hhost

end Sys2Proof.Machine
end

section
/-! SUPPORT. What a unit of an engine computes (R93 to R95, R281, R289, R292): rows of the matrix engine's stores, and the bytes of an
element. -/

namespace Sys2Proof.Machine

open Sys2Proof Sys2Proof.Said

/-! ### Stores and byte lists -/

/-- A run of keys set: each holds its value, any other what it held. -/
theorem Store.get_setAll_run {α : Type} [DecidableEq α] (d : α) (m : Store α) (a n : Nat) (g : Nat → α) (k : Nat) :
    (m.setAll d ((List.range n).map fun i => (a + i, g i))).get d k = if a ≤ k ∧ k < a + n then g (k - a) else m.get d k := by
  induction n with
  | zero => rw [if_neg (by omega)]; rfl
  | succ n ih =>
    have hlast : m.setAll d ((List.range (n + 1)).map fun i => (a + i, g i)) =
        (m.setAll d ((List.range n).map fun i => (a + i, g i))).set d (a + n) (g n) := by
      rw [List.range_succ, List.map_append, Store.setAll, List.foldl_append]
      rfl
    rw [hlast, Store.get_set, ih]
    by_cases hk : k = a + n
    · rw [if_pos hk, if_pos (by omega), hk, Nat.add_sub_cancel_left]
    · rw [if_neg hk]
      by_cases hin : a ≤ k ∧ k < a + n
      · rw [if_pos hin, if_pos (by omega)]
      · rw [if_neg hin, if_neg (by omega)]

/-- A rising store by its first key. -/
theorem Store.get_cons {α : Type} (d : α) {a : Nat} {v : α} {m : Store α} (h : Store.above a m) (k : Nat) :
    Store.get d ((a, v) :: m) k = if k = a then v else m.get d k := by
  rw [Store.get, Store.look]
  rcases Nat.lt_trichotomy k a with hlt | rfl | hgt
  · rw [if_pos hlt, if_neg (by omega), Store.get, Store.look_of_above h (Nat.le_of_lt hlt)]
  · rw [if_neg (Nat.lt_irrefl k), if_pos rfl, if_pos rfl]
    rfl
  · rw [if_neg (by omega), if_neg (by omega), if_neg (by omega)]
    rfl

/-- A rising store cut down to some of its keys. -/
theorem Store.get_filter_key {α : Type} (d : α) {m : Store α} (h : m.rising = true) (f : Nat → Bool) (k : Nat) :
    Store.get d (m.filter fun y => f y.1) k = if f k then m.get d k else d := by
  induction m with
  | nil => simp
  | cons x m ih =>
    obtain ⟨a, v⟩ := x
    have habove := (Store.rising_cons a v m).mp h
    have ih := ih (Store.rising_of_above habove)
    rw [Store.get_cons d habove]
    by_cases hf : f a = true
    · rw [List.filter_cons_of_pos (p := fun y : Nat × α => f y.1) hf, Store.get_cons d (Store.above_filter habove _), ih]
      by_cases hk : k = a
      · rw [if_pos hk, if_pos hk, hk, if_pos hf]
      · rw [if_neg hk, if_neg hk]
    · rw [List.filter_cons_of_neg (p := fun y : Nat × α => f y.1) hf, ih]
      by_cases hk : k = a
      · rw [hk, if_neg hf, if_neg hf]
      · rw [if_neg hk]

/-- Bytes from within those read. -/
theorem take_drop_readBytes (m : Store Byte) (a n i j : Nat) (h : i + j ≤ n) :
    ((readBytes m a n).drop i).take j = readBytes m (a + i) j := by
  apply List.ext_getElem
  · simp [readBytes]; omega
  · intro q _ _
    simp [readBytes, Nat.add_assoc]

/-- Elements of one size, one after another. -/
theorem getD_flatMap_range {α : Type} {f : Nat → List α} {w : Nat} (hf : ∀ o, (f o).length = w) {n o q : Nat} (ho : o < n) (hq : q < w)
    (d : α) : ((List.range n).flatMap f).getD (w * o + q) d = (f o).getD q d := by
  induction n with
  | zero => omega
  | succ n ih =>
    have hlen : ((List.range n).flatMap f).length = w * n := by simp [List.length_flatMap, hf, Nat.mul_comm]
    rw [List.range_succ, List.flatMap_append, List.flatMap_singleton]
    rcases Nat.lt_succ_iff_lt_or_eq.mp ho with hlt | rfl
    · have : w * o + q < w * n := calc
        w * o + q < w * (o + 1) := by rw [Nat.mul_succ]; omega
        _ ≤ w * n := Nat.mul_le_mul_left w hlt
      rw [List.getD_append _ _ _ _ (by omega), ih hlt]
    · rw [List.getD_append_right _ _ _ _ (by omega), hlen, Nat.add_sub_cancel_left]

/-- An element that is not converted keeps its bytes. -/
theorem txConvert_same {bs : List Byte} {n : Nat} (h : bs.length = n) : txConvert false false n bs = bs := by
  subst h
  unfold txConvert
  dsimp only
  rw [if_neg Bool.false_ne_true, if_neg Bool.false_ne_true]
  induction bs with
  | nil => rfl
  | cons b bs ih =>
    have hb := b.isLt
    rw [List.length_cons, bytesOfNat_succ, natOfBytes, show (b.toNat + 256 * natOfBytes bs) / 256 = natOfBytes bs by omega, ih]
    congr 1
    apply BitVec.eq_of_toNat_eq
    rw [BitVec.toNat_ofNat]
    omega

/-! ### The matrix engine -/

/-- The term of a column under the algebra of the real numbers (R94). -/
theorem algTerm_real {alg : Algebra} (hk : alg.k = 1) (htab : alg.tab.get 0 0 = 0b01000) (p : Plane) (lst : Bool) (row : Nat → Nat) (o q : Nat) :
    algTerm p alg lst row o q = if lst then mxMul (p.at q o) (row q) else mxMul (row q) (p.at q o) := by
  have hsgn : alg.sgn 0 0 = 1 := by rw [Algebra.sgn, htab]; rfl
  have hidx : alg.idx 0 0 = 0 := by rw [Algebra.idx, htab]; rfl
  have hfind : ((List.range 1).find? fun j => alg.sgn 0 j != 0 && alg.idx 0 j == 0) = some 0 := by
    rw [List.range_one, List.find?_cons_of_pos]
    rw [hsgn, hidx]
    rfl
  unfold algTerm
  simp only [hk, Nat.mod_one, Nat.div_one, Nat.one_mul, Nat.add_zero, hfind, hsgn]
  cases lst <;> rfl

/-- A streamed row of the real algebra in an accumulator row (R95). -/
theorem Mx.stream_acc {alg : Algebra} (hk : alg.k = 1) (htab : alg.tab.get 0 0 = 0b01000) {x : Mx} (hmeta : x.active.hasMeta = false)
    {row components : Nat → Nat} (hrow : ∀ q, q < 64 → components q = row q) (lst acc : Bool) (r' r : Nat) {o : Nat} (ho : o < 64) :
    (x.stream alg lst acc components r').acc.get 0 (64 * r + o) =
      if r = r' then
        (let v := mxTree ((List.range 64).map fun q =>
          if lst then mxMul (x.active.at q o) (row q) else mxMul (row q) (x.active.at q o))
        BitVec.ofNat 32 (if acc then mxAdd (x.acc.get 0 (64 * r + o)).toNat v else v))
      else x.acc.get 0 (64 * r + o) := by
  have hterms : x.active.terms alg lst components o = (List.range 64).map fun q =>
      if lst then mxMul (x.active.at q o) (row q) else mxMul (row q) (x.active.at q o) :=
    List.map_congr_left fun q hq => by
      rw [hmeta, if_neg Bool.false_ne_true, algTerm_real hk htab, hrow q (List.mem_range.mp hq)]
  rw [Mx.stream]
  dsimp only
  rw [Store.get_setAll_run 0 x.acc (64 * r') 64 fun o =>
    BitVec.ofNat 32 (if acc then mxAdd (x.acc.get 0 (64 * r' + o)).toNat (mxTree (x.active.terms alg lst components o))
      else mxTree (x.active.terms alg lst components o))]
  by_cases hr : r = r'
  · subst hr
    rw [if_pos (by omega), if_pos rfl, Nat.add_sub_cancel_left, hterms]
  · rw [if_neg (by omega), if_neg hr]

/-- A pair of rows in the shadow plane (R289). -/
theorem Mx.loadPair_shadow (x : Mx) (j : Nat) (w : Bool) (bs : List Byte) (q : Nat) :
    (x.loadPair j w bs).shadow.el.get 0 q = if 128 * j ≤ q ∧ q < 128 * j + 128 then
      BitVec.ofNat 16 (natOfBytes ((bs.drop (2 * (q - 128 * j))).take 2)) else x.shadow.el.get 0 q :=
  Store.get_setAll_run 0 x.shadow.el (128 * j) 128 (fun c => BitVec.ofNat 16 (natOfBytes ((bs.drop (2 * c)).take 2))) q

/-- An accumulator row cleared (R293). -/
theorem acc_cleared {m : Store Word} (h : m.rising = true) (r' r : Nat) {o : Nat} (ho : o < 64) :
    Store.get 0 (m.filter fun y => y.1 / 64 != r') (64 * r + o) = if r = r' then 0 else m.get 0 (64 * r + o) := by
  rw [Store.get_filter_key 0 h (fun k => k / 64 != r'), show (64 * r + o) / 64 = r by omega]
  by_cases hr : r = r'
  · rw [if_pos hr, if_neg (by simp [hr])]
  · rw [if_neg hr, if_pos (by simp [hr])]

/-- The bytes of a drained row (R292). -/
theorem Mx.drained_length (x : Mx) (r : Nat) : (x.drained .f32 r).length = 256 := by
  simp [Mx.drained, List.length_flatMap, bytesOfNat_length]

theorem Mx.drained_getD (x : Mx) (r : Nat) {o q : Nat} (ho : o < 64) (hq : q < 4) :
    (x.drained .f32 r).getD (4 * o + q) 0 = ((x.acc.get 0 (64 * r + o)) >>> (8 * q)).setWidth 8 := by
  rw [Mx.drained, getD_flatMap_range (w := 4) (fun o => by simp [bytesOfNat_length]) ho hq]
  simp only [reduceCtorEq, if_false, bytesOfNat]
  rw [List.getD_eq_getElem _ _ (by simpa using hq), List.getElem_map, List.getElem_range]
  apply BitVec.eq_of_toNat_eq
  rw [BitVec.toNat_ofNat, BitVec.toNat_setWidth, BitVec.toNat_ushiftRight, Nat.shiftRight_eq_div_pow, Nat.pow_mul]

end Sys2Proof.Machine
end

section
/-! Units of engine commands and their end (R268 to R272, R280 to R293), and the statement of O46. -/

namespace Sys2Proof.Machine

open Sys2Proof Sys2Proof.Said

/-! ### The command that an event names -/

theorem find_live {m : Cmd} {pre post : List Cmd} (hpre : ∀ x ∈ pre, x.eseq ≠ m.eseq) (hlive : m.finished = false) :
    (pre ++ m :: post).find? (fun e => e.eseq == m.eseq && !e.finished) = some m := by
  rw [List.find?_append, List.find?_eq_none.mpr, Option.none_or, List.find?_cons_of_pos]
  · rw [beq_self_eq_true, hlive]
    rfl
  · intro x hx h
    exact hpre x hx (eq_of_beq (Bool.and_eq_true_iff.mp h).1)

/-- A control core lists a command, whatever has been done of it. -/
def Listed (s : State) (cl : Nat) (m : Cmd) : Prop := ∃ z ∈ (s.ctl cl).cmds, z.lid = m.lid ∧ z.eseq = m.eseq

/-- A unit of a command is done on a core. -/
def DoneIn (s : State) (cl : Nat) (m : Cmd) (k u : Nat) : Prop := ∃ z ∈ (s.ctl cl).cmds, z.lid = m.lid ∧ z.eseq = m.eseq ∧ (k, u) ∈ z.done

theorem Listed.of_cmds {s t : State} {cl : Nat} {m : Cmd} (h : Listed s cl m) (ht : (t.ctl cl).cmds = (s.ctl cl).cmds) : Listed t cl m := by
  rw [Listed, ht]
  exact h

theorem State.mapCmd_mem {s : State} {cl lid : Nat} {eseq : Word} {z : Cmd} (hz : z ∈ (s.ctl cl).cmds) (hl : z.lid = lid) (he : z.eseq = eseq)
    (f : Cmd → Cmd) : f z ∈ ((s.mapCmd cl lid eseq f).ctl cl).cmds := by
  rw [State.mapCmd, State.ctl_setCtl_same]
  refine List.mem_map.mpr ⟨z, hz, if_pos ?_⟩
  rw [decide_eq_true hl, he, beq_self_eq_true]
  rfl

theorem Listed.mapCmd {s : State} {cl : Nat} {m : Cmd} (h : Listed s cl m) {f : Cmd → Cmd} (hl : ∀ z, (f z).lid = z.lid)
    (he : ∀ z, (f z).eseq = z.eseq) : Listed (s.mapCmd cl m.lid m.eseq f) cl m := by
  obtain ⟨z, hz, hlid, heseq⟩ := h
  exact ⟨f z, State.mapCmd_mem hz hlid heseq f, (hl z).trans hlid, (he z).trans heseq⟩

theorem Listed.unitDone {s : State} {cl : Nat} {m : Cmd} (h : Listed s cl m) (k u : Nat) : DoneIn (s.unitDone cl m k u) cl m k u := by
  obtain ⟨z, hz, hlid, heseq⟩ := h
  exact ⟨_, State.mapCmd_mem hz hlid heseq _, hlid, heseq, List.mem_append_right _ List.mem_cons_self⟩

/-! ### An arrival -/

/-- Unit `u` of a command is the next on a core, where the command's parcel is; earlier commands do not name the core. -/
structure Arrives (s : State) (cl k u pid : Nat) (m : Cmd) (pre post : List Cmd) : Prop where
  cmds : (s.ctl cl).cmds = pre ++ m :: post
  before : ∀ x ∈ pre, x.eseq ≠ m.eseq ∧ k ∉ x.cores
  live : m.finished = false
  parcel : m.parcels.find? (fun p => p.1 == k) = some (k, pid)
  next : u = (m.done.filter fun d => d.1 == k).length
  undone : (k, u) ∉ m.done
  unparked : ∀ r ∈ s.reqs, r.src ≠ .engine cl m.lid m.eseq
  core : (s.parcel pid).core = 16 * cl + k
  image : (s.parcel pid).image = none

/-- What a unit of a command does on its core. -/
def State.doUnit (s : State) (cl k pid u : Nat) (m : Cmd) : State :=
  match m.op with
  | .ld sh ty o bobj => s.loadUnit cl (s.launchOf m.lid).ctx m k pid u (o + sh.local (txSize true ty sh) u) (txSize true ty sh) bobj
  | .ldq sh _ _ o bobj => s.loadUnit cl (s.launchOf m.lid).ctx m k pid u (o + sh.local 512 u) 512 bobj
  | .st sh ty o bobj => s.storeUnit cl (s.launchOf m.lid).ctx m k pid u sh ty o bobj
  | .stPeer sh peer parcel far o bobj obj => s.peerUnit cl m k pid u sh peer parcel far o bobj obj
  | _ => s.mxUnit cl m k pid u

section Arrival

variable {s : State} {cl k u pid : Nat} {m : Cmd} {pre post : List Cmd}

theorem Arrives.listed (h : Arrives s cl k u pid m pre post) : Listed s cl m :=
  ⟨m, by rw [h.cmds]; exact List.mem_append_right _ List.mem_cons_self, rfl, rfl⟩

/-- Nothing earlier holds the unit back (R290, R294). -/
theorem Arrives.turn (h : Arrives s cl k u pid m pre post) :
    (decide (u = m.doneOn k) && mxTurn ((s.ctl cl).cmds.takeWhile fun e => !(e.lid == m.lid && e.eseq == m.eseq)) m k) = true := by
  have hpre : ∀ x ∈ pre, (!(x.lid == m.lid && x.eseq == m.eseq)) = true := fun x hx => by
    rw [beq_eq_false_iff_ne.mpr (h.before x hx).1, Bool.and_false]
    rfl
  have hbefore : (s.ctl cl).cmds.takeWhile (fun e => !(e.lid == m.lid && e.eseq == m.eseq)) = pre := by
    rw [h.cmds, List.takeWhile_append_of_pos hpre, List.takeWhile_cons_of_neg, List.append_nil]
    rw [beq_self_eq_true, beq_self_eq_true]
    exact Bool.false_ne_true
  rw [hbefore, Bool.and_eq_true_iff, decide_eq_true_eq, mxTurn, List.all_eq_true]
  refine ⟨h.next, fun x hx => ?_⟩
  have hcore : x.cores.contains k = false := by
    rw [Bool.eq_false_iff]
    exact fun hc => (h.before x hx).2 (List.contains_iff_mem.mp hc)
  rw [hcore]
  rfl

theorem Arrives.runs (h : Arrives s cl k u pid m pre post) (hu : u < m.units) :
    exec (.engineArrival cl m.eseq k u) s = .next (s.doUnit cl k pid u m) := by
  have hguards : (decide (m.units ≤ u) || m.done.contains (k, u) || s.unitParked cl m u) = false := by
    rw [decide_eq_false (Nat.not_le.mpr hu), Bool.false_or, Bool.or_eq_false_iff]
    constructor
    · rw [Bool.eq_false_iff]
      exact fun hd => h.undone (List.contains_iff_mem.mp hd)
    · rw [State.unitParked, List.any_eq_false]
      intro r hr hq
      exact h.unparked r hr (of_decide_eq_true (Bool.and_eq_true_iff.mp hq).1)
  show execEngineArrival cl m.eseq k u s = _
  unfold execEngineArrival
  dsimp only
  rw [h.cmds, find_live (fun x hx => (h.before x hx).1) h.live, ← h.cmds]
  dsimp only
  rw [h.parcel]
  dsimp only
  rw [hguards, if_neg Bool.false_ne_true]
  unfold State.doUnit
  cases hop : m.op with
  | ld | ldq | st | stPeer => rfl
  | lds | swap | strm | drn | zero => exact if_pos h.turn

/-! ### Units of the matrix engine (R288 to R293) -/

/-- The bytes of an image or a row that a unit reads in its parcel's scratchpad. -/
theorem Arrives.engineScr (h : Arrives s cl k u pid m pre post) (off n : Nat) :
    s.engineScr pid off n = readBytes (s.core (16 * cl + k)).scratch ((s.parcel pid).base + off) n := by
  unfold State.engineScr
  dsimp only
  rw [h.image, h.core]
  rfl

/-- A unit that changes the matrix engine alone. -/
theorem Arrives.mx (h : Arrives s cl k u pid m pre post) (hu : u < m.units) {x : Mx}
    (hx : s.doUnit cl k pid u m = (s.setCore (16 * cl + k) { s.core (16 * cl + k) with mx := x }).unitDone cl m k u) :
    ∃ t, exec (.engineArrival cl m.eseq k u) s = .next t ∧ DoneIn t cl m k u ∧ SameMemory s t ∧
      t.core (16 * cl + k) = { s.core (16 * cl + k) with mx := x } := by
  refine ⟨_, h.runs hu, ?_⟩
  rw [hx]
  exact ⟨Listed.unitDone (h.listed.of_cmds rfl) k u, ⟨rfl, rfl, rfl, rfl, rfl⟩, State.core_setCore_same _ _ _⟩

theorem Arrives.swap (h : Arrives s cl k u pid m pre post) (hop : m.op = .swap) (hu : u = 0) :
    ∃ t, exec (.engineArrival cl m.eseq k u) s = .next t ∧ DoneIn t cl m k u ∧ SameMemory s t ∧
      t.core (16 * cl + k) = { s.core (16 * cl + k) with
        mx := { (s.core (16 * cl + k)).mx with active := (s.core (16 * cl + k)).mx.shadow, shadow := (s.core (16 * cl + k)).mx.active } } :=
  h.mx (by rw [Cmd.units, hop, hu]; exact Nat.one_pos) (by simp only [State.doUnit, State.mxUnit, hop])

theorem Arrives.zero (h : Arrives s cl k u pid m pre post) {row0 n : Nat} (hop : m.op = .zero row0 n) (hu : u < n) :
    ∃ t, exec (.engineArrival cl m.eseq k u) s = .next t ∧ DoneIn t cl m k u ∧ SameMemory s t ∧
      t.core (16 * cl + k) = { s.core (16 * cl + k) with
        mx := { (s.core (16 * cl + k)).mx with acc := (s.core (16 * cl + k)).mx.acc.filter fun y => y.1 / 64 != row0 + u } } :=
  h.mx (by rw [Cmd.units, hop]; exact hu) (by simp only [State.doUnit, State.mxUnit, hop])

/-- The number of two bytes that a unit reads in its parcel's scratchpad. -/
theorem Arrives.pair (h : Arrives s cl k u pid m pre post) (off : Nat) {n i : Nat} (hi : i + 2 ≤ n) :
    natOfBytes (((s.engineScr pid off n).drop i).take 2) =
      little 2 fun b => (s.core (16 * cl + k)).scratch.get 0 ((s.parcel pid).base + (off + i + b)) := by
  rw [h.engineScr, take_drop_readBytes _ _ _ _ _ hi, natOfBytes_readBytes]
  simp only [Nat.add_assoc]

theorem Arrives.strm (h : Arrives s cl k u pid m pre post) {alg : Algebra} {lst acc : Bool} {row0 src p n : Nat}
    (hop : m.op = .strm alg lst acc row0 src p n) (hu : u < n) (hmeta : (s.core (16 * cl + k)).mx.active.hasMeta = false) :
    ∃ t, exec (.engineArrival cl m.eseq k u) s = .next t ∧ DoneIn t cl m k u ∧ SameMemory s t ∧
      t.core (16 * cl + k) = { s.core (16 * cl + k) with
        mx := (s.core (16 * cl + k)).mx.stream alg lst acc
          (fun q => natOfBytes (((s.engineScr pid (src + u * p) 128).drop (2 * q)).take 2)) (row0 + u) } :=
  h.mx (by rw [Cmd.units, hop]; exact hu) (by simp only [State.doUnit, State.mxUnit, hop, hmeta, Bool.false_eq_true, if_false])

theorem Arrives.lds (h : Arrives s cl k u pid m pre post) {w : Bool} {img p : Nat} (hop : m.op = .lds w img p) (hu : u < 32) :
    ∃ t, exec (.engineArrival cl m.eseq k u) s = .next t ∧ DoneIn t cl m k u ∧ SameMemory s t ∧
      t.core (16 * cl + k) = { s.core (16 * cl + k) with
        mx := (s.core (16 * cl + k)).mx.loadPair u w (s.engineScr pid (img + u * p) 256) } := by
  refine h.mx ?_ (by simp only [State.doUnit, State.mxUnit, hop, hu, if_true])
  rw [Cmd.units, hop]
  dsimp only
  split <;> omega

/-! ### Units that write scratchpad (R281, R292) -/

/-- Bytes put at a place of a parcel that is on its core, without an object to count at. -/
theorem State.enginePut_eq {t : State} {pid : Nat} (himage : (t.parcel pid).image = none) (off : Nat) (bs : List Byte) :
    t.enginePut pid off bs none = t.storeScr (t.parcel pid).core ((t.parcel pid).base + off) bs := by
  unfold State.enginePut State.engineCount
  dsimp only
  rw [himage]

theorem Arrives.drn (h : Arrives s cl k u pid m pre post) {row0 n dst p : Nat} (hop : m.op = .drn .f32 row0 n dst p none) (hu : u < n) :
    ∃ t, exec (.engineArrival cl m.eseq k u) s = .next t ∧ DoneIn t cl m k u ∧
      Stored s t (16 * cl + k) ((s.parcel pid).base + (dst + u * p)) ((s.core (16 * cl + k)).mx.drained .f32 (row0 + u)) := by
  refine ⟨_, h.runs (by rw [Cmd.units, hop]; exact hu), ?_⟩
  rw [show s.doUnit cl k pid u m = (s.storeScr (16 * cl + k) ((s.parcel pid).base + (dst + u * p))
      ((s.core (16 * cl + k)).mx.drained .f32 (row0 + u))).unitDone cl m k u by
    simp only [State.doUnit, State.mxUnit, hop, State.enginePut_eq h.image, h.core]]
  exact ⟨Listed.unitDone (h.listed.of_cmds (State.storeScr_cmds _ _ _ _ _)) k u, (State.storeScr_stored _ _ _ _).mapCmd _ _ _ _⟩

/-- No page of the unit has been refused. -/
theorem denied_none {m : Cmd} {u : Nat} (hden : ∀ d ∈ m.denied, d.1 ≠ u) (page : Nat) :
    (m.denied.find? fun d => d.1 == u && d.2.1 == page) = none := by
  rw [List.find?_eq_none]
  exact fun d hd hx => hden d hd (eq_of_beq (Bool.and_eq_true_iff.mp hx).1)

theorem Arrives.ld (h : Arrives s cl k u pid m pre post) {sh : ShapeReg} {o : Nat} {bs : List Byte} {s1 : State}
    (hop : m.op = .ld sh .b32 o none) (hu : u < sh.count) (hval : m.vals.look u = none) (hden : ∀ d ∈ m.denied, d.1 ≠ u)
    (hlen : bs.length = sh.size) (hread : s.engineRead (s.launchOf m.lid).ctx (sh.global u) sh.size m.met = (.ok bs, s1)) :
    ∃ t, exec (.engineArrival cl m.eseq k u) s = .next t ∧ DoneIn t cl m k u ∧
      Stored s1 t (16 * cl + k) ((s.parcel pid).base + (o + sh.local sh.size u)) bs := by
  have hunits := SameUnits.engineRead hread
  have hbytes : s.unitBytes (s.launchOf m.lid).ctx m u = (.ok bs, sh.global u, s1) := by
    simp only [State.unitBytes, hval, hop, State.unitRead, denied_none hden, hread]
    rw [show txConvert (Ty.b32 == .bf16) (Ty.b32 == .f32) (txSize true .b32 sh) bs = bs from txConvert_same hlen]
  refine ⟨_, h.runs (by rw [Cmd.units, hop]; exact hu), ?_⟩
  have hput : ∀ f, (s1.mapCmd cl m.lid m.eseq f).enginePut pid (o + sh.local sh.size u) bs none =
      (s1.mapCmd cl m.lid m.eseq f).storeScr (16 * cl + k) ((s.parcel pid).base + (o + sh.local sh.size u)) bs := fun f => by
    have hp : (s1.mapCmd cl m.lid m.eseq f).parcel pid = s.parcel pid := hunits.parcel pid
    rw [State.enginePut_eq (by rw [hp]; exact h.image), hp, h.core]
  simp only [State.doUnit, hop, State.loadUnit, hbytes]
  rw [show txSize true .b32 sh = sh.size from rfl, hput]
  have hlisted : Listed s1 cl m := h.listed.of_cmds (congrArg Control.cmds (hunits.ctl cl))
  refine ⟨Listed.unitDone ((hlisted.mapCmd (fun _ => ?_) fun _ => ?_).of_cmds (State.storeScr_cmds _ _ _ _ _)) k u, ?_⟩
  · rfl
  · rfl
  · obtain ⟨hscratch, hmx, hmemory⟩ := State.storeScr_stored (s1.mapCmd cl m.lid m.eseq _) (16 * cl + k)
      ((s.parcel pid).base + (o + sh.local sh.size u)) bs
    exact ⟨hscratch, hmx, hmemory⟩

/-! ### Units that write memory (R283) -/

/-- A request of a paired parcel changes its signature alone (R372). -/
theorem State.pairWrite_eq (s : State) (pid ctx va : Nat) (bs : List (Nat × Byte)) :
    ∃ ps, (s.pairWrite pid ctx va bs).2 = { s with parcels := ps } := by
  unfold State.pairWrite
  dsimp only
  split <;> exact ⟨_, rfl⟩

/-- The bytes of an element in scratchpad. -/
theorem Arrives.element (h : Arrives s cl k u pid m pre post) (off n : Nat) :
    (s.engineScr pid off n).length = n ∧
      ∀ q, q < n → (s.engineScr pid off n)[q]? = some ((s.core (16 * cl + k)).scratch.get 0 ((s.parcel pid).base + (off + q))) := by
  rw [h.engineScr]
  refine ⟨by rw [readBytes, List.length_map, List.length_range], fun q hq => ?_⟩
  rw [readBytes, List.getElem?_map, List.getElem?_range hq, Option.map_some, Nat.add_assoc]

theorem Arrives.stRead (h : Arrives s cl k u pid m pre post) {sh : ShapeReg} {o : Nat} (hop : m.op = .st sh .b32 o none)
    (hu : u < sh.count) (hval : m.vals.look u = none) :
    ∃ t, exec (.engineArrival cl m.eseq k u) s = .next t ∧ SameMemory s t ∧ SameScratch s t ∧
      ∃ z ∈ (t.ctl cl).cmds, z.lid = m.lid ∧ z.eseq = m.eseq ∧
        z.vals.look u = some (s.engineScr pid (o + sh.local sh.size u) sh.size) := by
  refine ⟨_, h.runs (by rw [Cmd.units, hop]; exact hu), ?_⟩
  have hbytes : txConvert (Ty.b32 == .bf16) (Ty.b32 == .f32) sh.size
      (s.engineScr pid (o + sh.local (txSize false .b32 sh) u) (txSize false .b32 sh)) = s.engineScr pid (o + sh.local sh.size u) sh.size :=
    txConvert_same (h.element _ _).1
  simp only [State.doUnit, hop, State.storeUnit, hval]
  rw [hbytes]
  generalize s.engineScr pid (o + sh.local sh.size u) sh.size = bs
  obtain ⟨ps, hps⟩ : ∃ ps, (if s.windowOk (s.launchOf m.lid).ctx (sh.global u) bs.length .plainW then
      (s.pairWrite pid (s.launchOf m.lid).ctx (sh.global u / 32 * 32) (bs.zipIdx.map fun b => (sh.global u % 32 + b.2, b.1))).2 else s) =
        { s with parcels := ps } := by
    split
    · exact s.pairWrite_eq _ _ _ _
    · exact ⟨s.parcels, rfl⟩
  rw [hps]
  refine ⟨⟨rfl, rfl, rfl, rfl, rfl⟩, fun _ => rfl, { m with vals := m.vals.put u bs }, ?_, rfl, rfl, Store.look_put_same _ _ _⟩
  have hm : m ∈ (State.ctl { s with parcels := ps } cl).cmds := by
    rw [show State.ctl { s with parcels := ps } cl = s.ctl cl from rfl, h.cmds]
    exact List.mem_append_right _ List.mem_cons_self
  exact State.mapCmd_mem hm rfl rfl _

/-- A write that nothing stands against is performed. -/
theorem State.engineWrite_performs {s s1 : State} {ctx va : Nat} {bs : List Byte} {who : Met} {l : Leaf}
    (hwin : s.windowOk ctx va bs.length .plainW = true) (hbell : s.bellOf ctx va = none) (htrans : s.translate ctx va who = (.ok l, s1))
    (hgrants : s1.grants ctx va l .w = true) (hlink : s1.linkDown l = false) (hpage : s1.pageWaits ctx va l = false)
    (hbeat : s1.beatHolds va bs.length = false) :
    s.engineWrite ctx va bs who = (.ok [], s1.performWrite ctx va l (bs.zipIdx.map fun b => (b.2, b.1))) := by
  unfold State.engineWrite
  simp only [hwin, hbell, htrans, hgrants, hlink, hpage, hbeat, Bool.not_true, Bool.false_eq_true, if_false, Option.isSome_none, Bool.or_self]

theorem Arrives.stWrite (h : Arrives s cl k u pid m pre post) {sh : ShapeReg} {o : Nat} {bs : List Byte} {l : Leaf} {s1 : State}
    (hop : m.op = .st sh .b32 o none) (hu : u < sh.count) (hval : m.vals.look u = some bs) (hden : ∀ d ∈ m.denied, d.1 ≠ u)
    (hwin : s.windowOk (s.launchOf m.lid).ctx (sh.global u) bs.length .plainW = true)
    (hpair : (s.launchOf (s.parcel pid).lid).grid.pair = false)
    (hwrite : s.engineWrite (s.launchOf m.lid).ctx (sh.global u) bs m.met =
      (.ok [], s1.performWrite (s.launchOf m.lid).ctx (sh.global u) l (bs.zipIdx.map fun b => (b.2, b.1))))
    (hunits : SameUnits s s1) (hn : near l) (hw : Whole s1 l (sh.global u)) :
    ∃ t, exec (.engineArrival cl m.eseq k u) s = .next t ∧ DoneIn t cl m k u ∧ SameScratch s t ∧
      MemWrote s1 t l (sh.global u) fun a => if sh.global u ≤ a then bs[a - sh.global u]? else none := by
  have hsigned : s.signed pid (s.launchOf m.lid).ctx (sh.global u) = false := by rw [State.signed, hpair, Bool.false_and]
  have hdo : s.doUnit cl k pid u m = (s1.performWrite (s.launchOf m.lid).ctx (sh.global u) l
      (bs.zipIdx.map fun b => (b.2, b.1))).unitDone cl m k u := by
    simp only [State.doUnit, hop, State.storeUnit, hval, denied_none hden, hwin, hsigned, hwrite, Bool.not_true, Bool.false_eq_true,
      if_false, Bool.false_and]
  have hwrote := SameUnits.writeG hn hw.room bs
  have hfired := Fired.sectorWritten (s1.writeG l (sh.global u) (bs.zipIdx.map fun b => (b.2, b.1))) (s.launchOf m.lid).ctx (sh.global u) l
  have hall := hunits.trans hwrote
  refine ⟨_, h.runs (by rw [Cmd.units, hop]; exact hu), ?_⟩
  rw [hdo]
  refine ⟨Listed.unitDone (h.listed.of_cmds ((hfired.cmds cl).trans (congrArg Control.cmds (hall.ctl cl)))) k u, fun n => ?_, ?_⟩
  · exact (hfired.scratch n).trans (congrArg Core.scratch (hall.core n))
  · exact memWrote_writeG hn hw (hfired.rest_ctls _)

end Arrival

/-! ### A command's end (R269, R272) -/

/-- An event for a stream asleep in `WFI` wakes it, and does nothing to another (R277). -/
theorem State.wfiEvent_cases (s : State) (cl : Nat) :
    s.wfiEvent cl = s ∨ (∃ n, (s.ctl cl).st = .asleep (.wfi n)) ∧ s.wfiEvent cl = s.wakeCtl cl := by
  unfold State.wfiEvent
  split
  · next n h => exact .inr ⟨⟨n, h⟩, rfl⟩
  · exact .inl rfl

/-- A stream that waits for no command goes on as it is. -/
theorem State.checkFence_of_other {s : State} {cl : Nat} (h : ∀ mask leave, (s.ctl cl).st ≠ .asleep (.fence mask leave)) :
    s.checkFence cl = s := by
  unfold State.checkFence
  dsimp only
  split
  · next mask leave hst => exact absurd hst (h mask leave)
  · rfl

/-- A stream that waited for every command goes on when there is none. -/
theorem State.checkFence_of_empty {s : State} {cl : Nat} (hst : (s.ctl cl).st = .asleep (.fence none false)) (hcmds : (s.ctl cl).cmds = []) :
    s.checkFence cl = s.wakeCtl cl := by
  have hfenced : s.fenced cl none = true := by rw [State.fenced, hcmds]; rfl
  have htrap : s.fenceTrap cl none = none := by rw [State.fenceTrap, hcmds]; rfl
  unfold State.checkFence
  dsimp only
  rw [hst]
  dsimp only
  rw [hfenced, htrap]
  rfl

section Finish

variable {s : State} {cl : Nat} {m : Cmd} {pre post : List Cmd}

/-- The state in which a command is gone from its control core. -/
def State.without (s : State) (cl : Nat) (cmds : List Cmd) : State := s.setCtl cl { s.ctl cl with cmds := cmds }

theorem execEngineCommandFinish_eq (hcmds : (s.ctl cl).cmds = pre ++ m :: post) (hpre : ∀ x ∈ pre, x.eseq ≠ m.eseq)
    (hpost : ∀ x ∈ post, x.eseq ≠ m.eseq) (hlive : m.finished = false) (hfail : m.failed = none)
    (hdone : ∀ k ∈ m.cores, m.units ≤ (m.done.filter fun d => d.1 == k).length) :
    exec (.engineCommandFinish cl m.eseq) s =
      .next ((if m.lid = (s.ctl cl).lid then (s.without cl (pre ++ post)).wfiEvent cl else s.without cl (pre ++ post)).checkFence cl) := by
  have hall : m.allDone = true := List.all_eq_true.mpr fun k hk => decide_eq_true (hdone k hk)
  have hother : ∀ {g : Cmd → Option Cmd} {xs : List Cmd}, (∀ x ∈ xs, x.eseq ≠ m.eseq) →
      xs.filterMap (fun e => if (decide (e.lid = m.lid) && e.eseq == m.eseq) = true then g e else some e) = xs := fun {g xs} hx => by
    rw [List.filterMap_congr (g := some) fun x hmem => by rw [beq_eq_false_iff_ne.mpr (hx x hmem), Bool.and_false, if_neg Bool.false_ne_true],
      List.filterMap_some]
  show execEngineCommandFinish cl m.eseq s = _
  unfold execEngineCommandFinish
  dsimp only
  rw [hcmds, find_live hpre hlive]
  dsimp only
  rw [hall, hfail, List.filterMap_append, List.filterMap_cons, hother hpre, hother hpost]
  simp only [Option.map_none, Option.isSome_none, Bool.false_and, Bool.false_eq_true, if_false, decide_true, beq_self_eq_true, Bool.and_self,
    if_true, Bool.not_true]
  rfl

theorem State.ctl_without (s : State) (cl : Nat) (cmds : List Cmd) : (s.without cl cmds).ctl cl = { s.ctl cl with cmds := cmds } :=
  State.ctl_setCtl_same _ _ _

theorem State.ctl_wakeCtl (s : State) (cl : Nat) : (s.wakeCtl cl).ctl cl = (s.ctl cl).woken := State.ctl_setCtl_same _ _ _

/-- The end of a command of a stream that waits for none. -/
theorem finish_unwaited {cmds : List Cmd} (hst : ∀ mask leave, (s.ctl cl).st ≠ .asleep (.fence mask leave)) (b : Prop) [Decidable b] :
    ∃ t, (if b then (s.without cl cmds).wfiEvent cl else s.without cl cmds).checkFence cl = t ∧ (t.ctl cl).cmds = cmds ∧
      (t.ctl cl).c = (s.ctl cl).c ∧ SameMemory s t := by
  have hwithout : (s.without cl cmds).checkFence cl = s.without cl cmds :=
    State.checkFence_of_other fun mask leave => by rw [State.ctl_without]; exact hst mask leave
  have hwoken : ((s.without cl cmds).wakeCtl cl).checkFence cl = (s.without cl cmds).wakeCtl cl :=
    State.checkFence_of_other fun mask leave => by rw [State.ctl_wakeCtl]; exact Control.woken_awake _ _
  have hcases : (if b then (s.without cl cmds).wfiEvent cl else s.without cl cmds) = s.without cl cmds ∨
      (if b then (s.without cl cmds).wfiEvent cl else s.without cl cmds) = (s.without cl cmds).wakeCtl cl := by
    split
    · exact ((s.without cl cmds).wfiEvent_cases cl).imp_right And.right
    · exact .inl rfl
  refine ⟨_, rfl, ?_⟩
  rcases hcases with h | h
  · rw [h, hwithout, State.ctl_without]
    exact ⟨rfl, rfl, rfl, rfl, rfl, rfl, rfl⟩
  · rw [h, hwoken, State.ctl_wakeCtl, State.ctl_without]
    exact ⟨rfl, rfl, rfl, rfl, rfl, rfl, rfl⟩

/-- The end of the last command of a stream that waits for all of them. -/
theorem finish_awaited (hst : (s.ctl cl).st = .asleep (.fence none false)) (b : Prop) [Decidable b] :
    ∃ t, (if b then (s.without cl []).wfiEvent cl else s.without cl []).checkFence cl = t ∧ (t.ctl cl).cmds = [] ∧
      (t.ctl cl).pc = (s.ctl cl).npc ∧ (t.ctl cl).c = (s.ctl cl).c ∧ ∀ z, (t.ctl cl).st ≠ .asleep z := by
  have hst' : ((s.without cl []).ctl cl).st = .asleep (.fence none false) := by rw [State.ctl_without]; exact hst
  have hwfi : (if b then (s.without cl []).wfiEvent cl else s.without cl []) = s.without cl [] := by
    split
    · rcases (s.without cl []).wfiEvent_cases cl with h | ⟨⟨n, hn⟩, -⟩
      · exact h
      · rw [hst'] at hn
        cases hn
    · rfl
  have hwake : (s.without cl []).checkFence cl = (s.without cl []).wakeCtl cl :=
    State.checkFence_of_empty hst' (by rw [State.ctl_without])
  refine ⟨_, rfl, ?_⟩
  rw [hwfi, hwake, State.ctl_wakeCtl, State.ctl_without]
  exact ⟨rfl, rfl, rfl, Control.woken_awake _⟩

end Finish

/-- Settles O46: each unit is one change of its core's matrix engine, scratchpad or of memory, put in the place that the command names, and a
command whose units are all done leaves the control core's list. -/
theorem engineUnitsAndFinish : Obligations.EngineUnitsAndFinish := by
  refine ⟨fun s cl k u pid m pre post hcmds hbefore hlive hparcel hnext hundone hunparked hcore himage => ?_,
    fun s cl m pre post hcmds hpre hpost hlive hfail hdone => ⟨fun hst => ?_, fun hst hnil hnil' => ?_⟩⟩
  · have h : Arrives s cl k u pid m pre post := ⟨hcmds, hbefore, hlive, hparcel, hnext, hundone, hunparked, hcore, himage⟩
    refine ⟨fun hop hu => ?_, fun row0 n hop hu => ?_, fun alg lst acc row0 src p n hop hu hk htab hmeta => ?_, fun w img p hop hu => ?_,
      fun row0 n dst p hop hu => ?_, fun sh o bs s1 hop hu hval hden hlen hread => ?_, fun sh o hop hu hval => ?_,
      fun sh o bs l s1 hop hu hval hden hwin hpair hbell htrans hgrants hlink hpage hbeat hn hw _ => ?_⟩
    · obtain ⟨t, hexec, hin, hmem, ht⟩ := h.swap hop hu
      exact ⟨t, hexec, hin, ht, hmem⟩
    · obtain ⟨t, hexec, hin, hmem, ht⟩ := h.zero hop hu
      refine ⟨t, hexec, hin, hmem, ?_⟩
      rw [ht]
      exact ⟨rfl, rfl, fun r o ho hrising => acc_cleared hrising (row0 + u) r ho⟩
    · obtain ⟨t, hexec, hin, hmem, ht⟩ := h.strm hop hu hmeta
      refine ⟨t, hexec, hin, hmem, ?_⟩
      rw [ht]
      exact ⟨rfl, rfl, fun r o ho => Mx.stream_acc hk htab hmeta (fun q hq => h.pair _ (by omega)) lst acc (row0 + u) r ho⟩
    · obtain ⟨t, hexec, hin, hmem, ht⟩ := h.lds hop hu
      refine ⟨t, hexec, hin, hmem, ?_⟩
      rw [ht]
      refine ⟨rfl, rfl, fun q => (Mx.loadPair_shadow _ u w _ q).trans ?_⟩
      split
      · next hq => rw [h.pair _ (by omega)]
      · rfl
    · obtain ⟨t, hexec, hin, hstored⟩ := h.drn hop hu
      refine ⟨t, hexec, hin, hstored.memory, hstored.mx _, fun o q ho hq => ?_, fun a ha => hstored.outside ?_⟩
      · rw [← Mx.drained_getD _ _ ho hq, ← hstored.at (by rw [Mx.drained_length]; omega)]
        simp only [Nat.add_assoc]
      · rw [Mx.drained_length, ← Nat.add_assoc]
        exact ha
    · obtain ⟨t, hexec, hin, hstored⟩ := h.ld hop hu hval hden hlen hread
      refine ⟨t, hexec, hin, fun q hq => ?_, fun a ha => hstored.outside ?_⟩
      · rw [← hstored.at (hlen ▸ hq)]
        simp only [Nat.add_assoc]
        rfl
      · rw [hlen, ← Nat.add_assoc]
        exact ha
    · obtain ⟨t, hexec, hmem, hscr, z, hz, hlid, heseq, hvals⟩ := h.stRead hop hu hval
      exact ⟨t, hexec, hmem, hscr, z, hz, hlid, heseq, _, hvals, h.element _ _⟩
    · exact h.stWrite hop hu hval hden hwin hpair (State.engineWrite_performs hwin hbell htrans hgrants hlink hpage hbeat)
        (SameUnits.translate htrans) hn hw
  · rw [execEngineCommandFinish_eq hcmds hpre hpost hlive hfail hdone]
    obtain ⟨t, ht, hrest⟩ := finish_unwaited (cmds := pre ++ post) hst (m.lid = (s.ctl cl).lid)
    exact ⟨t, congrArg Host.Outcome.next ht, hrest⟩
  · rw [execEngineCommandFinish_eq hcmds hpre hpost hlive hfail hdone, hnil, hnil']
    obtain ⟨t, ht, hrest⟩ := finish_awaited hst (m.lid = (s.ctl cl).lid)
    exact ⟨t, congrArg Host.Outcome.next ht, hrest⟩

end Sys2Proof.Machine
end

section
/-! Page tables that cannot be read while their stack retrains (R410): the destruction of a context, which frees the frames that the tables
name, then waits, and its request is not answered. -/

namespace Sys2Proof.Machine

open Sys2Proof Sys2Proof.Said

/-- The mailbox page of contexts with a request to destroy context 1. -/
def destroyReq : Mbox := { reqseq := 1, req := writeBytes [] 0 (bytesOfNat 8 (0x11 + 2 ^ 16 * 2) ++ bytesOfNat 2 1) }

/-- A stopped context 1 without work, whose page-table pool lies in a partition that retrains. -/
def retrainedTables : State :=
  { State.reset with
    ctxs := [(1, { desc := { ctxid := 1, pooln := 1 }, stopped := true })]
    parts := [(partOf 0, { training := true })]
    wh := { callver := some 0, mbox := [(3, destroyReq)] } }

/-- The request as its function reads it. -/
def destroyMsg : Msg := { page := 3, op := 0x11, len := 2, ver := 0, res := 0, body := [1, 0] }

theorem retrainedTables_asked : Asked retrainedTables destroyMsg 0x11 3 2 where
  on := by decide +kernel
  code := rfl
  home := rfl
  len := rfl
  res := rfl
  ver := .inr rfl
  runs := rfl
  booted := rfl
  alive := by decide
  normal := rfl

/-- RSPSEQ of mailbox page 3 after an outcome. -/
def responseAfter : Out → Option Dword
  | .next t => some (t.mbox 3).rspseq
  | _ => none

theorem retrainedTables_unanswered : responseAfter (exec .ctxDestroy retrainedTables) = some 0 := by decide +kernel

/-- Refutes O53: nothing asks that the page tables of a context to be destroyed can be read. In `retrainedTables` they cannot, and the
request of `CTX_DESTROY` waits. -/
theorem not_mailboxManagesContexts : ¬ Obligations.MailboxManagesContexts := by
  unfold Obligations.MailboxManagesContexts
  rintro ⟨-, -, -, hstop, -⟩
  obtain ⟨-, -, hdestroy⟩ := hstop retrainedTables destroyMsg 0x11 .ctxDestroy (.inr ⟨rfl, rfl, retrainedTables_asked⟩) (by decide +kernel)
  obtain ⟨t, ht, hanswered, -⟩ := hdestroy (by decide +kernel) (by decide +kernel) rfl
  have hresponse := retrainedTables_unanswered
  rw [ht, responseAfter, show (t.mbox 3).rspseq = 1 from hanswered.seq] at hresponse
  cases hresponse

end Sys2Proof.Machine
end

section
/-! Two entries of a slot listed at one number (as in the refutation of O42): the first, of another team, sleeps in an `ACWAIT`, and the
second lends it a place among the sub-teams of the team whose copy completes. -/

namespace Sys2Proof.Machine

open Sys2Proof Sys2Proof.Said

/-- A complete copy of a tag, whose completion has been counted or not. -/
def completeCopy (id tag : Nat) (counted : Bool) : Copy :=
  { id := id, tag := tag, out := false, space := .g, size := 4, pc := 0, blks := [], counted := counted }

/-- Team 0 with a copy of tag 0 that is complete and one of tag 1 that has been counted. -/
def copyingTeam : Team := { copies := [completeCopy 1 0 false, completeCopy 2 1 true] }

/-- Entry 5 of team 0 waits for its copy of tag 0; entry 3 is listed twice, first as a sub-team of team 7 that waits for tag 1. -/
def lentState : State :=
  { State.reset with
    cores := [(0, { slots := [(0, {
      entries := [(3, { team := 7, st := .asleep (.copies 1 0) }), (3, {}), (5, { st := .asleep (.copies 0 0) })]
      teams := [(0, copyingTeam)] })] })] }

/-- The copies of team 0 of slot 0 of core 0 after an outcome. -/
def copiesAfter : Out → Option (List Copy)
  | .next t => some (t.team 0 0 0).copies
  | _ => none

/-- The sleeper of the other team takes the copy of tag 1 with it. -/
theorem lentState_loses_copy : copiesAfter (exec (.acpComplete 0 0 0 0) lentState) = some [] := by decide +kernel

/-- Refutes O44: where the entries of a slot are not listed at distinct numbers, an `ACWAIT` of another team may retire copies of a tag that
has not completed. -/
theorem not_releasesAndCopiesComplete : ¬ Obligations.ReleasesAndCopiesComplete := by
  unfold Obligations.ReleasesAndCopiesComplete
  rintro ⟨-, -, -, hwake⟩
  have hsole : ∀ z ∈ (lentState.slot 0 0).entries, z.2.team = 0 → z.1 ≠ 5 → ∀ g m, z.2.st ≠ .asleep (.copies g m) := by
    show ∀ z ∈ [(3, ({ team := 7, st := .asleep (.copies 1 0) } : Entry)), (3, {}), (5, { st := .asleep (.copies 0 0) })], _
    simp
  obtain ⟨t, ht, -, -, -, -, -, hothers⟩ := hwake lentState 0 0 5 0 0 0 { st := .asleep (.copies 0 0) } copyingTeam (completeCopy 1 0 false) []
    [completeCopy 2 1 true] rfl rfl (by decide) rfl rfl (by decide) (by decide) rfl rfl rfl hsole rfl (by decide) (by decide)
  have hcopies := lentState_loses_copy
  rw [ht, copiesAfter, Option.some.injEq] at hcopies
  rw [hcopies] at hothers
  cases hothers

end Sys2Proof.Machine
end

section
/-! A far load that times out (R136) by a team of the state `twiceState`, in which entry 0 is listed twice: the end of the load fuses the
entry that a search finds there, and its spilled join entry is read back through the Basin. -/

namespace Sys2Proof.Machine

open Sys2Proof Sys2Proof.Said

/-- A leaf of expander memory that grants reads. -/
def farLeaf : Leaf := BitVec.ofNat 64 (1 + 2 + 32)

/-- A load by team 0 of slot 0 from page 2, which is far. -/
def farLoad : Req := { emptyStore with kind := .load { reg := 4, ty := .b32, n := 1, lanes := [] } false, tgt := .part (partOf 0x20000), va := 0x20000 }

/-- `twiceState` with a FAR window at page 2, its translation at hand and the load under way. -/
def farTwiceState : State :=
  { twiceState with
    parts := [(partOf 0, { tlb := [(tlbKey 0 0, poolLeaf 5)] }), (partOf 0x20000, { tlb := [(tlbKey 0 0x20000, farLeaf)] })]
    ctxs := [(0, { wins := [(0, { base := 2, size := 1, r := true, cls := 2, v := true })] })]
    reqs := [farLoad] }

theorem farTwiceState_noJoin : NoJoin farTwiceState 0 0 0 := by
  show ∀ y ∈ [(0, joinedEntry), (0, ({ team := 0 } : Entry))], y.2.team = 0 → y.2.st ≠ .atJoin
  decide +kernel

theorem farTwiceState_fills_basin : (basinAfter (exec (.farTimeout 1) farTwiceState)).map List.length = some 1 := by
  decide +kernel

/-- Refutes O45: where the entries of a slot are not listed at distinct numbers, a far load that times out may fuse a join all the same,
and memory's caches change with it. -/
theorem not_walksParksAndTimeoutsResolve : ¬ Obligations.WalksParksAndTimeoutsResolve := by
  unfold Obligations.WalksParksAndTimeoutsResolve
  rintro ⟨-, -, htimeout⟩
  obtain ⟨hload, -⟩ := htimeout farTwiceState farLoad farLeaf (partOf 0x20000) 0 0 0 rfl rfl (by decide +kernel) (by decide +kernel)
    (by decide +kernel) (by decide +kernel) (by decide +kernel) (by decide +kernel) (by decide +kernel) rfl farTwiceState_noJoin
  obtain ⟨t, ht, -, ⟨-, hbasin, -⟩, -⟩ := hload _ false rfl rfl
  have hfilled := farTwiceState_fills_basin
  rw [show exec (.farTimeout 1) farTwiceState = .next t from ht, basinAfter, hbasin] at hfilled
  cases hfilled

end Sys2Proof.Machine
end

section
/-! SUPPORT. Ports and the error log beside other work: reads of memory and of page tables change no port but for its counts of messages
(R414), and an entry of the log comes last in it (R407). -/

namespace Sys2Proof.Machine

/-! ### The error log (R407) -/

theorem State.logEvent_ports (s : State) (r : LogRec) : (s.logEvent r).ports = s.ports := by
  obtain ⟨w, m, h⟩ := s.logEvent_eq r
  rw [h]

/-- What the log holds after an entry. -/
theorem State.logEvent_log (s : State) (r : LogRec) :
    ∃ q w, (s.logEvent r).wh.log = (s.wh.log ++ [{ r with seq := q, wcyc := w }]).drop (s.wh.log.length - 4095) := by
  unfold State.logEvent
  dsimp only
  exact ⟨_, _, rfl⟩

/-- The newest entry of the log is the one just logged. -/
theorem State.logEvent_last (s : State) (r : LogRec) :
    ∃ q w, (s.logEvent r).wh.log.getLast? = some { r with seq := q, wcyc := w } := by
  obtain ⟨q, w, h⟩ := s.logEvent_log r
  refine ⟨q, w, ?_⟩
  rw [h, List.drop_append_of_le_length (Nat.sub_le _ _), List.getLast?_append_of_ne_nil _ (List.cons_ne_nil _ _), List.getLast?_singleton]

theorem State.retire_ports (s : State) (frame : Nat) : (s.retire frame).ports = s.ports := by
  unfold State.retire
  split <;> rfl

theorem State.logUce_ports (s : State) (part frame half : Nat) : (s.logUce part frame half).ports = s.ports := State.retire_ports _ _

/-! ### Ports that have only counted messages -/

/-- The ports have changed in nothing but their counts of messages (R414). -/
structure OnlyCounted (s t : State) : Prop where
  port : ∀ n, t.port n = { s.port n with sent := (t.port n).sent, recvd := (t.port n).recvd }

namespace OnlyCounted

theorem of_ports {s t : State} (h : t.ports = s.ports) : OnlyCounted s t where
  port n := by rw [State.port, State.port, h]

theorem refl (s : State) : OnlyCounted s s := of_ports rfl

theorem trans {s u t : State} (h : OnlyCounted s u) (k : OnlyCounted u t) : OnlyCounted s t where
  port n := by rw [k.port n, h.port n]

theorem countPort (s : State) (port sent recvd : Nat) : OnlyCounted s (s.countPort port sent recvd) where
  port n := by
    rw [State.countPort, State.port_setPort]
    split
    · next h => rw [h]
    · rfl

theorem after {s u : State} (h : OnlyCounted s u) (port sent recvd : Nat) : OnlyCounted s (u.countPort port sent recvd) :=
  h.trans (countPort u port sent recvd)

/-- A fold that carries a result beside the state counts alone where each of its steps does. -/
theorem foldl {α β : Type} {f : β × State → α → β × State} (hf : ∀ b u x, OnlyCounted u (f (b, u) x).2) (l : List α) (b : β) (s : State) :
    OnlyCounted s (l.foldl f (b, s)).2 := by
  induction l generalizing b s with
  | nil => exact refl s
  | cons x xs ih => exact (hf b s x).trans (ih _ _)

/-! ### Reads through the Basin -/

theorem loadBlock (s : State) (blk key : Nat) : OnlyCounted s (s.loadBlock blk key).2.2 := by
  unfold State.loadBlock
  dsimp only
  split
  · exact countPort _ _ _ _
  split
  · exact of_ports rfl
  · exact of_ports rfl
  · exact of_ports rfl
  have herrors : (if s.badBlk.get false blk || decide (24 < Config.bitErrors blk s.fresh) then
      State.logUce { s with fresh := s.fresh + 1 } (blkPart blk) (blkFrame blk) (blkHalf blk)
    else if Config.bitErrors blk s.fresh = 0 then { s with fresh := s.fresh + 1 }
    else State.setPart { s with fresh := s.fresh + 1 } (blkPart blk)
      { State.part { s with fresh := s.fresh + 1 } (blkPart blk) with
        ce := (State.part { s with fresh := s.fresh + 1 } (blkPart blk)).ce + 1 }).ports = s.ports := by
    split
    · exact State.logUce_ports _ _ _ _
    split <;> rfl
  split <;> exact of_ports herrors

theorem fillLine (s : State) (blk : Nat) (x : Line) : OnlyCounted s (s.fillLine blk x).2 := by
  unfold State.fillLine
  split
  · exact refl s
  · exact loadBlock s blk x.key

theorem evict (s : State) (blk : Nat) : OnlyCounted s (s.evict blk) := by
  unfold State.evict
  cases s.basin.look blk with
  | none => exact refl s
  | some x =>
    dsimp only
    split
    · exact of_ports rfl
    have hfill : OnlyCounted s (if x.fresh.all id then (x, s) else s.fillLine blk x).2 := by
      split
      · exact refl s
      · exact fillLine s blk x
    generalize (if x.fresh.all id then (x, s) else s.fillLine blk x) = y at hfill ⊢
    refine hfill.trans ?_
    split
    · refine after ?_ _ _ _
      split <;> exact of_ports rfl
    · split
      · exact of_ports rfl
      split <;> exact of_ports rfl

theorem makeWay (s : State) (blk : Nat) : OnlyCounted s (s.makeWay blk) := by
  unfold State.makeWay
  dsimp only
  split
  · exact refl s
  · exact OnlyCounted.trans (u := s.free64.2) (of_ports rfl) (evict _ _)

theorem takeLine (s : State) (part : Nat) (l : Leaf) (half : Nat) : OnlyCounted s (s.takeLine part l half).2 := by
  unfold State.takeLine
  dsimp only
  split
  · exact of_ports rfl
  · exact (makeWay s _).trans (of_ports rfl)

theorem readG (s : State) (l : Leaf) (va n : Nat) : OnlyCounted s (s.readG l va n).2.2 := by
  unfold State.readG
  dsimp only
  split
  · have hbytes : OnlyCounted s (s.freeBytes n).2 := of_ports rfl
    exact hbytes.after _ _ _
  · exact ((takeLine s _ _ _).trans (fillLine _ _ _)).trans (of_ports rfl)

/-! ### Page tables that firmware reads -/

theorem fatal (s : State) (unit index : Nat) : OnlyCounted s (s.fatal unit index) :=
  (of_ports (s.logEvent_ports _)).trans ((countPort _ _ _ _).trans (of_ports rfl))

theorem readEntries (s : State) (d : CtxDesc) (o n : Nat) : OnlyCounted s (s.readEntries d o n).2 := by
  unfold State.readEntries
  dsimp only
  split
  · exact refl s
  split
  · exact (readG s _ _ _).trans (fatal _ _ _)
  · exact readG s _ _ _

theorem readTable (s : State) (ctx table : Nat) : OnlyCounted s (s.readTable ctx table).2 := by
  unfold State.readTable
  refine foldl (fun b u i => ?_) _ _ _
  cases b with
  | none => exact refl u
  | some es =>
    have h := readEntries u (s.ctxOf ctx).desc (table * 4096 + 512 * i) 64
    dsimp only
    generalize u.readEntries (s.ctxOf ctx).desc (table * 4096 + 512 * i) 64 = y at h ⊢
    obtain ⟨r, v⟩ := y
    cases r <;> exact h

end OnlyCounted

/-- The leaves under a last-level table: each valid entry is one. (Lean's own unfolding of `leavesUnder` does not come to an end.) -/
theorem State.leavesUnder_zero (s : State) (ctx va table : Nat) : s.leavesUnder ctx 0 va table =
    match s.readTable ctx table with
    | (none, s1) => (none, s1)
    | (some es, s1) => es.zipIdx.foldl (fun (a : Option (List (Nat × Nat × Leaf)) × State) w =>
        match a.1 with
        | none => a
        | some ls => if !Leaf.v w.1 then a else (some (ls ++ [(va + w.2 * 2 ^ (16 + 9 * 0), 0, w.1)]), a.2)) (some [], s1) := by
  delta State.leavesUnder
  rfl

/-- The leaves under a table of a higher level: those among its entries, and those under the tables that the other entries name. -/
theorem State.leavesUnder_succ (s : State) (ctx n va table : Nat) : s.leavesUnder ctx (n + 1) va table =
    match s.readTable ctx table with
    | (none, s1) => (none, s1)
    | (some es, s1) => es.zipIdx.foldl (fun (a : Option (List (Nat × Nat × Leaf)) × State) w =>
        match a.1 with
        | none => a
        | some ls =>
          if !Leaf.v w.1 then a
          else if Leaf.l w.1 then (some (ls ++ [(va + w.2 * 2 ^ (16 + 9 * (n + 1)), n + 1, w.1)]), a.2)
          else match a.2.leavesUnder ctx n (va + w.2 * 2 ^ (16 + 9 * (n + 1))) (Leaf.frame w.1) with
            | (some more, t) => (some (ls ++ more), t)
            | (none, t) => (none, t)) (some [], s1) := by
  delta State.leavesUnder
  rfl

theorem OnlyCounted.leavesUnder (ctx level : Nat) : ∀ (s : State) (va table : Nat), OnlyCounted s (s.leavesUnder ctx level va table).2 := by
  induction level with
  | zero =>
    intro s va table
    have h := OnlyCounted.readTable s ctx table
    rw [State.leavesUnder_zero]
    generalize s.readTable ctx table = y at h ⊢
    obtain ⟨r, v⟩ := y
    cases r with
    | none => exact h
    | some es =>
      refine h.trans (OnlyCounted.foldl (fun b u w => ?_) _ _ _)
      cases b with
      | none => exact OnlyCounted.refl u
      | some ls =>
        dsimp only
        split <;> exact OnlyCounted.refl u
  | succ level ih =>
    intro s va table
    have h := OnlyCounted.readTable s ctx table
    rw [State.leavesUnder_succ]
    generalize s.readTable ctx table = y at h ⊢
    obtain ⟨r, v⟩ := y
    cases r with
    | none => exact h
    | some es =>
      refine h.trans (OnlyCounted.foldl (fun b u w => ?_) _ _ _)
      cases b with
      | none => exact OnlyCounted.refl u
      | some ls =>
        dsimp only
        split
        · exact OnlyCounted.refl u
        split
        · exact OnlyCounted.refl u
        have hdown := ih u (va + w.2 * 2 ^ (16 + 9 * (level + 1))) (Leaf.frame w.1)
        generalize u.leavesUnder ctx level (va + w.2 * 2 ^ (16 + 9 * (level + 1))) (Leaf.frame w.1) = y at hdown ⊢
        obtain ⟨r, v⟩ := y
        cases r <;> exact hdown

namespace OnlyCounted

theorem tellLinkDown (s : State) (port : Nat) : OnlyCounted s (s.tellLinkDown port) := by
  unfold State.tellLinkDown
  generalize s.ctxs = cs
  induction cs generalizing s with
  | nil => exact refl s
  | cons c cs ih =>
    refine OnlyCounted.trans ?_ (ih _)
    dsimp only
    split
    · exact refl s
    have hleaves := leavesUnder c.1 3 s 0 c.2.desc.root
    generalize s.leavesUnder c.1 3 0 c.2.desc.root = y at hleaves ⊢
    obtain ⟨r, v⟩ := y
    cases r with
    | none =>
      dsimp only
      split
      · exact hleaves
      · exact hleaves.trans (of_ports rfl)
    | some ls =>
      dsimp only
      split
      · exact hleaves.trans (of_ports rfl)
      · exact hleaves

end OnlyCounted

end Sys2Proof.Machine
end

section
/-! Links retrain, and the module scrubs, throttles, stops and resets (O52). -/

namespace Sys2Proof.Machine

open Sys2Proof Sys2Proof.Said

/-! ### The log and the clock (R407, R411) -/

/-- A merged entry changes nothing but the log, the count of its entries and of the fault function's cycles, the interrupts and the open
values. -/
theorem State.logMerged_eq (s : State) (r : LogRec) :
    ∃ l q w m f, s.logMerged r = { s with wh := { s.wh with log := l, logSeq := q, cycle := w }, msix := m, fresh := f } := by
  unfold State.logMerged State.logEvent State.free64
  dsimp only
  split
  · exact ⟨_, _, _, _, _, rfl⟩
  · exact ⟨_, _, _, _, _, rfl⟩

theorem State.logEvent_wh (s : State) (r : LogRec) :
    ∃ l q w, (s.logEvent r).wh = { s.wh with log := l, logSeq := q, cycle := w } := by
  unfold State.logEvent State.free64
  exact ⟨_, _, _, rfl⟩

theorem State.logEvent_parts (s : State) (r : LogRec) : (s.logEvent r).parts = s.parts := by
  obtain ⟨w, m, h⟩ := s.logEvent_eq r
  rw [h]

theorem State.retire_parts (s : State) (frame : Nat) : (s.retire frame).parts = s.parts := by
  unfold State.retire
  split <;> rfl

theorem State.logUce_parts (s : State) (part frame half : Nat) :
    (s.logUce part frame half).parts = (s.setPart part { s.part part with uce := (s.part part).uce + 1 }).parts := by
  exact (State.retire_parts _ _).trans (State.logEvent_parts _ _)

theorem State.setClock_eq (s : State) (mhz : Nat) :
    ∃ l q w m f, s.setClock mhz = { s with wh := { s.wh with clock := mhz, log := l, logSeq := q, cycle := w }, msix := m, fresh := f } := by
  unfold State.setClock
  split
  · next h => exact ⟨s.wh.log, s.wh.logSeq, s.wh.cycle, s.msix, s.fresh, by rw [← h]⟩
  · obtain ⟨l, q, w, m, f, h⟩ := State.logMerged_eq { s with wh := { s.wh with clock := mhz } } { cls := 8, unit := 5, count := 1, span := s.second }
    exact ⟨l, q, w, m, f, h⟩

/-- After FATAL nothing is under way, and every context is stopped (R408). -/
theorem State.fatalStop_stops (s : State) :
    s.fatalStop.wh = { s.wh with stopped := true, dumps := s.wh.dumps + 1 } ∧ s.fatalStop.reqs = [] ∧ s.fatalStop.parcels = [] ∧
      ∀ z ∈ s.fatalStop.ctxs, z.2.stopped = true := by
  refine ⟨rfl, rfl, rfl, fun z hz => ?_⟩
  obtain ⟨c, -, rfl⟩ := List.mem_map.mp hz
  rfl

theorem State.mem_retire (s : State) (frame : Nat) : frame ∈ (s.retire frame).wh.retired := by
  unfold State.retire
  split
  · next h => exact List.contains_iff_mem.mp h
  · exact List.mem_append_right _ (List.mem_singleton_self _)

/-! ### Links (R387, R410, R415) -/

theorem State.trainPort_spec {s : State} {n : Nat} (h : (s.port n).training = false) :
    (s.trainPort n).port n = { s.port n with training := true, tries := 0, trains := (s.port n).trains + 1 } ∧
      ∃ r, (s.trainPort n).wh.log.getLast? = some r ∧ r.cls = 5 := by
  have heq : s.trainPort n = (s.setPort n { s.port n with training := true, tries := 0, trains := (s.port n).trains + 1 }).logEvent
      { cls := 5, unit := portUnit n, index := n } := if_neg (by rw [h]; exact Bool.false_ne_true)
  rw [heq]
  refine ⟨?_, ?_⟩
  · rw [State.port, State.logEvent_ports]
    exact State.port_setPort_same _ _ _
  · obtain ⟨q, w, hlast⟩ := State.logEvent_last (s.setPort n { s.port n with training := true, tries := 0, trains := (s.port n).trains + 1 })
      { cls := 5, unit := portUnit n, index := n }
    exact ⟨_, hlast, rfl⟩

theorem State.dropInFlight_idle {s : State} (h : s.reqs = []) (n : Nat) : s.dropInFlight n = s := by
  rw [State.dropInFlight, h]
  rfl

theorem execLinkFlitRetry_spec (s : State) {n k : Nat} (hn : n < 22) (hk : 0 < k) :
    ∃ t r, exec (.linkFlitRetry n k) s = .next t ∧ (t.port n).retries = (s.port n).retries + BitVec.ofNat 48 k ∧ t.wh.log.getLast? = some r ∧
      r.cls = 3 ∧ r.index = n ∧ r.count = BitVec.ofNat 32 k := by
  have hexec : execLinkFlitRetry n k s = .next ((s.setPort n { s.port n with retries := (s.port n).retries + BitVec.ofNat 48 k }).logEvent
      { cls := 3, unit := portUnit n, index := n, count := BitVec.ofNat 32 k }) := by
    exact if_neg (by simp only [Bool.or_eq_true, decide_eq_true_eq]; omega)
  obtain ⟨q, w, hlast⟩ := State.logEvent_last (s.setPort n { s.port n with retries := (s.port n).retries + BitVec.ofNat 48 k })
    { cls := 3, unit := portUnit n, index := n, count := BitVec.ofNat 32 k }
  refine ⟨_, _, hexec, ?_, hlast, rfl, rfl, rfl⟩
  rw [State.port, State.logEvent_ports]
  exact congrArg Port.retries (State.port_setPort_same _ _ _)

theorem execPortDown_spec (s : State) {n : Nat} (hn : n < 18) (hup : (s.port n).up = true) (htrain : (s.port n).training = false)
    (hreqs : s.reqs = []) :
    ∃ t, exec (.portDown n) s = .next t ∧ (t.port n).up = false ∧ (t.port n).training = true ∧ (t.port n).trains = (s.port n).trains + 1 := by
  have hexec : execPortDown n s = .next (((s.setPort n { s.port n with up := false }).tellLinkDown n).trainPort n) := by
    have hdrop : (s.setPort n { s.port n with up := false }).dropInFlight n = s.setPort n { s.port n with up := false } :=
      State.dropInFlight_idle (show (s.setPort n { s.port n with up := false }).reqs = [] from hreqs) n
    rw [← hdrop]
    exact if_neg (by simp [hup, hn])
  have hport := (OnlyCounted.tellLinkDown (s.setPort n { s.port n with up := false }) n).port n
  rw [State.port_setPort_same] at hport
  obtain ⟨htrained, -⟩ := State.trainPort_spec (s := (s.setPort n { s.port n with up := false }).tellLinkDown n) (n := n) (by rw [hport]; exact htrain)
  refine ⟨_, hexec, ?_⟩
  rw [htrained, hport]
  exact ⟨rfl, rfl, rfl⟩

theorem execRetrainStart_port (s : State) {n : Nat} (hn : n < 18) (htrain : (s.port n).training = false) :
    ∃ t r, exec (.retrainStart n) s = .next t ∧ (t.port n).training = true ∧ (t.port n).up = (s.port n).up ∧
      (t.port n).trains = (s.port n).trains + 1 ∧ t.wh.log.getLast? = some r ∧ r.cls = 5 := by
  have hexec : execRetrainStart n s = .next (s.trainPort n) := by rw [execRetrainStart, if_pos hn]
  obtain ⟨hport, r, hlast, hcls⟩ := State.trainPort_spec htrain
  refine ⟨_, r, hexec, ?_, ?_, ?_, hlast, hcls⟩ <;> rw [hport]

/-- Flags of the partitions of a list set one after another. -/
theorem foldl_train (k : Nat) (is : List Nat) (s : State) {i : Nat} (h : i ∈ is ∨ (s.part (8 * k + i)).training = true) :
    ((is.foldl (fun s i => s.setPart (8 * k + i) { s.part (8 * k + i) with training := true }) s).part (8 * k + i)).training = true := by
  induction is generalizing s with
  | nil => exact h.resolve_left List.not_mem_nil
  | cons j is ih =>
    refine ih _ ?_
    rw [State.part_setPart]
    split
    · exact .inr rfl
    · next hij =>
      refine h.imp_left fun hm => ?_
      exact (List.mem_cons.mp hm).resolve_left fun e => hij (by rw [e])

theorem execRetrainStart_stack (s : State) {k : Nat} (hk : k < 8) (hstop : s.wh.stopped = false) (htrain : (s.part (8 * k)).training = false)
    (hnew : k ∉ s.wh.trainReq) :
    (s.streamsTo k = false → ∃ t, exec (.retrainStart (32 + k)) s = .next t ∧ ∀ i, i < 8 → (t.part (8 * k + i)).training = true) ∧
    (s.streamsTo k = true →
      ∃ t, exec (.retrainStart (32 + k)) s = .next t ∧ t = { s with wh := { s.wh with trainReq := s.wh.trainReq ++ [k] } }) := by
  have hexec : execRetrainStart (32 + k) s =
      if s.streamsTo k then .next { s with wh := { s.wh with trainReq := s.wh.trainReq ++ [k] } } else .next (s.trainStack k) := by
    unfold execRetrainStart
    rw [if_neg (by omega), if_neg (by simp [hstop]; omega)]
    simp only [Nat.add_sub_cancel_left, htrain, Bool.false_or]
    rw [if_neg (by simpa using hnew)]
  constructor <;> intro hstream <;> rw [hstream] at hexec
  · refine ⟨_, hexec, fun i hi => ?_⟩
    unfold State.trainStack
    rw [State.part, State.logEvent_parts]
    exact foldl_train k (List.range 8) s (.inl (List.mem_range.mpr hi))
  · exact ⟨_, hexec, rfl⟩

theorem execRetrainEnd_port (s : State) {n : Nat} (hn : n < 18) (htrain : (s.port n).training = true) :
    (∃ t, exec (.retrainEnd n true) s = .next t ∧ (t.port n).training = false ∧ (t.port n).up = true) ∧
    ((s.port n).tries < 2 → ∃ t, exec (.retrainEnd n false) s = .next t ∧ (t.port n).training = true ∧ (t.port n).tries = (s.port n).tries + 1) ∧
    (2 ≤ (s.port n).tries → s.reqs = [] →
      ∃ t, exec (.retrainEnd n false) s = .next t ∧ (t.port n).training = false ∧ (t.port n).up = false) := by
  have hin (ok : Bool) : exec (.retrainEnd n ok) s = execRetrainEnd n ok s := rfl
  simp only [hin, execRetrainEnd, if_pos hn, htrain, Bool.not_true, Bool.false_eq_true, if_false, if_true]
  refine ⟨⟨_, rfl, ?_⟩, fun htries => ?_, fun htries hreqs => ?_⟩
  · rw [State.port_setPort_same]
    exact ⟨rfl, rfl⟩
  · refine ⟨_, if_pos htries, ?_⟩
    rw [State.port_setPort_same]
    exact ⟨rfl, rfl⟩
  · let s1 : State := (s.setPort n { s.port n with training := false, up := false, tries := 0 }).logEvent
      { cls := 4, unit := portUnit n, index := n }
    have hdrop : s1.dropInFlight n = s1 := by
      exact State.dropInFlight_idle (show s1.reqs = [] from hreqs) n
    have hport : s1.port n = { s.port n with training := false, up := false, tries := 0 } := by
      rw [State.port, State.logEvent_ports]
      exact State.port_setPort_same _ _ _
    have htold : OnlyCounted s1 (if (s.port n).up then (s1.dropInFlight n).tellLinkDown n else s1) := by
      rw [hdrop]
      split
      · exact OnlyCounted.tellLinkDown s1 n
      · exact OnlyCounted.refl s1
    refine ⟨_, if_neg (Nat.not_lt.mpr htries), ?_⟩
    have hend := htold.port n
    rw [hport] at hend
    rw [hend]
    exact ⟨rfl, rfl⟩

/-! ### The module stops (R408) -/

theorem State.fatal_stops (s : State) (unit index : Nat) :
    (s.fatal unit index).wh.stopped = true ∧ (s.fatal unit index).wh.dumps = s.wh.dumps + 1 ∧ (s.fatal unit index).reqs = [] ∧
      (s.fatal unit index).parcels = [] ∧ (∃ r, (s.fatal unit index).wh.log.getLast? = some r ∧ r.cls = 10) ∧
      ∀ z ∈ (s.fatal unit index).ctxs, z.2.stopped = true := by
  obtain ⟨hwh, hreqs, hparcels, hctxs⟩ := State.fatalStop_stops (s.logEvent { cls := 10, unit := unit, index := index })
  obtain ⟨l, q, w, hlog⟩ := s.logEvent_wh { cls := 10, unit := unit, index := index }
  obtain ⟨r, hlast, hcls⟩ : ∃ r, (s.logEvent { cls := 10, unit := unit, index := index }).wh.log.getLast? = some r ∧ r.cls = 10 := by
    obtain ⟨q, w, hlast⟩ := s.logEvent_last { cls := 10, unit := unit, index := index }
    exact ⟨_, hlast, rfl⟩
  have hlogged : (s.fatal unit index).wh.log = (s.logEvent { cls := 10, unit := unit, index := index }).wh.log := by rw [State.fatal, hwh]
  unfold State.fatal at hlogged ⊢
  refine ⟨by rw [hwh], by rw [hwh, hlog], hreqs, hparcels, ⟨r, ?_, hcls⟩, ?_⟩
  · rw [hlogged]
    exact hlast
  · exact hctxs

theorem execUncorrectableFabricError_spec (s : State) (hstop : s.wh.stopped = false) :
    ∃ t r, exec .uncorrectableFabricError s = .next t ∧ t.wh.stopped = true ∧ t.wh.dumps = s.wh.dumps + 1 ∧ t.reqs = [] ∧ t.parcels = [] ∧
      t.wh.log.getLast? = some r ∧ r.cls = 10 ∧ ∀ z ∈ t.ctxs, z.2.stopped = true := by
  obtain ⟨unit, index, hexec⟩ : ∃ unit index, execUncorrectableFabricError s = .next (s.freeBool.2.fatal unit index) := by
    have heq : execUncorrectableFabricError s = .next (if s.freeBool.1 then s.freeBool.2.fatal 5 0 else s.freeBool.2.fatal 4 21) :=
      if_neg (by rw [hstop]; exact Bool.false_ne_true)
    rw [heq]
    split
    · exact ⟨5, 0, rfl⟩
    · exact ⟨4, 21, rfl⟩
  obtain ⟨hstopped, hdumps, hreqs, hparcels, ⟨r, hlast, hcls⟩, hctxs⟩ := s.freeBool.2.fatal_stops unit index
  exact ⟨_, r, hexec, hstopped, hdumps, hreqs, hparcels, hlast, hcls, hctxs⟩

/-! ### Scrubbing (R404 to R406) -/

/-- The state after a block has been counted as scrubbed, in the pass under way or as the first of a new one. -/
def State.scrubbed (s : State) (part : Nat) : State :=
  s.freeBool.2.setPart part
    { s.part part with scrubs := (s.part part).scrubs + 1, pass := (s.part part).pass + s.freeBool.1.toNat }

theorem State.part_scrubbed (s : State) (part : Nat) : (s.scrubbed part).part part =
    { s.part part with scrubs := (s.part part).scrubs + 1, pass := (s.part part).pass + s.freeBool.1.toNat } := State.part_setPart_same _ _ _

section Scrub

variable {s : State} {part frame half errors : Nat}

/-- What the scrubber does with a block that it meets, by the state of the block. -/
theorem execScrubBlock_eq (hpart : part < 64) (hframe : frame < 2 ^ 23) (hhalf : half < 2) (hstop : s.wh.stopped = false)
    (hcode : (s.elisionOf part frame).code half = 0) (hline : s.basin.look ((part * 2 ^ 23 + frame) * 2 + half) = none)
    (htrain : (s.part part).training = false) : execScrubBlock part frame half errors s =
      if s.badBlk.get false ((part * 2 ^ 23 + frame) * 2 + half) || 24 < errors then
        .next (State.logUce { s.scrubbed part with badBlk := (s.scrubbed part).badBlk.put ((part * 2 ^ 23 + frame) * 2 + half) true } part frame half)
      else if errors = 0 then .next (s.scrubbed part)
      else
        let q := (s.scrubbed part).part part
        let u := ((s.scrubbed part).setPart part { q with ce := q.ce + 1 }).logMerged
          { cls := 1, unit := 0, index := part, count := BitVec.ofNat 32 errors, addr := BitVec.ofNat 64 (frame * 1024 + half * 512), span := q.pass }
        .next (if 12 ≤ errors then u.retire frame else u) := by
  unfold execScrubBlock
  have hmet : ¬ (decide (64 ≤ part) || decide (2 ^ 23 ≤ frame) || decide (2 ≤ half) || s.wh.stopped ||
      decide ((s.elisionOf part frame).code half ≠ 0) || (s.basin.look ((part * 2 ^ 23 + frame) * 2 + half)).isSome ||
      (s.part part).training) = true := by
    simp only [hstop, hcode, hline, htrain, ne_eq, not_true_eq_false, decide_false, Option.isSome_none, Bool.or_false, Bool.or_eq_true,
      decide_eq_true_eq]
    omega
  dsimp only
  rw [if_neg hmet]
  rfl

theorem State.logUce_counts (s : State) (part frame half : Nat) : Counts s (s.logUce part frame half) :=
  ((State.setPart_counts _ _ _).trans (State.logEvent_counts _ _)).trans (State.retire_counts _ _)

theorem State.logUce_uce (s : State) (part frame half : Nat) : (s.logUce part frame half).part part =
    { s.part part with uce := (s.part part).uce + 1 } := by
  rw [State.part, State.logUce_parts]
  exact State.part_setPart_same _ _ _

/-- A correctable block is counted and logged, and its frame retired where it has many errors. -/
theorem State.logMerged_retire_spec (s : State) (r : LogRec) (p : Prop) [Decidable p] (frame : Nat) :
    (∀ n, (if p then (s.logMerged r).retire frame else s.logMerged r).part n = s.part n) ∧
    (if p then (s.logMerged r).retire frame else s.logMerged r).dram = s.dram ∧
    (if p then (s.logMerged r).retire frame else s.logMerged r).badBlk = s.badBlk ∧
    (p → frame ∈ (if p then (s.logMerged r).retire frame else s.logMerged r).wh.retired) := by
  obtain ⟨l, q, w, m, f, h⟩ := s.logMerged_eq r
  split
  · rw [h]
    refine ⟨fun n => ?_, ?_, ?_, fun _ => State.mem_retire _ _⟩
    · rw [State.part, State.retire_parts]
      rfl
    · rw [(State.retire_counts _ frame).rest]
    · rw [(State.retire_counts _ frame).rest]
  · next hp =>
    rw [h]
    exact ⟨fun _ => rfl, rfl, rfl, fun hq => absurd hq hp⟩

theorem execScrubBlock_spec (hpart : part < 64) (hframe : frame < 2 ^ 23) (hhalf : half < 2) (hstop : s.wh.stopped = false)
    (hcode : (s.elisionOf part frame).code half = 0) (hline : s.basin.look ((part * 2 ^ 23 + frame) * 2 + half) = none)
    (htrain : (s.part part).training = false) :
    ∃ t, exec (.scrubBlock part frame half errors) s = .next t ∧ (t.part part).scrubs = (s.part part).scrubs + 1 ∧ t.dram = s.dram ∧
      (errors = 0 → s.badBlk.get false ((part * 2 ^ 23 + frame) * 2 + half) = false → t.wh = s.wh ∧ t.badBlk = s.badBlk) ∧
      (0 < errors → errors ≤ 24 → s.badBlk.get false ((part * 2 ^ 23 + frame) * 2 + half) = false →
        (t.part part).ce = (s.part part).ce + 1 ∧ t.badBlk = s.badBlk ∧ (12 ≤ errors → frame ∈ t.wh.retired)) ∧
      (24 < errors → (t.part part).uce = (s.part part).uce + 1 ∧ t.badBlk.get false ((part * 2 ^ 23 + frame) * 2 + half) = true ∧
        frame ∈ t.wh.retired) := by
  have hexec := execScrubBlock_eq (errors := errors) hpart hframe hhalf hstop hcode hline htrain
  rw [show exec (.scrubBlock part frame half errors) s = execScrubBlock part frame half errors s from rfl, hexec]
  have hscrubbed := s.part_scrubbed part
  by_cases hbad : s.badBlk.get false ((part * 2 ^ 23 + frame) * 2 + half) = true ∨ 24 < errors
  · rw [if_pos (by simpa using hbad)]
    refine ⟨_, rfl, ?_, ?_, fun h0 hgood => ?_, fun _ hle hgood => ?_, fun _ => ⟨?_, ?_, State.mem_retire _ _⟩⟩
    · rw [State.logUce_uce]
      exact congrArg Partn.scrubs hscrubbed
    · rw [(State.logUce_counts _ part frame half).rest]
      rfl
    · exact absurd hbad (by rw [h0, hgood]; decide)
    · exact absurd hbad (by rw [hgood]; simpa using hle)
    · rw [State.logUce_uce]
      exact congrArg (·.uce + 1) hscrubbed
    · rw [(State.logUce_counts _ part frame half).rest]
      exact Store.get_put_same _ _ _ _
  · rw [if_neg (by simpa using hbad)]
    split
    · next h0 =>
      exact ⟨_, rfl, congrArg Partn.scrubs hscrubbed, rfl, fun _ _ => ⟨rfl, rfl⟩, fun hpos => absurd h0 hpos.ne', fun hmany => by omega⟩
    · obtain ⟨hparts, hdram, hblk, hret⟩ := State.logMerged_retire_spec
        ((s.scrubbed part).setPart part { (s.scrubbed part).part part with ce := ((s.scrubbed part).part part).ce + 1 })
        { cls := 1, unit := 0, index := part, count := BitVec.ofNat 32 errors, addr := BitVec.ofNat 64 (frame * 1024 + half * 512), span := ((s.scrubbed part).part part).pass }
        (12 ≤ errors) frame
      have hlogged := (hparts part).trans (State.part_setPart_same _ _ _)
      have hcounted := hlogged.trans (congrArg (fun q => { q with ce := q.ce + 1 }) hscrubbed)
      exact ⟨_, rfl, congrArg Partn.scrubs hcounted, hdram, fun h0 => by omega,
        fun _ _ _ => ⟨congrArg Partn.ce hcounted, hblk, hret⟩, fun hmany => by omega⟩

end Scrub

/-! ### Power and temperature (R411, R413) -/

/-- The state with a reading of the power in it. -/
def State.sampled (s : State) (watts : Nat) : State := { s with wh := { s.wh with power := watts, samples := s.wh.samples + 1 } }

theorem execPowerSample_spec (s : State) (watts : Nat) (hstop : s.wh.stopped = false) :
    ∃ t, exec (.powerSample watts) s = .next t ∧ t.wh.power = watts ∧ t.wh.samples = s.wh.samples + 1 ∧
      t.wh.clock = (if s.wh.limit < watts ∨ 95 ≤ s.wh.junction then max 875 (s.wh.clock - 25)
        else if 100 * watts < 95 * s.wh.limit then min 1750 (s.wh.clock + 25) else s.wh.clock) := by
  have hset (mhz : Nat) : ((s.sampled watts).setClock mhz).wh.power = watts ∧
      ((s.sampled watts).setClock mhz).wh.samples = s.wh.samples + 1 ∧ ((s.sampled watts).setClock mhz).wh.clock = mhz := by
    obtain ⟨l, q, w, m, f, h⟩ := (s.sampled watts).setClock_eq mhz
    rw [h]
    exact ⟨rfl, rfl, rfl⟩
  have hexec : execPowerSample watts s =
      if s.wh.limit < watts || 95 ≤ s.wh.junction then .next ((s.sampled watts).setClock (max 875 (s.wh.clock - 25)))
      else if 100 * watts < 95 * s.wh.limit then .next ((s.sampled watts).setClock (min 1750 (s.wh.clock + 25))) else .next (s.sampled watts) :=
    if_neg (by rw [hstop]; exact Bool.false_ne_true)
  rw [show exec (.powerSample watts) s = execPowerSample watts s from rfl, hexec]
  simp only [Bool.or_eq_true, decide_eq_true_eq]
  split
  · exact ⟨_, rfl, hset _⟩
  · split
    · exact ⟨_, rfl, hset _⟩
    · exact ⟨_, rfl, rfl, rfl, rfl⟩

/-- The state with a junction temperature in it. -/
def State.heated (s : State) (c : Nat) : State := { s with wh := { s.wh with junction := c } }

theorem execThermalEvent_spec (s : State) (c : Nat) (hstop : s.wh.stopped = false) :
    ∃ t, exec (.thermalEvent c) s = .next t ∧ t.wh.junction = c ∧
      (110 ≤ c → t.wh.stopped = true ∧ t.reqs = [] ∧ t.parcels = [] ∧ ∀ z ∈ t.ctxs, z.2.stopped = true) ∧
      (95 ≤ c → c < 110 → t.wh.clock = max 875 (s.wh.clock - 25) ∧ t.wh.stopped = false) ∧ (c < 95 → t.wh.clock = s.wh.clock) := by
  have hexec : execThermalEvent c s = if 110 ≤ c then .next ((s.heated c).logEvent { cls := 7, unit := 5 }).fatalStop
      else if 95 ≤ c then .next ((s.heated c).setClock (max 875 (s.wh.clock - 25))) else .next (s.heated c) :=
    if_neg (by rw [hstop]; exact Bool.false_ne_true)
  rw [show exec (.thermalEvent c) s = execThermalEvent c s from rfl, hexec]
  split
  · next hhot =>
    obtain ⟨hwh, hreqs, hparcels, hctxs⟩ := State.fatalStop_stops ((s.heated c).logEvent { cls := 7, unit := 5 })
    obtain ⟨l, q, w, hlog⟩ := (s.heated c).logEvent_wh { cls := 7, unit := 5 }
    exact ⟨_, rfl, by rw [hwh, hlog]; rfl, fun _ => ⟨by rw [hwh], hreqs, hparcels, hctxs⟩, fun _ h => absurd hhot (Nat.not_le.mpr h), fun h => by omega⟩
  · split
    · obtain ⟨l, q, w, m, f, h⟩ := (s.heated c).setClock_eq (max 875 (s.wh.clock - 25))
      rw [h]
      exact ⟨_, rfl, rfl, fun h => by omega, fun _ _ => ⟨rfl, hstop⟩, fun h => by omega⟩
    · exact ⟨_, rfl, rfl, fun h => by omega, fun h => by omega, fun _ => rfl⟩

/-! ### Reset and boot (R397 to R399) -/

/-- A measurement register after a digest has extended it (R398). -/
def extended (old d : BitVec 256) : BitVec 256 := Config.sha256 (bytesOfNat 32 old.toNat ++ bytesOfNat 32 d.toNat)

theorem State.extend_mr (s : State) (n m : Nat) (d : BitVec 256) :
    (s.extend n d).wh.mr.get 0 m = if m = n then extended (s.wh.mr.get 0 n) d else s.wh.mr.get 0 m := Store.get_put _ _ _ _ _

/-- What a reset leaves of a state, whatever the boot then measures. -/
def Wiped (s t : State) : Prop :=
  t.cores = [] ∧ t.ctls = [] ∧ t.ctxs = [] ∧ t.queues = [] ∧ t.launches = [] ∧ t.reqs = [] ∧ t.basin = [] ∧ t.pond = [] ∧
    t.hostMem = s.hostMem ∧ t.farMem = s.farMem ∧ t.wh.keys = [] ∧ t.wh.callver = none ∧ t.wh.wiped = false ∧
    t.wh.life = (if s.wh.life = .debug then .deployed else s.wh.life) ∧ t.wh.copies = s.wh.copies

theorem Wiped.life {s t : State} (h : Wiped s t) : t.wh.life = if s.wh.life = .debug then .deployed else s.wh.life := by
  obtain ⟨-, -, -, -, -, -, -, -, -, -, -, -, -, hlife, -⟩ := h
  exact hlife

theorem Wiped.copies {s t : State} (h : Wiped s t) : t.wh.copies = s.wh.copies := by
  obtain ⟨-, -, -, -, -, -, -, -, -, -, -, -, -, -, hcopies⟩ := h
  exact hcopies

theorem Wiped.extend {s t : State} (h : Wiped s t) (n : Nat) (d : BitVec 256) : Wiped s (t.extend n d) := h
theorem Wiped.countPort {s t : State} (h : Wiped s t) (port sent recvd : Nat) : Wiped s (t.countPort port sent recvd) := h
theorem Wiped.release {s t : State} (h : Wiped s t) (recovery : Bool) : Wiped s (t.release recovery) := h

theorem State.wiped_wiped (s : State) : Wiped s s.wiped := by
  unfold State.wiped Wiped
  dsimp only
  split
  · exact ⟨rfl, rfl, rfl, rfl, rfl, rfl, rfl, rfl, rfl, rfl, rfl, rfl, rfl, rfl, rfl⟩
  · exact ⟨rfl, rfl, rfl, rfl, rfl, rfl, rfl, rfl, rfl, rfl, rfl, rfl, rfl, rfl, rfl⟩

/-- A reset clears the measurement registers; one out of DEBUG then extends MR2 by that change. -/
theorem State.wiped_mr (s : State) : s.wiped.wh.mr.get 0 0 = 0 ∧ s.wiped.wh.mr.get 0 1 = 0 ∧
    s.wiped.wh.mr.get 0 2 = if s.wh.life = .debug then extended 0 (Config.sha256 [3, 2]) else 0 := by
  unfold State.wiped
  dsimp only
  split
  · refine ⟨?_, ?_, ?_⟩ <;> rw [State.extend_mr] <;> rfl
  · exact ⟨rfl, rfl, rfl⟩

theorem State.imageCopy_congr {s t : State} (h : t.wh.copies = s.wh.copies) (c : Nat) : t.imageCopy c = s.imageCopy c := by
  unfold State.imageCopy
  rw [h]

/-- Of the two firmware copies, tried in either order, the first that is accepted. -/
theorem find_copy_none (b : Bool) (p : Nat → Bool) (h : [b.toNat, 1 - b.toNat].find? p = none) : ∀ c, c < 2 → p c = false := by
  intro c hc
  have hc : c = 0 ∨ c = 1 := by omega
  cases b <;> rcases hc with rfl | rfl <;> simpa using List.find?_eq_none.mp h _ (by simp)

theorem find_copy_some (b : Bool) (p : Nat → Bool) {c : Nat} (h : [b.toNat, 1 - b.toNat].find? p = some c) : c < 2 ∧ p c = true := by
  refine ⟨?_, List.find?_some h⟩
  have hb : b.toNat ≤ 1 := Bool.toNat_le b
  have hmem := List.mem_of_find?_eq_some h
  simp only [List.mem_cons, List.not_mem_nil, or_false] at hmem
  omega

section Reset

variable (s : State) (root : Bool) (flash image : BitVec 2)

/-- The flash copy of stage 1 that the ROM takes. -/
def romCopy (flash : BitVec 2) : Option Nat := [0, 1].find? fun c => !flash.getLsbD c && imageOk 1 (Config.flash c)

/-- Whether a firmware copy can be read and is accepted. -/
def usableCopy (s : State) (image : BitVec 2) (c : Nat) : Bool := decide (c < 2) && !image.getLsbD c && imageOk 2 (s.imageCopy c)

/-- The state in which stage 1 of a flash copy runs. -/
def State.stageOne (s : State) (root : Bool) (a : Nat) : State :=
  (s.freeBool.2.wiped.extend 0 (imageDigest (Config.flash a))).countPort (if root then 19 else 18) 1 1

/-- The state in which the firmware of a copy runs, before its cores are released. -/
def State.stageTwo (t1 : State) (c : Nat) : State :=
  let t2 := (t1.extend 1 (imageDigest (t1.imageCopy c))).extend 2 (Config.sha256 [BitVec.ofNat 8 t1.wh.life.code])
  { t2 with wh := { t2.wh with active := c, callmax := some (BitVec.ofNat 16 (fld (t1.imageCopy c) 16 2)) } }

theorem execReset_eq : execReset root flash image s =
    match romCopy flash with
    | none => .next (s.freeBool.2.wiped.release true)
    | some a =>
      match [s.freeBool.1.toNat, 1 - s.freeBool.1.toNat].find? fun c => !image.getLsbD c && imageOk 2 ((s.stageOne root a).imageCopy c) with
      | none => .next ((s.stageOne root a).release true)
      | some c => .next (((s.stageOne root a).stageTwo c).release false) := rfl

theorem State.stageOne_wiped (a : Nat) : Wiped s (s.stageOne root a) :=
  ((show Wiped s s.freeBool.2.wiped from s.freeBool.2.wiped_wiped).extend _ _).countPort _ _ _

theorem State.stageTwo_wiped {t : State} (h : Wiped s t) (c : Nat) : Wiped s (t.stageTwo c) := h

theorem State.stageOne_mr (a : Nat) : (s.stageOne root a).wh.mr.get 0 0 = extended 0 (imageDigest (Config.flash a)) ∧
    (s.stageOne root a).wh.mr.get 0 1 = 0 ∧
    (s.stageOne root a).wh.mr.get 0 2 = if s.wh.life = .debug then extended 0 (Config.sha256 [3, 2]) else 0 := by
  obtain ⟨h0, h1, h2⟩ := s.freeBool.2.wiped_mr
  have hmr (m : Nat) : (s.stageOne root a).wh.mr.get 0 m =
      if m = 0 then extended (s.freeBool.2.wiped.wh.mr.get 0 0) (imageDigest (Config.flash a)) else s.freeBool.2.wiped.wh.mr.get 0 m :=
    State.extend_mr _ _ _ _
  exact ⟨(hmr 0).trans (by rw [if_pos rfl, h0]), (hmr 1).trans h1, (hmr 2).trans h2⟩

theorem State.stageTwo_mr (t : State) (c : Nat) : (t.stageTwo c).wh.mr.get 0 0 = t.wh.mr.get 0 0 ∧
    (t.stageTwo c).wh.mr.get 0 1 = extended (t.wh.mr.get 0 1) (imageDigest (t.imageCopy c)) ∧
    (t.stageTwo c).wh.mr.get 0 2 = extended (t.wh.mr.get 0 2) (Config.sha256 [BitVec.ofNat 8 t.wh.life.code]) := by
  have hmr (m : Nat) : (t.stageTwo c).wh.mr.get 0 m =
      if m = 2 then extended ((t.extend 1 (imageDigest (t.imageCopy c))).wh.mr.get 0 2) (Config.sha256 [BitVec.ofNat 8 t.wh.life.code])
      else (t.extend 1 (imageDigest (t.imageCopy c))).wh.mr.get 0 m := State.extend_mr _ _ _ _
  refine ⟨(hmr 0).trans ?_, (hmr 1).trans ?_, (hmr 2).trans ?_⟩
  · rw [if_neg (by decide), State.extend_mr, if_neg (by decide)]
  · rw [if_neg (by decide), State.extend_mr, if_pos rfl]
  · rw [if_pos rfl, State.extend_mr, if_neg (by decide)]

theorem usableCopy_stageOne (a c : Nat) (hc : c < 2) :
    (!image.getLsbD c && imageOk 2 ((s.stageOne root a).imageCopy c)) = usableCopy s image c := by
  rw [usableCopy, decide_eq_true hc, Bool.true_and, State.imageCopy_congr (s.stageOne_wiped root a).copies]

/-- A reset's boot (R397, R398): which copies it takes, and what it measures. -/
theorem execReset_spec : ∃ t, execReset root flash image s = .next t ∧ Wiped s t ∧ t.wh.booted = true ∧
    (romCopy flash = none → t.wh.recovery = true ∧ t.wh.mr.get 0 0 = 0 ∧ t.wh.mr.get 0 1 = 0) ∧
    (∀ a, romCopy flash = some a → t.wh.mr.get 0 0 = extended 0 (imageDigest (Config.flash a)) ∧
      ((∀ c, usableCopy s image c = false) → t.wh.recovery = true ∧ t.wh.mr.get 0 1 = 0) ∧
      (∀ c, usableCopy s image c = true → t.wh.recovery = false ∧ usableCopy s image t.wh.active = true ∧
        t.wh.mr.get 0 1 = extended 0 (imageDigest (s.imageCopy t.wh.active)) ∧
        t.wh.mr.get 0 2 = extended (if s.wh.life = .debug then extended 0 (Config.sha256 [3, 2]) else 0)
          (Config.sha256 [BitVec.ofNat 8 (if s.wh.life = .debug then Life.deployed else s.wh.life).code]))) := by
  rw [execReset_eq]
  cases hrom : romCopy flash with
  | none =>
    obtain ⟨h0, h1, -⟩ := s.freeBool.2.wiped_mr
    exact ⟨_, rfl, (show Wiped s s.freeBool.2.wiped from s.freeBool.2.wiped_wiped).release true, rfl, fun _ => ⟨rfl, h0, h1⟩, fun a h => nomatch h⟩
  | some a =>
    have hone := s.stageOne_wiped root a
    obtain ⟨h0, h1, h2⟩ := s.stageOne_mr root a
    dsimp only
    split
    · next hnone =>
      refine ⟨_, rfl, hone.release true, rfl, fun h => (nomatch h), fun _ h => ?_⟩
      cases h
      refine ⟨h0, fun _ => ⟨rfl, h1⟩, fun c hc => ?_⟩
      have hlt : c < 2 := of_decide_eq_true (Bool.and_eq_true_iff.mp (Bool.and_eq_true_iff.mp hc).1).1
      rw [← usableCopy_stageOne s root image a c hlt, find_copy_none _ _ hnone c hlt] at hc
      cases hc
    · next c hsome =>
      obtain ⟨hlt, hc⟩ := find_copy_some _ _ hsome
      rw [usableCopy_stageOne s root image a c hlt] at hc
      obtain ⟨k0, k1, k2⟩ := (s.stageOne root a).stageTwo_mr c
      refine ⟨_, rfl, (State.stageTwo_wiped s hone c).release false, rfl, fun h => (nomatch h), fun _ h => ?_⟩
      cases h
      refine ⟨k0.trans h0, fun hall => ?_, fun _ _ => ⟨rfl, hc, k1.trans ?_, k2.trans ?_⟩⟩
      · rw [hall c] at hc
        cases hc
      · rw [h1, State.imageCopy_congr hone.copies]
        rfl
      · rw [h2, hone.life]

end Reset

/-- HBM's physical wipe is done once (R397, R399). -/
theorem execHbmWipeComplete_eq (s : State) (hboot : s.wh.booted = true) (hwiped : s.wh.wiped = false) (hrec : s.wh.recovery = false)
    (hstop : s.wh.stopped = false) :
    exec .hbmWipeComplete s = .next { s with dram := [], badBlk := [], blockKey := [], wh := { s.wh with wiped := true } } :=
  if_neg (by rw [hboot, hwiped, hrec, hstop]; decide)

/-- Settles O52: each event's own lemma. -/
theorem linksModuleAndHbmRecover : Obligations.LinksModuleAndHbmRecover := by
  refine ⟨⟨fun s n k => execLinkFlitRetry_spec s, fun s n => execPortDown_spec s, fun s n => execRetrainStart_port s,
    fun s k => execRetrainStart_stack s, fun s n => execRetrainEnd_port s, execUncorrectableFabricError_spec⟩,
    fun s part frame half errors hp hf hh hs hc hl ht => execScrubBlock_spec hp hf hh hs hc hl ht,
    execPowerSample_spec, execThermalEvent_spec, fun s root flash image => ?_, fun s hb hw hr hs => ⟨_, execHbmWipeComplete_eq s hb hw hr hs, rfl⟩⟩
  obtain ⟨t, hexec, ⟨hcores, hctls, hctxs, hqueues, hlaunches, hreqs, hbasin, hpond, hhost, hfar, hkeys, hver, hwiped, hlife, -⟩, hbooted, hnone, hsome⟩ :=
    execReset_spec s root flash image
  exact ⟨t, hexec, hcores, hctls, hctxs, hqueues, hlaunches, hreqs, hbasin, hpond, hhost, hfar, hkeys, hver, hwiped, hlife, hbooted, hnone, hsome⟩

end Sys2Proof.Machine
end

section
/-! SUPPORT. The word of a single atomic (R249, R250): the unit's arithmetic on numbers, and the statements' arithmetic on words. -/

namespace Sys2Proof.Machine

open Sys2Proof Sys2Proof.Said

theorem setWidth_fit (ty : Ty) (z : Int) : (fit ty false z).setWidth ty.bits = BitVec.ofInt ty.bits z := by
  have hbits : ty.bits ≤ 64 := by cases ty <;> decide
  unfold fit
  rw [if_neg Bool.false_ne_true]
  dsimp only
  split
  · refine BitVec.eq_of_getLsbD_eq fun i hi => ?_
    rw [BitVec.getLsbD_setWidth, BitVec.getLsbD_signExtend]
    simp [hi, show i < 64 by omega]
  · exact BitVec.setWidth_setWidth_of_le _ hbits |>.trans (BitVec.setWidth_eq _)

theorem ofInt_num (ty : Ty) (w : Dword) : BitVec.ofInt ty.bits (num ty w) = w.setWidth ty.bits := by
  unfold num
  split
  · exact BitVec.ofInt_toInt
  · rw [BitVec.ofInt_natCast, BitVec.ofNat_toNat, BitVec.setWidth_eq]

theorem setWidth_ofNat_add (n a b : Nat) : BitVec.ofNat n ((a + b) % 2 ^ n) = BitVec.ofNat n a + BitVec.ofNat n b := by
  rw [← BitVec.ofNat_add]
  exact BitVec.eq_of_toNat_eq (by simp)

theorem setWidth_ofNat_of_bits (ty : Ty) (v : Nat) : (BitVec.ofNat 64 v).setWidth ty.bits = BitVec.ofNat ty.bits v :=
  BitVec.setWidth_ofNat_of_le (by cases ty <;> decide) v

/-- A sum of an integer type, wrapped as the unit wraps it. -/
theorem add_bits (ty : Ty) (old x : Dword) :
    BitVec.ofNat ty.bits ((old.toNat + x.toNat) % 2 ^ ty.bits) = (fit ty false (num ty old + num ty x)).setWidth ty.bits := by
  rw [setWidth_fit, setWidth_ofNat_add, BitVec.ofInt_add, ofInt_num, ofInt_num, BitVec.ofNat_toNat, BitVec.ofNat_toNat]

theorem min_bits (ty : Ty) (old x : Dword) :
    BitVec.ofNat ty.bits (if valOf ty x.toNat < valOf ty old.toNat then x.toNat else old.toNat) =
      (if num ty old ≤ num ty x then old else x).setWidth ty.bits := by
  rw [valOf_eq_num, valOf_eq_num]
  by_cases h : num ty old ≤ num ty x
  · rw [if_neg (not_lt.mpr h), if_pos h, BitVec.ofNat_toNat]
  · rw [if_pos (not_le.mp h), if_neg h, BitVec.ofNat_toNat]

theorem max_bits (ty : Ty) (old x : Dword) :
    BitVec.ofNat ty.bits (if valOf ty old.toNat < valOf ty x.toNat then x.toNat else old.toNat) =
      (if num ty old ≤ num ty x then x else old).setWidth ty.bits := by
  rw [valOf_eq_num, valOf_eq_num]
  rcases lt_trichotomy (num ty old) (num ty x) with h | h | h
  · rw [if_pos h, if_pos h.le, BitVec.ofNat_toNat]
  · rw [if_neg h.not_lt, if_pos h.le, BitVec.ofNat_toNat, ← ofInt_num, h, ofInt_num]
  · rw [if_neg h.not_gt, if_neg h.not_ge, BitVec.ofNat_toNat]

/-- The unit's word and the statements' agree in the bits of their type. -/
theorem aopApply_bits {op : AOp} {ty : Ty} (hcas : op ≠ .cas) (hty : ty ∈ op.types) (old x : Dword) :
    BitVec.ofNat ty.bits (aopApply op ty old.toNat x.toNat 0) = (atomicAny op ty old x 0).setWidth ty.bits := by
  have hmem : ∀ w : Dword, BitVec.ofNat ty.bits w.toNat = w.setWidth ty.bits := fun w => BitVec.ofNat_toNat _ _
  cases op with
  | add =>
    simp only [AOp.types, List.mem_cons, List.not_mem_nil, or_false] at hty
    rcases hty with rfl | rfl | rfl | rfl | rfl | rfl | rfl
    · exact add_bits .i32 old x
    · exact add_bits .n32 old x
    · exact add_bits .i64 old x
    · exact add_bits .n64 old x
    · exact (setWidth_ofNat_of_bits .f32 _).symm
    · exact (setWidth_ofNat_of_bits .bx2 _).symm
    · exact (setWidth_ofNat_of_bits .hx2 _).symm
  | min =>
    simp only [AOp.types, List.mem_cons, List.not_mem_nil, or_false] at hty
    rcases hty with rfl | rfl | rfl | rfl | rfl
    · exact min_bits .i32 old x
    · exact min_bits .n32 old x
    · exact min_bits .i64 old x
    · exact min_bits .n64 old x
    · exact (setWidth_ofNat_of_bits .f32 _).symm
  | max =>
    simp only [AOp.types, List.mem_cons, List.not_mem_nil, or_false] at hty
    rcases hty with rfl | rfl | rfl | rfl | rfl
    · exact max_bits .i32 old x
    · exact max_bits .n32 old x
    · exact max_bits .i64 old x
    · exact max_bits .n64 old x
    · exact (setWidth_ofNat_of_bits .f32 _).symm
  | and =>
    simp only [AOp.types, List.mem_cons, List.not_mem_nil, or_false] at hty
    rcases hty with rfl | rfl <;> exact hmem (old &&& x)
  | or =>
    simp only [AOp.types, List.mem_cons, List.not_mem_nil, or_false] at hty
    rcases hty with rfl | rfl <;> exact hmem (old ||| x)
  | xor =>
    simp only [AOp.types, List.mem_cons, List.not_mem_nil, or_false] at hty
    rcases hty with rfl | rfl <;> exact hmem (old ^^^ x)
  | exch =>
    simp only [AOp.types, List.mem_cons, List.not_mem_nil, or_false] at hty
    rcases hty with rfl | rfl <;> exact hmem x
  | cas => exact absurd rfl hcas

/-- The bytes that the unit writes are the word's. -/
theorem bytesOfNat_aopApply {op : AOp} {ty : Ty} (hcas : op ≠ .cas) (hty : ty ∈ op.types) (old x : Dword) {n : Nat} (hn : n ≤ ty.bytes) (q : Nat) :
    (bytesOfNat n (aopApply op ty old.toNat x.toNat 0))[q]? =
      if q < n then some ((atomicAny op ty old x 0 >>> (8 * q)).setWidth 8) else none := by
  split
  · next hq => 
    rw [bytesOfNat, List.getElem?_map, List.getElem?_range hq, Option.map_some]
    have hbits : ty.bits = 8 * ty.bytes := by cases ty <;> rfl
    have hword := aopApply_bits hcas hty old x
    refine congrArg some (BitVec.eq_of_getLsbD_eq fun i hi => ?_)
    have hbit := congrArg (fun w => w.getLsbD (8 * q + i)) hword
    simp only [BitVec.getLsbD_ofNat, BitVec.getLsbD_setWidth, decide_eq_true (show 8 * q + i < ty.bits by omega), Bool.true_and] at hbit
    rw [BitVec.getLsbD_ofNat, BitVec.getLsbD_setWidth, BitVec.getLsbD_ushiftRight, ← hbit, show 256 ^ q = 2 ^ (8 * q) by rw [pow_mul]; rfl,
      Nat.testBit_div_two_pow, Nat.add_comm]
  · next hq => exact List.getElem?_eq_none (by rw [bytesOfNat_length]; omega)

end Sys2Proof.Machine
end

section
/-! SUPPORT. Memory as an agent outside reads and writes it (R139, R163): the bytes that a read gives and leaves, and writes beside which
other parts of the state change. -/

namespace Sys2Proof.Machine

open Sys2Proof Sys2Proof.Said

/-! ### A read of bytes within a block -/

theorem not_peer {l : Leaf} (hn : near l) : (l.far && l.target == 3) = false := by
  rw [Bool.eq_false_iff]
  intro h
  exact hn ⟨(Bool.and_eq_true_iff.mp h).1, eq_of_beq (Bool.and_eq_true_iff.mp h).2⟩

/-- The line of an address's block with its bytes read from memory, and the state. -/
def State.lineRead (s : State) (l : Leaf) (va : Nat) : Line × State :=
  (s.takeLine (partOf va) l (halfOf l va)).2.fillLine (blockOf l va) (s.takeLine (partOf va) l (halfOf l va)).1

theorem State.readG_near (s : State) {l : Leaf} (hn : near l) (va n : Nat) : s.readG l va n =
    ((List.range n).map fun i => (s.lineRead l va).1.bytes.getD (va % 512 + i) 0, (s.lineRead l va).1.bad,
      { (s.lineRead l va).2 with basin := (s.lineRead l va).2.basin.put (blockOf l va) (s.lineRead l va).1 }) := by
  unfold State.readG
  dsimp only
  rw [not_peer hn, if_neg Bool.false_ne_true]
  rfl

theorem blockOf_eq {l : Leaf} {a b : Nat} (h : a / 512 = b / 512) : blockOf l a = blockOf l b := by
  obtain ⟨hpart, hhalf⟩ := blockOf_congr (l := l) h
  rw [blockOf, blockOf, hpart, hhalf]

theorem State.lineRead_congr (s : State) {l : Leaf} {a b : Nat} (h : a / 512 = b / 512) : s.lineRead l a = s.lineRead l b := by
  obtain ⟨hpart, hhalf⟩ := blockOf_congr (l := l) h
  rw [State.lineRead, State.lineRead, blockOf_eq h, hpart, hhalf]

theorem memByte_near (s : State) {l : Leaf} (hn : near l) (a : Nat) : memByte s l a = (s.lineRead l a).1.bytes.getD (a % 512) 0 := by
  rw [memByte, s.readG_near hn]
  rfl

/-- A read within a block gives the bytes of memory. -/
theorem State.readG_bytes (s : State) {l : Leaf} (hn : near l) {va n : Nat} (hlen : va % 512 + n ≤ 512) :
    (s.readG l va n).1 = (List.range n).map fun q => memByte s l (va + q) := by
  rw [s.readG_near hn]
  refine List.map_congr_left fun q hq => ?_
  have hq := List.mem_range.mp hq
  rw [memByte_near s hn, s.lineRead_congr (show (va + q) / 512 = va / 512 by omega), show (va + q) % 512 = va % 512 + q by omega]

theorem bitsOf_lt (x hi lo : Nat) : bitsOf x hi lo < 2 ^ (hi + 1 - lo) := Nat.mod_lt _ (Nat.two_pow_pos _)

theorem partOf_lt (va : Nat) : partOf va < 64 :=
  Nat.xor_lt_two_pow (n := 6) (bitsOf_lt va 14 9) (Nat.xor_lt_two_pow (Nat.xor_lt_two_pow (Nat.xor_lt_two_pow (Nat.xor_lt_two_pow
    (Nat.xor_lt_two_pow (Nat.xor_lt_two_pow (bitsOf_lt va 20 15) (bitsOf_lt va 26 21)) (bitsOf_lt va 32 27)) (bitsOf_lt va 38 33))
    (bitsOf_lt va 44 39)) (bitsOf_lt va 50 45)) ((bitsOf_lt va 51 51).trans (by norm_num)))

/-- A block of a far frame belongs to a far leaf (R120). -/
theorem far_of_blkFar {l : Leaf} {va : Nat} (h : blkFar (blockOf l va) = true) : l.far = true := by
  by_contra hfar
  have hfar : l.far = false := by simpa using hfar
  have hpart := partOf_lt va
  have hframe : l.frame < 2 ^ 32 := bitsOf_lt _ 47 16
  have hhalf : halfOf l va < 2 := by
    rw [halfOf, hfar]
    exact bitsOf_lt va 15 15
  rw [blkFar, blockOf, blockNo, hfar, if_neg Bool.false_ne_true, decide_eq_true_eq] at h
  omega

theorem Whole.of_line {u : State} {l : Leaf} {va : Nat} {x : Line} (hline : u.basin.look (blockOf l va) = some x) (hb : x.bytes.length = 512)
    (hf : x.fresh.length = 512) (hsure : x.filled = true ∨ x.fresh.all id = true ∨ Sure u (blockOf l va) x.key) : Whole u l va where
  size y hy := by
    rw [hline] at hy
    cases hy
    exact ⟨hb, hf⟩
  room := .inl (by rw [hline]; rfl)
  known := by
    rcases hsure with hfill | hall | hfar | hcode | hkey
    · exact .inl (by rw [State.lineHit, hline]; exact Bool.or_eq_true_iff.mpr (.inl hfill))
    · exact .inl (by rw [State.lineHit, hline]; exact Bool.or_eq_true_iff.mpr (.inr hall))
    · exact .inr (.inl (far_of_blkFar hfar))
    · exact .inr (.inr (.inl hcode))
    · exact .inr (.inr (.inr (by rw [hline]; exact hkey)))

/-- A read leaves a block's bytes as they were, and no byte of it open. -/
structure ReadAt (s u : State) (l : Leaf) (va : Nat) : Prop where
  whole : Whole u l va
  bytes : ∀ a, a / 512 = va / 512 → memByte u l a = memByte s l a
  others : ∀ k, k ≠ blockOf l va → u.basin.look k = s.basin.look k
  dram : u.dram = s.dram
  pond : u.pond = s.pond
  far : u.farMem = s.farMem
  host : u.hostMem = s.hostMem

/-- What a write through the state after a read leaves is a write through the state before it. -/
theorem ReadAt.wrote {s u t : State} {l : Leaf} {va : Nat} {f : Nat → Option Byte} (h : ReadAt s u l va) (k : MemWrote u t l va f) :
    MemWrote s t l va f := by
  obtain ⟨hbytes, hothers, hdram, hpond, hfar, hhost⟩ := k
  exact ⟨fun a ha => by rw [hbytes a ha, h.bytes a ha], fun n hn => (hothers n hn).trans (h.others n hn), hdram.trans h.dram,
    hpond.trans h.pond, hfar.trans h.far, hhost.trans h.host⟩

theorem State.readG_readAt {s : State} {l : Leaf} (hn : near l) {va : Nat} (hw : Whole s l va) (n : Nat) :
    ReadAt s (s.readG l va n).2.2 l va := by
  obtain ⟨p, htake⟩ := State.takeLine_eq hw.room
  obtain ⟨hb, hf⟩ := lineAt_length (l := l) hw.size
  have hread : s.lineRead l va = (s.setPart (partOf va) p).fillLine (blockOf l va) (s.lineAt l (blockOf l va)) := by rw [State.lineRead, htake]
  obtain ⟨hdram, hbasin, hpond, hfar, hhost⟩ := (s.setPart (partOf va) p).fillLine_sameMemory (blockOf l va) (s.lineAt l (blockOf l va))
  obtain ⟨hyb, hyf⟩ := (s.setPart (partOf va) p).fillLine_length (blk := blockOf l va) hb hf
  have hown := (s.setPart (partOf va) p).fillLine_own (blockOf l va) (s.lineAt l (blockOf l va))
  rw [← hread] at hdram hbasin hpond hfar hhost hyb hyf hown
  rw [s.readG_near hn]
  have hbas : (s.lineRead l va).2.basin = s.basin := hbasin
  generalize hy : (s.lineRead l va).1 = y at hyb hyf hown
  have hline : ((s.lineRead l va).2.basin.put (blockOf l va) y).look (blockOf l va) = some y := Store.look_put_same _ _ _
  refine ⟨Whole.of_line hline hyb hyf (hown.imp_right .inl), fun a ha => ?_, fun k hk => ?_, hdram, hpond, hfar, hhost⟩
  · have hblk := blockOf_eq (l := l) ha
    have hp512 : a % 512 < 512 := Nat.mod_lt _ (by norm_num)
    rw [memByte_near s hn, s.lineRead_congr ha, hy]
    have hat : ({ (s.lineRead l va).2 with basin := (s.lineRead l va).2.basin.put (blockOf l va) y } : State).lineAt l (blockOf l a) = y := by
      rw [State.lineAt, hblk, hline]
      rfl
    rw [memByte_eq hn (.inl (by rw [hblk, hline]; rfl)) (fun x hx => by rw [hblk, hline] at hx; cases hx; exact ⟨hyb, hyf⟩)
      (by rw [hat]; exact hown.imp_right .inl), hat, shown_of_own hyf hown hp512]
  · rw [Store.look_put_other _ (blockOf l va) k _ hk, hbas]

/-! ### Writes beside which other parts of the state change -/

/-- A write leaves its block's line there, with no byte of it open. -/
theorem whole_writeG {s : State} {l : Leaf} {va : Nat} (hn : near l) (hw : Whole s l va) (bs : List Byte) :
    Whole (s.writeG l va (bs.zipIdx.map fun b => (b.2, b.1))) l va := by
  obtain ⟨p, hp⟩ := State.writeG_eq hn hw.room bs
  rw [hp]
  obtain ⟨hb, hf⟩ := lineAt_length (l := l) hw.size
  have hsure := (lineAt_sure hw).imp_right (Or.imp_right (SameBacking.sure (t := s.setPart (partOf va) p) ⟨rfl, rfl, rfl, rfl, rfl, rfl⟩))
  have hfaith : Faithful (s.setPart (partOf va) p) _ (blockOf l va) (s.lineAt l (blockOf l va))
      ((s.setPart (partOf va) p).unelide (partOf va) l (halfOf l va) (s.lineAt l (blockOf l va))).1 :=
    State.unelide_faithful hb hf hsure ⟨rfl, rfl, rfl, rfl, rfl, rfl⟩
  obtain ⟨hyb, hyf⟩ := Line.wrote_length hfaith.bytes hfaith.fresh (va % 512) bs
  exact Whole.of_line (Store.look_put_same _ _ _) hyb hyf (Line.wrote_sure hfaith.sure _ _)

/-- A block's bytes are as they were where nothing that they come from has changed. -/
theorem memByte_congr {u t : State} {l : Leaf} {va a : Nat} (hn : near l) (hw : Whole u l va) (hline : (u.basin.look (blockOf l va)).isSome)
    (hbasin : t.basin = u.basin) (hback : SameBacking u t) (ha : a / 512 = va / 512) : memByte t l a = memByte u l a := by
  have hblk := blockOf_eq (l := l) ha
  have hat : t.lineAt l (blockOf l a) = u.lineAt l (blockOf l a) := by
    obtain ⟨x, hx⟩ := Option.isSome_iff_exists.mp hline
    rw [State.lineAt, State.lineAt, hbasin, hblk, hx]
    rfl
  have hsure := lineAt_sure hw
  obtain ⟨-, hf⟩ := lineAt_length (l := l) hw.size
  rw [← hblk] at hsure hf
  rw [memByte_eq (s := u) hn (.inl (by rw [hblk]; exact hline)) (by rw [hblk]; exact hw.size) hsure,
    memByte_eq (s := t) hn (.inl (by rw [hblk, hbasin]; exact hline)) (by rw [hblk, hbasin]; exact hw.size)
      (by rw [hat]; exact hsure.imp_right (Or.imp_right hback.sure)), hat]
  exact State.shown_congr (hback.block _) hsure hf (Nat.mod_lt _ (by norm_num))

/-- A write, whatever other parts of the state change beside it. -/
theorem memWrote_beside {s t : State} {l : Leaf} {va : Nat} {bs : List Byte} (hn : near l) (hw : Whole s l va)
    (ht : t = { s.writeG l va (bs.zipIdx.map fun b => (b.2, b.1)) with
      cores := t.cores, ctls := t.ctls, reqs := t.reqs, parts := t.parts, ports := t.ports, ids := t.ids }) :
    MemWrote s t l va fun a => if va ≤ a then bs[a - va]? else none := by
  obtain ⟨hbytes, hothers, hdram, hpond, hfar, hhost⟩ := memWrote_writeG hn hw (t := s.writeG l va (bs.zipIdx.map fun b => (b.2, b.1))) rfl
  have hline : ((s.writeG l va (bs.zipIdx.map fun b => (b.2, b.1))).basin.look (blockOf l va)).isSome := by
    obtain ⟨p, hp⟩ := State.writeG_eq hn hw.room bs
    rw [hp, Store.look_put_same]
    rfl
  have hwhole := whole_writeG hn hw bs
  have hbasin : t.basin = (s.writeG l va (bs.zipIdx.map fun b => (b.2, b.1))).basin := by rw [ht]
  refine ⟨fun a ha => ?_, fun k hk => by rw [hbasin, hothers k hk], by rw [ht]; exact hdram, by rw [ht]; exact hpond,
    by rw [ht]; exact hfar, by rw [ht]; exact hhost⟩
  rw [memByte_congr hn hwhole hline hbasin (by rw [ht]; exact ⟨rfl, rfl, rfl, rfl, rfl, rfl⟩) ha, hbytes a ha]

end Sys2Proof.Machine
end

section
/-! Peers and the host reach memory and scratchpads (O51). -/

namespace Sys2Proof.Machine

open Sys2Proof Sys2Proof.Said

/-! ### What leaves over a port (R387) -/

theorem State.port_countIn (s : State) (n : Nat) : (s.countIn n).port n = { s.port n with recvd := (s.port n).recvd + 1 } :=
  State.port_setPort_same _ _ _

theorem State.sendOut_out (s : State) (n va : Nat) (bs : List Byte) : ((s.sendOut n va bs).port n).out = (s.port n).out ++ [.data va bs] :=
  congrArg Port.out (State.port_setPort_same _ _ _)

theorem State.sendAck_acks (s : State) (n : Nat) (cause : BitVec 8) : ((s.sendAck n cause).port n).acks = (s.port n).acks ++ [cause] :=
  congrArg Port.acks (State.port_setPort_same _ _ _)

/-! ### A peer's accesses (R163, R387) -/

section Peer

variable {s s1 : State} {n ctx va : Nat} {l : Leaf} {g : List Byte}

/-- A port takes a peer's accesses of a context. -/
structure Takes (s : State) (n ctx : Nat) : Prop where
  peer : n < 16
  up : (s.port n).up = true
  training : (s.port n).training = false
  stopped : s.wh.stopped = false
  credit : (s.ctxOf ctx).traffic ∉ (s.port n).withheld

theorem Takes.free (h : Takes s n ctx) : ¬ (decide (16 ≤ n) || !(s.port n).up || (s.port n).training ||
    (s.port n).withheld.contains (s.ctxOf ctx).traffic || s.wh.stopped) = true := by
  simp [h.up, h.training, h.stopped, h.credit, h.peer]

theorem execPeerAccess_load (h : Takes s n ctx) (hn : near l) (hleaf : s.agentLeaf ctx (va / 32 * 32) 32 .r = (.ok g, l, s1))
    (hgood : (s1.readG l (va / 32 * 32) 32).2.1 = false) :
    ∃ t, exec (.peerAccess n ctx va none none) s = .next t ∧
      (t.port n).out = (s1.port n).out ++ [.data (va / 32 * 32) ((List.range 32).map fun q => memByte s1 l (va / 32 * 32 + q))] := by
  have hexec : execPeerAccess n ctx va none none s =
      .next (((s1.readG l (va / 32 * 32) 32).2.2.countIn n).sendOut n (va / 32 * 32) (s1.readG l (va / 32 * 32) 32).1) := by
    unfold execPeerAccess
    dsimp only
    rw [if_neg h.free, hleaf]
    exact congrArg Host.Outcome.next (if_neg (by rw [hgood]; exact Bool.false_ne_true))
  refine ⟨_, hexec, ?_⟩
  have hport := (OnlyCounted.readG s1 l (va / 32 * 32) 32).port n
  rw [State.sendOut_out, State.port_countIn, hport, s1.readG_bytes hn (by omega)]

theorem execPeerAccess_store (h : Takes s n ctx) (hn : near l) {bs : List Byte} (hbs : bs ≠ []) (hlen : va % 32 + bs.length ≤ 32)
    (hleaf : s.agentLeaf ctx va bs.length .w = (.ok g, l, s1)) (hw : Whole s1 l va) :
    ∃ t, exec (.peerAccess n ctx va (some bs) none) s = .next t ∧ 0 ∈ (t.port n).acks ∧
      MemWrote s1 t l va (fun a => if va ≤ a then bs[a - va]? else none) := by
  have hexec : execPeerAccess n ctx va (some bs) none s =
      .next (((s1.performWrite ctx va l (bs.zipIdx.map fun b => (b.2, b.1))).countIn n).sendAck n 0) := by
    unfold execPeerAccess
    dsimp only
    rw [if_neg h.free, if_neg (by simp [hbs, hlen]), hleaf]
  refine ⟨_, hexec, ?_, ?_⟩
  · rw [State.sendAck_acks]
    exact List.mem_append_right _ (List.mem_singleton_self _)
  · refine memWrote_beside hn hw ?_
    rw [State.sendAck, State.countIn, State.performWrite, (Fired.sectorWritten _ ctx va l).rest]
    rfl

end Peer

/-! ### A peer's atomic (R159, R387) -/

theorem mergedResult_single (op : AOp) (ty : Ty) (old k : Nat) (x : Dword) : mergedResult op ty old [(k, x, 0)] = aopApply op ty old x.toNat 0 := by
  cases op <;> rfl

theorem bytes_bounds (ty : Ty) {va : Nat} (h : va % ty.bytes = 0) : va % 512 + ty.bytes ≤ 512 ∧ ty.bytes ≤ 8 := by
  have hbytes : ty.bytes = 1 ∨ ty.bytes = 2 ∨ ty.bytes = 4 ∨ ty.bytes = 8 := by cases ty <;> decide
  rcases hbytes with hb | hb | hb | hb <;> rw [hb] at h ⊢ <;> omega

theorem toNat_ofNat_natOfBytes {bs : List Byte} (h : bs.length ≤ 8) : (BitVec.ofNat 64 (natOfBytes bs)).toNat = natOfBytes bs := by
  rw [BitVec.toNat_ofNat]
  exact Nat.mod_eq_of_lt (lt_of_lt_of_le (natOfBytes_lt bs) (Nat.pow_le_pow_right (n := 256) (by norm_num) h))

section PeerAtomic

variable {s s1 : State} {n ctx va : Nat} {l : Leaf} {g bs : List Byte} {op : AOp} {ty : Ty}

/-- The word that a peer's atomic meets, and the one that it leaves. -/
def wordMet (s1 : State) (l : Leaf) (va : Nat) (ty : Ty) : Dword := BitVec.ofNat 64 (little ty.bytes fun q => memByte s1 l (va + q))
def wordLeft (s1 : State) (l : Leaf) (va : Nat) (op : AOp) (ty : Ty) (bs : List Byte) : Dword :=
  atomicAny op ty (wordMet s1 l va ty) (BitVec.ofNat 64 (natOfBytes bs)) 0

theorem readG_word (hn : near l) (hal : va % ty.bytes = 0) : natOfBytes (s1.readG l va ty.bytes).1 = (wordMet s1 l va ty).toNat := by
  obtain ⟨hblock, hle⟩ := bytes_bounds ty hal
  rw [s1.readG_bytes hn hblock, wordMet, ← natOfBytes_map_range, toNat_ofNat_natOfBytes (by simpa using hle)]

/-- The bytes of a peer's atomic, written after its read. -/
theorem memWrote_atomic {t : State} (hn : near l) (hw : Whole s1 l va) (hcas : op ≠ .cas) (hty : ty ∈ op.types) (hal : va % ty.bytes = 0)
    (hlen : bs.length = ty.bytes) {k : Nat} (hk : k ≤ ty.bytes)
    (ht : t = { (s1.readG l va ty.bytes).2.2.writeG l va
        ((bytesOfNat k (aopApply op ty (natOfBytes (s1.readG l va ty.bytes).1) (natOfBytes bs) 0)).zipIdx.map fun b => (b.2, b.1)) with
      cores := t.cores, ctls := t.ctls, reqs := t.reqs, parts := t.parts, ports := t.ports, ids := t.ids }) :
    MemWrote s1 t l va fun a => if va ≤ a ∧ a < va + k then some ((wordLeft s1 l va op ty bs >>> (8 * (a - va))).setWidth 8) else none := by
  have hread := State.readG_readAt hn hw ty.bytes
  have hwrote := hread.wrote (memWrote_beside hn hread.whole ht)
  have hbytes : (fun a => if va ≤ a then
      (bytesOfNat k (aopApply op ty (natOfBytes (s1.readG l va ty.bytes).1) (natOfBytes bs) 0))[a - va]? else none) =
      fun a => if va ≤ a ∧ a < va + k then some ((wordLeft s1 l va op ty bs >>> (8 * (a - va))).setWidth 8) else none := by
    funext a
    rw [readG_word hn hal, ← toNat_ofNat_natOfBytes (bs := bs) (by rw [hlen]; exact (bytes_bounds ty hal).2),
      bytesOfNat_aopApply hcas hty _ _ hk]
    by_cases ha : va ≤ a
    · rw [if_pos ha]
      exact if_congr (by omega) rfl rfl
    · rw [if_neg ha, if_neg fun h => ha h.1]
  rw [← hbytes]
  exact hwrote

theorem execPeerAccess_atomic (h : Takes s n ctx) (hcas : op ≠ .cas) (hal : va % ty.bytes = 0)
    (hlen : bs.length = ty.bytes) (hleaf : s.agentLeaf ctx va ty.bytes .rwa = (.ok g, l, s1)) (hgood : (s1.readG l va ty.bytes).2.1 = false) :
    execPeerAccess n ctx va (some bs) (some (op, ty)) s =
      if ty = .bx2 || ty = .hx2 then
        .next ((((s1.readG l va ty.bytes).2.2.peerPacked ctx va l op ty (natOfBytes (s1.readG l va ty.bytes).1) (natOfBytes bs)).countIn n).sendOut n va
          (s1.readG l va ty.bytes).1)
      else
        .next ((((s1.readG l va ty.bytes).2.2.performWrite ctx va l
          ((bytesOfNat ty.bytes (aopApply op ty (natOfBytes (s1.readG l va ty.bytes).1) (natOfBytes bs) 0)).zipIdx.map fun b => (b.2, b.1))).countIn n).sendOut n va
          (s1.readG l va ty.bytes).1) := by
  unfold execPeerAccess
  dsimp only
  rw [if_neg h.free, if_neg (by simp [hal, hcas, hlen]), hleaf]
  dsimp only
  rw [if_neg (by rw [hgood]; exact Bool.false_ne_true), List.take_of_length_le (by omega), List.drop_of_length_le (by omega)]
  rfl

theorem execPeerAccess_plain (h : Takes s n ctx) (hn : near l) (hcas : op ≠ .cas) (hty : ty ∈ op.types) (hal : va % ty.bytes = 0)
    (hlen : bs.length = ty.bytes) (hleaf : s.agentLeaf ctx va ty.bytes .rwa = (.ok g, l, s1)) (hgood : (s1.readG l va ty.bytes).2.1 = false)
    (hw : Whole s1 l va) (hbx : ty ≠ .bx2) (hhx : ty ≠ .hx2) :
    ∃ t, exec (.peerAccess n ctx va (some bs) (some (op, ty))) s = .next t ∧
      (MemWrote s1 t l va fun a => if va ≤ a ∧ a < va + ty.bytes then
        some ((wordLeft s1 l va op ty bs >>> (8 * (a - va))).setWidth 8) else none) ∧
      ∃ z, (t.port n).out = z ++ [.data va ((List.range ty.bytes).map fun q => memByte s1 l (va + q))] := by
  have hexec := execPeerAccess_atomic h hcas hal hlen hleaf hgood
  rw [if_neg (by simp [hbx, hhx])] at hexec
  refine ⟨_, hexec, memWrote_atomic hn hw hcas hty hal hlen (Nat.le_refl _) ?_, ?_⟩
  · rw [State.sendOut, State.countIn, State.performWrite, (Fired.sectorWritten _ ctx va l).rest]
    rfl
  · rw [← s1.readG_bytes hn (bytes_bounds ty hal).1]
    exact ⟨_, State.sendOut_out _ _ _ _⟩

theorem execPeerAccess_packed (h : Takes s n ctx) (hn : near l) (hcas : op ≠ .cas) (hty : ty ∈ op.types) (hal : va % ty.bytes = 0)
    (hlen : bs.length = ty.bytes) (hleaf : s.agentLeaf ctx va ty.bytes .rwa = (.ok g, l, s1)) (hgood : (s1.readG l va ty.bytes).2.1 = false)
    (hw : Whole s1 l va) (hpack : ty = .bx2 ∨ ty = .hx2) :
    ∃ t q, exec (.peerAccess n ctx va (some bs) (some (op, ty))) s = .next t ∧
      ((MemWrote s1 t l va fun a => if va ≤ a ∧ a < va + 2 then
        some ((wordLeft s1 l va op ty bs >>> (8 * (a - va))).setWidth 8) else none) ∧
      ∃ z, (t.port n).out = z ++ [.data va ((List.range ty.bytes).map fun q => memByte s1 l (va + q))]) ∧ q ∈ t.reqs ∧
      q.tgt = .part (partOf va) ∧ q.ctx = ctx ∧ q.src = .gone ∧ q.st = .sent ∧
      q.kind = .atomic op ty [(va, [(0, BitVec.ofNat 64 (natOfBytes bs), 0)])] none 1 [(0, wordMet s1 l va ty)] := by
  have hexec := execPeerAccess_atomic h hcas hal hlen hleaf hgood
  rw [if_pos (by simpa using hpack)] at hexec
  have hword : BitVec.ofNat 64 (natOfBytes (s1.readG l va ty.bytes).1) = wordMet s1 l va ty := by
    rw [readG_word hn hal, BitVec.ofNat_toNat, BitVec.setWidth_eq]
  refine ⟨_, _, hexec, ⟨memWrote_atomic hn hw hcas hty hal hlen (k := 2) (by rcases hpack with rfl | rfl <;> decide) ?_, ?_⟩,
    List.mem_append_right _ (List.mem_singleton_self _), rfl, rfl, rfl, rfl, ?_⟩
  · rw [State.sendOut, State.countIn, State.peerPacked, mergedResult_single, toNat_ofNat_natOfBytes (by rw [hlen]; exact (bytes_bounds ty hal).2),
      State.performWrite, (Fired.sectorWritten _ ctx va l).rest]
    rfl
  · rw [← s1.readG_bytes hn (bytes_bounds ty hal).1]
    exact ⟨_, State.sendOut_out _ _ _ _⟩
  · rw [← hword]

end PeerAtomic

/-! ### A write into a scratchpad (R284, R388) -/

theorem State.storeScr_ports (s : State) (c a : Nat) (bs : List Byte) : (s.storeScr c a bs).ports = s.ports := by
  obtain ⟨u, hu, ht⟩ := (s.writeScr c a bs).phaseCheck_woken c a bs.length
  rw [State.storeScr, ht, hu.rest]
  rfl

/-- A byte of a scratchpad after bytes have been written there. -/
theorem Stored.get {s t : State} {c a : Nat} {bs : List Byte} (h : Stored s t c a bs) (k : Nat) :
    (t.core c).scratch.get 0 k = if a ≤ k ∧ k < a + bs.length then bs.getD (k - a) 0 else (s.core c).scratch.get 0 k := by
  split
  · next hk =>
    obtain ⟨q, rfl⟩ := Nat.exists_eq_add_of_le hk.1
    have hq : q < bs.length := by omega
    rw [h.at hq, Nat.add_sub_cancel_left, List.getD_eq_getElem _ _ hq]
  · next hk => exact h.outside (by omega)

section Scratch

variable {s : State} {n ctx parcel off : Nat} {data : List Byte} {e : Ptt}

theorem execPeerScratchWrite_found (h : Takes s n ctx) (hdata : data ≠ []) (hlen : data.length ≤ 256)
    (hfind : (s.port n).ptt.find? (fun e => e.ctx == ctx && e.parcel == parcel) = some e)
    (hin : off + data.length ≤ (s.parcel e.pid).scrSize) : execPeerScratchWrite n ctx parcel off data 0xFFFF s =
      if e.absent then
        if Config.bounceCap ≤ (s.port n).ring.length then
          .next (s.setPort n { s.port n with withheld := (s.port n).withheld ++ [(s.ctxOf ctx).traffic] })
        else .next (((s.countIn n).setPort n { (s.countIn n).port n with ring := ((s.countIn n).port n).ring ++ [⟨e.pid, off, data, none⟩] }).sendAck n 0)
      else .next (((s.countIn n).enginePut e.pid off data none).sendAck n 0) := by
  have hfree : ¬ (decide (16 ≤ n) || !(s.port n).up || (s.port n).training || (s.port n).withheld.contains (s.ctxOf ctx).traffic ||
      data.isEmpty || decide (256 < data.length) || s.wh.stopped) = true := by
    simp [h.up, h.training, h.stopped, h.credit, h.peer, hdata, hlen]
  unfold execPeerScratchWrite
  dsimp only
  rw [if_neg hfree, hfind]
  dsimp only
  rw [if_neg (by
    rw [bobjOf, if_pos rfl, bobjBad, Bool.or_false, decide_eq_true_eq]
    exact Nat.not_lt.mpr hin)]
  rfl

theorem execPeerScratchWrite_resident (h : Takes s n ctx) (hdata : data ≠ []) (hlen : data.length ≤ 256)
    (hfind : (s.port n).ptt.find? (fun e => e.ctx == ctx && e.parcel == parcel) = some e)
    (hin : off + data.length ≤ (s.parcel e.pid).scrSize) (habs : e.absent = false) (himage : (s.parcel e.pid).image = none) :
    ∃ t, exec (.peerScratchWrite n ctx parcel off data 0xFFFF) s = .next t ∧ (t.port n).acks = (s.port n).acks ++ [0] ∧ SameMemory s t ∧
      ∀ a, (t.core (s.parcel e.pid).core).scratch.get 0 a =
        if (s.parcel e.pid).base + off ≤ a ∧ a < (s.parcel e.pid).base + off + data.length then data.getD (a - ((s.parcel e.pid).base + off)) 0
        else (s.core (s.parcel e.pid).core).scratch.get 0 a := by
  have hexec := execPeerScratchWrite_found h hdata hlen hfind hin
  rw [habs, if_neg Bool.false_ne_true, State.enginePut_eq (t := s.countIn n) himage] at hexec
  have hstored := (s.countIn n).storeScr_stored (s.parcel e.pid).core ((s.parcel e.pid).base + off) data
  refine ⟨_, hexec, ?_, hstored.memory, hstored.get⟩
  rw [State.sendAck_acks, State.port, State.storeScr_ports]
  exact congrArg (·.acks ++ [0]) (State.port_countIn s n)

theorem execPeerScratchWrite_absent (h : Takes s n ctx) (hdata : data ≠ []) (hlen : data.length ≤ 256)
    (hfind : (s.port n).ptt.find? (fun e => e.ctx == ctx && e.parcel == parcel) = some e)
    (hin : off + data.length ≤ (s.parcel e.pid).scrSize) (habs : e.absent = true) :
    ∃ t, exec (.peerScratchWrite n ctx parcel off data 0xFFFF) s = .next t ∧ t.cores = s.cores ∧
      ((s.port n).ring.length < Config.bounceCap →
        (t.port n).acks = (s.port n).acks ++ [0] ∧ (t.port n).ring = (s.port n).ring ++ [⟨e.pid, off, data, none⟩]) ∧
      (Config.bounceCap ≤ (s.port n).ring.length → t = { s with ports := t.ports } ∧
        t.port n = { s.port n with withheld := (s.port n).withheld ++ [(s.ctxOf ctx).traffic] }) := by
  have hexec := execPeerScratchWrite_found h hdata hlen hfind hin
  rw [habs, if_pos rfl] at hexec
  by_cases hfull : Config.bounceCap ≤ (s.port n).ring.length
  · rw [if_pos hfull] at hexec
    exact ⟨_, hexec, rfl, fun hroom => absurd hroom (Nat.not_lt.mpr hfull), fun _ => ⟨rfl, State.port_setPort_same _ _ _⟩⟩
  · rw [if_neg hfull] at hexec
    refine ⟨_, hexec, rfl, fun _ => ?_, fun hroom => absurd hroom hfull⟩
    rw [State.sendAck, State.port_setPort_same, State.port_setPort_same, State.port_countIn]
    exact ⟨rfl, rfl⟩

theorem execPeerScratchWrite_unknown (h : Takes s n ctx) (hdata : data ≠ []) (hlen : data.length ≤ 256)
    (hfind : (s.port n).ptt.find? (fun e => e.ctx == ctx && e.parcel == parcel) = none) :
    ∃ t, exec (.peerScratchWrite n ctx parcel off data 0xFFFF) s = .next t ∧ (t.port n).acks = (s.port n).acks ++ [0x03] ∧ t.cores = s.cores ∧
      t.parcels = s.parcels := by
  have hexec : execPeerScratchWrite n ctx parcel off data 0xFFFF s = .next ((s.countIn n).sendAck n 0x03) := by
    unfold execPeerScratchWrite
    dsimp only
    rw [if_neg (by simp [h.up, h.training, h.stopped, h.credit, h.peer, hdata, hlen]), hfind]
  exact ⟨_, hexec, by rw [State.sendAck_acks, State.port_countIn], rfl, rfl⟩

end Scratch

/-! ### The host's accesses (R163, R359) -/

theorem filterMap_window {α : Type} (f : Nat → α) {a n m : Nat} (h : a + n ≤ m) :
    ((List.range m).filterMap fun o => if decide (a ≤ o) && decide (o < a + n) then some (f o) else none) = (List.range' a n).map f := by
  have hcut : List.range m = List.range' 0 a ++ (List.range' a n ++ List.range' (a + n) (m - (a + n))) := by
    rw [List.range'_append_1, List.range_eq_range']
    have happend := List.range'_append_1 (s := 0) (m := a) (n := n + (m - (a + n)))
    rw [Nat.zero_add] at happend
    rw [happend]
    exact congrArg (List.range' 0) (by omega)
  have hnone : ∀ o, ¬ (a ≤ o ∧ o < a + n) → (if decide (a ≤ o) && decide (o < a + n) then some (f o) else none) = none :=
    fun o ho => if_neg (by simpa using ho)
  have hbefore := List.filterMap_eq_nil_iff.mpr fun o (ho : o ∈ List.range' 0 a) => hnone o (by have := List.mem_range'_1.mp ho; omega)
  have hafter := List.filterMap_eq_nil_iff.mpr fun o (ho : o ∈ List.range' (a + n) (m - (a + n))) =>
    hnone o (by have := List.mem_range'_1.mp ho; omega)
  rw [hcut, List.filterMap_append, List.filterMap_append, hbefore, hafter, List.nil_append, List.append_nil, ← List.filterMap_eq_map]
  refine List.filterMap_congr fun o ho => if_pos ?_
  have := List.mem_range'_1.mp ho
  simp
  omega

/-- Bytes within a sector are one piece. -/
theorem pieces_within {va len : Nat} (hpos : 0 < len) (hlen : va % 32 + len ≤ 32) : pieces va len = [(va, len)] := by
  have hwin := filterMap_window (fun o => (o, (List.replicate len (0 : Byte)).getD (va / 32 * 32 + o - va) 0)) hlen
  have hfun : (fun o => if decide (va ≤ (va / 32 + 0) * 32 + o) && decide ((va / 32 + 0) * 32 + o < va + len) then
        some (o, (List.replicate len (0 : Byte)).getD ((va / 32 + 0) * 32 + o - va) 0) else none) =
      fun o => if decide (va % 32 ≤ o) && decide (o < va % 32 + len) then
        some (o, (List.replicate len (0 : Byte)).getD (va / 32 * 32 + o - va) 0) else none := by
    funext o
    rw [show decide (va ≤ (va / 32 + 0) * 32 + o) = decide (va % 32 ≤ o) from decide_eq_decide.mpr (by omega),
      show decide ((va / 32 + 0) * 32 + o < va + len) = decide (o < va % 32 + len) from decide_eq_decide.mpr (by omega), Nat.add_zero]
  unfold pieces sectorsOf
  dsimp only
  rw [if_neg (by simp; omega), List.length_replicate, show (va + len - 1) / 32 + 1 - va / 32 = 1 by omega]
  simp only [List.range_one, List.map_cons, List.map_nil]
  rw [hfun, hwin]
  obtain ⟨k, rfl⟩ := Nat.exists_eq_succ_of_ne_zero hpos.ne'
  simp [List.range'_succ, Nat.div_add_mod']

section HostAccess

variable {s s1 : State} {va len : Nat} {l : Leaf} {g : List Byte}

/-- A host access within a sector is one piece's. -/
theorem execHostAccess_piece (hap : s.wh.aperture ≠ 0) (hstop : s.wh.stopped = false) (hpos : 0 < len) (hlen : va % 32 + len ≤ 32)
    (hend : va + len ≤ 2 ^ 39) {write : Option (List Byte)} (hwrite : ∀ bs, write = some bs → bs.length = len) :
    execHostAccess va len write s =
      match ((s.countPort 20 0 1).hostPiece va len write).1, write with
      | some bs, none => .next (((s.countPort 20 0 1).hostPiece va len write).2.sendOut 20 va bs)
      | _, _ => .next ((s.countPort 20 0 1).hostPiece va len write).2 := by
  cases write with
  | none =>
    have hfree : ¬ (decide (s.wh.aperture = 0) || decide (len = 0) || decide (2 ^ 39 < va + len) || s.wh.stopped || false) = true := by
      rw [decide_eq_false hap, decide_eq_false hpos.ne', decide_eq_false (Nat.not_lt.mpr hend), hstop]
      exact Bool.false_ne_true
    unfold execHostAccess
    dsimp only
    rw [if_neg hfree, pieces_within hpos hlen]
    simp only [List.foldl_cons, List.foldl_nil, Option.map_none]
    cases ((s.countPort 20 0 1).hostPiece va len none).1 <;> rfl
  | some bs =>
    have hbs := hwrite bs rfl
    have hfree : ¬ (decide (s.wh.aperture = 0) || decide (len = 0) || decide (2 ^ 39 < va + len) || s.wh.stopped || bs.length != len) = true := by
      rw [decide_eq_false hap, decide_eq_false hpos.ne', decide_eq_false (Nat.not_lt.mpr hend), hstop, hbs, bne_self_eq_false]
      exact Bool.false_ne_true
    unfold execHostAccess
    dsimp only
    rw [if_neg hfree, pieces_within hpos hlen]
    simp only [List.foldl_cons, List.foldl_nil, Option.map_some, Nat.sub_self, List.drop_zero, List.take_of_length_le hbs.le]
    cases ((s.countPort 20 0 1).hostPiece va len (some bs)).1 <;> rfl

theorem execHostAccess_read (hap : s.wh.aperture ≠ 0) (hstop : s.wh.stopped = false) (hpos : 0 < len) (hlen : va % 32 + len ≤ 32)
    (hend : va + len ≤ 2 ^ 39) (hn : near l) (hleaf : (s.countPort 20 0 1).agentLeaf s.wh.aperture va len .r = (.ok g, l, s1))
    (hgood : (s1.readG l va len).2.1 = false) :
    ∃ t, exec (.hostAccess va len none) s = .next t ∧
      (t.port 20).out = (s1.port 20).out ++ [.data va ((List.range len).map fun q => memByte s1 l (va + q))] := by
  have hpiece : (s.countPort 20 0 1).hostPiece va len none = (some (s1.readG l va len).1, (s1.readG l va len).2.2) := by
    unfold State.hostPiece
    dsimp only
    rw [show (s.countPort 20 0 1).wh.aperture = s.wh.aperture from rfl, Option.isSome_none, if_neg Bool.false_ne_true, hleaf]
    dsimp only
    rw [if_neg (by rw [hgood]; exact Bool.false_ne_true)]
  have hexec := execHostAccess_piece hap hstop hpos hlen hend (write := none) (fun _ h => nomatch h)
  rw [hpiece] at hexec
  refine ⟨_, hexec, ?_⟩
  have hport := (OnlyCounted.readG s1 l va len).port 20
  rw [State.sendOut_out, hport, s1.readG_bytes hn (by omega)]

theorem execHostAccess_write (hap : s.wh.aperture ≠ 0) (hstop : s.wh.stopped = false) (hpos : 0 < len) (hlen : va % 32 + len ≤ 32)
    (hend : va + len ≤ 2 ^ 39) (hn : near l) {bs : List Byte} (hbs : bs.length = len)
    (hleaf : (s.countPort 20 0 1).agentLeaf s.wh.aperture va len .w = (.ok g, l, s1)) (hw : Whole s1 l va) :
    ∃ t, exec (.hostAccess va len (some bs)) s = .next t ∧ MemWrote s1 t l va (fun a => if va ≤ a then bs[a - va]? else none) := by
  have hpiece : (s.countPort 20 0 1).hostPiece va len (some bs) =
      (some [], s1.performWrite s.wh.aperture va l (bs.zipIdx.map fun b => (b.2, b.1))) := by
    unfold State.hostPiece
    dsimp only
    rw [show (s.countPort 20 0 1).wh.aperture = s.wh.aperture from rfl, Option.isSome_some, if_pos rfl, hleaf]
  have hexec := execHostAccess_piece hap hstop hpos hlen hend (write := some bs) (fun _ h => by cases h; exact hbs)
  rw [hpiece] at hexec
  refine ⟨_, hexec, memWrote_beside hn hw ?_⟩
  rw [State.performWrite, (Fired.sectorWritten _ s.wh.aperture va l).rest]

end HostAccess

/-! ### A line that leaves the Basin (R139 to R141) -/

section Evict

variable {s : State} {blk part frame half : Nat} {x : Line}

/-- The number of a block of HBM gives back its parts. -/
theorem blk_parts (hpart : part < 64) (hframe : frame < 2 ^ 23) (hhalf : half < 2) :
    blkFar ((part * 2 ^ 23 + frame) * 2 + half) = false ∧ blkPart ((part * 2 ^ 23 + frame) * 2 + half) = part ∧
      blkFrame ((part * 2 ^ 23 + frame) * 2 + half) = frame ∧ blkHalf ((part * 2 ^ 23 + frame) * 2 + half) = half := by
  have hfar : blkFar ((part * 2 ^ 23 + frame) * 2 + half) = false := decide_eq_false (by omega)
  refine ⟨hfar, ?_, ?_, ?_⟩
  · rw [blkPart, hfar, if_neg Bool.false_ne_true]
    omega
  · rw [blkFrame, hfar, if_neg Bool.false_ne_true]
    omega
  · rw [blkHalf, hfar, if_neg Bool.false_ne_true]
    omega

/-- Filling a line changes its bytes, and whether it is bad. -/
theorem State.fillLine_keeps (s : State) (blk : Nat) (x : Line) :
    (s.fillLine blk x).1.elide = x.elide ∧ (s.fillLine blk x).1.key = x.key ∧ ((x.filled = true ∨ x.fresh.all id = true) → (s.fillLine blk x).1 = x) := by
  unfold State.fillLine
  split
  · exact ⟨rfl, rfl, fun _ => rfl⟩
  · next h => exact ⟨rfl, rfl, fun hown => absurd (Bool.or_eq_true_iff.mpr hown) h⟩

/-- A dirty line of HBM that is not elided is written back, filled. -/
theorem State.evict_dirty (hline : s.basin.look blk = some x) (hdirty : x.dirty = true) (helide : x.elide = false) (hnear : blkFar blk = false) :
    ∃ e, s.evict blk = { (s.fillLine blk x).2 with
      basin := (s.fillLine blk x).2.basin.erase blk
      elision := e
      dram := writeBytes (s.fillLine blk x).2.dram (dramKey (blkPart blk) (blkFrame blk) (blkHalf blk * 512)) (s.fillLine blk x).1.bytes
      badBlk := (s.fillLine blk x).2.badBlk.set false blk (s.fillLine blk x).1.bad
      blockKey := (s.fillLine blk x).2.blockKey.set 0 blk (s.fillLine blk x).1.key } := by
  have hfill : (if x.fresh.all id = true then (x, s) else s.fillLine blk x) = s.fillLine blk x := by
    split
    · next h => rw [State.fillLine, if_pos (Bool.or_eq_true_iff.mpr (.inr h))]
    · rfl
  have hel : (s.fillLine blk x).1.elide = false := (s.fillLine_keeps blk x).1.trans helide
  unfold State.evict
  rw [hline]
  dsimp only
  rw [hfill, hdirty, Bool.not_true, if_neg Bool.false_ne_true]
  generalize s.fillLine blk x = r at hel
  obtain ⟨y, u⟩ := r
  dsimp only at hel ⊢
  rw [hnear, if_neg Bool.false_ne_true, hel]
  simp only [Bool.false_and, Bool.false_eq_true, if_false]
  exact ⟨_, rfl⟩

/-- A block of code 00 under the key that it is stored under reads as its bytes (R139, R140). -/
theorem State.loadBlock_plain (hnear : blkFar blk = false) (hcode : (s.elisionOf (blkPart blk) (blkFrame blk)).code (blkHalf blk) = 0)
    {key : Nat} (hkey : s.blockKey.get 0 blk = key) {i : Nat} (hi : i < 512) :
    (s.loadBlock blk key).1.getD i 0 = s.dram.get 0 (dramKey (blkPart blk) (blkFrame blk) (blkHalf blk * 512 + i)) := by
  have hbytes : (s.loadBlock blk key).1 =
      (List.range 512).map fun i => s.dram.get 0 (dramKey (blkPart blk) (blkFrame blk) (blkHalf blk * 512 + i)) := by
    unfold State.loadBlock
    dsimp only
    rw [hnear, if_neg Bool.false_ne_true, hcode]
    split
    · next h => cases h
    · next h => cases h
    · next h => cases h
    · rw [if_pos hkey]
  rw [hbytes, List.getD_eq_getElem _ _ (by rw [List.length_map, List.length_range]; exact hi), List.getElem_map, List.getElem_range]

theorem execBasinEvict_spec (hpart : part < 64) (hframe : frame < 2 ^ 23) (hhalf : half < 2)
    (hline : s.basin.look ((part * 2 ^ 23 + frame) * 2 + half) = some x) (hdirty : x.dirty = true) (helide : x.elide = false)
    (hb : x.bytes.length = 512) (hf : x.fresh.length = 512) (htrain : (s.part part).training = false) :
    ∃ t, exec (.basinEvict ((part * 2 ^ 23 + frame) * 2 + half)) s = .next t ∧ t.basin.look ((part * 2 ^ 23 + frame) * 2 + half) = none ∧
      (∀ j, j ≠ (part * 2 ^ 23 + frame) * 2 + half → t.basin.look j = s.basin.look j) ∧ t.cores = s.cores ∧
      t.blockKey.get 0 ((part * 2 ^ 23 + frame) * 2 + half) = x.key ∧
      ((x.filled = true ∨ x.fresh.all id = true) →
        (∀ i, i < 512 → t.dram.get 0 (part * 2 ^ 33 + frame * 1024 + half * 512 + i) = x.bytes.getD i 0) ∧
          t.badBlk.get false ((part * 2 ^ 23 + frame) * 2 + half) = x.bad) ∧
      (x.filled = false → (s.elisionOf part frame).code half = 0 → s.blockKey.get 0 ((part * 2 ^ 23 + frame) * 2 + half) = x.key →
        ∀ i, i < 512 → t.dram.get 0 (part * 2 ^ 33 + frame * 1024 + half * 512 + i) =
          if x.fresh.getD i false then x.bytes.getD i 0 else s.dram.get 0 (part * 2 ^ 33 + frame * 1024 + half * 512 + i)) := by
  obtain ⟨hfar, hbp, hbf, hbh⟩ := blk_parts hpart hframe hhalf
  have hexec : execBasinEvict ((part * 2 ^ 23 + frame) * 2 + half) s = .next (s.evict ((part * 2 ^ 23 + frame) * 2 + half)) := by
    unfold execBasinEvict
    rw [hline]
    dsimp only
    rw [if_neg (show ¬ 2 ^ 60 ≤ (part * 2 ^ 23 + frame) * 2 + half by omega), show ((part * 2 ^ 23 + frame) * 2 + half) / 2 ^ 24 = part by omega,
      htrain, Bool.and_false, if_neg Bool.false_ne_true]
  generalize hk : (part * 2 ^ 23 + frame) * 2 + half = k at *
  obtain ⟨e, hevict⟩ := State.evict_dirty hline hdirty helide hfar
  obtain ⟨hdram, hbasin, -⟩ := s.fillLine_sameMemory k x
  obtain ⟨-, hkey, hown⟩ := s.fillLine_keeps k x
  obtain ⟨hyb, -⟩ := s.fillLine_length (blk := k) hb hf
  have hwritten : ∀ i, i < 512 → (s.evict k).dram.get 0 (part * 2 ^ 33 + frame * 1024 + half * 512 + i) = (s.fillLine k x).1.bytes.getD i 0 := by
    intro i hi
    rw [hevict, List.getD_eq_getElem _ _ (by omega)]
    have hat := get_writeBytes_at (s.fillLine k x).2.dram (dramKey part frame (half * 512)) (s.fillLine k x).1.bytes i (by omega)
    rw [hbp, hbf, hbh]
    exact hat
  refine ⟨_, hexec, ?_, fun j hj => ?_, (SameUnits.evict s k).cores, ?_, fun h => ⟨fun i hi => ?_, ?_⟩, fun hfill hcode hst i hi => ?_⟩
  · rw [hevict]
    exact Store.look_erase_same _ _
  · rw [hevict]
    exact (Store.look_erase_other _ _ _ hj).trans (by rw [hbasin])
  · rw [hevict]
    exact (Store.get_set_same _ _ _ _).trans hkey
  · rw [hwritten i hi, hown h]
  · rw [hevict, ← congrArg Line.bad (hown h)]
    exact Store.get_set_same _ _ _ _
  · rw [hwritten i hi, s.shown_fillLine hb hf hi, State.shown, hfill, Bool.false_or, State.loadBlock_plain hfar (by rw [hbp, hbf, hbh]; exact hcode) hst hi,
      hbp, hbf, hbh]
    simp only [dramKey, Nat.add_assoc]

end Evict

/-- Settles O51: each agent's own lemma. -/
theorem agentsOutsideReachMemory : Obligations.AgentsOutsideReachMemory := by
  refine ⟨fun s s1 n ctx va l hp hup htrain hstop hcredit hn => ?_, fun s n ctx parcel off data hp hup htrain hdata hlen hstop hcredit => ?_,
    fun s s1 va len l g hap hstop hpos hlen hend => ?_, fun s part frame half x hp hf hh hline hdirty helide hb hfr htrain =>
      execBasinEvict_spec hp hf hh hline hdirty helide hb hfr htrain⟩
  · have h : Takes s n ctx := ⟨hp, hup, htrain, hstop, hcredit⟩
    exact ⟨fun g hleaf hgood => execPeerAccess_load h hn hleaf hgood,
      fun g bs hbs hlen hleaf hw => execPeerAccess_store h hn hbs hlen hleaf hw,
      fun g bs op ty hcas hty hal hlen hleaf hgood hw => ⟨execPeerAccess_plain h hn hcas hty hal hlen hleaf hgood hw,
        execPeerAccess_packed h hn hcas hty hal hlen hleaf hgood hw⟩⟩
  · have h : Takes s n ctx := ⟨hp, hup, htrain, hstop, hcredit⟩
    exact ⟨fun e hfind hin => ⟨execPeerScratchWrite_resident h hdata hlen hfind hin, execPeerScratchWrite_absent h hdata hlen hfind hin⟩,
      execPeerScratchWrite_unknown h hdata hlen⟩
  · exact fun hn => ⟨execHostAccess_read hap hstop hpos hlen hend hn, fun bs hbs hleaf hw => execHostAccess_write hap hstop hpos hlen hend hn hbs hleaf hw⟩

end Sys2Proof.Machine
end

section
/-! SUPPORT. The issue of an instruction that uses the scratchpad's banks (R111, R217): its passes come later than without, and everything
else that it reads and leaves is the same. -/

namespace Sys2Proof.Machine

open Sys2Proof Sys2Proof.Said

/-- The issue context of an entry with its passes in other cycles. -/
def State.paced (s : State) (c sl e : Nat) (i : Instr) (p : List (Nat × Nat)) : Iss := { s.iss c sl e i with pass := p }

/-- No pass comes before the cycle of the issue. -/
def Ahead (s : State) (c : Nat) (p : List (Nat × Nat)) : Prop := ∀ q ∈ p, (s.core c).cycle ≤ q.2

section Paced

variable {s s1 : State} {c sl e : Nat} {i : Instr} {p : List (Nat × Nat)}

/-! ### What a paced issue reads -/

theorem Ahead.passAt {cyc : Nat} (hp : Ahead s c p) (hcyc : (s.core c).cycle ≤ cyc) (lane : Nat) : (s.core c).cycle ≤ passAt p cyc lane := by
  unfold Machine.passAt
  cases hf : p.find? fun r => r.1 == lane / 32 with
  | none => exact hcyc
  | some q => exact hp q (List.mem_of_find?_eq_some hf)

theorem Ahead.first (hp : Ahead s c p) : (s.core c).cycle ≤ (s.paced c sl e i p).first := by
  show (s.core c).cycle ≤ (p.head?.map Prod.snd).getD (s.core c).cycle
  cases hf : p.head? with
  | none => exact Nat.le_refl _
  | some q => exact hp q (List.mem_of_mem_head? hf)

theorem paced_rv (h : Clear s c sl e i) (hp : Ahead s c p) (l r : Nat) : (s.paced c sl e i p).rv l r = vreg s c sl e l r :=
  readV_quiet (fun x hx => (h.quiet x hx).trans (hp.passAt (Nat.le_refl _) l)) l r

theorem paced_rs (h : Clear s c sl e i) (hp : Ahead s c p) (r : Nat) : (s.paced c sl e i p).rs r = sreg s c sl e r :=
  readS_quiet (fun x hx => (h.quiet x hx).trans hp.first) r

theorem paced_rv2 (h : Clear s c sl e i) (hp : Ahead s c p) (l r : Nat) : (s.paced c sl e i p).rv2 l r = vpair s c sl e l r := by
  have h1 : (s.paced c sl e i p).t.readV ((s.paced c sl e i p).at l) l r = _ := paced_rv h hp l r
  have h2 : (s.paced c sl e i p).t.readV ((s.paced c sl e i p).at l) l (r + 1) = _ := paced_rv h hp l (r + 1)
  rw [Iss.rv2, Team.readV2, h1, h2, pair_eq, vpair]

theorem paced_rs2 (h : Clear s c sl e i) (hp : Ahead s c p) (r : Nat) : (s.paced c sl e i p).rs2 r = spair s c sl e r := by
  have h1 : (s.paced c sl e i p).t.readS (s.paced c sl e i p).first r = _ := paced_rs h hp r
  have h2 : (s.paced c sl e i p).t.readS (s.paced c sl e i p).first (r + 1) = _ := paced_rs h hp (r + 1)
  rw [Iss.rs2, Team.readS2, h1, h2, pair_eq, spair]

/-- The guard's lanes are the active ones whenever the passes come. -/
theorem guardLanes_eq (h : Clear s c sl e i) (hp : Ahead s c p) :
    guardLanes (team s c sl e) (s.entry c sl e).mask (hdrOf i) (s.core c).cycle p = lanes s c sl e i := by
  rw [guardLanes, lanes, lanesOf, List.filter_filter]
  refine List.filter_congr fun l _ => ?_
  rw [readP_quiet fun x hx => (h.quiet x hx).trans (hp.passAt (Nat.le_refl _) l)]
  simp [active, preg, Bool.and_comm]

theorem paced_act (h : Clear s c sl e i) : (s.paced c sl e i p).act = lanes s c sl e i := act_eq h

/-! ### The passes of a bank instruction -/

/-- The passes with bank cycles come at or after the issue. -/
theorem Iss.delay_eq (h : Clear s c sl e i) (bank : List Nat) :
    ∃ p, Ahead s c p ∧ (s.iss c sl e i).delay bank = s.paced c sl e i p := by
  have hp : Ahead s c ((s.iss c sl e i).delay bank).pass := by
    intro q hq
    obtain ⟨y, -, rfl⟩ := List.mem_map.mp hq
    have hocc : 1 ≤ (s.iss c sl e i).occ := occ_pos _ _
    have hmul : (s.iss c sl e i).occ ≤ (s.iss c sl e i).occ * (y.2 + 1) := Nat.le_mul_of_pos_right _ (Nat.succ_pos _)
    show (s.core c).cycle ≤ (s.core c).cycle + (s.iss c sl e i).occ * (y.2 + 1) - 1 + _
    omega
  refine ⟨_, hp, ?_⟩
  have hact : ((s.iss c sl e i).delay bank).act = (s.iss c sl e i).act := (guardLanes_eq h hp).trans (act_eq h).symm
  show { s.iss c sl e i with pass := ((s.iss c sl e i).delay bank).pass, act := ((s.iss c sl e i).delay bank).act } = _
  rw [hact]
  rfl

theorem Iss.stretched_eq (h : Clear s c sl e i) (bank : Iss → List Nat) :
    ∃ p bs, Ahead s c p ∧ (s.iss c sl e i).stretched bank = (s.paced c sl e i p, bs) := by
  unfold Iss.stretched
  split
  · exact ⟨_, _, Iss.pass_ge s c sl e i, rfl⟩
  · dsimp only
    generalize List.foldl (fun bs k => bs ++ [(bank ((s.iss c sl e i).delay bs)).getD k 0]) [] _ = bs
    obtain ⟨p, hp, hd⟩ := Iss.delay_eq h bs
    exact ⟨p, bs, hp, by rw [hd]⟩

/-- No result is still under way when a later pass reads. -/
theorem paced_early (h : Clear s c sl e i) (hp : Ahead s c p) : (s.paced c sl e i p).early = none := by
  have hfirst : (s.core c).cycle ≤ (s.paced c sl e i p).first := hp.first
  unfold Iss.early
  split
  · rfl
  rw [Option.map_eq_none_iff, List.find?_eq_none]
  intro r hr
  have hq : r.avail ≤ (s.core c).cycle := h.quiet r hr
  have hpass : ∀ j, ((s.paced c sl e i p).pass.any fun q => q.1 == r.lane / 32 &&
      decide (q.2 + j * (rowsOf (s.paced c sl e i p).e.mask).length < r.avail)) = false := by
    intro j
    simp only [List.any_eq_false, Bool.and_eq_true, decide_eq_true_eq, not_and]
    intro q hq' _ hlt
    have := hp q hq'
    omega
  simp only [List.any_eq_true, Bool.and_eq_true, not_exists, not_and, Bool.not_eq_true]
  intro u _ _
  split
  · rfl
  · exact decide_eq_false (by omega)
  · exact decide_eq_false (by omega)
  · exact hpass _

theorem paced_checks (h : Clear s c sl e i) (hst : (streamsOf (op9Of i)).1 = true) (hp : Ahead s c p) :
    (s.paced c sl e i p).checks false false = none := by
  have hundef : (s.paced c sl e i p).undef = false := undef_eq h hst
  have hmarked : (s.paced c sl e i p).marked = none := h.marks
  simp [Iss.checks, hundef, paced_early h hp, hmarked]

/-- Where nothing stops it, an instruction that uses the banks does its own work (R183). -/
theorem teamOnly_banks (h : Clear s c sl e i) (hst : (streamsOf (op9Of i)).1 = true) (bank : Iss → List Nat) (work : Iss → Act) :
    ∃ p bs, Ahead s c p ∧ teamOnly i s never never bank work = .next ((s.paced c sl e i p).finish s bs (work (s.paced c sl e i p))) := by
  obtain ⟨p, bs, hp, hstr⟩ := Iss.stretched_eq h bank
  refine ⟨p, bs, hp, ?_⟩
  have hra : (s.iss c sl e i).e.ra = none := h.plain
  simp only [teamOnly, h.cur, State.issueTeam, hra, hstr, never, paced_checks h hst hp]

/-! ### How it ends -/

/-- The entry goes on at `pc`, at some cycle. -/
def Resumed (x : Iss) (y z : Entry) (pc : Word) : Prop :=
  ∃ till, z = { y with pc := pc, npc := pc, ibuf := none, ustep := 0, till := till, st := .stalled till, brkSkip := false,
                       yielded := y.yielded || x.h.yld }

/-- The entry sleeps for a cause. -/
def Asleep (x : Iss) (y z : Entry) (w : Wait) : Prop :=
  ∃ till, z = { y with npc := x.npc, till := till, st := .asleep w, act := maskOfLanes x.e.mask.length x.act, yielded := y.yielded || x.h.yld }

/-- The charge changes the slot's pipe and the issuing entry, whatever the bank cycles. -/
theorem Iss.charge_resumed (x : Iss) (s1 : State) (bs : List Nat) (pc : Word) :
    OnlyEntry s1 (x.charge s1 bs pc none) x.core x.slot x.entry ∧
      (∀ c' sl' n, (x.charge s1 bs pc none).team c' sl' n = s1.team c' sl' n) ∧
      Resumed x (s1.entry x.core x.slot x.entry) ((x.charge s1 bs pc none).entry x.core x.slot x.entry) pc := by
  unfold Iss.charge
  refine ⟨(s1.onlyEntry_setPipe x.core x.slot _ _ x.entry).trans (State.onlyEntry_setEntry _ _ _ _ _) (by simp), fun c' sl' n => ?_, ?_⟩
  · exact (State.team_setEntry _ _ _ _ _ _ _ _).trans (State.team_setPipe _ _ _ _ _ _ _ _)
  · refine ⟨x.cyc + max 1 (leavesOf (rowsOf x.e.mask) x.occ bs 0x01).length + x.h.stall.toNat, (State.entry_setEntry_same _ _ _ _ _).trans ?_⟩
    rw [State.entry_setPipe]

theorem Iss.charge_asleep (x : Iss) (s1 : State) (bs : List Nat) (w : Wait) :
    OnlyEntry s1 (x.charge s1 bs x.npc (some w)) x.core x.slot x.entry ∧
      (∀ c' sl' n, (x.charge s1 bs x.npc (some w)).team c' sl' n = s1.team c' sl' n) ∧
      Asleep x (s1.entry x.core x.slot x.entry) ((x.charge s1 bs x.npc (some w)).entry x.core x.slot x.entry) w := by
  unfold Iss.charge
  refine ⟨(s1.onlyEntry_setPipe x.core x.slot _ _ x.entry).trans (State.onlyEntry_setEntry _ _ _ _ _) (by simp), fun c' sl' n => ?_, ?_⟩
  · exact (State.team_setEntry _ _ _ _ _ _ _ _).trans (State.team_setPipe _ _ _ _ _ _ _ _)
  · refine ⟨x.cyc + max 1 (leavesOf (rowsOf x.e.mask) x.occ bs 0x01).length + x.h.stall.toNat, (State.entry_setEntry_same _ _ _ _ _).trans ?_⟩
    rw [State.entry_setPipe]

/-- An entry that the work has left with its team, its mask and its stack. -/
structure Kept (s s1 : State) (c sl e : Nat) : Prop where
  team : (s1.entry c sl e).team = (s.entry c sl e).team
  mask : (s1.entry c sl e).mask = (s.entry c sl e).mask
  stack : (s1.entry c sl e).stack = (s.entry c sl e).stack

theorem Kept.of_entry (h : s1.entry c sl e = s.entry c sl e) : Kept s s1 c sl e := ⟨by rw [h], by rw [h], by rw [h]⟩

/-- What the passes of an issue that writes no register commit does not depend on them. -/
theorem Iss.commit_idle_pass (x : Iss) (s : State) (p : List (Nat × Nat)) : Iss.commit { x with pass := p } s {} = x.commit s {} := by
  unfold Iss.commit Iss.busyOf
  simp only [List.foldl_nil, List.map_nil]
  rfl

theorem Iss.finish_go_idle (x : Iss) (s s1 : State) (bs : List Nat) :
    x.finish s bs (.go s1 {}) = x.charge (x.commit s1 {}) bs x.npc none := rfl

/-- An instruction that writes no register of its own goes on. -/
theorem paced_go (bs : List Nat) (hk : Kept s s1 c sl e) :
    OnlyEntry s1 ((s.paced c sl e i p).finish s bs (.go s1 {})) c sl e ∧ Goes s ((s.paced c sl e i p).finish s bs (.go s1 {})) c sl e i ∧
      team ((s.paced c sl e i p).finish s bs (.go s1 {})) c sl e = (s.iss c sl e i).aged (s1.team c sl (s.entry c sl e).team) := by
  obtain ⟨hco, hce, hct⟩ := Iss.commit_idle s s1 c sl e i hk.team
  obtain ⟨hgo, hgt, till, hge⟩ := (s.paced c sl e i p).charge_resumed ((s.iss c sl e i).commit s1 {}) bs (s.iss c sl e i).npc
  rw [Iss.finish_go_idle, show (s.paced c sl e i p).commit s1 {} = (s.iss c sl e i).commit s1 {} from Iss.commit_idle_pass _ s1 p,
    show (s.paced c sl e i p).npc = (s.iss c sl e i).npc from rfl]
  generalize (s.paced c sl e i p).charge ((s.iss c sl e i).commit s1 {}) bs (s.iss c sl e i).npc none = t at hgo hgt hge
  have hent : t.entry c sl e = _ := hge
  rw [show ((s.iss c sl e i).commit s1 {}).entry (s.paced c sl e i p).core (s.paced c sl e i p).slot (s.paced c sl e i p).entry =
    s1.entry c sl e from hce] at hent
  refine ⟨hco.trans hgo (by rw [hce]), ?_, ?_⟩
  · unfold Goes
    rw [hent]
    exact ⟨rfl, rfl, hk.mask, hk.stack⟩
  · rw [Said.team, hent, hgt]
    exact (congrArg (fun n => ((s.iss c sl e i).commit s1 {}).team c sl n) hk.team).trans hct

/-- So does one whose work has no effect. -/
theorem paced_eff (bs : List Nat) : (s.paced c sl e i p).finish s bs (.eff {}) = (s.paced c sl e i p).finish s bs (.go s {}) := rfl

/-- An instruction that falls asleep. -/
theorem paced_sleep (bs : List Nat) (w : Wait) (hy : s1.entry c sl e = s.entry c sl e) :
    OnlyEntry s1 ((s.paced c sl e i p).finish s bs (.sleep s1 w)) c sl e ∧ Sleeps s ((s.paced c sl e i p).finish s bs (.sleep s1 w)) c sl e i w ∧
      team ((s.paced c sl e i p).finish s bs (.sleep s1 w)) c sl e = s1.team c sl (s.entry c sl e).team := by
  obtain ⟨hso, hst, till, hse⟩ := (s.paced c sl e i p).charge_asleep s1 bs w
  have ht : (s.paced c sl e i p).finish s bs (.sleep s1 w) = (s.paced c sl e i p).charge s1 bs (s.paced c sl e i p).npc (some w) := rfl
  rw [ht]
  generalize (s.paced c sl e i p).charge s1 bs (s.paced c sl e i p).npc (some w) = t at hso hst hse
  have hent : t.entry c sl e = _ := hse
  rw [show s1.entry (s.paced c sl e i p).core (s.paced c sl e i p).slot (s.paced c sl e i p).entry = s.entry c sl e from hy] at hent
  refine ⟨hso, ?_, ?_⟩
  · unfold Sleeps
    rw [hent]
    exact ⟨rfl, rfl, rfl, rfl⟩
  · rw [Said.team, hent]
    exact hst _ _ _

end Paced

end Sys2Proof.Machine
end

section
/-! SUPPORT. Addresses of the memory group at an issue (R109, R115, R240, R241), and the requests that a list of groups of lanes sends
(R146, R242). -/

namespace Sys2Proof.Machine

open Sys2Proof Sys2Proof.Said

/-! ### Addresses -/

/-- The fields of an address, from its operands. -/
def addrOf (sp : Space) (sb ix : Bool) (a b : BitVec 8) (off : Int) : AddrF :=
  { sp := sp, sb := sb, ix := ix, a := a.toNat, b := b.toNat, off := off }

section Address

variable {s : State} {c sl e : Nat} {i : Instr} {p : List (Nat × Nat)} {sp : Space} {sb ix : Bool} {a b : BitVec 8} {off : Int}

theorem paced_exact (h : Clear s c sl e i) (hp : Ahead s c p) (l : Nat) :
    (s.paced c sl e i p).exact (addrOf sp sb ix a b off) l = address s c sl e sp sb ix a b off l := by
  have hix : (if ix = true then ((s.paced c sl e i p).rv l b.toNat).toInt else 0) = if ix = true then (vreg s c sl e l b.toNat).toInt else 0 := by
    rw [paced_rv h hp]
  have hbase : (match sb, sp with
      | false, .g => (((s.paced c sl e i p).rv2 l a.toNat).toNat : Int)
      | false, _ => (((s.paced c sl e i p).rv l a.toNat).toNat : Int)
      | true, .g => (((s.paced c sl e i p).rs2 a.toNat).toNat : Int)
      | true, _ => (((s.paced c sl e i p).rs a.toNat).toNat : Int)) =
      if sp = .g then ((if sb then spair s c sl e a.toNat else vpair s c sl e l a.toNat).toNat : Int)
      else ((if sb then sreg s c sl e a.toNat else vreg s c sl e l a.toNat).toNat : Int) := by
    rw [paced_rv2 h hp, paced_rv h hp, paced_rs2 h hp, paced_rs h hp]
    cases sb <;> cases sp <;> rfl
  rw [address, ← hbase, ← hix]
  rfl

theorem paced_ea (h : Clear s c sl e i) (hp : Ahead s c p) (l : Nat) :
    (s.paced c sl e i p).ea (addrOf sp sb ix a b off) l = place sp (address s c sl e sp sb ix a b off l) := by
  rw [← paced_exact h hp]
  rfl

/-- A lane's access that the statements call legal passes the checks (R241, R346). -/
theorem paced_addrTrap (h : Clear s c sl e i) (hp : Ahead s c p) {size : Nat} {k : Right}
    (hlegal : Legal s c sl e i sp (address s c sl e sp sb ix a b off) size k) :
    (s.paced c sl e i p).addrTrap s (addrOf sp sb ix a b off) size size k = none := by
  have hin : ∀ l ∈ (s.paced c sl e i p).act, active s c sl e i l = true := fun l hl => by
    rw [paced_act h] at hl
    exact (mem_lanes l).mp hl
  have hskew : ((s.paced c sl e i p).act.filter fun l => decide ((s.paced c sl e i p).exact (addrOf sp sb ix a b off) l % size ≠ 0)) = [] := by
    refine List.filter_eq_nil_iff.mpr fun l hl => ?_
    rw [paced_exact h hp, decide_eq_true_eq, not_not]
    exact (hlegal l (hin l hl)).1
  have hout : ((s.paced c sl e i p).act.filter fun l => !(s.paced c sl e i p).inRange s (addrOf sp sb ix a b off) size k l) = [] := by
    refine List.filter_eq_nil_iff.mpr fun l hl => ?_
    obtain ⟨-, hrange⟩ := hlegal l (hin l hl)
    rw [Bool.not_eq_true', Bool.not_eq_false]
    unfold Iss.inRange
    rw [paced_ea h hp, paced_exact h hp]
    cases sp with
    | g => exact hrange.1
    | l => exact Bool.and_eq_true_iff.mpr ⟨decide_eq_true hrange.1, decide_eq_true hrange.2⟩
    | c => exact Bool.and_eq_true_iff.mpr ⟨decide_eq_true hrange.1, hrange.2⟩
    | p => exact Bool.and_eq_true_iff.mpr ⟨decide_eq_true hrange.1, decide_eq_true hrange.2⟩
  have hhit : ((s.paced c sl e i p).act.filter fun l => (addrOf sp sb ix a b off).sp == .g &&
      s.watched (s.paced c sl e i p).core ((s.paced c sl e i p).ea (addrOf sp sb ix a b off) l) size) = [] := by
    refine List.filter_eq_nil_iff.mpr fun l hl => ?_
    obtain ⟨-, hrange⟩ := hlegal l (hin l hl)
    rw [paced_ea h hp]
    cases sp with
    | g => exact fun hx => Bool.false_ne_true (hrange.2.symm.trans (Bool.and_eq_true_iff.mp hx).2)
    | l => exact Bool.false_ne_true
    | c => exact Bool.false_ne_true
    | p => exact Bool.false_ne_true
  unfold Iss.addrTrap
  dsimp only
  rw [hskew, hout, hhit]
  rfl

/-- The byte that an access reaches without a message (R109, R115). -/
theorem paced_localByte (h : Clear s c sl e i) (hp : Ahead s c p) (n l : Nat) :
    (s.paced c sl e i p).localByte s (addrOf sp sb ix a b off) n l = nearByte s c sl e sp (address s c sl e sp sb ix a b off l) n := by
  unfold Iss.localByte
  rw [paced_ea h hp]
  cases sp with
  | g => rfl
  | p => rfl
  | l => rfl
  | c =>
    have hplace : place .c (address s c sl e .c sb ix a b off l) = (address s c sl e .c sb ix a b off l).toNat := rfl
    rw [hplace]
    show (match tarn s c sl e (address s c sl e .c sb ix a b off l).toNat n with | some (k, a) => if k = c then some a else none | none => none) =
      (match tarn s c sl e (address s c sl e .c sb ix a b off l).toNat n with | some x => if x.1 = c then some x.2 else none | none => none)
    cases tarn s c sl e (address s c sl e .c sb ix a b off l).toNat n <;> rfl

end Address

/-! ### Groups of lanes (R242) -/

theorem mem_groupLanes {ls : List Nat} {key : Nat → Nat} {g : Nat × Nat × List Nat} :
    g ∈ groupLanes ls key ↔ ∃ l ∈ ls, g = (l / 32, key l, ls.filter fun m => m / 32 == l / 32 && key m == key l) := by
  unfold groupLanes
  simp only [List.mem_map, List.mem_reverse, List.mem_dedup]
  constructor
  · rintro ⟨k, ⟨l, hl, rfl⟩, rfl⟩
    exact ⟨l, hl, rfl⟩
  · rintro ⟨l, hl, rfl⟩
    exact ⟨_, ⟨l, hl, rfl⟩, rfl⟩

/-! ### Requests sent one after another (R146) -/

/-- Requests with their names and their places in the issue order, from a number on. -/
def stamped (n : Nat) (rs : List Req) : List Req := (rs.zipIdx n).map fun r => { r.1 with id := r.2, age := r.2 }

theorem stamped_nil (n : Nat) : stamped n [] = [] := rfl

theorem stamped_cons (n : Nat) (r : Req) (rs : List Req) : stamped n (r :: rs) = { r with id := n, age := n } :: stamped (n + 1) rs := rfl

theorem stamped_append (n : Nat) (rs us : List Req) : stamped n (rs ++ us) = stamped n rs ++ stamped (n + rs.length) us := by
  rw [stamped, List.zipIdx_append, List.map_append]
  rfl

/-- A stamped request is one of those given, but for its name and its place. -/
theorem of_mem_stamped {n : Nat} {rs : List Req} {q : Req} (h : q ∈ stamped n rs) : ∃ r ∈ rs, q = { r with id := q.id, age := q.age } := by
  obtain ⟨y, hy, rfl⟩ := List.mem_map.mp h
  exact ⟨y.1, List.fst_mem_of_mem_zipIdx hy, rfl⟩

theorem exists_mem_stamped (n : Nat) {rs : List Req} {r : Req} (h : r ∈ rs) : ∃ q ∈ stamped n rs, q = { r with id := q.id, age := q.age } := by
  obtain ⟨k, hk, rfl⟩ := List.mem_iff_getElem.mp h
  exact ⟨_, List.mem_map.mpr ⟨(rs[k], n + k), by
    rw [List.mk_mem_zipIdx_iff_le_and_getElem?_sub]
    exact ⟨Nat.le_add_right _ _, by rw [Nat.add_sub_cancel_left, List.getElem?_eq_getElem hk]⟩, rfl⟩, rfl⟩

/-- A state with further requests, in whose cores nothing but the L1 has changed. -/
structure Added (s t : State) (rs : List Req) : Prop where
  rest : t = { s with cores := t.cores, ctls := t.ctls, ids := t.ids, reqs := t.reqs }
  reqs : t.reqs = s.reqs ++ stamped s.ids rs
  ids : t.ids = s.ids + rs.length
  cores : ∀ n, t.core n = { s.core n with l1 := (t.core n).l1 }

namespace Added

theorem refl (s : State) : Added s s [] := ⟨rfl, (List.append_nil _).symm, rfl, fun _ => rfl⟩

theorem trans {s u t : State} {rs us : List Req} (h : Added s u rs) (k : Added u t us) : Added s t (rs ++ us) where
  rest := by rw [k.rest, h.rest]
  reqs := by rw [k.reqs, h.reqs, h.ids, stamped_append, List.append_assoc]
  ids := by rw [k.ids, h.ids, List.length_append, Nat.add_assoc]
  cores n := by rw [k.cores n, h.cores n]

theorem addReq (s : State) (r : Req) : Added s (s.addReq r).2 [r] := ⟨rfl, rfl, rfl, fun _ => rfl⟩

theorem setCache {s t : State} {rs : List Req} (h : Added s t rs) (port : Nat) (m : Store (List Byte)) : Added s (t.setCache port m) rs := by
  unfold State.setCache
  split
  · refine ⟨by rw [h.rest]; rfl, h.reqs, h.ids, fun n => ?_⟩
    rw [State.core_setCore]
    split
    · next hn => rw [hn, h.cores port]
    · exact h.cores n
  · exact ⟨by rw [h.rest]; rfl, h.reqs, h.ids, h.cores⟩

theorem cacheStore {s t : State} {rs : List Req} (h : Added s t rs) (port ctx va : Nat) (bs : List (Nat × Byte)) :
    Added s (t.cacheStore port ctx va bs) rs := by
  unfold State.cacheStore
  split
  · exact h.setCache _ _
  · exact h

theorem slot {s t : State} {rs : List Req} (h : Added s t rs) (c sl : Nat) : t.slot c sl = s.slot c sl := by
  rw [State.slot, State.slot, h.cores c]

theorem entry {s t : State} {rs : List Req} (h : Added s t rs) (c sl e : Nat) : t.entry c sl e = s.entry c sl e := by
  rw [State.entry, State.entry, h.slot]

theorem team {s t : State} {rs : List Req} (h : Added s t rs) (c sl n : Nat) : t.team c sl n = s.team c sl n := by
  rw [State.team, State.team, h.slot]

theorem sameMemory {s t : State} {rs : List Req} (h : Added s t rs) : SameMemory s t := by
  rw [h.rest]
  exact ⟨rfl, rfl, rfl, rfl, rfl⟩

theorem sameScratch {s t : State} {rs : List Req} (h : Added s t rs) : SameScratch s t := fun n => by rw [h.cores n]

/-- Steps that each add one request, one after another. -/
theorem foldl {γ : Type} {s : State} {f : List Nat × State → γ → List Nat × State} {mk : γ → Req}
    (hf : ∀ is u g rs, Added s u rs → ∃ t, f (is, u) g = (is ++ [u.ids], t) ∧ Added u t [mk g]) (gs : List γ) :
    ∃ t, gs.foldl f ([], s) = ((stamped s.ids (gs.map mk)).map Req.id, t) ∧ Added s t (gs.map mk) := by
  have key : ∀ (gs : List γ) (is : List Nat) (u : State) (rs : List Req), Added s u rs →
      ∃ t, gs.foldl f (is, u) = (is ++ (stamped u.ids (gs.map mk)).map Req.id, t) ∧ Added u t (gs.map mk) := by
    intro gs
    induction gs with
    | nil => exact fun is u rs _ => ⟨u, by rw [List.map_nil, stamped_nil, List.map_nil, List.append_nil]; rfl, refl u⟩
    | cons g gs ih =>
      intro is u rs hu
      obtain ⟨v, hstep, hv⟩ := hf is u g rs hu
      obtain ⟨t, hfold, ht⟩ := ih (is ++ [u.ids]) v _ (hu.trans hv)
      refine ⟨t, ?_, hv.trans ht⟩
      rw [List.foldl_cons, hstep, hfold, hv.ids, List.map_cons, stamped_cons, List.map_cons, List.append_assoc]
      rfl
  obtain ⟨t, hfold, ht⟩ := key gs [] s [] (refl s)
  exact ⟨t, hfold, ht⟩

end Added

end Sys2Proof.Machine
end

section
/-! SUPPORT. The bytes that the lanes of a store send (R145, R245), and the requests that carry them. -/

namespace Sys2Proof.Machine

open Sys2Proof Sys2Proof.Said

/-! ### Bytes of several lanes -/

/-- Bytes put from an address on, into a list of bytes by address. -/
def putBytes (m : Store Byte) (a : Nat) (bs : List Byte) : Store Byte := bs.zipIdx.foldl (fun (m : Store Byte) b => Store.put m (a + b.2) b.1) m

theorem look_putBytes (m : Store Byte) (a : Nat) (bs : List Byte) (k : Nat) :
    (putBytes m a bs).look k = if a ≤ k ∧ k < a + bs.length then bs[k - a]? else m.look k := by
  have key : ∀ (bs : List Byte) (n : Nat) (m : Store Byte),
      ((bs.zipIdx n).foldl (fun (m : Store Byte) b => Store.put m (a + b.2) b.1) m).look k =
        if a + n ≤ k ∧ k < a + n + bs.length then bs[k - (a + n)]? else m.look k := by
    intro bs
    induction bs with
    | nil => exact fun n m => (if_neg (by simp)).symm
    | cons b bs ih =>
      intro n m
      rw [List.zipIdx_cons, List.foldl_cons, ih]
      rcases Nat.lt_trichotomy k (a + n) with hlt | rfl | hgt
      · rw [if_neg (by omega), if_neg (by omega), Store.look_put_other _ _ _ _ (by omega)]
      · rw [if_neg (by omega), if_pos (by simp), Store.look_put_same, Nat.sub_self]
        rfl
      · rw [List.length_cons, show k - (a + n) = k - (a + (n + 1)) + 1 by omega, List.getElem?_cons_succ, Store.look_put_other _ _ _ _ (by omega)]
        exact if_congr (by omega) rfl rfl
  exact key bs 0 m

theorem mergeBytes_eq (ls : List Nat) (addr : Nat → Nat) (data : Nat → List Byte) :
    mergeBytes ls addr data = ls.foldl (fun m l => putBytes m (addr l) (data l)) [] := rfl

/-- Lanes that do not write a byte leave it. -/
theorem look_foldl_putBytes {ls : List Nat} {addr : Nat → Nat} {data : Nat → List Byte} {k : Nat}
    (h : ∀ m ∈ ls, ¬ (addr m ≤ k ∧ k < addr m + (data m).length)) (m : Store Byte) :
    (ls.foldl (fun m l => putBytes m (addr l) (data l)) m).look k = m.look k := by
  induction ls generalizing m with
  | nil => rfl
  | cons l ls ih =>
    rw [List.foldl_cons, ih (fun n hn => h n (List.mem_cons_of_mem _ hn)), look_putBytes, if_neg (h l List.mem_cons_self)]

/-- Of the lanes of a list that write a byte, the last gives its value. -/
theorem mem_mergeBytes {ls : List Nat} (hsorted : ls.Pairwise (· < ·)) {addr : Nat → Nat} {data : Nat → List Byte} {l q : Nat} (hl : l ∈ ls)
    (hq : q < (data l).length)
    (hlast : ∀ m ∈ ls, l < m → ¬ (addr m ≤ addr l + q ∧ addr l + q < addr m + (data m).length)) :
    (addr l + q, (data l)[q]) ∈ mergeBytes ls addr data := by
  obtain ⟨pre, post, rfl⟩ := List.append_of_mem hl
  have hafter : ∀ m ∈ post, l < m := fun m hm =>
    (List.pairwise_cons.mp (List.pairwise_append.mp hsorted).2.1).1 m hm
  refine Store.mem_of_look ?_
  rw [mergeBytes_eq, List.foldl_append, List.foldl_cons,
    look_foldl_putBytes fun m hm => hlast m (List.mem_append_right _ (List.mem_cons_of_mem _ hm)) (hafter m hm),
    look_putBytes, if_pos ⟨Nat.le_add_right _ _, Nat.add_lt_add_left hq _⟩, Nat.add_sub_cancel_left, List.getElem?_eq_getElem hq]

theorem lanes_sorted (s : State) (c sl e : Nat) (i : Instr) : (lanes s c sl e i).Pairwise (· < ·) := List.pairwise_lt_range.filter _

theorem flatMap_range_map {α : Type} (g : Nat → Nat → α) (n b : Nat) :
    ((List.range n).flatMap fun j => (List.range b).map (g j)) = (List.range (n * b)).map fun q => g (q / b) (q % b) := by
  induction n with
  | zero => simp
  | succ n ih =>
    rw [List.range_succ, List.flatMap_append, ih, Nat.succ_mul, List.range_add, List.map_append, List.flatMap_cons, List.flatMap_nil,
      List.append_nil, List.map_map]
    refine congrArg _ (List.map_congr_left fun q hq => ?_)
    have hq := List.mem_range.mp hq
    have hpos : 0 < b := by omega
    show g n q = g ((n * b + q) / b) ((n * b + q) % b)
    rw [Nat.mul_comm n b, Nat.mul_add_div hpos, Nat.div_eq_of_lt hq, Nat.add_zero, Nat.mul_add_mod, Nat.mod_eq_of_lt hq]

theorem ofNat_div_pow (z : Dword) (k : Nat) : BitVec.ofNat 8 (z.toNat / 256 ^ k) = (z >>> (8 * k)).setWidth 8 := by
  refine BitVec.eq_of_toNat_eq ?_
  rw [BitVec.toNat_ofNat, BitVec.toNat_setWidth, BitVec.toNat_ushiftRight, Nat.shiftRight_eq_div_pow, pow_mul]
  rfl

/-- Byte `q` of what a lane stores (R245). -/
theorem paced_laneBytes {s : State} {c sl e : Nat} {i : Instr} {p : List (Nat × Nat)} (h : Clear s c sl e i) (hp : Ahead s c p) (ty : Ty) (n : Nat)
    (r : BitVec 8) (l : Nat) : (s.paced c sl e i p).laneBytes ty n r.toNat l = (List.range (n * ty.bytes)).map (stored s c sl e ty r l) := by
  have hval : ∀ j, (if ty.is64 then ((s.paced c sl e i p).rv2 l (r.toNat + 2 * j)).toNat else ((s.paced c sl e i p).rv l (r.toNat + j)).toNat) =
      (if ty.is64 then vpair s c sl e l (r.toNat + 2 * j) else (vreg s c sl e l (r.toNat + j)).setWidth 64 : Dword).toNat := by
    intro j
    rw [paced_rv h hp, paced_rv2 h hp]
    split
    · rfl
    · exact (BitVec.toNat_setWidth_of_le (by decide)).symm
  unfold Iss.laneBytes
  simp only [hval, bytesOfNat, ofNat_div_pow]
  exact flatMap_range_map (fun j k => ((if ty.is64 then vpair s c sl e l (r.toNat + 2 * j) else (vreg s c sl e l (r.toNat + j)).setWidth 64 : Dword) >>>
    (8 * k)).setWidth 8) n ty.bytes

end Sys2Proof.Machine
end

section
/-! SUPPORT. The requests of a store whose lanes name other places than this core's scratchpad (R115, R145, R242, R245). -/

namespace Sys2Proof.Machine

open Sys2Proof Sys2Proof.Said

/-! ### Where the lanes' bytes go -/

section Store

variable (s : State) (c sl e : Nat) (o : Mem)

/-- The sector, Pond partition or core that a lane's request goes to. -/
def storeKey (l : Nat) : Nat :=
  match o.space with
  | .g => place .g (memAt s c sl e o l) / 32 * 32
  | .p => pondPart (memAt s c sl e o l).toNat
  | _ => ((tarn s c sl e (memAt s c sl e o l).toNat (spanOf o)).getD (0, 0)).1

/-- The number of a lane's first byte in its request. -/
def storeOff (l : Nat) : Nat :=
  match o.space with
  | .g => place .g (memAt s c sl e o l) % 32
  | .p => (memAt s c sl e o l).toNat
  | _ => ((tarn s c sl e (memAt s c sl e o l).toNat (spanOf o)).getD (0, 0)).2

/-- The bytes of a lane. -/
def storeData (l : Nat) : List Byte := (List.range (spanOf o)).map (stored s c sl e o.ty o.r l)

/-- The bytes of a group's request. -/
def storeBytes (g : Nat × Nat × List Nat) : List (Nat × Byte) := mergeBytes g.2.2 (storeOff s c sl e o) (storeData s c sl e o)

/-- A group's request. -/
def storeReq (x : Iss) (u : State) (st : ReqSt) (g : Nat × Nat × List Nat) : Req :=
  match o.space with
  | .g => { x.req u (.store (storeBytes s c sl e o g)) (.part (partOf g.2.1)) g.2.1 g.1 g.2.2 with st := st }
  | .p => { x.req u (.store (storeBytes s c sl e o g)) (.pond g.2.1) 0 g.1 g.2.2 with st := st }
  | _ => { x.req u (.store (storeBytes s c sl e o g)) (.bank g.2.1) 0 g.1 g.2.2 with st := st }

end Store

section Send

variable {s u : State} {c sl e : Nat} {i : Instr} {p : List (Nat × Nat)} {o : Mem} {st : ReqSt}

/-- No lane is served on the core. -/
theorem far_lanes (h : Clear s c sl e i) {near : Nat → Bool} (hnear : ∀ l, active s c sl e i l = true → near l = false) :
    (s.paced c sl e i p).act.filter near = [] ∧
      ((s.paced c sl e i p).act.filter fun l => !([] : List Nat).contains l) = lanes s c sl e i := by
  rw [paced_act h]
  refine ⟨List.filter_eq_nil_iff.mpr fun l hl => by rw [hnear l ((mem_lanes l).mp hl)]; exact Bool.false_ne_true, List.filter_eq_self.mpr fun _ _ => rfl⟩

/-- A store none of whose lanes names this core's scratchpad sends a request for each group (R242, R245). -/
theorem paced_sendStore (h : Clear s c sl e i) (hp : Ahead s c p) (hu : o.space = .g ∨ u = s ∧ st = .sent)
    (hpair : (u.launchOf (u.parcel (team s c sl e).pid).lid).grid.pair = false)
    (hfar : ∀ l, active s c sl e i l = true → nearByte s c sl e o.space (memAt s c sl e o l) (spanOf o) = none) :
    ∃ t, (s.paced c sl e i p).sendStore u (memAddr o) o.ty o.count.num o.r.toNat st =
        ((stamped u.ids ((groupLanes (lanes s c sl e i) (storeKey s c sl e o)).map
          (storeReq s c sl e o (s.paced c sl e i p) u st))).map Req.id, t) ∧
      Added u t ((groupLanes (lanes s c sl e i) (storeKey s c sl e o)).map (storeReq s c sl e o (s.paced c sl e i p) u st)) := by
  have hlocal : ∀ l, active s c sl e i l = true →
      ((s.paced c sl e i p).localByte u (memAddr o) (o.count.num * o.ty.bytes) l).isSome = false := by
    intro l hl
    rcases hu with hg | ⟨rfl, -⟩
    · unfold Iss.localByte
      rw [show (memAddr o).sp = o.space from rfl, hg]
      rfl
    · rw [show memAddr o = addrOf o.space o.sb o.ix o.a o.b o.off.toInt from rfl, paced_localByte h hp,
        show nearByte u c sl e o.space (address u c sl e o.space o.sb o.ix o.a o.b o.off.toInt l) (o.count.num * o.ty.bytes) = none from hfar l hl]
      rfl
  obtain ⟨hnone, hall⟩ := far_lanes (p := p) h hlocal
  have hea : ∀ l, (s.paced c sl e i p).ea (memAddr o) l = place o.space (memAt s c sl e o l) := fun l => paced_ea h hp l
  have hdata : (s.paced c sl e i p).laneBytes o.ty o.count.num o.r.toNat = storeData s c sl e o := funext fun l => paced_laneBytes h hp _ _ _ _
  unfold Iss.sendStore
  dsimp only
  rw [hnone, List.foldl_nil, hall, hdata, show (memAddr o).sp = o.space from rfl]
  obtain ⟨sp, ty, count, sb, ix, r, a, b, off⟩ := o
  dsimp only at *
  cases sp with
  | l =>
    have hempty : lanes s c sl e i = [] := List.eq_nil_iff_forall_not_mem.mpr fun l hl => nomatch hfar l ((mem_lanes l).mp hl)
    rw [hempty]
    exact ⟨u, rfl, Added.refl u⟩
  | c =>
    obtain ⟨rfl, rfl⟩ := hu.resolve_left (fun hg => nomatch hg)
    have hat : ∀ l, (u.tarnAt (clusterOf (u.paced c sl e i p).core) (u.paced c sl e i p).p.lid
        ((u.paced c sl e i p).ea (memAddr ⟨.c, ty, count, sb, ix, r, a, b, off⟩) l) (count.num * ty.bytes)).getD (0, 0) =
        (storeKey u c sl e ⟨.c, ty, count, sb, ix, r, a, b, off⟩ l, storeOff u c sl e ⟨.c, ty, count, sb, ix, r, a, b, off⟩ l) := fun l => by
      rw [hea]
      rfl
    simp only [hat]
    exact Added.foldl (fun is v g rs hv => ⟨_, rfl, Added.addReq _ _⟩) _
  | p =>
    obtain ⟨rfl, rfl⟩ := hu.resolve_left (fun hg => nomatch hg)
    have hoff : (u.paced c sl e i p).ea (memAddr ⟨.p, ty, count, sb, ix, r, a, b, off⟩) =
        storeOff u c sl e ⟨.p, ty, count, sb, ix, r, a, b, off⟩ := funext hea
    rw [hoff]
    exact Added.foldl (fun is v g rs hv => ⟨_, rfl, Added.addReq _ _⟩) _
  | g =>
    have hkey : (fun l => (s.paced c sl e i p).ea (memAddr ⟨.g, ty, count, sb, ix, r, a, b, off⟩) l / 32 * 32) =
        storeKey s c sl e ⟨.g, ty, count, sb, ix, r, a, b, off⟩ := funext fun l => congrArg (· / 32 * 32) (hea l)
    have hoff : (fun l => (s.paced c sl e i p).ea (memAddr ⟨.g, ty, count, sb, ix, r, a, b, off⟩) l % 32) =
        storeOff s c sl e ⟨.g, ty, count, sb, ix, r, a, b, off⟩ := funext fun l => congrArg (· % 32) (hea l)
    rw [hkey, hoff]
    refine Added.foldl (fun is v g rs hv => ?_) _
    have hunsigned : ∀ va bs, v.pairWrite (s.paced c sl e i p).t.pid (s.paced c sl e i p).ctx va bs = (true, v) := fun va bs => by
      have hv : (v.launchOf (v.parcel (team s c sl e).pid).lid).grid.pair = false := by rw [hv.rest]; exact hpair
      rw [State.pairWrite, State.signed, show (s.paced c sl e i p).t.pid = (team s c sl e).pid from rfl, hv]
      rfl
    rw [hunsigned]
    dsimp only
    rw [Bool.not_true, if_neg Bool.false_ne_true]
    refine ⟨_, rfl, ?_⟩
    split
    · exact Added.addReq _ _
    · exact (Added.addReq _ _).cacheStore _ _ _ _

end Send

end Sys2Proof.Machine
end

section
/-! Stores to another place, and doorbells (O20). -/

namespace Sys2Proof.Machine

open Sys2Proof Sys2Proof.Said

/-! ### What a lane's request carries -/

/-- A lane's access takes in byte `q` of another lane's, at the same place. -/
def Covers (s : State) (c sl e : Nat) (o : Mem) (l m q : Nat) : Prop :=
  (target s c sl e o.space (memAt s c sl e o m) (spanOf o)).1 = (target s c sl e o.space (memAt s c sl e o l) (spanOf o)).1 ∧
    (target s c sl e o.space (memAt s c sl e o m) (spanOf o)).2 ≤ (target s c sl e o.space (memAt s c sl e o l) (spanOf o)).2 + q ∧
    (target s c sl e o.space (memAt s c sl e o l) (spanOf o)).2 + q < (target s c sl e o.space (memAt s c sl e o m) (spanOf o)).2 + spanOf o

section Carries

variable {s : State} {c sl e : Nat} {i : Instr} {o : Mem} {k : Right}

/-- Where a lane's request goes, by the key and the offset of its group (R115, R144). -/
theorem store_target (hlegal : Legal s c sl e i o.space (memAt s c sl e o) (spanOf o) k) {l : Nat} (hl : active s c sl e i l = true)
    (hfar : nearByte s c sl e o.space (memAt s c sl e o l) (spanOf o) = none) :
    ((target s c sl e o.space (memAt s c sl e o l) (spanOf o)).1 =
        match o.space with
        | .g => .part (partOf (storeKey s c sl e o l))
        | .p => .pond (storeKey s c sl e o l)
        | _ => .bank (storeKey s c sl e o l)) ∧
      (if o.space = .g then (target s c sl e o.space (memAt s c sl e o l) (spanOf o)).2 % 32
        else (target s c sl e o.space (memAt s c sl e o l) (spanOf o)).2) = storeOff s c sl e o l ∧
      (o.space = .g → (target s c sl e o.space (memAt s c sl e o l) (spanOf o)).2 / 32 * 32 = storeKey s c sl e o l) := by
  obtain ⟨-, hrange⟩ := hlegal l hl
  obtain ⟨sp, ty, count, sb, ix, r, a, b, off⟩ := o
  dsimp only at *
  cases sp with
  | l => cases hfar
  | g => exact ⟨rfl, rfl, fun _ => rfl⟩
  | p => exact ⟨rfl, rfl, fun h => nomatch h⟩
  | c =>
    obtain ⟨x, hx⟩ := Option.isSome_iff_exists.mp hrange.2
    unfold target storeKey storeOff
    dsimp only
    rw [show tarn s c sl e (memAt s c sl e ⟨.c, ty, count, sb, ix, r, a, b, off⟩ l).toNat (spanOf ⟨.c, ty, count, sb, ix, r, a, b, off⟩) = some x from hx]
    exact ⟨rfl, rfl, fun h => nomatch h⟩

/-- Of the lanes of one row, the last that writes a byte has its value in a request there (R145). -/
theorem store_carries (hlegal : Legal s c sl e i o.space (memAt s c sl e o) (spanOf o) k)
    (hfar : ∀ l, active s c sl e i l = true → nearByte s c sl e o.space (memAt s c sl e o l) (spanOf o) = none)
    {l q : Nat} (hl : active s c sl e i l = true) (hq : q < spanOf o)
    (hlast : ∀ m, active s c sl e i m = true → l < m → m / 32 = l / 32 → ¬ Covers s c sl e o l m q) :
    ∃ g ∈ groupLanes (lanes s c sl e i) (storeKey s c sl e o), g.2.1 = storeKey s c sl e o l ∧
      (storeOff s c sl e o l + q, stored s c sl e o.ty o.r l q) ∈ storeBytes s c sl e o g := by
  have hlen : ∀ m, (storeData s c sl e o m).length = spanOf o := fun m => by rw [storeData, List.length_map, List.length_range]
  refine ⟨_, mem_groupLanes.mpr ⟨l, (mem_lanes l).mpr hl, rfl⟩, rfl, ?_⟩
  have hmem := mem_mergeBytes (ls := (lanes s c sl e i).filter fun m => m / 32 == l / 32 && storeKey s c sl e o m == storeKey s c sl e o l)
    ((lanes_sorted s c sl e i).filter _) (addr := storeOff s c sl e o) (data := storeData s c sl e o) (l := l) (q := q)
    (List.mem_filter.mpr ⟨(mem_lanes l).mpr hl, by simp⟩) (by rw [hlen]; exact hq) (fun m hm hlt => ?_)
  · rw [show (storeData s c sl e o l)[q]'(by rw [hlen]; exact hq) = stored s c sl e o.ty o.r l q by
      simp only [storeData, List.getElem_map, List.getElem_range]] at hmem
    exact hmem
  · obtain ⟨hm, hsame⟩ := List.mem_filter.mp hm
    have hm := (mem_lanes m).mp hm
    obtain ⟨hrow, hkey⟩ := Bool.and_eq_true_iff.mp hsame
    have hkey : storeKey s c sl e o m = storeKey s c sl e o l := eq_of_beq hkey
    obtain ⟨htl, hol, hsl⟩ := store_target hlegal hl (hfar l hl)
    obtain ⟨htm, hom, hsm⟩ := store_target hlegal hm (hfar m hm)
    have hnot := hlast m hm hlt (eq_of_beq hrow)
    rw [Covers, htm, htl, hkey] at hnot
    rw [hlen, ← hol, ← hom]
    intro hover
    refine hnot ⟨rfl, ?_⟩
    by_cases hg : o.space = .g
    · have hsec := (hsm hg).trans (hkey.trans (hsl hg).symm)
      rw [if_pos hg, if_pos hg] at hover
      omega
    · rw [if_neg hg, if_neg hg] at hover
      exact hover

end Carries

/-! ### The step -/

/-- The requests of a store, in issue order. -/
def storeNews (s : State) (c sl e : Nat) (i : Instr) (o : Mem) (p : List (Nat × Nat)) (u : State) (st : ReqSt) : List Req :=
  stamped u.ids ((groupLanes (lanes s c sl e i) (storeKey s c sl e o)).map (storeReq s c sl e o (s.paced c sl e i p) u st))

section Step

variable {s u t1 t : State} {c sl e : Nat} {i : Instr} {p : List (Nat × Nat)} {o : Mem} {st : ReqSt} {rs : List Req}

theorem storeReq_kind (x : Iss) (g : Nat × Nat × List Nat) : (storeReq s c sl e o x u st g).kind = .store (storeBytes s c sl e o g) := by
  unfold storeReq
  split <;> rfl

theorem storeReq_va (x : Iss) (g : Nat × Nat × List Nat) (hg : o.space = .g) : (storeReq s c sl e o x u st g).va = g.2.1 := by
  simp only [storeReq, hg]
  rfl

theorem storeReq_tgt (x : Iss) (g : Nat × Nat × List Nat) : (storeReq s c sl e o x u st g).tgt =
    match o.space with
    | .g => .part (partOf g.2.1)
    | .p => .pond g.2.1
    | _ => .bank g.2.1 := by
  unfold storeReq
  cases o.space <;> rfl

/-- A request carries its team's name and order (R143, R146). -/
def Mine (s : State) (c sl e : Nat) (st : ReqSt) (r : Req) : Prop :=
  r.src = .team c sl (s.entry c sl e).team ∧ r.port = c ∧ r.owners = [e] ∧ r.pc = (s.entry c sl e).pc ∧ r.st = st ∧ r.ctx = ctx s c sl e

theorem storeReq_mine (g : Nat × Nat × List Nat) : Mine s c sl e st (storeReq s c sl e o (s.paced c sl e i p) u st g) := by
  unfold storeReq
  split <;> exact ⟨rfl, rfl, rfl, rfl, rfl, rfl⟩

theorem mine_stamped (h : ∀ r ∈ rs, Mine s c sl e st r) (n : Nat) : MyRequests s c sl e st (stamped n rs) := by
  intro q hq
  obtain ⟨r, hr, heq⟩ := of_mem_stamped hq
  rw [heq]
  exact h r hr

/-- A state that the requests start from, as the step's state is but for its parcels. -/
structure Base (s u : State) : Prop where
  rest : u = { s with parcels := u.parcels }

/-- A step that has added requests and then changes its entry and its team alone. -/
theorem sent_of_added (hb : Base s u) (ha : Added u t1 rs) (hmine : ∀ r ∈ rs, Mine s c sl e st r) (ho : OnlyEntry t1 t c sl e)
    (hteam : SameTeam s t c sl e) : Said.Sent s t c sl e st (stamped u.ids rs) where
  reqs := by rw [ho.reqs, ha.reqs, show u.reqs = s.reqs by rw [hb.rest]]
  mine := mine_stamped hmine _
  team := hteam
  memory := sameMemory_trans (show SameMemory s u by rw [hb.rest]; exact ⟨rfl, rfl, rfl, rfl, rfl⟩) (sameMemory_trans ha.sameMemory ho.sameMemory)
  scratch n := by rw [ho.scratch n, ha.sameScratch n, show u.core n = s.core n by rw [hb.rest]; rfl]

theorem Base.entry (hb : Base s u) (c sl e : Nat) : u.entry c sl e = s.entry c sl e := by rw [hb.rest]; rfl
theorem Base.team (hb : Base s u) (c sl n : Nat) : u.team c sl n = s.team c sl n := by rw [hb.rest]; rfl

/-- It goes on. -/
theorem added_goes (hb : Base s u) (ha : Added u t1 rs) (hmine : ∀ r ∈ rs, Mine s c sl e st r) (bs : List Nat) :
    Said.Sent s ((s.paced c sl e i p).finish s bs (.go t1 {})) c sl e st (stamped u.ids rs) ∧
      Goes s ((s.paced c sl e i p).finish s bs (.go t1 {})) c sl e i := by
  have hy : t1.entry c sl e = s.entry c sl e := (ha.entry c sl e).trans (hb.entry c sl e)
  obtain ⟨ho, hgo, hteam⟩ := paced_go (i := i) (p := p) bs (Kept.of_entry hy)
  rw [ha.team, hb.team] at hteam
  exact ⟨sent_of_added hb ha hmine ho (sameTeam_of_aged (i := i) hteam), hgo⟩

/-- It falls asleep. -/
theorem added_sleeps (hb : Base s u) (ha : Added u t1 rs) (hmine : ∀ r ∈ rs, Mine s c sl e st r) (bs : List Nat) (w : Wait) :
    Said.Sent s ((s.paced c sl e i p).finish s bs (.sleep t1 w)) c sl e st (stamped u.ids rs) ∧
      Sleeps s ((s.paced c sl e i p).finish s bs (.sleep t1 w)) c sl e i w := by
  have hy : t1.entry c sl e = s.entry c sl e := (ha.entry c sl e).trans (hb.entry c sl e)
  obtain ⟨ho, hsl, hteam⟩ := paced_sleep (i := i) (p := p) bs w hy
  rw [ha.team, hb.team] at hteam
  exact ⟨sent_of_added hb ha hmine ho (sameTeam_of_eq hteam), hsl⟩

end Step


/-! ### The statement -/

section Statement

variable {s : State} {c sl e : Nat} {i : Instr} {o : Mem}

theorem memAddr_eq (o : Mem) : memAddr o = addrOf o.space o.sb o.ix o.a o.b o.off.toInt := rfl

theorem paced_ea_mem {p : List (Nat × Nat)} (h : Clear s c sl e i) (hp : Ahead s c p) (l : Nat) :
    (s.paced c sl e i p).ea (memAddr o) l = place o.space (memAt s c sl e o l) := paced_ea h hp l

/-- The operands of a store, its own work, and its stream. -/
theorem storeOf_exec (hi : storeOf i = some o) : exec i s = storeOp i o s ∧ (streamsOf (op9Of i)).1 = true := by
  cases i with
  | st hd o' =>
    cases hi
    exact ⟨rfl, rfl⟩
  | stShort hd sp d a =>
    cases hi
    exact ⟨rfl, rfl⟩
  | _ => cases hi

theorem stRel_space {hd : Hdr} (hwf : (Instr.stRel hd o).wf = true) : o.space = .g := by
  have hok : o.ok [.g] = true := hwf
  unfold Mem.ok at hok
  simp only [Bool.and_eq_true, List.contains_iff_mem, List.mem_singleton] at hok
  exact hok.1.1.1

/-- The requests that a store sends, as the statement names them. -/
def Carried (s : State) (c sl e : Nat) (i : Instr) (o : Mem) (news : List Req) : Prop :=
  (∀ l q, active s c sl e i l = true → q < spanOf o →
    (∀ m, active s c sl e i m = true → l < m → m / 32 = l / 32 → ¬ Covers s c sl e o l m q) →
    ∃ r bs, r ∈ news ∧ r.kind = .store bs ∧ r.tgt = (target s c sl e o.space (memAt s c sl e o l) (spanOf o)).1 ∧
      (o.space = .g → r.va = (target s c sl e o.space (memAt s c sl e o l) (spanOf o)).2 / 32 * 32) ∧
      ((if o.space = .g then (target s c sl e o.space (memAt s c sl e o l) (spanOf o)).2 % 32
        else (target s c sl e o.space (memAt s c sl e o l) (spanOf o)).2) + q, stored s c sl e o.ty o.r l q) ∈ bs) ∧
  (∀ r ∈ news, ∃ bs, r.kind = .store bs)

theorem storeNews_carried {k : Right} (hlegal : Legal s c sl e i o.space (memAt s c sl e o) (spanOf o) k)
    (hfar : ∀ l, active s c sl e i l = true → nearByte s c sl e o.space (memAt s c sl e o l) (spanOf o) = none)
    (p : List (Nat × Nat)) (u : State) (st : ReqSt) : Carried s c sl e i o (storeNews s c sl e i o p u st) := by
  refine ⟨fun l q hl hq hlast => ?_, fun r hr => ?_⟩
  · obtain ⟨g, hg, hkey, hbytes⟩ := store_carries hlegal hfar hl hq hlast
    obtain ⟨htgt, hoff, hsec⟩ := store_target hlegal hl (hfar l hl)
    obtain ⟨r, hr, heq⟩ := exists_mem_stamped u.ids (List.mem_map.mpr ⟨g, hg, rfl⟩ :
      storeReq s c sl e o (s.paced c sl e i p) u st g ∈ _)
    refine ⟨r, storeBytes s c sl e o g, hr, ?_, ?_, fun hsp => ?_, ?_⟩
    · rw [heq]
      exact storeReq_kind _ g
    · rw [heq, htgt, ← hkey]
      exact storeReq_tgt _ g
    · rw [heq, hsec hsp, ← hkey]
      exact storeReq_va _ g hsp
    · rw [hoff]
      exact hbytes
  · obtain ⟨r', hr', heq⟩ := of_mem_stamped hr
    obtain ⟨g, -, rfl⟩ := List.mem_map.mp hr'
    exact ⟨_, by rw [heq]; exact storeReq_kind _ g⟩

theorem storeReqs_mine (p : List (Nat × Nat)) (u : State) (st : ReqSt) :
    ∀ r ∈ (groupLanes (lanes s c sl e i) (storeKey s c sl e o)).map (storeReq s c sl e o (s.paced c sl e i p) u st), Mine s c sl e st r := by
  intro r hr
  obtain ⟨g, -, rfl⟩ := List.mem_map.mp hr
  exact storeReq_mine g

theorem no_requests (hl : lanes s c sl e i = []) (p : List (Nat × Nat)) (u : State) (st : ReqSt) : storeNews s c sl e i o p u st = [] := by
  rw [storeNews, hl]
  rfl

/-- A store that traps at nothing goes on over the state that its writes leave (R245). -/
theorem storeOp_goes (h : Clear s c sl e i) (hst : (streamsOf (op9Of i)).1 = true)
    (hlegal : Legal s c sl e i o.space (memAt s c sl e o) (spanOf o) .plainW) :
    ∃ p bs, Ahead s c p ∧ storeOp i o s = .next ((s.paced c sl e i p).finish s bs
      (.go ((s.paced c sl e i p).sendStore s (memAddr o) o.ty o.count.num o.r.toNat .sent).2 {})) := by
  obtain ⟨p, bs, hp, hteam⟩ := teamOnly_banks h hst (memBanks s o) (fun x =>
    if x.e.ra.isSome then .eff {}
    else match x.addrTrap s (memAddr o) (o.count.num * o.ty.bytes) (o.count.num * o.ty.bytes) .plainW with
      | some t => .trap t
      | none => .go (x.sendStore s (memAddr o) o.ty o.count.num o.r.toNat .sent).2 {})
  have htrap : (s.paced c sl e i p).addrTrap s (memAddr o) (o.count.num * o.ty.bytes) (o.count.num * o.ty.bytes) .plainW = none :=
    paced_addrTrap (sb := o.sb) (ix := o.ix) (a := o.a) (b := o.b) (off := o.off.toInt) h hp hlegal
  have hra : (s.paced c sl e i p).e.ra = none := h.plain
  rw [hra, htrap] at hteam
  exact ⟨p, bs, hp, hteam⟩

/-- `ST` and its short form, to another place. -/
theorem exec_store_far (h : Clear s c sl e i) (hi : storeOf i = some o) (hpair : (launch s c sl e).grid.pair = false)
    (hlegal : Legal s c sl e i o.space (memAt s c sl e o) (spanOf o) .plainW)
    (hfar : ∀ l, active s c sl e i l = true → nearByte s c sl e o.space (memAt s c sl e o l) (spanOf o) = none) :
    ∃ t news, exec i s = .next t ∧ Said.Sent s t c sl e .sent news ∧ Carried s c sl e i o news ∧ Goes s t c sl e i := by
  obtain ⟨hexec, hst⟩ := storeOf_exec (s := s) hi
  obtain ⟨p, bs, hp, hteam⟩ := storeOp_goes h hst hlegal
  obtain ⟨t1, hsend, hadd⟩ := paced_sendStore (u := s) (o := o) (st := .sent) h hp (.inr ⟨rfl, rfl⟩) hpair hfar
  rw [hsend] at hteam
  obtain ⟨hsent, hgoes⟩ := added_goes (st := .sent) (p := p) (i := i) ⟨rfl⟩ hadd (storeReqs_mine p s .sent) bs
  exact ⟨_, _, hexec.trans hteam, hsent, storeNews_carried hlegal hfar p s .sent, hgoes⟩

/-! ### Releases (R151) -/

variable {p : List (Nat × Nat)}

theorem signals_base (x : Iss) (s : State) : Base s (x.signals s) := ⟨rfl⟩

/-- Signalling leaves every parcel's launch. -/
theorem signals_lid (x : Iss) (s : State) (n : Nat) : ((x.signals s).parcel n).lid = (s.parcel n).lid := by
  rw [Iss.signals, State.parcel_setParcel]
  split
  · next h => rw [h]
  · rfl

/-- Without a doorbell, a release's writes are its stores. -/
theorem paced_releaseWrites (h : Clear s c sl e i) (hp : Ahead s c p) (hg : o.space = .g)
    (hbell : ∀ l, active s c sl e i l = true → s.bellOf (ctx s c sl e) (place .g (memAt s c sl e o l)) = none) (st : ReqSt) :
    (s.paced c sl e i p).releaseWrites ((s.paced c sl e i p).signals s) o st =
      (s.paced c sl e i p).sendStore ((s.paced c sl e i p).signals s) (memAddr o) o.ty o.count.num o.r.toNat st := by
  unfold Iss.releaseWrites
  split
  · next l hact =>
    have hl : active s c sl e i l = true := by
      rw [← mem_lanes, ← paced_act (p := p) h, hact]
      exact List.mem_singleton_self _
    have hnone : ((s.paced c sl e i p).signals s).bellOf (s.paced c sl e i p).ctx ((s.paced c sl e i p).ea (memAddr o) l) = none := by
      rw [paced_ea_mem h hp, hg]
      exact hbell l hl
    dsimp only
    rw [hnone, if_neg (by simp)]
  · rfl

/-- `ST.REL`'s own work where it traps at nothing (R151, R246). -/
theorem execStRel_eq {hd : Hdr} (h : Clear s c sl e (.stRel hd o)) (hlegal : Legal s c sl e (.stRel hd o) o.space (memAt s c sl e o) (spanOf o) .w) :
    ∃ p bs, Ahead s c p ∧ exec (.stRel hd o) s = .next ((s.paced c sl e (.stRel hd o) p).finish s bs
      (if (s.paced c sl e (.stRel hd o) p).act.isEmpty then .eff {}
       else .sleep ((s.paced c sl e (.stRel hd o) p).releaseWrites ((s.paced c sl e (.stRel hd o) p).signals s) o (releaseSt s c sl e)).2
        (releaseWait s c sl e ((s.paced c sl e (.stRel hd o) p).releaseWrites ((s.paced c sl e (.stRel hd o) p).signals s) o (releaseSt s c sl e)).1))) := by
  have hexec : exec (.stRel hd o) s = execStRel hd o s := rfl
  unfold execStRel at hexec
  dsimp only at hexec
  obtain ⟨p, bs, hp, hteam⟩ := teamOnly_banks h rfl (memBanks s o) (fun x =>
    match x.addrTrap s (memAddr o) (o.count.num * o.ty.bytes) (o.count.num * o.ty.bytes) .w with
    | some t => .trap t
    | none =>
      if x.act.isEmpty then .eff {}
      else if s.released x.src x.entry then
        let (ids, s1) := x.releaseWrites (x.signals s) o .sent
        .sleep s1 (.writes ids)
      else
        let (ids, s1) := x.releaseWrites (x.signals s) o .held
        .sleep s1 (.release ids false none))
  have htrap := paced_addrTrap (sb := o.sb) (ix := o.ix) (a := o.a) (b := o.b) (off := o.off.toInt) h hp hlegal
  rw [memAddr_eq, show o.count.num * o.ty.bytes = spanOf o from rfl, htrap] at hteam
  refine ⟨p, bs, hp, (hexec.trans hteam).trans ?_⟩
  dsimp only
  rw [releaseSt, releaseWait]
  simp only [show (s.paced c sl e (.stRel hd o) p).src = .team c sl (s.entry c sl e).team from rfl,
    show (s.paced c sl e (.stRel hd o) p).entry = e from rfl]
  split
  · rfl
  · split <;> rfl

theorem exec_release_far {hd : Hdr} (h : Clear s c sl e (.stRel hd o)) (hpair : (launch s c sl e).grid.pair = false)
    (hlegal : Legal s c sl e (.stRel hd o) o.space (memAt s c sl e o) (spanOf o) .w)
    (hfar : ∀ l, active s c sl e (.stRel hd o) l = true → nearByte s c sl e o.space (memAt s c sl e o l) (spanOf o) = none)
    (hbell : ∀ l, active s c sl e (.stRel hd o) l = true → s.bellOf (ctx s c sl e) (place .g (memAt s c sl e o l)) = none) :
    ∃ t news, exec (.stRel hd o) s = .next t ∧ Said.Sent s t c sl e (releaseSt s c sl e) news ∧ Carried s c sl e (.stRel hd o) o news ∧
      (if lanes s c sl e (.stRel hd o) ≠ [] then Sleeps s t c sl e (.stRel hd o) (releaseWait s c sl e (news.map Req.id))
        else Goes s t c sl e (.stRel hd o)) := by
  obtain ⟨p, bs, hp, hexec⟩ := execStRel_eq h hlegal
  have hg := stRel_space h.wf
  rw [paced_act h] at hexec
  by_cases hl : lanes s c sl e (.stRel hd o) = []
  · rw [hl, if_pos (show List.isEmpty [] = true from rfl), paced_eff] at hexec
    obtain ⟨hsent, hgoes⟩ := added_goes (st := releaseSt s c sl e) (p := p) (i := .stRel hd o) (Base.mk (s := s) rfl) (Added.refl s)
      (fun r hr => nomatch hr) bs
    refine ⟨_, [], hexec, hsent, ?_, by rw [if_neg (not_not.mpr hl)]; exact hgoes⟩
    rw [← no_requests (o := o) hl p s .sent]
    exact storeNews_carried hlegal hfar p s .sent
  · rw [if_neg (show ¬ (lanes s c sl e (.stRel hd o)).isEmpty = true by simpa using hl), paced_releaseWrites h hp hg hbell] at hexec
    obtain ⟨t1, hsend, hadd⟩ := paced_sendStore (u := (s.paced c sl e (.stRel hd o) p).signals s) (o := o) (st := releaseSt s c sl e) h hp (.inl hg)
      (by rw [signals_lid]; exact hpair) hfar
    rw [hsend] at hexec
    dsimp only at hexec
    obtain ⟨hsent, hsleeps⟩ := added_sleeps (st := releaseSt s c sl e) (p := p) (i := .stRel hd o) (signals_base _ s) hadd (storeReqs_mine p _ _) bs
      (releaseWait s c sl e
        ((storeNews s c sl e (.stRel hd o) o p ((s.paced c sl e (.stRel hd o) p).signals s) (releaseSt s c sl e)).map Req.id))
    refine ⟨_, _, hexec, hsent, storeNews_carried hlegal hfar p _ _, ?_⟩
    rw [if_pos hl]
    exact hsleeps

/-- A doorbell (R359). -/
theorem exec_doorbell {hd : Hdr} {l : Nat} (h : Clear s c sl e (.stRel hd o)) (hl : lanes s c sl e (.stRel hd o) = [l]) (hty : o.ty = .b64)
    (hcount : o.count = .x1) (hlegal : Legal s c sl e (.stRel hd o) .g (memAt s c sl e o) 8 .w)
    (hbell : (s.bellOf (ctx s c sl e) (place .g (memAt s c sl e o l))).isSome) :
    ∃ t r, exec (.stRel hd o) s = .next t ∧ Said.Sent s t c sl e (releaseSt s c sl e) [r] ∧
      r.kind = .doorbell (vpair s c sl e l o.r.toNat) ∧ r.va = place .g (memAt s c sl e o l) ∧ r.tgt = .part (partOf r.va) ∧
      Sleeps s t c sl e (.stRel hd o) (releaseWait s c sl e [r.id]) := by
  have hg := stRel_space h.wf
  obtain ⟨p, bs, hp, hexec⟩ := execStRel_eq h (by rw [hg, spanOf, hty, hcount]; exact hlegal)
  have hact : (s.paced c sl e (.stRel hd o) p).act = [l] := (paced_act h).trans hl
  have hea : (s.paced c sl e (.stRel hd o) p).ea (memAddr o) l = place .g (memAt s c sl e o l) := by rw [paced_ea_mem h hp, hg]
  have hwrites : (s.paced c sl e (.stRel hd o) p).releaseWrites ((s.paced c sl e (.stRel hd o) p).signals s) o (releaseSt s c sl e) =
      ([s.ids], (State.addReq ((s.paced c sl e (.stRel hd o) p).signals s)
        { (s.paced c sl e (.stRel hd o) p).req ((s.paced c sl e (.stRel hd o) p).signals s) (.doorbell (vpair s c sl e l o.r.toNat))
          (.part (partOf (place .g (memAt s c sl e o l)))) (place .g (memAt s c sl e o l)) (l / 32) [l] with st := releaseSt s c sl e }).2) := by
    unfold Iss.releaseWrites
    rw [hact]
    dsimp only
    have hbell : (((s.paced c sl e (.stRel hd o) p).signals s).bellOf (s.paced c sl e (.stRel hd o) p).ctx
      (place .g (memAt s c sl e o l))).isSome = true := hbell
    rw [hea, hty, hcount, hbell, if_pos (by decide), paced_rv2 h hp]
    rfl
  rw [hwrites, hact, if_neg (by simp)] at hexec
  obtain ⟨hsent, hsleeps⟩ := added_sleeps (st := releaseSt s c sl e) (p := p) (i := .stRel hd o) (signals_base _ s)
    (Added.addReq ((s.paced c sl e (.stRel hd o) p).signals s)
        { (s.paced c sl e (.stRel hd o) p).req ((s.paced c sl e (.stRel hd o) p).signals s) (.doorbell (vpair s c sl e l o.r.toNat))
          (.part (partOf (place .g (memAt s c sl e o l)))) (place .g (memAt s c sl e o l)) (l / 32) [l] with st := releaseSt s c sl e })
    (fun r hr => by rw [List.mem_singleton.mp hr]; exact ⟨rfl, rfl, rfl, rfl, rfl, rfl⟩) bs (releaseWait s c sl e [s.ids])
  exact ⟨_, _, hexec, hsent, rfl, rfl, rfl, hsleeps⟩

end Statement

/-- Settles O20: a store's requests by groups of lanes, in issue order; a release's over the state in which its parcel has signalled. -/
theorem storesSendOrRingTheDoorbell : Obligations.StoresSendOrRingTheDoorbell := by
  refine ⟨fun s c sl e i o rel hi h hpair hlegal hfar => ?_, fun s c sl e l hd o h hl hty hcount hlegal hbell =>
    exec_doorbell h hl hty hcount hlegal hbell⟩
  cases rel with
  | false =>
    obtain ⟨t, news, hexec, hsent, ⟨hcarried, hkinds⟩, hgoes⟩ := exec_store_far h hi hpair hlegal fun l hl => (hfar l hl).1
    exact ⟨t, news, hexec, hsent, hcarried, hkinds, hgoes⟩
  | true =>
    obtain ⟨hd, rfl⟩ := hi
    obtain ⟨t, news, hexec, hsent, ⟨hcarried, hkinds⟩, hend⟩ := exec_release_far h hpair hlegal (fun l hl => (hfar l hl).1)
      fun l hl => (hfar l hl).2 rfl
    refine ⟨t, news, hexec, hsent, hcarried, hkinds, ?_⟩
    simpa using hend

end Sys2Proof.Machine
end

section
/-! Stores to the own scratchpad (O19). -/

namespace Sys2Proof.Machine

open Sys2Proof Sys2Proof.Said

/-! ### Bytes written in a scratchpad, lane by lane -/

/-- Nothing but one core's scratchpad has changed, and sleepers that it has woken. -/
structure Poked (s t : State) (c : Nat) : Prop where
  rest : t = { s with cores := t.cores, ctls := t.ctls }
  teams : ∀ c' sl n, t.team c' sl n = s.team c' sl n
  kept : ∀ c' sl e, Kept s t c' sl e
  others : ∀ n, n ≠ c → (t.core n).scratch = (s.core n).scratch

namespace Poked

theorem refl (s : State) (c : Nat) : Poked s s c := ⟨rfl, fun _ _ _ => rfl, fun _ _ _ => ⟨rfl, rfl, rfl⟩, fun _ _ => rfl⟩

theorem trans {s u t : State} {c : Nat} (h : Poked s u c) (k : Poked u t c) : Poked s t c where
  rest := by rw [k.rest, h.rest]
  teams c' sl n := (k.teams c' sl n).trans (h.teams c' sl n)
  kept c' sl e := ⟨(k.kept c' sl e).team.trans (h.kept c' sl e).team, (k.kept c' sl e).mask.trans (h.kept c' sl e).mask,
    (k.kept c' sl e).stack.trans (h.kept c' sl e).stack⟩
  others n hn := (k.others n hn).trans (h.others n hn)

/-- A sleeper that is woken keeps its team, its mask and its stack. -/
theorem kept_woken {s u : State} (hu : Woken s u) (c sl e : Nat) : Kept s u c sl e := by
  rcases hu.entries c sl e with he | ⟨-, he⟩
  · exact Kept.of_entry he
  · refine ⟨?_, ?_, ?_⟩ <;> rw [he, Entry.woken] <;> split <;> rfl

theorem storeScr (s : State) (c a : Nat) (bs : List Byte) : Poked s (s.storeScr c a bs) c := by
  obtain ⟨u, hu, ht⟩ := (s.writeScr c a bs).phaseCheck_woken c a bs.length
  have hcore : ∀ n, (s.storeScr c a bs).core n = u.core n := fun n => by rw [State.storeScr, ht]; rfl
  have hslot : ∀ c' sl, (s.storeScr c a bs).slot c' sl = u.slot c' sl := fun c' sl => by rw [State.slot, hcore]; rfl
  have hold : ∀ c' sl, (s.writeScr c a bs).slot c' sl = s.slot c' sl := fun c' sl => by rw [State.slot, State.slots_writeScr]; rfl
  refine ⟨?_, fun c' sl n => ?_, fun c' sl e => ?_, fun n hn => ?_⟩
  · rw [State.storeScr, ht, hu.rest]
    rfl
  · rw [State.team, hslot, ← State.team, hu.teams, State.team, hold, ← State.team]
  · obtain ⟨hteam, hmask, hstack⟩ := kept_woken hu c' sl e
    have hent : (s.storeScr c a bs).entry c' sl e = u.entry c' sl e := by rw [State.entry, State.entry, hslot]
    have hwas : (s.writeScr c a bs).entry c' sl e = s.entry c' sl e := by rw [State.entry, State.entry, hold]
    rw [hwas] at hteam hmask hstack
    exact ⟨by rw [hent, hteam], by rw [hent, hmask], by rw [hent, hstack]⟩
  · rw [hcore, hu.scratch, State.writeScr, State.core_setCore, if_neg hn]

end Poked

/-- A scratchpad after the writes of some lanes: a byte is the last lane's that writes it. -/
def lastByte (near : Nat → Nat) (data : Nat → List Byte) (ls : List Nat) (old : Nat → Byte) (a : Nat) : Byte :=
  match ls.reverse.find? fun l => decide (near l ≤ a) && decide (a < near l + (data l).length) with
  | some l => (data l).getD (a - near l) 0
  | none => old a

theorem foldl_storeScr {s : State} {c : Nat} {near : Nat → Nat} {data : Nat → List Byte} {f : State → Nat → State} (ls : List Nat)
    (hf : ∀ u l, l ∈ ls → Poked s u c → f u l = u.storeScr c (near l) (data l)) :
    Poked s (ls.foldl f s) c ∧ ∀ a, ((ls.foldl f s).core c).scratch.get 0 a = lastByte near data ls (fun a => (s.core c).scratch.get 0 a) a := by
  induction ls using List.reverseRecOn with
  | nil => exact ⟨Poked.refl s c, fun _ => rfl⟩
  | append_singleton ls l ih =>
    obtain ⟨hp, hbytes⟩ := ih fun u m hm => hf u m (List.mem_append_left _ hm)
    rw [List.foldl_append, List.foldl_cons, List.foldl_nil, hf _ l (List.mem_append_right _ (List.mem_singleton_self _)) hp]
    refine ⟨hp.trans (Poked.storeScr _ _ _ _), fun a => ?_⟩
    rw [(State.storeScr_stored _ c (near l) (data l)).get, hbytes, lastByte, lastByte, List.reverse_append, List.reverse_singleton, List.singleton_append]
    by_cases ha : near l ≤ a ∧ a < near l + (data l).length
    · rw [if_pos ha, List.find?_cons_of_pos (by simpa using ha)]
    · rw [if_neg ha, List.find?_cons_of_neg (by simpa using ha)]

/-! ### The statement -/

/-- The byte of the own scratchpad that a lane's store begins at. -/
def ownByte (s : State) (c sl e : Nat) (o : Mem) (l : Nat) : Nat := (nearByte s c sl e o.space (memAt s c sl e o l) (spanOf o)).getD 0

section Own

variable {s : State} {c sl e : Nat} {i : Instr} {o : Mem} {p : List (Nat × Nat)}

/-- Every lane is served on the core. -/
theorem near_lanes (h : Clear s c sl e i) {near : Nat → Bool} (hnear : ∀ l, active s c sl e i l = true → near l = true) :
    (s.paced c sl e i p).act.filter near = lanes s c sl e i ∧
      ((s.paced c sl e i p).act.filter fun l => !(lanes s c sl e i).contains l) = [] := by
  rw [paced_act h]
  refine ⟨List.filter_eq_self.mpr fun l hl => hnear l ((mem_lanes l).mp hl), List.filter_eq_nil_iff.mpr fun l hl => ?_⟩
  rw [List.contains_iff_mem.mpr hl]
  exact Bool.false_ne_true

/-- An access reaches the same byte while only scratchpads change. -/
theorem Poked.localByte {u : State} (hu : Poked s u c) (h : Clear s c sl e i) (hp : Ahead s c p) (l : Nat) :
    (s.paced c sl e i p).localByte u (memAddr o) (o.count.num * o.ty.bytes) l =
      nearByte s c sl e o.space (memAt s c sl e o l) (spanOf o) := by
  have hs : (s.paced c sl e i p).localByte s (memAddr o) (o.count.num * o.ty.bytes) l = nearByte s c sl e o.space (memAt s c sl e o l) (spanOf o) :=
    paced_localByte h hp _ l
  rw [← hs, hu.rest]
  rfl

theorem paced_sendStore_own (h : Clear s c sl e i) (hp : Ahead s c p)
    (hnear : ∀ l, active s c sl e i l = true → (nearByte s c sl e o.space (memAt s c sl e o l) (spanOf o)).isSome) :
    Poked s ((s.paced c sl e i p).sendStore s (memAddr o) o.ty o.count.num o.r.toNat .sent).2 c ∧
      ∀ a, (((s.paced c sl e i p).sendStore s (memAddr o) o.ty o.count.num o.r.toNat .sent).2.core c).scratch.get 0 a =
        lastByte (ownByte s c sl e o) (storeData s c sl e o) (lanes s c sl e i) (fun a => (s.core c).scratch.get 0 a) a := by
  obtain ⟨hall, hnone⟩ := near_lanes (p := p) h
    (near := fun l => ((s.paced c sl e i p).localByte s (memAddr o) (o.count.num * o.ty.bytes) l).isSome) fun l hl => by
      rw [(Poked.refl s c).localByte h hp]
      exact hnear l hl
  have hdata : (s.paced c sl e i p).laneBytes o.ty o.count.num o.r.toNat = storeData s c sl e o := funext fun l => paced_laneBytes h hp _ _ _ _
  have hfold := foldl_storeScr (s := s) (c := c) (near := ownByte s c sl e o) (data := storeData s c sl e o)
    (f := fun u l => u.storeScr (s.paced c sl e i p).core (((s.paced c sl e i p).localByte u (memAddr o) (o.count.num * o.ty.bytes) l).getD 0)
      (storeData s c sl e o l)) (lanes s c sl e i) fun u l _ hu => by
      rw [hu.localByte h hp]
      rfl
  have hsend : ((s.paced c sl e i p).sendStore s (memAddr o) o.ty o.count.num o.r.toNat .sent).2 =
      (lanes s c sl e i).foldl (fun u l => u.storeScr (s.paced c sl e i p).core
        (((s.paced c sl e i p).localByte u (memAddr o) (o.count.num * o.ty.bytes) l).getD 0) (storeData s c sl e o l)) s := by
    unfold Iss.sendStore
    dsimp only
    rw [hall, hnone, hdata]
    split <;> rfl
  rw [hsend]
  exact hfold

end Own

/-- Settles O19: the lanes' writes one after another, in ascending lane order. -/
theorem storeToOwnScratchpad : Obligations.StoreToOwnScratchpad := by
  intro s c sl e i o near hi h hlegal hnear
  obtain ⟨hexec, hst⟩ := storeOf_exec (s := s) hi
  obtain ⟨p, bs, hp, hteam⟩ := storeOp_goes h hst hlegal
  obtain ⟨hpoked, hbytes⟩ := paced_sendStore_own h hp hnear
  obtain ⟨ho, hgoes, ht⟩ := paced_go (i := i) (p := p) bs (hpoked.kept c sl e)
  rw [hpoked.teams] at ht
  refine ⟨_, hexec.trans hteam, hgoes, sameTeam_of_aged (i := i) ht, sameMemory_trans ?_ ho.sameMemory, ?_, fun n hn => ?_, fun a => ?_⟩
  · rw [hpoked.rest]
    exact ⟨rfl, rfl, rfl, rfl, rfl⟩
  · rw [ho.reqs, hpoked.rest]
  · rw [ho.scratch, hpoked.others n hn]
  · rw [ho.scratch, hbytes, lastByte]
    have hlen : ∀ l, (storeData s c sl e o l).length = spanOf o := fun l => by rw [storeData, List.length_map, List.length_range]
    simp only [hlen]
    change _ = match (lanes s c sl e i).reverse.find? (fun l => decide (ownByte s c sl e o l ≤ a) && decide (a < ownByte s c sl e o l + spanOf o)) with
      | some l => stored s c sl e o.ty o.r l (a - ownByte s c sl e o l)
      | none => (s.core c).scratch.get 0 a
    cases hfind : (lanes s c sl e i).reverse.find? (fun l => decide (ownByte s c sl e o l ≤ a) && decide (a < ownByte s c sl e o l + spanOf o)) with
    | none => rfl
    | some l =>
      have hcover := List.find?_some hfind
      simp only [Bool.and_eq_true, decide_eq_true_eq] at hcover
      dsimp only
      rw [List.getD_eq_getElem _ _ (by rw [hlen]; exact Nat.sub_lt_left_of_lt_add hcover.1 hcover.2)]
      simp only [storeData, List.getElem_map, List.getElem_range]

end Sys2Proof.Machine
end

section
/-! Core 256 is none of the device's cores (R12): the port of that number is cluster 0's control core, so that a fence there empties a data
cache and no L1. -/

namespace Sys2Proof.Machine

open Sys2Proof Sys2Proof.Said

/-- A sub-team of one row on core 256, whose L1 holds a sector. -/
def beyondCores : State :=
  { State.reset with
    cores := [(256, { l1 := [(0, [])], slots := [(0, { entries := [(0, { mask := [1] })], teams := [(0, {})] })] })]
    cur := .team 256 0 0 }

/-- An unguarded `FENCE.ACQ`. -/
def plainFence : Instr := .fenceAcq { pred := 0, neg := false, stall := 0, yld := false }

theorem beyondCores_clear : Clear beyondCores 256 0 0 plainFence where
  cur := rfl
  plain := rfl
  wf := by decide +kernel
  quiet := by decide +kernel
  regs := by decide +kernel
  marks := by decide +kernel

/-- The L1 of core 256 after an outcome. -/
def l1After : Out → Option (Store (List Byte))
  | .next t => some (t.core 256).l1
  | _ => none

theorem beyondCores_keeps_l1 : l1After (exec plainFence beyondCores) = some [(0, [])] := by decide +kernel

/-- Refutes O24: nothing bounds the core's number by the device's 256 cores, and from 256 on a port is a control core's. -/
theorem not_fencesWaitInBothStreams : ¬ Obligations.FencesWaitInBothStreams := by
  unfold Obligations.FencesWaitInBothStreams
  rintro ⟨hteam, -⟩
  obtain ⟨t, ht, -, -, -, hend⟩ := hteam beyondCores 256 0 0 plainFence true false (.inl ⟨_, rfl, rfl, rfl⟩) beyondCores_clear
    (by decide +kernel)
  rw [if_pos (by decide +kernel)] at hend
  have hl1 : (t.core 256).l1 = [] := hend.2
  have hkept := beyondCores_keeps_l1
  rw [ht, l1After, hl1] at hkept
  cases hkept

end Sys2Proof.Machine
end

section
/-! An inbound copy of a parcel that is switched out goes on (R386), but not by a LOAD_DATA_RETURN: that event is for requests of parcels on
a core. -/

namespace Sys2Proof.Machine

open Sys2Proof Sys2Proof.Said

/-- An inbound copy of 4 bytes of the Pond region of context 0, of the switched-out parcel 0. -/
def awayCopy : Req := { emptyStore with kind := .copyIn 0 [(0, 0, 4)], src := .away 0 0, tgt := .pond 0 }

/-- The copy alone is under way. -/
def awayState : State := { State.reset with reqs := [awayCopy] }

theorem awayState_place : AtPlace awayState awayCopy where
  named := rfl
  turn := by decide +kernel
  tgt := .inl ⟨0, rfl⟩

/-- Refutes O41: the clauses on inbound copies leave open whose copy it is, and that of a switched-out parcel stays as it is. -/
theorem not_loadDataArrives : ¬ Obligations.LoadDataArrives := by
  unfold Obligations.LoadDataArrives
  rintro ⟨-, -, -, hplace⟩
  obtain ⟨-, -, hcopy⟩ := hplace awayState awayCopy awayState_place
  obtain ⟨t, ht, -, -, -, hperformed⟩ := hcopy 0 0 0 4 rfl
  have hstays : exec (.loadDataReturn awayCopy.id) awayState = .next awayState := rfl
  obtain rfl : awayState = t := by injection hstays.symm.trans ht
  obtain ⟨q, hq, -, -, hkind⟩ := hperformed (by decide +kernel)
  obtain rfl : q = awayCopy := List.mem_singleton.mp hq
  cases hkind

end Sys2Proof.Machine
end

section
/-! An atomic at a bank by a team of the state `twiceState`, in which entry 0 is listed twice: the end of the atomic fuses the entry that a
search finds there, and its spilled join entry is read back through the Basin. -/

namespace Sys2Proof.Machine

open Sys2Proof Sys2Proof.Said

/-- A reduction of one lane at word 0 of core 0's bank, by team 0 of slot 0. -/
def bankRed : Req := { emptyStore with kind := .atomic .add .n32 [(0, [(0, 1, 0)])] none 0 [] }

/-- `twiceState` with the reduction under way. -/
def twiceRedState : State := { twiceState with reqs := [bankRed] }

theorem twiceRedState_place : AtPlace twiceRedState bankRed where
  named := rfl
  turn := by decide +kernel
  tgt := .inr ⟨0, rfl⟩

theorem twiceRedState_noJoin : NoJoin twiceRedState 0 0 0 := by
  show ∀ y ∈ [(0, joinedEntry), (0, ({ team := 0 } : Entry))], y.2.team = 0 → y.2.st ≠ .atJoin
  decide +kernel

theorem twiceRedState_fills_basin : (basinAfter (exec (.atomicPerform 1) twiceRedState)).map List.length = some 1 := by
  decide +kernel

/-- Refutes O43: where the entries of a slot are not listed at distinct numbers, an atomic at a bank may fuse a join all the same, and
memory's caches change with it. -/
theorem not_atomicsArePerformed : ¬ Obligations.AtomicsArePerformed := by
  unfold Obligations.AtomicsArePerformed
  rintro ⟨-, hplace⟩
  obtain ⟨hword, -⟩ := hplace twiceRedState bankRed .add .n32 0 [(0, 1, 0)] [] none 0 [] 0 0 0 twiceRedState_place rfl rfl
    twiceRedState_noJoin (by decide) (by decide) (fun d hd => nomatch hd) (by decide)
  obtain ⟨t, ht, -, ⟨-, -, hbasin, -⟩, -⟩ := hword ⟨rfl, .inr ⟨0, rfl⟩⟩
  have hfilled := twiceRedState_fills_basin
  rw [show exec (.atomicPerform 1) twiceRedState = .next t from ht, basinAfter, hbasin] at hfilled
  cases hfilled

end Sys2Proof.Machine
end

section
/-! A LAUNCH of a context with a LEASED window whose page tables cannot be read while their stack retrains (R375, R410): it passes its checks
and waits. -/

namespace Sys2Proof.Machine

open Sys2Proof Sys2Proof.Said

/-- A LAUNCH packet with the default launch record of kernel 0 (R361). -/
def launchPacket : Nat := 1 + 2 ^ 179

/-- Context 0 reads page 2 of the expander and leases page 0. -/
def leasingCtx : Ctx :=
  { desc := { pooln := 1 }
    wins := [(0, { base := 2, size := 1, r := true, cls := 2, v := true }), (1, { base := 0, size := 1, r := true, v := true })] }

/-- Queue 0 is resident, its ring at page 2 with one packet. The context's page tables lie in a partition that retrains. -/
def leasingState : State :=
  { State.reset with
    ctxs := [(0, leasingCtx)]
    kernels := [(0, { Kernel.none with vers := [{ present := true }] })]
    queues := [(0, { base := 0x20000, wptr := 1, st := .resident 0 })]
    parts := [(partOf 0, { training := true }), (partOf 0x20000, { tlb := [(tlbKey 0 0x20000, farLeaf)] })]
    farMem := writeBytes [] 0 (bytesOfNat 64 launchPacket) }

/-- The state once the packet has been read. -/
def leasingRead : State := (leasingState.nextPacket 0).2

theorem leasingState_packet : leasingState.nextPacket 0 = (some launchPacket, leasingRead) :=
  Prod.ext (show (leasingState.nextPacket 0).1 = some launchPacket by decide +kernel) rfl

/-- RPTR of queue 0 after an outcome. -/
def rptrAfter : Out → Option Nat
  | .next t => some (t.queue 0).rptr
  | _ => none

theorem leasingState_waits : rptrAfter (exec (.launch 0) leasingState) = some 0 := by decide +kernel

/-- Refutes O49: nothing asks that the page tables of the LEASED units can be read. In `leasingState` they cannot, and the LAUNCH does not
start. -/
theorem not_launchesAreAdmittedAndComplete : ¬ Obligations.LaunchesAreAdmittedAndComplete := by
  unfold Obligations.LaunchesAreAdmittedAndComplete
  rintro ⟨hlaunch, -⟩
  obtain ⟨-, hstarts⟩ := hlaunch leasingState leasingRead 0 launchPacket leasingState_packet (by decide +kernel) (by decide +kernel)
    (by decide +kernel) (by decide +kernel)
  obtain ⟨t, -, ht, hrptr, -⟩ := hstarts (by decide +kernel)
  have hafter : (leasingRead.queue 0).after = 1 := by decide +kernel
  have hwaits := leasingState_waits
  rw [ht, rptrAfter, hrptr, hafter] at hwaits
  cases hwaits

end Sys2Proof.Machine
end

section
/-! Loads and stores of the control stream (O30): one request each, sent from the control core's port. -/

namespace Sys2Proof.Machine

open Sys2Proof Sys2Proof.Said

/-- A request has joined the issue order; of control stream `cl`, the registers and the PC are as they were. -/
structure CtlSent (s s1 : State) (cl : Nat) (r : Req) : Prop where
  rest : s1 = { s with ctls := s1.ctls, reqs := s.reqs ++ [r], ids := s1.ids }
  c : (s1.ctl cl).c = (s.ctl cl).c
  pc : (s1.ctl cl).pc = (s.ctl cl).pc

section Ctl

variable {s s1 : State} {cl : Nat} {i : Instr} {r : Req}

theorem ctlSent_addReq (s : State) (cl : Nat) (r : Req) : CtlSent s (s.addReq r).2 cl { r with id := s.ids, age := s.ids } := ⟨rfl, rfl, rfl⟩

theorem CtlSent.setCtl (h : CtlSent s s1 cl r) (x : Control) (hc : x.c = (s1.ctl cl).c) (hpc : x.pc = (s1.ctl cl).pc) :
    CtlSent s (s1.setCtl cl x) cl r where
  rest := by
    conv_lhs => rw [h.rest]
    rfl
  c := by rw [State.ctl_setCtl_same, hc, h.c]
  pc := by rw [State.ctl_setCtl_same, hpc, h.pc]

/-- The control core's data cache keeps to its stores (R149). -/
theorem CtlSent.cacheStore (h : CtlSent s s1 cl r) (ctx va : Nat) (bs : List (Nat × Byte)) : CtlSent s (s1.cacheStore (256 + cl) ctx va bs) cl r := by
  unfold State.cacheStore
  split
  · rw [State.setCache, if_neg (by omega), Nat.add_sub_cancel_left]
    exact h.setCtl _ rfl rfl
  · exact h

/-- The stream goes on behind its request. -/
theorem CtlSent.goes (h : CtlSent s s1 cl r) (hcl : (s.ciss cl i).cl = cl := by rfl) :
    let t := (s.ciss cl i).finish s (.go s1 [])
    t = { s with ctls := t.ctls, reqs := s.reqs ++ [r], ids := t.ids } ∧ (t.ctl cl).c = (s.ctl cl).c ∧ CGoes s t cl i := by
  refine ⟨?_, ?_, CIss.finish_go_goes s1⟩
  · rw [CIss.finish, CIss.commit_idle, CIss.charge_goes, hcl]
    conv_lhs => rw [h.rest]
    rfl
  · rw [CIss.finish, CIss.commit_idle, CIss.charge_goes, hcl, State.ctl_setCtl_same, State.ctl_setCtl_same]
    exact h.c

/-- The stream sleeps on its request. -/
theorem CtlSent.sleeps (h : CtlSent s s1 cl r) (w : CWait) :
    let t := (s.ciss cl i).finish s (.sleep s1 w)
    t = { s with ctls := t.ctls, reqs := s.reqs ++ [r], ids := t.ids } ∧ (t.ctl cl).c = (s.ctl cl).c ∧ CSleeps s t cl w := by
  have hs := h.setCtl { s1.ctl cl with
    npc := (s.ciss cl i).npc, till := (s.ciss cl i).x.cycle + 1 + (s.ciss cl i).h.stall.toNat
    free := (s.ciss cl i).x.cycle + 1, st := .asleep w } rfl rfl
  exact ⟨hs.rest, hs.c, hs.pc, by rw [CIss.finish, CIss.charge]; exact congrArg Control.st (State.ctl_setCtl_same ..)⟩

theorem CIss.addr_eq (h : CClear s cl i) (a : BitVec 8) (off : Word) : (s.ciss cl i).addr a off = (creg s cl a + off.signExtend 64).toNat := by
  rw [CIss.addr, rc_eq h]

theorem CIss.addrTrap_none {va n : Nat} {k : Right} (hva : va % n = 0) (hok : s.windowOk (ctlCtx s cl) va n k = true) :
    (s.ciss cl i).addrTrap s va n k = none := by
  have hok : s.windowOk (s.ciss cl i).l.ctx va n k = true := hok
  rw [CIss.addrTrap, if_neg (not_not.mpr hva), hok]
  rfl

/-- What a request of the control stream for the sector of an address carries (R274). -/
def CtlReq (s : State) (cl va : Nat) (r : Req) : Prop :=
  r.src = .control cl ∧ r.port = 256 + cl ∧ r.ctx = ctlCtx s cl ∧ r.tgt = .part (partOf va) ∧ r.va = va / 32 * 32

/-! ### CLD -/

/-- Where a load of the control stream puts its data. -/
def cldDest (ty : Ty) (x : BitVec 8) (va : Nat) : Dest :=
  { cls := .s, reg := x.toNat, ty := ty, n := 1, lanes := if x = 0 then [] else [(0, va)] }

/-- A load that the data cache does not serve sends its request (R149, R150). -/
theorem execCld_sends {hd : Hdr} {ty : Ty} {acq : Bool} {x a : BitVec 8} {off : Word} (h : CClear s cl (.cld hd ty acq x a off)) {va : Nat}
    (haddr : (creg s cl a + off.signExtend 64).toNat = va) (hva : va % ty.bytes = 0) (hok : s.windowOk (ctlCtx s cl) va ty.bytes .r = true)
    (hmiss : acq = true ∨ (s.ctl cl).dcache.look (sectorKey (ctlCtx s cl) va) = none) :
    let y := s.ciss cl (.cld hd ty acq x a off)
    let q := s.addReq { y.req (.load (cldDest ty x va) acq) va with noFill := acq }
    exec (.cld hd ty acq x a off) s = .next (y.finish s (if acq then .sleep q.2 (.acquire [q.1]) else .go q.2 [])) := by
  intro y q
  have hcache : s.cache y.port = (s.ctl cl).dcache := by
    rw [State.cache, show y.port = 256 + cl from rfl, if_neg (by omega), Nat.add_sub_cancel_left]
  have hhit : (if acq then (none, s) else s.l1Hit y.port y.l.ctx va) = ((none : Option (List Byte)), s) := by
    cases acq with
    | true => rfl
    | false =>
      have hlook : (s.cache y.port).look (sectorKey y.l.ctx va) = none := by
        rw [hcache]
        exact hmiss.resolve_left Bool.false_ne_true
      rw [if_neg Bool.false_ne_true, State.l1Hit, hlook]
  refine (ctlOnly_eq h rfl rfl _).trans ?_
  dsimp only
  rw [CIss.addr_eq h, haddr, CIss.addrTrap_none hva hok]
  dsimp only
  rw [hhit]
  rfl

/-! ### CST -/

/-- The bytes that a store of the control stream sends, by their offsets in the sector. -/
def cstBytes (ty : Ty) (z : Dword) (va : Nat) : List (Nat × Byte) := (bytesOfNat ty.bytes z.toNat).zipIdx.map fun b => (va % 32 + b.2, b.1)

theorem cstBytes_length (ty : Ty) (z : Dword) (va : Nat) : (cstBytes ty z va).length = ty.bytes := by
  rw [cstBytes, List.length_map, List.length_zipIdx, bytesOfNat, List.length_map, List.length_range]

theorem mem_cstBytes (ty : Ty) (z : Dword) (va : Nat) {q : Nat} (hq : q < ty.bytes) : (va % 32 + q, (z >>> (8 * q)).setWidth 8) ∈ cstBytes ty z va := by
  refine List.mem_map.mpr ⟨((z >>> (8 * q)).setWidth 8, q), List.mem_zipIdx_iff_getElem?.mpr ?_, rfl⟩
  rw [bytesOfNat, List.getElem?_map, List.getElem?_range hq, Option.map_some, ofNat_div_pow]

/-- A store sends its bytes: at once, or where it is a release with earlier accesses under way, when its wait is over (R151). -/
theorem execCst_sends {hd : Hdr} {ty : Ty} {rel : Bool} {a x : BitVec 8} {off : Word} (h : CClear s cl (.cst hd ty rel a x off)) {va : Nat}
    (haddr : (creg s cl a + off.signExtend 64).toNat = va) (hva : va % ty.bytes = 0)
    (hok : s.windowOk (ctlCtx s cl) va ty.bytes (if rel then .w else .plainW) = true) :
    let y := s.ciss cl (.cst hd ty rel a x off)
    let q := fun st : ReqSt => s.addReq { y.req (.store (cstBytes ty (creg s cl x) va)) va with st := st }
    exec (.cst hd ty rel a x off) s = .next (y.finish s
      (if rel && !s.released (.control cl) 0 then .sleep (q .held).2 (.release [(q .held).1] false false)
       else if rel then .sleep ((q .sent).2.cacheStore (256 + cl) y.l.ctx va (cstBytes ty (creg s cl x) va)) (.writes [(q .sent).1])
       else .go ((q .sent).2.cacheStore (256 + cl) y.l.ctx va (cstBytes ty (creg s cl x) va)) [])) := by
  refine (ctlOnly_eq h rfl rfl _).trans ?_
  dsimp only
  rw [CIss.addr_eq h, haddr, CIss.addrTrap_none hva hok, rc_eq h]
  rfl

end Ctl

/-- Settles O30: each access is one request, and the stream goes on or sleeps behind it. -/
theorem controlLoadsAndStoresSend : Obligations.ControlLoadsAndStoresSend := by
  intro s cl hd ty o x a off va ours
  refine ⟨fun h hva hok hmiss => ?_, fun h hva hok => ?_⟩
  · have hexec := execCld_sends h rfl hva hok hmiss
    have hsent := ctlSent_addReq s cl { (s.ciss cl (.cld hd ty o x a off)).req (.load (cldDest ty x va) o) va with noFill := o }
    have hdest : x ≠ 0 → (cldDest ty x va).lanes = [(0, va)] := fun hx => if_neg hx
    cases o with
    | true =>
      obtain ⟨hrest, hc, hsleeps⟩ := hsent.sleeps (i := .cld hd ty true x a off) (.acquire [s.ids])
      exact ⟨_, _, _, hexec, hrest, ⟨rfl, rfl, rfl, rfl, rfl⟩, hc, rfl, rfl, rfl, rfl, rfl, hdest, hsleeps⟩
    | false =>
      obtain ⟨hrest, hc, hgoes⟩ := hsent.goes (i := .cld hd ty false x a off)
      exact ⟨_, _, _, hexec, hrest, ⟨rfl, rfl, rfl, rfl, rfl⟩, hc, rfl, rfl, rfl, rfl, rfl, hdest, hgoes⟩
  · have hexec := execCst_sends h rfl hva hok
    have hbytes := fun q (hq : q < ty.bytes) => mem_cstBytes ty (creg s cl x) va hq
    have hlen := cstBytes_length ty (creg s cl x) va
    have hsent := fun st => ctlSent_addReq s cl { (s.ciss cl (.cst hd ty o a x off)).req (.store (cstBytes ty (creg s cl x) va)) va with st := st }
    have hthrough := (hsent .sent).cacheStore (s.ciss cl (.cst hd ty o a x off)).l.ctx va (cstBytes ty (creg s cl x) va)
    cases o with
    | false =>
      obtain ⟨hrest, hc, hgoes⟩ := hthrough.goes (i := .cst hd ty false a x off)
      exact ⟨_, _, _, hexec, hrest, ⟨rfl, rfl, rfl, rfl, rfl⟩, hc, rfl, hbytes, hlen, rfl, hgoes⟩
    | true =>
      dsimp only at hexec
      cases hreleased : s.released (.control cl) 0 with
      | true =>
        rw [hreleased] at hexec
        obtain ⟨hrest, hc, hsleeps⟩ := hthrough.sleeps (i := .cst hd ty true a x off) (.writes [s.ids])
        exact ⟨_, _, _, hexec, hrest, ⟨rfl, rfl, rfl, rfl, rfl⟩, hc, rfl, hbytes, hlen, rfl, hsleeps⟩
      | false =>
        rw [hreleased] at hexec
        obtain ⟨hrest, hc, hsleeps⟩ := (hsent .held).sleeps (i := .cst hd ty true a x off) (.release [s.ids] false false)
        exact ⟨_, _, _, hexec, hrest, ⟨rfl, rfl, rfl, rfl, rfl⟩, hc, rfl, hbytes, hlen, rfl, hsleeps⟩

end Sys2Proof.Machine
end

section
/-! SUPPORT. The words that the lanes of an atomic name, and the lanes that name each (R158, R240), at an issue and in the words of the
statements. -/

namespace Sys2Proof.Machine

open Sys2Proof Sys2Proof.Said

/-! ### Tarn places while a parcel signals (R114, R382) -/

/-- A fold over a list of units does not see an update that it counts as what was there. -/
theorem Store.foldl_put {α β : Type} {g : β → Nat × α → β} {m : Store α} {k : Nat} {v : α}
    (hsome : ∀ w, m.look k = some w → ∀ n, g n (k, v) = g n (k, w)) (hnone : m.look k = none → ∀ n, g n (k, v) = n) (n : β) :
    (m.put k v).foldl g n = m.foldl g n := by
  induction m generalizing n with
  | nil => exact hnone rfl n
  | cons y r ih =>
    obtain ⟨a, w⟩ := y
    rw [Store.put]
    rcases Nat.lt_trichotomy a k with hlt | rfl | hgt
    · rw [if_pos hlt, List.foldl_cons, List.foldl_cons]
      have hlook : Store.look ((a, w) :: r) k = Store.look r k := by rw [Store.look, if_neg (by omega), if_neg (by omega)]
      rw [hlook] at hsome hnone
      exact ih hsome hnone _
    · rw [if_neg (lt_irrefl a), if_pos rfl, List.foldl_cons, List.foldl_cons,
        hsome w (by rw [Store.look, if_neg (lt_irrefl a), if_pos rfl])]
    · rw [if_neg (by omega), if_neg (by omega), List.foldl_cons, hnone (by rw [Store.look, if_pos hgt])]

/-- A parcel that signals keeps its Tarn region, and one that is not listed has none. -/
theorem signals_tarnAt (x : Iss) (s : State) : (x.signals s).tarnAt = s.tarnAt := by
  have hsize : ∀ core lid, (x.signals s).tarnSize core lid = s.tarnSize core lid := fun core lid => by
    refine Store.foldl_put (fun w hw n => ?_) (fun hw n => ?_) 0
    · rw [State.parcel, Store.get, hw]
      rfl
    · rw [State.parcel, Store.get, hw]
      show (if _ then max n 0 else n) = n
      rw [Nat.max_zero, ite_self]
  funext cl lid a n
  rw [State.tarnAt, State.tarnAt, hsize]

/-- Two addresses of a launch's Tarn regions name one byte of one core only where they are the same. -/
theorem tarnAt_inj {s : State} {cl lid a b n : Nat} {x : Nat × Nat} (ha : s.tarnAt cl lid a n = some x) (hb : s.tarnAt cl lid b n = some x) :
    a = b := by
  rw [State.tarnAt] at ha hb
  obtain ⟨-, ha⟩ := Option.ite_none_right_eq_some.mp ha
  obtain ⟨-, hb⟩ := Option.ite_none_right_eq_some.mp hb
  have hcore : a / 2 ^ 18 = b / 2 ^ 18 :=
     Nat.add_left_cancel (congrArg Prod.fst (Option.some.inj (ha.trans hb.symm)))
  have hbyte := congrArg Prod.snd (Option.some.inj (ha.trans hb.symm))
  rw [hcore] at hbyte
  have hoff : a % 2 ^ 18 = b % 2 ^ 18 := Nat.add_left_cancel hbyte
  omega

/-! ### Words and their lanes (R158) -/

section Words

variable {s : State} {c sl e : Nat} {i : Instr} {o : Atm} {p : List (Nat × Nat)}

/-- The address of a lane's word, as its space counts it. -/
def atmPlace (s : State) (c sl e : Nat) (o : Atm) (l : Nat) : Nat := place o.space (atmAt s c sl e o l)

/-- A lane with its operands. -/
def atmLane (s : State) (c sl e : Nat) (o : Atm) (l : Nat) : Nat × Dword × Dword := (l, atmX s c sl e o l, atmY s c sl e o l)

/-- The lanes of some lanes that name the word of one. -/
def atmMates (s : State) (c sl e : Nat) (o : Atm) (ls : List Nat) (l : Nat) : List Nat :=
  ls.filter fun m => atmPlace s c sl e o m == atmPlace s c sl e o l

/-- A lane's word with all its lanes. -/
def atmWord (s : State) (c sl e : Nat) (o : Atm) (ls : List Nat) (l : Nat) : Nat × ALanes :=
  (atmPlace s c sl e o l, (atmMates s c sl e o ls l).map (atmLane s c sl e o))

theorem paced_ea_atm (h : Clear s c sl e i) (hp : Ahead s c p) (l : Nat) :
    (s.paced c sl e i p).ea (atmAddr o) l = atmPlace s c sl e o l := paced_ea h hp l

theorem paced_atomLanes (h : Clear s c sl e i) (hp : Ahead s c p) (ls : List Nat) :
    (s.paced c sl e i p).atomLanes o ls = ls.map (atmLane s c sl e o) := by
  unfold Iss.atomLanes
  dsimp only
  refine List.map_congr_left fun l _ => ?_
  rw [paced_rv2 h hp, paced_rv h hp, paced_rv2 h hp, paced_rv h hp]
  rfl

/-- The words at an issue are those that the lanes name, each once. -/
theorem paced_atomWords (h : Clear s c sl e i) (hp : Ahead s c p) (ls : List Nat) :
    (s.paced c sl e i p).atomWords o ls = (ls.map (atmPlace s c sl e o)).reverse.dedup.reverse.map fun a =>
      (a, (ls.filter fun m => atmPlace s c sl e o m == a).map (atmLane s c sl e o)) := by
  unfold Iss.atomWords
  dsimp only
  simp only [paced_ea_atm h hp, paced_atomLanes h hp]
  rw [show (s.paced c sl e i p).ea (atmAddr o) = atmPlace s c sl e o from funext fun l => paced_ea_atm h hp l]

theorem mem_atomWords (h : Clear s c sl e i) (hp : Ahead s c p) {ls : List Nat} {w : Nat × ALanes} :
    w ∈ (s.paced c sl e i p).atomWords o ls ↔ ∃ l ∈ ls, w = atmWord s c sl e o ls l := by
  rw [paced_atomWords h hp]
  simp only [List.mem_map, List.mem_reverse, List.mem_dedup]
  constructor
  · rintro ⟨a, ⟨l, hl, rfl⟩, rfl⟩
    exact ⟨l, hl, rfl⟩
  · rintro ⟨l, hl, rfl⟩
    exact ⟨_, ⟨l, hl, rfl⟩, rfl⟩

theorem mem_atmMates {ls : List Nat} {l m : Nat} :
    m ∈ atmMates s c sl e o ls l ↔ m ∈ ls ∧ atmPlace s c sl e o m = atmPlace s c sl e o l := by
  rw [atmMates, List.mem_filter, beq_iff_eq]

theorem atmWord_lanes (ls : List Nat) (l : Nat) : (atmWord s c sl e o ls l).2.map Prod.fst = atmMates s c sl e o ls l := by
  rw [atmWord, List.map_map]
  exact List.map_id _

theorem atmWord_sorted {ls : List Nat} (hls : ls.Pairwise (· < ·)) (l : Nat) :
    (atmWord s c sl e o ls l).2.Pairwise fun x y => x.1 < y.1 := by
  rw [← List.pairwise_map (f := Prod.fst) (R := (· < ·)), atmWord_lanes]
  exact hls.filter _

/-- Words grouped by the row of their first lane and by a key of their address. -/
theorem mem_groupWords {ws : List (Nat × ALanes)} {key : Nat → Nat} {g : Nat × Nat × List (Nat × ALanes)} (hg : g ∈ groupWords ws key) :
    ∀ w ∈ g.2.2, w ∈ ws ∧ g.2.1 = key w.1 := by
  unfold groupWords at hg
  obtain ⟨k, -, rfl⟩ := List.mem_map.mp hg
  intro w hw
  obtain ⟨hw, hkey⟩ := List.mem_filter.mp hw
  exact ⟨hw, (eq_of_beq (Bool.and_eq_true_iff.mp hkey).2).symm⟩

/-- Each word is in a group. -/
theorem exists_mem_groupWords {ws : List (Nat × ALanes)} (key : Nat → Nat) {w : Nat × ALanes} (hw : w ∈ ws) :
    ∃ g ∈ groupWords ws key, w ∈ g.2.2 := by
  unfold groupWords
  refine ⟨_, List.mem_map.mpr ⟨((w.2.map Prod.fst).headD 0 / 32, key w.1), ?_, rfl⟩, List.mem_filter.mpr ⟨hw, ?_⟩⟩
  · simp only [List.mem_reverse, List.mem_dedup]
    exact List.mem_map.mpr ⟨w, hw, rfl⟩
  · rw [beq_self_eq_true, beq_self_eq_true]
    rfl

/-! ### The issue of an atomic -/

/-- The operands of `ATOM` and `RED`, and the register that the returned values go to. -/
def AtomicForm (i : Instr) (o : Atm) (ret : Option Nat) : Prop :=
  (∃ h, i = .atom h o ∧ ret = some o.d.toNat) ∨ ∃ h, i = .red h o ∧ ret = none

/-- What the issue of an atomic sends or performs, in a parcel that signals (R382). -/
def atomicsSent (s : State) (c sl e : Nat) (i : Instr) (o : Atm) (p : List (Nat × Nat)) (ret : Option Nat) (st : ReqSt) : List Nat × State :=
  (s.paced c sl e i p).sendAtomics ((s.paced c sl e i p).signals s) o ret st

variable {ret : Option Nat}

/-- Where nothing stops it, an atomic is sent or performed at once, and the sub-team goes on or sleeps (R150, R151). -/
theorem exec_atomic (hi : AtomicForm i o ret) (h : Clear s c sl e i) (hlegal : Legal s c sl e i o.space (atmAt s c sl e o) o.ty.bytes .rwa) :
    ∃ p bs, Ahead s c p ∧ exec i s = .next ((s.paced c sl e i p).finish s bs
      (if lanes s c sl e i = [] then .eff {}
       else match o.var with
         | .none => .go (atomicsSent s c sl e i o p ret .sent).2 {}
         | .acq => .sleep (atomicsSent s c sl e i o p ret .sent).2 (.acquire (atomicsSent s c sl e i o p ret .sent).1)
         | .rel => .sleep (atomicsSent s c sl e i o p ret (releaseSt s c sl e)).2
            (releaseWait s c sl e (atomicsSent s c sl e i o p ret (releaseSt s c sl e)).1))) := by
  have hst : (streamsOf (op9Of i)).1 = true := by
    rcases hi with ⟨hd, rfl, -⟩ | ⟨hd, rfl, -⟩ <;> rfl
  have hexec : exec i s = atomicOp i o ret s := by
    rcases hi with ⟨hd, rfl, rfl⟩ | ⟨hd, rfl, rfl⟩ <;> rfl
  rw [hexec]
  obtain ⟨p, bs, hp, hteam⟩ := teamOnly_banks h hst (fun x => x.banks s (atmAddr o) o.ty.bytes) (fun x =>
    match x.addrTrap s (atmAddr o) o.ty.bytes o.ty.bytes .rwa with
    | some t => .trap t
    | none =>
      if x.act.isEmpty then .eff {}
      else
        let s1 := x.signals s
        match o.var with
        | .none => .go (x.sendAtomics s1 o ret .sent).2 {}
        | .acq => let (ids, s2) := x.sendAtomics s1 o ret .sent; .sleep s2 (.acquire ids)
        | .rel =>
          if s.released x.src x.entry then let (ids, s2) := x.sendAtomics s1 o ret .sent; .sleep s2 (.writes ids)
          else let (ids, s2) := x.sendAtomics s1 o ret .held; .sleep s2 (.release ids false none))
  have htrap : (s.paced c sl e i p).addrTrap s (atmAddr o) o.ty.bytes o.ty.bytes .rwa = none :=
    paced_addrTrap (sb := o.sb) (ix := o.ix) (a := o.a) (b := o.b) (off := o.off.toInt) h hp hlegal
  refine ⟨p, bs, hp, hteam.trans ?_⟩
  dsimp only
  rw [htrap, paced_act h]
  simp only [List.isEmpty_iff, releaseSt, releaseWait, show (s.paced c sl e i p).src = .team c sl (s.entry c sl e).team from rfl,
    show (s.paced c sl e i p).entry = e from rfl]
  split
  · rfl
  · cases o.var with
    | none => rfl
    | acq => rfl
    | rel =>
      dsimp only
      split <;> rfl

end Words

end Sys2Proof.Machine
end

section
/-! Atomics whose lanes name other places than this core's scratchpad (O22). -/

namespace Sys2Proof.Machine

open Sys2Proof Sys2Proof.Said

/-! ### Where a word's request goes (R115, R144) -/

section Far

variable {s u : State} {c sl e : Nat} {i : Instr} {o : Atm} {p : List (Nat × Nat)} {st : ReqSt} {ret : Option Nat} {k : Right}

/-- The core, Pond partition or sector of a word. -/
def atmKey (s : State) (c sl e : Nat) (o : Atm) (a : Nat) : Nat :=
  match o.space with
  | .g => a / 32 * 32
  | .p => pondPart a
  | _ => ((tarn s c sl e a o.ty.bytes).getD (0, 0)).1

/-- The address of a word as its request carries it. -/
def atmOff (s : State) (c sl e : Nat) (o : Atm) (a : Nat) : Nat :=
  match o.space with
  | .g | .p => a
  | _ => ((tarn s c sl e a o.ty.bytes).getD (0, 0)).2

/-- The place that a key names. -/
def keyTgt (sp : Space) (key : Nat) : Tgt :=
  match sp with
  | .g => .part (partOf key)
  | .p => .pond key
  | _ => .bank key

/-- A lane's target, by the key and the address of its word. -/
theorem atm_target (hlegal : Legal s c sl e i o.space (atmAt s c sl e o) o.ty.bytes k) {l : Nat} (hl : active s c sl e i l = true)
    (hfar : nearByte s c sl e o.space (atmAt s c sl e o l) o.ty.bytes = none) :
    target s c sl e o.space (atmAt s c sl e o l) o.ty.bytes =
      (keyTgt o.space (atmKey s c sl e o (atmPlace s c sl e o l)), atmOff s c sl e o (atmPlace s c sl e o l)) := by
  obtain ⟨-, hrange⟩ := hlegal l hl
  obtain ⟨sp, ty, sb, ix, var, op, d, a, b, cc, off⟩ := o
  dsimp only at *
  cases sp with
  | l => cases hfar
  | g => rfl
  | p => rfl
  | c =>
    obtain ⟨x, hx⟩ := Option.isSome_iff_exists.mp hrange.2
    unfold target keyTgt atmKey atmOff atmPlace place
    dsimp only
    rw [if_neg (by decide), hx]
    rfl

/-- Two lanes have one target only where they name one word. -/
theorem atm_target_inj (hlegal : Legal s c sl e i o.space (atmAt s c sl e o) o.ty.bytes k) {l m : Nat} (hl : active s c sl e i l = true)
    (hm : active s c sl e i m = true) (hfar : nearByte s c sl e o.space (atmAt s c sl e o l) o.ty.bytes = none)
    (h : target s c sl e o.space (atmAt s c sl e o m) o.ty.bytes = target s c sl e o.space (atmAt s c sl e o l) o.ty.bytes) :
    atmPlace s c sl e o m = atmPlace s c sl e o l := by
  obtain ⟨-, hrange⟩ := hlegal l hl
  obtain ⟨-, hrange'⟩ := hlegal m hm
  obtain ⟨sp, ty, sb, ix, var, op, d, a, b, cc, off⟩ := o
  dsimp only at *
  cases sp with
  | l => cases hfar
  | g => exact congrArg Prod.snd h
  | p => exact congrArg Prod.snd h
  | c =>
    obtain ⟨x, hx⟩ := Option.isSome_iff_exists.mp hrange.2
    obtain ⟨y, hy⟩ := Option.isSome_iff_exists.mp hrange'.2
    unfold target at h
    dsimp only at h
    rw [hx, hy] at h
    injection h with hcore hbyte
    injection hcore with hcore
    exact tarnAt_inj hy (hx.trans (congrArg some (Prod.ext hcore.symm hbyte.symm)))

/-! ### The requests -/

/-- A group's request. -/
def atmReq (s : State) (c sl e : Nat) (o : Atm) (ret : Option Nat) (x : Iss) (u : State) (st : ReqSt) (g : Nat × Nat × List (Nat × ALanes)) :
    Req :=
  { x.req u (.atomic o.op o.ty (g.2.2.map fun w => (atmOff s c sl e o w.1, w.2)) ret 0 []) (keyTgt o.space g.2.1)
      (if o.space = .g then g.2.1 else 0) g.1 (wordLanes g.2.2) with st := st }

theorem atmReq_mine (g : Nat × Nat × List (Nat × ALanes)) : Mine s c sl e st (atmReq s c sl e o ret (s.paced c sl e i p) u st g) :=
  ⟨rfl, rfl, rfl, rfl, rfl, rfl⟩

/-- The groups of an atomic's words. -/
def atmGroups (s : State) (c sl e : Nat) (i : Instr) (o : Atm) (p : List (Nat × Nat)) : List (Nat × Nat × List (Nat × ALanes)) :=
  groupWords ((s.paced c sl e i p).atomWords o (lanes s c sl e i)) (atmKey s c sl e o)

/-- The requests of an atomic, in issue order. -/
def atmReqs (s : State) (c sl e : Nat) (i : Instr) (o : Atm) (p : List (Nat × Nat)) (ret : Option Nat) (u : State) (st : ReqSt) : List Req :=
  (atmGroups s c sl e i o p).map (atmReq s c sl e o ret (s.paced c sl e i p) u st)

theorem atmReqs_mine (u : State) (st : ReqSt) : ∀ r ∈ atmReqs s c sl e i o p ret u st, Mine s c sl e st r := fun r hr => by
  obtain ⟨g, -, rfl⟩ := List.mem_map.mp hr
  exact atmReq_mine g

/-- An atomic none of whose lanes names this core's scratchpad sends a request for each group (R158, R242). -/
theorem paced_sendAtomics (h : Clear s c sl e i) (hp : Ahead s c p) (hu : u.tarnAt = s.tarnAt)
    (hfar : ∀ l, active s c sl e i l = true → nearByte s c sl e o.space (atmAt s c sl e o l) o.ty.bytes = none) :
    ∃ t, (s.paced c sl e i p).sendAtomics u o ret st = ((stamped u.ids (atmReqs s c sl e i o p ret u st)).map Req.id, t) ∧
      Added u t (atmReqs s c sl e i o p ret u st) := by
  have hlocal : ∀ l, active s c sl e i l = true →
      ((s.paced c sl e i p).localByte u (atmAddr o) o.ty.bytes l).isSome = false := by
    intro l hl
    have hsame : (s.paced c sl e i p).localByte u (atmAddr o) o.ty.bytes l = (s.paced c sl e i p).localByte s (atmAddr o) o.ty.bytes l := by
      unfold Iss.localByte
      rw [hu]
    rw [hsame, show atmAddr o = addrOf o.space o.sb o.ix o.a o.b o.off.toInt from rfl, paced_localByte h hp,
      show nearByte s c sl e o.space (address s c sl e o.space o.sb o.ix o.a o.b o.off.toInt l) o.ty.bytes = none from hfar l hl]
    rfl
  obtain ⟨hnone, -⟩ := far_lanes (p := p) h hlocal
  have hall : ((s.paced c sl e i p).act.filter fun l => !((s.paced c sl e i p).localByte u (atmAddr o) o.ty.bytes l).isSome) =
      lanes s c sl e i := by
    rw [paced_act h]
    refine List.filter_eq_self.mpr fun l hl => ?_
    rw [hlocal l ((mem_lanes l).mp hl)]
    rfl
  have hempty : (s.paced c sl e i p).atomWords o [] = [] := rfl
  unfold Iss.sendAtomics
  dsimp only
  rw [hnone, hempty, List.foldl_nil, hall, hu, show (atmAddr o).sp = o.space from rfl]
  have hself : ∀ ws : List (Nat × ALanes), (ws.map fun w => (w.1, w.2)) = ws := fun ws => List.map_id ws
  have hkey : ∀ (key : Nat → Nat), (atmKey s c sl e o = key) → atmReqs s c sl e i o p ret u st =
      (groupWords ((s.paced c sl e i p).atomWords o (lanes s c sl e i)) key).map (atmReq s c sl e o ret (s.paced c sl e i p) u st) :=
    fun key hkey => by rw [← hkey]; rfl
  cases hsp : o.space with
  | g =>
    rw [hkey _ (funext fun a => by rw [atmKey, hsp])]
    refine Added.foldl (fun is v g rs hv => ⟨_, rfl, ?_⟩) _
    have hreq : atmReq s c sl e o ret (s.paced c sl e i p) u st g =
        { (s.paced c sl e i p).req u (.atomic o.op o.ty g.2.2 ret 0 []) (.part (partOf g.2.1)) g.2.1 g.1 (wordLanes g.2.2) with st := st } := by
      simp only [atmReq, hsp, atmOff, keyTgt, if_true, hself]
    rw [hreq]
    exact (Added.addReq _ _).setCache _ _
  | p =>
    rw [hkey _ (funext fun a => by rw [atmKey, hsp])]
    refine Added.foldl (fun is v g rs hv => ⟨_, rfl, ?_⟩) _
    have hreq : atmReq s c sl e o ret (s.paced c sl e i p) u st g =
        { (s.paced c sl e i p).req u (.atomic o.op o.ty g.2.2 ret 0 []) (.pond g.2.1) 0 g.1 (wordLanes g.2.2) with st := st } := by
      simp only [atmReq, hsp, atmOff, keyTgt, hself]
      rfl
    rw [hreq]
    exact Added.addReq _ _
  | l | c =>
    rw [hkey _ (funext fun a => by rw [atmKey, hsp])]
    refine Added.foldl (fun is v g rs hv => ⟨_, rfl, ?_⟩) _
    have hreq : atmReq s c sl e o ret (s.paced c sl e i p) u st g =
        { (s.paced c sl e i p).req u (.atomic o.op o.ty (g.2.2.map fun w => (((tarn s c sl e w.1 o.ty.bytes).getD (0, 0)).2, w.2)) ret 0 [])
            (.bank g.2.1) 0 g.1 (wordLanes g.2.2) with st := st } := by
      simp only [atmReq, hsp, atmOff, keyTgt]
      rfl
    rw [hreq]
    exact Added.addReq _ _

/-- What the statement says of an atomic's requests. -/
def AtomicsCarried (s : State) (c sl e : Nat) (i : Instr) (o : Atm) (ret : Option Nat) (news : List Req) : Prop :=
  (∀ l, active s c sl e i l = true → ∃ r ws w, r ∈ news ∧ r.kind = .atomic o.op o.ty ws ret 0 [] ∧ w ∈ ws ∧
    (r.tgt, w.1) = target s c sl e o.space (atmAt s c sl e o l) o.ty.bytes ∧ (l, atmX s c sl e o l, atmY s c sl e o l) ∈ w.2) ∧
  (∀ r ∈ news, ∃ ws, r.kind = .atomic o.op o.ty ws ret 0 [] ∧
    (∀ w ∈ ws, w.2.Pairwise (fun x y => x.1 < y.1) ∧ (o.space = .g → r.va = w.1 / 32 * 32) ∧
      (∀ x ∈ w.2, active s c sl e i x.1 = true) ∧
      ∀ l, active s c sl e i l = true →
        ((r.tgt, w.1) = target s c sl e o.space (atmAt s c sl e o l) o.ty.bytes ↔ l ∈ w.2.map Prod.fst)))

theorem atomics_carried (h : Clear s c sl e i) (hp : Ahead s c p)
    (hlegal : Legal s c sl e i o.space (atmAt s c sl e o) o.ty.bytes k)
    (hfar : ∀ l, active s c sl e i l = true → nearByte s c sl e o.space (atmAt s c sl e o l) o.ty.bytes = none) (u : State) (st : ReqSt) :
    AtomicsCarried s c sl e i o ret (stamped u.ids (atmReqs s c sl e i o p ret u st)) := by
  refine ⟨fun l hl => ?_, fun q hq => ?_⟩
  · have hmem := (mem_lanes l).mpr hl
    obtain ⟨g, hg, hw⟩ := exists_mem_groupWords (atmKey s c sl e o) ((mem_atomWords h hp).mpr ⟨l, hmem, rfl⟩ :
      atmWord s c sl e o (lanes s c sl e i) l ∈ (s.paced c sl e i p).atomWords o (lanes s c sl e i))
    obtain ⟨q, hq, heq⟩ := exists_mem_stamped u.ids (List.mem_map.mpr ⟨g, hg, rfl⟩ :
      atmReq s c sl e o ret (s.paced c sl e i p) u st g ∈ atmReqs s c sl e i o p ret u st)
    refine ⟨q, _, _, hq, by rw [heq]; rfl, List.mem_map.mpr ⟨_, hw, rfl⟩, ?_, List.mem_map.mpr ⟨l, mem_atmMates.mpr ⟨hmem, rfl⟩, rfl⟩⟩
    rw [atm_target hlegal hl (hfar l hl), heq]
    exact congrArg (fun key => (keyTgt o.space key, _)) (mem_groupWords hg _ hw).2
  · obtain ⟨r, hr, heq⟩ := of_mem_stamped hq
    obtain ⟨g, hg, rfl⟩ := List.mem_map.mp hr
    refine ⟨_, by rw [heq]; rfl, fun w' hw' => ?_⟩
    obtain ⟨w, hw, rfl⟩ := List.mem_map.mp hw'
    obtain ⟨hw, hkey⟩ := mem_groupWords hg w hw
    obtain ⟨m, hm, rfl⟩ := (mem_atomWords h hp).mp hw
    have hactive := (mem_lanes m).mp hm
    have htgt : (q.tgt, atmOff s c sl e o (atmPlace s c sl e o m)) = target s c sl e o.space (atmAt s c sl e o m) o.ty.bytes := by
      rw [atm_target hlegal hactive (hfar m hactive), heq]
      exact congrArg (fun key => (keyTgt o.space key, _)) hkey
    refine ⟨atmWord_sorted (lanes_sorted s c sl e i) m, fun hsp => ?_, fun x hx => ?_, fun l hl => ?_⟩
    · rw [heq]
      show (if o.space = .g then g.2.1 else 0) = atmOff s c sl e o (atmPlace s c sl e o m) / 32 * 32
      rw [if_pos hsp, hkey, atmOff, hsp, atmKey, hsp]
      rfl
    · obtain ⟨n, hn, rfl⟩ := List.mem_map.mp hx
      exact (mem_lanes n).mp (mem_atmMates.mp hn).1
    · show (q.tgt, atmOff s c sl e o (atmPlace s c sl e o m)) = _ ↔ _
      rw [htgt, atmWord_lanes, mem_atmMates]
      refine ⟨fun h => ⟨(mem_lanes l).mpr hl, (atm_target_inj hlegal hl hactive (hfar l hl) h).symm⟩, fun h => ?_⟩
      rw [atm_target hlegal hactive (hfar m hactive), atm_target hlegal hl (hfar l hl), h.2]

/-- The requests that an atomic adds, in issue order. -/
def atmNews (s : State) (c sl e : Nat) (i : Instr) (o : Atm) (p : List (Nat × Nat)) (ret : Option Nat) (st : ReqSt) : List Req :=
  stamped ((s.paced c sl e i p).signals s).ids (atmReqs s c sl e i o p ret ((s.paced c sl e i p).signals s) st)

/-- The requests are sent, and the sub-team goes on or sleeps behind them. -/
theorem atomicsSent_far (h : Clear s c sl e i) (hp : Ahead s c p)
    (hfar : ∀ l, active s c sl e i l = true → nearByte s c sl e o.space (atmAt s c sl e o l) o.ty.bytes = none) (bs : List Nat) (st : ReqSt) :
    ∃ t1, atomicsSent s c sl e i o p ret st = ((atmNews s c sl e i o p ret st).map Req.id, t1) ∧
      (Said.Sent s ((s.paced c sl e i p).finish s bs (.go t1 {})) c sl e st (atmNews s c sl e i o p ret st) ∧
        Goes s ((s.paced c sl e i p).finish s bs (.go t1 {})) c sl e i) ∧
      ∀ w, Said.Sent s ((s.paced c sl e i p).finish s bs (.sleep t1 w)) c sl e st (atmNews s c sl e i o p ret st) ∧
        Sleeps s ((s.paced c sl e i p).finish s bs (.sleep t1 w)) c sl e i w := by
  obtain ⟨t1, hsends, hadd⟩ := paced_sendAtomics (ret := ret) (st := st) h hp (signals_tarnAt (s.paced c sl e i p) s) hfar
  exact ⟨t1, hsends, added_goes (signals_base _ s) hadd (atmReqs_mine _ st) bs,
    fun w => added_sleeps (signals_base _ s) hadd (atmReqs_mine _ st) bs w⟩

end Far

/-- Settles O22: the words of the active lanes in groups, one request each. -/
theorem atomicSendsRequests : Obligations.AtomicSendsRequests := by
  intro s c sl e i o ret hi h hlegal hfar
  obtain ⟨p, bs, hp, hexec⟩ := exec_atomic hi h hlegal
  have hcarried : ∀ st, AtomicsCarried s c sl e i o ret (atmNews s c sl e i o p ret st) := atomics_carried h hp hlegal hfar _
  by_cases hnone : lanes s c sl e i = []
  · rw [if_pos hnone, paced_eff] at hexec
    obtain ⟨hsent, hgoes⟩ := added_goes (st := if o.var = .rel then releaseSt s c sl e else .sent) (p := p) (i := i) (Base.mk (s := s) rfl)
      (Added.refl s) (fun r hr => nomatch hr) bs
    refine ⟨_, [], hexec, hsent, fun l hl => ?_, fun r hr => (nomatch hr), by rw [if_pos hnone]; exact hgoes⟩
    exact absurd ((mem_lanes l).mpr hl) (by rw [hnone]; exact List.not_mem_nil)
  · rw [if_neg hnone] at hexec
    obtain ⟨t1, hsent, ⟨hadded, hgoes⟩, hsleep⟩ := atomicsSent_far (o := o) (ret := ret) h hp hfar bs .sent
    obtain ⟨t2, hreleased, -, hwait⟩ := atomicsSent_far (o := o) (ret := ret) h hp hfar bs (releaseSt s c sl e)
    rw [hsent, hreleased] at hexec
    cases hvar : o.var with
    | none =>
      rw [hvar] at hexec
      dsimp only at hexec
      exact ⟨_, _, hexec, hadded, (hcarried _).1, (hcarried _).2, by rw [if_neg hnone]; exact hgoes⟩
    | acq =>
      rw [hvar] at hexec
      dsimp only at hexec
      obtain ⟨hadded, hsleeps⟩ := hsleep (.acquire ((atmNews s c sl e i o p ret .sent).map Req.id))
      exact ⟨_, _, hexec, hadded, (hcarried _).1, (hcarried _).2, by rw [if_neg hnone]; exact hsleeps⟩
    | rel =>
      rw [hvar] at hexec
      dsimp only at hexec
      obtain ⟨hadded, hsleeps⟩ := hwait (releaseWait s c sl e ((atmNews s c sl e i o p ret (releaseSt s c sl e)).map Req.id))
      exact ⟨_, _, hexec, hadded, (hcarried _).1, (hcarried _).2, by rw [if_neg hnone]; exact hsleeps⟩

end Sys2Proof.Machine
end

section
/-! SUPPORT. The words that merged and single atomics leave (R158, R249, R250): the unit's arithmetic on numbers beside the statements'
on words, lane after lane. -/

namespace Sys2Proof.Machine

open Sys2Proof Sys2Proof.Said

/-! ### A number and a word -/

/-- A number of the unit stands for a word of the statements: of the integer types in the type's bits, of the others as a whole. -/
def Agrees (ty : Ty) (v : Nat) (w : Dword) : Prop :=
  match ty with
  | .i32 | .n32 | .i64 | .n64 => BitVec.ofNat ty.bits v = w.setWidth ty.bits
  | _ => v = w.toNat

section Agrees

variable {op : AOp} {ty : Ty} {v m : Nat} {w x : Dword}

theorem Agrees.low (h : Agrees ty v w) : BitVec.ofNat ty.bits v = w.setWidth ty.bits := by
  cases ty with
  | i32 | n32 | i64 | n64 => exact h
  | _ => rw [show v = w.toNat from h, BitVec.ofNat_toNat]

theorem Agrees.refl (ty : Ty) (w : Dword) : Agrees ty w.toNat w := by
  cases ty with
  | i32 | n32 | i64 | n64 => exact BitVec.ofNat_toNat _ _
  | _ => rfl

theorem add_low (hv : BitVec.ofNat ty.bits v = w.setWidth ty.bits) (hm : BitVec.ofNat ty.bits m = x.setWidth ty.bits) :
    BitVec.ofNat ty.bits ((v + m) % 2 ^ ty.bits) = (fit ty false (num ty w + num ty x)).setWidth ty.bits := by
  rw [setWidth_fit, setWidth_ofNat_add, BitVec.ofInt_add, ofInt_num, ofInt_num, hv, hm]

/-- The value of an integer type is that of its bits. -/
theorem valOf_low (hv : BitVec.ofNat ty.bits v = w.setWidth ty.bits) : valOf ty v = num ty w := by
  have hmod : v % 2 ^ ty.bits = w.toNat % 2 ^ ty.bits := by
    rw [← BitVec.toNat_ofNat, hv, BitVec.toNat_setWidth]
  rw [← valOf_eq_num, valOf, valOf, intOf, intOf, hmod]

theorem min_low (hv : BitVec.ofNat ty.bits v = w.setWidth ty.bits) (hm : BitVec.ofNat ty.bits m = x.setWidth ty.bits) :
    BitVec.ofNat ty.bits (if valOf ty m < valOf ty v then m else v) = (if num ty w ≤ num ty x then w else x).setWidth ty.bits := by
  rw [valOf_low hv, valOf_low hm]
  by_cases h : num ty w ≤ num ty x
  · rw [if_neg (not_lt.mpr h), if_pos h, hv]
  · rw [if_pos (not_le.mp h), if_neg h, hm]

theorem max_low (hv : BitVec.ofNat ty.bits v = w.setWidth ty.bits) (hm : BitVec.ofNat ty.bits m = x.setWidth ty.bits) :
    BitVec.ofNat ty.bits (if valOf ty v < valOf ty m then m else v) = (if num ty w ≤ num ty x then x else w).setWidth ty.bits := by
  rw [valOf_low hv, valOf_low hm]
  rcases lt_trichotomy (num ty w) (num ty x) with h | h | h
  · rw [if_pos h, if_pos h.le, hm]
  · rw [if_neg h.not_lt, if_pos h.le, hv, ← ofInt_num, h, ofInt_num]
  · rw [if_neg h.not_gt, if_neg h.not_ge, hv]

/-- A sum in a format of at most 32 bits is a word's number. -/
theorem toNat_addHalf {k : Fmt} (he : 0 < k.e) (hf : 0 < k.f) (hk : k.width ≤ 32) (a b : Nat) :
    (BitVec.ofNat 64 (addHalf k a b)).toNat = halfAdd k a b := by
  rw [BitVec.toNat_ofNat]
  refine Nat.mod_eq_of_lt ((Fmt.fin_lt he hf _ _ _).trans_le ?_)
  exact Nat.pow_le_pow_right (by norm_num) (hk.trans (by norm_num))

/-- So is the sum of two halves. -/
theorem toNat_addHalves {k : Fmt} (he : 0 < k.e) (hf : 0 < k.f) (hk : k.width = 16) (a b c d : Nat) :
    (BitVec.ofNat 64 (addHalf k a b + 2 ^ 16 * addHalf k c d)).toNat = halfAdd k a b + 2 ^ 16 * halfAdd k c d := by
  have hlow : ∀ a b, addHalf k a b < 2 ^ 16 := fun a b => hk ▸ Fmt.fin_lt he hf _ _ _
  have h1 := hlow a b
  have h2 := hlow c d
  rw [BitVec.toNat_ofNat]
  refine Nat.mod_eq_of_lt ?_
  omega

theorem minmax_lt (hi : Bool) (a b : Nat) : (Fmt.f32.minmax false hi a b).1 < 2 ^ 32 := by
  have hflush : ∀ a, Fmt.f32.flush false a < 2 ^ 32 := fun a => Nat.mod_lt _ (by decide)
  have hpick : ∀ q : Bool, (if q = true then Fmt.f32.flush false b else Fmt.f32.flush false a) < 2 ^ 32 := fun q => by
    cases q
    · exact hflush a
    · exact hflush b
  unfold Fmt.minmax
  dsimp only
  cases (Fmt.f32.dec (Fmt.f32.flush false a)).isNan <;> cases (Fmt.f32.dec (Fmt.f32.flush false b)).isNan
  · exact hpick _
  · exact hflush a
  · exact hflush b
  · show Fmt.f32.nan < 2 ^ 32
    decide

theorem toNat_minmax (hi : Bool) (a b : Nat) :
    (BitVec.ofNat 64 (Fmt.f32.minmax false hi a b).1).toNat = (Fmt.f32.minmax false hi a b).1 := by
  rw [BitVec.toNat_ofNat]
  exact Nat.mod_eq_of_lt ((minmax_lt hi a b).trans (by norm_num))

/-- One operation of the unit and of the statements. -/
theorem aopApply_agrees (hty : ty ∈ op.types) (hv : Agrees ty v w) (hm : Agrees ty m x) (y : Dword) :
    Agrees ty (aopApply op ty v m y.toNat) (atomicAny op ty w x y) := by
  cases op with
  | add =>
    simp only [AOp.types, List.mem_cons, List.not_mem_nil, or_false] at hty
    rcases hty with rfl | rfl | rfl | rfl | rfl | rfl | rfl
    · exact add_low (ty := .i32) hv hm
    · exact add_low (ty := .n32) hv hm
    · exact add_low (ty := .i64) hv hm
    · exact add_low (ty := .n64) hv hm
    all_goals
      obtain rfl : v = w.toNat := hv
      obtain rfl : m = x.toNat := hm
    · exact (toNat_addHalf (k := .f32) (by decide) (by decide) (by decide) _ _).symm
    · exact (toNat_addHalves (k := .bf16) (by decide) (by decide) (by decide) _ _ _ _).symm
    · exact (toNat_addHalves (k := .f16) (by decide) (by decide) (by decide) _ _ _ _).symm
  | min =>
    simp only [AOp.types, List.mem_cons, List.not_mem_nil, or_false] at hty
    rcases hty with rfl | rfl | rfl | rfl | rfl
    · exact min_low (ty := .i32) hv hm
    · exact min_low (ty := .n32) hv hm
    · exact min_low (ty := .i64) hv hm
    · exact min_low (ty := .n64) hv hm
    · obtain rfl : v = w.toNat := hv
      obtain rfl : m = x.toNat := hm
      exact (toNat_minmax false _ _).symm
  | max =>
    simp only [AOp.types, List.mem_cons, List.not_mem_nil, or_false] at hty
    rcases hty with rfl | rfl | rfl | rfl | rfl
    · exact max_low (ty := .i32) hv hm
    · exact max_low (ty := .n32) hv hm
    · exact max_low (ty := .i64) hv hm
    · exact max_low (ty := .n64) hv hm
    · obtain rfl : v = w.toNat := hv
      obtain rfl : m = x.toNat := hm
      exact (toNat_minmax true _ _).symm
  | and | or | xor | exch =>
    simp only [AOp.types, List.mem_cons, List.not_mem_nil, or_false] at hty
    rcases hty with rfl | rfl
    all_goals
      obtain rfl : v = w.toNat := hv
      obtain rfl : m = x.toNat := hm
      rfl
  | cas =>
    have hcas : ∀ v m, v = w.toNat → m = x.toNat → (if v = y.toNat then m else v) = (if w = y then x else w).toNat := by
      rintro _ _ rfl rfl
      simp only [← BitVec.toNat_inj]
      split <;> rfl
    simp only [AOp.types, List.mem_cons, List.not_mem_nil, or_false] at hty
    rcases hty with rfl | rfl
    · exact hcas v m hv hm
    · exact hcas v m hv hm

/-! ### Lane after lane -/

/-- The lanes' operations one after another, as the unit counts. -/
def unitAfter (op : AOp) (ty : Ty) (v : Nat) (ls : ALanes) : Nat := ls.foldl (fun v l => aopApply op ty v l.2.1.toNat l.2.2.toNat) v

theorem unitAfter_agrees (hty : ty ∈ op.types) (ls : ALanes) (hv : Agrees ty v w) : Agrees ty (unitAfter op ty v ls) (lanesAfter op ty w ls) := by
  induction ls generalizing v w with
  | nil => exact hv
  | cons l ls ih => exact ih (aopApply_agrees hty hv (Agrees.refl ty l.2.1) l.2.2)

/-- Each lane's value returned is the word after the lanes before it. -/
theorem laneReturns_eq (op : AOp) (ty : Ty) (v : Nat) (pre : ALanes) (l : Nat × Dword × Dword) (post : ALanes) :
    (l.1, unitAfter op ty v pre) ∈ laneReturns op ty v (pre ++ l :: post) := by
  induction pre generalizing v with
  | nil => exact List.mem_cons_self
  | cons y pre ih => exact List.mem_cons_of_mem _ (ih _)

theorem of_mem_laneReturns {ls : ALanes} {z : Nat × Nat} (h : z ∈ laneReturns op ty v ls) :
    ∃ pre l post, ls = pre ++ l :: post ∧ z = (l.1, unitAfter op ty v pre) := by
  induction ls generalizing v with
  | nil => cases h
  | cons y ls ih =>
    rcases List.mem_cons.mp h with rfl | h
    · exact ⟨[], y, ls, rfl, rfl⟩
    · obtain ⟨pre, l, post, rfl, hz⟩ := ih h
      exact ⟨y :: pre, l, post, rfl, hz⟩

/-! ### Merged lanes (R158) -/

theorem fit_congr {z z' : Int} (h : BitVec.ofInt ty.bits z = BitVec.ofInt ty.bits z') : fit ty false z = fit ty false z' := by
  unfold fit
  rw [if_neg Bool.false_ne_true, if_neg Bool.false_ne_true, h]

/-- But for exchanges, the operations on integers and bits may be taken in any grouping. -/
theorem atomic_assoc (hop : op ≠ .exch ∧ op ≠ .cas) (a b c : Dword) :
    atomic op ty (atomic op ty a b 0) c 0 = atomic op ty a (atomic op ty b c 0) 0 := by
  cases op with
  | exch => exact absurd rfl hop.1
  | cas => exact absurd rfl hop.2
  | and => exact BitVec.and_assoc a b c
  | or => exact BitVec.or_assoc a b c
  | xor => exact BitVec.xor_assoc a b c
  | add =>
    refine fit_congr ?_
    simp only [atomic, BitVec.ofInt_add, ofInt_num, setWidth_fit]
    exact BitVec.add_assoc _ _ _
  | min | max =>
    simp only [atomic]
    grind

/-- Only a compare-and-swap compares. -/
theorem atomicAny_unread (hop : op ≠ .cas) (a b y : Dword) : atomicAny op ty a b y = atomicAny op ty a b 0 := by
  cases op with
  | cas => exact absurd rfl hop
  | _ => cases ty <;> rfl

theorem atomicAny_exact (hty : inexactType ty = false) (a b y : Dword) : atomicAny op ty a b y = atomic op ty a b y := by
  cases ty with
  | f32 | bx2 | hx2 => cases hty
  | _ => rfl

/-- The operands of merged lanes, combined. -/
def combined (op : AOp) (ty : Ty) (x : Dword) (ls : ALanes) : Dword := ls.foldl (fun a z => atomicAny op ty a z.2.1 0) x

theorem mergedOperand_agrees (hty : ty ∈ op.types) (x : Nat × Dword × Dword) (ls : ALanes) :
    Agrees ty (mergedOperand op ty (x :: ls)) (combined op ty x.2.1 ls) := by
  have key : ∀ (ls : ALanes) (v : Nat) (w : Dword), Agrees ty v w →
      Agrees ty (ls.foldl (fun a b => aopApply op ty a b.2.1.toNat 0) v) (combined op ty w ls) := by
    intro ls
    induction ls with
    | nil => exact fun v w h => h
    | cons y ls ih => exact fun v w h => ih _ _ (aopApply_agrees hty h (Agrees.refl ty y.2.1) 0)
  exact key ls _ _ (Agrees.refl ty x.2.1)

/-- But for exchanges, merged lanes leave what their combined operand leaves. -/
theorem lanesMerged_eq (hop : op ≠ .exch ∧ op ≠ .cas) (w : Dword) (x : Nat × Dword × Dword) (ls : ALanes) :
    lanesMerged op ty w (x :: ls) = atomicAny op ty w (combined op ty x.2.1 ls) 0 := by
  cases ls with
  | nil => exact atomicAny_unread hop.2 _ _ _
  | cons y r =>
    rw [lanesMerged]
    cases hty : inexactType ty with
    | true => exact if_pos rfl
    | false =>
      have hassoc : Std.Associative fun a b => atomic op ty a b 0 := ⟨atomic_assoc hop⟩
      have hexact : ∀ a b y, atomicAny op ty a b y = atomic op ty a b 0 := fun a b y => by
        rw [atomicAny_unread hop.2, atomicAny_exact hty]
      rw [if_neg Bool.false_ne_true, lanesAfter, combined]
      simp only [hexact]
      rw [List.foldl_cons, ← List.foldl_map (f := fun z : Nat × Dword × Dword => z.2.1) (g := fun a b => atomic op ty a b 0),
        ← List.foldl_map (f := fun z : Nat × Dword × Dword => z.2.1) (g := fun a b => atomic op ty a b 0), List.foldl_assoc]

/-- The word that merged lanes leave. -/
theorem mergedResult_agrees (hty : ty ∈ op.types) (hv : Agrees ty v w) {ls : ALanes} (hls : ls ≠ []) :
    Agrees ty (mergedResult op ty v ls) (lanesMerged op ty w ls) := by
  obtain ⟨x, r, rfl⟩ := List.exists_cons_of_ne_nil hls
  have hsequence : inexactType ty = false → lanesMerged op ty w (x :: r) = lanesAfter op ty w (x :: r) := fun h => by
    cases r with
    | nil => rfl
    | cons y r => rw [lanesMerged, h, if_neg Bool.false_ne_true]
  by_cases hop : op ≠ .exch ∧ op ≠ .cas
  · have hresult : mergedResult op ty v (x :: r) = aopApply op ty v (mergedOperand op ty (x :: r)) 0 := by
      cases op with
      | exch => exact absurd rfl hop.1
      | cas => exact absurd rfl hop.2
      | _ => rfl
    rw [hresult, lanesMerged_eq hop]
    exact aopApply_agrees hty hv (mergedOperand_agrees hty x r) 0
  · have hexch : op = .exch ∨ op = .cas := by
      by_cases h : op = .exch
      · exact .inl h
      · exact .inr (not_not.mp fun hcas => hop ⟨h, hcas⟩)
    have hexact : inexactType ty = false := by
      rcases hexch with rfl | rfl <;>
      · simp only [AOp.types, List.mem_cons, List.not_mem_nil, or_false] at hty
        rcases hty with rfl | rfl <;> rfl
    have hresult : mergedResult op ty v (x :: r) = unitAfter op ty v (x :: r) := by
      rcases hexch with rfl | rfl <;> rfl
    rw [hresult, hsequence hexact]
    exact unitAfter_agrees hty _ hv

end Agrees

end Sys2Proof.Machine
end

section
/-! SUPPORT. The registers that an atomic's returned values fill (R80, R249). -/

namespace Sys2Proof.Machine

open Sys2Proof Sys2Proof.Said

/-- An atomic's word has 32 or 64 bits (R248). -/
theorem atomicType_width (op : AOp) :
    ∀ ty ∈ op.types, ty.is64 = true ∧ ty.bits = 64 ∧ ty.bytes = 8 ∨ ty.is64 = false ∧ ty.bits = 32 ∧ ty.bytes = 4 := by
  cases op <;> decide

/-- The registers of a lane that a value of a type fills (R80). -/
def destWrites (ty : Ty) (d lane : Nat) (w : Dword) : List (Nat × Word) :=
  if ty.is64 then [(lane * 256 + d, w.setWidth 32), (lane * 256 + d + 1, (w >>> 32).setWidth 32)]
  else [(lane * 256 + d, w.setWidth 32)]

/-- What a value of an atomic's type fills the registers with depends on the bits of its type alone. -/
theorem destWrites_congr {op : AOp} {ty : Ty} (hty : ty ∈ op.types) {w w' : Dword} (h : w.setWidth ty.bits = w'.setWidth ty.bits) (d lane : Nat) :
    destWrites ty d lane w = destWrites ty d lane w' := by
  rcases atomicType_width op ty hty with ⟨h64, hbits, -⟩ | ⟨h64, hbits, -⟩
  · rw [hbits] at h
    rw [show w = w' by simpa using h]
  · rw [hbits] at h
    rw [destWrites, destWrites, h64, h]
    rfl

/-- Registers of one team are written, sleepers may be woken, scratchpads written; the rest stays. -/
structure Drawn (s t : State) (c sl tm : Nat) (ws : List (Nat × Word)) : Prop where
  rest : t = { s with cores := t.cores, ctls := t.ctls }
  kept : ∀ c' sl' e, Kept s t c' sl' e
  vregs : (t.team c sl tm).v = (s.team c sl tm).v.setAll 0 ws
  sregs : (t.team c sl tm).s = (s.team c sl tm).s
  pregs : (t.team c sl tm).p = (s.team c sl tm).p

namespace Drawn

variable {s u t : State} {c sl tm : Nat} {ws ws' : List (Nat × Word)}

theorem refl (s : State) (c sl tm : Nat) : Drawn s s c sl tm [] := ⟨rfl, fun _ _ _ => ⟨rfl, rfl, rfl⟩, rfl, rfl, rfl⟩

theorem trans (h : Drawn s u c sl tm ws) (k : Drawn u t c sl tm ws') : Drawn s t c sl tm (ws ++ ws') where
  rest := by rw [k.rest, h.rest]
  kept c' sl' e := ⟨(k.kept c' sl' e).team.trans (h.kept c' sl' e).team, (k.kept c' sl' e).mask.trans (h.kept c' sl' e).mask,
    (k.kept c' sl' e).stack.trans (h.kept c' sl' e).stack⟩
  vregs := by rw [k.vregs, h.vregs, Store.setAll, Store.setAll, Store.setAll, List.foldl_append]
  sregs := k.sregs.trans h.sregs
  pregs := k.pregs.trans h.pregs

theorem of_poked {n : Nat} (h : Poked s t n) (c sl tm : Nat) : Drawn s t c sl tm [] :=
  ⟨h.rest, h.kept, by rw [h.teams]; rfl, by rw [h.teams], by rw [h.teams]⟩

theorem sameMemory (h : Drawn s t c sl tm ws) : SameMemory s t := by
  rw [h.rest]
  exact ⟨rfl, rfl, rfl, rfl, rfl⟩

theorem setEntry {c' sl' e : Nat} {x : Entry} (hteam : x.team = (s.entry c' sl' e).team) (hmask : x.mask = (s.entry c' sl' e).mask)
    (hstack : x.stack = (s.entry c' sl' e).stack) (c sl tm : Nat) : Drawn s (s.setEntry c' sl' e x) c sl tm [] := by
  refine ⟨rfl, fun c'' sl'' e'' => ?_, by rw [State.team_setEntry]; rfl, by rw [State.team_setEntry], by rw [State.team_setEntry]⟩
  by_cases h : c'' = c' ∧ sl'' = sl' ∧ e'' = e
  · obtain ⟨rfl, rfl, rfl⟩ := h
    rw [← State.entry_setEntry_same (s := s) c'' sl'' e'' x] at hteam hmask hstack
    exact ⟨hteam, hmask, hstack⟩
  · exact Kept.of_entry (by rw [State.entry_setEntry, if_neg h])

end Drawn

theorem State.scratch_setEntry (s : State) (c sl e n : Nat) (x : Entry) : ((s.setEntry c sl e x).core n).scratch = (s.core n).scratch := by
  rw [State.setEntry, State.core_setSlot]
  split
  · next h => rw [h]
  · rfl

theorem State.scratch_setTeam (s : State) (c sl e n : Nat) (x : Team) : ((s.setTeam c sl e x).core n).scratch = (s.core n).scratch := by
  rw [State.setTeam, State.core_setSlot]
  split
  · next h => rw [h]
  · rfl

/-- What is written into checkpoints stays in them (R74). -/
theorem State.patchCheckpoint_drawn (s : State) (c sl tm : Nat) (ws : List (Nat × Word)) :
    Drawn s (s.patchCheckpoint c sl tm ws) c sl tm [] ∧ SameScratch s (s.patchCheckpoint c sl tm ws) := by
  unfold State.patchCheckpoint
  induction (s.slot c sl).entriesOf tm using List.reverseRecOn with
  | nil => exact ⟨Drawn.refl s c sl tm, fun _ => rfl⟩
  | append_singleton es e ih =>
    rw [List.foldl_append, List.foldl_cons, List.foldl_nil]
    generalize List.foldl _ s es = u at ih
    obtain ⟨hdrawn, hscratch⟩ := ih
    dsimp only
    split
    · exact ⟨hdrawn, hscratch⟩
    · exact ⟨hdrawn.trans (Drawn.setEntry (by rfl) (by rfl) (by rfl) c sl tm), fun n => (State.scratch_setEntry _ c sl e n _).trans (hscratch n)⟩

/-- The registers that a returned value is written to, as the model counts them. -/
theorem destWrites_ofNat {op : AOp} {ty : Ty} (hty : ty ∈ op.types) (d lane v : Nat) :
    (if ty.is64 then [(lane * 256 + d, BitVec.ofNat 32 (v % 256 ^ ty.bytes)), (lane * 256 + d + 1, BitVec.ofNat 32 (v % 256 ^ ty.bytes / 2 ^ 32))]
      else [(lane * 256 + d, BitVec.ofNat 32 (extend ty 32 (v % 256 ^ ty.bytes)))]) = destWrites ty d lane (BitVec.ofNat 64 v) := by
  unfold destWrites
  rcases atomicType_width op ty hty with ⟨h64, -, hbytes⟩ | ⟨h64, hbits, hbytes⟩
  · rw [if_pos h64, if_pos h64, hbytes]
    have hlow : BitVec.ofNat 32 (v % 256 ^ 8) = (BitVec.ofNat 64 v).setWidth 32 := by
      apply BitVec.eq_of_toNat_eq
      simp only [BitVec.toNat_ofNat, BitVec.toNat_setWidth]
      rfl
    have hhigh : BitVec.ofNat 32 (v % 256 ^ 8 / 2 ^ 32) = (BitVec.ofNat 64 v >>> 32).setWidth 32 := by
      apply BitVec.eq_of_toNat_eq
      simp only [BitVec.toNat_ofNat, BitVec.toNat_setWidth, BitVec.toNat_ushiftRight, Nat.shiftRight_eq_div_pow]
      rfl
    rw [hlow, hhigh]
  · have hextend : extend ty 32 (v % 256 ^ 4) = v % 2 ^ 32 := by
      rw [extend, hbits, show decide (32 < 32) = false from rfl, Bool.and_false, if_neg Bool.false_ne_true]
      exact Nat.mod_mod _ _
    rw [if_neg (by rw [h64]; exact Bool.false_ne_true), if_neg (by rw [h64]; exact Bool.false_ne_true), hbytes, hextend]
    have hlow : BitVec.ofNat 32 (v % 2 ^ 32) = (BitVec.ofNat 64 v).setWidth 32 := by
      apply BitVec.eq_of_toNat_eq
      simp only [BitVec.toNat_ofNat, BitVec.toNat_setWidth]
      omega
    rw [hlow]

/-- A returned value fills its lane's registers. -/
theorem State.writeDest_drawn {op : AOp} {ty : Ty} (hty : ty ∈ op.types) (s : State) (c sl tm d lane v : Nat) :
    Drawn s (s.writeDest (.team c sl tm) { reg := d, ty := ty, n := 1, lanes := [] } lane (bytesOfNat ty.bytes v)) c sl tm
        (destWrites ty d lane (BitVec.ofNat 64 v)) ∧
      SameScratch s (s.writeDest (.team c sl tm) { reg := d, ty := ty, n := 1, lanes := [] } lane (bytesOfNat ty.bytes v)) := by
  have hel : natOfBytes (((bytesOfNat ty.bytes v).drop (0 * ty.bytes)).take ty.bytes) = v % 256 ^ ty.bytes := by
    rw [Nat.zero_mul, List.drop_zero, List.take_of_length_le (bytesOfNat_length _ _).le, natOfBytes_bytesOfNat]
  unfold State.writeDest
  dsimp only
  simp only [List.range_one, List.flatMap_singleton, hel, Nat.mul_zero, Nat.add_zero, destWrites_ofNat hty]
  obtain ⟨hdrawn, hscratch⟩ := s.patchCheckpoint_drawn c sl tm (destWrites ty d lane (BitVec.ofNat 64 v))
  refine ⟨⟨?_, fun c' sl' e => ?_, ?_, ?_, ?_⟩, fun n => (State.scratch_setTeam _ c sl tm n _).trans (hscratch n)⟩
  · rw [hdrawn.rest]
    rfl
  · obtain ⟨hteam, hmask, hstack⟩ := hdrawn.kept c' sl' e
    exact ⟨by rw [State.entry_setTeam, hteam], by rw [State.entry_setTeam, hmask], by rw [State.entry_setTeam, hstack]⟩
  all_goals rw [State.team_setTeam_same]

/-- The values that lanes are given fill their registers (R249). -/
def returnWrites (ty : Ty) (ret : Option Nat) (vals : List (Nat × Nat)) : List (Nat × Word) :=
  match ret with
  | none => []
  | some d => vals.flatMap fun z => destWrites ty d z.1 (BitVec.ofNat 64 z.2)

theorem State.giveAtomic_drawn {op : AOp} {ty : Ty} (hty : ty ∈ op.types) (s : State) (c sl tm : Nat) (ret : Option Nat) (vals : List (Nat × Nat)) :
    Drawn s (s.giveAtomic (.team c sl tm) ty ret vals) c sl tm (returnWrites ty ret vals) ∧
      SameScratch s (s.giveAtomic (.team c sl tm) ty ret vals) := by
  cases ret with
  | none => exact ⟨Drawn.refl s c sl tm, fun _ => rfl⟩
  | some d =>
    unfold State.giveAtomic returnWrites
    dsimp only
    induction vals using List.reverseRecOn with
    | nil => exact ⟨Drawn.refl s c sl tm, fun _ => rfl⟩
    | append_singleton vals z ih =>
      rw [List.foldl_append, List.foldl_cons, List.foldl_nil, List.flatMap_append, List.flatMap_singleton]
      obtain ⟨hdrawn, hscratch⟩ := ih
      obtain ⟨hlast, hkeep⟩ := State.writeDest_drawn hty _ c sl tm d z.1 z.2
      exact ⟨hdrawn.trans hlast, fun n => (hkeep n).trans (hscratch n)⟩

/-- The value of a word of a core's scratchpad. -/
def scrNum (s : State) (c n a : Nat) : Nat := little n fun q => (s.core c).scratch.get 0 (a + q)

/-- A bank's atomic unit changes one word and gives the lanes their values (R157, R249). -/
theorem State.bankAtomic_drawn {op : AOp} {ty : Ty} (hty : ty ∈ op.types) (s : State) (core a c sl tm : Nat) (ls : ALanes) (ret : Option Nat) :
    Drawn s (s.bankAtomic core a (.team c sl tm) op ty ls ret) c sl tm (returnWrites ty ret (laneReturns op ty (scrNum s core ty.bytes a) ls)) ∧
      ((s.bankAtomic core a (.team c sl tm) op ty ls ret).core core).scratch =
        writeBytes (s.core core).scratch a (bytesOfNat ty.bytes (mergedResult op ty (scrNum s core ty.bytes a) ls)) := by
  have hold : natOfBytes (s.readScr core a ty.bytes) = scrNum s core ty.bytes a := natOfBytes_readBytes _ _ _
  unfold State.bankAtomic
  dsimp only
  rw [hold]
  obtain ⟨hdrawn, hscratch⟩ := State.giveAtomic_drawn hty
    (s.storeScr core a (bytesOfNat ty.bytes (mergedResult op ty (scrNum s core ty.bytes a) ls))) c sl tm ret
      (laneReturns op ty (scrNum s core ty.bytes a) ls)
  exact ⟨(Drawn.of_poked (Poked.storeScr s core a _) c sl tm).trans hdrawn,
    (hscratch core).trans (State.storeScr_stored s core a _).scratch⟩

end Sys2Proof.Machine
end

section
/-! SUPPORT. The words of a scratchpad under the atomics on it, one word after another (R158, R249). -/

namespace Sys2Proof.Machine

open Sys2Proof Sys2Proof.Said

/-! ### Words apart -/

/-- Multiples of a size lie a size apart. -/
theorem apart_of_dvd {n a b : Nat} (ha : n ∣ a) (hb : n ∣ b) (h : a ≠ b) : a + n ≤ b ∨ b + n ≤ a := by
  obtain ⟨j, rfl⟩ := ha
  obtain ⟨k, rfl⟩ := hb
  rcases Nat.lt_or_gt_of_ne fun hjk : j = k => h (by rw [hjk]) with hlt | hlt
  · exact .inl (Nat.mul_le_mul_left n hlt)
  · exact .inr (Nat.mul_le_mul_left n hlt)

theorem scrNum_congr {s t : State} {c n a : Nat} (h : ∀ q < n, (t.core c).scratch.get 0 (a + q) = (s.core c).scratch.get 0 (a + q)) :
    scrNum t c n a = scrNum s c n a := by
  rw [scrNum, scrNum, little, little]
  exact congrArg List.sum (List.map_congr_left fun q hq => by rw [h q (List.mem_range.mp hq)])

theorem scrNum_lt (s : State) (c n a : Nat) : scrNum s c n a < 256 ^ n := by
  rw [scrNum, ← natOfBytes_readBytes]
  exact (natOfBytes_lt _).trans_eq (by rw [readBytes, List.length_map, List.length_range])

theorem scrNum_written {s t : State} {c a n v : Nat} (h : (t.core c).scratch = writeBytes (s.core c).scratch a (bytesOfNat n v)) :
    scrNum t c n a = v % 256 ^ n := by
  have hlen := bytesOfNat_length n v
  have hread := readBytes_writeBytes (s.core c).scratch a 0 n (bytesOfNat n v) (by omega)
  rw [scrNum, h, ← natOfBytes_readBytes, ← natOfBytes_bytesOfNat]
  exact congrArg natOfBytes (hread.trans (List.take_of_length_le hlen.le))

/-! ### One word after another -/

section Words

variable {op : AOp} {ty : Ty} {s : State} {c sl tm : Nat} {ret : Option Nat} {at_ : Nat × ALanes → Nat}

/-- The registers that a word's lanes are given. -/
def wordWrites (op : AOp) (ty : Ty) (s : State) (c : Nat) (ret : Option Nat) (at_ : Nat × ALanes → Nat) (w : Nat × ALanes) : List (Nat × Word) :=
  returnWrites ty ret (laneReturns op ty (scrNum s c ty.bytes (at_ w)) w.2)

/-- `RED` gives no lane a value (R248). -/
theorem flatMap_wordWrites_none (ws : List (Nat × ALanes)) : ws.flatMap (wordWrites op ty s c none at_) = [] :=
  List.flatMap_eq_nil_iff.mpr fun _ _ => rfl

/-- Each word holds its merged operation, and no other byte has changed. -/
structure WordsMerged (op : AOp) (ty : Ty) (s t : State) (c : Nat) (at_ : Nat × ALanes → Nat) (ws : List (Nat × ALanes)) : Prop where
  merged : ∀ w ∈ ws, scrNum t c ty.bytes (at_ w) = mergedResult op ty (scrNum s c ty.bytes (at_ w)) w.2 % 256 ^ ty.bytes
  others : ∀ a, (∀ w ∈ ws, ¬ (at_ w ≤ a ∧ a < at_ w + ty.bytes)) → (t.core c).scratch.get 0 a = (s.core c).scratch.get 0 a

/-- Words that lie apart are merged one after another, as if each were the only one. -/
theorem foldl_bankAtomic (hty : ty ∈ op.types) {f : State → Nat × ALanes → State} (ws : List (Nat × ALanes))
    (hf : ∀ u w rs, w ∈ ws → Drawn s u c sl tm rs → f u w = u.bankAtomic c (at_ w) (.team c sl tm) op ty w.2 ret)
    (hapart : ws.Pairwise fun w w' => at_ w + ty.bytes ≤ at_ w' ∨ at_ w' + ty.bytes ≤ at_ w) :
    Drawn s (ws.foldl f s) c sl tm (ws.flatMap (wordWrites op ty s c ret at_)) ∧ WordsMerged op ty s (ws.foldl f s) c at_ ws := by
  induction ws using List.reverseRecOn with
  | nil => exact ⟨Drawn.refl s c sl tm, fun w hw => (nomatch hw), fun _ _ => rfl⟩
  | append_singleton ws w ih =>
    obtain ⟨hapart, -, hlast⟩ := List.pairwise_append.mp hapart
    obtain ⟨hdrawn, hmerged⟩ := ih (fun u x rs hx => hf u x rs (List.mem_append_left _ hx)) hapart
    have hfw := hf _ w _ (List.mem_append_right _ (List.mem_singleton_self w)) hdrawn
    rw [List.foldl_append, List.foldl_cons, List.foldl_nil, hfw, List.flatMap_append, List.flatMap_singleton]
    generalize List.foldl f s ws = u at hdrawn hmerged
    have hfar : ∀ x ∈ ws, at_ x + ty.bytes ≤ at_ w ∨ at_ w + ty.bytes ≤ at_ x := fun x hx => hlast x hx w (List.mem_singleton_self w)
    have hold : scrNum u c ty.bytes (at_ w) = scrNum s c ty.bytes (at_ w) := scrNum_congr fun q hq => hmerged.others _ fun x hx => by
      have := hfar x hx
      omega
    obtain ⟨hnew, hscratch⟩ := State.bankAtomic_drawn hty u c (at_ w) c sl tm w.2 ret
    rw [hold] at hnew hscratch
    have hlen := bytesOfNat_length ty.bytes (mergedResult op ty (scrNum s c ty.bytes (at_ w)) w.2)
    refine ⟨hdrawn.trans hnew, fun x hx => ?_, fun a ha => ?_⟩
    · rcases List.mem_append.mp hx with hx | hx
      · rw [← hmerged.merged x hx]
        refine scrNum_congr fun q hq => ?_
        have := hfar x hx
        rw [hscratch]
        exact get_writeBytes_other _ _ _ _ (by omega)
      · rw [List.mem_singleton.mp hx]
        exact scrNum_written hscratch
    · have hout := ha w (List.mem_append_right _ (List.mem_singleton_self w))
      rw [hscratch, get_writeBytes_other _ _ _ _ (by omega)]
      exact hmerged.others a fun x hx => ha x (List.mem_append_left _ hx)

end Words

/-! ### The registers written -/

/-- Of the writes to a key that all write one value, that value stays. -/
theorem Store.get_setAll_of_mem {α : Type} [DecidableEq α] {d : α} (m : Store α) {xs : List (Nat × α)} {k : Nat} {v : α} (hmem : (k, v) ∈ xs)
    (hall : ∀ w, (k, w) ∈ xs → w = v) : (m.setAll d xs).get d k = v := by
  induction xs using List.reverseRecOn with
  | nil => cases hmem
  | append_singleton xs z ih =>
    have hstep : m.setAll d (xs ++ [z]) = (m.setAll d xs).set d z.1 z.2 := by
      rw [Store.setAll, List.foldl_append]
      rfl
    rw [hstep, Store.get_set]
    split
    · next hk => exact hall z.2 (List.mem_append_right _ (by rw [hk]; exact List.mem_singleton_self z))
    · next hk =>
      refine ih ?_ fun w hw => hall w (List.mem_append_left _ hw)
      rcases List.mem_append.mp hmem with h | h
      · exact h
      · exact absurd (congrArg Prod.fst (List.mem_singleton.mp h)) hk

/-- The register of a lane, out of the values that some lanes are given. -/
theorem get_destWrites {ty : Ty} {d : Nat} {g : Nat → Dword} {ls : List Nat} {xs : List (Nat × Word)} (m : Store Word)
    (hxs : ∀ z, z ∈ xs ↔ ∃ l ∈ ls, z ∈ destWrites ty d l (g l)) (hd : d < 256) (hpair : ty.is64 = true → d + 1 < 256) {l r : Nat} (hr : r < 256) :
    (m.setAll 0 xs).get 0 (l * 256 + r) = (if l ∈ ls then
        if r = d then some ((g l).setWidth 32) else if ty.is64 && r == d + 1 then some ((g l >>> 32).setWidth 32) else none
      else none).getD (m.get 0 (l * 256 + r)) := by
  have hwrites : ∀ w, (l * 256 + r, w) ∈ xs ↔ l ∈ ls ∧
      (r = d ∧ w = (g l).setWidth 32 ∨ ty.is64 = true ∧ r = d + 1 ∧ w = (g l >>> 32).setWidth 32) := by
    intro w
    rw [hxs]
    constructor
    · rintro ⟨n, hn, hz⟩
      unfold destWrites at hz
      split at hz
      · next h64 =>
        have := hpair h64
        simp only [List.mem_cons, List.not_mem_nil, or_false, Prod.mk.injEq] at hz
        rcases hz with ⟨hkey, hw⟩ | ⟨hkey, hw⟩
        · obtain rfl : l = n := by omega
          exact ⟨hn, .inl ⟨by omega, hw⟩⟩
        · obtain rfl : l = n := by omega
          exact ⟨hn, .inr ⟨h64, by omega, hw⟩⟩
      · obtain ⟨hkey, hw⟩ := Prod.mk.inj (List.mem_singleton.mp hz)
        obtain rfl : l = n := by omega
        exact ⟨hn, .inl ⟨by omega, hw⟩⟩
    · rintro ⟨hl, ⟨rfl, rfl⟩ | ⟨h64, rfl, rfl⟩⟩
      · refine ⟨l, hl, ?_⟩
        unfold destWrites
        split
        · exact List.mem_cons_self
        · exact List.mem_singleton_self _
      · refine ⟨l, hl, ?_⟩
        rw [destWrites, if_pos h64, ← Nat.add_assoc]
        exact List.mem_cons_of_mem _ (List.mem_singleton_self _)
  have hnone : (∀ w, (l * 256 + r, w) ∉ xs) → (m.setAll 0 xs).get 0 (l * 256 + r) = m.get 0 (l * 256 + r) := fun h =>
    Store.get_setAll_other fun z hz hk => h z.2 (by rw [← hk]; exact hz)
  by_cases hl : l ∈ ls
  · rw [if_pos hl]
    by_cases hrd : r = d
    · rw [if_pos hrd]
      exact Store.get_setAll_of_mem m ((hwrites _).mpr ⟨hl, .inl ⟨hrd, rfl⟩⟩) fun w hw => by
        rcases (hwrites w).mp hw with ⟨-, ⟨-, hw⟩ | ⟨-, hr', -⟩⟩
        · exact hw
        · omega
    · rw [if_neg hrd]
      by_cases hhigh : ty.is64 = true ∧ r = d + 1
      · rw [if_pos (by rw [hhigh.1, hhigh.2, Bool.true_and, beq_self_eq_true])]
        exact Store.get_setAll_of_mem m ((hwrites _).mpr ⟨hl, .inr ⟨hhigh.1, hhigh.2, rfl⟩⟩) fun w hw => by
          rcases (hwrites w).mp hw with ⟨-, ⟨hr', -⟩ | ⟨-, -, hw⟩⟩
          · exact absurd hr' hrd
          · exact hw
      · rw [if_neg fun h => hhigh ⟨(Bool.and_eq_true_iff.mp h).1, eq_of_beq (Bool.and_eq_true_iff.mp h).2⟩]
        exact hnone fun w hw => by
          rcases (hwrites w).mp hw with ⟨-, ⟨hr', -⟩ | ⟨h64, hr', -⟩⟩
          · exact hrd hr'
          · exact hhigh ⟨h64, hr'⟩
  · rw [if_neg hl]
    exact hnone fun w hw => hl ((hwrites w).mp hw).1

end Sys2Proof.Machine
end

section
/-! Atomics on this core's scratchpad (O21). -/

namespace Sys2Proof.Machine

open Sys2Proof Sys2Proof.Said

section Near

variable {s u : State} {c sl e : Nat} {i : Instr} {o : Atm} {p : List (Nat × Nat)} {ret : Option Nat} {k : Right}

/-- The scratchpad byte of a lane's word. -/
def atmByte (s : State) (c sl e : Nat) (o : Atm) (l : Nat) : Nat := (nearByte s c sl e o.space (atmAt s c sl e o l) o.ty.bytes).getD 0

/-- The scratchpad byte that a word's address names. -/
def wordByte (s : State) (c sl e : Nat) (o : Atm) (w : Nat × ALanes) : Nat :=
  match o.space with
  | .l => (parcel s c sl e).base + w.1
  | _ => ((tarn s c sl e w.1 o.ty.bytes).getD (0, 0)).2

/-- Every active lane's word is in this core's scratchpad. -/
def AllNear (s : State) (c sl e : Nat) (i : Instr) (o : Atm) : Prop :=
  ∀ l, active s c sl e i l = true → (nearByte s c sl e o.space (atmAt s c sl e o l) o.ty.bytes).isSome

/-- An address of this core's Tarn region reaches a byte of its scratchpad. -/
theorem nearByte_tarn {a : Int} {n : Nat} (h : (nearByte s c sl e .c a n).isSome) :
    tarn s c sl e a.toNat n = some (c, (nearByte s c sl e .c a n).getD 0) := by
  unfold nearByte at h ⊢
  dsimp only at h ⊢
  cases htarn : tarn s c sl e a.toNat n with
  | none => rw [htarn] at h; cases h
  | some x =>
    rw [htarn] at h
    dsimp only at h ⊢
    by_cases hx : x.1 = c
    · rw [if_pos hx]
      exact congrArg some (Prod.ext hx rfl)
    · rw [if_neg hx] at h
      cases h

/-- Only `.l` and `.c` reach this core's scratchpad. -/
theorem near_space {l : Nat} (h : (nearByte s c sl e o.space (atmAt s c sl e o l) o.ty.bytes).isSome) : o.space = .l ∨ o.space = .c := by
  cases hsp : o.space with
  | l => exact .inl rfl
  | c => exact .inr rfl
  | g | p => rw [hsp] at h; cases h

theorem atmByte_eq {l : Nat} (h : (nearByte s c sl e o.space (atmAt s c sl e o l) o.ty.bytes).isSome) {w : Nat × ALanes}
    (hw : w.1 = atmPlace s c sl e o l) : wordByte s c sl e o w = atmByte s c sl e o l := by
  rcases near_space h with hsp | hsp
  · rw [wordByte, hw, atmByte, atmPlace, hsp]
    rfl
  · rw [wordByte, hw, atmByte, atmPlace, hsp]
    rw [hsp] at h
    dsimp only
    rw [place, if_neg (by decide), nearByte_tarn h]
    rfl

/-- The words of the lanes lie apart. -/
theorem atmByte_apart (hty : o.ty ∈ o.op.types) (hlegal : Legal s c sl e i o.space (atmAt s c sl e o) o.ty.bytes k) (hnear : AllNear s c sl e i o)
    {l m : Nat} (hl : active s c sl e i l = true) (hm : active s c sl e i m = true) (h : atmPlace s c sl e o l ≠ atmPlace s c sl e o m) :
    atmByte s c sl e o l + o.ty.bytes ≤ atmByte s c sl e o m ∨ atmByte s c sl e o m + o.ty.bytes ≤ atmByte s c sl e o l := by
  have halign : ∀ n, active s c sl e i n = true → o.space ≠ .g → o.ty.bytes ∣ atmPlace s c sl e o n := fun n hn hsp => by
    obtain ⟨hmod, -⟩ := hlegal n hn
    rw [atmPlace, place, if_neg hsp]
    rcases le_total 0 (atmAt s c sl e o n) with hpos | hneg
    · rw [← Int.natCast_dvd_natCast, Int.toNat_of_nonneg hpos]
      exact Int.dvd_of_emod_eq_zero hmod
    · rw [Int.toNat_of_nonpos hneg]
      exact dvd_zero _
  rcases near_space (hnear l hl) with hsp | hsp
  · have hbyte : ∀ n, atmByte s c sl e o n = (parcel s c sl e).base + atmPlace s c sl e o n := fun n => by
      rw [atmByte, atmPlace, hsp]
      rfl
    have := apart_of_dvd (halign l hl (by rw [hsp]; decide)) (halign m hm (by rw [hsp]; decide)) h
    rw [hbyte, hbyte]
    omega
  · have htarn : ∀ n, active s c sl e i n = true → tarn s c sl e (atmPlace s c sl e o n) o.ty.bytes = some (c, atmByte s c sl e o n) := fun n hn => by
      have hsome := hnear n hn
      rw [hsp] at hsome
      rw [atmPlace, atmByte, hsp]
      exact nearByte_tarn hsome
    have hwhere : ∀ n, active s c sl e i n = true → c = 16 * clusterOf c + atmPlace s c sl e o n / 2 ^ 18 ∧
        atmByte s c sl e o n = scratchSize - s.tarnSize c (parcel s c sl e).lid + atmPlace s c sl e o n % 2 ^ 18 := fun n hn => by
      have hx := htarn n hn
      rw [tarn, State.tarnAt] at hx
      obtain ⟨-, hx⟩ := Option.ite_none_right_eq_some.mp hx
      obtain ⟨hc, hb⟩ := Prod.mk.inj (Option.some.inj hx)
      rw [hc] at hb
      exact ⟨hc.symm, hb.symm⟩
    have hpow : o.ty.bytes ∣ 2 ^ 18 := by
      rcases atomicType_width o.op o.ty hty with ⟨-, -, hbytes⟩ | ⟨-, -, hbytes⟩ <;> rw [hbytes] <;> decide
    obtain ⟨hcl, hbl⟩ := hwhere l hl
    obtain ⟨hcm, hbm⟩ := hwhere m hm
    have := apart_of_dvd ((Nat.dvd_mod_iff hpow).mpr (halign l hl (by rw [hsp]; decide)))
      ((Nat.dvd_mod_iff hpow).mpr (halign m hm (by rw [hsp]; decide))) (by omega)
    omega

/-- Two lanes name one word just where they name one byte. -/
theorem atmByte_inj (hty : o.ty ∈ o.op.types) (hlegal : Legal s c sl e i o.space (atmAt s c sl e o) o.ty.bytes k) (hnear : AllNear s c sl e i o)
    {l m : Nat} (hl : active s c sl e i l = true) (hm : active s c sl e i m = true) :
    atmByte s c sl e o l = atmByte s c sl e o m ↔ atmPlace s c sl e o l = atmPlace s c sl e o m := by
  have hpos : 0 < o.ty.bytes := by cases o.ty <;> decide
  constructor
  · intro h
    by_contra hne
    have := atmByte_apart hty hlegal hnear hl hm hne
    omega
  · intro h
    rw [← atmByte_eq (hnear l hl) (w := (atmPlace s c sl e o l, [])) rfl, ← atmByte_eq (hnear m hm) (w := (atmPlace s c sl e o m, [])) rfl, h]

/-! ### What the operands say of an atomic (R248) -/

theorem AtomicForm.type (hi : AtomicForm i o ret) (hwf : i.wf = true) : o.ty ∈ o.op.types := by
  rcases hi with ⟨hd, rfl, -⟩ | ⟨hd, rfl, -⟩
  · have hok : o.ok = true := hwf
    simp only [Atm.ok, Bool.and_eq_true, List.contains_iff_mem] at hok
    exact hok.1.1.1.1
  · have hok : o.redOk = true := hwf
    simp only [Atm.redOk, Bool.and_eq_true, List.contains_iff_mem] at hok
    exact hok.1.1.1.1.1.1

/-- Only an atomic on memory is an acquire or a release. -/
theorem AtomicForm.plain (hi : AtomicForm i o ret) (hwf : i.wf = true) (hsp : o.space ≠ .g) : o.var = .none := by
  rcases hi with ⟨hd, rfl, -⟩ | ⟨hd, rfl, -⟩
  · have hok : o.ok = true := hwf
    simp only [Atm.ok, Bool.and_eq_true, Bool.or_eq_true, beq_iff_eq] at hok
    exact hok.1.1.1.2.resolve_left hsp
  · have hok : o.redOk = true := hwf
    simp only [Atm.redOk, Bool.and_eq_true, beq_iff_eq] at hok
    exact hok.1.1.1.1.1.2

/-- A pair of registers starts at an even one (R80). -/
theorem AtomicForm.pair {d : Nat} (hi : AtomicForm i o (some d)) (hwf : i.wf = true) (h64 : o.ty.is64 = true) : d + 1 < 256 := by
  rcases hi with ⟨hd, rfl, hret⟩ | ⟨hd, -, hret⟩
  · have hok : o.ok = true := hwf
    simp only [Atm.ok, h64, Bool.and_eq_true, Bool.not_true, Bool.false_or, evenReg, decide_eq_true_eq] at hok
    have hlt := o.d.isLt
    rw [Option.some.inj hret]
    omega
  · cases hret

/-! ### The words' merged operations and the lanes' values -/

/-- The word of a lane's number. -/
def atmOld (s : State) (c sl e : Nat) (o : Atm) (l : Nat) : Dword := BitVec.ofNat 64 (scrNum s c o.ty.bytes (atmByte s c sl e o l))

theorem atmOld_agrees (l : Nat) : Agrees o.ty (scrNum s c o.ty.bytes (atmByte s c sl e o l)) (atmOld s c sl e o l) := by
  have hlt := scrNum_lt s c o.ty.bytes (atmByte s c sl e o l)
  have hbytes : 256 ^ o.ty.bytes ≤ 2 ^ 64 := by cases o.ty <;> decide
  have hval : (atmOld s c sl e o l).toNat = scrNum s c o.ty.bytes (atmByte s c sl e o l) := by
    rw [atmOld, BitVec.toNat_ofNat]
    exact Nat.mod_eq_of_lt (hlt.trans_le hbytes)
  have h := Agrees.refl o.ty (atmOld s c sl e o l)
  rwa [hval] at h

/-- Of the lanes of a word, those before one of them. -/
theorem filter_lt_eq {pre post : List Nat} {l : Nat} (h : (pre ++ l :: post).Pairwise (· < ·)) :
    (pre ++ l :: post).filter (fun m => decide (m < l)) = pre := by
  obtain ⟨-, hpost, hpre⟩ := List.pairwise_append.mp h
  rw [List.filter_append, List.filter_eq_self.mpr fun m hm => decide_eq_true (hpre m hm l List.mem_cons_self),
    List.filter_eq_nil_iff.mpr fun m hm => ?_, List.append_nil]
  rcases List.mem_cons.mp hm with rfl | hm
  · simp
  · have := (List.pairwise_cons.mp hpost).1 m hm
    simp
    omega

/-- What a lane of an atomic is given. -/
def atmGiven (s : State) (c sl e : Nat) (i : Instr) (o : Atm) (l : Nat) : Dword :=
  atmAfter s c sl e o (atmOld s c sl e o l) ((atmMates s c sl e o (lanes s c sl e i) l).filter fun m => decide (m < l))

/-- A lane's registers hold the value before its operation. -/
theorem destWrites_given (hty : o.ty ∈ o.op.types) {l : Nat} {pre post : List Nat} (d : Nat)
    (hsplit : atmMates s c sl e o (lanes s c sl e i) l = pre ++ l :: post) :
    destWrites o.ty d l (BitVec.ofNat 64 (unitAfter o.op o.ty (scrNum s c o.ty.bytes (atmByte s c sl e o l)) (pre.map (atmLane s c sl e o)))) =
      destWrites o.ty d l (atmGiven s c sl e i o l) := by
  have hsorted : (pre ++ l :: post).Pairwise (· < ·) := hsplit ▸ (lanes_sorted s c sl e i).filter _
  have hgiven : atmGiven s c sl e i o l = lanesAfter o.op o.ty (atmOld s c sl e o l) (pre.map (atmLane s c sl e o)) := by
    rw [atmGiven, hsplit, filter_lt_eq hsorted, atmAfter, lanesAfter, List.foldl_map]
    rfl
  have hbits : o.ty.bits ≤ 64 := by cases o.ty <;> decide
  refine destWrites_congr hty ?_ d l
  rw [hgiven, BitVec.setWidth_ofNat_of_le hbits]
  exact (unitAfter_agrees hty _ (atmOld_agrees l)).low

/-- The registers that a word's lanes are given, lane by lane. -/
theorem mem_wordWrites (hty : o.ty ∈ o.op.types) (hlegal : Legal s c sl e i o.space (atmAt s c sl e o) o.ty.bytes k) (hnear : AllNear s c sl e i o)
    {m d : Nat} (hm : active s c sl e i m = true) (z : Nat × Word) :
    z ∈ wordWrites o.op o.ty s c (some d) (wordByte s c sl e o) (atmWord s c sl e o (lanes s c sl e i) m) ↔
      ∃ l ∈ atmMates s c sl e o (lanes s c sl e i) m, z ∈ destWrites o.ty d l (atmGiven s c sl e i o l) := by
  have hsame : ∀ l ∈ atmMates s c sl e o (lanes s c sl e i) m,
      atmMates s c sl e o (lanes s c sl e i) l = atmMates s c sl e o (lanes s c sl e i) m ∧ atmByte s c sl e o l = atmByte s c sl e o m := by
    intro l hl
    obtain ⟨hl, hplace⟩ := mem_atmMates.mp hl
    exact ⟨by rw [atmMates, atmMates, hplace], (atmByte_inj hty hlegal hnear ((mem_lanes l).mp hl) hm).mpr hplace⟩
  rw [wordWrites, returnWrites, List.mem_flatMap, atmByte_eq (hnear m hm) rfl]
  constructor
  · rintro ⟨y, hy, hz⟩
    obtain ⟨pre, x, post, hsplit, rfl⟩ := of_mem_laneReturns hy
    obtain ⟨pre, rest, hmates, rfl, hrest⟩ := List.map_eq_append_iff.mp hsplit
    obtain ⟨l, post, rfl, rfl, rfl⟩ := List.map_eq_cons_iff.mp hrest
    have hl : l ∈ atmMates s c sl e o (lanes s c sl e i) m := hmates ▸ List.mem_append_right _ List.mem_cons_self
    obtain ⟨hmates', hbyte⟩ := hsame l hl
    refine ⟨l, hl, ?_⟩
    rw [← destWrites_given hty d (hmates'.trans hmates), hbyte]
    exact hz
  · rintro ⟨l, hl, hz⟩
    obtain ⟨hmates', hbyte⟩ := hsame l hl
    obtain ⟨pre, post, hmates⟩ := List.append_of_mem hl
    refine ⟨(l, unitAfter o.op o.ty (scrNum s c o.ty.bytes (atmByte s c sl e o m)) (pre.map (atmLane s c sl e o))), ?_, ?_⟩
    · rw [atmWord, hmates, List.map_append, List.map_cons]
      exact laneReturns_eq _ _ _ _ (atmLane s c sl e o l) _
    · rw [← destWrites_given hty d (hmates'.trans hmates), hbyte] at hz
      exact hz

/-! ### The issue -/

/-- The words at an issue lie apart in the scratchpad. -/
theorem paced_atomWords_apart (hty : o.ty ∈ o.op.types) (h : Clear s c sl e i) (hp : Ahead s c p)
    (hlegal : Legal s c sl e i o.space (atmAt s c sl e o) o.ty.bytes k) (hnear : AllNear s c sl e i o) :
    ((s.paced c sl e i p).atomWords o (lanes s c sl e i)).Pairwise fun w w' =>
      wordByte s c sl e o w + o.ty.bytes ≤ wordByte s c sl e o w' ∨ wordByte s c sl e o w' + o.ty.bytes ≤ wordByte s c sl e o w := by
  rw [paced_atomWords h hp, List.pairwise_map]
  refine (List.nodup_reverse.mpr (List.nodup_dedup _)).imp_of_mem fun {a b} ha hb hab => ?_
  simp only [List.mem_reverse, List.mem_dedup, List.mem_map] at ha hb
  obtain ⟨l, hl, rfl⟩ := ha
  obtain ⟨m, hm, rfl⟩ := hb
  have hactive := (mem_lanes l).mp hl
  have hactive' := (mem_lanes m).mp hm
  rw [atmByte_eq (hnear l hactive) rfl, atmByte_eq (hnear m hactive') rfl]
  exact atmByte_apart hty hlegal hnear hactive hactive' hab

/-- A word's lanes reach its byte while registers and scratchpads change. -/
theorem Drawn.localByte_atm {rs : List (Nat × Word)} {tm : Nat} (hu : Drawn ((s.paced c sl e i p).signals s) u c sl tm rs) (h : Clear s c sl e i)
    (hp : Ahead s c p) (l : Nat) :
    (s.paced c sl e i p).localByte u (atmAddr o) o.ty.bytes l = nearByte s c sl e o.space (atmAt s c sl e o l) o.ty.bytes := by
  have htarn : u.tarnAt = s.tarnAt := by
    rw [← signals_tarnAt (s.paced c sl e i p) s, hu.rest]
    rfl
  have hsame : (s.paced c sl e i p).localByte u (atmAddr o) o.ty.bytes l = (s.paced c sl e i p).localByte s (atmAddr o) o.ty.bytes l := by
    unfold Iss.localByte
    rw [htarn]
  exact hsame.trans (paced_localByte h hp _ l)

/-- An atomic on this core's scratchpad merges its words one after another. -/
theorem atomicsSent_near (hty : o.ty ∈ o.op.types) (h : Clear s c sl e i) (hp : Ahead s c p)
    (hlegal : Legal s c sl e i o.space (atmAt s c sl e o) o.ty.bytes k) (hnear : AllNear s c sl e i o) (hsp : o.space = .l ∨ o.space = .c)
    (st : ReqSt) :
    Drawn ((s.paced c sl e i p).signals s) (atomicsSent s c sl e i o p ret st).2 c sl (s.entry c sl e).team
        (((s.paced c sl e i p).atomWords o (lanes s c sl e i)).flatMap (wordWrites o.op o.ty s c ret (wordByte s c sl e o))) ∧
      WordsMerged o.op o.ty s (atomicsSent s c sl e i o p ret st).2 c (wordByte s c sl e o)
        ((s.paced c sl e i p).atomWords o (lanes s c sl e i)) := by
  have hbase := Drawn.refl ((s.paced c sl e i p).signals s) c sl (s.entry c sl e).team
  have hlocal : ∀ l, active s c sl e i l = true →
      ((s.paced c sl e i p).localByte ((s.paced c sl e i p).signals s) (atmAddr o) o.ty.bytes l).isSome = true := fun l hl => by
    rw [hbase.localByte_atm h hp]
    exact hnear l hl
  obtain ⟨hall, -⟩ := near_lanes (p := p) h hlocal
  have hnone : ((s.paced c sl e i p).act.filter fun l =>
      !((s.paced c sl e i p).localByte ((s.paced c sl e i p).signals s) (atmAddr o) o.ty.bytes l).isSome) = [] := by
    rw [paced_act h]
    refine List.filter_eq_nil_iff.mpr fun l hl => ?_
    rw [hlocal l ((mem_lanes l).mp hl)]
    exact Bool.false_ne_true
  have hsent : (atomicsSent s c sl e i o p ret st).2 = ((s.paced c sl e i p).atomWords o (lanes s c sl e i)).foldl (fun u w =>
      u.bankAtomic c (((s.paced c sl e i p).localByte u (atmAddr o) o.ty.bytes ((w.2.map Prod.fst).headD 0)).getD 0)
        (.team c sl (s.entry c sl e).team) o.op o.ty w.2 ret) ((s.paced c sl e i p).signals s) := by
    unfold atomicsSent Iss.sendAtomics
    dsimp only
    rw [hall, hnone, show (atmAddr o).sp = o.space from rfl]
    rcases hsp with hsp | hsp <;>
    · rw [hsp]
      rfl
  rw [hsent]
  refine (foldl_bankAtomic (s := (s.paced c sl e i p).signals s) (at_ := wordByte s c sl e o) hty _ (fun u w rs hw hu => ?_)
    (paced_atomWords_apart hty h hp hlegal hnear)).imp id fun hmerged => ⟨hmerged.merged, hmerged.others⟩
  obtain ⟨l, hl, rfl⟩ := (mem_atomWords h hp).mp hw
  rw [atmWord_lanes]
  obtain ⟨m, rest, hmates⟩ := List.exists_cons_of_ne_nil (List.ne_nil_of_mem (mem_atmMates.mpr ⟨hl, rfl⟩ :
    l ∈ atmMates s c sl e o (lanes s c sl e i) l))
  obtain ⟨hm, hplace⟩ := mem_atmMates.mp (hmates ▸ List.mem_cons_self : m ∈ atmMates s c sl e o (lanes s c sl e i) l)
  rw [hmates, List.headD_cons, hu.localByte_atm h hp, atmByte_eq (hnear m ((mem_lanes m).mp hm)) hplace.symm]
  rfl

/-- Whatever the lanes, the issue of an atomic on this core's scratchpad ends with its words merged and its lanes given their values. -/
theorem exec_atomic_near (hi : AtomicForm i o ret) (h : Clear s c sl e i)
    (hlegal : Legal s c sl e i o.space (atmAt s c sl e o) o.ty.bytes .rwa) (hnear : AllNear s c sl e i o) :
    ∃ p bs u t1, Ahead s c p ∧ exec i s = .next ((s.paced c sl e i p).finish s bs (.go t1 {})) ∧ Base s u ∧
      Drawn u t1 c sl (s.entry c sl e).team
        (((s.paced c sl e i p).atomWords o (lanes s c sl e i)).flatMap (wordWrites o.op o.ty s c ret (wordByte s c sl e o))) ∧
      WordsMerged o.op o.ty s t1 c (wordByte s c sl e o) ((s.paced c sl e i p).atomWords o (lanes s c sl e i)) := by
  obtain ⟨p, bs, hp, hexec⟩ := exec_atomic hi h hlegal
  by_cases hnone : lanes s c sl e i = []
  · rw [if_pos hnone, paced_eff] at hexec
    rw [hnone]
    exact ⟨p, bs, s, s, hp, hexec, ⟨rfl⟩, Drawn.refl s c sl _, fun w hw => (nomatch hw), fun _ _ => rfl⟩
  · obtain ⟨l, hl⟩ := List.exists_mem_of_ne_nil _ hnone
    have hsp := near_space (hnear l ((mem_lanes l).mp hl))
    have hplain : o.var = .none := hi.plain h.wf fun hg => by
      rw [hg] at hsp
      rcases hsp with hsp | hsp <;> cases hsp
    rw [if_neg hnone, hplain] at hexec
    obtain ⟨hdrawn, hmerged⟩ := atomicsSent_near (ret := ret) (hi.type h.wf) h hp hlegal hnear hsp .sent
    exact ⟨p, bs, _, _, hp, hexec, signals_base _ s, hdrawn, hmerged⟩

/-- A lane's word holds the merged operation of the lanes that name it. -/
theorem scrNum_merged (hty : o.ty ∈ o.op.types) (h : Clear s c sl e i) (hp : Ahead s c p) (hnear : AllNear s c sl e i o)
    (hmerged : WordsMerged o.op o.ty s u c (wordByte s c sl e o) ((s.paced c sl e i p).atomWords o (lanes s c sl e i)))
    {l : Nat} (hl : active s c sl e i l = true) :
    scrNum u c o.ty.bytes (atmByte s c sl e o l) =
      (atmMerged s c sl e o (atmOld s c sl e o l) (atmMates s c sl e o (lanes s c sl e i) l)).toNat % 2 ^ o.ty.bits := by
  have hmem : l ∈ atmMates s c sl e o (lanes s c sl e i) l := mem_atmMates.mpr ⟨(mem_lanes l).mpr hl, rfl⟩
  have hne : (atmWord s c sl e o (lanes s c sl e i) l).2 ≠ [] := fun hnil =>
    List.ne_nil_of_mem hmem (List.map_eq_nil_iff.mp hnil)
  have hword := hmerged.merged _ ((mem_atomWords h hp).mpr ⟨l, (mem_lanes l).mpr hl, rfl⟩)
  have hpow : 256 ^ o.ty.bytes = 2 ^ o.ty.bits := by cases o.ty <;> rfl
  rw [atmByte_eq (hnear l hl) rfl] at hword
  rw [hword, hpow, ← BitVec.toNat_ofNat, (mergedResult_agrees hty (atmOld_agrees l) hne).low, BitVec.toNat_setWidth]
  rfl

/-- The registers written are those of the active lanes, each given its value. -/
theorem mem_atomWrites (hty : o.ty ∈ o.op.types) (h : Clear s c sl e i) (hp : Ahead s c p)
    (hlegal : Legal s c sl e i o.space (atmAt s c sl e o) o.ty.bytes k) (hnear : AllNear s c sl e i o) (d : Nat) (z : Nat × Word) :
    z ∈ ((s.paced c sl e i p).atomWords o (lanes s c sl e i)).flatMap (wordWrites o.op o.ty s c (some d) (wordByte s c sl e o)) ↔
      ∃ l ∈ lanes s c sl e i, z ∈ destWrites o.ty d l (atmGiven s c sl e i o l) := by
  rw [List.mem_flatMap]
  constructor
  · rintro ⟨w, hw, hz⟩
    obtain ⟨m, hm, rfl⟩ := (mem_atomWords h hp).mp hw
    obtain ⟨n, hn, hz⟩ := (mem_wordWrites hty hlegal hnear ((mem_lanes m).mp hm) z).mp hz
    exact ⟨n, (mem_atmMates.mp hn).1, hz⟩
  · rintro ⟨m, hm, hz⟩
    exact ⟨_, (mem_atomWords h hp).mpr ⟨m, hm, rfl⟩,
      (mem_wordWrites hty hlegal hnear ((mem_lanes m).mp hm) z).mpr ⟨m, mem_atmMates.mpr ⟨hm, rfl⟩, hz⟩⟩

/-- So the register of a lane holds what the statement says. -/
theorem get_atomWrites (hi : AtomicForm i o (some o.d.toNat)) (h : Clear s c sl e i) (hp : Ahead s c p)
    (hlegal : Legal s c sl e i o.space (atmAt s c sl e o) o.ty.bytes k) (hnear : AllNear s c sl e i o) {l r : Nat} (hr : r < 256) (m : Store Word) :
    (m.setAll 0 (((s.paced c sl e i p).atomWords o (lanes s c sl e i)).flatMap
        (wordWrites o.op o.ty s c (some o.d.toNat) (wordByte s c sl e o)))).get 0 (l * 256 + r) =
      (dest s c sl e i o.ty.is64 o.d (atmGiven s c sl e i o) l r).getD (m.get 0 (l * 256 + r)) := by
  rw [get_destWrites m (mem_atomWrites (hi.type h.wf) h hp hlegal hnear _) o.d.isLt (hi.pair h.wf) hr, dest]
  simp only [mem_lanes]

end Near

/-- Settles O21: the words apart, each merged as its lanes say, and each lane given what its word would hold before it. -/
theorem atomicAtOwnBank : Obligations.AtomicAtOwnBank := by
  intro s c sl e i o ret pl old mates hret h hlegal hnear
  have hi : AtomicForm i o (if ret then some o.d.toNat else none) := by
    cases ret with
    | true => exact .inl (hret.imp fun _ h => ⟨h, rfl⟩)
    | false => exact .inr (hret.imp fun _ h => ⟨h, rfl⟩)
  have hty := hi.type h.wf
  have hmates : ∀ l, active s c sl e i l = true → mates l = atmMates s c sl e o (lanes s c sl e i) l := fun l hl =>
    List.filter_congr fun m hm => by
      rw [Bool.eq_iff_iff, beq_iff_eq, beq_iff_eq]
      exact atmByte_inj hty hlegal hnear ((mem_lanes m).mp hm) hl
  obtain ⟨p, bs, u, t1, hp, hexec, hbase, hdrawn, hmerged⟩ := exec_atomic_near hi h hlegal hnear
  have hkept : Kept s t1 c sl e := by
    obtain ⟨hteam, hmask, hstack⟩ := hdrawn.kept c sl e
    rw [hbase.entry] at hteam hmask hstack
    exact ⟨hteam, hmask, hstack⟩
  obtain ⟨ho, hgoes, ht⟩ := paced_go (i := i) (p := p) bs hkept
  refine ⟨_, hexec, hgoes, ?_, ?_, fun l hl => ?_, fun a ha => ?_, fun l r hr => ?_, ?_, ?_⟩
  · have hsame : SameMemory s u := by
      rw [hbase.rest]
      exact ⟨rfl, rfl, rfl, rfl, rfl⟩
    exact sameMemory_trans hsame (sameMemory_trans hdrawn.sameMemory ho.sameMemory)
  · rw [ho.reqs, hdrawn.rest, hbase.rest]
  · rw [hmates l hl]
    exact (scrNum_congr fun q _ => by rw [ho.scratch]).trans (scrNum_merged hty h hp hnear hmerged hl)
  · rw [ho.scratch]
    refine hmerged.others a fun w hw => ?_
    obtain ⟨l, hl, rfl⟩ := (mem_atomWords h hp).mp hw
    have hactive := (mem_lanes l).mp hl
    rw [atmByte_eq (hnear l hactive) rfl]
    exact ha l hactive
  · have hv := hdrawn.vregs
    rw [hbase.team] at hv
    have hread := congrArg (fun m : Store Word => m.get 0 (l * 256 + r)) ((congrArg Team.v ht).trans hv)
    refine hread.trans ?_
    cases ret with
    | false =>
      rw [if_neg Bool.false_ne_true, if_neg Bool.false_ne_true, flatMap_wordWrites_none]
      rfl
    | true =>
      refine (get_atomWrites hi h hp hlegal hnear hr (team s c sl e).v).trans ?_
      by_cases hl : active s c sl e i l = true
      · rw [if_pos rfl, dest, dest, if_pos hl, if_pos hl, hmates l hl]
        rfl
      · rw [if_pos rfl, dest, dest, if_neg hl, if_neg hl]
        rfl
  · rw [ht]
    exact hdrawn.sregs.trans (by rw [hbase.team]; rfl)
  · rw [ht]
    exact hdrawn.pregs.trans (by rw [hbase.team]; rfl)

end Sys2Proof.Machine
end

section
/-! Words of a form and back (R164 to R170): each field stands at its own bits, and LEN says how many words there are. -/

namespace Sys2Proof

/-! ### Fields of a number -/

/-- A field read at its width. -/
theorem ofNat_eq_of_mod {n v : Nat} {x : BitVec n} (h : v % 2 ^ n = x.toNat) : BitVec.ofNat n v = x :=
  BitVec.eq_of_toNat_eq ((BitVec.toNat_ofNat v n).trans h)

/-- A flag read as a field of one bit. -/
theorem decide_eq_of_bit {v : Nat} {b : Bool} (h : v % 2 = b.toNat) : decide (v % 2 = 1) = b := by
  rw [h]
  cases b <;> rfl

theorem bit_eq {m i : Nat} {b : Bool} (h : m / 2 ^ i % 2 = b.toNat) : bit m i = b := decide_eq_of_bit h

/-! ### Forms from their words -/

theorem litOf_words (l : Dword) : litOf (BitVec.ofNat 32 l.toNat) (BitVec.ofNat 32 (l.toNat / 2 ^ 32)) = l := by
  apply ofNat_eq_of_mod
  simp only [BitVec.toNat_ofNat]
  omega

theorem XForm.word0_mod (f : XForm) : f.word0 % 4 = if f.lit.isSome then 3 else 1 := by
  unfold XForm.word0
  split <;> omega

theorem BForm.word0_mod (f : BForm) : f.word0 % 4 = if f.lit.isSome then 2 else 0 := by
  unfold BForm.word0
  split <;> omega

theorem XForm.word0_lt (f : XForm) : f.word0 < 2 ^ 32 := by
  have := f.h.stall.isLt; have := f.h.yld.toNat_lt; have := f.op9.isLt; have := f.h.pred.isLt
  have := f.h.neg.toNat_lt; have := f.mod.isLt
  unfold XForm.word0
  split <;> omega

theorem XForm.word1_lt (f : XForm) : f.word1 < 2 ^ 32 := by
  have := f.d.isLt; have := f.a.isLt; have := f.b.isLt; have := f.c.isLt
  unfold XForm.word1
  omega

theorem BForm.word0_lt (f : BForm) : f.word0 < 2 ^ 32 := by
  have := f.h.stall.isLt; have := f.h.yld.toNat_lt; have := f.maj.isLt; have := f.h.pred.isLt
  have := f.h.neg.toNat_lt; have := f.imm.isLt
  unfold BForm.word0
  split <;> omega

/-- The first words of an X form hold its fields apart from each other (R169). -/
theorem xOf_words (f : XForm) : xOf f.word0 f.word1 f.ext f.lit = f := by
  obtain ⟨op, ⟨stall, yld, pred, neg⟩, mod, d, a, b, c, ext, lit⟩ := f
  have := stall.isLt; have := yld.toNat_lt; have := op.isLt; have := pred.isLt
  have := neg.toNat_lt; have := mod.isLt; have := d.isLt; have := a.isLt; have := b.isLt
  have := c.isLt
  obtain ⟨len, hlen, hle⟩ : ∃ n, (if lit.isSome then 3 else 1) = n ∧ n < 4 := ⟨_, rfl, by split <;> omega⟩
  simp only [xOf, XForm.word0, XForm.word1, hlen, XForm.mk.injEq, Hdr.mk.injEq, and_true]
  refine ⟨ofNat_eq_of_mod ?_, ⟨ofNat_eq_of_mod ?_, decide_eq_of_bit ?_, ofNat_eq_of_mod ?_, decide_eq_of_bit ?_⟩,
    ofNat_eq_of_mod ?_, ofNat_eq_of_mod ?_, ofNat_eq_of_mod ?_, ofNat_eq_of_mod ?_, ofNat_eq_of_mod ?_⟩ <;> omega

/-- The word of a B form holds its fields apart from each other (R167). -/
theorem bOf_words (f : BForm) : bOf f.word0 f.lit = f := by
  obtain ⟨maj, ⟨stall, yld, pred, neg⟩, imm, lit⟩ := f
  have := stall.isLt; have := yld.toNat_lt; have := maj.isLt; have := pred.isLt; have := neg.toNat_lt
  have := imm.isLt
  obtain ⟨len, hlen, hle⟩ : ∃ n, (if lit.isSome then 2 else 0) = n ∧ n < 4 := ⟨_, rfl, by split <;> omega⟩
  simp only [bOf, BForm.word0, hlen, BForm.mk.injEq, HdrB.mk.injEq, and_true]
  refine ⟨ofNat_eq_of_mod ?_, ⟨ofNat_eq_of_mod ?_, decide_eq_of_bit ?_, ofNat_eq_of_mod ?_, decide_eq_of_bit ?_⟩,
    ofNat_eq_of_mod ?_⟩ <;> omega

theorem XForm.toNat_word0 (f : XForm) : (BitVec.ofNat 32 f.word0).toNat = f.word0 := by
  rw [BitVec.toNat_ofNat, Nat.mod_eq_of_lt f.word0_lt]

theorem XForm.toNat_word1 (f : XForm) : (BitVec.ofNat 32 f.word1).toNat = f.word1 := by
  rw [BitVec.toNat_ofNat, Nat.mod_eq_of_lt f.word1_lt]

theorem BForm.toNat_word0 (f : BForm) : (BitVec.ofNat 32 f.word0).toNat = f.word0 := by
  rw [BitVec.toNat_ofNat, Nat.mod_eq_of_lt f.word0_lt]

/-- A form's words give it back: their number and LEN fix the format and the literal (R164, R170). -/
theorem formOf_words (f : Form) : formOf f.words = some f := by
  cases f with
  | x f =>
    have hmod := f.word0_mod
    have hfields := xOf_words f
    cases hlit : f.lit <;>
      simp only [hlit, Option.isSome_none, Option.isSome_some, Bool.false_eq_true, if_false, if_true] at hmod hfields <;>
      simp only [Form.words, hlit, litWords, List.cons_append, List.nil_append, formOf, XForm.toNat_word0, XForm.toNat_word1,
        hmod, litOf_words, hfields, if_true]
  | b f =>
    have hmod := f.word0_mod
    have hfields := bOf_words f
    cases hlit : f.lit <;>
      simp only [hlit, Option.isSome_none, Option.isSome_some, Bool.false_eq_true, if_false, if_true] at hmod hfields <;>
      simp only [Form.words, hlit, litWords, List.cons_append, List.nil_append, formOf, BForm.toNat_word0, hmod, litOf_words,
        hfields, Nat.reduceEqDiff, if_false, if_true]

/-- LEN of the first word says how many words a form has (R164). -/
theorem exists_words_eq (f : Form) : ∃ w ws, f.words = w :: ws ∧ wordCount w = ws.length + 1 := by
  cases f with
  | x f =>
    have hmod := f.word0_mod
    cases hlit : f.lit <;> rw [hlit] at hmod <;> exact ⟨_, _, rfl, by simp [wordCount, hmod, hlit, litWords]⟩
  | b f =>
    have hmod := f.word0_mod
    cases hlit : f.lit <;> rw [hlit] at hmod <;> exact ⟨_, _, rfl, by simp [wordCount, hmod, hlit, litWords]⟩

/-! ### Bytes of words (R4) -/

theorem wordOfBytes_bytesOfWord (w : Word) :
    wordOfBytes (BitVec.ofNat 8 w.toNat) (BitVec.ofNat 8 (w.toNat / 256)) (BitVec.ofNat 8 (w.toNat / 65536))
      (BitVec.ofNat 8 (w.toNat / 16777216)) = w := by
  apply ofNat_eq_of_mod
  simp only [BitVec.toNat_ofNat]
  omega

theorem wordsOfBytes_append (w : Word) (bs : List Byte) : wordsOfBytes (bytesOfWord w ++ bs) = w :: wordsOfBytes bs :=
  congrArg (· :: wordsOfBytes bs) (wordOfBytes_bytesOfWord w)

theorem wordsOfBytes_flatMap (ws : List Word) : wordsOfBytes (ws.flatMap bytesOfWord) = ws := by
  induction ws with
  | nil => rfl
  | cons w ws ih => rw [List.flatMap_cons, wordsOfBytes_append, ih]

/-- The decoder takes from a byte list the words that LEN of the first one asks for, and leaves what follows. -/
theorem decodeBytes_flatMap {w : Word} {ws : List Word} (hlen : wordCount w = ws.length + 1) (r : List Byte) :
    decodeBytes ((w :: ws).flatMap bytesOfWord ++ r) = (decode (w :: ws), r) := by
  have hfirst : wordsOfBytes (((w :: ws).flatMap bytesOfWord ++ r).take 4) = [w] := wordsOfBytes_append w []
  have hbytes : 4 * wordCount w = ((w :: ws).flatMap bytesOfWord).length := by
    rw [Machine.flatMap_bytesOfWord_length, hlen, List.length_cons]
  simp only [decodeBytes, hfirst, hbytes, List.take_left', List.drop_left', wordsOfBytes_flatMap]

end Sys2Proof
end

section
/-! The fields of an instruction in its form and back (R167 to R181): what the decoder reads off a layout is what the layout
was made from, so the candidate that a form's opcode selects is the instruction the form stands for. -/

namespace Sys2Proof

/-! ### Codes (R81, R85, R174, R175) -/

theorem Ty.code_lt (t : Ty) : t.code < 16 := by cases t <;> decide
theorem Rnd.code_lt (r : Rnd) : r.code < 8 := by cases r <;> decide
theorem Space.code_lt (s : Space) : s.code < 4 := by cases s <;> decide
theorem Count.code_lt (n : Count) : n.code < 4 := by cases n <;> decide
theorem Var.code_lt (v : Var) : v.code < 4 := by cases v <;> decide
theorem AOp.code_lt (p : AOp) : p.code < 8 := by cases p <;> decide
theorem Cmp.code_lt (c : Cmp) : c.code < 16 := by cases c <;> decide
theorem ShMode.code_lt (m : ShMode) : m.code < 4 := by cases m <;> decide

@[simp] theorem Ty.ofCode_code (t : Ty) : Ty.ofCode t.code = t := by cases t <;> rfl
@[simp] theorem Rnd.ofCode_code (r : Rnd) : Rnd.ofCode r.code = some r := by cases r <;> rfl
@[simp] theorem Space.ofCode_code (s : Space) : Space.ofCode s.code = s := by cases s <;> rfl
@[simp] theorem Count.ofCode_code (n : Count) : Count.ofCode n.code = some n := by cases n <;> rfl
@[simp] theorem Var.ofCode_code (v : Var) : Var.ofCode v.code = some v := by cases v <;> rfl
@[simp] theorem AOp.ofCode_code (p : AOp) : AOp.ofCode p.code = p := by cases p <;> rfl
@[simp] theorem Cmp.ofCode_code (c : Cmp) : Cmp.ofCode c.code = some c := by cases c <;> rfl
@[simp] theorem ShMode.ofCode_code (m : ShMode) : ShMode.ofCode m.code = m := by cases m <;> rfl

/-! ### Opcode and header of a layout -/

@[simp] theorem Alu.x_op9 (op : Nat) (h : Hdr) (o : Alu) : (o.x op h).op9 = BitVec.ofNat 9 op := rfl
@[simp] theorem Alu.x_h (op : Nat) (h : Hdr) (o : Alu) : (o.x op h).h = h := rfl
@[simp] theorem Setp.x_op9 (h : Hdr) (o : Setp) : (o.x h).op9 = BitVec.ofNat 9 0x00C := rfl
@[simp] theorem Setp.x_h (h : Hdr) (o : Setp) : (o.x h).h = h := rfl
@[simp] theorem Shfl.x_op9 (op : Nat) (h : Hdr) (o : Shfl) : (o.x op h).op9 = BitVec.ofNat 9 op := rfl
@[simp] theorem Shfl.x_h (op : Nat) (h : Hdr) (o : Shfl) : (o.x op h).h = h := rfl
@[simp] theorem Mem.xd_op9 (op : Nat) (h : Hdr) (o : Mem) : (o.xd op h).op9 = BitVec.ofNat 9 op := rfl
@[simp] theorem Mem.xd_h (op : Nat) (h : Hdr) (o : Mem) : (o.xd op h).h = h := rfl
@[simp] theorem Mem.xc_op9 (op : Nat) (h : Hdr) (o : Mem) : (o.xc op h).op9 = BitVec.ofNat 9 op := rfl
@[simp] theorem Mem.xc_h (op : Nat) (h : Hdr) (o : Mem) : (o.xc op h).h = h := rfl
@[simp] theorem Atm.x_op9 (op : Nat) (h : Hdr) (o : Atm) : (o.x op h).op9 = BitVec.ofNat 9 op := rfl
@[simp] theorem Atm.x_h (op : Nat) (h : Hdr) (o : Atm) : (o.x op h).h = h := rfl
@[simp] theorem Acp.x_op9 (h : Hdr) (o : Acp) : (o.x h).op9 = BitVec.ofNat 9 0x108 := rfl
@[simp] theorem Acp.x_h (h : Hdr) (o : Acp) : (o.x h).h = h := rfl
@[simp] theorem Barb.x_op9 (op : Nat) (h : Hdr) (o : Barb) : (o.x op h).op9 = BitVec.ofNat 9 op := rfl
@[simp] theorem Barb.x_h (op : Nat) (h : Hdr) (o : Barb) : (o.x op h).h = h := rfl
@[simp] theorem Tx.x_op9 (op : Nat) (h : Hdr) (o : Tx) (x : Bool) (p : Nat) : (o.x op h x p).op9 = BitVec.ofNat 9 op := rfl
@[simp] theorem Tx.x_h (op : Nat) (h : Hdr) (o : Tx) (x : Bool) (p : Nat) : (o.x op h x p).h = h := rfl
@[simp] theorem Strm.x_op9 (h : Hdr) (o : Strm) : (o.x h).op9 = BitVec.ofNat 9 0x192 := rfl
@[simp] theorem Strm.x_h (h : Hdr) (o : Strm) : (o.x h).h = h := rfl

/-! ### Operand bundles read off their layouts -/

/-- A field that is kept in a wider one. -/
theorem ofNat_toNat_mod {n m : Nat} (x : BitVec n) (h : 2 ^ n ≤ m) : BitVec.ofNat n (x.toNat % m) = x := by
  rw [Nat.mod_eq_of_lt (Nat.lt_of_lt_of_le x.isLt h), BitVec.ofNat_toNat, BitVec.setWidth_eq]

theorem Ty.ofCode_of_field {v : Nat} {t : Ty} (h : v % 16 = t.code) : Ty.ofCode (v % 16) = t := by
  rw [h, Ty.ofCode_code]

theorem Space.ofCode_of_field {v : Nat} {s : Space} (h : v % 4 = s.code) : Space.ofCode (v % 4) = s := by
  rw [h, Space.ofCode_code]

@[simp] theorem Alu.alu_x (op : Nat) (h : Hdr) (o : Alu) : (o.x op h).alu = some o := by
  obtain ⟨ty, rnd, sat, as, bs, bi, opx, d, a, b, c, ext, lit⟩ := o
  have := ty.code_lt; have := rnd.code_lt; have := sat.toNat_lt; have := as.toNat_lt; have := bs.toNat_lt
  have := bi.toNat_lt; have := opx.toNat_lt
  simp only [XForm.alu, Alu.x, xf, BitVec.toNat_ofNat]
  generalize hm : (ty.code + 16 * rnd.code + 128 * sat.toNat + 256 * as.toNat + 512 * bs.toNat + 1024 * bi.toNat +
    2048 * opx.toNat) % 2 ^ 12 = m
  have hrnd : m / 16 % 8 = rnd.code := by omega
  simp only [hrnd, Rnd.ofCode_code, Option.map_some, Option.some.injEq, Alu.mk.injEq, and_true, true_and]
  refine ⟨Ty.ofCode_of_field ?_, bit_eq ?_, bit_eq ?_, bit_eq ?_, bit_eq ?_, bit_eq ?_⟩ <;> omega

@[simp] theorem Setp.setp_x (h : Hdr) (o : Setp) : (o.x h).setp = some o := by
  obtain ⟨ty, cmp, as, bs, bi, d, a, b, ext, lit⟩ := o
  have := ty.code_lt; have := cmp.code_lt; have := as.toNat_lt; have := bs.toNat_lt; have := bi.toNat_lt
  simp only [XForm.setp, Setp.x, xf, BitVec.toNat_ofNat]
  generalize hm : (ty.code + 16 * cmp.code + 256 * as.toNat + 512 * bs.toNat + 1024 * bi.toNat) % 2 ^ 12 = m
  have hcmp : m / 16 % 16 = cmp.code := by omega
  simp only [hcmp, Cmp.ofCode_code, Option.map_some, Option.some.injEq, Setp.mk.injEq, and_true, true_and]
  refine ⟨Ty.ofCode_of_field ?_, bit_eq ?_, bit_eq ?_, bit_eq ?_⟩ <;> omega

@[simp] theorem Shfl.shfl_x (op : Nat) (h : Hdr) (o : Shfl) : (o.x op h).shfl = o := by
  obtain ⟨ty, bi, leg, d, a, b, ext⟩ := o
  have := ty.code_lt; have := bi.toNat_lt; have := leg.toNat_lt
  simp only [XForm.shfl, Shfl.x, xf, BitVec.toNat_ofNat, Shfl.mk.injEq, and_true]
  refine ⟨Ty.ofCode_of_field ?_, bit_eq ?_, bit_eq ?_⟩ <;> omega

/-- The fields of the memory group's MOD12 (R175), with `v` for VAR or the tag. -/
structure MemFields (m : Nat) (sp : Space) (ty : Ty) (n : Count) (sb ix : Bool) (v : Nat) : Prop where
  space : Space.ofCode (m % 4) = sp
  type : Ty.ofCode (m / 4 % 16) = ty
  count : Count.ofCode (m / 64 % 4) = some n
  based : bit m 8 = sb
  indexed : bit m 9 = ix
  variant : m / 1024 % 4 = v

theorem memFields_memMod (sp : Space) (ty : Ty) (n : Count) (sb ix : Bool) {v : Nat} (hv : v < 4) :
    MemFields (BitVec.ofNat 12 (memMod sp ty n sb ix v)).toNat sp ty n sb ix v := by
  have := sp.code_lt; have := ty.code_lt; have := n.code_lt; have := sb.toNat_lt; have := ix.toNat_lt
  rw [BitVec.toNat_ofNat, memMod]
  generalize hm : (sp.code + 4 * ty.code + 64 * n.code + 256 * sb.toNat + 512 * ix.toNat + 1024 * v) % 2 ^ 12 = m
  have hn : m / 64 % 4 = n.code := by omega
  refine ⟨Space.ofCode_of_field ?_, Ty.ofCode_of_field ?_, by rw [hn, Count.ofCode_code], bit_eq ?_, bit_eq ?_, ?_⟩ <;> omega

@[simp] theorem Mem.mem_xd (op : Nat) (h : Hdr) (o : Mem) : (o.xd op h).mem (o.xd op h).d = some o := by
  obtain ⟨hsp, hty, hn, hsb, hix, -⟩ := memFields_memMod o.space o.ty o.count o.sb o.ix (show 0 < 4 by decide)
  simp only [XForm.mem, Mem.xd, xf, hsp, hty, hn, hsb, hix, Option.map_some]

@[simp] theorem Mem.mem_xc (op : Nat) (h : Hdr) (o : Mem) : (o.xc op h).mem (o.xc op h).c = some o := by
  obtain ⟨hsp, hty, hn, hsb, hix, -⟩ := memFields_memMod o.space o.ty o.count o.sb o.ix (show 0 < 4 by decide)
  simp only [XForm.mem, Mem.xc, xf, hsp, hty, hn, hsb, hix, Option.map_some]

@[simp] theorem Atm.atm_x (op : Nat) (h : Hdr) (o : Atm) : (o.x op h).atm = some o := by
  obtain ⟨hsp, hty, -, hsb, hix, hvar⟩ := memFields_memMod o.space o.ty .x1 o.sb o.ix o.var.code_lt
  have := o.op.code_lt; have := o.off.isLt
  have hop : (BitVec.ofNat 32 (o.op.code + 256 * o.off.toNat)).toNat % 8 = o.op.code := by
    rw [BitVec.toNat_ofNat]
    omega
  have hoff : BitVec.ofNat 24 ((BitVec.ofNat 32 (o.op.code + 256 * o.off.toNat)).toNat / 256) = o.off := by
    rw [BitVec.toNat_ofNat]
    exact ofNat_eq_of_mod (by omega)
  simp only [XForm.atm, Atm.x, xf, hsp, hty, hsb, hix, hvar, hop, hoff, Var.ofCode_code, AOp.ofCode_code, Option.map_some]

@[simp] theorem Acp.acp_x (h : Hdr) (o : Acp) : (o.x h).acp = some o := by
  obtain ⟨hsp, hty, hn, hsb, -, htag⟩ := memFields_memMod o.space o.ty o.count o.sb false o.tag.isLt
  have hout : bit (BitVec.ofNat 8 o.out.toNat).toNat 0 = o.out := by cases o.out <;> rfl
  simp only [XForm.acp, Acp.x, xf, hsp, hty, hn, hsb, ofNat_eq_of_mod (n := 2) htag, hout, Option.map_some]

@[simp] theorem Barb.barb_x (op : Nat) (h : Hdr) (o : Barb) : (o.x op h).barb = o := by
  obtain ⟨sp, sb, a, b, off⟩ := o
  have := sp.code_lt; have := sb.toNat_lt
  simp only [XForm.barb, Barb.x, xf, BitVec.toNat_ofNat, Barb.mk.injEq, and_true]
  refine ⟨Space.ofCode_of_field ?_, bit_eq ?_⟩ <;> omega

@[simp] theorem Tx.bit_opx (op : Nat) (h : Hdr) (o : Tx) (opx : Bool) (p : Nat) : bit (o.x op h opx p).mod.toNat 11 = opx := by
  have := o.ty.code_lt; have := o.mc.toNat_lt; have := opx.toNat_lt
  simp only [Tx.x, xf, BitVec.toNat_ofNat]
  exact bit_eq (by omega)

/-- The low digit of EXT32 is beside BOBJ (R280). -/
theorem Tx.tx_x (op : Nat) (h : Hdr) (o : Tx) (opx : Bool) {p : Nat} (hp : p < 16) : (o.x op h opx p).tx = o := by
  obtain ⟨ty, mc, d, a, b, c, bobj⟩ := o
  have := ty.code_lt; have := mc.toNat_lt; have := opx.toNat_lt; have := bobj.isLt
  simp only [XForm.tx, Tx.x, xf, BitVec.toNat_ofNat, Tx.mk.injEq, true_and]
  refine ⟨Ty.ofCode_of_field ?_, bit_eq ?_, ofNat_eq_of_mod ?_⟩ <;> omega

@[simp] theorem Tx.planes_x (op : Nat) (h : Hdr) (o : Tx) (opx : Bool) (p : BitVec 4) :
    (o.x op h opx p.toNat).ext.setWidth 4 = p := by
  have := o.bobj.isLt; have := p.isLt
  rw [← BitVec.ofNat_toNat]
  simp only [Tx.x, xf, BitVec.toNat_ofNat]
  exact ofNat_eq_of_mod (by omega)

@[simp] theorem Strm.strm_x (h : Hdr) (o : Strm) : (o.x h).strm = o := by
  obtain ⟨alg, lst, acc, d, a, b, c, m1⟩ := o
  have := alg.isLt; have := lst.toNat_lt; have := acc.toNat_lt; have := m1.isLt
  simp only [XForm.strm, Strm.x, xf, BitVec.toNat_ofNat, Strm.mk.injEq, true_and]
  refine ⟨ofNat_eq_of_mod ?_, bit_eq ?_, bit_eq ?_, ofNat_eq_of_mod ?_⟩ <;> omega

/-! ### Fields of a B form (R167, R168) -/

section Short

variable (maj : Nat) (h : HdrB) (d a : BitVec 7) (f2 : Nat) (lit : Option Dword)

@[simp] theorem bf_maj : (bf maj h d a f2 lit).maj = BitVec.ofNat 6 maj := rfl
@[simp] theorem bf_h : (bf maj h d a f2 lit).h = h := rfl
@[simp] theorem bf_lit : (bf maj h d a f2 lit).lit = lit := rfl

@[simp] theorem bf_d : (bf maj h d a f2 lit).d = d := by
  have := d.isLt
  simp only [BForm.d, bf, BitVec.toNat_ofNat]
  exact ofNat_eq_of_mod (by omega)

@[simp] theorem bf_a : (bf maj h d a f2 lit).a = a := by
  have := d.isLt; have := a.isLt
  simp only [BForm.a, bf, BitVec.toNat_ofNat]
  exact ofNat_eq_of_mod (by omega)

@[simp] theorem bf_f2 : (bf maj h d a f2 lit).f2 = f2 % 4 := by
  have := d.isLt; have := a.isLt
  simp only [BForm.f2, bf, BitVec.toNat_ofNat]
  omega

end Short

end Sys2Proof
end

section
/-! Decoding what was encoded (R164 to R181): the opcode of an instruction's form selects that instruction, from words and from
bytes. -/

namespace Sys2Proof

/-- The OP9 map (R180) and the MAJ6 map (R179) answer the instruction whose form they are given. -/
theorem instr_of_form {i : Instr} {f : Form} (hf : i.form = some f) : f.instr = some i := by
  cases i with
  -- control group
  | nop | bra | brl | brz | brnz | join | call | pop | ret | rett | exit | yield | monwait | ltos | stol =>
    cases hf
    simp [Form.instr, XForm.instr, XForm.control, xf]
  | brx h k a sreg =>
    cases hf
    cases sreg <;> simp [Form.instr, XForm.instr, XForm.control, xf, bit]
  | setp | shflIdx | shflUp | shflDn | shflXor =>
    cases hf
    simp [Form.instr, XForm.instr, XForm.control]
  | plop =>
    cases hf
    simp [Form.instr, XForm.instr, XForm.control, xf, ofNat_toNat_mod]
  | psel h leg | voteAnd h leg | voteOr h leg | voteEq h leg | voteMask h leg =>
    cases hf
    cases leg <;> simp [Form.instr, XForm.instr, XForm.control, xf, bit]
  -- arithmetic groups
  | sadd | ssub | smul | sand | sor | sxor | sshl | sshr | ssra | smov | smovi | scmp =>
    cases hf
    simp [Form.instr, XForm.instr, XForm.scalar]
  | iadd | isub | imul | imulh | imulq | imad | imin | imax | iabs | ineg | and | or | xor | not | shl | shr | sra | bfx | bfi
  | popc | clz | sel | mov | movi | clamp | dp4 | dp2 | rshr =>
    cases hf
    simp [Form.instr, XForm.instr, XForm.integer]
  | fadd | fsub | fmul | ffma | fmin | fmax | fabs | fneg | frcp | frsq | fsqrt | fexp2 | flog2 | fsin | fcos | cvt | pack
  | unpk | qscale | qcvt | bpt | redux | algMul | algConj | algNorm =>
    cases hf
    simp [Form.instr, XForm.instr, XForm.float]
  -- memory group
  | ld | st | ldAcq | stRel | atom | red | pfh | pfw | acp =>
    cases hf
    simp [Form.instr, XForm.instr, XForm.memory]
  | acwait h tag n =>
    cases hf
    have htag : BitVec.ofNat 2 (1024 * tag.toNat % 4096 / 1024) = tag := ofNat_eq_of_mod (by have := tag.isLt; omega)
    simp [Form.instr, XForm.instr, XForm.memory, xf, htag, ofNat_toNat_mod]
  | fenceAcq | fenceRel | fenceAr =>
    cases hf
    simp [Form.instr, XForm.instr, XForm.memory, xf]
  -- synchronisation group
  | barSync | barArrive | barWait | barJoin | barLeave | qpush | qpop | flagSet | flagClr | flagWait =>
    cases hf
    simp [Form.instr, XForm.instr, XForm.synch, xf, ofNat_toNat_mod]
  | barInitb | barArriveb | barWaitb =>
    cases hf
    simp [Form.instr, XForm.instr, XForm.synch]
  -- engine group
  | cld h ty flag | cst h ty flag =>
    cases hf
    have := ty.code_lt; have := flag.toNat_lt
    have hty : Ty.ofCode ((64 * ty.code + 2048 * flag.toNat) % 4096 / 64 % 16) = ty := Ty.ofCode_of_field (by omega)
    have hflag : bit ((64 * ty.code + 2048 * flag.toNat) % 4096) 11 = flag := bit_eq (by omega)
    simp [Form.instr, XForm.instr, XForm.engine, xf, hty, hflag]
  | cbr h cmp ty =>
    cases hf
    have := cmp.isLt; have := ty.code_lt
    have hcmp : BitVec.ofNat 3 ((cmp.toNat + 64 * ty.code) % 4096) = cmp := ofNat_eq_of_mod (by omega)
    have hty : Ty.ofCode ((cmp.toNat + 64 * ty.code) % 4096 / 64 % 16) = ty := Ty.ofCode_of_field (by omega)
    simp [Form.instr, XForm.instr, XForm.engine, xf, hcmp, hty]
  | wfi | txFence | mxSwap | mxZero | mxWait | algLdt =>
    cases hf
    simp [Form.instr, XForm.instr, XForm.engine, xf]
  | shpSet =>
    cases hf
    simp [Form.instr, XForm.instr, XForm.engine, xf, ofNat_toNat_mod]
  | txLd | txSt | txStPeer | mxDrn =>
    cases hf
    simp [Form.instr, XForm.instr, XForm.engine, Tx.tx_x]
  | txLdq h o planes =>
    cases hf
    simp [Form.instr, XForm.instr, XForm.engine, Tx.tx_x _ _ _ _ planes.isLt]
  | mxLds h withMeta =>
    cases hf
    cases withMeta <;> simp [Form.instr, XForm.instr, XForm.engine, xf, bit]
  | mxStrm =>
    cases hf
    simp [Form.instr, XForm.instr, XForm.engine]
  -- system group
  | trap | brk | swr | safept | progress =>
    cases hf
    simp [Form.instr, XForm.instr, XForm.system, xf]
  | xfer | oldx =>
    cases hf
    simp [Form.instr, XForm.instr, XForm.system, xf, ofNat_toNat_mod]
  | srd h reg sdest =>
    cases hf
    cases sdest <;> simp [Form.instr, XForm.instr, XForm.system, xf, bit]
  | odot4 h natural =>
    cases hf
    cases natural <;> simp [Form.instr, XForm.instr, XForm.system, xf, bit]
  | omma8 h na nb =>
    cases hf
    cases na <;> cases nb <;> simp [Form.instr, XForm.instr, XForm.system, xf, bit]
  | oshfw h mode =>
    cases hf
    have hmode : mode.code % 4096 % 4 = mode.code := by have := mode.code_lt; omega
    simp [Form.instr, XForm.instr, XForm.system, xf, hmode]
  -- forms of one word, and of one word and a literal
  | nopShort | exitShort | yieldShort | braShort | brlShort | callShort =>
    cases hf
    simp [Form.instr, BForm.short, bi16]
  | joinShort | safeptShort =>
    cases hf
    simp [Form.instr, BForm.short, bi16, ofNat_toNat_mod]
  | popShort | retShort | rettShort | movShort | notShort | inegShort | iabsShort | fnegShort | fabsShort | popcShort | clzShort
  | smovShort | srdShort =>
    cases hf
    simp [Form.instr, BForm.short]
  | ldShort h space | stShort h space =>
    cases hf
    simp [Form.instr, BForm.short, Nat.mod_eq_of_lt space.code_lt]
  | moviLit h wide | smoviLit h wide =>
    cases hf
    cases wide <;> simp [Form.instr, BForm.literal]
  | iaddLit =>
    cases hf
    simp [Form.instr, BForm.literal]
  -- an event and rejected words have no form
  | _ => cases hf

/-- Every instruction that is no event and no rejected words has a form. -/
theorem exists_form {i : Instr} (hev : i.isEvent = false) (hun : ∀ ws, i ≠ .unassignedOpcode ws) :
    ∃ f, i.form = some f := by
  have hsome : (∃ ws, i = .unassignedOpcode ws) ∨ i.form.isSome = !i.isEvent := by
    cases i with
    | unassignedOpcode ws => exact .inl ⟨ws, rfl⟩
    | _ => exact .inr rfl
  rcases hsome with ⟨ws, rfl⟩ | hsome
  · exact absurd rfl (hun ws)
  · exact Option.isSome_iff_exists.mp (by rw [hsome, hev]; rfl)

theorem encode_of_form {i : Instr} {f : Form} (hf : i.form = some f) : encode i = f.words := by
  unfold encode
  split
  · cases hf
  · rw [hf]

/-- The words of a well-formed instruction's form stand for that instruction. -/
theorem decode_words {i : Instr} {f : Form} (hf : i.form = some f) (hwf : i.wf = true) : decode f.words = .ok i := by
  simp only [decode, formOf_words, instr_of_form hf, hf, hwf, if_true]

/-- An unassigned opcode is refused (R181). -/
theorem decode_unassigned {ws : List Word} {f : Form} (hf : formOf ws = some f) (hi : f.instr = none) :
    decode ws = .reject .unassigned := by
  simp only [decode, hf, hi]

/-- Settles O57: the form of an instruction is read back from its words, and the form's opcode selects the instruction. -/
theorem decodingUndoesEncoding : Obligations.DecodingUndoesEncoding := by
  intro i r hwf hev hun
  obtain ⟨f, hf⟩ := exists_form hev hun
  have hdec : decode f.words = .ok i := decode_words hf hwf
  obtain ⟨w, ws, hws, hcount⟩ := exists_words_eq f
  rw [encode_of_form hf]
  refine ⟨hdec, ?_⟩
  rw [hws, decodeBytes_flatMap hcount, ← hws, hdec]

/-- Words that an instruction is encoded in stand for it. -/
theorem decode_of_encode {i : Instr} {ws : List Word} (h : encode i = ws ∧ i.form.isSome = true ∧ i.wf = true) :
    decode ws = .ok i := by
  obtain ⟨henc, hform, hwf⟩ := h
  obtain ⟨f, hf⟩ := Option.isSome_iff_exists.mp hform
  rw [← henc, encode_of_form hf]
  exact decode_words hf hwf

/-- Settles O56: each word list is the encoding of its instruction, and no form has MAJ6 0x35. -/
theorem writtenOutWordsDecode : Obligations.WrittenOutWordsDecode := by
  unfold Obligations.WrittenOutWordsDecode
  have hmaj : decode [0x01030D40] = .reject .unassigned := decode_unassigned rfl rfl
  refine ⟨decode_of_encode ?_, decode_of_encode ?_, decode_of_encode ?_, decode_of_encode ?_, decode_of_encode ?_,
    decode_of_encode ?_, decode_of_encode ?_, decode_of_encode ?_, decode_of_encode ?_, fun i h => nomatch hmaj.symm.trans h⟩ <;>
  decide

end Sys2Proof
end

section
/-! SUPPORT. Instructions of the team stream that only write registers (R185, R216): predicates in the active lanes, and effects whose
writes are given one by one. -/

namespace Sys2Proof.Machine

open Sys2Proof Sys2Proof.Said

/-! ### Operands (R170, R215) -/

section Registers

variable {s : State} {c sl e : Nat} {i : Instr}

/-- A register operand with nothing under way: s or v, one register or a pair (R185). -/
theorem opnd_eq (h : Clear s c sl e i) (wide sb : Bool) (r : BitVec 8) (l : Nat) :
    (s.iss c sl e i).opnd wide sb r l =
      (if sb then (if wide then spair s c sl e r.toNat else (sreg s c sl e r.toNat).setWidth 64)
       else (if wide then vpair s c sl e l r.toNat else (vreg s c sl e l r.toNat).setWidth 64)).toNat := by
  simp only [Iss.opnd, rs_eq h, rs2_eq h, rv_eq h, rv2_eq h]
  have hword : ∀ w : Word, (w.setWidth 64).toNat = w.toNat := fun w => BitVec.toNat_setWidth_of_le (by decide)
  cases sb <;> cases wide <;> simp [hword]

theorem immOf_eq (ty : Ty) (ext : Word) (lit : Option Dword) : immOf ty ext lit = (imm ty.is64 ext lit).toNat := by
  unfold immOf imm
  cases ty.is64
  · exact (BitVec.toNat_setWidth_of_le (by decide)).symm
  · cases lit <;> rfl

/-! ### Effects of registers written once -/

theorem act_contains (h : Clear s c sl e i) (m : Nat) : (s.iss c sl e i).act.contains m = active s c sl e i m := by
  rw [act_eq h, Bool.eq_iff_iff, List.contains_iff_mem, mem_lanes]

theorem pput_nil : pput [] = noP := by funext l r; simp [pput, noP]

theorem sput_nil : sput [] = noS := by funext r; simp [sput, noS]

/-- An instruction that only computes, each register written once and no enabled flag raised: it leaves what its writes say. -/
theorem pureOp_wrote (h : Clear s c sl e i) (hst : (streamsOf (op9Of i)).1 = true) {bad : Iss → Bool}
    (hb : bad (s.iss c sl e i) = false) {work : Iss → Eff} {f : Eff} (hwork : work (s.iss c sl e i) = f)
    (hfpe : (s.iss c sl e i).fpe f = none) (hv : (f.v.map fun w => (w.1, w.2.1)).Nodup) (hv' : ∀ w ∈ f.v, w.2.1 < 256)
    (hp : (f.p.map fun w => (w.1, w.2.1)).Nodup) (hp' : ∀ w ∈ f.p, w.2.1 < 16) (hs : (f.s.map Prod.fst).Nodup) :
    ∃ t, pureOp i s bad work = .next t ∧ Wrote s t c sl e i (vput f.v) (pput f.p) (sput f.s) f.union := by
  refine ⟨_, ?_, finish_wrote h f hv hv' hp hp' hs⟩
  rw [pureOp, teamOnly_eq h hst hb, hwork, Iss.finish, hfpe]

/-- No flag is raised where none is asked for. -/
theorem raised_zero : (raised s c sl e i fun _ => 0) = 0 := by
  simp [raised]

theorem calm_zero : calm s c sl e i fun _ => 0 := fun _ _ => BitVec.zero_and

/-! ### Predicates in the active lanes (R171) -/

theorem pput_map (ls : List Nat) (d : BitVec 8) (z : Nat → Bool) (l r : Nat) :
    pput (ls.map fun m => (m, d.toNat, z m)) l r = if l ∈ ls ∧ r = d.toNat ∧ r ≠ 0 then some (z l) else none := by
  by_cases h0 : r = 0
  · simp [pput, h0]
  induction ls with
  | nil => simp [pput]
  | cons m ls ih =>
    simp only [pput, h0, if_false] at ih ⊢
    rw [List.map_cons, List.find?_cons]
    by_cases hw : m = l ∧ d.toNat = r
    · obtain ⟨rfl, rfl⟩ := hw
      simp [h0]
    · have hb : (m == l && d.toNat == r) = false := by
        rw [Bool.eq_false_iff]
        simpa using hw
      have hin : (l ∈ m :: ls ∧ r = d.toNat ∧ r ≠ 0) ↔ (l ∈ ls ∧ r = d.toNat ∧ r ≠ 0) := by
        rw [List.mem_cons]
        exact ⟨fun ⟨hl, hr, hz⟩ => ⟨hl.resolve_left fun hm => hw ⟨hm.symm, hr.symm⟩, hr, hz⟩, fun ⟨hl, hr⟩ => ⟨.inr hl, hr⟩⟩
      dsimp only
      rw [hb]
      simp only [hin]
      exact ih

/-- The predicate results of an instruction, lane by lane, with their flags. -/
theorem eachP_eq (h : Clear s c sl e i) (d : BitVec 8) (g : Nat → Bool × Flags) :
    (s.iss c sl e i).eachP d g =
      { p := (lanes s c sl e i).map fun l => (l, d.toNat, (g l).1)
        flags := (((lanes s c sl e i).map fun l => (l, g l)).filter fun r => r.2.2 != 0).map fun r => (r.1, r.2.2) } := by
  rw [← act_eq h, Iss.eachP, List.map_map]
  rfl

/-- An instruction that gives each active lane a predicate, in full (R9, R91, R92, R171). -/
theorem pureOp_eachP (h : Clear s c sl e i) (hst : (streamsOf (op9Of i)).1 = true) {d : BitVec 8} (hd : pReg d = true)
    {work : Iss → Eff} {g : Nat → Bool × Flags} (hwork : work (s.iss c sl e i) = (s.iss c sl e i).eachP d g) {z : Nat → Bool}
    (hz : ∀ l, active s c sl e i l = true → (g l).1 = z l) (hcalm : calm s c sl e i fun l => (g l).2) :
    ∃ t, pureOp i s never work = .next t ∧
      Wrote s t c sl e i noV (pdest s c sl e i d z) noS (raised s c sl e i fun l => (g l).2) := by
  have hd' : d.toNat < 16 := of_decide_eq_true hd
  have hflags : Eff.union ((s.iss c sl e i).eachP d g) = raised s c sl e i fun l => (g l).2 := by
    rw [eachP_eq h]
    exact foldl_flags _ _ _
  have hfpe : (s.iss c sl e i).fpe ((s.iss c sl e i).eachP d g) = none := by
    refine Iss.fpe_eq_none fun y hy => ?_
    rw [eachP_eq h] at hy
    simp only [List.mem_map, List.mem_filter] at hy
    obtain ⟨_, ⟨⟨l, hl, rfl⟩, -⟩, rfl⟩ := hy
    exact hcalm l ((mem_lanes l).1 hl)
  have hvalues : pput ((s.iss c sl e i).eachP d g).p = pdest s c sl e i d z := by
    funext l r
    rw [eachP_eq h, pput_map, pdest]
    simp only [mem_lanes, Bool.and_eq_true, beq_iff_eq, bne_iff_ne, and_assoc]
    split
    · next ha => rw [hz l ha.1]
    · rfl
  obtain ⟨t, ht, hw⟩ := pureOp_wrote (bad := never) h hst rfl hwork hfpe (by rw [eachP_eq h]; simp) (by rw [eachP_eq h]; simp)
    (by
      rw [eachP_eq h, List.map_map]
      exact lanes_nodup.map fun a b hab => (Prod.mk.inj hab).1)
    (by
      rw [eachP_eq h]
      intro w hw
      obtain ⟨l, -, rfl⟩ := List.mem_map.mp hw
      exact hd')
    (by rw [eachP_eq h]; simp)
  refine ⟨t, ht, ?_⟩
  rw [hflags, hvalues, show ((s.iss c sl e i).eachP d g).v = [] from rfl, show ((s.iss c sl e i).eachP d g).s = [] from rfl, sput_nil] at hw
  exact hw

/-- So does one that raises no flag. -/
theorem pureOp_eachP_plain (h : Clear s c sl e i) (hst : (streamsOf (op9Of i)).1 = true) {d : BitVec 8} (hd : pReg d = true)
    {work : Iss → Eff} {g : Nat → Bool} (hwork : work (s.iss c sl e i) = (s.iss c sl e i).eachP d fun l => (g l, 0)) {z : Nat → Bool}
    (hz : ∀ l, active s c sl e i l = true → g l = z l) :
    ∃ t, pureOp i s never work = .next t ∧ Wrote s t c sl e i noV (pdest s c sl e i d z) noS 0 := by
  obtain ⟨t, ht, hw⟩ := pureOp_eachP h hst hd hwork hz calm_zero
  exact ⟨t, ht, raised_zero (s := s) (i := i) ▸ hw⟩

end Registers

end Sys2Proof.Machine
end

section
/-! Predicates (R205 to R207, R209): the statement of O8. -/

namespace Sys2Proof.Machine

open Sys2Proof Sys2Proof.Said

section Instructions

variable {s : State} {c sl e : Nat} {i : Instr}

/-! ### SETP (R205) -/

/-- The operands of a `SETP` as the unit reads them. -/
theorem setp_opnds (h : Clear s c sl e i) (o : Setp) (l : Nat) :
    (s.iss c sl e i).opnd o.ty.is64 o.as o.a l = (setpA s c sl e o l).toNat ∧
      (if o.bi then immOf o.ty o.ext o.lit else (s.iss c sl e i).opnd o.ty.is64 o.bs o.b l) = (setpB s c sl e o l).toNat := by
  rw [opnd_eq h, opnd_eq h, immOf_eq, setpA, setpB]
  cases o.as <;> cases o.bs <;> cases o.bi <;> cases o.ty.is64 <;> exact ⟨rfl, rfl⟩

/-- A comparison of two numbers, of those that every type has (R174, R205). -/
theorem cmpInt_eq_holds {k : Cmp} (hk : k ≠ .num ∧ k ≠ .nan) (a b : Int) : cmpInt (cmpCode k) a b = holds k a b := by
  cases k with
  | num => exact absurd rfl hk.1
  | nan => exact absurd rfl hk.2
  | _ => rfl

/-- What the static checks say of a `SETP`: a predicate as destination, and comparisons of numbers for integers (R205). -/
theorem setp_legal {hd : Hdr} {o : Setp} (hwf : (Instr.setp hd o).wf = true) :
    pReg o.d = true ∧ (o.ty.isFloat = false → o.cmp ≠ .num ∧ o.cmp ≠ .nan) := by
  have hok : o.ok = true := hwf
  simp only [Setp.ok, Bool.and_eq_true] at hok
  obtain ⟨⟨⟨⟨⟨⟨⟨-, hcmp⟩, hd⟩, -⟩, -⟩, -⟩, -⟩, -⟩ := hok
  refine ⟨hd, fun hf => ?_⟩
  simpa [hf] using hcmp

theorem execSetp_int {hd : Hdr} {o : Setp} (hf : o.ty.isFloat = false) (h : Clear s c sl e (.setp hd o)) :
    ∃ t, exec (.setp hd o) s = .next t ∧
      Wrote s t c sl e (.setp hd o) noV
        (pdest s c sl e (.setp hd o) o.d fun l => holds o.cmp (num o.ty (setpA s c sl e o l)) (num o.ty (setpB s c sl e o l)))
        noS 0 := by
  obtain ⟨hreg, hcmp⟩ := setp_legal h.wf
  refine pureOp_eachP_plain h rfl hreg
    (g := fun l => cmpInt (cmpCode o.cmp) (valOf o.ty (setpA s c sl e o l).toNat) (valOf o.ty (setpB s c sl e o l).toNat)) ?_
    fun l _ => ?_
  · simp only [setp_opnds h, hf, Bool.false_eq_true, if_false]
  · rw [valOf_eq_num, valOf_eq_num, cmpInt_eq_holds (hcmp hf)]

theorem execSetp_float {hd : Hdr} {o : Setp} (hf : o.ty.isFloat = true) (h : Clear s c sl e (.setp hd o)) {r : Nat → Bool × Flags}
    (hr : ∀ l, r l = cmpFloat o.cmp ((fmtOf o.ty).opnd (mode s c sl e 1) (setpA s c sl e o l).toNat)
      ((fmtOf o.ty).opnd (mode s c sl e 1) (setpB s c sl e o l).toNat))
    (hcalm : calm s c sl e (.setp hd o) fun l => (r l).2) :
    ∃ t, exec (.setp hd o) s = .next t ∧
      Wrote s t c sl e (.setp hd o) noV (pdest s c sl e (.setp hd o) o.d fun l => (r l).1) noS
        (raised s c sl e (.setp hd o) fun l => (r l).2) := by
  refine pureOp_eachP h rfl (setp_legal h.wf).1 ?_ (fun l _ => rfl) hcalm
  rw [show r = _ from funext hr]
  simp only [setp_opnds h, hf, if_true]
  rfl

/-! ### PLOP, PSEL, VOTE (R206, R207, R209) -/

/-- The entry of a `PLOP`'s table that three predicates select. -/
theorem tableIndex_eq (a b k : Bool) :
    a.toNat + 2 * b.toNat + 4 * k.toNat = (if a then 1 else 0) + (if b then 2 else 0) + (if k then 4 else 0) := by
  cases a <;> cases b <;> cases k <;> rfl

theorem group_eq_groupSize (leg : Bool) : (s.iss c sl e i).group leg = Said.groupSize s c sl e leg := rfl

/-- The votes of a lane's group are the predicates of its active lanes. -/
theorem votes_eq (h : Clear s c sl e i) (leg : Bool) (a : BitVec 8) (l : Nat) :
    (s.iss c sl e i).votes leg a l = (groupOf s c sl e i leg l).map fun m => preg s c sl e m a.toNat := by
  simp only [Iss.votes, rp_eq h, act_eq h, group_eq_groupSize, groupOf]

/-- All votes equal an active lane's own where all are one or none is. -/
theorem all_eq_own {ls : List Nat} {f : Nat → Bool} {l : Nat} (hl : l ∈ ls) :
    (ls.all f || !ls.any f) = ls.all fun m => f m == f l := by
  rw [Bool.eq_iff_iff]
  simp only [Bool.or_eq_true, Bool.not_eq_true', List.all_eq_true, List.any_eq_false, beq_iff_eq]
  constructor
  · rintro (hall | hnone) m hm
    · rw [hall m hm, hall l hl]
    · rw [Bool.eq_false_iff.mpr (hnone m hm), Bool.eq_false_iff.mpr (hnone l hl)]
  · intro hsame
    cases hf : f l
    · exact .inr fun m hm => by rw [hsame m hm, hf]; decide
    · exact .inl fun m hm => by rw [hsame m hm, hf]

theorem mem_groupOf {leg : Bool} {l : Nat} (hl : active s c sl e i l = true) : l ∈ groupOf s c sl e i leg l :=
  List.mem_filter.mpr ⟨(mem_lanes l).2 hl, beq_self_eq_true _⟩

/-- An instruction of `Said.predicate` writes its value in the active lanes. -/
theorem predicate_wrote {d : BitVec 8} (h : Clear s c sl e i) (hd : ∀ l, (predicate s c sl e i l).map Prod.fst = some d) :
    ∃ t, exec i s = .next t ∧
      Wrote s t c sl e i noV (pdest s c sl e i d fun l => ((predicate s c sl e i l).map Prod.snd).getD false) noS 0 := by
  have hfirst := hd 0
  unfold predicate at hfirst
  split at hfirst
  case h_1 hdr d' a b k table =>
    obtain rfl : d' = d := Option.some.inj hfirst
    have hwf : (pReg d' && pReg a && pReg b && pReg k) = true := h.wf
    have hreg : pReg d' = true := by simp only [Bool.and_eq_true] at hwf; exact hwf.1.1.1
    refine pureOp_eachP_plain h rfl hreg rfl fun l _ => ?_
    simp only [rp_eq h, tableIndex_eq]
    rfl
  case h_2 hdr leg d' a b =>
    obtain rfl : d' = d := Option.some.inj hfirst
    have hwf : (pReg d' && pReg a && sReg b) = true := h.wf
    have hreg : pReg d' = true := by simp only [Bool.and_eq_true] at hwf; exact hwf.1.1
    refine pureOp_eachP_plain h rfl hreg rfl fun l _ => ?_
    simp only [act_contains h, rp_eq h, rs_eq h, group_eq_groupSize]
    rfl
  case h_3 hdr leg d' a =>
    obtain rfl : d' = d := Option.some.inj hfirst
    have hreg : pReg d' = true := (Bool.and_eq_true_iff.mp h.wf).1
    refine pureOp_eachP_plain h rfl hreg rfl fun l _ => ?_
    rw [votes_eq h, List.all_map]
    rfl
  case h_4 hdr leg d' a =>
    obtain rfl : d' = d := Option.some.inj hfirst
    have hreg : pReg d' = true := (Bool.and_eq_true_iff.mp h.wf).1
    refine pureOp_eachP_plain h rfl hreg rfl fun l _ => ?_
    rw [votes_eq h, List.any_map]
    rfl
  case h_5 hdr leg d' a =>
    obtain rfl : d' = d := Option.some.inj hfirst
    have hreg : pReg d' = true := (Bool.and_eq_true_iff.mp h.wf).1
    refine pureOp_eachP_plain h rfl hreg rfl fun l hl => ?_
    rw [votes_eq h, List.all_map, List.any_map]
    exact all_eq_own (mem_groupOf hl)
  case h_6 => cases hfirst

end Instructions

/-- Settles O8: each instruction is a predicate in each active lane, with the flags of its comparison. -/
theorem predicateInstructionsWritePredicates : Obligations.PredicateInstructionsWritePredicates :=
  ⟨fun _ _ _ _ _ _ hf h => execSetp_int hf h, fun _ _ _ _ _ _ hf h hcalm => execSetp_float hf h (fun _ => rfl) hcalm,
    fun _ _ _ _ _ _ h hd => predicate_wrote h hd⟩

end Sys2Proof.Machine
end

section
/-! Values moved between lanes (R208 to R211, R311): the statement of O9. -/

namespace Sys2Proof.Machine

open Sys2Proof Sys2Proof.Said

/-! ### Bits gathered into a word (R209) -/

/-- The bits of the places below `g` where `p` holds, set one by one in a word: the word's number is the sum of their powers of two. -/
theorem gather_bits (p : Nat → Bool) {g : Nat} (hg : g ≤ 64) :
    ((List.range g).foldl (fun (w : Dword) j => w ||| ((if p j then 1 <<< j else 0 : Nat) : Dword)) 0).toNat =
        (((List.range g).filter p).map (2 ^ ·)).sum ∧
      (((List.range g).filter p).map (2 ^ ·)).sum < 2 ^ g := by
  induction g with
  | zero => simp
  | succ n ih =>
    obtain ⟨hword, hlt⟩ := ih (by omega)
    have hbit : 2 ^ n < 2 ^ 64 := Nat.pow_lt_pow_right (by decide) (by omega)
    rw [List.range_succ, List.foldl_append, List.filter_append, List.map_append, List.sum_append, List.foldl_cons, List.foldl_nil,
      BitVec.toNat_or, hword, Nat.pow_succ]
    cases hp : p n
    · simp only [Bool.false_eq_true, if_false, Nat.cast_zero, BitVec.ofNat_eq_ofNat, BitVec.toNat_ofNat, Nat.zero_mod, Nat.or_zero,
        List.filter_cons, hp, List.filter_nil, List.map_nil, List.sum_nil, Nat.add_zero, true_and]
      omega
    · have hone : (((1 <<< n : Nat) : Dword)).toNat = 2 ^ n := by
        rw [Nat.one_shiftLeft]
        exact (BitVec.toNat_ofNat _ _).trans (Nat.mod_eq_of_lt hbit)
      simp only [if_true, hone, List.filter_cons, hp, List.filter_nil, List.map_cons, List.map_nil, List.sum_cons, List.sum_nil,
        Nat.add_zero]
      have hor : 2 ^ n * 1 + _ = _ := Nat.two_pow_add_eq_or_of_lt hlt 1
      rw [Nat.mul_one] at hor
      exact ⟨by rw [Nat.or_comm, ← hor, Nat.add_comm], by omega⟩

/-- The lanes of a group, by their place in it. -/
theorem group_perm {p : Nat → Bool} {ls : List Nat} (hls : ls.Nodup) {g b : Nat} (hg : 0 < g) :
    (ls.filter fun m => m / g == b && p m).Perm
      (((List.range g).filter fun j => decide (b * g + j ∈ ls) && p (b * g + j)).map (b * g + ·)) := by
  refine (List.perm_ext_iff_of_nodup (hls.filter _) ?_).mpr fun m => ?_
  · exact (List.nodup_range.filter _).map fun x y hxy => Nat.add_left_cancel hxy
  · simp only [List.mem_filter, List.mem_map, List.mem_range, Bool.and_eq_true, beq_iff_eq, decide_eq_true_eq]
    constructor
    · rintro ⟨hm, hb, hp⟩
      have hmod := Nat.div_add_mod' m g
      rw [hb] at hmod
      exact ⟨m % g, ⟨Nat.mod_lt _ hg, by rw [hmod]; exact hm, by rw [hmod]; exact hp⟩, hmod⟩
    · rintro ⟨j, ⟨hj, hm, hp⟩, rfl⟩
      refine ⟨hm, ?_, hp⟩
      rw [Nat.mul_comm, Nat.mul_add_div hg, Nat.div_eq_of_lt hj, Nat.add_zero]

theorem foldl_powers (g : Nat) (ls : List Nat) (w : Nat) :
    ls.foldl (fun w m => w + 2 ^ (m % g)) w = w + (ls.map fun m => 2 ^ (m % g)).sum := by
  induction ls generalizing w with
  | nil => rfl
  | cons m ls ih => rw [List.foldl_cons, ih, List.map_cons, List.sum_cons, Nat.add_assoc]

/-- The lanes of a group, each its bit by its place, added up: the bits of the group's places set in a word. -/
theorem groupWord_eq {p : Nat → Bool} {ls : List Nat} (hls : ls.Nodup) {g b : Nat} (hg : 0 < g) (hle : g ≤ 64) :
    BitVec.ofNat 64 ((ls.filter fun m => m / g == b && p m).foldl (fun w m => w + 2 ^ (m % g)) 0) =
      (List.range g).foldl
        (fun (w : Dword) j => w ||| ((if decide (b * g + j ∈ ls) && p (b * g + j) then 1 <<< j else 0 : Nat) : Dword)) 0 := by
  obtain ⟨hword, hlt⟩ := gather_bits (fun j => decide (b * g + j ∈ ls) && p (b * g + j)) hle
  have hsum : (ls.filter fun m => m / g == b && p m).foldl (fun w m => w + 2 ^ (m % g)) 0 =
      (((List.range g).filter fun j => decide (b * g + j ∈ ls) && p (b * g + j)).map (2 ^ ·)).sum := by
    rw [foldl_powers, Nat.zero_add, ((group_perm hls hg).map _).sum_eq, List.map_map]
    refine congrArg List.sum (List.map_congr_left fun j hj => ?_)
    have hj' : j < g := List.mem_range.mp (List.mem_filter.mp hj).1
    rw [Function.comp_apply, Nat.mul_comm, Nat.mul_add_mod, Nat.mod_eq_of_lt hj']
  refine BitVec.eq_of_toNat_eq ?_
  rw [hword, BitVec.toNat_ofNat, hsum]
  exact Nat.mod_eq_of_lt (lt_of_lt_of_le hlt (Nat.pow_le_pow_right (by decide) hle))

section Instructions

variable {s : State} {c sl e : Nat} {i : Instr}

/-- An instruction that gives each active lane a value of one register or of a pair, without flags. -/
theorem pureOp_eachI (h : Clear s c sl e i) (hst : (streamsOf (op9Of i)).1 = true) {bad : Iss → Bool}
    (hb : bad (s.iss c sl e i) = false) (wide : Bool) {d : BitVec 8} (hd : d.toNat + (if wide then 2 else 1) ≤ 256)
    {work : Iss → Eff} {g : Nat → Nat}
    (hwork : work (s.iss c sl e i) = (s.iss c sl e i).eachI (if wide then .b64 else .b32) d g) {z : Nat → Dword}
    (hz : ∀ l, BitVec.ofNat 64 (g l) = z l) :
    ∃ t, pureOp i s bad work = .next t ∧ Wrote s t c sl e i (dest s c sl e i wide d z) noP noS 0 := by
  obtain rfl : (fun l => BitVec.ofNat 64 (g l)) = z := funext hz
  refine ⟨_, ?_, wrote_eachI h wide d hd g g fun _ => rfl⟩
  rw [pureOp, teamOnly_eq h hst hb, hwork]
  rfl

/-! ### Shuffles (R210, R311) -/

/-- A shuffle gives each lane the register of its source lane. -/
theorem shuffle_eq (h : Clear s c sl e i) (m : ShMode) (g : Nat) (ty : Ty) (d a : BitVec 8) (x : Nat → Nat) :
    (s.iss c sl e i).shuffle m g ty d a x =
      (s.iss c sl e i).eachI ty d fun l => (s.iss c sl e i).opnd ty.is64 false a (shuffleSource s c sl e i m g l (x l)) := by
  unfold Iss.shuffle
  refine congrArg ((s.iss c sl e i).eachI ty d) (funext fun l => congrArg ((s.iss c sl e i).opnd ty.is64 false a) ?_)
  simp only [act_contains h, shuffleSource]
  cases m with
  | idx => rfl
  | up =>
    by_cases hlt : l - l / g * g < x l
    · simp only [shuffleFrom, hlt, if_true, if_neg (Nat.not_le.mpr hlt)]
    · simp only [shuffleFrom, hlt, if_false, if_pos (Nat.not_lt.mp hlt)]
  | dn =>
    by_cases hle : g ≤ l - l / g * g + x l
    · simp only [shuffleFrom, hle, if_true, if_neg (Nat.not_lt.mpr hle)]
    · simp only [shuffleFrom, hle, if_false, if_pos (Nat.not_le.mp hle)]
  | xor =>
    by_cases hle : g ≤ (l - l / g * g) ^^^ x l
    · simp only [shuffleFrom, hle, if_true, if_neg (Nat.not_lt.mpr hle)]
    · simp only [shuffleFrom, hle, if_false, if_pos (Nat.not_le.mp hle)]

/-- An instruction that only shuffles. -/
theorem pureOp_shuffle (h : Clear s c sl e i) (hst : (streamsOf (op9Of i)).1 = true) {bad : Iss → Bool}
    (hb : bad (s.iss c sl e i) = false) {m : ShMode} {g : Nat} {wide : Bool} {d a : BitVec 8}
    (hd : d.toNat + (if wide then 2 else 1) ≤ 256) {x : Nat → Nat} {work : Iss → Eff}
    (hwork : work (s.iss c sl e i) = (s.iss c sl e i).shuffle m g (if wide then .b64 else .b32) d a x) :
    ∃ t, pureOp i s bad work = .next t ∧
      Wrote s t c sl e i
        (dest s c sl e i wide d fun l =>
          let j := shuffleSource s c sl e i m g l (x l)
          if wide then vpair s c sl e j a.toNat else (vreg s c sl e j a.toNat).setWidth 64) noP noS 0 := by
  refine pureOp_eachI h hst hb wide hd (hwork.trans (shuffle_eq h ..)) fun l => ?_
  have hwide : (if wide then Ty.b64 else Ty.b32).is64 = wide := by cases wide <;> rfl
  rw [hwide, opnd_eq h, BitVec.ofNat_toNat, BitVec.setWidth_eq]
  rfl

/-- The destination of a register operand of class v is a register of the file. -/
theorem dest_in_file (h : Clear s c sl e i) {d : BitVec 8} {n : Nat}
    (hu : (uv d n).w ∈ usesOf (s.iss c sl e i).alg false i) : d.toNat + n ≤ 256 :=
  le_trans (h.regs _ hu rfl) (Nat.min_le_left _ _)

/-- What the static checks say of a `SHFL`'s type (R210). -/
theorem shfl_type {o : Shfl} (hok : o.ok = true) : o.ty = if o.ty.is64 then .b64 else .b32 := by
  simp only [Shfl.ok, Bool.and_eq_true, Bool.or_eq_true, beq_iff_eq] at hok
  obtain ⟨hb32 | ⟨⟨hb64, -⟩, -⟩, -⟩ := hok
  · rw [hb32]; rfl
  · rw [hb64]; rfl

/-- `SHFL` in each of its modes. -/
theorem shflOp_wrote {o : Shfl} (h : Clear s c sl e i) (hst : (streamsOf (op9Of i)).1 = true) (hok : o.ok = true)
    (hu : (uv o.d (if o.ty = .b64 then 2 else 1)).w ∈ usesOf (s.iss c sl e i).alg false i) (m : ShMode) :
    ∃ t, shflOp i m o s = .next t ∧
      Wrote s t c sl e i
        (dest s c sl e i o.ty.is64 o.d fun l =>
          let j := shuffleSource s c sl e i m (Said.groupSize s c sl e o.leg) l
            (if o.bi then o.ext.toNat else (vreg s c sl e l o.b.toNat).toNat)
          if o.ty.is64 then vpair s c sl e j o.a.toNat else (vreg s c sl e j o.a.toNat).setWidth 64) noP noS 0 := by
  have hn : (if o.ty = .b64 then 2 else 1) = if o.ty.is64 then 2 else 1 := by
    rw [shfl_type hok]; cases o.ty.is64 <;> rfl
  refine pureOp_shuffle (bad := never) h hst rfl (hn ▸ dest_in_file h hu) ?_
  rw [← shfl_type hok]
  simp only [rv_eq h, group_eq_groupSize]

/-- An instruction of `Said.shuffle` gives each active lane the register of its source lane. -/
theorem shuffle_wrote {m : ShMode} {g : Nat} {wide : Bool} {d a : BitVec 8} {x : Nat → Nat}
    (hsh : Said.shuffle s c sl e i = some (m, g, wide, d, a, x)) (hstep : (s.entry c sl e).ustep = 0) (h : Clear s c sl e i) :
    ∃ t, exec i s = .next t ∧
      Wrote s t c sl e i
        (dest s c sl e i wide d fun l =>
          let j := shuffleSource s c sl e i m g l (x l)
          if wide then vpair s c sl e j a.toNat else (vreg s c sl e j a.toNat).setWidth 64) noP noS 0 := by
  unfold Said.shuffle at hsh
  split at hsh
  case h_1 | h_2 | h_3 | h_4 =>
    cases hsh
    exact shflOp_wrote h rfl h.wf (List.mem_append_right _ (.head _)) _
  case h_5 =>
    cases hsh
    refine pureOp_shuffle (wide := false) h rfl ?_ (dest_in_file h (List.mem_append_right _ (.head _))) ?_
    · rw [Iss.pastSteps, show (s.iss c sl e _).e.ustep = 0 from hstep]
      rfl
    · simp only [rv_eq h]
      rfl
  case h_6 => cases hsh

/-! ### VOTE.mask, LTOS, STOL (R209, R211) -/

theorem voteGroup_le {leg : Bool} : (if leg then Said.groupSize s c sl e true else 32) ≤ 64 := by
  cases leg
  · exact (by decide : 32 ≤ 64)
  · exact le_trans (Nat.min_le_right _ _) (by split <;> decide)

/-- Only a team without rows has groups of no lane. -/
theorem no_lanes_of_voteGroup {leg : Bool} (hzero : (if leg then Said.groupSize s c sl e true else 32) = 0) :
    lanes s c sl e i = [] := by
  cases leg
  · exact absurd hzero (by decide : (32 : Nat) ≠ 0)
  · have hwidth : 32 * (s.entry c sl e).mask.length = 0 := by
      have hmin : min (width s c sl e) (if mode s c sl e 3 then 64 else 32) = 0 := hzero
      rw [width] at hmin
      split at hmin <;> omega
    rw [lanes, hwidth]
    rfl

/-- `VOTE.mask`: the word of the lane's group. -/
theorem voteMask_wrote {hd : Hdr} {leg : Bool} {d a : BitVec 8} (h : Clear s c sl e (.voteMask hd leg d a)) :
    ∃ t, exec (.voteMask hd leg d a) s = .next t ∧
      Wrote s t c sl e (.voteMask hd leg d a)
        (dest s c sl e (.voteMask hd leg d a) leg d fun l =>
          let g := if leg then Said.groupSize s c sl e true else 32
          (List.range g).foldl (fun w j =>
            let m := l / g * g + j
            w ||| (if active s c sl e (.voteMask hd leg d a) m && preg s c sl e m a.toNat then 1 <<< j else 0)) 0) noP noS 0 := by
  refine pureOp_eachI (bad := never) h rfl rfl leg (dest_in_file h (List.mem_append_right _ (.head _))) rfl fun l => ?_
  have hg : (if leg then (s.iss c sl e (.voteMask hd leg d a)).legacy else 32) = if leg then Said.groupSize s c sl e true else 32 := rfl
  simp only [hg, act_eq h, rp_eq h]
  rcases Nat.eq_zero_or_pos (if leg then Said.groupSize s c sl e true else 32) with hzero | hpos
  · rw [hzero, no_lanes_of_voteGroup hzero]
    rfl
  · rw [groupWord_eq lanes_nodup hpos voteGroup_le]
    simp only [mem_lanes, Bool.decide_eq_true]

/-- An instruction without flags, each register written once, leaves what its writes say. -/
theorem pureOp_go (h : Clear s c sl e i) (hst : (streamsOf (op9Of i)).1 = true) {bad : Iss → Bool}
    (hb : bad (s.iss c sl e i) = false) {work : Iss → Eff} {f : Eff} (hwork : work (s.iss c sl e i) = f) {v : Nat → Nat → Option Word}
    {u : Nat → Option Word} (hflags : f.flags = []) (hv : (f.v.map fun w => (w.1, w.2.1)).Nodup) (hv' : ∀ w ∈ f.v, w.2.1 < 256)
    (hp : f.p = []) (hs : (f.s.map Prod.fst).Nodup) (ev : vput f.v = v) (es : sput f.s = u) :
    ∃ t, pureOp i s bad work = .next t ∧ Wrote s t c sl e i v noP u 0 :=
  ⟨_, by rw [pureOp, teamOnly_eq h hst hb, hwork]; rfl, wrote_of_go h hflags hv hv' hp hs ev es⟩

theorem vput_nil : vput [] = noV := by funext l r; rfl

/-- One s register written (R171: s0 keeps zero). -/
theorem sput_one (d : Nat) (w : Dword) : sput [(d, w)] = fun r => if r = d ∧ r ≠ 0 then some (w.setWidth 32) else none := by
  funext r
  by_cases h0 : r = 0
  · simp [sput, h0]
  · by_cases hr : d = r
    · simp [sput, h0, hr]
    · simp [sput, hr, Ne.symm hr]

theorem vput_one (m d : Nat) (w : Word) : vput [(m, d, w)] = fun l r => if l = m ∧ r = d then some w else none := by
  funext l r
  by_cases hr : m = l ∧ d = r
  · simp [vput, hr.1, hr.2]
  · have hb : (m == l && d == r) = false := by rw [Bool.eq_false_iff]; simpa using hr
    have hr' : ¬ (l = m ∧ r = d) := fun hw => hr ⟨hw.1.symm, hw.2.symm⟩
    simp [vput, hb, hr']

/-- `LTOS`: the lowest active lane's register. -/
theorem ltos_wrote {hd : Hdr} {d a : BitVec 8} (h : Clear s c sl e (.ltos hd d a)) :
    ∃ t, exec (.ltos hd d a) s = .next t ∧
      Wrote s t c sl e (.ltos hd d a) noV noP
        (fun r => if r = d.toNat ∧ r ≠ 0 then ((lanes s c sl e (.ltos hd d a)).head?).map (fun l => vreg s c sl e l a.toNat) else none)
        0 := by
  have hact := act_eq h
  cases hls : lanes s c sl e (.ltos hd d a) with
  | nil =>
    refine pureOp_go (bad := never) (f := {}) h rfl rfl ?_ rfl .nil (by simp) rfl .nil vput_nil (sput_nil.trans ?_)
    · rw [hact, hls]
    · funext r
      exact (ite_self none).symm
  | cons l ls =>
    refine pureOp_go (bad := never) (f := { s := [(d.toNat, (vreg s c sl e l a.toNat).setWidth 64)] }) h rfl rfl ?_ rfl .nil (by simp)
      rfl (List.nodup_singleton _) vput_nil ((sput_one _ _).trans ?_)
    · rw [hact, hls]
      simp only [rv_eq h]
    · simp

/-- `STOL`: one lane's register, where that lane is active. -/
theorem stol_wrote {hd : Hdr} {d a b : BitVec 8} (h : Clear s c sl e (.stol hd d a b)) :
    ∃ t, exec (.stol hd d a b) s = .next t ∧
      Wrote s t c sl e (.stol hd d a b)
        (fun l r => if active s c sl e (.stol hd d a b) l ∧ l = (sreg s c sl e b.toNat).toNat % width s c sl e ∧ r = d.toNat
          then some (sreg s c sl e a.toNat) else none) noP noS 0 := by
  have hcontains := act_contains h
  have hwidth : (s.iss c sl e (.stol hd d a b)).width = width s c sl e := rfl
  cases hl : active s c sl e (.stol hd d a b) ((sreg s c sl e b.toNat).toNat % width s c sl e)
  · refine pureOp_go (bad := never) (f := {}) h rfl rfl ?_ rfl .nil (by simp) rfl .nil (vput_nil.trans ?_) sput_nil
    · simp only [rs_eq h, hcontains, hwidth, hl, Bool.false_eq_true, if_false]
    · funext l r
      refine (if_neg ?_).symm
      rintro ⟨hactive, rfl, -⟩
      rw [hl] at hactive
      exact absurd hactive (by decide)
  · refine pureOp_go (bad := never)
      (f := { v := [((sreg s c sl e b.toNat).toNat % width s c sl e, d.toNat, sreg s c sl e a.toNat)] }) h rfl rfl ?_ rfl
      (List.nodup_singleton _) (by simp [d.isLt]) rfl .nil ((vput_one _ _ _).trans ?_) sput_nil
    · simp only [rs_eq h, hcontains, hwidth, hl, if_true]
    · funext l r
      refine if_congr ⟨fun ⟨hlane, hr⟩ => ⟨hlane ▸ hl, hlane, hr⟩, fun ⟨_, hlane, hr⟩ => ⟨hlane, hr⟩⟩ rfl rfl

end Instructions

/-- Settles O9: a shuffle by its source lanes, a vote by the places of its group, and the two moves by their one lane. -/
theorem crossLaneInstructionsMoveLanes : Obligations.CrossLaneInstructionsMoveLanes :=
  ⟨fun _ _ _ _ _ _ _ _ _ _ _ hsh hstep h => shuffle_wrote hsh hstep h, fun _ _ _ _ _ _ _ _ h => voteMask_wrote h,
    fun _ _ _ _ _ _ _ h => ltos_wrote h, fun _ _ _ _ _ _ _ _ h => stol_wrote h⟩

end Sys2Proof.Machine
end

section
/-! The scalar group in both streams (R191, R192, R212, R213, R266): the statement of O10. -/

namespace Sys2Proof.Machine

open Sys2Proof Sys2Proof.Said

/-! ### Results of a type's width (R10, R79, R80) -/

theorem ofNat_bitsOfInt (n : Nat) (v : Int) : BitVec.ofNat n (bitsOfInt n v) = BitVec.ofInt n v :=
  BitVec.eq_of_toNat_eq (by
    rw [BitVec.toNat_ofInt, BitVec.toNat_ofNat, bitsOfInt]
    exact Nat.mod_eq_of_lt ((Int.toNat_lt' (by positivity)).mpr (by exact_mod_cast Int.emod_lt_of_pos v (by positivity))))

theorem saturate_eq_clampTo (ty : Ty) (v : Int) : saturate ty.isSigned ty.bits v = clampTo ty v := by
  unfold saturate clampTo intMin intMax
  cases ty.isSigned <;> simp

/-- An exact integer narrowed by a type, wrapped or clamped. -/
theorem narrow_bits (ty : Ty) (sat : Bool) (v : Int) :
    BitVec.ofNat ty.bits (narrow ty sat v) = BitVec.ofInt ty.bits (if sat then clampTo ty v else v) := by
  rw [narrow, ofNat_bitsOfInt, saturate_eq_clampTo]

theorem intOf_eq_toInt {n : Nat} (hn : 0 < n) (w : Nat) : intOf true n w = (BitVec.ofNat n w).toInt := by
  have htwo : 2 * 2 ^ (n - 1) = 2 ^ n := by rw [← Nat.pow_succ', Nat.succ_eq_add_one, Nat.sub_add_cancel hn]
  simp only [intOf, Bool.true_and, decide_eq_true_eq, BitVec.toInt_eq_toNat_cond, BitVec.toNat_ofNat]
  split <;> split <;> omega

/-- A result that the control stream extends by its type. -/
theorem ofNat_extend {ty : Ty} {sat : Bool} {v : Nat} {z : Int}
    (hv : BitVec.ofNat ty.bits v = BitVec.ofInt ty.bits (if sat then clampTo ty z else z)) :
    BitVec.ofNat 64 (extend ty 64 v) = fit ty sat z := by
  have hpos : 0 < ty.bits := by cases ty <;> decide
  have hle : ty.bits ≤ 64 := by cases ty <;> decide
  have hpow : 2 ^ ty.bits ≤ 2 ^ 64 := Nat.pow_le_pow_right (by decide) hle
  have hmod : v % 2 ^ ty.bits < 2 ^ ty.bits := Nat.mod_lt _ (by positivity)
  unfold fit extend
  rw [← hv]
  refine BitVec.eq_of_toNat_eq ?_
  cases hs : ty.isSigned
  · simp only [Bool.false_and, Bool.false_eq_true, if_false, BitVec.toNat_setWidth, BitVec.toNat_ofNat]
  · have hmsb : (BitVec.ofNat ty.bits v).msb = decide (2 ^ (ty.bits - 1) ≤ v % 2 ^ ty.bits) := by
      rw [BitVec.msb_eq_decide, BitVec.toNat_ofNat]
    simp only [Bool.true_and, if_true, BitVec.toNat_signExtend, BitVec.toNat_setWidth, BitVec.toNat_ofNat, hmsb, Bool.and_eq_true,
      decide_eq_true_eq]
    have hfull : ¬ ty.bits < 64 → 2 ^ ty.bits = 2 ^ 64 := fun hw => by rw [Nat.le_antisymm hle (Nat.not_lt.mp hw)]
    by_cases hneg : 2 ^ (ty.bits - 1) ≤ v % 2 ^ ty.bits
    · by_cases hwide : ty.bits < 64
      · rw [if_pos ⟨hneg, hwide⟩, if_pos hneg]
        omega
      · rw [if_neg fun hc => hwide hc.2, if_pos hneg]
        have := hfull hwide
        omega
    · rw [if_neg fun hc => hneg hc.1, if_neg hneg]
      omega

/-- The low word of a result of a 32-bit type. -/
theorem setWidth_fit_word {ty : Ty} (hbits : ty.bits = 32) {sat : Bool} {v : Nat} {z : Int}
    (hv : BitVec.ofNat ty.bits v = BitVec.ofInt ty.bits (if sat then clampTo ty z else z)) :
    (fit ty sat z).setWidth 32 = (BitVec.ofNat 64 v).setWidth 32 := by
  have hfit : fit ty sat z = fit ty false (if sat then clampTo ty z else z) := rfl
  have hwidth := setWidth_fit ty (if sat then clampTo ty z else z)
  rw [← hv, ← hfit, hbits] at hwidth
  rw [hwidth, BitVec.setWidth_ofNat_of_le (by decide)]

/-! ### Shifts (R213) -/

theorem shl_bits {n : Nat} (hn : n ≤ 64) (a b : Dword) :
    BitVec.ofNat n (shiftOp 0 n a.toNat b.toNat) = BitVec.ofInt n (if n ≤ b.toNat then 0 else ((a <<< b.toNat).toNat : Int)) := by
  unfold shiftOp
  by_cases hb : n ≤ b.toNat
  · simp [hb]
  · simp only [hb, if_false, BitVec.ofInt_natCast, BitVec.toNat_shiftLeft, Nat.shiftLeft_eq]
    refine BitVec.eq_of_toNat_eq ?_
    rw [BitVec.toNat_ofNat, BitVec.toNat_ofNat, Nat.mod_mod, Nat.mod_mod_of_dvd _ (Nat.pow_dvd_pow 2 hn)]

theorem shr_bits {n : Nat} (a b : Dword) :
    BitVec.ofNat n (shiftOp 1 n a.toNat b.toNat) = BitVec.ofInt n (if n ≤ b.toNat then 0 else ((a >>> b.toNat).toNat : Int)) := by
  unfold shiftOp
  by_cases hb : n ≤ b.toNat
  · simp [hb]
  · simp only [hb, if_false, BitVec.ofInt_natCast, BitVec.toNat_ushiftRight, Nat.shiftRight_eq_div_pow]

/-- A number smaller than the divisor, divided downward. -/
theorem ediv_of_small {a b : Int} (hb : 0 < b) (hlo : -b ≤ a) (hhi : a < b) : a / b = if a < 0 then -1 else 0 := by
  split
  · next hneg => exact ((Int.ediv_emod_unique hb).mpr ⟨show a + b + b * -1 = a by ring, by omega, by omega⟩).1
  · next hneg => exact Int.ediv_eq_zero_of_lt (by omega) hhi

theorem sra_bits {n : Nat} (hn : 0 < n) (a b : Dword) :
    BitVec.ofNat n (shiftOp 2 n a.toNat b.toNat) =
      BitVec.ofInt n ((a.setWidth n).sshiftRight (min b.toNat n)).toInt := by
  rw [show shiftOp 2 n a.toNat b.toNat = bitsOfInt n (if n ≤ b.toNat then (if intOf true n a.toNat < 0 then -1 else 0)
    else intOf true n a.toNat / ((2 ^ b.toNat : Nat) : Int)) from rfl, ofNat_bitsOfInt,
    intOf_eq_toInt hn, BitVec.ofNat_toNat, BitVec.toInt_sshiftRight, Int.shiftRight_eq_div_pow]
  by_cases hb : n ≤ b.toNat
  · rw [if_pos hb, Nat.min_eq_right hb]
    have hlo := BitVec.le_two_mul_toInt (x := a.setWidth n)
    have hhi := BitVec.two_mul_toInt_lt (x := a.setWidth n)
    push_cast at hlo hhi ⊢
    rw [ediv_of_small (by positivity) (by omega) (by omega)]
  · rw [if_neg hb, Nat.min_eq_left (by omega)]

/-! ### What a scalar instruction is (R212, R213) -/

/-- The unit's operation `f` on numbers computes the bits of a scalar instruction's value, whatever its operands hold. -/
def ScalarValue (z : Said.Scalar) (f : Nat → Nat → Nat) : Prop :=
  ∀ rd : Option (BitVec 8) → Dword,
    BitVec.ofNat z.ty.bits (f (rd z.a).toNat (rd z.b).toNat) =
      BitVec.ofInt z.ty.bits (if z.sat then clampTo z.ty (z.f (rd z.a) (rd z.b)) else z.f (rd z.a) (rd z.b))

/-- A scalar instruction as the unit runs it. -/
structure ScalarForm (i : Instr) (z : Said.Scalar) (f : Nat → Nat → Nat) : Prop where
  runs : ∀ s, exec i s = scalarOp i z.ty z.d z.a z.b z.imm.toNat f s
  streams : streamsOf (op9Of i) = (true, true)
  value : ScalarValue z f
  word : z.ty.is64 = false → z.ty.bits = 32

theorem word_of_scalarType : ∀ {ty : Ty}, ty ∈ rawTypes ++ intTypes → ty.is64 = false → ty.bits = 32 := by
  decide

theorem smoviLit_type (wide : Bool) : (if wide then Ty.b64 else Ty.b32) ∈ rawTypes ++ intTypes := by
  revert wide
  decide

theorem scalarOk_type {o : Alu} {types : List Ty} {rnds : List Rnd} {sat hasB : Bool} (hok : o.scalarOk types rnds sat hasB = true) :
    o.ty ∈ types := by
  simp only [Alu.scalarOk, Bool.and_eq_true, and_assoc] at hok
  exact List.contains_iff_mem.mp hok.1

theorem movOk_type {o : Alu} (hok : o.movOk = true) : o.ty ∈ rawTypes := by
  simp only [Alu.movOk, Bool.and_eq_true, and_assoc, Bool.or_eq_true, beq_iff_eq] at hok
  rcases hok.1 with hty | hty <;> rw [hty] <;> decide

/-- A scalar instruction of two operands. -/
theorem scalar2_form {i : Instr} {o : Alu} {sat : Bool} {f : Nat → Nat → Nat} {g : Dword → Dword → Int}
    (hrun : ∀ s, exec i s = scalar2 i o f s) (hst : streamsOf (op9Of i) = (true, true)) (hty : o.ty ∈ rawTypes ++ intTypes)
    (hval : ∀ a b : Dword,
      BitVec.ofNat o.ty.bits (f a.toNat b.toNat) = BitVec.ofInt o.ty.bits (if sat then clampTo o.ty (g a b) else g a b)) :
    ScalarForm i { ty := o.ty, sat := sat, d := o.d, a := some o.a, b := if o.bi then none else some o.b,
                   imm := imm o.ty.is64 o.ext o.lit, f := g } f where
  runs s := by
    dsimp only
    rw [← immOf_eq]
    exact hrun s
  streams := hst
  value _ := hval _ _
  word := word_of_scalarType hty

/-- A scalar instruction whose exact integer is narrowed to its type (R213). -/
theorem scalarInt_form {i : Instr} {o : Alu} {f : Int → Int → Int} (hrun : ∀ s, exec i s = scalarInt i o f s)
    (hst : streamsOf (op9Of i) = (true, true)) (hty : o.ty ∈ intTypes) :
    ScalarForm i { ty := o.ty, sat := o.sat, d := o.d, a := some o.a, b := if o.bi then none else some o.b,
                   imm := imm o.ty.is64 o.ext o.lit, f := fun a b => f (num o.ty a) (num o.ty b) }
      fun a b => narrow o.ty o.sat (f (valOf o.ty a) (valOf o.ty b)) :=
  scalar2_form hrun hst (List.mem_append_right _ hty) fun a b => by rw [narrow_bits, valOf_eq_num, valOf_eq_num]

/-- A scalar instruction that works on bits (R213). -/
theorem scalarRaw_form {i : Instr} {o : Alu} {f : Nat → Nat → Nat} {g : Dword → Dword → Int}
    (hrun : ∀ s, exec i s = scalar2 i o f s) (hst : streamsOf (op9Of i) = (true, true))
    (hok : o.scalarOk rawTypes [.none] false true = true)
    (hval : ∀ a b : Dword, BitVec.ofNat o.ty.bits (f a.toNat b.toNat) = BitVec.ofInt o.ty.bits (g a b)) :
    ScalarForm i { ty := o.ty, sat := false, d := o.d, a := some o.a, b := if o.bi then none else some o.b,
                   imm := imm o.ty.is64 o.ext o.lit, f := g } f :=
  scalar2_form hrun hst (List.mem_append_left _ (scalarOk_type hok)) hval

/-- A comparison's bit is one or zero. -/
theorem ofNat_toNat_bool (n : Nat) (r : Bool) : BitVec.ofNat n r.toNat = BitVec.ofInt n (if r then 1 else 0) := by
  cases r <;> rfl

/-- Each scalar instruction has such a form. -/
theorem scalar_form {i : Instr} {z : Said.Scalar} (hz : scalar i = some z) (hwf : i.wf = true) : ∃ f, ScalarForm i z f := by
  unfold Said.scalar at hz
  split at hz
  case h_1 hd o =>
    cases hz
    have hok : o.scalarOk intTypes [.none] true true = true := hwf
    exact ⟨_, scalarInt_form (f := (· + ·)) (fun _ => rfl) rfl (scalarOk_type hok)⟩
  case h_2 hd o =>
    cases hz
    have hok : o.scalarOk intTypes [.none] true true = true := hwf
    exact ⟨_, scalarInt_form (f := (· - ·)) (fun _ => rfl) rfl (scalarOk_type hok)⟩
  case h_3 hd o =>
    cases hz
    have hok : o.scalarOk intTypes [.none] false true = true := hwf
    exact ⟨_, scalarInt_form (f := (· * ·)) (fun _ => rfl) rfl (scalarOk_type hok)⟩
  case h_4 hd o =>
    cases hz
    exact ⟨_, scalarRaw_form (f := (· &&& ·)) (fun _ => rfl) rfl hwf fun _ _ => (BitVec.ofInt_natCast _ _).symm⟩
  case h_5 hd o =>
    cases hz
    exact ⟨_, scalarRaw_form (f := (· ||| ·)) (fun _ => rfl) rfl hwf fun _ _ => (BitVec.ofInt_natCast _ _).symm⟩
  case h_6 hd o =>
    cases hz
    exact ⟨_, scalarRaw_form (f := (· ^^^ ·)) (fun _ => rfl) rfl hwf fun _ _ => (BitVec.ofInt_natCast _ _).symm⟩
  case h_7 hd o =>
    cases hz
    exact ⟨_, scalarRaw_form (f := shiftOp 0 o.ty.bits) (fun _ => rfl) rfl hwf (shl_bits (by cases o.ty <;> decide))⟩
  case h_8 hd o =>
    cases hz
    exact ⟨_, scalarRaw_form (f := shiftOp 1 o.ty.bits) (fun _ => rfl) rfl hwf shr_bits⟩
  case h_9 hd o =>
    cases hz
    exact ⟨_, scalarRaw_form (f := shiftOp 2 o.ty.bits) (fun _ => rfl) rfl hwf (sra_bits (by cases o.ty <;> decide))⟩
  case h_10 hd o =>
    cases hz
    have hok : o.scalarOk rawTypes [.none] false false = true := hwf
    exact ⟨fun a _ => a, fun s => rfl, rfl, fun rd => (BitVec.ofInt_natCast _ _).symm,
      word_of_scalarType (List.mem_append_left _ (scalarOk_type hok))⟩
  case h_11 hd d a =>
    cases hz
    exact ⟨fun a _ => a, fun s => rfl, rfl, fun rd => (BitVec.ofInt_natCast _ _).symm, fun _ => rfl⟩
  case h_12 hd o =>
    cases hz
    have hok : (sReg o.d && o.movOk) = true := hwf
    exact ⟨fun a _ => a, fun s => by dsimp only; rw [← immOf_eq]; rfl, rfl, fun rd => (BitVec.ofInt_natCast _ _).symm,
      word_of_scalarType (List.mem_append_left _ (movOk_type (Bool.and_eq_true_iff.mp hok).2))⟩
  case h_13 hd wide d lit =>
    cases hz
    exact ⟨fun a _ => a, fun s => rfl, rfl, fun rd => (BitVec.ofInt_natCast _ _).symm, word_of_scalarType (smoviLit_type wide)⟩
  case h_14 hd o =>
    cases hz
    have hok : (o.scalarOk (rawTypes ++ intTypes) rnds5 false true && (!(o.ty == .b32 || o.ty == .b64) || o.rnd == .none || o.rnd == .rn)) =
      true := hwf
    refine ⟨_, scalar2_form (f := fun a b => (cmpInt o.rnd.code (valOf o.ty a) (valOf o.ty b)).toNat) (fun s => rfl) rfl
      (scalarOk_type (Bool.and_eq_true_iff.mp hok).1) fun a b => ?_⟩
    rw [ofNat_toNat_bool, valOf_eq_num, valOf_eq_num]
    rfl
  case h_15 => cases hz

/-! ### The two streams -/

section Team

variable {s : State} {c sl e : Nat} {i : Instr} {z : Said.Scalar} {f : Nat → Nat → Nat}

/-- An operand in the team stream: an s register, or the immediate's low word. -/
def teamScalar (s : State) (c sl e : Nat) (z : Said.Scalar) : Option (BitVec 8) → Dword
  | some r => (sreg s c sl e r.toNat).setWidth 64
  | none => (z.imm.setWidth 32).setWidth 64

/-- The team stream: s[D] once, where some lane is active (R191, R212). -/
theorem scalarOp_team (h : Clear s c sl e i) (hf : ScalarForm i z f) (hty : z.ty.is64 = false) :
    ∃ t, exec i s = .next t ∧
      Wrote s t c sl e i noV noP
        (fun r => if r = z.d.toNat ∧ r ≠ 0 ∧ lanes s c sl e i ≠ [] then
            some ((fit z.ty z.sat (z.f (teamScalar s c sl e z z.a) (teamScalar s c sl e z z.b))).setWidth 32) else none) 0 := by
  have hst : (streamsOf (op9Of i)).1 = true := by rw [hf.streams]
  have hread : ∀ r : Option (BitVec 8), (match r with | some r => (sreg s c sl e r.toNat).toNat | none => z.imm.toNat % 2 ^ 32) =
      (teamScalar s c sl e z r).toNat := by
    intro r
    cases r with
    | some r => exact (BitVec.toNat_setWidth_of_le (by decide)).symm
    | none => rw [teamScalar, BitVec.toNat_setWidth_of_le (by decide), BitVec.toNat_setWidth]
  rw [hf.runs, scalarOp]
  refine ⟨_, bothStreams_team_eq h hst hty _ _ _ _, ?_⟩
  by_cases hl : lanes s c sl e i = []
  · have hempty : (s.iss c sl e i).act.isEmpty = true := by rw [act_eq h, hl]; rfl
    rw [hempty, if_pos rfl]
    refine wrote_of_go (f := {}) h rfl .nil (by simp) rfl .nil vput_nil (sput_nil.trans ?_)
    funext r
    rw [if_neg fun hr => hr.2.2 hl]
    rfl
  · have hact : (s.iss c sl e i).act.isEmpty = false := act_notEmpty h hl
    simp only [hact, Bool.false_eq_true, if_false, rs_eq h, hl, ne_eq, not_false_eq_true, and_true]
    refine wrote_of_go (f := { s := [(z.d.toNat, _)] }) h rfl .nil (by simp) rfl (List.nodup_singleton _) vput_nil ((sput_one _ _).trans ?_)
    have hword : (BitVec.ofNat 64 (f _ _)).setWidth 32 = _ :=
      (congrArg₂ (fun x y => (BitVec.ofNat 64 (f x y)).setWidth 32) (hread z.a) (hread z.b)).trans
        (setWidth_fit_word (hf.word hty) (hf.value _)).symm
    funext r
    exact congrArg (fun w => if r = z.d.toNat ∧ r ≠ 0 then some w else none) hword

end Team

section Ctl

variable {s : State} {cl : Nat} {i : Instr} {z : Said.Scalar} {f : Nat → Nat → Nat}

/-- An operand in the control stream: the low bits of a c register or of the immediate. -/
def ctlScalar (s : State) (cl : Nat) (z : Said.Scalar) : Option (BitVec 8) → Dword
  | some r => low z.ty.bits (creg s cl r)
  | none => low z.ty.bits z.imm

theorem toNat_low (n : Nat) (w : Dword) : (low n w).toNat = w.toNat % 2 ^ n := by
  rw [low, BitVec.toNat_setWidth, BitVec.toNat_setWidth]
  exact Nat.mod_eq_of_lt (lt_of_le_of_lt (Nat.mod_le _ _) w.isLt)

/-- The control stream: c[D], extended by the type (R192, R266). -/
theorem scalarOp_ctl (h : CClear s cl i) (hf : ScalarForm i z f) :
    ∃ t, exec i s = .next t ∧
      CWrote s t cl i (fun r => if r = z.d.toNat ∧ r ≠ 0 then
        some (fit z.ty z.sat (z.f (ctlScalar s cl z z.a) (ctlScalar s cl z z.b))) else none) := by
  have hst : (streamsOf (op9Of i)).2 = true := by rw [hf.streams]
  have hread : ∀ r : Option (BitVec 8),
      (match r with | some r => (creg s cl r).toNat % 2 ^ z.ty.bits | none => z.imm.toNat % 2 ^ z.ty.bits) =
        (ctlScalar s cl z r).toNat := by
    intro r
    cases r with
    | some r => exact (toNat_low _ _).symm
    | none => exact (toNat_low _ _).symm
  refine ⟨_, ?_, CIss.finish_cwrote h _ _⟩
  rw [hf.runs, scalarOp, bothStreams_ctl_eq h hst _ _ _ rfl _]
  refine congrArg (fun w => (.next ((s.ciss cl i).finish s (.eff [(z.d.toNat, w)])) : Out)) ?_
  simp only [rc_eq h]
  exact (congrArg₂ (fun x y => BitVec.ofNat 64 (extend z.ty 64 (f x y))) (hread z.a) (hread z.b)).trans (ofNat_extend (hf.value _))

end Ctl

/-- Settles O10: what a scalar instruction computes is said once, for the operands of both streams. -/
theorem scalarInstructionsInBothStreams : Obligations.ScalarInstructionsInBothStreams := by
  refine ⟨fun s c sl e i z hz hty h => ?_, fun s cl i z hz h => ?_⟩
  · obtain ⟨f, hf⟩ := scalar_form hz h.wf
    exact scalarOp_team h hf hty
  · obtain ⟨f, hf⟩ := scalar_form hz h.wf
    exact scalarOp_ctl h hf

end Sys2Proof.Machine
end

section
/-! A control-flow instruction whose lanes all take one path (R190 to R195, R197, R202, R307): the first part of the statement of O11. -/

namespace Sys2Proof.Machine

open Sys2Proof Sys2Proof.Said

section Instructions

variable {s s1 t : State} {c sl e : Nat} {i : Instr} {pc : Word}

/-- The sub-team goes on at `pc` after its passes and its stall count, with its lanes, its stack and its registers. -/
structure FlowsTo (s t : State) (c sl e : Nat) (i : Instr) (pc : Word) : Prop where
  only : OnlyEntry s t c sl e
  holds : Holds s t c sl e noV noP noS 0
  entry : ∃ y, t.entry c sl e = (s.iss c sl e i).onward y pc ∧ y.mask = (s.entry c sl e).mask ∧ y.stack = (s.entry c sl e).stack

theorem onlyEntry_refl (s : State) (c sl e : Nat) : OnlyEntry s s c sl e where
  rest := rfl
  cores _ _ := rfl
  core := rfl
  slots _ _ := rfl
  ctr := rfl
  teams _ _ := rfl
  entries _ _ := rfl

/-- No register changes where the team's latency records and pending bits alone do. -/
theorem holds_of_late (h : team t c sl e = { team s c sl e with late := (team t c sl e).late, busy := (team t c sl e).busy }) :
    Holds s t c sl e noV noP noS 0 where
  vregs _ _ _ := by rw [vreg, h]; rfl
  pregs _ _ _ := by rw [preg, h]; rfl
  sregs _ := by rw [sreg, h]; rfl
  rest := by
    rw [show (team s c sl e).fpctl ||| (0 : BitVec 6).setWidth 32 = (team s c sl e).fpctl from BitVec.or_zero, h]

/-- An instruction that writes nothing, over a state in which at most its entry's ready stamp has moved, goes on at the next one. -/
theorem flowsTo_go (hentry : (s1.entry c sl e).team = (s.entry c sl e).team ∧ (s1.entry c sl e).mask = (s.entry c sl e).mask ∧
      (s1.entry c sl e).stack = (s.entry c sl e).stack) (honly : OnlyEntry s s1 c sl e)
    (hteam : s1.team c sl (s.entry c sl e).team = team s c sl e) :
    FlowsTo s ((s.iss c sl e i).finish s [] (.go s1 {})) c sl e i (nextPc s c sl e i) := by
  obtain ⟨htm, hmask, hstack⟩ := hentry
  obtain ⟨hco, hce, hct⟩ := Iss.commit_idle s s1 c sl e i htm
  obtain ⟨hgo, hgt, hge⟩ := Iss.charge_goes s ((s.iss c sl e i).commit s1 {}) c sl e i (s.iss c sl e i).npc
  have ht : (s.iss c sl e i).finish s [] (.go s1 {}) =
    (s.iss c sl e i).charge ((s.iss c sl e i).commit s1 {}) [] (s.iss c sl e i).npc none := rfl
  have hent : ((s.iss c sl e i).finish s [] (.go s1 {})).entry c sl e = (s.iss c sl e i).onward (s1.entry c sl e) (s.iss c sl e i).npc := by
    rw [ht, hge, hce]
  have haged : team ((s.iss c sl e i).finish s [] (.go s1 {})) c sl e = (s.iss c sl e i).aged (team s c sl e) := by
    rw [Said.team, hent, show ((s.iss c sl e i).onward (s1.entry c sl e) (s.iss c sl e i).npc).team = (s.entry c sl e).team from htm,
      ht, hgt, hct, hteam]
  exact ⟨honly.trans (ht ▸ hco.trans hgo (by rw [hce])) htm, holds_of_late (by rw [haged]; rfl), _, hent, hmask, hstack⟩

theorem flowsTo_idle : FlowsTo s ((s.iss c sl e i).finish s [] (.eff {})) c sl e i (nextPc s c sl e i) :=
  flowsTo_go ⟨rfl, rfl, rfl⟩ (onlyEntry_refl s c sl e) rfl

/-- A jump. -/
theorem flowsTo_jump (pc : Word) : FlowsTo s ((s.iss c sl e i).finish s [] (.jump s pc)) c sl e i pc := by
  obtain ⟨hgo, hgt, hge⟩ := Iss.charge_goes s s c sl e i pc
  have hsame : team ((s.iss c sl e i).finish s [] (.jump s pc)) c sl e = team s c sl e :=
    (congrArg (fun y : Entry => ((s.iss c sl e i).charge s [] pc none).team c sl y.team) hge).trans (hgt _ _ _)
  exact ⟨hgo, holds_of_late (by rw [hsame]), _, hge, rfl, rfl⟩

/-- A branch of one path jumps. -/
theorem branch_single (x : Iss) (k : BitVec 12) (p : Word × List Nat) : x.branch s k [p] none = .jump s p.1 := rfl

/-! ### The paths of a branch (R194, R195) -/

theorem lanes_eq_filter : lanes s c sl e i = (lanesOf (s.entry c sl e).mask).filter (active s c sl e i) := by
  rw [lanes, lanesOf, List.filter_filter]
  refine List.filter_congr fun l _ => ?_
  simp only [active]
  cases inMask (s.entry c sl e).mask l <;> simp

/-- The lanes that are not active. -/
def others (s : State) (c sl e : Nat) (i : Instr) : List Nat :=
  (lanesOf (s.entry c sl e).mask).filter fun l => !active s c sl e i l

/-- Every lane is active just where no other is left. -/
theorem others_eq_nil : others s c sl e i = [] ↔ lanes s c sl e i = lanesOf (s.entry c sl e).mask := by
  rw [lanes_eq_filter, List.filter_eq_self, others, List.filter_eq_nil_iff]
  simp

/-- The paths of a branch with one target. -/
theorem twoPaths_eq (h : Clear s c sl e i) (pc : Word) :
    (s.iss c sl e i).twoPaths pc =
      if lanes s c sl e i = [] then [(nextPc s c sl e i, others s c sl e i)]
      else if lanes s c sl e i = lanesOf (s.entry c sl e).mask ∨ pc = nextPc s c sl e i then [(pc, lanes s c sl e i)]
      else [(pc, lanes s c sl e i), (nextPc s c sl e i, others s c sl e i)] := by
  have hrest : (lanesOf (s.iss c sl e i).e.mask).filter (fun l => !(s.iss c sl e i).act.contains l) = others s c sl e i := by
    simp only [act_contains h]
    rfl
  unfold Iss.twoPaths
  rw [hrest, act_eq h]
  simp only [List.isEmpty_iff, Bool.or_eq_true, beq_iff_eq, others_eq_nil]
  rfl

/-- A `BRX` whose lanes all go to one address has one path. -/
theorem lanePaths_one (h : Clear s c sl e i) {a : BitVec 8} {q : Word} (hne : lanesOf (s.entry c sl e).mask ≠ [])
    (hgoal : ∀ l ∈ lanesOf (s.entry c sl e).mask,
      (if active s c sl e i l then vreg s c sl e l a.toNat else nextPc s c sl e i) = q) :
    ∃ ls, (s.iss c sl e i).lanePaths a = [(q, ls)] := by
  have hmask : (s.iss c sl e i).e.mask = (s.entry c sl e).mask := rfl
  have hsame : (lanesOf (s.entry c sl e).mask).map
      (fun l => if active s c sl e i l then vreg s c sl e l a.toNat else (s.iss c sl e i).npc) =
        List.replicate (lanesOf (s.entry c sl e).mask).length q :=
    List.map_eq_replicate_iff.mpr hgoal
  simp only [Iss.lanePaths, act_contains h, rv_eq h, hmask, hsame, List.reverse_replicate,
    List.replicate_dedup (fun hz => hne (List.length_eq_zero_iff.mp hz)), List.reverse_singleton]
  by_cases hq : q = (s.iss c sl e i).npc
  · simp [hq]
  · simp [hq, Ne.symm hq]

/-! ### The instructions -/

/-- A `BRA` whose lanes all take one path. -/
theorem braOp_flows (h : Clear s c sl e i) (hst : (streamsOf (op9Of i)).1 = true) {k : BitVec 12} {off : Word}
    (hflow : (if lanes s c sl e i = [] then some (nextPc s c sl e i)
      else if lanes s c sl e i = lanesOf (s.entry c sl e).mask ∨ (s.entry c sl e).pc + off * 4 = nextPc s c sl e i then
        some ((s.entry c sl e).pc + off * 4) else none) = some pc) :
    ∃ t, braOp i k off s = .next t ∧ FlowsTo s t c sl e i pc := by
  refine ⟨_, bothStreams_team_eq h hst rfl _ _ _ _, ?_⟩
  rw [twoPaths_eq h]
  split at hflow
  · next hidle =>
    rw [if_pos hidle, branch_single, ← Option.some.inj hflow]
    exact flowsTo_jump _
  · next hsome =>
    rw [Option.ite_none_right_eq_some] at hflow
    obtain ⟨hone, hpc⟩ := hflow
    have htarget : (s.iss c sl e i).target off = (s.entry c sl e).pc + off * 4 := rfl
    rw [if_neg hsome, htarget, if_pos hone, branch_single, ← Option.some.inj hpc]
    exact flowsTo_jump _

theorem flowsTo_jump_of_eq {q : Word} (hq : q = pc) : FlowsTo s ((s.iss c sl e i).finish s [] (.jump s q)) c sl e i pc :=
  hq ▸ flowsTo_jump q

theorem act_isEmpty (h : Clear s c sl e i) : (s.iss c sl e i).act.isEmpty = decide (lanes s c sl e i = []) := by
  rw [act_eq h, Bool.eq_iff_iff, List.isEmpty_iff, decide_eq_true_eq]

/-- `BRL`: one outcome for the whole sub-team. -/
theorem brlOp_flows (h : Clear s c sl e i) (hst : (streamsOf (op9Of i)).1 = true) {off : Word} :
    ∃ t, brlOp i off s = .next t ∧
      FlowsTo s t c sl e i (if lanes s c sl e i ≠ [] ∧ true = true then (s.entry c sl e).pc + off * 4 else nextPc s c sl e i) := by
  refine ⟨_, teamOnly_eq h hst rfl _, flowsTo_jump_of_eq ?_⟩
  rw [act_isEmpty h]
  by_cases hl : lanes s c sl e i = []
  · rw [decide_eq_true hl, if_pos rfl, if_neg fun k => k.1 hl]
    rfl
  · simp only [hl, decide_false, Bool.false_eq_true, if_false, ne_eq, not_false_eq_true, true_and, if_true]
    rfl

/-- `BRZ` and `BRNZ`: one outcome, by an s register. -/
theorem brzOp_flows (h : Clear s c sl e i) (hst : (streamsOf (op9Of i)).1 = true) {zero : Bool} {a : BitVec 8} {off : Word} :
    ∃ t, brzOp i zero a off s = .next t ∧
      FlowsTo s t c sl e i (if lanes s c sl e i ≠ [] ∧ ((sreg s c sl e a.toNat == 0) == zero) = true then (s.entry c sl e).pc + off * 4
        else nextPc s c sl e i) := by
  refine ⟨_, bothStreams_team_eq h hst rfl _ _ _ _, flowsTo_jump_of_eq ?_⟩
  rw [act_isEmpty h, rs_eq h]
  by_cases hl : lanes s c sl e i = []
  · rw [decide_eq_true hl, if_pos rfl, if_neg fun k => k.1 hl]
    rfl
  · simp only [hl, decide_false, Bool.false_eq_true, if_false, ne_eq, not_false_eq_true, true_and]
    rfl

/-- The per-lane form of `BRX`: no lane active, or every lane with one aligned target. -/
theorem brxLanes_flows {hd : Hdr} {k : BitVec 12} {a : BitVec 8} (h : Clear s c sl e (.brx hd k a false))
    (hflow : flow s c sl e (.brx hd k a false) = some pc) :
    FlowsTo s ((s.iss c sl e (.brx hd k a false)).finish s []
      (let bad := (s.iss c sl e (.brx hd k a false)).act.filter fun l =>
          decide (((s.iss c sl e (.brx hd k a false)).rv l a.toNat).toNat % 4 ≠ 0)
       if bad.isEmpty then (s.iss c sl e (.brx hd k a false)).branch s k ((s.iss c sl e (.brx hd k a false)).lanePaths a) none
       else .trap ((s.iss c sl e (.brx hd k a false)).targetAlign bad))) c sl e (.brx hd k a false) pc := by
  suffices hone : (∃ ls, (s.iss c sl e (.brx hd k a false)).lanePaths a = [(pc, ls)]) ∧
      ∀ l ∈ lanes s c sl e (.brx hd k a false), (vreg s c sl e l a.toNat).toNat % 4 = 0 by
    obtain ⟨⟨ls, hpaths⟩, haligned⟩ := hone
    have hbad : (lanes s c sl e (.brx hd k a false)).filter (fun l => decide ((vreg s c sl e l a.toNat).toNat % 4 ≠ 0)) = [] :=
      List.filter_eq_nil_iff.mpr fun l hl => by simp [haligned l hl]
    simp only [act_eq h, rv_eq h, hbad, List.isEmpty_nil, if_true, hpaths, branch_single]
    exact flowsTo_jump pc
  unfold flow at hflow
  dsimp only at hflow
  split at hflow
  · next hidle =>
    rw [Option.ite_none_left_eq_some] at hflow
    obtain ⟨hne, hpc⟩ := hflow
    refine ⟨lanePaths_one h hne fun l hl => ?_, by simp [hidle]⟩
    have hl : active s c sl e (.brx hd k a false) l = false := by
      rw [Bool.eq_false_iff, ne_eq, ← mem_lanes, hidle]
      simp
    rw [hl, ← Option.some.inj hpc]
    rfl
  · next l ls hls =>
    rw [Option.ite_none_right_eq_some] at hflow
    obtain ⟨⟨hall, haligned, hsame⟩, hpc⟩ := hflow
    have htarget : ∀ m ∈ lanes s c sl e (.brx hd k a false), vreg s c sl e m a.toNat = pc := fun m hm =>
      (eq_of_beq (List.all_eq_true.mp hsame m (hls ▸ hm))).trans (Option.some.inj hpc)
    have hne : lanesOf (s.entry c sl e).mask ≠ [] := by rw [← hall, hls]; exact List.cons_ne_nil _ _
    refine ⟨lanePaths_one h hne fun m hm => ?_, fun m hm => ?_⟩
    · rw [← hall] at hm
      rw [(mem_lanes m).1 hm, if_pos rfl, htarget m hm]
    · rw [htarget m hm, ← Option.some.inj hpc]
      exact haligned

/-- `BRX`: by an s register, or by each lane's own. -/
theorem execBrx_flows {hd : Hdr} {k : BitVec 12} {a : BitVec 8} {sr : Bool} (h : Clear s c sl e (.brx hd k a sr))
    (hflow : flow s c sl e (.brx hd k a sr) = some pc) :
    ∃ t, exec (.brx hd k a sr) s = .next t ∧ FlowsTo s t c sl e (.brx hd k a sr) pc := by
  refine ⟨_, teamOnly_eq h rfl rfl _, ?_⟩
  cases sr with
  | true =>
    have hflow : (if lanes s c sl e (.brx hd k a true) = [] then some (nextPc s c sl e (.brx hd k a true))
      else if (sreg s c sl e a.toNat).toNat % 4 = 0 then some (sreg s c sl e a.toNat) else none) = some pc := hflow
    rw [act_isEmpty h, rs_eq h]
    split at hflow
    · next hidle =>
      simp only [hidle, decide_true, if_true]
      exact flowsTo_jump_of_eq (Option.some.inj hflow)
    · next hsome =>
      rw [Option.ite_none_right_eq_some] at hflow
      obtain ⟨haligned, hpc⟩ := hflow
      simp only [hsome, haligned, decide_false, Bool.false_eq_true, if_false, if_true, ne_eq, not_true]
      exact flowsTo_jump_of_eq (Option.some.inj hpc)
  | false => exact brxLanes_flows h hflow

/-- `YIELD` with no deferred path on top (R202). -/
theorem yieldOp_flows (h : Clear s c sl e i) (hst : (streamsOf (op9Of i)).1 = true) (hser : (s.entry c sl e).serialised = false) :
    ∃ t, yieldOp i s = .next t ∧ FlowsTo s t c sl e i (nextPc s c sl e i) := by
  refine ⟨_, teamOnly_eq h hst rfl _, ?_⟩
  rw [act_isEmpty h, show (s.iss c sl e i).e.serialised = false from hser]
  by_cases hl : lanes s c sl e i = []
  · simp only [hl, decide_true, if_true]
    exact flowsTo_idle
  · simp only [hl, decide_false, Bool.false_eq_true, if_false]
    refine flowsTo_go ?_ (State.onlyEntry_setEntry _ _ _ _ _) (State.team_setEntry _ _ _ _ _ _ _ _)
    rw [show (s.setEntry (s.iss c sl e i).core (s.iss c sl e i).slot (s.iss c sl e i).entry _).entry c sl e = _ from
      State.entry_setEntry_same _ _ _ _ _]
    exact ⟨rfl, rfl, rfl⟩

/-- An `XFER` to the version that the sub-team already executes, with no transfer pending (R307). -/
theorem execXfer_flows {hd : Hdr} {v : BitVec 3} (h : Clear s c sl e (.xfer hd v)) (hv : v = (s.entry c sl e).version)
    (htarget : (s.entry c sl e).target = none) :
    ∃ t, exec (.xfer hd v) s = .next t ∧ FlowsTo s t c sl e (.xfer hd v) (nextPc s c sl e (.xfer hd v)) := by
  refine ⟨_, teamOnly_eq h rfl rfl _, ?_⟩
  have ht : (s.iss c sl e (.xfer hd v)).e.target = none := htarget
  have hver : v = (s.iss c sl e (.xfer hd v)).e.version := hv
  simp only [ht, Option.isNone_none, ← hver, decide_true, Bool.and_self, if_true]
  split <;> exact flowsTo_idle

/-- A control-flow instruction whose lanes all take one path goes on there. -/
theorem flow_flows (hflow : flow s c sl e i = some pc) (h : Clear s c sl e i) :
    ∃ t, exec i s = .next t ∧ FlowsTo s t c sl e i pc := by
  unfold flow at hflow
  dsimp only at hflow
  split at hflow
  case h_1 | h_2 =>
    obtain rfl := Option.some.inj hflow
    exact ⟨_, bothStreams_team_eq h rfl rfl _ _ _ _, flowsTo_idle⟩
  case h_3 | h_4 => exact braOp_flows h rfl hflow
  case h_5 | h_6 =>
    obtain rfl := Option.some.inj hflow
    exact brlOp_flows h rfl
  case h_7 hd k a off =>
    obtain rfl := Option.some.inj hflow
    have hbrz := brzOp_flows h rfl (zero := true) (a := a) (off := off)
    rwa [beq_true] at hbrz
  case h_8 hd k a off =>
    obtain rfl := Option.some.inj hflow
    have hbrnz := brzOp_flows h rfl (zero := false) (a := a) (off := off)
    rwa [beq_false] at hbrnz
  case h_9 | h_10 => exact execBrx_flows h hflow
  case h_11 | h_12 =>
    rw [Option.ite_none_left_eq_some] at hflow
    obtain ⟨hser, hpc⟩ := hflow
    obtain rfl := Option.some.inj hpc
    exact yieldOp_flows h rfl (Bool.eq_false_iff.mpr hser)
  case h_13 =>
    rw [Option.ite_none_right_eq_some] at hflow
    obtain ⟨⟨hv, htarget⟩, hpc⟩ := hflow
    obtain rfl := Option.some.inj hpc
    exact execXfer_flows h hv htarget
  case h_14 => cases hflow

end Instructions
end Sys2Proof.Machine
end

section
/-! A `BRA` that only some lanes take (R54, R188, R194): the second part of the statement of O11. -/

namespace Sys2Proof.Machine

open Sys2Proof Sys2Proof.Said

section Split

variable {s u : State} {c sl e n : Nat} {i : Instr}

/-! ### What a split finds (R53, R54) -/

/-- Whether the split table has room depends on which teams there are and which entries they have. -/
theorem State.entryFree_congr (hteams : (u.slot c sl).teams.map Prod.fst = (s.slot c sl).teams.map Prod.fst)
    (hids : ∀ t, (u.slot c sl).entriesOf t = (s.slot c sl).entriesOf t) (t : Nat) : u.entryFree c sl t = s.entryFree c sl t := by
  have hlength : (u.slot c sl).teams.length = (s.slot c sl).teams.length := by
    rw [← List.length_map (f := Prod.fst), hteams, List.length_map]
  have htaken : ∀ m : Store Team, m.foldl (fun k y => k + (((s.slot c sl).entriesOf y.1).length - 2)) 0 =
      (m.map Prod.fst).foldl (fun k t => k + (((s.slot c sl).entriesOf t).length - 2)) 0 := fun m =>
      (List.foldl_map (f := Prod.fst) (g := fun k t => k + (((s.slot c sl).entriesOf t).length - 2)) (l := m) (init := 0)).symm
  simp only [State.entryFree, hids, hlength, htaken, hteams]

/-- The team's counter of splits after one more (R54). -/
def State.countSplit (s : State) (c sl t : Nat) : State :=
  s.setTeam c sl t { s.team c sl t with splitCtr := s.splitId c sl t + 1 }

/-- A split's state: the entry as it was but for its stack `st`, and the split table as it was. -/
structure SplitReady (s u : State) (c sl e n : Nat) (st : List StkEntry) : Prop where
  entry : u.entry? c sl e = some { s.entry c sl e with stack := st }
  free : u.entryFree c sl (s.entry c sl e).team = true
  index : (u.slot c sl).freeIndex = n
  new : u.entry? c sl n = none
  regs : (u.team c sl (s.entry c sl e).team).v = (team s c sl e).v ∧ (u.team c sl (s.entry c sl e).team).s = (team s c sl e).s ∧
    (u.team c sl (s.entry c sl e).team).p = (team s c sl e).p ∧ (u.team c sl (s.entry c sl e).team).w = (team s c sl e).w

theorem SplitReady.ne {st : List StkEntry} (h : SplitReady s u c sl e n st) : n ≠ e := by
  intro hne
  have hnew := h.new
  rw [hne, h.entry] at hnew
  cases hnew

/-- The team's counter of splits moves on (R54). -/
theorem splitReady_countSplit (hx : s.entry? c sl e = some (s.entry c sl e))
    (hteam : (s.slot c sl).teams.look (s.entry c sl e).team = some (team s c sl e)) (hfree : s.entryFree c sl (s.entry c sl e).team = true)
    (hindex : (s.slot c sl).freeIndex = n) (hnew : s.entry? c sl n = none) :
    SplitReady s (s.countSplit c sl (s.entry c sl e).team) c sl e n (s.entry c sl e).stack where
  entry := by rw [State.countSplit, State.entry?_setTeam, hx]
  free := by
    rw [State.entryFree_congr (s := s), hfree]
    · rw [State.countSplit, State.setTeam, State.slot_setSlot_same]
      have hkeys := Store.filter_keys_put (fun _ => true) 
        (w := { s.team c sl (s.entry c sl e).team with splitCtr := s.splitId c sl (s.entry c sl e).team + 1 }) hteam rfl
      simpa only [List.filter_true] using hkeys
    · intro t
      rw [State.countSplit, State.setTeam, State.slot_setSlot_same]
      rfl
  index := by
    rw [State.countSplit, State.setTeam, State.slot_setSlot_same]
    exact hindex
  new := by rw [State.countSplit, State.entry?_setTeam, hnew]
  regs := by
    rw [State.countSplit, State.team_setTeam_same]
    exact ⟨rfl, rfl, rfl, rfl⟩

/-- The entry's stack is replaced. -/
theorem SplitReady.setStack {st : List StkEntry} (h : SplitReady s u c sl e n st) (st' : List StkEntry) :
    SplitReady s (u.setEntry c sl e { u.entry c sl e with stack := st' }) c sl e n st' where
  entry := by
    rw [State.entry?_setEntry, if_pos ⟨rfl, rfl, rfl⟩, State.entry_of_look h.entry]
  free := by
    rw [State.entryFree_congr (s := u), h.free]
    · rw [State.setEntry, State.slot_setSlot_same]
    · exact State.entriesOf_setEntry h.entry (by rw [State.entry_of_look h.entry])
  index := by
    have hlook : ∀ m, (Store.look ((u.setEntry c sl e { u.entry c sl e with stack := st' }).slot c sl).entries m).isNone =
        (Store.look (u.slot c sl).entries m).isNone := by
      intro m
      have hm : Store.look ((u.setEntry c sl e { u.entry c sl e with stack := st' }).slot c sl).entries m = _ :=
        State.entry?_setEntry _ c sl e c sl m _
      rw [hm]
      split
      · next hme =>
        rw [hme.2.2, show Store.look (u.slot c sl).entries e = _ from h.entry]
        rfl
      · rfl
    rw [← h.index, Slot.freeIndex, Slot.freeIndex]
    simp only [hlook]
  new := by
    rw [State.entry?_setEntry, if_neg fun k => h.ne k.2.2, h.new]
  regs := by
    rw [State.team_setEntry]
    exact h.regs

/-! ### Its steps -/

/-- A push onto a stack with room in the unit, of a team of one row (R58, R59). -/
theorem push_resident {x : StkEntry} (hw : (u.team c sl (u.entry c sl e).team).w = 0) (hlen : (u.entry c sl e).stack.length < 8) :
    u.push c sl e x = some (u.setEntry c sl e { u.entry c sl e with stack := x :: (u.entry c sl e).stack }) := by
  have hnone : (x :: (u.entry c sl e).stack)[8]? = none := List.getElem?_eq_none (by simpa using hlen)
  simp [State.push, hw, hnone]

/-- The JOIN entry of a split (R54). -/
def joinEntry (s : State) (c sl t : Nat) (k : BitVec 12) (version : BitVec 3) (rows : Nat) : StkEntry :=
  { kind := 0, k := k, split := s.splitId c sl t, pc := version.setWidth 32, words := List.replicate rows 0 }

/-- The state after a split over `u`: the others in a new entry at `next`, the taken lanes at `pc`. -/
def splitState (x : Iss) (u : State) (pc next : Word) (taken rest : List Word) : State :=
  let u3 := x.newPath u next rest
  x.passes (x.goto (u3.setEntry x.core x.slot x.entry { u3.entry x.core x.slot x.entry with mask := taken }) pc)

/-- A branch of two paths, with room for the second and for the JOIN entry. -/
theorem branch_splits (x : Iss) {k : BitVec 12} {pc next : Word} {taken rest : List Nat}
    (hjoin : (if k = 0 then some (s.countSplit x.core x.slot x.e.team)
      else (s.countSplit x.core x.slot x.e.team).push x.core x.slot x.entry
        (joinEntry s x.core x.slot x.e.team k x.e.version x.e.mask.length)) = some u)
    (hfree : u.entryFree x.core x.slot x.e.team = true) :
    x.branch s k [(pc, taken), (next, rest)] none =
      .done (splitState x u pc next (maskOfLanes x.e.mask.length taken) (maskOfLanes x.e.mask.length rest)) := by
  have hto : x.branchTo s k [(pc, taken), (next, rest)] none =
      some (x.goto ((x.newPath u next (maskOfLanes x.e.mask.length rest)).setEntry x.core x.slot x.entry
        { (x.newPath u next (maskOfLanes x.e.mask.length rest)).entry x.core x.slot x.entry with
          mask := maskOfLanes x.e.mask.length taken }) pc) := by
    unfold State.countSplit joinEntry at hjoin
    unfold Iss.branchTo
    simp only [hjoin, List.map_cons, List.map_nil, Iss.spread, Iss.defer, hfree, if_true, Option.map_some]
  unfold Iss.branch
  simp only [hto]
  rfl

/-- The stack with which both sub-teams of a split begin (R54). -/
def splitStack (s : State) (c sl e : Nat) (k : BitVec 12) : List StkEntry :=
  if k = 0 then (s.entry c sl e).stack
  else joinEntry s c sl (s.entry c sl e).team k (s.entry c sl e).version (s.entry c sl e).mask.length :: (s.entry c sl e).stack

/-- The JOIN entry pushed, where K is not 0. -/
theorem SplitReady.join {k : BitVec 12} (h : SplitReady s u c sl e n (s.entry c sl e).stack) (hw : (team s c sl e).w = 0)
    (hlen : (s.entry c sl e).stack.length < 8) :
    ∃ u', (if k = 0 then some u
        else u.push c sl e (joinEntry s c sl (s.entry c sl e).team k (s.entry c sl e).version (s.entry c sl e).mask.length)) = some u' ∧
      SplitReady s u' c sl e n (splitStack s c sl e k) := by
  have hent := State.entry_of_look h.entry
  by_cases hk : k = 0
  · rw [if_pos hk, splitStack, if_pos hk]
    exact ⟨u, rfl, h⟩
  · obtain ⟨-, -, -, huw⟩ := h.regs
    rw [if_neg hk, push_resident (by rw [hent, ← hw]; exact huw) (by rw [hent]; exact hlen), splitStack, if_neg hk]
    have hset := h.setStack
      (joinEntry s c sl (s.entry c sl e).team k (s.entry c sl e).version (s.entry c sl e).mask.length :: (u.entry c sl e).stack)
    rw [hent] at hset ⊢
    exact ⟨_, rfl, hset⟩

/-! ### Its two sub-teams -/

section Outcome

variable {x : Iss} {pc next : Word} {taken rest : List Word}

/-- The new sub-team: the entry's copy at the next address (R54, R188). -/
def Iss.copied (x : Iss) (y : Entry) (next : Word) (rest : List Word) : Entry :=
  { y with pc := next, npc := next, mask := rest, segs := [], ibuf := none, ustep := 0, arrived := false, yielded := false,
           brkSkip := false, till := x.till, st := .stalled x.till }

theorem entry_goto (x : Iss) (v : State) (pc : Word) :
    (x.goto v pc).entry x.core x.slot x.entry = x.onward (v.entry x.core x.slot x.entry) pc := by
  simp only [Iss.goto, State.stallTo, State.entry_setEntry_same]
  rfl

theorem entry?_goto_other (x : Iss) (v : State) (pc : Word) {m : Nat} (hm : m ≠ x.entry) :
    (x.goto v pc).entry? x.core x.slot m = v.entry? x.core x.slot m := by
  simp only [Iss.goto, State.stallTo, State.entry?_setEntry, hm, and_false, if_false]

theorem team_goto (x : Iss) (v : State) (pc : Word) (m : Nat) : (x.goto v pc).team x.core x.slot m = v.team x.core x.slot m := by
  simp only [Iss.goto, State.stallTo, State.team_setEntry]

theorem entry?_newPath (x : Iss) (v : State) (next : Word) (rest : List Word) (m : Nat) :
    (x.newPath v next rest).entry? x.core x.slot m =
      if m = (v.slot x.core x.slot).freeIndex then some (x.copied (v.entry x.core x.slot x.entry) next rest)
      else v.entry? x.core x.slot m := by
  refine (State.entry?_setEntry _ x.core x.slot (v.slot x.core x.slot).freeIndex x.core x.slot m
    (x.copied (v.entry x.core x.slot x.entry) next rest)).trans ?_
  simp only [true_and]

theorem entry_newPath (x : Iss) (v : State) (next : Word) (rest : List Word) (hne : (v.slot x.core x.slot).freeIndex ≠ x.entry) :
    (x.newPath v next rest).entry x.core x.slot x.entry = v.entry x.core x.slot x.entry := by
  refine (State.entry_setEntry _ x.core x.slot (v.slot x.core x.slot).freeIndex x.core x.slot x.entry
    (x.copied (v.entry x.core x.slot x.entry) next rest)).trans ?_
  rw [if_neg fun k => hne k.2.2.symm]

theorem splitState_new (hne : (u.slot x.core x.slot).freeIndex ≠ x.entry) :
    (splitState x u pc next taken rest).entry? x.core x.slot (u.slot x.core x.slot).freeIndex =
      some (x.copied (u.entry x.core x.slot x.entry) next rest) := by
  rw [splitState, Iss.passes, State.entry?_setPipe, entry?_goto_other x _ pc hne, State.entry?_setEntry, if_neg fun k => hne k.2.2,
    entry?_newPath, if_pos rfl]

theorem splitState_old (hne : (u.slot x.core x.slot).freeIndex ≠ x.entry) :
    (splitState x u pc next taken rest).entry x.core x.slot x.entry =
      x.onward { u.entry x.core x.slot x.entry with mask := taken } pc := by
  rw [splitState, Iss.passes, State.entry_setPipe, entry_goto, State.entry_setEntry_same, entry_newPath x u next rest hne]

theorem splitState_team (m : Nat) : (splitState x u pc next taken rest).team x.core x.slot m = u.team x.core x.slot m := by
  rw [splitState, Iss.passes, State.team_setPipe, team_goto, State.team_setEntry]
  exact State.team_setEntry _ _ _ _ _ _ _ _

end Outcome

/-- Two sub-teams of one team with the stack `st`: the taken lanes at `pc`, the others in entry `n` at `next`. -/
structure SplitInto (s t : State) (c sl e n : Nat) (pc next : Word) (taken rest : List Word) (st : List StkEntry) (y : Entry) : Prop where
  new : t.entry? c sl n = some y
  newEntry : y.pc = next ∧ y.mask = rest ∧ y.team = (s.entry c sl e).team ∧ y.stack = st
  oldEntry : (t.entry c sl e).pc = pc ∧ (t.entry c sl e).mask = taken ∧ (t.entry c sl e).team = (s.entry c sl e).team ∧
    (t.entry c sl e).stack = st
  regs : (team t c sl e).v = (team s c sl e).v ∧ (team t c sl e).s = (team s c sl e).s ∧ (team t c sl e).p = (team s c sl e).p

/-- A split over such a state makes two sub-teams of one team. -/
theorem SplitReady.splitInto {st : List StkEntry} (h : SplitReady s u c sl e n st) (pc next : Word) (taken rest : List Word) :
    ∃ y, SplitInto s (splitState (s.iss c sl e i) u pc next taken rest) c sl e n pc next taken rest st y := by
  have hent := State.entry_of_look h.entry
  have hne : (u.slot c sl).freeIndex ≠ e := h.index ▸ h.ne
  have hnew : (splitState (s.iss c sl e i) u pc next taken rest).entry? c sl (u.slot c sl).freeIndex = some _ :=
    splitState_new (x := s.iss c sl e i) hne
  have hold : (splitState (s.iss c sl e i) u pc next taken rest).entry c sl e =
      (s.iss c sl e i).onward { u.entry c sl e with mask := taken } pc := splitState_old (x := s.iss c sl e i) hne
  rw [h.index] at hnew
  have hteam : (splitState (s.iss c sl e i) u pc next taken rest).team c sl (s.entry c sl e).team = u.team c sl (s.entry c sl e).team :=
    splitState_team (x := s.iss c sl e i) _
  have hregs : team (splitState (s.iss c sl e i) u pc next taken rest) c sl e = u.team c sl (s.entry c sl e).team := by
    rw [Said.team, hold, hent]
    exact hteam
  obtain ⟨hv, hs, hp, -⟩ := h.regs
  refine ⟨_, hnew, ?_, ?_, ?_⟩
  · rw [show (u.entry (s.iss c sl e i).core (s.iss c sl e i).slot (s.iss c sl e i).entry) = _ from hent]
    exact ⟨rfl, rfl, rfl, rfl⟩
  · rw [hold, hent]
    exact ⟨rfl, rfl, rfl, rfl⟩
  · rw [hregs]
    exact ⟨hv, hs, hp⟩

/-- A `BRA` that some lanes take and some do not. -/
theorem bra_splits {hd : Hdr} {k : BitVec 12} {off : Word} (h : Clear s c sl e (.bra hd k off))
    (hl : lanes s c sl e (.bra hd k off) ≠ []) (hrest : others s c sl e (.bra hd k off) ≠ [])
    (htarget : (s.entry c sl e).pc + off * 4 ≠ nextPc s c sl e (.bra hd k off))
    (hready : SplitReady s (s.countSplit c sl (s.entry c sl e).team) c sl e n (s.entry c sl e).stack)
    (hw : (team s c sl e).w = 0) (hlen : (s.entry c sl e).stack.length < 8) :
    ∃ t y, exec (.bra hd k off) s = .next t ∧
      SplitInto s t c sl e n ((s.entry c sl e).pc + off * 4) (nextPc s c sl e (.bra hd k off))
        (maskOfLanes (s.entry c sl e).mask.length (lanes s c sl e (.bra hd k off)))
        (maskOfLanes (s.entry c sl e).mask.length (others s c sl e (.bra hd k off))) (splitStack s c sl e k) y := by
  obtain ⟨u, hjoin, hu⟩ := hready.join (k := k) hw hlen
  obtain ⟨y, hy⟩ := hu.splitInto (i := .bra hd k off) ((s.entry c sl e).pc + off * 4) (nextPc s c sl e (.bra hd k off))
    (maskOfLanes (s.entry c sl e).mask.length (lanes s c sl e (.bra hd k off)))
    (maskOfLanes (s.entry c sl e).mask.length (others s c sl e (.bra hd k off)))
  refine ⟨_, y, (bothStreams_team_eq h rfl rfl _ _ _ _).trans ?_, hy⟩
  have hpaths : (s.iss c sl e (.bra hd k off)).twoPaths ((s.iss c sl e (.bra hd k off)).target off) =
      [((s.entry c sl e).pc + off * 4, lanes s c sl e (.bra hd k off)),
        (nextPc s c sl e (.bra hd k off), others s c sl e (.bra hd k off))] := by
    rw [twoPaths_eq h, if_neg hl, if_neg]
    · rfl
    · rintro (hall | hnext)
      · exact hrest (others_eq_nil.mpr hall)
      · exact htarget hnext
  rw [hpaths, branch_splits (s.iss c sl e (.bra hd k off)) hjoin hu.free]
  rfl

end Split

/-- Settles O11: one path is a jump, two paths are a split. -/
theorem branchesGoOnOrSplit : Obligations.BranchesGoOnOrSplit := by
  refine ⟨fun s c sl e i pc hflow h => ?_, fun s c sl e n hd k off h hx hl hrest htarget hteam hfree hindex hnew hw hlen => ?_⟩
  · obtain ⟨t, ht, honly, hholds, y, hy, hmask, hstack⟩ := flow_flows hflow h
    refine ⟨t, ht, honly, hholds, ?_⟩
    rw [hy]
    exact ⟨rfl, hmask, hstack, rfl, rfl⟩
  · obtain ⟨t, y, ht, hnewEntry, ⟨hpc', hmask', hteam', hstack'⟩, ⟨hpc, hmask, hteam, hstack⟩, hregs⟩ :=
      bra_splits h hl hrest htarget (splitReady_countSplit hx hteam hfree hindex hnew) hw hlen
    exact ⟨t, y, ht, hnewEntry, hpc, hmask, hpc', hmask', hteam', hteam, hstack'.trans hstack.symm, hstack, hregs⟩

end Sys2Proof.Machine
end

section
/-! Lanes that leave a sub-team for good (R201): the statement of O15. -/

namespace Sys2Proof.Machine

open Sys2Proof Sys2Proof.Said

section Exit

variable {s : State} {c sl e : Nat} {i : Instr}

/-! ### An entry that is freed (R56, R328) -/

/-- The requests for which a sub-team was pending are counted in their queues: no slot changes. -/
theorem State.slot_endPending (s : State) (x : Entry) (c sl : Nat) : (s.endPending x).slot c sl = s.slot c sl := by
  unfold State.endPending
  induction x.preqs generalizing s with
  | nil => rfl
  | cons r rs ih =>
    rw [List.foldl_cons, ih]
    split <;> rfl

theorem State.entry?_endPending (s : State) (x : Entry) (c sl n : Nat) : (s.endPending x).entry? c sl n = s.entry? c sl n := by
  rw [State.entry?, State.entry?, State.slot_endPending]

theorem Slot.mem_entriesOf {z : Slot} {n : Nat} {x : Entry} (h : z.entries.look n = some x) : n ∈ z.entriesOf x.team :=
  List.mem_map.mpr ⟨(n, x), List.mem_filter.mpr ⟨Store.mem_of_look h, beq_self_eq_true _⟩, rfl⟩

/-- With an empty stack and another sub-team of its team, a sub-team without lanes frees its entry. -/
theorem proceedEmpty_frees {n : Nat} {x : Entry} (hstack : (s.entry c sl e).stack = []) (hne : n ≠ e) (hx : s.entry? c sl n = some x)
    (hteam : x.team = (s.entry c sl e).team) (till fuel : Nat) :
    s.proceedEmpty c sl e till (fuel + 1) = (s.endPending (s.entry c sl e)).delEntry c sl e := by
  have hload : ∀ m, s.loadStack c sl e m = s := State.loadStack_resident (by simp [hstack])
  have hlook : ((s.endPending (s.entry c sl e)).delEntry c sl e).entry? c sl n = some x := by
    rw [State.entry?_delEntry, if_neg hne, State.entry?_endPending, hx]
  have hleft : (((s.endPending (s.entry c sl e)).delEntry c sl e).slot c sl).entriesOf (s.entry c sl e).team ≠ [] :=
    List.ne_nil_of_mem (hteam ▸ Slot.mem_entriesOf hlook)
  have hnot : ((((s.endPending (s.entry c sl e)).delEntry c sl e).slot c sl).entriesOf (s.entry c sl e).team).isEmpty = false := by
    rw [Bool.eq_false_iff, ne_eq, List.isEmpty_iff]
    exact hleft
  unfold State.proceedEmpty
  simp only [hload, hstack, List.length_nil, State.discard, hnot, Bool.false_eq_true, if_false]

/-! ### EXIT (R201) -/

/-- The state in which the lanes leave: the passes are charged, and the entry goes on at the next instruction. -/
def Iss.leaving (x : Iss) (s : State) : State := x.passes (x.goto s x.npc)

theorem entry_leaving (x : Iss) (s : State) :
    (x.leaving s).entry x.core x.slot x.entry = x.onward (s.entry x.core x.slot x.entry) x.npc := by
  rw [Iss.leaving, Iss.passes, State.entry_setPipe, entry_goto]

theorem entry?_leaving_other (x : Iss) (s : State) {n : Nat} (hn : n ≠ x.entry) :
    (x.leaving s).entry? x.core x.slot n = s.entry? x.core x.slot n := by
  rw [Iss.leaving, Iss.passes, State.entry?_setPipe, entry?_goto_other x s x.npc hn]

theorem team_leaving (x : Iss) (s : State) (m : Nat) : (x.leaving s).team x.core x.slot m = s.team x.core x.slot m := by
  rw [Iss.leaving, Iss.passes, State.team_setPipe, team_goto]

/-- The lanes that an `EXIT` leaves. -/
def lanesLeft (s : State) (c sl e : Nat) (i : Instr) : List Word :=
  maskAndNot (s.entry c sl e).mask (maskOfLanes (s.entry c sl e).mask.length (lanes s c sl e i))

/-- The sub-team's entry once its lanes have left. -/
def Iss.remaining (x : Iss) (s : State) (left : List Word) : Entry :=
  { x.onward (s.entry x.core x.slot x.entry) x.npc with mask := left, pc := x.npc, ibuf := none, ustep := 0 }

/-- What an `EXIT` does whose release has nothing to wait for. -/
theorem exitOp_leaves (h : Clear s c sl e i) (hst : (streamsOf (op9Of i)).1 = true)
    (hrel : s.released (.team c sl (s.entry c sl e).team) e = true) :
    exitOp i s = .next
      (let x := s.iss c sl e i
       let u := (x.leaving s).setEntry c sl e (x.remaining s (lanesLeft s c sl e i))
       if maskEmpty (lanesLeft s c sl e i) then u.proceedEmpty c sl e x.till ((s.entry c sl e).stack.length + 1)
       else u.stallTo c sl e x.till) := by
  have hent : ((s.iss c sl e i).leaving s).entry c sl e = (s.iss c sl e i).onward (s.entry c sl e) (s.iss c sl e i).npc :=
    entry_leaving _ _
  refine (bothStreams_team_eq h hst rfl _ _ _ _).trans ?_
  have hexit : (s.iss c sl e i).exit s = .done (((s.iss c sl e i).leaving s).leaveLanes c sl e
      (maskOfLanes (s.entry c sl e).mask.length (lanes s c sl e i)) (s.iss c sl e i).till) := by
    unfold Iss.exit
    rw [act_eq h]
    exact if_pos hrel
  rw [hexit]
  simp only [Iss.finish, State.leaveLanes, hent]
  rfl

/-- Lanes are left: the sub-team goes on without the others. -/
theorem exit_remains (h : Clear s c sl e i) (hst : (streamsOf (op9Of i)).1 = true)
    (hrel : s.released (.team c sl (s.entry c sl e).team) e = true) (hleft : maskEmpty (lanesLeft s c sl e i) = false) :
    ∃ t, exitOp i s = .next t ∧ (t.entry c sl e).mask = lanesLeft s c sl e i ∧ (t.entry c sl e).pc = nextPc s c sl e i ∧
      team t c sl e = team s c sl e := by
  refine ⟨_, exitOp_leaves h hst hrel, ?_⟩
  simp only [hleft, Bool.false_eq_true, if_false, State.stallTo, Said.team, State.entry_setEntry_same, State.team_setEntry]
  exact ⟨rfl, rfl, team_leaving (s.iss c sl e i) s (s.entry c sl e).team⟩

/-- No lane is left and the stack is empty: the entry is freed. -/
theorem exit_frees {n : Nat} {x : Entry} (h : Clear s c sl e i) (hst : (streamsOf (op9Of i)).1 = true)
    (hrel : s.released (.team c sl (s.entry c sl e).team) e = true) (hleft : maskEmpty (lanesLeft s c sl e i) = true)
    (hstack : (s.entry c sl e).stack = []) (hne : n ≠ e) (hx : s.entry? c sl n = some x) (hteam : x.team = (s.entry c sl e).team) :
    ∃ t, exitOp i s = .next t ∧ t.entry? c sl e = none ∧ ∀ m, m ≠ e → t.entry? c sl m = s.entry? c sl m := by
  have hentry : (((s.iss c sl e i).leaving s).setEntry c sl e ((s.iss c sl e i).remaining s (lanesLeft s c sl e i))).entry c sl e =
      (s.iss c sl e i).remaining s (lanesLeft s c sl e i) := State.entry_setEntry_same _ _ _ _ _
  have hother : ∀ m, m ≠ e →
      (((s.iss c sl e i).leaving s).setEntry c sl e ((s.iss c sl e i).remaining s (lanesLeft s c sl e i))).entry? c sl m =
        s.entry? c sl m := fun m hm => by
    rw [State.entry?_setEntry, if_neg fun k => hm k.2.2]
    exact entry?_leaving_other (s.iss c sl e i) s hm
  have hfrees := proceedEmpty_frees (by rw [hentry]; exact hstack) hne ((hother n hne).trans hx) (by rw [hentry]; exact hteam)
    (s.iss c sl e i).till (s.entry c sl e).stack.length
  refine ⟨_, (exitOp_leaves h hst hrel).trans (by rw [if_pos hleft, hfrees]), ?_, fun m hm => ?_⟩
  · rw [State.entry?_delEntry, if_pos rfl]
  · rw [State.entry?_delEntry, if_neg hm, State.entry?_endPending, hother m hm]

end Exit

/-- Settles O15: the lanes that are left go on, or the entry is freed. -/
theorem exitTakesLanesOut : Obligations.ExitTakesLanesOut := by
  rintro s c sl e i (⟨hd, rfl⟩ | ⟨hd, rfl⟩) h hrel
  · exact ⟨exit_remains h rfl hrel, fun hleft hstack ⟨_, _, hne, _, hx, hteam⟩ => exit_frees h rfl hrel hleft hstack hne hx hteam⟩
  · exact ⟨exit_remains h rfl hrel, fun hleft hstack ⟨_, _, hne, _, hx, hteam⟩ => exit_frees h rfl hrel hleft hstack hne hx hteam⟩

end Sys2Proof.Machine
end
